-- ==== Sys2Proof/Word.lean ====
section
/-!
DEFINITION. The word types of the LX768 and the register classes' widths (R2, R11): plain names, no behaviour.
-/
namespace Sys2Proof

/-- One byte (R2). -/
abbrev Byte := BitVec 8

/-- A v or k register (R11), an instruction word (R269). -/
abbrev Word := BitVec 32

/-- A register pair, an x or q register (R11), a tagged pointer (R124). -/
abbrev DWord := BitVec 64

/-- One bit per lane of a group, bit l being lane l (R7). -/
abbrev LaneMask := BitVec 32

/-- A packet unit of 16 bytes (R32). -/
abbrev PUnit := BitVec 128

/-- A register file or table of w-bit entries held sparsely: the pairs of an index and a value that is not 0, by rising index.
An index not listed holds 0. -/
abbrev Sparse (w : Nat) := List (Nat × BitVec w)

end Sys2Proof
end

