-- ==== Sys2Proof/Syntax.lean ====
section
/-!
DEFINITION. The syntax of the machine: one constructor of `Instr` for each row of spec/opcode_table.json. A row that is an
instruction word carries the fields of its format (R269, R271, R275); a row that is an operation or event of the machine
carries what distinguishes one happening of it from another (which port, packet, command, group ...).
-/
namespace Sys2Proof

/-- TR (R271): D, A, B, M (1: B names k[B]), guard G, switch marker S. -/
structure FormTR where
  s : Bool
  d : BitVec 7
  a : BitVec 7
  b : BitVec 7
  m : Bool
  g : BitVec 3
deriving DecidableEq, Repr

/-- Compare (R271): p is pd, n is AND. -/
structure FormCmp where
  s : Bool
  p : BitVec 6
  n : Bool
  a : BitVec 7
  b : BitVec 7
  m : Bool
  g : BitVec 3
deriving DecidableEq, Repr

/-- TI (R271): i is imm8. -/
structure FormTI where
  s : Bool
  d : BitVec 7
  a : BitVec 7
  i : BitVec 8
  g : BitVec 3
deriving DecidableEq, Repr

/-- SHFI (R297): k is the kind, n the amount. -/
structure FormShfi where
  s : Bool
  d : BitVec 7
  a : BitVec 7
  k : BitVec 2
  n : BitVec 5
  g : BitVec 3
deriving DecidableEq, Repr

/-- MOVI (R296): A is 0; i is imm8. -/
structure FormMovi where
  s : Bool
  d : BitVec 7
  i : BitVec 8
  g : BitVec 3
deriving DecidableEq, Repr

/-- TM (R271): c is CLASS, o is off6. -/
structure FormTM where
  s : Bool
  d : BitVec 7
  a : BitVec 7
  c : BitVec 2
  o : BitVec 6
  g : BitVec 3
deriving DecidableEq, Repr

/-- TM ATOM (R271, R281): n is N, 1 for the RED form. -/
structure FormAtom where
  s : Bool
  d : BitVec 7
  a : BitVec 7
  c : BitVec 2
  n : Bool
  g : BitVec 3
deriving DecidableEq, Repr

/-- TM ATOM of the operations that always return (R281): N is 0. -/
structure FormAtomRet where
  s : Bool
  d : BitVec 7
  a : BitVec 7
  c : BitVec 2
  g : BitVec 3
deriving DecidableEq, Repr

/-- TB (R271): u is U, e is disp20. -/
structure FormTB where
  s : Bool
  u : Bool
  e : BitVec 20
  g : BitVec 3
deriving DecidableEq, Repr

/-- JMPI, CALLI and RET (R303): u is D [0]. -/
structure FormJump where
  s : Bool
  u : Bool
  a : BitVec 7
  g : BitVec 3
deriving DecidableEq, Repr

/-- RJOIN (R110): every field but S is fixed. -/
structure FormS where
  s : Bool
deriving DecidableEq, Repr

/-- TF with D = 0. -/
structure FormA where
  s : Bool
  a : BitVec 7
  g : BitVec 3
deriving DecidableEq, Repr

/-- TF with D = 0 and A = 0. -/
structure FormG where
  s : Bool
  g : BitVec 3
deriving DecidableEq, Repr

/-- TF (R271) with D and A. -/
structure FormTF where
  s : Bool
  d : BitVec 7
  a : BitVec 7
  g : BitVec 3
deriving DecidableEq, Repr

/-- QREAD and QSUB (R265): D and A are 0-7. -/
structure FormQ where
  s : Bool
  d : BitVec 3
  a : BitVec 3
  g : BitVec 3
deriving DecidableEq, Repr

/-- STQ (R265): D is a q register. -/
structure FormStq where
  s : Bool
  d : BitVec 3
  a : BitVec 7
  g : BitVec 3
deriving DecidableEq, Repr

/-- GROW, SHRINK and ADMODE (R99, R220): A is 0 and G is 7. -/
structure FormD where
  s : Bool
  d : BitVec 7
deriving DecidableEq, Repr

/-- FENCE (R320): m is the class mask, c the scope, k the kind. -/
structure FormFence where
  s : Bool
  m : BitVec 3
  c : BitVec 3
  k : BitVec 7
  g : BitVec 3
deriving DecidableEq, Repr

/-- CHWP (R327): a is the channel. -/
structure FormChwp where
  s : Bool
  d : BitVec 7
  a : BitVec 2
  g : BitVec 3
deriving DecidableEq, Repr

/-- P2V (R301): a names a predicate. -/
structure FormP2v where
  s : Bool
  d : BitVec 7
  a : BitVec 6
  g : BitVec 3
deriving DecidableEq, Repr

/-- V2P (R301): d names a predicate. -/
structure FormV2p where
  s : Bool
  d : BitVec 6
  a : BitVec 7
  g : BitVec 3
deriving DecidableEq, Repr

/-- TP (R271): PRED. -/
structure FormPred where
  s : Bool
  d : BitVec 6
  a : BitVec 6
  b : BitVec 6
  t : BitVec 4
  g : BitVec 3
deriving DecidableEq, Repr

/-- MMA and MMAJ (R347): t is the type. -/
structure FormMma where
  s : Bool
  d : BitVec 7
  a : BitVec 7
  t : BitVec 5
  g : BitVec 3
deriving DecidableEq, Repr

/-- MLOOP (R347): d is the tile, t the type. -/
structure FormMloop where
  s : Bool
  d : BitVec 7
  t : BitVec 5
  g : BitVec 3
deriving DecidableEq, Repr

/-- ADRAIN.R (R347): f is the format. -/
structure FormDrainR where
  s : Bool
  d : BitVec 7
  a : BitVec 7
  f : BitVec 3
  g : BitVec 3
deriving DecidableEq, Repr

/-- ADRAIN.M and ADRAIN.U (R347): d is the tile, f the format. -/
structure FormDrain where
  s : Bool
  d : BitVec 7
  f : BitVec 3
  g : BitVec 3
deriving DecidableEq, Repr

/-- TF with A = 0. -/
structure FormDG where
  s : Bool
  d : BitVec 7
  g : BitVec 3
deriving DecidableEq, Repr

/-- CHCLOSE (R376): a is the channel. -/
structure FormChclose where
  s : Bool
  a : BitVec 2
  g : BitVec 3
deriving DecidableEq, Repr

/-- GUARD hint (R275): n negates, p is the predicate. -/
structure FormGuard where
  n : Bool
  p : BitVec 6
deriving DecidableEq, Repr

/-- IMM hint (R275): i is the extension. -/
structure FormImm where
  i : BitVec 16
deriving DecidableEq, Repr

/-- MOD hint (R275): l release, q acquire, k A-from-k, e lease policy, t SAT, r rounding. -/
structure FormMod where
  l : Bool
  q : Bool
  k : Bool
  e : BitVec 2
  t : Bool
  r : BitVec 3
deriving DecidableEq, Repr

/-- DELAY hint (R275): n is the count of issue slots. -/
structure FormDelay where
  n : BitVec 8
deriving DecidableEq, Repr

/-- The message kinds of the time exchange (R45). -/
inductive TimexKind where
  | sync
  | followUp
  | delayRequest
  | delayResponse
deriving DecidableEq, Repr

/-- A packet of the fabric: the header fields of R32 and the payload units. `rsvd` is true when a reserved header field
is not 0. -/
structure Packet where
  typ : BitVec 4
  cls : BitVec 2
  ca : Bool
  cb : Bool
  det : Bool
  ea : Bool
  eb : Bool
  rsvd : Bool
  dlog : BitVec 12
  dphys : BitVec 12
  slog : BitVec 12
  sphys : BitVec 12
  gen : BitVec 16
  len : BitVec 6
  op : BitVec 6
  sub : BitVec 2
  dom : BitVec 8
  offset : BitVec 46
  tagCore : BitVec 10
  tagGrp : BitVec 6
  tagSlot : BitVec 3
  tagE : Bool
  tagPos : BitVec 5
  dseq : BitVec 32
  payload : List PUnit
deriving DecidableEq, Repr

/-- The link header of a flit (R28). -/
structure LinkHeader where
  ftype : BitVec 4
  seq : BitVec 12
  ack : BitVec 12
  creq : BitVec 5
  crsp : BitVec 5
  cctl : BitVec 5
  keysel : Bool
  rsvd : BitVec 20
deriving DecidableEq, Repr

/-- One flit slot as it reaches a receiver (R27, R30): the 256 bytes that left the far end, and what the lanes changed of them, as
byte and new value. -/
structure RxSlot where
  bytes : List Byte
  errors : List (Nat × Byte)
deriving DecidableEq, Repr

/-- The payload of a snapshot protocol message (R200), with the sending logical chip of its header. -/
structure SnapMsg where
  colour : Bool
  count : Word
  snapno : Word
  lchip : BitVec 12
  reqcol : BitVec 2
  src : BitVec 12
deriving DecidableEq, Repr

/-- The header of a management request (R66): its sequence number and the requesting VF, 0xFF from the management link. -/
structure MgmtReq where
  seq : BitVec 16
  vf : BitVec 8
deriving DecidableEq, Repr

/-- One entry of a RESTORE request (R66). -/
structure RestoreTarget where
  lchip : BitVec 12
  part : BitVec 4
  sinks : BitVec 8
deriving DecidableEq, Repr

/-- Where a trap or a fence stands: an entry of a group, named by the group's handle and the entry's lowest lane, or the
control processor of a core (R121). -/
inductive TrapSource where
  | entry (group : Nat) (lane : Nat)
  | cp (core : Nat)
deriving DecidableEq, Repr

/-- What KEY_INSTALL installs (R48, R58): the key of a tenant key ID, or the CXL IDE key of a port. -/
inductive KeySlot where
  | tenant (id : Nat)
  | ide (port : Nat)
deriving DecidableEq, Repr

/-- What happens in an operation or event of the machine, with its particulars (which port, packet, command, group ...):
one constructor for each row of the table that is no instruction word. -/
inductive Event where
  /-- POWER_ON (R23). -/
  | powerOn
  /-- RESET_STEP_COMPLETE (R23). -/
  | resetStepComplete
  /-- INPUT_VOLTAGE_FAULT (R19). -/
  | inputVoltageFault (millivolts : Nat)
  /-- POWER_CAP_WINDOW (R20). -/
  | powerCapWindow (draw : List (Nat × Nat))
  /-- COOLANT_FAULT (R19). -/
  | coolantFault (celsius : Nat) (millilitres : Nat)
  /-- JUNCTION_THROTTLE (R19). -/
  | junctionThrottle (die : Nat)
  /-- JUNCTION_TRIP (R19). -/
  | junctionTrip (die : Nat)
  /-- CONTROL_PARITY_ERROR (R62). -/
  | controlParityError (die : Nat)
  /-- PEOL_UPDATE (R24). -/
  | peolUpdate
  /-- PATROL_SCRUB (R61). -/
  | patrolScrub (addr : Nat)
  /-- TIMEX_SEND (R45). -/
  | timexSend
  /-- TIMEX (R45). -/
  | timex (port : Nat) (kind : TimexKind) (stamp : DWord)
  /-- TIME_WIDE (R45). -/
  | timeWide
  /-- LANE_FAILURE (R26). -/
  | laneFailure (port : Nat) (holdsFour : Bool)
  /-- FLIT_TRANSMIT (R29). -/
  | flitTransmit (port : Nat)
  /-- FLIT_RECEIVE (R30). -/
  | flitReceive (port : Nat) (slot : RxSlot)
  /-- RETRY_REQUEST (R30). -/
  | retryRequest (port : Nat) (ack : BitVec 12)
  /-- FLIT_COUNTER_LIMIT (R29). -/
  | flitCounterLimit (port : Nat)
  /-- LINK_REKEY (R29). -/
  | linkRekey (port : Nat) (tx : Bool) (slot : Bool) (key : BitVec 256) (salt : Word)
  /-- RDREQ (R33). -/
  | rdreq (p : Packet)
  /-- WRREQ (R33). -/
  | wrreq (p : Packet)
  /-- ATREQ (R33). -/
  | atreq (p : Packet)
  /-- CONTRIB (R40). -/
  | contrib (p : Packet)
  /-- RDRSP (R35). -/
  | rdrsp (p : Packet)
  /-- WRACK (R35). -/
  | wrack (p : Packet)
  /-- ATRSP (R35). -/
  | atrsp (p : Packet)
  /-- ERRRSP (R36). -/
  | errrsp (p : Packet)
  /-- NACK (R44). -/
  | nack (p : Packet)
  /-- SLOT_TIMEOUT (R35). -/
  | slotTimeout (group : Nat) (slot : Nat)
  /-- TOMBSTONE_EXPIRY (R42). -/
  | tombstoneExpiry (dom : Nat) (lchip : Nat)
  /-- TICK_RELEASE (R47). -/
  | tickRelease (launch : Nat)
  /-- TICKEND (R47). -/
  | tickend (p : Packet)
  /-- COLL_COUNT (R234). -/
  | collCount (p : Packet)
  /-- COLL_DONE (R231). -/
  | collDone (p : Packet)
  /-- MARKER_CHANNEL (R201). -/
  | markerChannel (p : Packet)
  /-- LOCALDONE_MSG (R202). -/
  | localdoneMsg (part : Nat) (m : SnapMsg)
  /-- COMPLETE_MSG (R202). -/
  | completeMsg (part : Nat) (m : SnapMsg)
  /-- FREED_MSG (R202). -/
  | freedMsg (part : Nat) (m : SnapMsg)
  /-- REOPEN_MSG (R202). -/
  | reopenMsg (part : Nat) (m : SnapMsg)
  /-- REOPENED_MSG (R202). -/
  | reopenedMsg (part : Nat) (m : SnapMsg)
  /-- SNAP_REQUEST_MSG (R189). -/
  | snapRequestMsg (part : Nat) (m : SnapMsg)
  /-- GRANT (R189). -/
  | grant (part : Nat) (m : SnapMsg)
  /-- REFUSE (R189). -/
  | refuse (part : Nat) (m : SnapMsg)
  /-- ABORT_MSG (R203). -/
  | abortMsg (part : Nat) (m : SnapMsg)
  /-- TOMBCOUNT (R199). -/
  | tombcount (part : Nat) (m : SnapMsg)
  /-- LD_BIND (R49). -/
  | ldBind (ld : Nat) (host : Nat)
  /-- WRITE_ENTRY (R66). -/
  | writeEntry (r : MgmtReq) (table : Nat) (index : Nat) (ofs : Nat) (bytes : List Byte)
  /-- READ_ENTRY (R66). -/
  | readEntry (r : MgmtReq) (table : Nat) (index : Nat) (ofs : Nat) (count : Nat)
  /-- FLUSH_KEY (R60). -/
  | flushKey (r : MgmtReq) (key : Nat)
  /-- RESTORE (R209). -/
  | restore (r : MgmtReq) (snapno : Word) (targets : List RestoreTarget)
  /-- FW_DELIVER (R63). -/
  | fwDeliver (r : MgmtReq) (ofs : Nat) (bytes : List Byte)
  /-- MODULE_RESET (R23). -/
  | moduleReset (r : MgmtReq)
  /-- SPDM_GET_VERSION (R64). -/
  | spdmGetVersion (port : Nat)
  /-- SPDM_GET_CAPABILITIES (R64). -/
  | spdmGetCapabilities (port : Nat)
  /-- SPDM_NEGOTIATE_ALGORITHMS (R64). -/
  | spdmNegotiateAlgorithms (port : Nat)
  /-- SPDM_GET_DIGESTS (R64). -/
  | spdmGetDigests (port : Nat)
  /-- SPDM_GET_CERTIFICATE (R64). -/
  | spdmGetCertificate (port : Nat)
  /-- SPDM_CHALLENGE (R64). -/
  | spdmChallenge (port : Nat) (nonce : List Byte)
  /-- SPDM_GET_MEASUREMENTS (R64). -/
  | spdmGetMeasurements (port : Nat) (block : Nat)
  /-- SPDM_KEY_EXCHANGE (R64). -/
  | spdmKeyExchange (port : Nat) (peer : List Byte)
  /-- SPDM_FINISH (R64). -/
  | spdmFinish (port : Nat)
  /-- SPDM_END_SESSION (R64). -/
  | spdmEndSession (port : Nat)
  /-- PARTITION_EMPTY (R53). -/
  | partitionEmpty (part : Nat)
  /-- PARTITION_SCRUB_DONE (R54). -/
  | partitionScrubDone (die : Nat)
  /-- CXL_MEM_WRITE (R166). -/
  | cxlMemWrite (vf : Nat) (heapOfs : Nat) (bytes : List Byte)
  /-- CXL_MEM_WRITE_COMPLETE (R166). -/
  | cxlMemWriteComplete (id : Nat)
  /-- CXL_MEM_READ (R166). -/
  | cxlMemRead (vf : Nat) (heapOfs : Nat) (count : Nat)
  /-- REGISTER_WRITE (R4). -/
  | registerWrite (vf : Nat) (ofs : Nat) (value : Word)
  /-- VF_ENABLE (R69). -/
  | vfEnable (vf : Nat)
  /-- VF_PAUSE (R69). -/
  | vfPause (vf : Nat)
  /-- VF_STOP (R69). -/
  | vfStop (vf : Nat)
  /-- VF_KILL (R69). -/
  | vfKill (vf : Nat)
  /-- COMMAND_DOORBELL (R68). -/
  | commandDoorbell (vf : Nat) (pidx : Word)
  /-- REPLY_DOORBELL (R68). -/
  | replyDoorbell (vf : Nat) (pidx : Word)
  /-- CIDX_WRITE (R68). -/
  | cidxWrite (vf : Nat) (ring : Nat) (cidx : Word)
  /-- COMMAND_FETCH (R70). -/
  | commandFetch (vf : Nat)
  /-- HOST_LAUNCH (R73). -/
  | hostLaunch (cmd : Nat)
  /-- FAULT_RESUME (R183). -/
  | faultResume (cmd : Nat)
  /-- MEMBER (R225). -/
  | member (cmd : Nat)
  /-- REMAP (R42). -/
  | remap (cmd : Nat)
  /-- SNAP_REQ (R189). -/
  | snapReq (cmd : Nat)
  /-- QUERY (R71). -/
  | query (cmd : Nat)
  /-- COMPLETION_WRITE (R72). -/
  | completionWrite (vf : Nat)
  /-- FAULT_RECORD_WRITE (R74). -/
  | faultRecordWrite (vf : Nat)
  /-- NOTIFICATION_WRITE (R75). -/
  | notificationWrite (vf : Nat)
  /-- SERVICE_REQUEST_WRITE (R77). -/
  | serviceRequestWrite (part : Nat)
  /-- REPLY_TAKE (R77). -/
  | replyTake (vf : Nat)
  /-- INVPAGE (R141). -/
  | invpage (vf : Nat)
  /-- INVALL (R141). -/
  | invall (vf : Nat)
  /-- INVALIDATION_COMPLETE (R141). -/
  | invalidationComplete (vf : Nat)
  /-- MIGGO (R143). -/
  | miggo (vf : Nat)
  /-- MIGDONE (R143). -/
  | migdone (vf : Nat)
  /-- MIGRATION_SELECT (R143). -/
  | migrationSelect (vf : Nat)
  /-- PAGE_WALK (R139). -/
  | pageWalk (vf : Nat) (va : Nat) (write : Bool) (cmd : Nat)
  /-- LAUNCH_STORE_GRANT (R95). -/
  | launchStoreGrant (part : Nat)
  /-- GANG_PLACE (R84). -/
  | gangPlace (part : Nat)
  /-- GROUP_RELEASE (R86). -/
  | groupRelease (group : Nat)
  /-- LAUNCH_FINISH (R87). -/
  | launchFinish (launch : Nat)
  /-- BIN_TIMEOUT (R91). -/
  | binTimeout (core : Nat) (bin : Nat)
  /-- BIN_GROUP_FORM (R91). -/
  | binGroupForm (core : Nat) (bin : Nat)
  /-- GROW_GRANT (R89). -/
  | growGrant (core : Nat) (quadrant : Nat)
  /-- PARK_OFF_CORE (R117). -/
  | parkOffCore (group : Nat)
  /-- PARK_RETURN (R118). -/
  | parkReturn (group : Nat)
  /-- MGMT_PREEMPT (R120). -/
  | mgmtPreempt (launch : Nat) (gang : Nat)
  /-- RESULT_ARRIVE (R109). -/
  | resultArrive (group : Nat) (lane : Nat)
  /-- CHECKPOINT_RETURN (R115). -/
  | checkpointReturn (group : Nat)
  /-- TRAP_QUEUE_JOIN (R121). -/
  | trapQueueJoin (agent : TrapSource)
  /-- CP_TRAP_ENTRY (R121). -/
  | cpTrapEntry (core : Nat)
  /-- HOME_ACCESS (R145). -/
  | homeAccess (id : Nat)
  /-- FENCE_COMPLETE (R154). -/
  | fenceComplete (agent : TrapSource)
  /-- LEASE_EXPIRY (R138). -/
  | leaseExpiry (core : Nat) (line : Nat)
  /-- BARRIER_ARRIVAL (R169). -/
  | barrierArrival (id : Nat)
  /-- BARRIER_LANDING (R169). -/
  | barrierLanding (id : Nat)
  /-- BARRIER_EXPECT (R169). -/
  | barrierExpect (id : Nat)
  /-- BARRIER_INIT (R172). -/
  | barrierInit (id : Nat)
  /-- BARRIER_INVALIDATE (R173). -/
  | barrierInvalidate (id : Nat)
  /-- CHUNK_LAND (R180). -/
  | chunkLand (cmd : Nat) (chunk : Nat)
  /-- CHANNEL_CHUNK_LAND (R184). -/
  | channelChunkLand (cmd : Nat)
  /-- COPY_FAULTED (R182). -/
  | copyFaulted (cmd : Nat)
  /-- CADD_HOME (R186). -/
  | caddHome (id : Nat)
  /-- CDECL_HOME (R187). -/
  | cdeclHome (id : Nat)
  /-- RECORD_POINT (R194). -/
  | recordPoint (part : Nat) (colour : Bool)
  /-- SWEEP_CAPTURE (R195). -/
  | sweepCapture (part : Nat)
  /-- STAGING_FREED (R195). -/
  | stagingFreed (part : Nat)
  /-- LOCAL_COMPLETE (R202). -/
  | localComplete (part : Nat) (colour : Bool)
  /-- KITE_RECORD_WRITE (R206). -/
  | kiteRecordWrite (part : Nat)
  /-- NVME_COMPLETION (R204). -/
  | nvmeCompletion (part : Nat) (colour : Bool) (ok : Bool)
  /-- SNAPTMO_EXPIRY (R203). -/
  | snaptmoExpiry (part : Nat) (colour : Bool)
  /-- REOPEN_TIMER (R202). -/
  | reopenTimer (part : Nat) (colour : Bool)
  /-- ROUTE_WRITES_PERFORMED (R231). -/
  | routeWritesPerformed (cmd : Nat)
  /-- COMBINE_DONE (R236). -/
  | combineDone (cmd : Nat)
  /-- SERIAL_PHASE (R261). -/
  | serialPhase (launch : Nat)
  /-- ABACUS_APPLY (R263). -/
  | abacusApply (id : Nat)
  /-- ABACUS_RETRY (R263). -/
  | abacusRetry (id : Nat)
  /-- MMA_RESULT (R111). -/
  | mmaResult (group : Nat)
  /-- MMAJ_JOIN (R356). -/
  | mmajJoin (group : Nat)
  /-- MMAJ_COMPLETE (R356). -/
  | mmajComplete (group : Nat)
  /-- MLOOP_COMPLETE (R358). -/
  | mloopComplete (id : Nat)
  /-- ALOAD_M_DATA (R364). -/
  | aloadMData (id : Nat)
  /-- COOLANT_RESTORED (R19). -/
  | coolantRestored (celsius : Nat) (millilitres : Nat)
  /-- JUNCTION_BELOW_THROTTLE (R19). -/
  | junctionBelowThrottle (die : Nat)
  /-- SERVICE_WINDOW_END (R78). -/
  | serviceWindowEnd
  /-- DIGEST_COMPLETE (R377). -/
  | digestComplete (cmd : Nat)
  /-- MLOOP_OPERANDS_READ (R359). -/
  | mloopOperandsRead (id : Nat)
  /-- KEY_INSTALL (R58). -/
  | keyInstall (key : KeySlot)
  /-- REMAP_ENTRY_WRITE (R40). -/
  | remapEntryWrite (dom : Nat) (lchip : Nat) (entry : DWord)
  /-- PORT_LIST_WRITE (R37). -/
  | portListWrite (phys : Nat) (ports : List Nat) (direct : Bool)
  /-- TIME_REFERENCE_NAMED (R45). -/
  | timeReferenceNamed (dom : Nat) (phys : Nat)
  /-- MEMBER (R225): a MEMBER command carried out at another package installs its new generation here. -/
  | memberElsewhere (dom : Nat) (group : Nat) (gen : BitVec 16) (members : List Nat)
  /-- REMAP (R42): a REMAP command given at another package reaches the package that hosts the chip. -/
  | remapElsewhere (dom : Nat) (lchip : Nat) (phys : BitVec 12) (gen : BitVec 16) (window : Nat)
  /-- CADD_HOME (R163, R186): a ready arrival that waited for the GWCT of its line is made. -/
  | readyArrival (bar : Nat)
  /-- A management request as the bytes of its message (R66); READ_ENTRY's row stands for a request that is none of the six. -/
  | mgmtMessage (bytes : List Byte)
deriving DecidableEq, Repr

/-- One constructor per row of spec/opcode_table.json: the instruction words with the fields of their format, then the
operations and events of the machine. What distinguishes one happening of an event from another stands in the state
(`Event`), as the operands of an instruction stand in registers. -/
inductive Instr where
  /-- IADD (R294). -/
  | iadd (o : FormTR)
  /-- ISUB (R294). -/
  | isub (o : FormTR)
  /-- IMUL (R294). -/
  | imul (o : FormTR)
  /-- IMULHS (R294). -/
  | imulhs (o : FormTR)
  /-- IMULHZ (R294). -/
  | imulhz (o : FormTR)
  /-- IMINS (R294). -/
  | imins (o : FormTR)
  /-- IMAXS (R294). -/
  | imaxs (o : FormTR)
  /-- IMINZ (R294). -/
  | iminz (o : FormTR)
  /-- IMAXZ (R294). -/
  | imaxz (o : FormTR)
  /-- AND (R294). -/
  | and (o : FormTR)
  /-- OR (R294). -/
  | or (o : FormTR)
  /-- XOR (R294). -/
  | xor (o : FormTR)
  /-- SHL (R294). -/
  | shl (o : FormTR)
  /-- SHR (R294). -/
  | shr (o : FormTR)
  /-- SAR (R294). -/
  | sar (o : FormTR)
  /-- IMAD (R294). -/
  | imad (o : FormTR)
  /-- FADD (R332). -/
  | fadd (o : FormTR)
  /-- FSUB (R332). -/
  | fsub (o : FormTR)
  /-- FMUL (R332). -/
  | fmul (o : FormTR)
  /-- FFMA (R332). -/
  | ffma (o : FormTR)
  /-- FMIN (R332). -/
  | fmin (o : FormTR)
  /-- FMAX (R332). -/
  | fmax (o : FormTR)
  /-- SEL (R299). -/
  | sel (o : FormTR)
  /-- BMUL2 (R333). -/
  | bmul2 (o : FormTR)
  /-- BFMA2 (R333). -/
  | bfma2 (o : FormTR)
  /-- ICMPEQ (R298). -/
  | icmpeq (o : FormCmp)
  /-- ICMPNE (R298). -/
  | icmpne (o : FormCmp)
  /-- ICMPLT (R298). -/
  | icmplt (o : FormCmp)
  /-- ICMPLE (R298). -/
  | icmple (o : FormCmp)
  /-- ICMPLTZ (R298). -/
  | icmpltz (o : FormCmp)
  /-- IADD64 (R295). -/
  | iadd64 (o : FormTR)
  /-- FCMPEQ (R334). -/
  | fcmpeq (o : FormCmp)
  /-- FCMPLT (R334). -/
  | fcmplt (o : FormCmp)
  /-- FCMPLE (R334). -/
  | fcmple (o : FormCmp)
  /-- FCMPUN (R334). -/
  | fcmpun (o : FormCmp)
  /-- IADDI (R296). -/
  | iaddi (o : FormTI)
  /-- ANDI (R296). -/
  | andi (o : FormTI)
  /-- ORI (R296). -/
  | ori (o : FormTI)
  /-- XORI (R296). -/
  | xori (o : FormTI)
  /-- SHFI (R297). -/
  | shfi (o : FormShfi)
  /-- MOVI (R296). -/
  | movi (o : FormMovi)
  /-- LD8 (R311). -/
  | ld8 (o : FormTM)
  /-- LD16 (R311). -/
  | ld16 (o : FormTM)
  /-- LD32 (R311). -/
  | ld32 (o : FormTM)
  /-- LD64 (R311). -/
  | ld64 (o : FormTM)
  /-- LD128 (R311). -/
  | ld128 (o : FormTM)
  /-- ST8 (R312). -/
  | st8 (o : FormTM)
  /-- ST16 (R312). -/
  | st16 (o : FormTM)
  /-- ST32 (R312). -/
  | st32 (o : FormTM)
  /-- ST64 (R312). -/
  | st64 (o : FormTM)
  /-- ST128 (R312). -/
  | st128 (o : FormTM)
  /-- ATOM_ADD_B32 (R316). -/
  | atomAddB32 (o : FormAtom)
  /-- ATOM_ADD_F32 (R316). -/
  | atomAddF32 (o : FormAtom)
  /-- ATOM_ADD_BF16X2 (R316). -/
  | atomAddBf16x2 (o : FormAtom)
  /-- ATOM_MIN_S32 (R316). -/
  | atomMinS32 (o : FormAtom)
  /-- ATOM_MAX_S32 (R316). -/
  | atomMaxS32 (o : FormAtom)
  /-- ATOM_MIN_Z32 (R316). -/
  | atomMinZ32 (o : FormAtom)
  /-- ATOM_MAX_Z32 (R316). -/
  | atomMaxZ32 (o : FormAtom)
  /-- ATOM_AND (R316). -/
  | atomAnd (o : FormAtom)
  /-- ATOM_OR (R316). -/
  | atomOr (o : FormAtom)
  /-- ATOM_XOR (R316). -/
  | atomXor (o : FormAtom)
  /-- ATOM_XCHG (R316). -/
  | atomXchg (o : FormAtomRet)
  /-- ATOM_CAS (R316). -/
  | atomCas (o : FormAtomRet)
  /-- ATOM_INCW (R316). -/
  | atomIncw (o : FormAtom)
  /-- ATOM_DECW (R316). -/
  | atomDecw (o : FormAtom)
  /-- ATOM_ADD_B64 (R316). -/
  | atomAddB64 (o : FormAtom)
  /-- ATOM_CAS_B64 (R316). -/
  | atomCasB64 (o : FormAtomRet)
  /-- ATOM_CADD_F32 (R318). -/
  | atomCaddF32 (o : FormAtom)
  /-- ATOM_CADD_BF16X2 (R318). -/
  | atomCaddBf16x2 (o : FormAtom)
  /-- ATOM_CDECL (R318). -/
  | atomCdecl (o : FormAtomRet)
  /-- BRA (R302). -/
  | bra (o : FormTB)
  /-- CALL (R302). -/
  | call (o : FormTB)
  /-- JMPI (R303). -/
  | jmpi (o : FormJump)
  /-- CALLI (R303). -/
  | calli (o : FormJump)
  /-- RET (R303). -/
  | ret (o : FormJump)
  /-- RJOIN (R110). -/
  | rjoin (o : FormS)
  /-- JMPK (R303). -/
  | jmpk (o : FormA)
  /-- EXIT (R305). -/
  | exit (o : FormG)
  /-- NOP (R367). -/
  | nop (o : FormG)
  /-- SREAD (R368). -/
  | sread (o : FormTF)
  /-- SWRITE (R369). -/
  | swrite (o : FormTF)
  /-- QREAD (R265). -/
  | qread (o : FormQ)
  /-- QSUB (R265). -/
  | qsub (o : FormQ)
  /-- STQ (R266). -/
  | stq (o : FormStq)
  /-- STRAP (R370). -/
  | strap (o : FormTF)
  /-- BREAK (R371). -/
  | brk (o : FormA)
  /-- GROW (R89). -/
  | grow (o : FormD)
  /-- SHRINK (R89). -/
  | shrink (o : FormD)
  /-- YIELD (R367). -/
  | yield (o : FormG)
  /-- SPAWN (R100). -/
  | spawn (o : FormTF)
  /-- DEVICE_LAUNCH (R96). -/
  | deviceLaunch (o : FormTF)
  /-- LAUNCHW (R96). -/
  | launchw (o : FormTF)
  /-- ADMODE (R220). -/
  | admode (o : FormD)
  /-- CPOST (R372). -/
  | cpost (o : FormA)
  /-- FENCE (R320). -/
  | fence (o : FormFence)
  /-- BINIT (R322). -/
  | binit (o : FormTF)
  /-- BEXPECT (R322). -/
  | bexpect (o : FormTF)
  /-- BARRIVE (R323). -/
  | barrive (o : FormTF)
  /-- BWAIT (R324). -/
  | bwait (o : FormTF)
  /-- BTEST (R325). -/
  | btest (o : FormTF)
  /-- BINVAL (R322). -/
  | binval (o : FormA)
  /-- CHKTEST (R326). -/
  | chktest (o : FormTF)
  /-- CHWP (R327). -/
  | chwp (o : FormChwp)
  /-- DARRIVE (R328). -/
  | darrive (o : FormTF)
  /-- MOV (R301). -/
  | mov (o : FormTF)
  /-- NOT (R301). -/
  | not (o : FormTF)
  /-- NEG (R301). -/
  | neg (o : FormTF)
  /-- IABS (R301). -/
  | iabs (o : FormTF)
  /-- POPC (R301). -/
  | popc (o : FormTF)
  /-- CLZ (R301). -/
  | clz (o : FormTF)
  /-- CTZ (R301). -/
  | ctz (o : FormTF)
  /-- BREV (R301). -/
  | brev (o : FormTF)
  /-- SEXT8 (R301). -/
  | sext8 (o : FormTF)
  /-- SEXT16 (R301). -/
  | sext16 (o : FormTF)
  /-- ZEXT8 (R301). -/
  | zext8 (o : FormTF)
  /-- ZEXT16 (R301). -/
  | zext16 (o : FormTF)
  /-- MOVK (R301). -/
  | movk (o : FormTF)
  /-- P2V (R301). -/
  | p2v (o : FormP2v)
  /-- V2P (R301). -/
  | v2p (o : FormV2p)
  /-- I2F_S (R335). -/
  | i2fS (o : FormTF)
  /-- I2F_Z (R335). -/
  | i2fZ (o : FormTF)
  /-- F2I_S (R335). -/
  | f2iS (o : FormTF)
  /-- F2I_Z (R335). -/
  | f2iZ (o : FormTF)
  /-- FNEG (R335). -/
  | fneg (o : FormTF)
  /-- FABS (R335). -/
  | fabs (o : FormTF)
  /-- FSAT (R335). -/
  | fsat (o : FormTF)
  /-- FRND (R335). -/
  | frnd (o : FormTF)
  /-- FCLASS (R336). -/
  | fclass (o : FormTF)
  /-- FRCP (R337). -/
  | frcp (o : FormTF)
  /-- FRSQ (R337). -/
  | frsq (o : FormTF)
  /-- FSQRT (R337). -/
  | fsqrt (o : FormTF)
  /-- FEX2 (R337). -/
  | fex2 (o : FormTF)
  /-- FLG2 (R337). -/
  | flg2 (o : FormTF)
  /-- FSIN (R337). -/
  | fsin (o : FormTF)
  /-- FCOS (R337). -/
  | fcos (o : FormTF)
  /-- FTANH (R337). -/
  | ftanh (o : FormTF)
  /-- FSIGM (R337). -/
  | fsigm (o : FormTF)
  /-- F2BF (R338). -/
  | f2bf (o : FormTF)
  /-- BF2F (R338). -/
  | bf2f (o : FormTF)
  /-- BF2FH (R338). -/
  | bf2fh (o : FormTF)
  /-- F2H (R338). -/
  | f2h (o : FormTF)
  /-- H2F (R338). -/
  | h2f (o : FormTF)
  /-- PKBF2 (R338). -/
  | pkbf2 (o : FormTF)
  /-- UNPBF2 (R338). -/
  | unpbf2 (o : FormTF)
  /-- TXBENC8 (R340). -/
  | txbenc8 (o : FormTF)
  /-- TXBDEC8 (R341). -/
  | txbdec8 (o : FormTF)
  /-- TXBENC4 (R340). -/
  | txbenc4 (o : FormTF)
  /-- TXBDEC4 (R341). -/
  | txbdec4 (o : FormTF)
  /-- F2I8S (R335). -/
  | f2i8s (o : FormTF)
  /-- PRED (R300). -/
  | pred (o : FormPred)
  /-- QXH (R343). -/
  | qxh (o : FormTF)
  /-- QXV (R343). -/
  | qxv (o : FormTF)
  /-- QXD (R343). -/
  | qxd (o : FormTF)
  /-- QBC0 (R343). -/
  | qbc0 (o : FormTF)
  /-- QBC1 (R343). -/
  | qbc1 (o : FormTF)
  /-- QBC2 (R343). -/
  | qbc2 (o : FormTF)
  /-- QBC3 (R343). -/
  | qbc3 (o : FormTF)
  /-- GSHF (R344). -/
  | gshf (o : FormTF)
  /-- GBAL (R344). -/
  | gbal (o : FormTF)
  /-- GRADD (R344). -/
  | gradd (o : FormTF)
  /-- GRFADD (R345). -/
  | grfadd (o : FormTF)
  /-- GRMIN (R344). -/
  | grmin (o : FormTF)
  /-- GRMAX (R344). -/
  | grmax (o : FormTF)
  /-- GSCAN (R344). -/
  | gscan (o : FormTF)
  /-- GFIRST (R344). -/
  | gfirst (o : FormTF)
  /-- MMA (R354). -/
  | mma (o : FormMma)
  /-- MMAJ (R355). -/
  | mmaj (o : FormMma)
  /-- MLOOP (R357). -/
  | mloop (o : FormMloop)
  /-- ADRAIN_R (R362). -/
  | adrainR (o : FormDrainR)
  /-- ADRAIN_M (R363). -/
  | adrainM (o : FormDrain)
  /-- ADRAIN_U (R363). -/
  | adrainU (o : FormDrain)
  /-- AZERO (R364). -/
  | azero (o : FormDG)
  /-- ALOAD_R (R364). -/
  | aloadR (o : FormTF)
  /-- ALOAD_M (R364). -/
  | aloadM (o : FormDG)
  /-- OPFENCE (R359). -/
  | opfence (o : FormG)
  /-- COPY (R375). -/
  | copy (o : FormTF)
  /-- CHOPEN (R376). -/
  | chopen (o : FormTF)
  /-- CHCLOSE (R376). -/
  | chclose (o : FormChclose)
  /-- SNAP (R192). -/
  | snap (o : FormTF)
  /-- SNAPST (R193). -/
  | snapst (o : FormTF)
  /-- ROUTE (R231). -/
  | route (o : FormTF)
  /-- COMBINE (R236). -/
  | combine (o : FormTF)
  /-- DIGEST (R377). -/
  | digest (o : FormTF)
  /-- CPPOP (R373). -/
  | cppop (o : FormDG)
  /-- GREAD (R382). -/
  | gread (o : FormTF)
  /-- GWRITE (R382). -/
  | gwrite (o : FormTF)
  /-- GRESUME (R383). -/
  | gresume (o : FormTF)
  /-- GKILL (R384). -/
  | gkill (o : FormTF)
  /-- GPARK (R385). -/
  | gpark (o : FormTF)
  /-- SVCPOST (R386). -/
  | svcpost (o : FormTF)
  /-- SVCTAKE (R387). -/
  | svctake (o : FormTF)
  /-- CPRET (R388). -/
  | cpret (o : FormG)
  /-- CMDSTAT (R378). -/
  | cmdstat (o : FormTF)
  /-- CMDCANCEL (R379). -/
  | cmdcancel (o : FormTF)
  /-- KMOV (R306). -/
  | kmov (o : FormTF)
  /-- KMOVV (R306). -/
  | kmovv (o : FormTF)
  /-- KADD (R306). -/
  | kadd (o : FormTF)
  /-- KSUB (R306). -/
  | ksub (o : FormTF)
  /-- KMUL (R306). -/
  | kmul (o : FormTF)
  /-- KAND (R306). -/
  | kand (o : FormTF)
  /-- KOR (R306). -/
  | kor (o : FormTF)
  /-- KXOR (R306). -/
  | kxor (o : FormTF)
  /-- KSHL (R306). -/
  | kshl (o : FormTF)
  /-- KSHR (R306). -/
  | kshr (o : FormTF)
  /-- KADD64 (R306). -/
  | kadd64 (o : FormTF)
  /-- KLD32 (R307). -/
  | kld32 (o : FormTF)
  /-- KLD64 (R307). -/
  | kld64 (o : FormTF)
  /-- KST32 (R307). -/
  | kst32 (o : FormTF)
  /-- KBAL (R306). -/
  | kbal (o : FormTF)
  /-- GUARD (R277). -/
  | guard (o : FormGuard)
  /-- IMM (R278). -/
  | imm (o : FormImm)
  /-- MOD (R279). -/
  | mod (o : FormMod)
  /-- DELAY (R279). -/
  | delay (o : FormDelay)
  /-- POWER_ON (R23). -/
  | powerOn
  /-- RESET_STEP_COMPLETE (R23). -/
  | resetStepComplete
  /-- INPUT_VOLTAGE_FAULT (R19). -/
  | inputVoltageFault
  /-- POWER_CAP_WINDOW (R20). -/
  | powerCapWindow
  /-- COOLANT_FAULT (R19). -/
  | coolantFault
  /-- JUNCTION_THROTTLE (R19). -/
  | junctionThrottle
  /-- JUNCTION_TRIP (R19). -/
  | junctionTrip
  /-- CONTROL_PARITY_ERROR (R62). -/
  | controlParityError
  /-- PEOL_UPDATE (R24). -/
  | peolUpdate
  /-- PATROL_SCRUB (R61). -/
  | patrolScrub
  /-- TIMEX_SEND (R45). -/
  | timexSend
  /-- TIMEX (R45). -/
  | timex
  /-- TIME_WIDE (R45). -/
  | timeWide
  /-- LANE_FAILURE (R26). -/
  | laneFailure
  /-- FLIT_TRANSMIT (R29). -/
  | flitTransmit
  /-- FLIT_RECEIVE (R30). -/
  | flitReceive
  /-- RETRY_REQUEST (R30). -/
  | retryRequest
  /-- FLIT_COUNTER_LIMIT (R29). -/
  | flitCounterLimit
  /-- LINK_REKEY (R29). -/
  | linkRekey
  /-- RDREQ (R33). -/
  | rdreq
  /-- WRREQ (R33). -/
  | wrreq
  /-- ATREQ (R33). -/
  | atreq
  /-- CONTRIB (R40). -/
  | contrib
  /-- RDRSP (R35). -/
  | rdrsp
  /-- WRACK (R35). -/
  | wrack
  /-- ATRSP (R35). -/
  | atrsp
  /-- ERRRSP (R36). -/
  | errrsp
  /-- NACK (R44). -/
  | nack
  /-- SLOT_TIMEOUT (R35). -/
  | slotTimeout
  /-- TOMBSTONE_EXPIRY (R42). -/
  | tombstoneExpiry
  /-- TICK_RELEASE (R47). -/
  | tickRelease
  /-- TICKEND (R47). -/
  | tickend
  /-- COLL_COUNT (R234). -/
  | collCount
  /-- COLL_DONE (R231). -/
  | collDone
  /-- MARKER_CHANNEL (R201). -/
  | markerChannel
  /-- LOCALDONE_MSG (R202). -/
  | localdoneMsg
  /-- COMPLETE_MSG (R202). -/
  | completeMsg
  /-- FREED_MSG (R202). -/
  | freedMsg
  /-- REOPEN_MSG (R202). -/
  | reopenMsg
  /-- REOPENED_MSG (R202). -/
  | reopenedMsg
  /-- SNAP_REQUEST_MSG (R189). -/
  | snapRequestMsg
  /-- GRANT (R189). -/
  | grant
  /-- REFUSE (R189). -/
  | refuse
  /-- ABORT_MSG (R203). -/
  | abortMsg
  /-- TOMBCOUNT (R199). -/
  | tombcount
  /-- LD_BIND (R49). -/
  | ldBind
  /-- WRITE_ENTRY (R66). -/
  | writeEntry
  /-- READ_ENTRY (R66). -/
  | readEntry
  /-- FLUSH_KEY (R60). -/
  | flushKey
  /-- RESTORE (R209). -/
  | restore
  /-- FW_DELIVER (R63). -/
  | fwDeliver
  /-- MODULE_RESET (R23). -/
  | moduleReset
  /-- SPDM_GET_VERSION (R64). -/
  | spdmGetVersion
  /-- SPDM_GET_CAPABILITIES (R64). -/
  | spdmGetCapabilities
  /-- SPDM_NEGOTIATE_ALGORITHMS (R64). -/
  | spdmNegotiateAlgorithms
  /-- SPDM_GET_DIGESTS (R64). -/
  | spdmGetDigests
  /-- SPDM_GET_CERTIFICATE (R64). -/
  | spdmGetCertificate
  /-- SPDM_CHALLENGE (R64). -/
  | spdmChallenge
  /-- SPDM_GET_MEASUREMENTS (R64). -/
  | spdmGetMeasurements
  /-- SPDM_KEY_EXCHANGE (R64). -/
  | spdmKeyExchange
  /-- SPDM_FINISH (R64). -/
  | spdmFinish
  /-- SPDM_END_SESSION (R64). -/
  | spdmEndSession
  /-- PARTITION_EMPTY (R53). -/
  | partitionEmpty
  /-- PARTITION_SCRUB_DONE (R54). -/
  | partitionScrubDone
  /-- CXL_MEM_WRITE (R166). -/
  | cxlMemWrite
  /-- CXL_MEM_WRITE_COMPLETE (R166). -/
  | cxlMemWriteComplete
  /-- CXL_MEM_READ (R166). -/
  | cxlMemRead
  /-- REGISTER_WRITE (R4). -/
  | registerWrite
  /-- VF_ENABLE (R69). -/
  | vfEnable
  /-- VF_PAUSE (R69). -/
  | vfPause
  /-- VF_STOP (R69). -/
  | vfStop
  /-- VF_KILL (R69). -/
  | vfKill
  /-- COMMAND_DOORBELL (R68). -/
  | commandDoorbell
  /-- REPLY_DOORBELL (R68). -/
  | replyDoorbell
  /-- CIDX_WRITE (R68). -/
  | cidxWrite
  /-- COMMAND_FETCH (R70). -/
  | commandFetch
  /-- HOST_LAUNCH (R73). -/
  | hostLaunch
  /-- FAULT_RESUME (R183). -/
  | faultResume
  /-- MEMBER (R225). -/
  | member
  /-- REMAP (R42). -/
  | remap
  /-- SNAP_REQ (R189). -/
  | snapReq
  /-- QUERY (R71). -/
  | query
  /-- COMPLETION_WRITE (R72). -/
  | completionWrite
  /-- FAULT_RECORD_WRITE (R74). -/
  | faultRecordWrite
  /-- NOTIFICATION_WRITE (R75). -/
  | notificationWrite
  /-- SERVICE_REQUEST_WRITE (R77). -/
  | serviceRequestWrite
  /-- REPLY_TAKE (R77). -/
  | replyTake
  /-- INVPAGE (R141). -/
  | invpage
  /-- INVALL (R141). -/
  | invall
  /-- INVALIDATION_COMPLETE (R141). -/
  | invalidationComplete
  /-- MIGGO (R143). -/
  | miggo
  /-- MIGDONE (R143). -/
  | migdone
  /-- MIGRATION_SELECT (R143). -/
  | migrationSelect
  /-- PAGE_WALK (R139). -/
  | pageWalk
  /-- LAUNCH_STORE_GRANT (R95). -/
  | launchStoreGrant
  /-- GANG_PLACE (R84). -/
  | gangPlace
  /-- GROUP_RELEASE (R86). -/
  | groupRelease
  /-- LAUNCH_FINISH (R87). -/
  | launchFinish
  /-- BIN_TIMEOUT (R91). -/
  | binTimeout
  /-- BIN_GROUP_FORM (R91). -/
  | binGroupForm
  /-- GROW_GRANT (R89). -/
  | growGrant
  /-- PARK_OFF_CORE (R117). -/
  | parkOffCore
  /-- PARK_RETURN (R118). -/
  | parkReturn
  /-- MGMT_PREEMPT (R120). -/
  | mgmtPreempt
  /-- RESULT_ARRIVE (R109). -/
  | resultArrive
  /-- CHECKPOINT_RETURN (R115). -/
  | checkpointReturn
  /-- TRAP_QUEUE_JOIN (R121). -/
  | trapQueueJoin
  /-- CP_TRAP_ENTRY (R121). -/
  | cpTrapEntry
  /-- HOME_ACCESS (R145). -/
  | homeAccess
  /-- FENCE_COMPLETE (R154). -/
  | fenceComplete
  /-- LEASE_EXPIRY (R138). -/
  | leaseExpiry
  /-- BARRIER_ARRIVAL (R169). -/
  | barrierArrival
  /-- BARRIER_LANDING (R169). -/
  | barrierLanding
  /-- BARRIER_EXPECT (R169). -/
  | barrierExpect
  /-- BARRIER_INIT (R172). -/
  | barrierInit
  /-- BARRIER_INVALIDATE (R173). -/
  | barrierInvalidate
  /-- CHUNK_LAND (R180). -/
  | chunkLand
  /-- CHANNEL_CHUNK_LAND (R184). -/
  | channelChunkLand
  /-- COPY_FAULTED (R182). -/
  | copyFaulted
  /-- CADD_HOME (R186). -/
  | caddHome
  /-- CDECL_HOME (R187). -/
  | cdeclHome
  /-- RECORD_POINT (R194). -/
  | recordPoint
  /-- SWEEP_CAPTURE (R195). -/
  | sweepCapture
  /-- STAGING_FREED (R195). -/
  | stagingFreed
  /-- LOCAL_COMPLETE (R202). -/
  | localComplete
  /-- KITE_RECORD_WRITE (R206). -/
  | kiteRecordWrite
  /-- NVME_COMPLETION (R204). -/
  | nvmeCompletion
  /-- SNAPTMO_EXPIRY (R203). -/
  | snaptmoExpiry
  /-- REOPEN_TIMER (R202). -/
  | reopenTimer
  /-- ROUTE_WRITES_PERFORMED (R231). -/
  | routeWritesPerformed
  /-- COMBINE_DONE (R236). -/
  | combineDone
  /-- SERIAL_PHASE (R261). -/
  | serialPhase
  /-- ABACUS_APPLY (R263). -/
  | abacusApply
  /-- ABACUS_RETRY (R263). -/
  | abacusRetry
  /-- MMA_RESULT (R111). -/
  | mmaResult
  /-- MMAJ_JOIN (R356). -/
  | mmajJoin
  /-- MMAJ_COMPLETE (R356). -/
  | mmajComplete
  /-- MLOOP_COMPLETE (R358). -/
  | mloopComplete
  /-- ALOAD_M_DATA (R364). -/
  | aloadMData
  /-- COOLANT_RESTORED (R19). -/
  | coolantRestored
  /-- JUNCTION_BELOW_THROTTLE (R19). -/
  | junctionBelowThrottle
  /-- SERVICE_WINDOW_END (R78). -/
  | serviceWindowEnd
  /-- DIGEST_COMPLETE (R377). -/
  | digestComplete
  /-- MLOOP_OPERANDS_READ (R359). -/
  | mloopOperandsRead
  /-- KEY_INSTALL (R58). -/
  | keyInstall
  /-- REMAP_ENTRY_WRITE (R40). -/
  | remapEntryWrite
  /-- PORT_LIST_WRITE (R37). -/
  | portListWrite
  /-- TIME_REFERENCE_NAMED (R45). -/
  | timeReferenceNamed
deriving DecidableEq, Repr

/-- The row of the table that an event is a happening of. -/
def Event.row : Event → Instr
  | .powerOn => .powerOn
  | .resetStepComplete => .resetStepComplete
  | .inputVoltageFault _ => .inputVoltageFault
  | .powerCapWindow _ => .powerCapWindow
  | .coolantFault _ _ => .coolantFault
  | .junctionThrottle _ => .junctionThrottle
  | .junctionTrip _ => .junctionTrip
  | .controlParityError _ => .controlParityError
  | .peolUpdate => .peolUpdate
  | .patrolScrub _ => .patrolScrub
  | .timexSend => .timexSend
  | .timex _ _ _ => .timex
  | .timeWide => .timeWide
  | .laneFailure _ _ => .laneFailure
  | .flitTransmit _ => .flitTransmit
  | .flitReceive _ _ => .flitReceive
  | .retryRequest _ _ => .retryRequest
  | .flitCounterLimit _ => .flitCounterLimit
  | .linkRekey _ _ _ _ _ => .linkRekey
  | .rdreq _ => .rdreq
  | .wrreq _ => .wrreq
  | .atreq _ => .atreq
  | .contrib _ => .contrib
  | .rdrsp _ => .rdrsp
  | .wrack _ => .wrack
  | .atrsp _ => .atrsp
  | .errrsp _ => .errrsp
  | .nack _ => .nack
  | .slotTimeout _ _ => .slotTimeout
  | .tombstoneExpiry _ _ => .tombstoneExpiry
  | .tickRelease _ => .tickRelease
  | .tickend _ => .tickend
  | .collCount _ => .collCount
  | .collDone _ => .collDone
  | .markerChannel _ => .markerChannel
  | .localdoneMsg _ _ => .localdoneMsg
  | .completeMsg _ _ => .completeMsg
  | .freedMsg _ _ => .freedMsg
  | .reopenMsg _ _ => .reopenMsg
  | .reopenedMsg _ _ => .reopenedMsg
  | .snapRequestMsg _ _ => .snapRequestMsg
  | .grant _ _ => .grant
  | .refuse _ _ => .refuse
  | .abortMsg _ _ => .abortMsg
  | .tombcount _ _ => .tombcount
  | .ldBind _ _ => .ldBind
  | .writeEntry _ _ _ _ _ => .writeEntry
  | .readEntry _ _ _ _ _ => .readEntry
  | .flushKey _ _ => .flushKey
  | .restore _ _ _ => .restore
  | .fwDeliver _ _ _ => .fwDeliver
  | .moduleReset _ => .moduleReset
  | .spdmGetVersion _ => .spdmGetVersion
  | .spdmGetCapabilities _ => .spdmGetCapabilities
  | .spdmNegotiateAlgorithms _ => .spdmNegotiateAlgorithms
  | .spdmGetDigests _ => .spdmGetDigests
  | .spdmGetCertificate _ => .spdmGetCertificate
  | .spdmChallenge _ _ => .spdmChallenge
  | .spdmGetMeasurements _ _ => .spdmGetMeasurements
  | .spdmKeyExchange _ _ => .spdmKeyExchange
  | .spdmFinish _ => .spdmFinish
  | .spdmEndSession _ => .spdmEndSession
  | .partitionEmpty _ => .partitionEmpty
  | .partitionScrubDone _ => .partitionScrubDone
  | .cxlMemWrite _ _ _ => .cxlMemWrite
  | .cxlMemWriteComplete _ => .cxlMemWriteComplete
  | .cxlMemRead _ _ _ => .cxlMemRead
  | .registerWrite _ _ _ => .registerWrite
  | .vfEnable _ => .vfEnable
  | .vfPause _ => .vfPause
  | .vfStop _ => .vfStop
  | .vfKill _ => .vfKill
  | .commandDoorbell _ _ => .commandDoorbell
  | .replyDoorbell _ _ => .replyDoorbell
  | .cidxWrite _ _ _ => .cidxWrite
  | .commandFetch _ => .commandFetch
  | .hostLaunch _ => .hostLaunch
  | .faultResume _ => .faultResume
  | .member _ => .member
  | .remap _ => .remap
  | .snapReq _ => .snapReq
  | .query _ => .query
  | .completionWrite _ => .completionWrite
  | .faultRecordWrite _ => .faultRecordWrite
  | .notificationWrite _ => .notificationWrite
  | .serviceRequestWrite _ => .serviceRequestWrite
  | .replyTake _ => .replyTake
  | .invpage _ => .invpage
  | .invall _ => .invall
  | .invalidationComplete _ => .invalidationComplete
  | .miggo _ => .miggo
  | .migdone _ => .migdone
  | .migrationSelect _ => .migrationSelect
  | .pageWalk _ _ _ _ => .pageWalk
  | .launchStoreGrant _ => .launchStoreGrant
  | .gangPlace _ => .gangPlace
  | .groupRelease _ => .groupRelease
  | .launchFinish _ => .launchFinish
  | .binTimeout _ _ => .binTimeout
  | .binGroupForm _ _ => .binGroupForm
  | .growGrant _ _ => .growGrant
  | .parkOffCore _ => .parkOffCore
  | .parkReturn _ => .parkReturn
  | .mgmtPreempt _ _ => .mgmtPreempt
  | .resultArrive _ _ => .resultArrive
  | .checkpointReturn _ => .checkpointReturn
  | .trapQueueJoin _ => .trapQueueJoin
  | .cpTrapEntry _ => .cpTrapEntry
  | .homeAccess _ => .homeAccess
  | .fenceComplete _ => .fenceComplete
  | .leaseExpiry _ _ => .leaseExpiry
  | .barrierArrival _ => .barrierArrival
  | .barrierLanding _ => .barrierLanding
  | .barrierExpect _ => .barrierExpect
  | .barrierInit _ => .barrierInit
  | .barrierInvalidate _ => .barrierInvalidate
  | .chunkLand _ _ => .chunkLand
  | .channelChunkLand _ => .channelChunkLand
  | .copyFaulted _ => .copyFaulted
  | .caddHome _ => .caddHome
  | .cdeclHome _ => .cdeclHome
  | .recordPoint _ _ => .recordPoint
  | .sweepCapture _ => .sweepCapture
  | .stagingFreed _ => .stagingFreed
  | .localComplete _ _ => .localComplete
  | .kiteRecordWrite _ => .kiteRecordWrite
  | .nvmeCompletion _ _ _ => .nvmeCompletion
  | .snaptmoExpiry _ _ => .snaptmoExpiry
  | .reopenTimer _ _ => .reopenTimer
  | .routeWritesPerformed _ => .routeWritesPerformed
  | .combineDone _ => .combineDone
  | .serialPhase _ => .serialPhase
  | .abacusApply _ => .abacusApply
  | .abacusRetry _ => .abacusRetry
  | .mmaResult _ => .mmaResult
  | .mmajJoin _ => .mmajJoin
  | .mmajComplete _ => .mmajComplete
  | .mloopComplete _ => .mloopComplete
  | .aloadMData _ => .aloadMData
  | .coolantRestored _ _ => .coolantRestored
  | .junctionBelowThrottle _ => .junctionBelowThrottle
  | .serviceWindowEnd => .serviceWindowEnd
  | .digestComplete _ => .digestComplete
  | .mloopOperandsRead _ => .mloopOperandsRead
  | .keyInstall _ => .keyInstall
  | .remapEntryWrite _ _ _ => .remapEntryWrite
  | .portListWrite _ _ _ => .portListWrite
  | .memberElsewhere _ _ _ _ => .member
  | .readyArrival _ => .caddHome
  | .mgmtMessage _ => .readEntry
  | .remapElsewhere _ _ _ _ _ => .remap
  | .timeReferenceNamed _ _ => .timeReferenceNamed

end Sys2Proof
end

