-- ==== Sys2Proof/Machine/State.lean ====
section
/-!
DEFINITION. The state of one LX768 package: plain data that holds everything the spec gives the machine. The register and
table fields carry the spec's names. `State` is the whole; `Sys` is everything but the byte memory, the clock and the
fused counter, which only dedicated operations change (Machine/Ops.lean).
-/
namespace Sys2Proof.Machine

/-! ### Causes, traps and faults -/

/-- The causes of R267 and the further CAUSE values of the Error Address Log (R79). -/
inductive Cause where
  | illegal | hazard | uniform | spbound | space | limit | key | align | class | quar | tapeovf | tapeund | tapemis
  | adconf | barbusy | strap | brk | remote | ecc | privilege | barovf
  | thermal | badcmd | badreply | cmdinval | cmdabort | cmdfault
deriving DecidableEq, Repr

/-- A trap of an entry of a group, or of the control processor (R121, R122). `queued` and `taken` say how far it is. -/
structure TrapRec where
  cause : Cause
  remCause : BitVec 8
  pc : Word
  lanes : LaneMask
  whole : LaneMask
  addr : DWord
  prio : BitVec 16
  ealcnt : Nat
  insn : Word
  /-- The sequence number of the instruction in its group: the accesses before it are older (R121). -/
  seq : Nat
  /-- The clock in which it became ready to join the trap queue (R121). -/
  readyAt : Option Nat := none
  queued : Bool
  taken : Bool
deriving DecidableEq, Repr

/-- Why a step stops. -/
inductive Fault where
  /-- Raised by the meaning of an instruction word in a state in which no group and no control processor issues
  (`Sys.cur` is none). Safe: no run of `step` reaches it, because a step that issues sets the issuer first. -/
  | noIssuer
deriving DecidableEq, Repr

/-- Why an instruction has no meaning. -/
inductive Refusal where
  /-- Raised by an arm of `exec` whose instruction has no meaning yet. Safe: the machine stops. -/
  | notModelled (mnemonic : String)
deriving DecidableEq, Repr

/-! ### Groups: frontier, registers, window -/

/-- The pending hints of an entry (R275, R276): what each hint of the run holds and where the run starts. -/
structure Hints where
  guard : Option FormGuard := none
  imm : Option FormImm := none
  mod : Option FormMod := none
  delay : Option FormDelay := none
  start : Word := 0
deriving DecidableEq, Repr

/-- A fence that holds its entry (R320): the kind, scope and class mask of its word, and its lanes. -/
structure FenceHold where
  kind : Nat
  scope : Nat
  classes : BitVec 3
  lanes : LaneMask
  /-- The fence of a single access (R157), or of SVCTAKE (R387), covers the instruction with this sequence number alone. -/
  only : Option Nat
deriving DecidableEq, Repr

/-- The states of a frontier entry (R104). -/
inductive EntryState where
  | ready
  | results
  /-- Waiting at BWAIT on the object at a flat address for a phase; the register takes the result; `seq` is the BWAIT's
  number in its group, `whole` the lanes of the entry that issued it, and `since` the clock in which it began to wait (R117). -/
  | barrier (addr : Nat) (phase : BitVec 31) (reg : Nat) (s : Bool) (seq : Nat) (whole : LaneMask) (since : Nat)
  /-- Waiting at GROW for that many registers per lane. -/
  | grow (n : Nat) (s : Bool)
  | join (s : Bool)
  | trapped (t : TrapRec)
deriving DecidableEq, Repr

/-- A frontier entry (R104). Its priority is looked up from the priority map at `pc` (R103). -/
structure Entry where
  pc : Word
  mask : LaneMask
  j : LaneMask
  st : EntryState
  hints : Hints := {}
  holds : List FenceHold := []
  delay : Nat := 0
deriving DecidableEq, Repr

/-- The registers of a group that a return to a boundary takes back (R116), and the pending marks of R108: `pend` gives for a
v register (and at 128 for FSTAT) the lanes in which it is pending, `pendK` for a k register the lanes of the entry that
issued. v is indexed by lane × 128 + register, p by predicate with one bit per lane. -/
structure Regs where
  v : Sparse 32 := []
  k : Sparse 32 := []
  p : Sparse 32 := []
  fstat : Sparse 5 := []
  frm : BitVec 3 := 0
  mpb : DWord := 0
  tapep : Word := 0
  pend : Sparse 32 := []
  pendK : Sparse 32 := []
  /-- The 64-bit ECC words of the v registers that hold uncorrectable data (R61): lane × 64 + register ÷ 2. -/
  bad : List Nat := []
deriving DecidableEq, Repr

/-- One instruction of the window (R112): the boundary before it is the registers and the entry as they stood. `kw` names the
group-wide registers it wrote (R116): k by number, then 128 FRM, 129 MPB, 130 TAPEP. -/
structure WindowItem where
  seq : Nat
  pc : Word
  mask : LaneMask
  j : LaneMask
  mem : Bool
  before : Regs
  kw : List Nat
deriving DecidableEq, Repr

/-- A register MMA whose accumulator is not yet written (R111): v[d..d+n-1] and what will be written, by lane × 128 + register. -/
structure MmaPending where
  seq : Nat
  d : Nat
  n : Nat
  writes : List (Nat × Word)
deriving DecidableEq, Repr

/-- An MMAJ of a group (R355, R356): its fields, its scale registers as read at issue, and how far it is. The registers
v[a..a+11] and v[d..d+63] are lent until the BWAIT on `bar` completes (R111): `lent` holds them as they stood at issue. -/
structure Mmaj where
  jtag : BitVec 8
  typ : BitVec 5
  a : Nat
  d : Nat
  bar : DWord
  barAddr : Nat
  scales : Sparse 32
  lent : Sparse 32
  seq : Nat
  joined : Bool
  done : Bool
  corrupt : Bool
  writes : List (Nat × Word)
deriving DecidableEq, Repr

/-- What the replay record keeps of an instruction that acted on tiles, or of an MMAJ that has joined (R114): a return to a boundary does
not take such an effect back, and the instruction does not perform again when it issues again. `writes` are the registers, by lane × 128 +
register, that ADRAIN.R or an MMAJ has written. -/
structure MatrixLine where
  seq : Nat
  pc : Word
  insn : Word
  undone : Bool := false
  writes : List (Nat × Word) := []
deriving DecidableEq, Repr

/-- A group (R7, R88, R104, R112, R212), resident in a slot of its core or parked off-core (R117). -/
structure Group where
  handle : Nat
  launch : Nat
  core : Nat
  slot : Nat
  quadrant : Nat
  block : Option Nat
  gix : Nat
  blockX : Word
  blockY : Word
  blockZ : Word
  blockIndex : Nat
  gangRank : Word
  gangSize : Word
  scrBytes : Word
  lanes : LaneMask
  helpers : LaneMask
  allot : Nat
  regs : Regs
  q : Sparse 64
  tapeb : DWord
  tapel : Word
  adm : BitVec 2
  frontier : List Entry
  age : Nat
  skipped : Nat
  window : List WindowItem
  nextSeq : Nat
  mmas : List MmaPending
  mmaj : Option Mmaj
  matrix : List MatrixLine
  parks : Nat
  offCore : Option Nat
  gpark : Bool
  preempt : Bool
  killed : Bool
  updates : Sparse 32
deriving DecidableEq, Repr

/-! ### Accesses -/

/-- The operations of the ATOM field that change a word (R316). -/
inductive AtomOp where
  | addB32 | addF32 | addBf16x2 | minS32 | maxS32 | minZ32 | maxZ32 | and | or | xor | xchg | cas | incw | decw
  | addB64 | casB64 | caddF32 | caddBf16x2
deriving DecidableEq, Repr

/-- What an access does at its home (R145, R169, R186, R211, R326). -/
inductive AccOp where
  | load (bytes : Nat)
  | store (data : List Byte)
  /-- The tape store of a forward-mode store: the old value that another access returns, then the tag (R216). -/
  | tape (tag : Word) (link : Nat)
  | atomic (op : AtomOp) (ret : Bool) (a : DWord) (c : DWord)
  /-- The exchange of an inverted access (R216, R219): two or four bytes. -/
  | exchange (bytes : Nat) (value : Word)
  | bit (index : Nat)
  | arrive
  | landing (bytes : Nat)
  | expect (n : Word)
  | init (count : BitVec 16)
  | invalidate
  | test (phase : BitVec 31)
  | decl (count : Word) (bar : DWord)
  | domain (op : Nat) (m : BitVec 12) (chip : BitVec 12)
  /-- A collective message (R234): COUNT or DONE, and its units. -/
  | coll (done : Bool) (units : List PUnit)
deriving DecidableEq, Repr

/-- Where an access goes: a byte of this package by its flat address (see `State.mem`), or the fabric (R124, R130). -/
inductive Target where
  | home (addr : Nat)
  | fabric (lchip : BitVec 12) (sub : BitVec 2) (ofs : BitVec 46)
deriving DecidableEq, Repr

/-- Who made an access. -/
inductive Agent where
  | group (handle : Nat)
  | cp (core : Nat)
  | engine (cmd : Nat)
  | port (p : Packet)
deriving DecidableEq, Repr

/-- How far an access is (R114, R145). -/
inductive AccState where
  | inFlight
  | performed (value : List Byte) (gwct : Nat)
  | failed (cause : Cause) (remCause : BitVec 8) (remLog : BitVec 8) (ealcnt : Nat)
deriving DecidableEq, Repr

/-- Where the value of a deferred access goes. -/
inductive Dest where
  | none
  | v (reg : Nat) (count : Nat)
  | k (reg : Nat) (count : Nat)
  | x (reg : Nat) (count : Nat)
  | tile (id : Nat) (ofs : Nat)
deriving DecidableEq, Repr

/-- The Abacus key of a deterministic update (R263). -/
structure AbacusKey where
  block : Nat
  gix : Nat
  s : Nat
  lane : Nat
deriving DecidableEq, Repr

/-- One request of a memory instruction, of an engine or of the fabric: in flight, or a line of its group's replay record
(R35, R112, R114, R145-R157). -/
structure Access where
  id : Nat
  who : Agent
  lane : Nat
  /-- The lanes whose access it is, and those that wait for its result (R109). -/
  lanes : LaneMask
  wait : LaneMask
  /-- The instruction's number in its group; the chunk of an engine command. -/
  seq : Nat
  pc : Word
  cls : BitVec 2
  op : AccOp
  ptr : DWord
  target : Target
  key : Nat
  part : Nat
  vf : Nat
  launch : Nat
  core : Nat
  dest : Dest
  mod : BitVec 2
  /-- Accesses of one instruction that perform in the order of their ids (R216, R219). -/
  ordered : Bool
  /-- The request slot and the place of the request in it (R35). -/
  slot : Option Nat
  pos : Nat
  /-- The packet as last sent, whether it has left, the port it left by, how often it was NACKed and when it was issued. -/
  packet : Option Packet
  sent : Bool
  via : Nat
  nacks : Nat
  sentAt : Nat
  undone : Bool
  abacus : Option AbacusKey
  /-- NACKed by a line in ticket order: when it may be tried again (R263). -/
  retryAt : Option Nat
  quarantined : Bool
  st : AccState
  /-- The guest page, with its size, of the cached translation that an access to paged space uses (R141). -/
  page : Nat × Nat := (0, 0)
deriving DecidableEq, Repr

/-! ### Cores and control processors -/

/-- The state of a spawn bin (R91). -/
inductive BinState where
  | free
  | filling
  | closed
deriving DecidableEq, Repr

/-- A spawn bin: its key (launch and entry offset), when its first slot filled, its BINTIME, and the threads' argument words. -/
structure Bin where
  st : BinState := .free
  launch : Nat := 0
  entryOfs : Word := 0
  since : Nat := 0
  limit : Nat := 0
  threads : List (List Word) := []
deriving DecidableEq, Repr

/-- An L1 line, or the part of one that was filled, under a lease (R138): its first byte (a fabric address counts from 2^60),
expiry, whether it is fabric, the key it was read with, and its bytes. -/
structure L1Line where
  start : Nat
  expiry : Nat
  fabric : Bool
  key : Nat
  bytes : List Byte
deriving DecidableEq, Repr

/-- A streaming channel (R184). -/
structure Channel where
  isOpen : Bool := false
  cmd : Nat := 0
  wp : Word := 0
deriving DecidableEq, Repr

/-- A mailbox entry (R372). -/
structure Mail where
  handle : Nat
  lo : Word
  hi : Word
  mask : LaneMask
  launchId : Word
deriving DecidableEq, Repr

/-- A service request a control processor has posted and not yet taken or lost (R386). -/
structure SvcOutstanding where
  seq : Word
  vf : Nat
  handle : Nat
  mask : LaneMask
  base : Nat
  code : BitVec 16
deriving DecidableEq, Repr

/-- A reply taken from a reply ring and matched (R77, R387): its bytes wait for SVCTAKE. -/
structure SvcReply where
  seq : Word
  vf : Nat
  status : Word
  handle : Nat
  mask : LaneMask
  bytes : List Byte
deriving DecidableEq, Repr

/-- A control processor (R11, R121, R122, R272, R284). -/
structure Cp where
  x : Sparse 64 := []
  p : Sparse 32 := []
  fstat : BitVec 5 := 0
  frm : BitVec 3 := 0
  pend : Sparse 32 := []
  pc : Word := 0
  running : Bool := false
  stopped : Bool := false
  vf : Nat := 0
  hints : Hints := {}
  holds : List FenceHold := []
  /-- Turns for which a DELAY hint withholds the next word (R279). -/
  delay : Nat := 0
  /-- Waiting at BWAIT: flat address, phase, result register (R324). -/
  wait : Option (Nat × BitVec 31 × Nat) := none
  /-- SNAP waits for the coordinator's answer: the result register (R192). -/
  snapWait : Option Nat := none
  /-- GPARK waits for a group to be parked: its handle and the result register (R385). -/
  gparkWait : Option (Nat × Nat) := none
  nextSeq : Nat := 0
  saved : Word := 0
  tcause : BitVec 8 := 0
  tremcause : BitVec 8 := 0
  tpc : Word := 0
  tmask : LaneMask := 0
  tentry : LaneMask := 0
  taddr : DWord := 0
  tghandle : DWord := 0
  tprio : BitVec 16 := 0
  tealcnt : DWord := 0
  tinsn : Word := 0
  cptvec : DWord := 0
  intrap : Bool := false
  parkthr : Nat := 65536
  /-- A trap of the CP's own instruction that waits in its place of the queue (R123); `taken` says that the handler of an earlier
  trap runs before it. -/
  ownTrap : Option TrapRec := none
  /-- The next word was held at issue when it was last tried (R121). -/
  stalled : Bool := false
  code : List Host.Cell := []
  /-- The private data memory of 64 KiB (R14); no rule gives an access to it. -/
  data : List Host.Cell := []
  svc : List SvcOutstanding := []
  replies : List SvcReply := []
deriving DecidableEq, Repr

/-- What one core holds beside its groups: the spawn unit, the L1, the channels, the mailbox, the control processor, the trap
queue (R121), the GROW requests of its quadrants in order of issue (R89) and the park slots in use (R117). -/
structure Core where
  bintime : Nat := 2048
  bins : List (Nat × Bin) := []
  l1 : List L1Line := []
  /-- The 8-byte words of the L1 that hold uncorrectable data (R61), by their first byte. -/
  l1Bad : List Nat := []
  channels : List (Nat × Channel) := []
  mailbox : List Mail := []
  cp : Cp := {}
  trapq : List TrapSource := []
  growq : List (Nat × Nat × Nat) := []
deriving DecidableEq, Repr

/-- A resident block (R82, R88) and its scratchpad window: `scr` are the runs of its core's slice, as first byte and length, that hold
the window's bytes in order. -/
structure Block where
  uid : Nat
  launch : Nat
  index : Nat
  gang : Nat
  rank : Nat
  gangSize : Nat
  core : Nat
  bslot : Nat
  scr : List (Nat × Nat)
  scrBytes : Nat
  regs : Nat
  gpb : Nat
  released : Bool
deriving DecidableEq, Repr

/-! ### Matrix engine -/

/-- An MLOOP command of a quadrant's sequencer (R357, R358): the pointers of its steps, for each step the flat addresses of its units of 64
bytes, BAR, and the bytes of the steps that it has read. -/
structure Mloop where
  id : Nat
  group : Nat
  gslot : Nat
  launch : Nat
  block : Nat
  core : Nat
  quadrant : Nat
  tile : Nat
  typ : BitVec 5
  aPtrs : List Nat
  bPtrs : List Nat
  aSteps : List (List Nat)
  bSteps : List (List Nat)
  barPtr : Nat
  bar : Option Nat
  operands : List (List Byte × List Byte)
deriving DecidableEq, Repr

/-- An ALOAD.M that has not finished (R352, R364): what has arrived of its bytes, by offset. -/
structure TileOp where
  id : Nat
  core : Nat
  tile : Nat
  group : Nat
  block : Nat
  seq : Nat
  rows : List (Nat × List Byte)
  complex : Bool
deriving DecidableEq, Repr

/-! ### Launches -/

/-- A launch record (R73), field by field. -/
structure LaunchRec where
  code : DWord
  entry : Word
  priomap : Word
  gridX : Word
  gridY : Word
  gridZ : Word
  gpb : BitVec 8
  det : Bool
  coop : Bool
  gangP : BitVec 8
  gangF : BitVec 8
  regs : BitVec 8
  qos : BitVec 8
  scrBytes : Word
  constp : DWord
  kcount : BitVec 8
  cbar : DWord
  launchId : Word
  parentId : Word
  tapep : DWord
  tapeBytes : Word
  dgroup : BitVec 6
  dgv : Bool
  bytes : List Byte
deriving DecidableEq, Repr

/-- A format entry (R133). -/
structure FormatEntry where
  start : DWord := 0
  stop : DWord := 0
  aux : DWord := 0
  fmt : BitVec 4 := 0
  geom : BitVec 2 := 0
  d : Bool := false
  p : Bool := false
  key : BitVec 8 := 0
deriving DecidableEq, Repr

/-- A heap window header (R132) with its sixteen format entries (an entry not listed is all 0). -/
structure HeapWindow where
  hbase : DWord := 0
  hlimit : DWord := 0
  hofs : DWord := 0
  fab : Bool := false
  dkey : BitVec 8 := 0
  htroot : DWord := 0
  formats : List (Nat × FormatEntry) := []
deriving DecidableEq, Repr

/-- A line of the ownership table (R261): the block that it is private to (none: shared, or released by its owner's serial
phase), the pre-image once saved, the bytes that the private owner has written in place, and the blocks' versions. -/
structure OwnLine where
  line : Nat
  owner : Option Nat
  pre : Option (List Byte)
  written : List (Nat × Byte)
  versions : List (Nat × List (Nat × Byte))
deriving DecidableEq, Repr

/-- A deterministic job's tick state (R47): packets held for the tick in which they were issued, DSEQ per destination, and what
has been received of each member's ticks. `released` is the next tick to release and `applied` the next to apply, of whose
packets `partway` have been applied; `sentEnds` are the TICKENDs sent in the last 64 ticks (chip, tick, count). -/
structure TickState where
  held : List (Nat × Packet) := []
  dseq : List (Nat × Nat) := []
  released : Nat := 0
  started : Bool := false
  finalSent : Bool := false
  members : List Nat := []
  received : List (Nat × Packet) := []
  ends : List (Nat × Nat × Nat) := []
  applied : Nat := 0
  partway : Nat := 0
  sentEnds : List (Nat × Nat × Nat) := []
deriving DecidableEq, Repr

/-- A launch from the moment its record is accepted until it has finished (R73, R84, R86, R87, R95, R132): `placed` counts the
blocks placed so far, `gangs` the gangs placed, `releasedBlocks` the blocks released; no block of a `stopped` launch is placed
any more, and a `finished` one stays only for its job's ticks (R47). -/
structure Launch where
  uid : Nat
  part : Nat
  vf : Nat
  record : LaunchRec
  heap : HeapWindow
  consts : List Word
  prio : List (Nat × BitVec 16)
  inStore : Bool
  waitParent : Option Nat
  placed : Nat
  gangs : Nat
  releasedBlocks : Nat
  serial : Nat
  terminated : Bool
  stopped : Bool
  finished : Bool
  hostCmd : Option Nat
  own : List OwnLine
  ownLines : Nat
  ownRecords : Nat
  ticks : TickState
  /-- The latest GWCT of its lanes' stores and atomics: its CBAR arrival is a release of them (R165). -/
  release : Nat := 0
deriving DecidableEq, Repr

/-- A request that waits for an entry of the pending-launch store (R95): a host LAUNCH command, or a lane of a LAUNCHW. -/
structure StoreWait where
  part : Nat
  vf : Nat
  record : LaunchRec
  consts : List Word
  prio : List (Nat × BitVec 16)
  hostCmd : Option Nat
  group : Nat
  lane : Nat
  reg : Nat
  parent : Option Nat
deriving DecidableEq, Repr

/-! ### Engine commands -/

/-- The kinds of engine command (R174). -/
inductive CmdKind where
  | copy
  | channel (c : Nat)
  | snap (colour : Bool)
  | route
  | combine
  | digest
deriving DecidableEq, Repr

/-- The statuses of an engine command (R175). -/
inductive CmdStatus where
  | running | done | faulted | invalid | invalidated | error | aborted | cancelled
deriving DecidableEq, Repr

/-- The phases of a ROUTE (R231) or COMBINE (R236): waiting to start, reading its arrays, counting, placing rows or combining tokens,
writing outputs, and waiting for DONE. -/
inductive RoutePhase where
  | waiting | reading | counting | working | writing | ending
deriving DecidableEq, Repr

/-- What a ROUTE or COMBINE holds beside its command (R228-R236): the generation, members and rank it started with, the expert table, the
unit 0 of the COUNTs and the DONEs received by member, the next item to work on (a choice of a ROUTE, a token of a COMBINE), and what has
been placed and dropped. -/
structure RouteState where
  phase : RoutePhase := .waiting
  gen : BitVec 16 := 0
  members : List Nat := []
  rank : Nat := 0
  extab : List Byte := []
  counts : List (Nat × List PUnit) := []
  dones : List (Nat × Bool) := []
  item : Nat := 0
  invp : List Nat := []
  drops : List Nat := []
  loaded : Bool := false
  /-- The items that a snapshot found counted, for a command that a restore has put back to an earlier one (R198). -/
  counted : List Nat := []
deriving DecidableEq, Repr

/-- An engine command (R174, R175). `record` is the record it read; `chunks` the chunks counted; `skipped` those a fault
skipped, each with its page. `sg` lists the chain elements reached: stream byte, bytes, source and whether skipped (R181); `sgAt` is
the next element and `sgElem` the element whose predicate is being read. `bad` is a verdict of INVALID that waits for what is in
flight. -/
structure Cmd where
  handle : Nat
  core : Nat
  part : Nat
  vf : Nat
  launchHeap : HeapWindow
  kind : CmdKind
  record : List Byte
  ptr : DWord
  status : CmdStatus
  ecause : Option (Cause × DWord)
  flags : BitVec 5
  bar : Option Nat
  chunks : List Nat
  skipped : List (Nat × Nat)
  failedChunks : List Nat
  cursor : Nat
  progress : List Byte
  cancel : Bool
  inval : Bool
  route : RouteState
  doneOrder : Nat
  resume : Option Nat
  sg : List (Nat × Nat × Nat × Bool) := []
  sgAt : Nat := 0
  sgElem : Option (List Byte) := none
  bad : Option (Cause × DWord) := none
  /-- The remote cause and log index of a first error REMOTE (R36). -/
  erem : BitVec 8 × BitVec 8 := (0, 0)
deriving DecidableEq, Repr

/-- A contribution entry of a line (R186): its count, what a CDECL declared (the number and the barrier, with its pointer), the group and
generation it is bound to, and the latest GWCT of its contributions (R163). -/
structure ContribEntry where
  line : Nat
  count : Nat
  declared : Option (Nat × Nat)
  bound : Option (Nat × BitVec 16)
  aborted : Bool
  ptr : DWord := 0
  gwct : Nat := 0
deriving DecidableEq, Repr

/-- A ready arrival that waits for the GWCT of its line (R163): the barrier, its pointer, and the time. -/
structure DueArrival where
  bar : Nat
  ptr : DWord
  time : Nat
deriving DecidableEq, Repr

/-! ### Virtual functions, partitions -/

/-- A ring's registers (R68), and whether the ring stands after an error of a slot (R69). -/
structure Ring where
  base : DWord := 0
  log2n : BitVec 4 := 4
  pidx : Word := 0
  cidx : Word := 0
  halted : Bool := false
deriving DecidableEq, Repr

/-- The statuses of a host command (R72). -/
inductive HostStatus where
  | ok | badop | invalid | key | busy | nocolour | notfound | denied | terminated | stopped
deriving DecidableEq, Repr

/-- A host command from its fetch until its completion entry is written (R70); `running` once it has started. -/
structure HostCmd where
  uid : Nat
  vf : Nat
  slotAddr : DWord
  opc : BitVec 8
  cmdid : BitVec 16
  payload : List Byte
  running : Bool
  result : Option (HostStatus × DWord)
deriving DecidableEq, Repr

/-- A fault record that waits for the fault ring (R74). -/
structure FaultRec where
  kind : BitVec 8
  vaddr : DWord
  access : BitVec 2
  cmdh : Nat
  first : Word
  count : Word
deriving DecidableEq, Repr

/-- A notification (R75). -/
structure Notification where
  kind : BitVec 8
  data : DWord
deriving DecidableEq, Repr

/-- An entry of an I/O die's guest TLB (R142): the page, its size and the guest-physical address it maps to, with the W of its walk and
KEY, FMT and P of its leaf. -/
structure GuestEntry where
  iod : Nat
  vf : Nat
  page : Nat
  size : Nat
  gpa : Nat
  writable : Bool
  key : BitVec 8
  fmt : BitVec 4
  profile : Bool
deriving DecidableEq, Repr

/-- An entry of an I/O die's nested TLB (R142): the guest-physical page, its size, its system-physical address and its W. -/
structure NestedEntry where
  iod : Nat
  vf : Nat
  page : Nat
  size : Nat
  phys : Nat
  writable : Bool
deriving DecidableEq, Repr

/-- The translation that a guest and a host translation give together: the smaller page, its system-physical place, and the guest page. -/
structure Translation where
  vf : Nat
  page : Nat
  size : Nat
  phys : Nat
  gpage : Nat
  gsize : Nat
  writable : Bool
  key : BitVec 8
  fmt : BitVec 4
  profile : Bool
deriving DecidableEq, Repr

/-- A walk of an engine command that ended in a fault: the 4 KiB page, the kind (R74; 0 where a table entry was uncorrectable, R62), and
whether it was for a write. -/
structure WalkFault where
  cmd : Nat
  page : Nat
  kind : Nat
  write : Bool
deriving DecidableEq, Repr

/-- The state of a victim selection (R143). -/
inductive MigStat where
  | idle | waiting | selected | invalidList
deriving DecidableEq, Repr

/-- A virtual function: its binding entry (R51), heap window and formats (R132, R133), SRAM window (R133), control registers
(R67), rings (R68), translation registers (R141), access counters (R76) and what waits for its rings. -/
structure Vf where
  ld : BitVec 4 := 0
  part : BitVec 4 := 0
  valid : Bool := false
  keylo : BitVec 8 := 0
  keyn : BitVec 8 := 0
  heap : HeapWindow := {}
  dsbase : BitVec 8 := 0
  dsn : BitVec 8 := 0
  dsvalid : Bool := false
  en : Bool := false
  run : Bool := false
  stopping : Bool := false
  stopped : Bool := false
  cfgerr : Bool := false
  accthr : Word := 256
  ndrop : Word := 0
  rings : List (Nat × Ring) := []
  gtroot : DWord := 0
  invaddr : DWord := 0
  /-- The address of the invalidation under way: INVADDR as it stood when INVPAGE was written (R141). -/
  invat : DWord := 0
  invbusy : Bool := false
  invall : Bool := false
  miglist : DWord := 0
  mign : BitVec 8 := 0
  migsel : BitVec 8 := 0
  migstat : MigStat := .idle
  /-- The ranges that the candidates name, as page and size (R143). -/
  candidates : List (Nat × Nat) := []
  svcseq : Word := 0
  counters : Sparse 32 := []
  accessQueued : List (Nat × Nat) := []
  notifications : List Notification := []
  faults : List FaultRec := []
  completions : List Nat := []
  msix : List Nat := []
deriving DecidableEq, Repr

/-- A sink entry (R204). -/
structure Sink where
  kind : BitVec 2 := 0
  log2qd : BitVec 4 := 0
  base : DWord := 0
  len : DWord := 0
  cqbase : DWord := 0
  sqdb : DWord := 0
  nsid : Word := 0
  lba : DWord := 0
deriving DecidableEq, Repr

/-- A queue pair of an NVMe sink (R204): the entry of the submission queue that is filled next, the entry of the completion queue that is polled,
the next command number, and the Writes in flight: their number, colour and snapshot. -/
structure NvmeQueue where
  tail : Nat := 0
  head : Nat := 0
  cid : BitVec 16 := 0
  inFlight : List (BitVec 16 × Bool × Word) := []
deriving DecidableEq, Repr

/-- The states of a colour (R188, R207). -/
inductive ColourState where
  | free | live | localdone | quiet | aborting
deriving DecidableEq, Repr

/-- A granule of the snapshot (R195): a heap page of a VF by its heap offset, a bank of a core's slice, a bank of its
accumulator memory, or a group's registers. -/
inductive Granule where
  | heapPage (vf : Nat) (ofs : Nat)
  | bank (core : Nat) (bank : Nat)
  | accBank (core : Nat) (bank : Nat)
  | group (handle : Nat)
deriving DecidableEq, Repr

/-- A tombstone (R42). -/
structure Tombstone where
  dom : Nat
  lchip : Nat
  phys : BitVec 12
  gen : BitVec 16
  expiry : Nat
deriving DecidableEq, Repr

/-- A collective group entry (R224). -/
structure CollGroup where
  gen : BitVec 16 := 0
  members : List Nat := []
deriving DecidableEq, Repr

/-- What the fabric context of a snapshot records (R198, R209): the partition's launches, blocks, heap and SRAM windows, slice
layout, dies, chips of its domain and tombstones; and, of what no record of R205 is named for, the requests waiting for the store, the
collective groups and messages held, the contribution entries, the owners of tiles and the spawn bins. -/
structure FabricImage where
  dies : BitVec 12
  chips : List Nat
  dsres : BitVec 8
  vfs : List (Nat × HeapWindow × BitVec 8 × BitVec 8 × Bool)
  launches : List Launch
  blocks : List Block
  waits : List StoreWait
  tombs : List Tombstone
  cgroups : List (Nat × CollGroup)
  held : List Packet
  contribs : List ContribEntry
  due : List DueArrival
  tileOwner : List (Nat × Nat)
  bins : List (Nat × List (Nat × Bin))
deriving DecidableEq, Repr

/-- What a record of a snapshot stands for, beside its bytes (R197, R198, R201, R205): the spec gives no layout for these
bodies, so the model keeps what they hold. -/
inductive Image where
  | bytes
  | page (vf : Nat)
  | group (g : Group) (accesses : List Access) (tiles : List TileOp) (svc : List SvcOutstanding)
  | engine (c : Cmd) (accesses : List Access)
  | loop (m : Mloop)
  | log (packets : List Packet)
  | fabric (f : FabricImage)
deriving DecidableEq, Repr

/-- A record that Kite has still to write (R205): kind, ID, body and what it stands for. -/
structure StreamRec where
  rkind : Nat
  ident : DWord
  body : List Byte
  image : Image
  /-- One copy in staging serves both colours (R195). -/
  shared : Bool := false
deriving DecidableEq, Repr

/-- A record as a sink holds it: the snapshot and the logical chip of its header, the header's bytes, and where in memory it lies when the sink
is a range of memory. -/
structure SunkRec where
  snapno : Word
  lchip : BitVec 12
  sink : Sink
  aborted : Bool
  body : StreamRec
  header : List Byte := []
  place : Option Nat := none
deriving DecidableEq, Repr

/-- A request for a snapshot (R189, R192, R71): who waits for its answer, the descriptor as read, and its regions as pointer and
length. -/
structure SnapReq where
  cp : Option (Nat × Nat)
  host : Option Nat
  reqcol : BitVec 2
  desc : List Byte
  regions : List (Nat × Nat)
deriving DecidableEq, Repr

/-- A run of granules in the scope of a snapshot: the heap pages of a VF from an offset up to another, or the banks of a core's
slice or of its accumulator memory from a number up to another. -/
inductive Span where
  | heap (vf : Nat) (lo : Nat) (hi : Nat)
  | bank (core : Nat) (lo : Nat) (hi : Nat)
  | acc (core : Nat) (lo : Nat) (hi : Nat)
deriving DecidableEq, Repr

/-- One colour of a partition (R188-R207). `trec` is the record point once a trigger has fixed it; `chans` are the channels as they
stood there, `markers` the counts received of them and `markersSent` those sent. -/
structure Colour where
  st : ColourState := .free
  init : Bool := false
  snapno : Word := 0
  capbytes : Word := 0
  epoch : Bool := false
  headerBit : Bool := false
  recEpoch : Nat := 0
  captured : List Granule := []
  scope : List Span := []
  trec : Option Nat := none
  pendingNo : Word := 0
  desc : Option SnapReq := none
  chans : List Nat := []
  markersSent : List (Nat × Nat) := []
  sinks : BitVec 8 := 0
  label : DWord := 0
  deadline : Option Nat := none
  sent : List (Nat × Nat) := []
  recv : List (Nat × Nat) := []
  markers : List (Nat × Nat) := []
  closed : List Nat := []
  logs : List (Nat × Packet) := []
  staging : List StreamRec := []
  written : Nat := 0
  sinkPos : List (Nat × Nat) := []
  /-- The 4 KiB blocks of each NVMe sink that have been sent to it (R204). -/
  blocks : List (Nat × Nat) := []
  endWritten : Bool := false
  aborted : Bool := false
  nvmePending : Nat := 0
  snapCmd : Option Nat := none
  hostCmd : Option Nat := none
  abortAsked : Bool := false
  freedDue : Bool := false
  bitRequests : List Nat := []
deriving DecidableEq, Repr

/-- The coordinator's part for one colour (R189, R202): the allocation flag, who has reported, and the reopen timer. -/
structure Coordinator where
  flag : Bool := false
  /-- The number of the snapshot that holds the flag. -/
  no : Word := 0
  awaited : List Nat := []
  localdone : List Nat := []
  freed : List Nat := []
  reopened : List Nat := []
  reopenAt : Option Nat := none
deriving DecidableEq, Repr

/-- A record of the Error Address Log (R79). -/
structure EalRec where
  cause : BitVec 8
  remCause : BitVec 8
  remLog : BitVec 8
  addr : DWord
  rkind : BitVec 3
  core : BitVec 10
  gslot : BitVec 6
  vf : BitVec 8
  gtime : DWord
deriving DecidableEq, Repr

/-- A service request that waits for its request ring (R77). -/
structure SvcPost where
  vf : Nat
  core : Nat
  seq : Word
  launchId : Word
  code : BitVec 16
  handle : Nat
  mask : LaneMask
  args : List (Nat × List Word)
deriving DecidableEq, Repr

/-- The states of a partition (R52). -/
inductive PartState where
  | empty | active | draining | scrubbing
deriving DecidableEq, Repr

/-- A partition: its table entry (R52), slice layout (R133), determinism entry (R262), snapshot control block (R196), colours
(R188), coordinator part (R189), collective groups (R224), Error Address Log (R79) and service queue (R77). -/
structure Part where
  dies : BitVec 12 := 0
  valid : Bool := false
  pcap : Word := 0
  fabwt : BitVec 8 := 0
  cxlwt : BitVec 8 := 0
  svcwt : BitVec 8 := 0
  dom : BitVec 8 := 0
  lchip : BitVec 12 := 0
  joined : Bool := false
  keylo : BitVec 8 := 0
  keyn : BitVec 8 := 0
  st : PartState := .empty
  dsres : BitVec 8 := 64
  ownunits : BitVec 8 := 16
  stageunits : BitVec 10 := 0
  coord : BitVec 12 := 0
  defsinks : BitVec 8 := 0
  snaptmo : Word := 1000
  sinks : List (Nat × Sink) := []
  colourA : Colour := {}
  colourB : Colour := {}
  coordA : Coordinator := {}
  coordB : Coordinator := {}
  grants : Word := 0
  snapReqs : List SnapReq := []
  /-- Bytes of staging that Kite has written and that are not yet free (R195). -/
  unfreed : Nat := 0
  cgroups : List (Nat × CollGroup) := []
  ealcnt : Nat := 0
  eal : List EalRec := []
  svcq : List SvcPost := []
  slotsUsed : List Nat := [0, 0, 0]
  slotWindows : List Nat := [0, 0, 0]
  /-- The slots used in the present window, by service (R78). -/
  windowUsed : List Nat := [0, 0, 0]
  /-- The cap in force in W, as a fraction (R20). -/
  capInForce : Nat × Nat := (0, 1)
  held : List Packet := []
  /-- The queue pairs of the NVMe sinks, by sink (R204). -/
  nvme : List (Nat × NvmeQueue) := []
  /-- The logical chip has moved to another package and is hosted here no more (R42). -/
  moved : Bool := false
deriving DecidableEq, Repr

/-! ### Fabric and management -/

/-- What Abten records of its own (R19, R26, R30, R38, R62), each with the port or die concerned. -/
inductive MgmtEvent where
  | inputVoltage | portDown | retrain | security | junctionTrip | parity
deriving DecidableEq, Repr

/-- A key of one direction of a link (R29): its 256 bits, the link salt of its initialisation vectors, and the direction's counter when it
was installed. -/
structure LinkKey where
  key : BitVec 256
  salt : Word
  base : Nat
deriving DecidableEq, Repr

/-- A flit as its sender forms it before encryption: its header, its packet units, and the key slot's key and counter (R27-R29). -/
structure SentFlit where
  header : LinkHeader
  units : List PUnit
  key : LinkKey
  counter : Nat
deriving DecidableEq, Repr

/-- One direction pair of a Yilwick port (R25-R31): lanes in use (0: down), the two keys of each direction and the one in use for
sending, counters, sequence numbers, credits to spend and to return, the retry buffer with each flit's virtual channel, the packets
queued for transmission, the receive buffers (for each flit held, its virtual channel and the packets not yet served), the flits sent,
and the four stamps of a time exchange (R45). -/
structure Port where
  lanes : Nat := 8
  txKeys : List (Bool × LinkKey) := []
  rxKeys : List (Bool × LinkKey) := []
  txKey : Bool := false
  txCounter : Nat := 0
  rxCounter : Nat := 0
  txSeq : BitVec 12 := 0
  rxSeq : BitVec 12 := 0
  acked : BitVec 12 := 0xFFF
  retryBuf : List (BitVec 12 × List PUnit) := []
  retryDue : List (BitVec 12) := []
  retryCount : Nat := 0
  askRetry : Bool := false
  gapSeen : Bool := false
  /-- Credits that the other end has given, by virtual channel (R31). -/
  credits : List (Nat × Nat) := []
  /-- Credits to return, by virtual channel. -/
  owed : List (Nat × Nat) := []
  queue : List Packet := []
  rxBuf : List (Nat × List Packet) := []
  sent : List SentFlit := []
  discarded : Nat := 0
  corrupt : Nat := 0
  unacked : Nat := 0
  timexStamps : List (Nat × DWord) := []
  lastTimex : Nat := 0
deriving DecidableEq, Repr

/-- A remap table entry (R40). -/
structure RemapEntry where
  phys : BitVec 12 := 0
  valid : Bool := false
  gen : BitVec 16 := 0
deriving DecidableEq, Repr

/-- The wear registers of a die or of the module (R24), with the count of updates, whether a notification is armed, and the errors
corrected in the stack and the bits read of each of the last 24 hours, the newest first. -/
structure Wear where
  peol : Word := 0xFFFFFFFF
  roscdrift : Word := 0
  emcount : Word := 0
  hbmctrend : Word := 0
  peoltime : DWord := 0
  peolwarn : Word := 8760
  armed : Bool := true
  updates : Nat := 0
  hours : List (Nat × Nat) := []
deriving DecidableEq, Repr

/-- A die: gated while no partition holds it (R21), above its throttle point (R19), the sixteenths of its issue slots that its
partition's cap and its own heat withhold (R17), stopped (R19, R62), the errors corrected in its stack since the last hourly update
(R24), and being scrubbed, for the partition that it left (R54). -/
structure Die where
  gated : Bool := true
  hot : Bool := false
  capHeld : BitVec 4 := 0
  heatHeld : BitVec 4 := 0
  corrected : Nat := 0
  stopped : Bool := false
  scrubbing : Option Nat := none
deriving DecidableEq, Repr

/-- An SPDM responder of Abten on one transport (R64): how far negotiation has come and whether a session is up. -/
structure Spdm where
  version : Bool := false
  capabilities : Bool := false
  algorithms : Bool := false
  exchanged : Bool := false
  session : Bool := false
deriving DecidableEq, Repr

/-- Abten's firmware (R63): the running image's security version, the delivered image's bytes, and the verified image that
takes effect at the next module reset. -/
structure Firmware where
  version : Nat := 0
  digestOk : Bool := true
  delivered : List (Nat × Byte) := []
  pending : Option Nat := none
deriving DecidableEq, Repr

/-- An answer that Abten or the host port gives to the outside (R57, R64, R66). -/
structure Answer where
  peer : Nat
  code : Nat
  status : Nat
  seq : BitVec 16
  bytes : List Byte
deriving DecidableEq, Repr

/-- A CXL port (R48): the lanes and the rate in GT/s in use. -/
structure CxlPort where
  width : Nat := 16
  rate : Nat := 64
deriving DecidableEq, Repr

/-- What a posted write is: data, a flag write, or the MSI-X message of a vector (R56). -/
inductive PostKind where
  | data | flag | message (vector : Nat)
deriving DecidableEq, Repr

/-- A posted write to host or CXL memory (R56): the CXL port and VF, the flat address and how many bytes, what it is, its traffic class and
its Relaxed Ordering. -/
structure HostPost where
  port : Nat
  vf : Nat
  addr : Nat
  bytes : Nat
  kind : PostKind
  tc : Nat
  relaxed : Bool
deriving DecidableEq, Repr

/-- A host CXL.mem write whose completion is still to be returned (R166). -/
structure HostWrite where
  id : Nat
  vf : Nat
  gwct : Nat
deriving DecidableEq, Repr

/-! ### What moves next -/

/-- Who issues an instruction word: an entry of a group, named by its lowest lane, or a control processor. -/
inductive Issuer where
  | group (handle : Nat) (lane : Nat)
  | cp (core : Nat)
deriving DecidableEq, Repr

/-- What one step does: an operation or event of the machine happens, a quadrant of a core issues (R106), a control processor
executes its next word, or time passes. -/
inductive Act where
  | event (e : Event)
  | issue (core : Nat) (quadrant : Nat)
  | cp (core : Nat)
  | idle
deriving DecidableEq, Repr

/-- One turn of the schedule: how many nanoseconds pass and what then happens. -/
structure Turn where
  ns : Nat
  act : Act
deriving DecidableEq, Repr

/-- Everything but the byte memory, the clock and the fused counter. -/
structure Sys where
  /-- The model's own: the schedule, which agent moves next and how much time passes (assumption log 2). -/
  turns : List Turn := []
  /-- The model's own: the agent whose instruction word is being executed. -/
  cur : Option Issuer := none
  /-- The model's own: the word being executed. -/
  insn : Word := 0
  /-- The model's own: the event that is happening. -/
  ev : Option Event := none
  /-- The model's own: how many free values have been used (assumption log 3). -/
  free : Nat := 0
  /-- The next number for a handle, access, launch or command (R374: never 0). -/
  nextId : Nat := 1
  /-- The nanoseconds that have passed since reset, which GTIME may run behind or before (R18): the clocks are counted on it (R3, R16). -/
  ns : Nat := 0
  /-- The last step of R23 completed, 0-8. -/
  resetStep : Nat := 8
  poweredDown : Bool := false
  phys : BitVec 12 := 0
  aligned : Bool := false
  wide : Bool := false
  timeofs : Word := 0
  ticklen : Word := 1000
  firstAligned : Bool := false
  /-- How far GTIME is still to be slewed (R18), the nanoseconds that count towards the next step of it, and the time of the last
  valid exchange (R45). -/
  slew : Int := 0
  slewAcc : Nat := 0
  lastExchange : Nat := 0
  reference : List (Nat × Nat) := []
  /-- A launch has been accepted since reset (R18). -/
  launched : Bool := false
  /-- The partition table's entries in the persistent configuration that step 6 of R23 loads. -/
  persistent : List (Nat × List Byte) := []
  coolantFault : Bool := false
  dies : List (Nat × Die) := []
  wear : List (Nat × Wear) := []
  parts : List (Nat × Part) := []
  vfs : List (Nat × Vf) := []
  lds : List (Nat × Nat) := []
  keys : List Nat := []
  ideKeys : List Nat := []
  frames : Sparse 9 := []
  eccBad : List Nat := []
  eccCorrectable : List Nat := []
  corrected : Nat := 0
  ports : List (Nat × Port) := []
  portLists : List (Nat × List Nat) := []
  /-- The physical chips that are joined to this one without a switch (R37). -/
  direct : List Nat := []
  /-- Class O packets that a failed port or a newer generation holds back, in order (R38, R44). -/
  heldO : List Packet := []
  remap : List (Nat × RemapEntry) := []
  /-- The places that NACKs have told of and the table does not yet hold (R44). -/
  adopted : List (Nat × RemapEntry) := []
  /-- Packets received and not yet served; a packet to the package's own logical chip comes here through the loopback (R131). -/
  inbox : List Packet := []
  tombstones : List Tombstone := []
  fw : Firmware := {}
  spdm : List (Nat × Spdm) := []
  answers : List Answer := []
  hostWrites : List HostWrite := []
  /-- The two CXL ports (R48). -/
  cxl : List (Nat × CxlPort) := []
  /-- What has been sent to host and CXL memory, in order (R56). -/
  posted : List HostPost := []
  /-- The number of the service window that is running (R78). -/
  lastWindow : Nat := 0
  /-- The REMAP commands that have started and not ended, each with its domain (R189, R208). -/
  remapping : List (Nat × Nat) := []
  events : List (MgmtEvent × Nat) := []
  cores : List (Nat × Core) := []
  groups : List Group := []
  blocks : List Block := []
  launches : List Launch := []
  storeWaits : List StoreWait := []
  accesses : List Access := []
  leases : List (Nat × Nat) := []
  cmds : List Cmd := []
  hostCmds : List HostCmd := []
  contribs : List ContribEntry := []
  due : List DueArrival := []
  /-- The domain barriers that the package knows of: those its agents have named and those it is the home of (R211). -/
  domains : List Target := []
  ticketLines : List Nat := []
  tiles : Sparse 32 := []
  /-- The 64-bit words of accumulator memory that hold uncorrectable data (R61): the even place of their first 32-bit word, halved. -/
  accBad : List Nat := []
  tileOwner : List (Nat × Nat) := []
  mloops : List Mloop := []
  tileOps : List TileOp := []
  tlb : List GuestEntry := []
  nested : List NestedEntry := []
  walkFaults : List WalkFault := []
  pins : List (Nat × Nat × Nat) := []
  /-- What the sinks hold of the records Kite has written. -/
  sunk : List SunkRec := []
deriving DecidableEq, Repr

/-- The state of one LX768 package. `mem` holds every byte of HBM4E, of the SRAM slices and of the host and CXL memory the
package reaches, by flat address (Machine/Memory.lean gives the flat addresses); a byte not listed is 0. `gtime` is GTIME
(R18); `boots` counts package resets; `fuse` is the fused security-version counter (R63). -/
structure State where
  mem : List Host.Cell
  gtime : Nat
  boots : Nat
  fuse : Nat
  sys : Sys
deriving DecidableEq, Repr

/-- The package right after reset: the steps of R23 completed, GTIME 0, all memories zero, every table and register at its
reset value, no partition assigned, nothing resident. -/
def State.reset : State :=
  { mem := [], gtime := 0, boots := 0, fuse := 0, sys := {} }

end Sys2Proof.Machine
end

