-- ==== Sys2Proof/Machine/Memory.lean ====
section
/-!
DEFINITION. Sparse tables, the byte memory in its canonical form, and the flat addresses of HBM4E, SRAM and host memory.
-/
namespace Sys2Proof.Machine

/-! ### Sparse tables -/

/-- The value at index i; 0 where none is listed. -/
def sget {w : Nat} (l : Sparse w) (i : Nat) : BitVec w :=
  match l with
  | [] => 0
  | (j, x) :: r => if i = j then x else sget r i

/-- The table with an entry x, which is not 0, at index i. -/
def sput {w : Nat} (l : Sparse w) (i : Nat) (x : BitVec w) : Sparse w :=
  match l with
  | [] => [(i, x)]
  | (j, y) :: r => if i < j then (i, x) :: (j, y) :: r else if i = j then (i, x) :: r else (j, y) :: sput r i x

/-- The table with the value x at index i, listed by rising index, without an entry of 0. -/
def sset {w : Nat} (l : Sparse w) (i : Nat) (x : BitVec w) : Sparse w :=
  if x = 0 then l.filter (fun p => p.1 != i) else sput l i x

/-- The table after several writes in order. -/
def ssets {w : Nat} (l : Sparse w) (ws : List (Nat × BitVec w)) : Sparse w := ws.foldl (fun t p => sset t p.1 p.2) l

/-- Indices strictly rise and no entry is 0. -/
def sparseWf {w : Nat} : Sparse w → Bool
  | [] => true
  | [(_, x)] => x != 0
  | (i, x) :: (j, y) :: r => x != 0 && i < j && sparseWf ((j, y) :: r)

/-- The entry of a table held by index; the default where none is listed. -/
def tget {α : Type} (l : List (Nat × α)) (i : Nat) (dflt : α) : α :=
  match l with
  | [] => dflt
  | (j, x) :: r => if i = j then x else tget r i dflt

/-- The table with x at index i, by rising index. -/
def tset {α : Type} (l : List (Nat × α)) (i : Nat) (x : α) : List (Nat × α) :=
  match l with
  | [] => [(i, x)]
  | (j, y) :: r => if i < j then (i, x) :: (j, y) :: r else if i = j then (i, x) :: r else (j, y) :: tset r i x

/-- The table without index i. -/
def tdel {α : Type} (l : List (Nat × α)) (i : Nat) : List (Nat × α) := l.filter (fun p => p.1 != i)

/-- The table with the entry at i changed. -/
def tmod {α : Type} (l : List (Nat × α)) (i : Nat) (dflt : α) (f : α → α) : List (Nat × α) := tset l i (f (tget l i dflt))

/-! ### Bytes and words -/

/-- The little-endian bytes of a number (R2): the lowest first. -/
def bytesOf : Nat → Nat → List Byte
  | 0, _ => []
  | n + 1, x => BitVec.ofNat 8 x :: bytesOf n (x / 256)

/-- The number that little-endian bytes hold (R2). -/
def numOf : List Byte → Nat
  | [] => 0
  | b :: r => b.toNat + 256 * numOf r

/-- Bytes of a list from a place on, zero beyond the end. -/
def slice (l : List Byte) (ofs n : Nat) : List Byte :=
  let t := (l.drop ofs).take n
  t ++ List.replicate (n - t.length) 0

/-- A little-endian field of a record. -/
def field (l : List Byte) (ofs n : Nat) : Nat := numOf (slice l ofs n)

/-- Bits [hi:lo] of a number. -/
def bits (x hi lo : Nat) : Nat := (x >>> lo) % 2 ^ (hi + 1 - lo)

/-- One bit of a number. -/
def bit (x i : Nat) : Bool := x.testBit i

/-- The two's complement value of the low w bits. -/
def signedOf (w x : Nat) : Int := if x % 2 ^ w < 2 ^ (w - 1) then (x % 2 ^ w : Nat) else ((x % 2 ^ w : Nat) : Int) - (2 ^ w : Nat)

/-! ### Memory -/

/-- The byte at a flat address; 0 where nothing is listed (R23). -/
def readByte (m : List Host.Cell) (a : Nat) : Byte := sget m a

/-- The memory with a byte written. -/
def writeByte (m : List Host.Cell) (a : Nat) (b : Byte) : List Host.Cell := sset m a b

/-- n bytes from a flat address on. -/
def readBytes (m : List Host.Cell) (a : Nat) : Nat → List Byte
  | 0 => []
  | n + 1 => readByte m a :: readBytes m (a + 1) n

/-- The pairs of address and byte that a write of bytes from a flat address on makes. -/
def cellsAt (a : Nat) : List Byte → List Host.Cell
  | [] => []
  | b :: r => (a, b) :: cellsAt (a + 1) r

/-- The memory after writes in order. -/
def writeCells (m : List Host.Cell) (ws : List Host.Cell) : List Host.Cell := ssets m ws

/-- Zeros for the listed bytes of memory with a property. -/
def zeroCells (m : List Host.Cell) (p : Nat → Bool) : List Host.Cell := (m.filter (fun c => p c.1)).map (fun c => (c.1, 0))

/-- The canonical form of the memory: addresses strictly rise and no listed byte is 0. -/
abbrev Memory.wf (m : List Host.Cell) : Prop := sparseWf m = true

/-! ### Flat addresses

An HBM4E byte of stack n at stack address a lies at n × 2^36 + a, an SRAM byte of core c at 2^40 + c × 2^22 + offset, and a
byte of the memory of host h at (1 + h) × 2^51 + a. -/

/-- The flat address of a stack address. -/
def flatHbm (stack a : Nat) : Nat := stack * 2 ^ 36 + a

/-- The flat address of a byte of a core's slice. -/
def flatSram (core ofs : Nat) : Nat := 2 ^ 40 + core * 2 ^ 22 + ofs

/-- The flat address of a byte of a host's memory, or of CXL memory behind it (R140). -/
def flatHost (host a : Nat) : Nat := (1 + host) * 2 ^ 51 + a

/-- The flat address lies in an HBM4E stack. -/
def isHbm (a : Nat) : Bool := a < 12 * 2 ^ 36

/-- The flat address lies in an SRAM slice. -/
def isSram (a : Nat) : Bool := 2 ^ 40 ≤ a && a < 2 ^ 40 + 768 * 2 ^ 22

/-- The flat address lies in host or CXL memory. -/
def isHost (a : Nat) : Bool := 2 ^ 51 ≤ a

/-- The key of the 64 KiB frame of an HBM4E byte: stack × 2^20 + frame (R134, R59). -/
def frameOf (a : Nat) : Nat := a / 2 ^ 16

/-- The 128-byte line of a flat address. -/
def lineOf (a : Nat) : Nat := a / 128

/-- The core whose slice holds an SRAM byte, and the byte in the slice. -/
def sramCore (a : Nat) : Nat := (a - 2 ^ 40) / 2 ^ 22

def sramOfs (a : Nat) : Nat := (a - 2 ^ 40) % 2 ^ 22

/-! ### Bit masks of lanes -/

/-- The lane is in the mask. -/
def LaneMask.has (m : LaneMask) (l : Nat) : Bool := m.getLsbD l

/-- The mask of one lane. -/
def laneBit (l : Nat) : LaneMask := BitVec.ofNat 32 (2 ^ l)

/-- The 32 lane numbers. -/
def allLanes : List Nat := List.range 32

/-- The lanes of a mask in increasing index (R6). -/
def lanesOf (m : LaneMask) : List Nat := allLanes.filter (fun l => m.getLsbD l)

/-- The mask of the lanes with a property. -/
def maskOf (f : Nat → Bool) : LaneMask := BitVec.ofNat 32 (allLanes.foldl (fun acc l => if f l then acc + 2 ^ l else acc) 0)

/-- The lowest lane of a mask; 0 of the empty mask. -/
def lowest (m : LaneMask) : Nat := (lanesOf m).headD 0

/-- How many lanes. -/
def countLanes (m : LaneMask) : Nat := (lanesOf m).length

end Sys2Proof.Machine
end

