-- ==== Sys2Proof/Machine/Flags.lean ====
section
/-!
DEFINITION. Floating point: the element formats of R238, rounding (R240, R257), the flags of R242, the exact operations, the
conversions of R243, and integer saturation (R293).
-/
namespace Sys2Proof.Machine

/-! ### Flags -/

/-- FSTAT's bits (R241). -/
def flagNV : BitVec 5 := 1
def flagDZ : BitVec 5 := 2
def flagOF : BitVec 5 := 4
def flagUF : BitVec 5 := 8
def flagNX : BitVec 5 := 16

/-- A flag when the condition holds. -/
def flagIf (c : Bool) (f : BitVec 5) : BitVec 5 := if c then f else 0

/-! ### Formats -/

/-- A binary format: precision with the hidden bit, exponent of the smallest quantum, the power of two just above the largest
finite value, and the canonical NaN (R238, R239). -/
structure Fmt where
  p : Nat
  qmin : Int
  top : Int
  width : Nat
  nan : Nat
deriving DecidableEq, Repr

def fp32 : Fmt := { p := 24, qmin := -149, top := 128, width := 32, nan := 0x7FC00000 }
def bf16 : Fmt := { p := 8, qmin := -133, top := 128, width := 16, nan := 0x7FC0 }
def fp16 : Fmt := { p := 11, qmin := -24, top := 16, width := 16, nan := 0x7E00 }

/-- The magnitude bits of infinity. -/
def Fmt.inf (f : Fmt) : Nat := 2 ^ (f.width - 1) - 2 ^ (f.p - 1)

/-- The sign bit. -/
def Fmt.sign (f : Fmt) (neg : Bool) : Nat := if neg then 2 ^ (f.width - 1) else 0

/-- A value: a NaN, an infinity, or (-1)^neg × m × 2^e. -/
inductive FVal where
  | nan (signalling : Bool)
  | inf (neg : Bool)
  | num (neg : Bool) (m : Nat) (e : Int)
deriving DecidableEq, Repr

def FVal.isNan : FVal → Bool
  | .nan _ => true
  | _ => false

def FVal.isSnan : FVal → Bool
  | .nan s => s
  | _ => false

def FVal.isInf : FVal → Bool
  | .inf _ => true
  | _ => false

def FVal.isZero : FVal → Bool
  | .num _ m _ => m == 0
  | _ => false

def FVal.neg : FVal → Bool
  | .nan _ => false
  | .inf n => n
  | .num n _ _ => n

def FVal.negate : FVal → FVal
  | .nan s => .nan s
  | .inf n => .inf (!n)
  | .num n m e => .num (!n) m e

/-- The value of the bits of a format (R238). -/
def decodeF (f : Fmt) (x : Nat) : FVal :=
  let neg := x.testBit (f.width - 1)
  let mag := x % 2 ^ (f.width - 1)
  let frac := mag % 2 ^ (f.p - 1)
  let ex := mag / 2 ^ (f.p - 1)
  if mag > f.inf then .nan (!frac.testBit (f.p - 2))
  else if mag = f.inf then .inf neg
  else if ex = 0 then .num neg frac f.qmin
  else .num neg (frac + 2 ^ (f.p - 1)) (f.qmin + (ex : Int) - 1)

/-! ### Rounding -/

/-- The rounding modes (R240); SR carries its r (R257). -/
inductive Rnd where
  | rne | rz | rdn | rup | rna
  | sr (r : Nat)
deriving DecidableEq, Repr

/-- The mode of a code 0-4; other codes are refused where they are decoded. -/
def rndOf (c : Nat) : Rnd :=
  if c = 1 then .rz else if c = 2 then .rdn else if c = 3 then .rup else if c = 4 then .rna else .rne

/-- Whether a magnitude with integer part `q`, and remainder `r` of 2^sh, rounds up. -/
def roundsUp (mode : Rnd) (neg : Bool) (q r sh : Nat) : Bool :=
  match mode with
  | .rne => decide (2 * r > 2 ^ sh) || (decide (2 * r = 2 ^ sh) && q % 2 == 1)
  | .rz => false
  | .rdn => neg && r != 0
  | .rup => !neg && r != 0
  | .rna => decide (2 * r ≥ 2 ^ sh)
  | .sr x => decide (r * 2 ^ 16 + x * 2 ^ sh ≥ 2 ^ (16 + sh))

/-- The magnitude (2m + 1 when sticky, else 2m) × 2^(e-1) rounded to a multiple of 2^q: the multiple, and whether it is inexact. -/
def roundAt (mode : Rnd) (neg : Bool) (m : Nat) (sticky : Bool) (e q : Int) : Nat × Bool :=
  let n := 2 * m + (if sticky then 1 else 0)
  let d := q - (e - 1)
  if d ≤ 0 then (n * 2 ^ (-d).toNat, false)
  else
    let sh := d.toNat
    let a := n / 2 ^ sh
    let r := n % 2 ^ sh
    (if roundsUp mode neg a r sh then a + 1 else a, r != 0)

/-- A rounded result: the bits and the flags it raises. -/
structure FRes where
  bits : Nat
  flags : BitVec 5
deriving DecidableEq, Repr

/-- The canonical NaN, with NV when it is an invalid operation (R239, R242). -/
def nanRes (f : Fmt) (invalid : Bool) : FRes := ⟨f.nan, flagIf invalid flagNV⟩

/-- The exact positive magnitude m × 2^e, a little more when `sticky` (m then has at least p + 2 bits), with the given sign,
rounded to the format under the mode (R240), with the flags of R242. -/
def roundMag (f : Fmt) (mode : Rnd) (neg : Bool) (m : Nat) (e : Int) (sticky : Bool) : FRes :=
  if m = 0 then ⟨f.sign neg, 0⟩
  else
    let msb := e + (Nat.log2 m : Int)
    let qu := msb - ((f.p : Int) - 1)
    let q := if qu < f.qmin then f.qmin else qu
    let (sig, nx) := roundAt mode neg m sticky e q
    let (sigU, _) := roundAt mode neg m sticky e qu
    let mag := (q - f.qmin).toNat * 2 ^ (f.p - 1) + sig
    if mag ≥ f.inf then
      let toInf := match mode with
        | .rne | .rna | .sr _ => true
        | .rz => false
        | .rdn => neg
        | .rup => !neg
      ⟨f.sign neg + (if toInf then f.inf else f.inf - 1), flagOF ||| flagNX⟩
    else
      -- tiny: sigU × 2^qu below 2^(qmin + p - 1)
      let tiny := qu + (Nat.log2 sigU : Int) < f.qmin + (f.p : Int) - 1
      ⟨f.sign neg + mag, flagIf nx flagNX ||| flagIf (nx && tiny) flagUF⟩

/-- RoundTo(fmt, mode, x) of a value (R285). -/
def roundTo (f : Fmt) (mode : Rnd) : FVal → FRes
  | .nan s => nanRes f s
  | .inf n => ⟨f.sign n + f.inf, 0⟩
  | .num n m e => roundMag f mode n m e false

/-! ### Exact operations -/

/-- The signed integer mantissa of a number. -/
def mant (neg : Bool) (m : Nat) : Int := if neg then -(m : Int) else (m : Int)

/-- The exact sum, with the sign of an exact zero (IEEE 754, R239). -/
def addExact (mode : Rnd) (n1 : Bool) (m1 : Nat) (e1 : Int) (n2 : Bool) (m2 : Nat) (e2 : Int) : FVal :=
  let e := if e1 < e2 then e1 else e2
  let s := mant n1 m1 * 2 ^ (e1 - e).toNat + mant n2 m2 * 2 ^ (e2 - e).toNat
  if s = 0 then .num (if n1 = n2 then n1 else mode == .rdn) 0 e
  else .num (s < 0) s.natAbs e

/-- a + b, and whether the operation is invalid. -/
def fvalAdd (mode : Rnd) (a b : FVal) : FVal × Bool :=
  match a, b with
  | .nan s, y => (.nan false, s || y.isSnan)
  | x, .nan s => (.nan false, s || x.isSnan)
  | .inf n1, .inf n2 => if n1 = n2 then (.inf n1, false) else (.nan false, true)
  | .inf n, _ => (.inf n, false)
  | _, .inf n => (.inf n, false)
  | .num n1 m1 e1, .num n2 m2 e2 => (addExact mode n1 m1 e1 n2 m2 e2, false)

/-- a × b, and whether the operation is invalid. -/
def fvalMul (a b : FVal) : FVal × Bool :=
  match a, b with
  | .nan s, y => (.nan false, s || y.isSnan)
  | x, .nan s => (.nan false, s || x.isSnan)
  | .inf n1, y => if y.isZero then (.nan false, true) else (.inf (n1 != y.neg), false)
  | x, .inf n2 => if x.isZero then (.nan false, true) else (.inf (x.neg != n2), false)
  | .num n1 m1 e1, .num n2 m2 e2 => (.num (n1 != n2) (m1 * m2) (e1 + e2), false)

/-- Rounds an exact value, adding NV when the operation was invalid. -/
def finishF (f : Fmt) (mode : Rnd) (r : FVal × Bool) : FRes :=
  let x := roundTo f mode r.1
  ⟨x.bits, x.flags ||| flagIf r.2 flagNV⟩

/-- a + b rounded (R332). -/
def fadd (f : Fmt) (mode : Rnd) (a b : Nat) : FRes := finishF f mode (fvalAdd mode (decodeF f a) (decodeF f b))

/-- a - b rounded. -/
def fsub (f : Fmt) (mode : Rnd) (a b : Nat) : FRes := finishF f mode (fvalAdd mode (decodeF f a) (decodeF f b).negate)

/-- a × b rounded. -/
def fmul (f : Fmt) (mode : Rnd) (a b : Nat) : FRes := finishF f mode (fvalMul (decodeF f a) (decodeF f b))

/-- a × b + c with one rounding; an invalid product sets NV whatever c (R332). -/
def ffma (f : Fmt) (mode : Rnd) (a b c : Nat) : FRes :=
  let p := fvalMul (decodeF f a) (decodeF f b)
  let s := fvalAdd mode p.1 (decodeF f c)
  finishF f mode (s.1, p.2 || s.2)

/-- x < y for values that are no NaN. -/
def fvalLt (x y : FVal) : Bool :=
  match x, y with
  | .inf n, y => n && y != .inf true
  | _, .inf n => !n
  | .num n1 m1 e1, .num n2 m2 e2 =>
    let e := if e1 < e2 then e1 else e2
    decide (mant n1 m1 * 2 ^ (e1 - e).toNat < mant n2 m2 * 2 ^ (e2 - e).toNat)
  | _, _ => false

/-- x = y for values that are no NaN; the zeros are equal. -/
def fvalEq (x y : FVal) : Bool := !fvalLt x y && !fvalLt y x

/-- FMIN and FMAX (R239): -0 is less than +0, a NaN gives the other operand, and a signalling NaN sets NV. -/
def fminmax (f : Fmt) (isMax : Bool) (a b : Nat) : FRes :=
  let x := decodeF f a
  let y := decodeF f b
  let fl := flagIf (x.isSnan || y.isSnan) flagNV
  if x.isNan && y.isNan then ⟨f.nan, fl⟩
  else if x.isNan then ⟨b, fl⟩
  else if y.isNan then ⟨a, fl⟩
  else
    let less := fvalLt x y || (fvalEq x y && x.neg && !y.neg)
    ⟨if less != isMax then a else b, fl⟩

/-- The bits of 1.0. -/
def Fmt.one (f : Fmt) : Nat := (f.qmin.natAbs + 2 - f.p) * 2 ^ (f.p - 1)

/-- The clamp of SAT to [+0, 1.0] on the bits of a result (R240). -/
def satF (f : Fmt) (x : Nat) : Nat :=
  match decodeF f x with
  | .nan _ => 0
  | v => if v.neg then 0 else if fvalLt (decodeF f f.one) v then f.one else x

/-- SAT applied when asked. -/
def satIf (c : Bool) (f : Fmt) (r : FRes) : FRes := if c then ⟨satF f r.bits, r.flags⟩ else r

/-! ### Conversions -/

/-- An integer rounded to a format (R243). -/
def intToF (f : Fmt) (mode : Rnd) (x : Int) : FRes := roundMag f mode (x < 0) x.natAbs 0 false

/-- A value rounded under the mode to an integer, saturating to [lo, hi] (R243): the integer and the flags. -/
def fToInt (mode : Rnd) (lo hi : Int) (x : FVal) : Int × BitVec 5 :=
  match x with
  | .nan _ => (0, flagNV)
  | .inf n => (if n then lo else hi, flagNV)
  | .num n m e =>
    let (q, nx) := roundAt mode n m false e 0
    let v := mant n q
    if v < lo then (lo, flagNV) else if hi < v then (hi, flagNV) else (v, flagIf nx flagNX)

/-- The integral value of a format under the mode (FRND, R335). -/
def frnd (f : Fmt) (mode : Rnd) (x : Nat) : FRes :=
  match decodeF f x with
  | .nan s => nanRes f s
  | .inf _ => ⟨x, 0⟩
  | .num n m e =>
    let (q, nx) := roundAt mode n m false e 0
    if q = 0 then ⟨f.sign n, flagIf nx flagNX⟩
    else ⟨(roundMag f .rne n q 0 false).bits, flagIf nx flagNX⟩

/-- A value of one format rounded to another; a signalling NaN sets NV. -/
def fconv (src dst : Fmt) (mode : Rnd) (x : Nat) : FRes := roundTo dst mode (decodeF src x)

/-- FCLASS's mask (R336). -/
def fclass (x : Nat) : Nat :=
  match decodeF fp32 x with
  | .nan s => if s then 2 ^ 8 else 2 ^ 9
  | .inf n => if n then 1 else 2 ^ 7
  | .num n m _ =>
    if m = 0 then (if n then 2 ^ 3 else 2 ^ 4)
    else if m < 2 ^ 23 then (if n then 2 ^ 2 else 2 ^ 5)
    else (if n then 2 ^ 1 else 2 ^ 6)

/-! ### Integers -/

/-- A signed result clamped to w bits (R293). -/
def clampS (w : Nat) (x : Int) : Int :=
  if x < -(2 ^ (w - 1) : Nat) then -(2 ^ (w - 1) : Nat) else if (2 ^ (w - 1) : Nat) ≤ x then (2 ^ (w - 1) : Nat) - 1 else x

/-- A result of w bits: the exact signed value clamped under SAT, else modulo 2^w. -/
def satInt (w : Nat) (sat : Bool) (x : Int) : BitVec w := BitVec.ofInt w (if sat then clampS w x else x)

end Sys2Proof.Machine
end

