-- ==== Sys2Proof/Config.lean ====
section
/-!
DEFINITION. What the spec leaves open and one implementation would fix, as constants that no proof can look into.
-/
namespace Sys2Proof.Config

/-- The free values: the n-th value the spec leaves open. The state counts how many have been used, so that each use is a
value of its own (assumption log 3). -/
opaque freeWord : Nat → BitVec 64

/-- A check symbol of the FEC of a flit (R27): the number that the 240 bytes before it make, and which of the 16 it is. The spec names no
field and no generator polynomial (assumption log 60). -/
opaque fecSymbol : Nat → Nat → BitVec 8

/-- Whether a cached host translation of a guest-physical address is no longer there when a walk asks for it (R142): the caches may have let
it go, and either translation may then be used. By the count of free values and the address (assumption log 32). -/
opaque evicted : Nat → Nat → Bool

/-- The time at which the home in another package applies a store or atomic, by the number of its access (R145): nothing here tells of it
before the answer. -/
opaque appliedAt : Nat → Nat

/-- Whether a read of a lent accumulator element finds its new value (R111): of the group of a handle, by the instruction of a number, in an
element by lane × 128 + register. -/
opaque lentNew : Nat → Nat → Nat → Bool

/-- Which of the elements that a copy writes to one place of a destination block stays there (R178): by the command's handle and the place. -/
opaque overlapWriter : Nat → Nat → Nat

/-- The certificate chain of the module's identity key (R64): its length, and its bytes. -/
opaque chainLength : Nat
opaque chainByte : Nat → BitVec 8

/-- A byte of measurement 1, 2 or 4 (R64): by the block, the security version or the fused counter that it depends on, and its place. -/
opaque measureByte : Nat → Nat → Nat → BitVec 8

end Sys2Proof.Config
end

