-- ==== Sys2Proof/Machine/Ops.lean ====
section
/-!
DEFINITION. The shared operations over the state: how a meaning changes the state, lookups and updates of its tables, the Error
Address Log (R79), the frontier (R104, R105, R109, R110), taking a trap (R121, R123) and returning from one (R388).
-/
namespace Sys2Proof.Machine

/-! ### How a meaning changes the state -/

/-- What an event does: the rest of the state, and bytes written to memory in order. -/
structure Eff where
  sys : Sys
  cells : List Host.Cell := []

/-- The state after an effect. -/
def Eff.apply (e : Eff) (s : State) : State := { s with mem := writeCells s.mem e.cells, sys := e.sys }

/-- A second effect computed in the state after the first. -/
def Eff.andThen (e : Eff) (s : State) (f : State → Eff) : Eff :=
  let e2 := f (e.apply s)
  { sys := e2.sys, cells := e.cells ++ e2.cells }

/-- The effect that changes nothing. -/
def Eff.none (s : State) : Eff := { sys := s.sys }

/-- An event's outcome. -/
def eventNext (f : State → Eff) (s : State) : Host.Outcome State Fault Refusal := .next ((f s).apply s)

/-- A free value: the next one of Config, and the state that has used it. -/
def takeFree (y : Sys) : BitVec 64 × Sys := (Config.freeWord y.free, { y with free := y.free + 1 })

/-- A fresh number for a handle, an access, a launch or a command. -/
def Sys.fresh (y : Sys) : Nat × Sys := (y.nextId, { y with nextId := y.nextId + 1 })

/-! ### Tables -/

def Sys.core (y : Sys) (c : Nat) : Core := tget y.cores c {}
def Sys.modCore (y : Sys) (c : Nat) (f : Core → Core) : Sys := { y with cores := tmod y.cores c {} f }
def Sys.modCp (y : Sys) (c : Nat) (f : Cp → Cp) : Sys := y.modCore c (fun k => { k with cp := f k.cp })
def Sys.part (y : Sys) (p : Nat) : Part := tget y.parts p {}
def Sys.modPart (y : Sys) (p : Nat) (f : Part → Part) : Sys := { y with parts := tmod y.parts p {} f }
def Sys.vf (y : Sys) (v : Nat) : Vf := tget y.vfs v {}
def Sys.modVf (y : Sys) (v : Nat) (f : Vf → Vf) : Sys := { y with vfs := tmod y.vfs v {} f }
def Sys.die (y : Sys) (d : Nat) : Die := tget y.dies d {}
def Sys.modDie (y : Sys) (d : Nat) (f : Die → Die) : Sys := { y with dies := tmod y.dies d {} f }
def Sys.port (y : Sys) (n : Nat) : Port := tget y.ports n {}
def Sys.modPort (y : Sys) (n : Nat) (f : Port → Port) : Sys := { y with ports := tmod y.ports n {} f }
def Vf.ring (v : Vf) (n : Nat) : Ring := tget v.rings n {}
def Vf.modRing (v : Vf) (n : Nat) (f : Ring → Ring) : Vf := { v with rings := tmod v.rings n {} f }

def Sys.group? (y : Sys) (h : Nat) : Option Group := y.groups.find? (fun g => g.handle == h)
def Sys.modGroup (y : Sys) (h : Nat) (f : Group → Group) : Sys :=
  { y with groups := y.groups.map (fun g => if g.handle = h then f g else g) }
def Sys.launch? (y : Sys) (u : Nat) : Option Launch := y.launches.find? (fun l => l.uid == u)
def Sys.modLaunch (y : Sys) (u : Nat) (f : Launch → Launch) : Sys :=
  { y with launches := y.launches.map (fun l => if l.uid = u then f l else l) }
def Sys.block? (y : Sys) (u : Nat) : Option Block := y.blocks.find? (fun b => b.uid == u)
def Sys.modBlock (y : Sys) (u : Nat) (f : Block → Block) : Sys :=
  { y with blocks := y.blocks.map (fun b => if b.uid = u then f b else b) }
def Sys.cmd? (y : Sys) (h : Nat) : Option Cmd := y.cmds.find? (fun c => c.handle == h)
def Sys.modCmd (y : Sys) (h : Nat) (f : Cmd → Cmd) : Sys :=
  { y with cmds := y.cmds.map (fun c => if c.handle = h then f c else c) }
def Sys.access? (y : Sys) (i : Nat) : Option Access := y.accesses.find? (fun a => a.id == i)
def Sys.modAccess (y : Sys) (i : Nat) (f : Access → Access) : Sys :=
  { y with accesses := y.accesses.map (fun a => if a.id = i then f a else a) }
def Sys.hostCmd? (y : Sys) (u : Nat) : Option HostCmd := y.hostCmds.find? (fun c => c.uid == u)
def Sys.modHostCmd (y : Sys) (u : Nat) (f : HostCmd → HostCmd) : Sys :=
  { y with hostCmds := y.hostCmds.map (fun c => if c.uid = u then f c else c) }

/-! ### Partitions, dies and clusters (R12, R13, R21, R127) -/

/-- The members of a collective group; with JOINED = 0 every group is logical chip 0 alone (R224). -/
def Part.groupMembers (p : Part) (g : Nat) : List Nat := if p.joined then (tget p.cgroups g {}).members else [0]

/-- The generation of a collective group. -/
def Part.groupGen (p : Part) (g : Nat) : BitVec 16 := if p.joined then (tget p.cgroups g {}).gen else 0

/-- The partition's own logical chip; 0 with JOINED = 0 (R229). -/
def Part.chip (p : Part) : BitVec 12 := if p.joined then p.lchip else 0

/-- The module is up: every step of R23 has completed, and power is on. -/
def Sys.isUp (y : Sys) : Bool := y.resetStep == 8 && !y.poweredDown

/-- The cores of a die run: not while it is gated (R21) or stopped (R19, R62). -/
def Sys.dieRuns (y : Sys) (die : Nat) : Bool := y.isUp && !(y.die die).stopped && !(y.die die).gated

/-- The count of cycles of the 940 MHz arithmetic clock (R3, R16). -/
def clockOf (ns : Nat) : Nat := ns * 940 / 1000
def Sys.clocks (y : Sys) : Nat := clockOf y.ns

/-- The nanoseconds that a number of clocks take, in whole nanoseconds. -/
def clocksNs (n : Nat) : Nat := (n * 1000 + 939) / 940

/-- The sixteenths of a die's issue slots that are withheld (R17). -/
def Die.sixteenths (d : Die) : Nat := max d.capHeld.toNat (if d.hot then d.heatHeld.toNat else 0)

/-- A core's issue slot of the present clock is withheld: of each 16 clocks, the first as many as sixteenths (R17). -/
def Sys.withholds (y : Sys) (core : Nat) : Bool := decide (y.clocks % 16 < (y.die (core / 64)).sixteenths)

/-- This package is a time reference (R45). -/
def Sys.isReference (y : Sys) : Bool := y.reference.any (fun r => r.2 == y.phys.toNat)

/-- GTIME has been aligned, where there is a reference to align it to: no launch is accepted before (R18). -/
def Sys.timeReady (y : Sys) : Bool := y.reference.isEmpty || y.isReference || y.firstAligned

/-- The dies of a partition in increasing number. -/
def Part.dieList (p : Part) : List Nat := (List.range 12).filter (fun d => p.dies.getLsbD d)

/-- The die of a core, its cluster, and its place in the cluster (R13). -/
def coreDie (c : Nat) : Nat := c / 64
def coreCluster (c : Nat) : Nat := c / 64 * 16 + c % 64 / 4

/-- The partition numbers. -/
def allParts : List Nat := List.range 12

/-- The valid partition that holds a die. -/
def Sys.partOfDie (y : Sys) (d : Nat) : Option Nat :=
  allParts.find? (fun p => (y.part p).valid && (y.part p).dies.getLsbD d)

/-- The partition of a core; 0 when its die is in none. -/
def Sys.partOfCore (y : Sys) (c : Nat) : Nat := (y.partOfDie (coreDie c)).getD 0

/-- The physical cluster of a rank in a partition (R127). -/
def Part.cluster (p : Part) (rank : Nat) : Option Nat :=
  (p.dieList[rank / 16]?).map (fun d => d * 16 + rank % 16)

/-- The core at place j of a physical cluster. -/
def clusterCore (cl j : Nat) : Nat := cl / 16 * 64 + cl % 16 * 4 + j

/-- The flat address of a partition memory address (R134); none beyond the partition's memory. -/
def Part.flat (p : Part) (m : Nat) : Option Nat :=
  let ds := p.dieList
  let d := ds.length
  if m < d * 2 ^ 36 then
    (ds[m / 4096 % d]?).map (fun die => flatHbm die (m / (4096 * d) * 4096 + m % 4096))
  else none

/-! ### Causes -/

/-- The code of a cause (R79, R267). -/
def Cause.code : Cause → Nat
  | .illegal => 0x01 | .hazard => 0x02 | .uniform => 0x03 | .spbound => 0x04 | .space => 0x05 | .limit => 0x06
  | .key => 0x07 | .align => 0x08 | .class => 0x09 | .quar => 0x0A | .tapeovf => 0x0B | .tapeund => 0x0C
  | .tapemis => 0x0D | .adconf => 0x0E | .barbusy => 0x0F | .strap => 0x10 | .brk => 0x11 | .remote => 0x12
  | .ecc => 0x13 | .privilege => 0x14 | .barovf => 0x15
  | .thermal => 0x40 | .badcmd => 0x41 | .badreply => 0x42 | .cmdinval => 0x43 | .cmdabort => 0x44 | .cmdfault => 0x45

/-! ### Error Address Log and notifications -/

/-- Who caused a record (R79's RKIND). -/
inductive RKind where
  | group | cp | engine | host | port | scrub | mgmt
deriving DecidableEq, Repr

def RKind.code : RKind → Nat
  | .group => 0 | .cp => 1 | .engine => 2 | .host => 3 | .port => 4 | .scrub => 5 | .mgmt => 6

/-- A notification waits for the VF's ring (R75). -/
def Sys.notify (y : Sys) (vf kind : Nat) (data : DWord) : Sys :=
  y.modVf vf (fun v => { v with notifications := v.notifications ++ [⟨BitVec.ofNat 8 kind, data⟩] })

/-- The VFs bound to a partition. -/
def Sys.partVfs (y : Sys) (p : Nat) : List Nat :=
  (y.vfs.filter (fun q => q.2.valid && q.2.part.toNat == p)).map Prod.fst

/-- Writes one record of a partition's Error Address Log; the newest stands first and 256 are kept (R79). A record that belongs
to no command posts an ERROR notification (R75). -/
def Sys.logEal (y : Sys) (now : Nat) (p : Nat) (cause : Cause) (rem remLog : BitVec 8) (addr : DWord) (k : RKind)
    (core slot vf : Nat) : Sys :=
  let r : EalRec :=
  { cause := BitVec.ofNat 8 cause.code, remCause := rem, remLog := remLog, addr := addr,
    rkind := BitVec.ofNat 3 k.code, core := BitVec.ofNat 10 core, gslot := BitVec.ofNat 6 slot, vf := BitVec.ofNat 8 vf,
    gtime := BitVec.ofNat 64 now }
  let y1 := y.modPart p (fun q => { q with ealcnt := q.ealcnt + 1, eal := (r :: q.eal).take 256 })
  let n := BitVec.ofNat 64 (y1.part p).ealcnt
  match k with
  | .engine | .host => y1
  | .group | .cp => y1.notify vf 4 n
  | .port | .scrub | .mgmt => (y1.partVfs p).foldl (fun z v => z.notify v 4 n) y1

/-! ### Priorities (R102, R103) -/

/-- The priority of the region that holds a PC. -/
def prioAt (m : List (Nat × BitVec 16)) (pc : Nat) : BitVec 16 :=
  m.foldl (fun acc e => if e.1 ≤ pc then e.2 else acc) 0

/-- The priority of an entry of a group. -/
def Sys.prio (y : Sys) (g : Group) (pc : Word) : BitVec 16 :=
  match y.launch? g.launch with
  | some l => prioAt l.prio pc.toNat
  | none => 0

/-! ### Hints -/

/-- Some hint is pending. -/
def Hints.any (h : Hints) : Bool := h.guard.isSome || h.imm.isSome || h.mod.isSome || h.delay.isSome

/-- The boundary before the word at `pc`: the first hint of its run, if it carries one (R276). -/
def Hints.boundary (h : Hints) (pc : Word) : Word := if h.any then h.start else pc

/-! ### The frontier -/

/-- A group's frontier entry that holds a lane. -/
def Group.entry? (g : Group) (lane : Nat) : Option Entry := g.frontier.find? (fun e => e.mask.getLsbD lane)

/-- The other entries. -/
def Group.others (g : Group) (e : Entry) : List Entry := g.frontier.filter (fun x => x.mask &&& e.mask == 0)

/-- Two entries may merge: both Ready at one PC with equal hints (R105, R276), or both at one RJOIN with one J (R110). -/
def Entry.merges (a b : Entry) : Bool :=
  a.pc == b.pc &&
  (match a.st, b.st with
    | .ready, .ready => a.hints == b.hints
    | .join s, .join t => s == t && a.j == b.j
    | _, _ => false)

/-- The merged entry (R105). -/
def Entry.merge (a b : Entry) : Entry :=
  { a with mask := a.mask ||| b.mask, j := a.j ||| b.j, holds := a.holds ++ b.holds, delay := max a.delay b.delay }

/-- Adds an entry to a frontier, merging it with one that it may merge with; entries with blocked lanes never merge (R115). -/
def insertEntry (blocked : LaneMask) (e : Entry) : List Entry → List Entry
  | [] => [e]
  | x :: r =>
    if (e.mask ||| x.mask) &&& blocked == 0 && e.merges x then insertEntry blocked (x.merge e) r
    else x :: insertEntry blocked e r

/-- The frontier with every merge made. -/
def mergeAll (blocked : LaneMask) (f : List Entry) : List Entry := f.foldl (fun acc e => insertEntry blocked e acc) []

/-- An access is in flight. -/
def Access.isFlight (a : Access) : Bool := match a.st with | .inFlight => true | _ => false

/-- Lanes of a group with deferred results that have not arrived (R109): requests not yet answered and waiting LAUNCHWs. -/
def Sys.awaiting (y : Sys) (h : Nat) : LaneMask :=
  let m := y.accesses.foldl (fun (acc : LaneMask) a =>
    if a.who == .group h && !a.undone then
      (match a.st with
        | .performed _ _ => acc
        | _ => acc ||| a.wait)
    else acc) 0
  y.storeWaits.foldl (fun acc w => if w.hostCmd.isNone && w.group == h then acc ||| laneBit w.lane else acc) m

/-- Lanes that a return to the boundary before instruction `seq` takes back (R116): `m`, with every lane that issued jointly with one of
them from there on. `fuel` bounds the widening. -/
def widen (w : List WindowItem) (seq : Nat) : Nat → LaneMask → LaneMask
  | 0, m => m
  | fuel + 1, m =>
    let m1 := w.foldl (fun (acc : LaneMask) x => if seq ≤ x.seq && x.mask &&& acc != 0 then acc ||| x.mask else acc) m
    if m1 = m then m else widen w seq fuel m1

/-- The oldest instruction of a group that a failed access marks. -/
def Sys.oldestMarked (y : Sys) (g : Group) : Option Nat :=
  y.accesses.foldl (fun (acc : Option Nat) a =>
    if a.who == .group g.handle && !a.undone then
      (match a.st with
        | .failed _ _ _ _ => (match acc with | some n => some (min n a.seq) | none => some a.seq)
        | _ => acc)
    else acc) none

/-- The returning lanes of every marked instruction of a group (R115, R116); empty when nothing is marked. -/
def Sys.returning (y : Sys) (g : Group) : LaneMask :=
  y.accesses.foldl (fun (acc : LaneMask) a =>
    if a.who == .group g.handle && !a.undone then
      (match a.st with
        | .failed _ _ _ _ => acc ||| (match g.window.find? (fun w => w.seq == a.seq) with
          | some w => widen g.window a.seq 33 w.mask
          | none => a.lanes)
        | _ => acc)
    else acc) 0

/-- The lane whose outcome a lane follows: a helper lane goes with the lowest non-helper lane of its quad (R105). -/
def Group.leader (g : Group) (l : Nat) : Nat :=
  if g.helpers.getLsbD l then ((lanesOf (g.lanes &&& ~~~g.helpers)).find? (fun x => x / 4 == l / 4)).getD l else l

/-- The lanes that wait for results, where the helper lanes of a quad and the lane that they go with wait for one another (R105, R109). -/
def Group.waitMask (g : Group) (wait : LaneMask) : LaneMask :=
  if g.helpers = 0 then wait
  else maskOf (fun l => (allLanes.any (fun x => g.lanes.getLsbD x && wait.getLsbD x && g.leader x == g.leader l)))

/-- Marks taken back when the lanes pass an S (R108). -/
def passS (r : Regs) (m : LaneMask) : Regs :=
  { r with
    pend := (r.pend.map (fun p => (p.1, p.2 &&& ~~~m))).filter (fun p => p.2 != 0)
    pendK := (r.pendK.map (fun p => (p.1, p.2 &&& ~~~m))).filter (fun p => p.2 != 0) }

/-- The J of the parts of an entry whose lanes `whole` issued an S, of which `passing` pass it now (R109): the issuing entry's, where it
has one or none of the lanes, or all of them, wait; else its lanes. -/
def splitJ (wait whole passing j : LaneMask) : LaneMask :=
  let w := passing &&& wait
  if w = 0 || w = passing || j != 0 then j else whole

/-- The entries that an entry at its next PC becomes when its instruction carried an S (R109); `whole` are the lanes that issued it. -/
def splitS (wait whole : LaneMask) (e : Entry) : List Entry :=
  let w := e.mask &&& wait
  let a := e.mask &&& ~~~wait
  if w = 0 then [e]
  else if a = 0 then [{ e with st := .results }]
  else
    let j := splitJ wait whole e.mask e.j
    [{ e with mask := a, j := j }, { e with mask := w, j := j, st := .results }]

/-- RJOIN entries whose waiting lanes equal their J go on at the next PC (R110). -/
def releaseJoins (wait : LaneMask) (f : List Entry) : List Entry :=
  f.flatMap (fun e =>
    match e.st with
    | .join s =>
      if e.mask = e.j then
        let n : Entry := { e with pc := e.pc + 4, j := 0, st := .ready }
        if s then splitS wait e.mask n else [n]
      else [e]
    | _ => [e])

/-- Lanes that pass an S at an RJOIN released now. -/
def joinPassS (f : List Entry) : LaneMask :=
  f.foldl (fun acc e => match e.st with
    | .join true => if e.mask = e.j then acc ||| e.mask else acc
    | _ => acc) 0

/-- The group with its frontier settled: joins merged and released, Ready entries merged. Empty entries are dropped. -/
def Group.settle (g : Group) (wait blocked : LaneMask) : Group :=
  let f := mergeAll blocked (g.frontier.filter (fun e => e.mask != 0))
  { g with regs := passS g.regs (joinPassS f), frontier := mergeAll blocked (releaseJoins wait f) }

/-- The group of a handle, settled. -/
def Sys.settle (y : Sys) (h : Nat) : Sys := y.modGroup h (fun g => g.settle (g.waitMask (y.awaiting h)) (y.returning g))

/-! ### Traps -/

/-- The Error Address Log record of a group's violation (R79); STRAP and BREAK write none (R268). -/
def Sys.logGroup (y : Sys) (now : Nat) (g : Group) (cause : Cause) (rem remLog : BitVec 8) (addr : DWord) : Sys :=
  if cause == .strap || cause == .brk then y
  else
    let (p, vf) := match y.launch? g.launch with
      | some l => (l.part, l.vf)
      | none => (y.partOfCore g.core, 0)
    y.logEal now p cause rem remLog addr .group g.core g.slot vf

/-- EALCNT as a trap reports it (R122). -/
def Sys.ealcntOf (y : Sys) (g : Group) (cause : Cause) : Nat :=
  if cause == .strap || cause == .brk then 0
  else
    match y.launch? g.launch with
    | some l => (y.part l.part).ealcnt
    | none => (y.part (y.partOfCore g.core)).ealcnt

/-- An entry takes state Trapped (R121): `lanes` are reported, and the entry stands at `pc`. The record of an error has been
written before. -/
def Sys.trapEntry (y : Sys) (h : Nat) (e : Entry) (cause : Cause) (rem : BitVec 8) (pc : Word) (lanes : LaneMask)
    (addr : DWord) (ealcnt seq : Nat) (insn : Word) : Sys :=
  y.modGroup h (fun g =>
    let t : TrapRec :=
    { cause := cause, remCause := rem, pc := pc, lanes := lanes, whole := e.mask, addr := addr,
      prio := y.prio g pc, ealcnt := ealcnt, insn := insn, seq := seq, queued := false, taken := false }
    { g with frontier := g.others e ++ [{ e with pc := pc, st := .trapped t, hints := {} }] })

/-- A check of an instruction fails at issue: the record is written and the issuing entry stops at the instruction, or at the
first hint of its run (R115, R121). -/
def Sys.trapIssue (y : Sys) (now : Nat) (g : Group) (e : Entry) (cause : Cause) (lanes : LaneMask) (addr : DWord) : Sys :=
  let y1 := y.logGroup now g cause 0 0 addr
  y1.trapEntry g.handle e cause 0 (e.hints.boundary e.pc) lanes addr (y1.ealcntOf g cause) g.nextSeq y.insn

/-- The record of a control processor's violation. -/
def Sys.logCp (y : Sys) (now : Nat) (core : Nat) (cause : Cause) (rem remLog : BitVec 8) (addr : DWord) : Sys :=
  if cause == .brk then y
  else y.logEal now (y.partOfCore core) cause rem remLog addr .cp core 0 (y.core core).cp.vf

/-- The control processor's own instruction traps: the trap waits in the CP's place of the trap queue (R121, R123). -/
def Sys.trapCp (y : Sys) (now : Nat) (core : Nat) (cause : Cause) (rem remLog : BitVec 8) (pc : Word) (addr : DWord)
    (insn : Word) : Sys :=
  let y1 := y.logCp now core cause rem remLog addr
  let n := if cause == .brk then 0 else (y1.part (y1.partOfCore core)).ealcnt
  let t : TrapRec :=
  { cause := cause, remCause := rem, pc := pc, lanes := 1, whole := 1, addr := addr, prio := 0,
    ealcnt := n, insn := insn, seq := 0, queued := true, taken := false }
  y1.modCore core (fun k => { k with
    trapq := k.trapq ++ [.cp core]
    cp := { k.cp with pc := pc, ownTrap := some t, hints := {} } })

/-- The registers 0x20-0x27 take a trap (R122), and the CP goes to its handler with INTRAP set (R121). `saved` is where it
resumes. -/
def Cp.enter (c : Cp) (t : TrapRec) (handle : Nat) (saved : Word) : Cp :=
  { c with
    tcause := BitVec.ofNat 8 t.cause.code
    tremcause := if t.cause == .remote then t.remCause else 0
    tpc := t.pc
    tmask := t.lanes
    tentry := t.whole
    taddr := t.addr
    tghandle := BitVec.ofNat 64 handle
    tprio := t.prio
    tealcnt := BitVec.ofNat 64 t.ealcnt
    tinsn := t.insn
    intrap := true
    saved := saved
    pc := c.cptvec.setWidth 32 }

/-- The return from a trap: INTRAP clears and the CP goes on at the saved PC (R388). -/
def Cp.leave (c : Cp) : Cp := { c with intrap := false, pc := c.saved }

/-- The CP stops after a trap taken while INTRAP is 1 (R123). -/
def Cp.stop (c : Cp) : Cp := { c with stopped := true, ownTrap := none }

end Sys2Proof.Machine
end

