-- ==== Sys2Proof/Machine/Operands.lean ====
section
/-!
DEFINITION. Issuing an instruction word: who issues, how register fields are read (R272), guards and hints (R274-R279), the
checks before the addresses (R268), writing results, and moving to the next PC (R105, R108, R109, R112).
-/
namespace Sys2Proof.Machine

/-! ### The issuer -/

/-- What an instruction word is executed with: the group and entry that issue it, or a control processor, which stands as one
lane with a Ready entry. -/
structure Iss where
  cp : Bool
  now : Nat
  core : Nat
  part : Nat
  vf : Nat
  g : Group
  e : Entry
  c : Cp
  launch : Option Launch
  /-- The group's registers as they stand, which a boundary keeps (R112). -/
  stood : Regs := {}
deriving DecidableEq, Repr

/-- A group that holds nothing: what stands for a group while a control processor issues. -/
def blankGroup : Group :=
  { handle := 0, launch := 0, core := 0, slot := 0, quadrant := 0, block := none, gix := 0, blockX := 0, blockY := 0,
    blockZ := 0, blockIndex := 0, gangRank := 0, gangSize := 0, scrBytes := 0, lanes := 0, helpers := 0, allot := 0,
    regs := {}, q := [], tapeb := 0, tapel := 0, adm := 0, frontier := [], age := 0, skipped := 0, window := [],
    nextSeq := 0, mmas := [], mmaj := none, matrix := [], parks := 0, offCore := none, gpark := false, preempt := false, killed := false,
    updates := [] }

/-- The group as an instruction sees it: each accumulator element that a joined MMAJ holds reads as its old or its new value (R111). -/
def Group.asSeen (g : Group) : Group :=
  match g.mmaj with
  | some m =>
    if m.joined then
      { g with regs := { g.regs with v := ssets g.regs.v (m.writes.filter (fun w => Config.lentNew g.handle g.nextSeq w.1)) } }
    else g
  | none => g

/-- The issuer of the word being executed; none when there is none (no group or entry of that name). -/
def issuer (s : State) : Option Iss :=
  match s.sys.cur with
  | none => none
  | some (.cp core) =>
    let c := (s.sys.core core).cp
    some { cp := true, now := s.gtime, core := core, part := s.sys.partOfCore core, vf := c.vf, g := blankGroup,
           e := { pc := c.pc, mask := 1, j := 0, st := .ready, hints := c.hints }, c := c, launch := none }
  | some (.group h lane) =>
    match s.sys.group? h with
    | none => none
    | some g =>
      match g.entry? lane with
      | none => none
      | some e =>
        let l := s.sys.launch? g.launch
        some { cp := false, now := s.gtime, core := g.core,
               part := match l with | some x => x.part | none => s.sys.partOfCore g.core,
               vf := match l with | some x => x.vf | none => 0,
               g := g.asSeen, e := e, c := {}, launch := l, stood := g.regs }

/-- The outcome of an instruction word: nothing but the rest of the state changes. -/
def wordNext (f : Iss → State → Sys) (s : State) : Host.Outcome State Fault Refusal :=
  match issuer s with
  | none => .fault .noIssuer
  | some i => .next { s with sys := f i s }

/-! ### Reading registers (R272) -/

/-- v[r] of a lane; on the control processor the low half of x[r]. -/
def Iss.v (i : Iss) (lane r : Nat) : Word :=
  if i.cp then (sget i.c.x r).setWidth 32 else sget i.g.regs.v (lane * 128 + r)

/-- A 64-bit operand: the pair v[r..r+1]; on the control processor x[r]. -/
def Iss.v64 (i : Iss) (lane r : Nat) : DWord :=
  if i.cp then sget i.c.x r else sget i.g.regs.v (lane * 128 + r + 1) ++ sget i.g.regs.v (lane * 128 + r)

/-- k[r]; on the control processor a k field names an x register. -/
def Iss.k (i : Iss) (r : Nat) : Word := if i.cp then (sget i.c.x r).setWidth 32 else sget i.g.regs.k r

/-- The pair k[r..r+1]; on the control processor x[r]. -/
def Iss.k64 (i : Iss) (r : Nat) : DWord :=
  if i.cp then sget i.c.x r else sget i.g.regs.k (r + 1) ++ sget i.g.regs.k r

/-- A predicate of a lane; p63 is true (R11). -/
def Iss.p (i : Iss) (lane n : Nat) : Bool :=
  n == 63 || (if i.cp then (sget i.c.p n).getLsbD 0 else (sget i.g.regs.p n).getLsbD lane)

/-- FRM (R241). -/
def Iss.frm (i : Iss) : BitVec 3 := if i.cp then i.c.frm else i.g.regs.frm

/-- FSTAT of a lane. -/
def Iss.fstat (i : Iss) (lane : Nat) : BitVec 5 := if i.cp then i.c.fstat else sget i.g.regs.fstat lane

/-- The MOD hint, zero when none is pending. -/
def Iss.mod (i : Iss) : FormMod := i.e.hints.mod.getD { l := false, q := false, k := false, e := 0, t := false, r := 0 }

/-- The A operand of a lane: v[A], or k[A] under A-from-k (R279). -/
def Iss.a (i : Iss) (lane r : Nat) : Word := if i.mod.k then i.k r else i.v lane r

/-- The 64-bit A operand. -/
def Iss.a64 (i : Iss) (lane r : Nat) : DWord := if i.mod.k then i.k64 r else i.v64 lane r

/-- The B operand of a TR or Compare word: v[B], or k[B] with M = 1 (R271). -/
def Iss.b (i : Iss) (m : Bool) (lane r : Nat) : Word := if m then i.k r else i.v lane r

/-- SAT is asked for. -/
def Iss.sat (i : Iss) : Bool := i.mod.t

/-- The mode an instruction that rounds rounds under (R279, R330): MOD's code when a MOD hint is pending, where 6 is FRM, else
FRM. -/
def Iss.rnd (i : Iss) : Rnd :=
  match i.e.hints.mod with
  | some m => if m.r = 6 then rndOf i.frm.toNat else rndOf m.r.toNat
  | none => rndOf i.frm.toNat

/-- imm8, or the 24-bit value of an IMM hint (R278), as a number of its width. -/
def Iss.imm (i : Iss) (x : BitVec 8) : BitVec 24 × Bool :=
  match i.e.hints.imm with
  | some h => (h.i ++ x, true)
  | none => (x.setWidth 24, false)

/-- The immediate sign-extended to 64 bits. -/
def Iss.immS (i : Iss) (x : BitVec 8) : DWord := if (i.imm x).2 then (i.imm x).1.signExtend 64 else x.signExtend 64

/-- The immediate zero-extended to 64 bits. -/
def Iss.immZ (i : Iss) (x : BitVec 8) : DWord := (i.imm x).1.setWidth 64

/-- The byte offset of a TM word (R273, R278). -/
def Iss.ofs (i : Iss) (x : BitVec 6) (size : Nat) : Int :=
  (match i.e.hints.imm with
    | some h => (h.i ++ x).toInt
    | none => x.toInt) * size

/-! ### Lanes -/

/-- The guard of a lane: G, or the predicate of a GUARD hint (R274, R277). -/
def Iss.guardAt (i : Iss) (g : BitVec 3) (lane : Nat) : Bool :=
  match i.e.hints.guard with
  | some h => i.p lane h.p.toNat != h.n
  | none => g == 7 || i.p lane g.toNat

/-- Lanes of the issuing entry whose guard holds. -/
def Iss.act (i : Iss) (g : BitVec 3) : LaneMask := i.e.mask &&& maskOf (fun l => i.guardAt g l)

/-- The lanes that are no helper lanes (R94). -/
def Iss.real (i : Iss) (m : LaneMask) : LaneMask := m &&& ~~~i.g.helpers

/-- The lowest non-helper lane whose guard holds, for instructions that act once per entry (R319). -/
def Iss.first? (i : Iss) (g : BitVec 3) : Option Nat := (lanesOf (i.real (i.act g))).head?

/-! ### Checks before the addresses (R268, steps 1-4) -/

/-- Which agents may issue an instruction (R282). -/
inductive Agents where
  | both | groupOnly | cpOnly
deriving DecidableEq, Repr

/-- What a word names and allows: the v registers it reads and writes (x registers on the control processor), those that its A
field names where A-from-k may turn them into k registers, k registers, and the hints that apply to it. -/
structure Desc where
  g : BitVec 3
  s : Bool
  src : List Nat := []
  dst : List Nat := []
  a : List Nat := []
  afk : Bool := false
  ks : List Nat := []
  kd : List Nat := []
  /-- Fields that name a pair in a group and must be even (R272). -/
  even : List Nat := []
  guardOk : Bool := true
  immOk : Bool := false
  modOk : Bool := true
  rounds : Bool := false
  satOk : Bool := false
  leaseOk : Bool := false
  acqOk : Bool := false
  relOk : Bool := false
  agents : Agents := .both
  cls : Option (BitVec 2) := none
  /-- A field value that raises ILLEGAL whatever the registers hold. -/
  bad : Bool := false
  /-- FSTAT counts as an operand (R331). -/
  fst : Bool := false
  /-- The guard selects and suppresses nothing (SEL, R274). -/
  all : Bool := false
  /-- The instruction acts once, with the operands of the lowest non-helper lane whose guard holds (R319). -/
  once : Bool := false
  /-- The lanes of HAZARD, where the instruction reads registers of other lanes (R339, R342). -/
  hz : Option LaneMask := none
  /-- The instruction makes memory accesses (R112). -/
  mem : Bool := false
  /-- The instruction issues only when the window holds no memory access (R113). -/
  drained : Bool := false
deriving DecidableEq, Repr

/-- Registers of a pair field: two in a group, one x register on the control processor (R272). -/
def pair (cp : Bool) (r : Nat) : List Nat := if cp then [r] else [r, r + 1]

/-- Consecutive registers. -/
def regRange (r n : Nat) : List Nat := (List.range n).map (fun j => r + j)

/-- A MOD field is non-zero on an instruction to which it does not apply, or holds a refused code (R240, R279). -/
def Desc.modBad (d : Desc) (m : FormMod) : Bool :=
  !d.modOk || (m.r != 0 && !d.rounds) || m.r == 5 || m.r == 7 || (m.t && !d.satOk) || (m.e != 0 && !d.leaseOk) || m.e == 3 ||
  (m.k && !d.afk) || (m.q && !d.acqOk) || (m.l && !d.relOk)

/-- The v registers named, with A's unless A-from-k moves them to k. -/
def Desc.vregs (d : Desc) (afk : Bool) : List Nat := d.src ++ d.dst ++ (if afk then [] else d.a)

/-- The k registers named. -/
def Desc.kregs (d : Desc) (afk : Bool) : List Nat := d.ks ++ d.kd ++ (if afk then d.a else [])

/-- ILLEGAL of R268 step 1: the word's fields, its hints and its registers (R282). -/
def Iss.illegal (i : Iss) (d : Desc) : Bool :=
  let afk := i.mod.k
  d.bad ||
  (i.cp && d.agents == .groupOnly) ||
  (i.e.hints.guard.isSome && (!d.guardOk || d.g != 7)) ||
  (i.e.hints.imm.isSome && !d.immOk) ||
  (match i.e.hints.mod with
    | some m => d.modBad m
    | none => false) ||
  (if i.cp then (d.vregs false ++ d.ks ++ d.kd).any (fun r => 128 ≤ r)
   else if d.agents == .cpOnly then false
   else
     (d.vregs afk).any (fun r => i.g.allot ≤ r) || (d.kregs afk).any (fun r => 128 ≤ r) ||
     d.even.any (fun r => r % 2 == 1))

/-- The lanes in which a named register is pending (R108): the reading lanes, or every active lane for a k register. -/
def Iss.hazard (i : Iss) (d : Desc) (lanes : LaneMask) : LaneMask :=
  let afk := i.mod.k
  if i.cp then
    (if (d.vregs false ++ d.ks ++ d.kd).any (fun r => sget i.c.pend r != 0) || (d.fst && sget i.c.pend 128 != 0) then lanes
     else 0)
  else
    let m := (d.vregs afk).foldl (fun (acc : LaneMask) r => acc ||| sget i.g.regs.pend r) 0
    let m1 := if d.fst then m ||| sget i.g.regs.pend 128 else m
    if (d.kregs afk).any (fun r => sget i.g.regs.pendK r != 0) then lanes else m1 &&& lanes

/-- What the checks decide. -/
inductive Verdict where
  | go
  | hold
  | trap (c : Cause) (lanes : LaneMask) (addr : DWord)
deriving DecidableEq, Repr

/-- A register of an unfinished register MMA is named: the entry stalls (R111). -/
def Iss.stalls (i : Iss) (d : Desc) : Bool :=
  (d.vregs i.mod.k).any (fun r => i.g.mmas.any (fun m => m.d ≤ r && r < m.d + m.n))

/-! ### The window (R112) -/

/-- The margin of a fabric access (R147). -/
def Sys.margin (y : Sys) : Nat := if y.wide then 1000 else 40

/-- An access is globally performed, by the meaning that names no scope (R147). -/
def Access.globally (a : Access) (y : Sys) (now : Nat) : Bool :=
  match a.st with
  | .performed _ gwct =>
    (match a.op with
      | .load _ | .bit _ | .test _ => true
      | _ => match a.target with
        | .home _ => gwct ≤ now
        | .fabric _ _ _ => gwct + y.margin ≤ now)
  | _ => false

/-- The group's window with the instructions before its checkpoint dropped. -/
def Sys.pruned (y : Sys) (now : Nat) (g : Group) : List WindowItem :=
  g.window.dropWhile (fun w =>
    !(y.accesses.any (fun a => a.who == .group g.handle && a.seq == w.seq && !a.undone && !a.globally y now)) &&
    !(match g.mmaj with | some m => !m.joined && m.seq == w.seq | none => false))

/-- The instruction would exceed the window, or needs a window without memory accesses (R112, R113). -/
def Iss.windowHolds (i : Iss) (y : Sys) (d : Desc) : Bool :=
  if i.cp then false
  else
    let w := y.pruned i.now i.g
    (d.drained && !w.isEmpty) ||
    (!w.isEmpty && 64 ≤ w.length) || (d.mem && 16 ≤ (w.filter (fun x => x.mem)).length)

/-- The lanes in which an instruction meets uncorrectable data of its registers (R61, R62): it reads a register of such a 64-bit word, or
writes a part of one. A word holds an even register of a lane and the next (DESIGN CHOICE, assumption log 64). -/
def Iss.badLanes (i : Iss) (d : Desc) (lanes : LaneMask) : LaneMask :=
  if i.cp || i.g.regs.bad.isEmpty then 0
  else
    let named := d.vregs i.mod.k
    let reads := d.src ++ (if i.mod.k then [] else d.a)
    let hit := fun (w : Nat) => named.any (fun r => r / 2 == w) &&
      !(d.dst.contains (2 * w) && d.dst.contains (2 * w + 1) && !reads.any (fun r => r / 2 == w))
    maskOf (fun l => lanes.getLsbD l && i.g.regs.bad.any (fun b => b / 64 == l && hit (b % 64)))

/-- The checks of R268 before the addresses. UNIFORM and later checks are the instruction's own. -/
def Iss.check (i : Iss) (y : Sys) (d : Desc) : Verdict :=
  let lanes := if d.all then i.e.mask else i.act d.g
  let rl := i.real lanes
  let hz := match d.hz with
    | some m => m
    | none => i.hazard d (if d.once then (match i.first? d.g with | some l => laneBit l | none => 0) else rl)
  if i.illegal d then .trap .illegal i.e.mask 0
  else if d.cls = some 3 then .trap .class i.e.mask 0
  else if !i.cp && d.agents == .cpOnly then .trap .privilege i.e.mask 0
  else if hz != 0 then .trap .hazard hz 0
  else if i.stalls d || i.windowHolds y d then .hold
  else if i.badLanes d rl != 0 then .trap .ecc (i.badLanes d rl) 0
  else .go

/-! ### Traps at issue -/

/-- The trap of an issuing agent. -/
def Iss.trap (i : Iss) (y : Sys) (c : Cause) (lanes : LaneMask) (addr : DWord) : Sys :=
  if i.cp then y.trapCp i.now i.core c 0 0 (i.e.hints.boundary i.e.pc) addr y.insn
  else y.trapIssue i.now i.g i.e c lanes addr

/-! ### Results -/

/-- What an instruction writes: registers of lanes (a group keeps the low 32 bits of a v register), uniform registers,
predicates, and flags ORed into FSTAT. -/
structure Writes where
  v : List (Nat × Nat × DWord) := []
  k : List (Nat × DWord) := []
  p : List (Nat × Nat × Bool) := []
  f : List (Nat × BitVec 5) := []
deriving DecidableEq, Repr

/-- One bit of a mask set or cleared. -/
def setLane (m : LaneMask) (l : Nat) (b : Bool) : LaneMask := if b then m ||| laneBit l else m &&& ~~~laneBit l

/-- A group's registers after the writes; p63 keeps nothing. -/
def Regs.write (r : Regs) (w : Writes) : Regs :=
  { r with
    v := w.v.foldl (fun t x => sset t (x.1 * 128 + x.2.1) (x.2.2.setWidth 32)) r.v
    k := w.k.foldl (fun t x => sset t x.1 (x.2.setWidth 32)) r.k
    p := w.p.foldl (fun t x => if x.2.1 = 63 then t else sset t x.2.1 (setLane (sget t x.2.1) x.1 x.2.2)) r.p
    fstat := w.f.foldl (fun t x => sset t x.1 (sget t x.1 ||| x.2)) r.fstat
    bad := r.bad.filter (fun b => !(List.all [0, 1] (fun j => w.v.any (fun x => x.1 * 64 + x.2.1 / 2 == b && x.2.1 % 2 == j)))) }

/-- A control processor's registers after the writes. -/
def Cp.write (c : Cp) (w : Writes) : Cp :=
  { c with
    x := w.k.foldl (fun t x => sset t x.1 x.2) (w.v.foldl (fun t x => sset t x.2.1 x.2.2) c.x)
    p := w.p.foldl (fun t x => if x.2.1 = 63 then t else sset t x.2.1 (setLane (sget t x.2.1) 0 x.2.2)) c.p
    fstat := w.f.foldl (fun t x => t ||| x.2) c.fstat }

/-- The issuer's registers after the writes. -/
def Iss.commit (i : Iss) (w : Writes) (y : Sys) : Sys :=
  if i.cp then y.modCp i.core (fun c => c.write w)
  else y.modGroup i.g.handle (fun g => { g with regs := g.regs.write w })

/-- v registers become pending in lanes (R108); 128 stands for FSTAT. -/
def Iss.defer (i : Iss) (regs : List Nat) (lanes : LaneMask) (y : Sys) : Sys :=
  let up : Sparse 32 → Sparse 32 := fun t => regs.foldl (fun t r => sset t r (sget t r ||| lanes)) t
  if i.cp then y.modCp i.core (fun c => { c with pend := up c.pend })
  else y.modGroup i.g.handle (fun g => { g with regs := { g.regs with pend := up g.regs.pend } })

/-- k registers become pending for the whole group until the issuing entry passes an S (R108). -/
def Iss.deferK (i : Iss) (regs : List Nat) (y : Sys) : Sys :=
  if i.cp then i.defer regs 1 y
  else y.modGroup i.g.handle (fun g => { g with regs := { g.regs with
    pendK := regs.foldl (fun t r => sset t r i.e.mask) g.regs.pendK } })

/-! ### The next PC -/

/-- The delay that a DELAY hint asks for (R279). -/
def Hints.delaySlots (h : Hints) : Nat := match h.delay with | some d => d.n.toNat | none => 0

/-- The group keeps the boundary before an instruction of its window (R112). -/
def Iss.pushWindow (i : Iss) (mem : Bool) (kw : List Nat) (y : Sys) : Sys :=
  y.modGroup i.g.handle (fun g =>
    let w := y.pruned i.now i.g
    let item : WindowItem :=
    { seq := i.g.nextSeq, pc := i.e.hints.boundary i.e.pc, mask := i.e.mask, j := i.e.j, mem := mem,
      before := i.stood, kw := kw }
    { g with window := if mem || !w.isEmpty then w ++ [item] else [], nextSeq := i.g.nextSeq + 1 })

/-- The state passes an S as the instruction completes issue: what waits at BWAIT, GROW or RJOIN passes it later. -/
def EntryState.passes : EntryState → Bool
  | .ready => true | .trapped _ => true | _ => false

/-- The issuing entry becomes the given entries: each is its lanes, its PC, its state and the holds it carries; an S splits the
Ready ones, with one J for all (R109). Its other fields stay, hints are dropped, and the frontier settles (R105). -/
def Iss.place (i : Iss) (d : Desc) (parts : List (LaneMask × Word × EntryState × List FenceHold)) (y : Sys) : Sys :=
  let wait := i.g.waitMask (y.awaiting i.g.handle)
  let delay := i.e.hints.delaySlots
  let passing := (parts.filter (fun p => p.2.2.1.passes)).foldl (fun (m : LaneMask) p => m ||| p.1) 0
  let j := if d.s then splitJ wait i.e.mask passing i.e.j else i.e.j
  let mk := fun (p : LaneMask × Word × EntryState × List FenceHold) =>
    let n : Entry := { pc := p.2.1, mask := p.1, j := j, st := p.2.2.1, hints := {}, holds := p.2.2.2, delay := delay }
    if d.s && n.st == .ready then splitS wait i.e.mask n else [n]
  let y1 := y.modGroup i.g.handle (fun g =>
    { g with
      regs := if d.s then passS g.regs i.e.mask else g.regs
      frontier := g.others i.e ++ (parts.filter (fun p => p.1 != 0)).flatMap mk })
  y1.settle i.g.handle

/-- A control processor's next PC; passing an S ends what was pending (R108). -/
def Iss.placeCp (i : Iss) (d : Desc) (pc : Word) (holds : List FenceHold) (y : Sys) : Sys :=
  y.modCp i.core (fun c => { c with
    pc := pc, hints := {}, holds := c.holds ++ holds, delay := i.e.hints.delaySlots, nextSeq := c.nextSeq + 1, pend := if d.s then [] else c.pend })

/-- The instruction is done and every lane falls through to the next word. -/
def Iss.fall (i : Iss) (d : Desc) (kw : List Nat) (holds : List FenceHold) (y : Sys) : Sys :=
  if i.cp then i.placeCp d (i.e.pc + 4) holds y
  else i.place d [(i.e.mask, i.e.pc + 4, .ready, holds)] (i.pushWindow d.mem kw y)

/-! ### Words that only write registers -/

/-- One lane's write of a 32-bit result. -/
def wr (lane r : Nat) (x : Word) : Writes := { v := [(lane, r, x.setWidth 64)] }

/-- One lane's write of a 64-bit result: a pair, or one x register (R272). -/
def wr64 (cp : Bool) (lane r : Nat) (x : DWord) : Writes :=
  if cp then { v := [(lane, r, x)] } else { v := [(lane, r, x), (lane, r + 1, x >>> 32)] }

/-- A TR word's registers: D is also read by the fused forms (R271). -/
def descTR (o : FormTR) (readsD : Bool) : Desc :=
  { g := o.g, s := o.s, dst := [o.d.toNat]
    src := (if o.m then [] else [o.b.toNat]) ++ (if readsD then [o.d.toNat] else [])
    a := [o.a.toNat], afk := true, ks := if o.m then [o.b.toNat] else [] }

/-- A Compare word's registers. -/
def descCmp (o : FormCmp) : Desc :=
  { g := o.g, s := o.s, src := if o.m then [] else [o.b.toNat], a := [o.a.toNat], afk := true
    ks := if o.m then [o.b.toNat] else [] }

/-- The predicate write of a compare (R271): AND with the old value when asked; pd 63 discards. -/
def cmpWrite (i : Iss) (o : FormCmp) (l : Nat) (r : Bool) : Writes :=
  { p := [(l, o.p.toNat, if o.n then i.p l o.p.toNat && r else r)] }

/-- A TI word's registers. -/
def descTI (s : Bool) (d a : BitVec 7) (g : BitVec 3) : Desc :=
  { g := g, s := s, dst := [d.toNat], a := [a.toNat], afk := true, immOk := true }

/-- The registers of an XFN word that reads v[A] and writes v[D]. -/
def descTF (o : FormTF) : Desc := { g := o.g, s := o.s, dst := [o.d.toNat], a := [o.a.toNat], afk := true }

/-- An instruction that writes registers, predicates and flags in its active lanes at once, or, with deferred registers, leaves
them pending until the next S. `f` gives a lane's writes. -/
def laneWord (d : Iss → Desc) (deferred : List Nat) (f : Iss → Nat → Writes) : State → Host.Outcome State Fault Refusal :=
  wordNext (fun i s =>
    let ds := d i
    match i.check s.sys ds with
    | .hold => s.sys
    | .trap c m a => i.trap s.sys c m a
    | .go =>
      let lanes := if ds.all then i.e.mask else i.act ds.g
      let ws := (lanesOf lanes).map (f i)
      let w : Writes :=
      { v := ws.flatMap Writes.v, k := ws.flatMap Writes.k, p := ws.flatMap Writes.p, f := ws.flatMap Writes.f }
      let y := i.commit w s.sys
      i.fall ds [] [] (if deferred.isEmpty then y else i.defer deferred lanes y))

/-- An instruction that acts once for the group when some non-helper lane of the entry has its guard true (R274, R306). `f`
gives its writes from the lowest such lane. -/
def onceWord (d : Iss → Desc) (f : Iss → Nat → Writes) : State → Host.Outcome State Fault Refusal :=
  wordNext (fun i s =>
    let ds := d i
    match i.check s.sys ds with
    | .hold => s.sys
    | .trap c m a => i.trap s.sys c m a
    | .go =>
      match i.first? ds.g with
      | none => i.fall ds [] [] s.sys
      | some l =>
        let w := f i l
        i.fall ds (w.k.map Prod.fst) [] (i.commit w s.sys))

end Sys2Proof.Machine
end

