-- ==== Sys2Proof/Machine/Address.lean ====
section
/-!
DEFINITION. Addresses: heap windows and format entries (R132, R133, R135), memory keys and uncorrectable data at a memory
controller (R59, R62), tagged pointers and the checks of R126 for cores, control processors and engines.
-/
namespace Sys2Proof.Machine

/-! ### Heap windows -/

/-- The n bytes from heap offset a lie inside the window (R132). -/
def HeapWindow.inside (h : HeapWindow) (a n : Nat) : Bool :=
  h.hlimit != 0 && h.hofs.toNat ≤ a && a + n ≤ h.hofs.toNat + h.hlimit.toNat

/-- The partition memory address of a heap offset (R132). -/
def HeapWindow.at (h : HeapWindow) (a : Nat) : Nat := h.hbase.toNat + (a - h.hofs.toNat)

/-- A format entry is used when END is above START (R133). -/
def FormatEntry.used (f : FormatEntry) : Bool := f.start.toNat < f.stop.toNat

/-- The used entry that holds a heap offset. -/
def HeapWindow.fmtAt (h : HeapWindow) (a : Nat) : Option FormatEntry :=
  (h.formats.map Prod.snd).find? (fun f => f.used && f.start.toNat ≤ a && a < f.stop.toNat)

/-- The key of the n bytes from heap offset a: none when they straddle two entries, or an entry and uncovered bytes (R135). -/
def HeapWindow.keyFor (h : HeapWindow) (a n : Nat) : Option Nat :=
  let es := (h.formats.map Prod.snd).filter (fun f => f.used && a < f.stop.toNat && f.start.toNat < a + n)
  match es with
  | [] => some h.dkey.toNat
  | [f] => if f.start.toNat ≤ a && a + n ≤ f.stop.toNat then some f.key.toNat else none
  | _ => none

/-- The flat address and key of n heap bytes; none outside the window, beyond the partition's memory or straddling entries. -/
def heapFlat (p : Part) (h : HeapWindow) (a n : Nat) : Option (Nat × Nat) :=
  if h.inside a n then
    match p.flat (h.at a), h.keyFor a n with
    | some f, some k => some (f, k)
    | _, _ => none
  else none

/-! ### Keys and uncorrectable data -/

/-- The ECC word of a byte: 64 bytes of HBM4E, 8 bytes of an SRAM array (R61), by its first byte. -/
def eccWord (a : Nat) : Nat := if isHbm a then a / 64 * 64 else a / 8 * 8

/-- n bytes from p on cut where runs of w bytes end, as offsets and lengths; `fuel` bounds the pieces. -/
def piecesAt (w p : Nat) : Nat → Nat → Nat → List (Nat × Nat)
  | 0, _, _ => []
  | fuel + 1, o, n => if n = 0 then [] else
      let k := min n (w - (p + o) % w)
      (o, k) :: piecesAt w p fuel (o + k) (n - k)

/-- n bytes from p on cut where ECC words of HBM4E end. -/
def pieces64 (p n : Nat) : List (Nat × Nat) := piecesAt 64 p (n / 64 + 2) 0 n

/-- Some of the n bytes from a lie in uncorrectable data. -/
def Sys.eccHit (y : Sys) (a n : Nat) : Bool :=
  !y.eccBad.isEmpty && (List.range n).any (fun j => y.eccBad.contains (eccWord (a + j)))

/-- The frame of an HBM4E address is owned under another key (R59). SRAM has no keys (R58). -/
def Sys.keyHit (y : Sys) (a key : Nat) : Bool :=
  isHbm a && (let t := sget y.frames (frameOf a); t.getLsbD 8 && t.toNat % 256 != key)

/-- An access claims an unowned frame for its key (R59). -/
def Sys.claim (y : Sys) (a key : Nat) : Sys :=
  if isHbm a && !(sget y.frames (frameOf a)).getLsbD 8 then
    { y with frames := sset y.frames (frameOf a) (BitVec.ofNat 9 (256 + key)) }
  else y

/-- The error a read of n bytes meets at memory: KEY is checked before data is read (R268). -/
def Sys.readError (y : Sys) (a n key : Nat) : Option Cause :=
  if y.keyHit a key then some .key else if y.eccHit a n then some .ecc else none

/-- The ECC words of n bytes from a on. -/
def eccWords (a n : Nat) : List Nat := ((List.range n).map (fun j => eccWord (a + j))).eraseDups

/-- n bytes from a cover a whole ECC word. -/
def coversWord (a n w : Nat) : Bool := decide (a ≤ w) && decide (w + (if isHbm w then 64 else 8) ≤ a + n)

/-- The error a write of n bytes meets: KEY, or ECC where it would write part of a word of uncorrectable data (R62). -/
def Sys.writeError (y : Sys) (a n key : Nat) : Option Cause :=
  if y.keyHit a key then some .key
  else if !y.eccBad.isEmpty && (eccWords a n).any (fun w => y.eccBad.contains w && !coversWord a n w) then some .ecc else none

/-- A corrected error is counted, in an HBM4E stack for its hourly figure (R24, R61). -/
def Sys.countCorrected (y : Sys) (w : Nat) : Sys :=
  let y1 : Sys := { y with corrected := y.corrected + 1 }
  if isHbm w then y1.modDie (w / 2 ^ 36) (fun d => { d with corrected := d.corrected + 1 }) else y1

/-- A corrected word is written back (R61). -/
def Sys.correct (y : Sys) (w : Nat) : Sys :=
  { y.countCorrected w with eccCorrectable := y.eccCorrectable.filter (fun x => x != w) }

/-- An access reads n bytes: the frame is claimed (R59), and each word that ECC corrects is counted; it stays to be corrected again until
it is written (R61). -/
def Sys.readAt (y : Sys) (a n key : Nat) : Sys :=
  let y1 := y.claim a key
  if y1.eccCorrectable.isEmpty then y1
  else ((eccWords a n).filter (fun w => y1.eccCorrectable.contains w)).foldl (fun z w => z.countCorrected w) y1

/-- A write leaves no error in the words that it covers (R62), and corrects those that it covers in part. -/
def Sys.clearEcc (y : Sys) (a n : Nat) : Sys :=
  let y1 : Sys := if y.eccBad.isEmpty then y else { y with eccBad := y.eccBad.filter (fun w => !coversWord a n w) }
  if y1.eccCorrectable.isEmpty then y1
  else (eccWords a n).foldl (fun z w =>
    if !z.eccCorrectable.contains w then z
    else if coversWord a n w then { z with eccCorrectable := z.eccCorrectable.filter (fun x => x != w) } else z.correct w) y1

/-! ### Tagged pointers (R124) -/

def spaceOf (p : Nat) : Nat := bits p 63 60
def rankOf (p : Nat) : Nat := bits p 59 52
def offsetOf (p : Nat) : Nat := bits p 51 0

/-- Who forms an address, and what bounds it: the heap window its launch holds (R132), the slice layout of its partition and the
SRAM window of its VF (R128), its cluster, and its block and gang. -/
structure AddrCtx where
  cp : Bool
  engine : Bool
  core : Nat
  part : Nat
  vf : Nat
  heap : HeapWindow
  block : Option Block
  gang : List Block
  gangSize : Nat
  scrBytes : Nat
  /-- A deterministic launch with DGV = 0: it reaches no other logical chip (R47). -/
  alone : Bool
deriving DecidableEq, Repr

/-- The kinds of access that the space rules tell apart (R125, R137). -/
inductive AccKind where
  | load | store | atomic
deriving DecidableEq, Repr

/-- The offset field of a space that an effective address must not carry out of (R308). -/
def fieldTop (space : Nat) : Nat :=
  if space = 2 then 24 else if space = 3 then 20 else if space = 4 then 46 else 52

/-- SPACE of R126 step 1 for an effective address. -/
def AddrCtx.spaceBad (c : AddrCtx) (y : Sys) (k : AccKind) (p : Nat) : Bool :=
  let sp := spaceOf p
  let part := y.part c.part
  if sp = 0 then rankOf p != 0
  else if sp = 1 then !c.engine || rankOf p != 0 || bits p 51 48 != 0
  else if sp = 2 then bits p 51 24 != 0
  else if sp = 3 then
    rankOf p != 0 ||
    (if c.cp || c.engine then bits p 51 36 != 0 || bits p 31 20 != 0
     else bits p 51 25 != 0 || (!bit p 24 && bits p 23 20 != 0))
  else if sp = 4 then
    !part.joined || bits p 47 46 ≥ 2 || (bits p 47 46 == 1 && bits p 45 32 != 0) ||
    (c.alone && bits p 59 48 != part.lchip.toNat)
  else if sp = 5 then
    c.engine || rankOf p != 0 ||
    !(match c.heap.fmtAt (offsetOf p) with | some f => f.d | none => false)
  else if sp = 7 then c.engine || rankOf p != 0 || k != .load
  else true

/-- The element size of a differentiable entry (R136). -/
def FormatEntry.elemSize (f : FormatEntry) : Nat := if f.fmt = 2 then 2 else 4

/-- ALIGN of R126 step 2: natural alignment, or R136's two checks in the shadow view. -/
def AddrCtx.alignBad (c : AddrCtx) (p size align : Nat) : Bool :=
  if spaceOf p = 5 then
    size != 4 || (match c.heap.fmtAt (offsetOf p) with | some f => offsetOf p % f.elemSize != 0 | none => false)
  else p % align != 0

/-- The flat address of a byte of a block's scratchpad window. -/
def Block.flat (b : Block) (ofs : Nat) : Nat :=
  let r := b.scr.foldl (fun (acc : Nat × Option Nat) x =>
    match acc.2 with
    | some _ => acc
    | none => if acc.1 < x.2 then (0, some (x.1 + acc.1)) else (acc.1 - x.2, none)) (ofs, none)
  flatSram b.core (r.2.getD 0)

/-- The target block of a group's scratchpad pointer (R129). -/
def AddrCtx.scrBlock (c : AddrCtx) (p : Nat) : Option Block :=
  if bit p 24 then
    if bits p 23 20 ≥ c.gangSize then none else c.gang.find? (fun b => b.rank == bits p 23 20)
  else c.block

/-- The heap offset of the adjoint cell of an element (R136). -/
def FormatEntry.cell (f : FormatEntry) (a : Nat) : Nat := f.aux.toNat + 4 * ((a - f.start.toNat) / f.elemSize)

/-- The rank of a core's cluster in its partition. -/
def Part.rankOfCore (p : Part) (core : Nat) : Nat :=
  p.dieList.findIdx (fun d => d == coreDie core) * 16 + coreCluster core % 16

/-- Where an effective address leads: the flat target with its key, the fabric, or a byte of the launch's constants; or the
failure of R126 step 3. -/
inductive Place where
  | home (addr key : Nat)
  | fabric (lchip : BitVec 12) (sub : BitVec 2) (ofs : BitVec 46)
  | consts (ofs : Nat)
  | paged (va : Nat)
  | fail (c : Cause)
deriving DecidableEq, Repr

/-- Bytes of constant space that exist (R137). -/
def constOk (kcount ofs size : Nat) : Bool :=
  ofs + size ≤ 0x80 || (0x100 ≤ ofs && ofs + size ≤ 0x100 + 4 * kcount)

/-- R126 step 3 and the translation of an effective address. -/
def AddrCtx.place (c : AddrCtx) (y : Sys) (kcount : Nat) (p size : Nat) : Place :=
  let sp := spaceOf p
  let part := y.part c.part
  let ofs := offsetOf p
  if sp = 0 then
    match heapFlat part c.heap ofs size with
    | some (f, k) => .home f k
    | none => .fail .limit
  else if sp = 1 then .paged ofs
  else if sp = 2 then
    let cl := if rankOf p = 255 then some (coreCluster c.core) else part.cluster (rankOf p)
    let w := y.vf c.vf
    let b := bits p 21 0
    let lo := w.dsbase.toNat * 16384
    match cl with
    | some k =>
      if w.dsvalid && lo ≤ b && b + size ≤ lo + w.dsn.toNat * 16384 && b + size ≤ part.dsres.toNat * 16384 then .home (flatSram (clusterCore k (bits p 23 22)) b) 0
      else .fail .limit
    | none => .fail .limit
  else if sp = 3 then
    let s := bits p 19 0
    if c.cp || c.engine then
      match y.blocks.find? (fun b => b.core == c.core && b.bslot == bits p 35 32 && !b.released) with
      | some b => if s + size ≤ b.scrBytes then .home (b.flat s) 0 else .fail .spbound
      | none => .fail .limit
    else
      match c.scrBlock p with
      | some b =>
        if s + size ≤ (if bit p 24 then b.scrBytes else c.scrBytes) then .home (b.flat s) 0
        else .fail .spbound
      | none => .fail .spbound
  else if sp = 4 then
    -- RANK 255 of a remote pointer means the cluster of the issuer's own rank (R130)
    let o := if bits p 47 46 = 1 && bits p 31 24 = 255 then p % 2 ^ 24 + part.rankOfCore c.core % 256 * 2 ^ 24 else bits p 45 0
    .fabric (BitVec.ofNat 12 (bits p 59 48)) (BitVec.ofNat 2 (bits p 47 46)) (BitVec.ofNat 46 o)
  else if sp = 5 then
    match c.heap.fmtAt ofs with
    | some f =>
      match heapFlat part c.heap (f.cell ofs) 4 with
      | some (a, k) => .home a k
      | none => .fail .limit
    | none => .fail .limit
  else if sp = 7 then if constOk kcount ofs size then .consts ofs else .fail .limit
  else .fail .space

/-- The bytes of launch constant space (R137). -/
def Launch.constBytes (l : Launch) (ofs n : Nat) : List Byte :=
  if ofs + n ≤ 0x80 then slice l.record.bytes ofs n
  else slice (l.consts.flatMap (fun w => bytesOf 4 w.toNat)) (ofs - 0x100) n

/-- The address context of an issuer. -/
def Iss.ctx (i : Iss) (y : Sys) : AddrCtx :=
  let blk := match i.g.block with | some u => y.block? u | none => none
  { cp := i.cp, engine := false, core := i.core, part := i.part, vf := i.vf,
    heap := match i.launch with | some l => l.heap | none => (y.vf i.vf).heap
    block := blk
    gang := match blk with | some b => y.blocks.filter (fun x => x.gang == b.gang && x.launch == b.launch) | none => []
    gangSize := i.g.gangSize.toNat
    scrBytes := i.g.scrBytes.toNat
    alone := match i.launch with | some l => l.record.det && !l.record.dgv | none => false }

/-- How many constants the issuer's launch holds. -/
def Iss.kcount (i : Iss) : Nat := match i.launch with | some l => l.consts.length | none => 0

/-- What one lane of a memory instruction asks for. -/
structure LaneAddr where
  lane : Nat
  /-- The pointer before the offset, and the effective address (R308). -/
  base : Nat
  ea : Nat
deriving DecidableEq, Repr

/-- The lane's effective address has carried out of its space's offset field (R308). -/
def LaneAddr.carried (a : LaneAddr) : Bool :=
  let t := fieldTop (spaceOf a.base)
  a.ea >>> t != a.base >>> t

/-- The failure of R126 that a lane meets: the step, the cause and the address. -/
def AddrCtx.failure (c : AddrCtx) (y : Sys) (kcount : Nat) (k : AccKind) (size align : Nat) (a : LaneAddr) : Option (Nat × Cause) :=
  let ofField := fun (x : Cause) => some (3, x)
  if a.carried then
    (if [0, 2, 3, 4, 5, 7].contains (spaceOf a.base) then ofField (if spaceOf a.base = 3 then .spbound else .limit)
     else some (1, .space))
  else if c.spaceBad y k a.ea then some (1, .space)
  else if c.alignBad a.ea size align then some (2, .align)
  else match c.place y kcount a.ea size with
    | .fail x => ofField x
    | _ => none

/-- The checks of R126 over the lanes: the first failing step, its cause, the lanes that fail it, and the pointer of the lowest.
Step 3 is one check whose cause is that of the lowest failing lane. -/
def firstFailure (fs : List (LaneAddr × Option (Nat × Cause))) : Option (Cause × LaneMask × DWord) :=
  let steps := fs.filterMap (fun f => f.2.map Prod.fst)
  match steps with
  | [] => none
  | s :: r =>
    let st := r.foldl min s
    let bad := fs.filterMap (fun f => match f.2 with
      | some (n, c) => if n = st then some (f.1, c) else none
      | none => none)
    match bad with
    | [] => none
    | (a, c) :: _ => some (c, maskOf (fun l => bad.any (fun b => b.1.lane == l)), BitVec.ofNat 64 a.ea)

end Sys2Proof.Machine
end

