-- ==== Sys2Proof/Machine/Capture.lean ====
section
/-!
DEFINITION. Memory by heap offset, and copy-on-write of snapshot granules (R195): which granules a byte of memory lies in, the
capture before the first write to a pending one, and the one operation that writes memory.
-/
namespace Sys2Proof.Machine

/-! ### Partition memory and heap bytes -/

/-- The partition memory address of an HBM4E byte (R134, inverted). -/
def Part.unflat (p : Part) (f : Nat) : Nat :=
  let ds := p.dieList
  let sa := f % 2 ^ 36
  (sa / 4096 * ds.length + ds.findIdx (fun d => d == f / 2 ^ 36)) * 4096 + sa % 4096

/-- n bytes of a heap window from an offset on, however they are interleaved; 0 where there are none. -/
def readHeap (m : List Host.Cell) (p : Part) (h : HeapWindow) (a : Nat) : Nat → List Byte
  | 0 => []
  | n + 1 => (match p.flat (h.at a) with | some f => readByte m f | none => 0) :: readHeap m p h (a + 1) n

/-- The flat address of the byte at a heap offset. -/
def heapByte (p : Part) (h : HeapWindow) (a : Nat) : Option Nat := if h.inside a 1 then p.flat (h.at a) else none

/-- The partition of a byte of HBM4E or SRAM. -/
def Sys.partOfFlat (y : Sys) (f : Nat) : Option Nat :=
  if isHbm f then y.partOfDie (f / 2 ^ 36) else if isSram f then y.partOfDie (coreDie (sramCore f)) else none

/-! ### Colours (R188) -/

def Part.colour (p : Part) (b : Bool) : Colour := if b then p.colourB else p.colourA
def Part.modColour (p : Part) (b : Bool) (f : Colour → Colour) : Part :=
  if b then { p with colourB := f p.colourB } else { p with colourA := f p.colourA }
def Part.coordOf (p : Part) (b : Bool) : Coordinator := if b then p.coordB else p.coordA
def Part.modCoord (p : Part) (b : Bool) (f : Coordinator → Coordinator) : Part :=
  if b then { p with coordB := f p.coordB } else { p with coordA := f p.coordA }

/-- The granule lies in a run of granules. -/
def Span.has (x : Span) (g : Granule) : Bool :=
  match x, g with
  | .heap v lo hi, .heapPage w ofs => v == w && decide (lo ≤ ofs) && decide (ofs < hi)
  | .bank c lo hi, .bank d b => c == d && decide (lo ≤ b) && decide (b < hi)
  | .acc c lo hi, .accBank d b => c == d && decide (lo ≤ b) && decide (b < hi)
  | _, _ => false

/-- The granule is pending for a colour (R195): in its scope and not yet captured. -/
def Colour.pending (c : Colour) (g : Granule) : Bool := c.st == .live && c.scope.any (fun x => x.has g) && !c.captured.contains g

/-- The granules that a byte lies in: the heap page of every VF whose window reaches it, or its SRAM bank. -/
def Sys.granulesAt (y : Sys) (f : Nat) : List Granule :=
  if isSram f then [.bank (sramCore f) (sramOfs f / 16384)]
  else
    match y.partOfFlat f with
    | none => []
    | some p =>
      let m := (y.part p).unflat f
      (y.partVfs p).filterMap (fun v =>
        let h := (y.vf v).heap
        if h.hlimit != 0 && h.hbase.toNat ≤ m && m < h.hbase.toNat + h.hlimit.toNat then
          some (.heapPage v ((m - h.hbase.toNat + h.hofs.toNat) / 65536 * 65536))
        else none)

/-- The granules of a run of bytes. -/
def Sys.granulesOf (y : Sys) (f n : Nat) : List Granule :=
  let a := y.granulesAt f
  a ++ ((y.granulesAt (f + n - 1)).filter (fun g => !a.contains g))

/-- The bytes of accumulator memory: a tile's values by core, tile and place (R349); bank b holds bytes from 16384 × b on. -/
def tileKey (core byte : Nat) : Nat := core * 131072 + byte / 4

/-- The ID and body of a captured granule (R205). -/
def granuleRec (s : State) (p : Nat) (g : Granule) : StreamRec :=
  let part := s.sys.part p
  match g with
  | .heapPage v ofs =>
    let h := (s.sys.vf v).heap
    { rkind := 1, ident := BitVec.ofNat 64 ofs, body := readHeap s.mem part h ofs 65536, image := .page v }
  | .bank c b =>
    { rkind := 2, ident := BitVec.ofNat 64 (b + c % 4 * 1024 + part.rankOfCore c * 4096)
      body := readBytes s.mem (flatSram c (b * 16384)) 16384, image := .bytes }
  | .accBank c b =>
    { rkind := 2, ident := BitVec.ofNat 64 (b + 256 + c % 4 * 1024 + part.rankOfCore c * 4096)
      body := (List.range 4096).flatMap (fun j => bytesOf 4 (sget s.sys.tiles (tileKey c (b * 16384 + 4 * j))).toNat)
      image := .bytes }
  | .group h =>
    { rkind := 3, ident := BitVec.ofNat 64 h, body := [], image := .bytes }

/-- Bytes of staging (R196): units of 64 MiB, 0 selecting ⌊512 × d ÷ 12⌋. -/
def Part.stagingBytes (p : Part) : Nat :=
  (if p.stageunits = 0 then 512 * p.dieList.length / 12 else p.stageunits.toNat) * 2 ^ 26

/-- Bytes in whole heap pages, as logs take them from staging (R201). -/
def logPages (n : Nat) : Nat := (n + 65535) / 65536 * 65536

/-- The bytes of staging that a record takes. -/
def StreamRec.room (r : StreamRec) : Nat := if r.rkind = 5 then logPages r.body.length else r.body.length

/-- Two records, one of each colour, have one copy (R195): a granule is captured once for a colour. -/
def StreamRec.sameCopy (r x : StreamRec) : Bool :=
  r.shared && x.shared && r.rkind == x.rkind && r.ident == x.ident && r.image == x.image

/-- The bytes of staging that the logs of open channels take: whole pages for each channel, a header of 32 bytes and 16 for each unit of a
packet. -/
def Colour.logRoom (c : Colour) : Nat :=
  ((c.logs.map Prod.fst).eraseDups).foldl (fun n k => n + logPages
    ((c.logs.filter (fun l => l.1 == k)).foldl (fun m l => m + 32 + 16 * l.2.payload.length) 0)) 0

/-- Bytes staged now: a copy that serves both colours counts once. -/
def Part.staged (p : Part) : Nat :=
  let sum := fun (rs : List StreamRec) => rs.foldl (fun acc r => acc + r.room) 0
  sum p.colourA.staging + sum (p.colourB.staging.filter (fun r => !p.colourA.staging.any r.sameCopy)) +
    p.colourA.logRoom + p.colourB.logRoom + p.unfreed

/-- The staging bytes of a granule. -/
def Granule.room : Granule → Nat
  | .heapPage _ _ => 65536
  | _ => 16384

/-- Captures a granule for every colour for which it is pending. -/
def captureGranule (s : State) (p : Nat) (g : Granule) : Sys :=
  let part := s.sys.part p
  if part.colourA.pending g || part.colourB.pending g then
    let r := { granuleRec s p g with shared := part.colourA.pending g && part.colourB.pending g }
    let f := fun (c : Colour) =>
      if c.pending g then { c with staging := c.staging ++ [r], captured := c.captured ++ [g] } else c
    s.sys.modPart p (fun q => { q with colourA := f q.colourA, colourB := f q.colourB })
  else s.sys

/-- The granules of a write that some colour still waits for. -/
def Sys.pendingAt (y : Sys) (f n : Nat) : List (Nat × Granule) :=
  match y.partOfFlat f with
  | none => []
  | some p =>
    let part := y.part p
    if part.colourA.st == .live || part.colourB.st == .live then
      ((y.granulesOf f n).filter (fun g => part.colourA.pending g || part.colourB.pending g)).map (fun g => (p, g))
    else []

/-- Writes that are made together stall: staging has no room for all the captures that they need (R195). -/
def Sys.allStall (y : Sys) (ws : List (Nat × Nat)) : Bool :=
  let gs := (ws.flatMap (fun w => y.pendingAt w.1 w.2)).eraseDups
  gs.any (fun q => decide ((y.part q.1).stagingBytes <
    (y.part q.1).staged + (gs.filter (fun x => x.1 == q.1)).foldl (fun n x => n + x.2.room) 0))

/-- A write of n bytes stalls. -/
def Sys.writeStalls (y : Sys) (f n : Nat) : Bool := y.allStall [(f, n)]

/-- The captures that a write of n bytes needs before it. -/
def captureFor (s : State) (f n : Nat) : Sys :=
  (s.sys.pendingAt f n).foldl (fun y q => captureGranule { s with sys := y } q.1 q.2) s.sys

/-- A write of bytes at a flat address: pending granules are captured first, and whole ECC words are made good (R62). -/
def putBytes (s : State) (f : Nat) (bs : List Byte) : Eff :=
  { sys := (captureFor s f bs.length).clearEcc f bs.length, cells := cellsAt f bs }

/-- Several writes in order. -/
def putAll (s : State) : List (Nat × List Byte) → Eff
  | [] => Eff.none s
  | (f, bs) :: r => (putBytes s f bs).andThen s (fun t => putAll t r)

end Sys2Proof.Machine
end

