-- ==== Sys2Proof/Machine/Ownership.lean ====
section
/-!
DEFINITION. The ownership table of a deterministic launch (R260-R262, R406): lines private to a block or shared, pre-images,
versions, and the bytes of memory that change with them.
-/
namespace Sys2Proof.Machine

/-- The line's entry. -/
def Launch.ownLine? (l : Launch) (line : Nat) : Option OwnLine := l.own.find? (fun o => o.line == line)

/-- The table with a line's entry put. -/
def Launch.putOwn (l : Launch) (o : OwnLine) : Launch := { l with own := (l.own.filter (fun x => x.line != o.line)) ++ [o] }

/-- The pairs of offset and byte laid over the bytes of a line. -/
def overlay (base : List Byte) (ws : List (Nat × Byte)) : List Byte := ws.foldl (fun b w => b.set w.1 w.2) base

/-- A version with bytes written into it. -/
def addBytes (ws : List (Nat × Byte)) (ofs : Nat) (data : List Byte) : List (Nat × Byte) :=
  (ws.filter (fun w => w.1 < ofs || ofs + data.length ≤ w.1)) ++ data.mapIdx (fun j x => (ofs + j, x))

/-- The bytes of a line as a block's plain loads find them (R261 rules 1, 3 and 4). -/
def OwnLine.view (o : OwnLine) (m : List Host.Cell) (b : Nat) : List Byte :=
  let now := readBytes m (o.line * 128) 128
  if o.owner = some b then now else overlay (o.pre.getD now) (tget o.versions b [])

/-- The n bytes from f as a block's plain loads find them; f to f + n lies in one line or is read line by line. -/
def Launch.ownView (l : Launch) (m : List Host.Cell) (b f n : Nat) : List Byte :=
  (List.range n).map (fun j =>
    match l.ownLine? (lineOf (f + j)) with
    | some o => (o.view m b).getD ((f + j) % 128) 0
    | none => readByte m (f + j))

/-- A touch of a line by a block (R261 rules 1 and 2): the first makes it private; one by another block makes it shared, and the
owner's bytes in memory return to the pre-image. The owner's version takes a record, also where its line has been released: the counts
do not depend on timing (R262). -/
def Launch.ownTouch (l : Launch) (line b : Nat) : Launch × List Host.Cell :=
  match l.ownLine? line with
  | none =>
    ({ l.putOwn { line := line, owner := some b, pre := none, written := [], versions := [] } with ownLines := l.ownLines + 1 }, [])
  | some o =>
    match o.owner with
    | none =>
      if o.written.isEmpty then (l, []) else ({ l.putOwn { o with written := [] } with ownRecords := l.ownRecords + 1 }, [])
    | some c =>
      if c = b then (l, [])
      else
        let o1 : OwnLine :=
        { o with owner := none, written := [], versions := if o.written.isEmpty then o.versions else tset o.versions c o.written }
        let back := o.written.map (fun w => (line * 128 + w.1, (o.pre.getD []).getD w.1 0))
        ({ l.putOwn o1 with ownRecords := l.ownRecords + if o.written.isEmpty then 0 else 1 }, back)

/-- The pre-image is saved before the launch's first store or atomic to the line (R406). -/
def Launch.ownPre (l : Launch) (m : List Host.Cell) (line : Nat) : Launch :=
  match l.ownLine? line with
  | none => l
  | some o =>
    match o.pre with
    | some _ => l
    | none => { l.putOwn { o with pre := some (readBytes m (line * 128) 128) } with ownRecords := l.ownRecords + 1 }

/-- A store of a block to bytes of one line (R261 rules 1 and 3): in place while private, into its version once shared. -/
def Launch.ownStore (l : Launch) (m : List Host.Cell) (b f : Nat) (data : List Byte) : Launch × List Host.Cell :=
  let line := lineOf f
  let (l1, back) := l.ownTouch line b
  let l2 := l1.ownPre (writeCells m back) line
  match l2.ownLine? line with
  | none => (l2, back)
  | some o =>
    if o.owner = some b then
      (l2.putOwn { o with written := addBytes o.written (f % 128) data }, back ++ cellsAt f data)
    else
      let old := tget o.versions b []
      let l3 := l2.putOwn { o with versions := tset o.versions b (addBytes old (f % 128) data) }
      ({ l3 with ownRecords := l3.ownRecords + if old.isEmpty then 1 else 0 }, back)

/-- Block b's serial phase (R261 rule 4): its versions go over memory and its private lines are released. A released line remembers which
bytes its block wrote until another block touches it. -/
def Launch.ownSerial (l : Launch) (b : Nat) : Launch × List Host.Cell :=
  let cells := l.own.flatMap (fun o => (tget o.versions b []).map (fun w => (o.line * 128 + w.1, w.2)))
  ({ l with
     serial := b + 1
     own := l.own.map (fun o => if o.owner = some b then { o with owner := none } else o) }, cells)

/-- The launch needs more than its partition's table holds (R262). -/
def Launch.ownExhausted (l : Launch) (p : Part) : Bool :=
  p.ownunits.toNat * 65536 < l.ownLines || p.ownunits.toNat * 451470 < l.ownRecords

end Sys2Proof.Machine
end

