-- ==== Sys2Proof/Machine/Packet.lean ====
section
/-!
DEFINITION. Packets of the fabric: their units (R32), which partition hosts a logical chip (R40), the choice of an egress port
(R37), colour bits and channel counts of a packet sent (R41, R199), tick buffers (R47), and the requests that accesses make
(R35, R44).
-/
namespace Sys2Proof.Machine

/-! ### Units (R32) -/

/-- A header as two units: bits [127:0], then [255:128]. -/
def encodePacket (p : Packet) : List PUnit :=
  let b := fun (x : Bool) => if x then 1 else 0
  let lo : Nat := p.typ.toNat + p.cls.toNat * 2 ^ 4 + b p.ca * 2 ^ 6 + b p.cb * 2 ^ 7 + b p.det * 2 ^ 8 + b p.ea * 2 ^ 9 +
    b p.eb * 2 ^ 10 + b p.rsvd * 2 ^ 11 + p.dlog.toNat * 2 ^ 16 + p.dphys.toNat * 2 ^ 28 + p.slog.toNat * 2 ^ 40 +
    p.sphys.toNat * 2 ^ 52 + p.gen.toNat * 2 ^ 64 + p.len.toNat * 2 ^ 80 + p.op.toNat * 2 ^ 86 + p.sub.toNat * 2 ^ 92 +
    p.dom.toNat * 2 ^ 94
  let hi : Nat := p.offset.toNat + p.tagCore.toNat * 2 ^ 64 + p.tagGrp.toNat * 2 ^ 74 + p.tagSlot.toNat * 2 ^ 80 +
    b p.tagE * 2 ^ 83 + p.tagPos.toNat * 2 ^ 84 + p.dseq.toNat * 2 ^ 96
  [BitVec.ofNat 128 lo, BitVec.ofNat 128 hi] ++ p.payload

/-- The packets of a transaction area: whole packets until a unit whose TYPE reads 0 (R32). `fuel` bounds the packets. -/
def decodePackets : Nat → List PUnit → List Packet
  | 0, _ => []
  | fuel + 1, u0 :: u1 :: r =>
    let lo := u0.toNat
    let hi := u1.toNat
    if lo % 16 = 0 then []
    else
      let len := bits lo 85 80
      let p : Packet :=
      { typ := BitVec.ofNat 4 lo, cls := BitVec.ofNat 2 (bits lo 5 4), ca := bit lo 6, cb := bit lo 7, det := bit lo 8
        ea := bit lo 9, eb := bit lo 10
        rsvd := bits lo 15 11 != 0 || bits lo 127 102 != 0 || bits hi 63 46 != 0 || bits hi 95 89 != 0
        dlog := BitVec.ofNat 12 (bits lo 27 16), dphys := BitVec.ofNat 12 (bits lo 39 28)
        slog := BitVec.ofNat 12 (bits lo 51 40), sphys := BitVec.ofNat 12 (bits lo 63 52)
        gen := BitVec.ofNat 16 (bits lo 79 64), len := BitVec.ofNat 6 len, op := BitVec.ofNat 6 (bits lo 91 86)
        sub := BitVec.ofNat 2 (bits lo 93 92), dom := BitVec.ofNat 8 (bits lo 101 94)
        offset := BitVec.ofNat 46 (bits hi 45 0), tagCore := BitVec.ofNat 10 (bits hi 73 64)
        tagGrp := BitVec.ofNat 6 (bits hi 79 74), tagSlot := BitVec.ofNat 3 (bits hi 82 80), tagE := bit hi 83
        tagPos := BitVec.ofNat 5 (bits hi 88 84), dseq := BitVec.ofNat 32 (bits hi 127 96)
        payload := r.take len }
      p :: decodePackets fuel (r.drop len)
  | _ + 1, _ => []

/-- A unit from its little-endian bytes, and its bytes. -/
def unitOf (bs : List Byte) : PUnit := BitVec.ofNat 128 (numOf (bs.take 16))
def unitBytes (u : PUnit) : List Byte := bytesOf 16 u.toNat

/-- Bytes as whole units, zero-padded (R33). -/
def unitsOf : Nat → List Byte → List PUnit
  | 0, _ => []
  | n + 1, bs => unitOf bs :: unitsOf n (bs.drop 16)

/-- The bytes of units. -/
def bytesOfUnits (us : List PUnit) : List Byte := us.flatMap unitBytes

/-! ### Types (R33) -/

def tRdreq : BitVec 4 := 1
def tWrreq : BitVec 4 := 2
def tAtreq : BitVec 4 := 3
def tContrib : BitVec 4 := 4
def tRdrsp : BitVec 4 := 5
def tWrack : BitVec 4 := 6
def tAtrsp : BitVec 4 := 7
def tErrrsp : BitVec 4 := 8
def tNack : BitVec 4 := 9
def tMarker : BitVec 4 := 10
def tTimex : BitVec 4 := 11
def tTickend : BitVec 4 := 12
def tColl : BitVec 4 := 13

/-- The channel of a packet seen from one end: the other logical chip and the class. -/
def chanKey (lchip : BitVec 12) (cls : BitVec 2) : Nat := lchip.toNat * 4 + cls.toNat

/-- The defined ATOM fn6 codes (R281): 0x00-0x12, with N = 1 on those that need not return. -/
def atomFnOk (op : Nat) : Bool := op ≤ 0x12 || (0x20 ≤ op && op ≤ 0x31 && !([0x2A, 0x2B, 0x2F].contains op))

end Sys2Proof.Machine

namespace Sys2Proof

open Sys2Proof.Machine

/-- A request of R35. -/
def Packet.isRequest (p : Packet) : Bool := 1 ≤ p.typ.toNat && p.typ.toNat ≤ 4 || p.typ == tColl
/-- A response. -/
def Packet.isResponse (p : Packet) : Bool := 5 ≤ p.typ.toNat && p.typ.toNat ≤ 8
/-- The types that channels count (R41). -/
def Packet.isCounted (p : Packet) : Bool := (1 ≤ p.typ.toNat && p.typ.toNat ≤ 8) || p.typ == tColl
/-- A protocol message of snapshots (R200). -/
def Packet.mkind (p : Packet) : Nat := if p.typ == tMarker then bits ((p.payload.headD 0).toNat) 6 3 else 0
/-- The virtual channel: 0 request, 1 response, 2 control (R31, R33). -/
def Packet.vc (p : Packet) : Nat :=
  if p.isResponse then 1
  else if p.typ == tNack || p.typ == tTimex || (p.typ == tMarker && p.cls != 0) then 2
  else 0
/-- LEN fits the type (R33, R34). -/
def Packet.lenOk (p : Packet) : Bool :=
  let n := p.len.toNat
  p.payload.length == n &&
  (if p.typ == tRdreq then n == 0
   else if p.typ == tWrreq then 2 ≤ n && n ≤ 9
   else if p.typ == tContrib then n == 1 || n == 2
   else if p.typ == tRdrsp then 1 ≤ n && n ≤ 8
   else if p.typ == tColl then 1 ≤ n && n ≤ 9
   else n == 1)

/-- A malformed packet (R34). A CONTRIB whose OP is none of the two of R33 counts as malformed too, as an ATREQ with an undefined OP does
(DESIGN CHOICE, assumption log 61). -/
def Packet.malformed (p : Packet) : Bool :=
  p.rsvd || p.cls == 3 || 2 ≤ p.sub.toNat || !p.lenOk || 14 ≤ p.typ.toNat ||
  (p.typ == tAtreq && !(atomFnOk p.op.toNat || p.op == 0x1F)) || (p.typ == tColl && 2 ≤ p.op.toNat) ||
  (p.typ == tContrib && p.op != 0x10 && p.op != 0x11) || (p.typ == tMarker && 11 ≤ p.mkind)

end Sys2Proof

namespace Sys2Proof.Machine

/-! ### Hosting and remap (R40) -/

/-- The partition of this package that hosts the logical chip of a domain: one that has not moved away (R42). -/
def Sys.hostPart (y : Sys) (dom lchip : Nat) : Option Nat :=
  allParts.find? (fun p =>
    (y.part p).valid && (y.part p).joined && !(y.part p).moved && (y.part p).dom.toNat == dom && (y.part p).lchip.toNat == lchip)

/-- A generation is newer (R44). -/
def newerGen (new old : BitVec 16) : Bool := 1 ≤ (new - old).toNat && (new - old).toNat ≤ 32767

/-- The remap entry of a logical chip, as a NACK of a newer generation corrects it (R44). -/
def Sys.remapOf (y : Sys) (dom lchip : Nat) : RemapEntry :=
  let e : RemapEntry := tget y.remap (dom * 4096 + lchip) {}
  let n : RemapEntry := tget y.adopted (dom * 4096 + lchip) e
  if newerGen n.gen e.gen then { e with phys := n.phys, gen := n.gen } else e

/-- An entry of the remap table is stored whole (R40); what a NACK told of its chip is forgotten. -/
def Sys.putRemap (y : Sys) (dom lchip : Nat) (e : RemapEntry) : Sys :=
  { y with remap := tset y.remap (dom * 4096 + lchip) e, adopted := y.adopted.filter (fun a => a.1 != dom * 4096 + lchip) }

/-! ### Sending -/

/-- The key that a direction uses, while its counter has not run 2^47 slots under it (R29). -/
def keyInUse (keys : List (Bool × LinkKey)) (slot : Bool) (counter : Nat) : Option LinkKey :=
  ((keys.find? (fun k => k.1 == slot)).map Prod.snd).filter (fun k => decide (counter < k.base + 2 ^ 47))

/-- A port is up: it has lanes, and each direction has a key that it may still use (R26, R29). -/
def Port.up (p : Port) : Bool :=
  p.lanes != 0 && (keyInUse p.txKeys p.txKey p.txCounter).isSome &&
  p.rxKeys.any (fun k => decide (p.rxCounter < k.2.base + 2 ^ 47))

/-- The egress port for a packet (R37): the first of the list for class O, where a link without a key keeps its packets, the least
occupied for class A, and for class V to a package joined directly, a random up port for any other of class V, drawn as a free value. -/
def Sys.egress (y : Sys) (p : Packet) : Option Nat × Sys :=
  let listed := tget y.portLists p.dphys.toNat []
  if p.cls = 0 then ((listed.head?).filter (fun n => (y.port n).lanes != 0), y)
  else if p.cls = 1 || y.direct.contains p.dphys.toNat then
    (((listed.filter (fun n => (y.port n).up)).foldl (fun (acc : Option Nat) n =>
      match acc with
      | some m => if (y.port n).queue.length < (y.port m).queue.length then some n else some m
      | none => some n) none), y)
  else
    let ups := (List.range 18).filter (fun n => (y.port n).up)
    let (r, y1) := takeFree y
    (if ups.isEmpty then none else ups[r.toNat % ups.length]?, y1)

/-- The packet leaves: through the loopback when its physical chip is this package (R131), else on a port's queue; with no port
it goes nowhere. The port it leaves by. -/
def Sys.transmit (y : Sys) (p : Packet) : Nat × Sys :=
  if p.dphys = y.phys then (18, { y with inbox := y.inbox ++ [p] })
  else
    match y.egress p with
    | (some n, y1) => (n, y1.modPort n (fun q => { q with queue := q.queue ++ [p] }))
    | (none, y1) => (19, y1)

/-- A class O packet must wait (R38, R44): a class O request sent to its destination on a port that has failed is unanswered, one of the
same chip under an older generation is, or a packet before it waits. Nothing on the control channel waits. -/
def Sys.holdsO (y : Sys) (p : Packet) : Bool :=
  let fixed := (tget y.portLists p.dphys.toNat []).head?
  p.cls == 0 && p.dphys != y.phys && p.vc != 2 &&
  (y.heldO.any (fun q => q.dphys == p.dphys && q.vc == p.vc) ||
   y.accesses.any (fun b => b.sent && b.isFlight && b.cls == 0 &&
    (match b.packet with
      | some q => (q.dphys == p.dphys && decide (b.via < 18) && fixed.isSome && fixed != some b.via) ||
          (p.isRequest && q.dlog == p.dlog && q.dom == p.dom && newerGen p.gen q.gen)
      | none => false)))

/-- The packet leaves, or waits behind what R38 and R44 name; 20 stands for the port of one that waits. -/
def Sys.dispatch (y : Sys) (p : Packet) : Nat × Sys :=
  if y.holdsO p then (20, { y with heldO := y.heldO ++ [p] }) else y.transmit p

/-- Packets that need wait no more leave in their order, and the accesses whose request one is note its port. -/
def Sys.dispatchHeld (y : Sys) : Sys :=
  y.heldO.foldl (fun z p =>
    let (n, z1) := z.dispatch p
    { z1 with accesses := z1.accesses.map (fun b => if b.via = 20 && b.packet == some p then { b with via := n } else b) })
    { y with heldO := [] }

/-- A packet with the sender's name and colour bits (R32, R41). -/
def Sys.stamp (y : Sys) (part : Nat) (p : Packet) : Packet :=
  let q := y.part part
  { p with
    slog := q.lchip, sphys := y.phys, dom := q.dom
    ca := q.colourA.headerBit, ea := q.colourA.headerBit && q.colourA.epoch
    cb := q.colourB.headerBit, eb := q.colourB.headerBit && q.colourB.epoch }

/-- A counted packet adds 1 to SENT of its channel for each colour whose bit is clear (R199). -/
def Sys.countSent (y : Sys) (part : Nat) (p : Packet) : Sys :=
  if p.isCounted then
    let k := chanKey p.dlog p.cls
    y.modPart part (fun q =>
      { q with
        colourA := if p.ca then q.colourA else { q.colourA with sent := tmod q.colourA.sent k 0 (· + 1) }
        colourB := if p.cb then q.colourB else { q.colourB with sent := tmod q.colourB.sent k 0 (· + 1) } })
  else y

/-- The tick that a time lies in (R47). -/
def Sys.tickOf (y : Sys) (now : Nat) : Nat := now / y.ticklen.toNat

/-- A deterministic packet takes the next DSEQ of its destination and waits for the next tick (R47). -/
def Launch.hold (l : Launch) (tick : Nat) (p : Packet) : Launch :=
  let n := tget l.ticks.dseq p.dlog.toNat 0
  { l with ticks := { l.ticks with
      dseq := tset l.ticks.dseq p.dlog.toNat (n + 1)
      held := l.ticks.held ++ [(tick, { p with det := true, dseq := BitVec.ofNat 32 n })] } }

/-- A packet leaves for the first time: it takes the sender's name and colour bits, is counted, and is transmitted. The port it
leaves by and the packet as sent. -/
def Sys.emit (y : Sys) (part : Nat) (p : Packet) : Nat × Packet × Sys :=
  let p1 := y.stamp part p
  let (n, y1) := (y.countSent part p1).dispatch p1
  (n, p1, y1)

/-- Sends a packet for the first time; a deterministic launch holds it for its tick, unsent. The port, and the packet as it then
stands. -/
def Sys.sendPacket (y : Sys) (now part : Nat) (det : Option Nat) (p : Packet) : Nat × Packet × Sys :=
  match det with
  | some u =>
    let d := match y.launch? u with | some l => tget l.ticks.dseq p.dlog.toNat 0 | none => 0
    (18, { p with det := true, dseq := BitVec.ofNat 32 d }, y.modLaunch u (fun l => l.hold (y.tickOf now) p))
  | none => y.emit part p

/-- A packet with nothing set but its type, class and destination. -/
def blankPacket : Packet :=
  { typ := 0, cls := 0, ca := false, cb := false, det := false, ea := false, eb := false, rsvd := false, dlog := 0, dphys := 0,
    slog := 0, sphys := 0, gen := 0, len := 0, op := 0, sub := 0, dom := 0, offset := 0, tagCore := 0, tagGrp := 0,
    tagSlot := 0, tagE := false, tagPos := 0, dseq := 0, payload := [] }

/-- The count of a final TICKEND (R47). -/
def finalCount : Nat := 0xFFFFFFFF

/-- A job still expects the packet of a member with a DSEQ: the member has not said that it numbered fewer, and that packet has neither
been received nor applied (R47). -/
def TickState.expects (t : TickState) (s : Nat) (d : Nat) : Bool :=
  let es := t.ends.filter (fun e => e.1 == s)
  let sum := fun (l : List (Nat × Nat × Nat)) => (l.filter (fun e => e.2.2 != finalCount)).foldl (fun m e => m + e.2.2) 0
  (!es.any (fun e => e.2.2 == finalCount) || decide (d < sum es)) &&
  decide (sum (es.filter (fun e => decide (e.2.1 < t.applied))) ≤ d) &&
  !t.received.any (fun r => r.1 == s && r.2.dseq.toNat == d)

/-- The deterministic launch of a partition whose job a member's packet belongs to: the oldest that has started and expects it. -/
def Sys.detJob (y : Sys) (part chip d : Nat) : Option Nat :=
  (y.launches.find? (fun l => l.part == part && l.ticks.started && l.record.det && l.ticks.members.contains chip &&
    l.ticks.expects chip d)).map (fun l => l.uid)

/-- The deterministic launch by whose ticks an answer to a member leaves: the oldest that has started and not sent its final TICKEND. With
none the member's ticks here are over, and the answer leaves at once, outside them. -/
def Sys.answerJob (y : Sys) (part chip : Nat) : Option Nat :=
  (y.launches.find? (fun l => l.part == part && l.ticks.started && !l.ticks.finalSent && l.record.det &&
    l.ticks.members.contains chip)).map (fun l => l.uid)

/-- Answers a request: the response carries its class and tag and goes to the sender (R33); the ERRRSP to a request of class 11, which no
packet may carry, is of class O (DESIGN CHOICE, assumption log 61). The response to a deterministic
request waits for its tick as the request did (R47). -/
def Sys.respond (y : Sys) (now part : Nat) (p : Packet) (typ : BitVec 4) (payload : List PUnit) : Sys :=
  let r : Packet := { blankPacket with
    typ := typ, cls := if typ == tNack then p.cls else (if p.cls == 3 then 0 else p.cls), dlog := p.slog, dphys := p.sphys
    gen := (y.remapOf p.dom.toNat p.slog.toNat).gen, len := BitVec.ofNat 6 payload.length, tagCore := p.tagCore
    tagGrp := p.tagGrp, tagSlot := p.tagSlot, tagE := p.tagE, tagPos := p.tagPos, payload := payload }
  (y.sendPacket now part (if p.det then y.answerJob part p.slog.toNat else none) r).2.2

/-! ### The requests that accesses make (R35) -/

/-- The code of an atomic (R316). -/
def AtomOp.code : AtomOp → Nat
  | .addB32 => 0 | .addF32 => 1 | .addBf16x2 => 2 | .minS32 => 3 | .maxS32 => 4 | .minZ32 => 5 | .maxZ32 => 6 | .and => 7
  | .or => 8 | .xor => 9 | .xchg => 10 | .cas => 11 | .incw => 12 | .decw => 13 | .addB64 => 14 | .casB64 => 15
  | .caddF32 => 16 | .caddBf16x2 => 17

/-- The atomic of a code. -/
def atomOf (n : Nat) : Option AtomOp :=
  [AtomOp.addB32, .addF32, .addBf16x2, .minS32, .maxS32, .minZ32, .maxZ32, .and, .or, .xor, .xchg, .cas, .incw, .decw, .addB64,
   .casB64, .caddF32, .caddBf16x2][n]?

/-- The bytes an atomic works on. -/
def AtomOp.size : AtomOp → Nat
  | .addB64 => 8 | .casB64 => 8 | _ => 4

/-- An atomic that counts as a contribution (R186). -/
def AtomOp.contributes : AtomOp → Bool
  | .caddF32 => true | .caddBf16x2 => true | _ => false

/-- The remote offset of an access. -/
def Access.fofs (a : Access) : Nat := match a.target with | .fabric _ _ o => o.toNat | .home _ => 0
def Access.fchip (a : Access) : BitVec 12 := match a.target with | .fabric c _ _ => c | .home _ => 0
def Access.fsub (a : Access) : BitVec 2 := match a.target with | .fabric _ s _ => s | .home _ => 0
def Access.isFabric (a : Access) : Bool := match a.target with | .fabric _ _ _ => true | .home _ => false
def Access.isLoad (a : Access) : Bool := match a.op with | .load _ => true | .bit _ => true | .test _ => true | _ => false

/-- How many bytes an access touches. -/
def AccOp.bytes : AccOp → Nat
  | .load n => n | .store d => d.length | .tape _ _ => 8 | .atomic o _ _ _ => o.size | .exchange n _ => n | .bit _ => 1
  | .decl _ _ => 128 | .domain _ _ _ => 1088 | _ => 16

/-- The bytes of a WRREQ's data and mask: later lanes over earlier ones (R313). -/
def mergeStores (start n : Nat) (as : List Access) : List (Bool × Byte) :=
  as.foldl (fun acc a =>
    match a.op with
    | .store d =>
      let o := a.fofs - start
      acc.mapIdx (fun i x => if o ≤ i && i < o + d.length then (true, d.getD (i - o) 0) else x)
    | _ => acc) (List.replicate n (false, 0))

/-- The engine instance of a request that no group made (R32): the engines of a cluster count as one instance, by the number of the
cluster; the control processors of a die as one more, 192 + its number, since no rule gives their requests a tag. -/
def Access.engineNo (a : Access) : Nat :=
  match a.who with
  | .cp c => 192 + coreDie c
  | _ => coreCluster a.core

/-- The lowest index that no outstanding request of an instance holds. -/
def Sys.freeIndex (y : Sys) (n : Nat) : Nat :=
  let used := (y.accesses.filter Access.isFlight).filterMap (fun b =>
    match b.packet with
    | some q =>
      let t := q.tagCore.toNat + q.tagGrp.toNat * 1024 + q.tagSlot.toNat * 65536
      if q.tagE && t % 256 == n then some (t / 256) else none
    | none => none)
  ((List.range (used.length + 1)).find? (fun i => !used.contains i)).getD 0

/-- The packet of one request: the accesses that share a place in a slot. -/
def requestPacket (y : Sys) (as : List Access) : Packet :=
  match as with
  | [] => blankPacket
  | a :: _ =>
    let e := y.remapOf (y.part a.part).dom.toNat a.fchip.toNat
    let tag : Nat := a.engineNo + y.freeIndex a.engineNo * 256
    let (tc, tg, ts, te) := match a.who, a.slot with
      | .group h, some s =>
        (a.core, (match y.group? h with | some g => g.slot | none => 0), s, false)
      | _, _ => (tag % 1024, tag / 1024 % 64, tag / 65536, true)
    let p : Packet := { blankPacket with
      cls := a.cls, dlog := a.fchip, dphys := e.phys, gen := e.gen, sub := a.fsub, tagCore := BitVec.ofNat 10 tc
      tagGrp := BitVec.ofNat 6 tg, tagSlot := BitVec.ofNat 3 ts, tagE := te, tagPos := BitVec.ofNat 5 a.pos }
    match a.op with
    | .load _ =>
      let lo := as.foldl (fun m (x : Access) => min m (x.fofs / 4)) (a.fofs / 4)
      let hi := as.foldl (fun m (x : Access) => max m ((x.fofs + x.op.bytes + 3) / 4)) 0
      { p with typ := tRdreq, op := BitVec.ofNat 6 (hi - lo - 1), offset := BitVec.ofNat 46 (lo * 4) }
    | .store _ =>
      let lo := as.foldl (fun m (x : Access) => min m (x.fofs / 16)) (a.fofs / 16)
      let hi := as.foldl (fun m (x : Access) => max m ((x.fofs + x.op.bytes + 15) / 16)) 0
      let bs := mergeStores (lo * 16) ((hi - lo) * 16) as
      let mask := (bs.mapIdx (fun i x => if x.1 then 2 ^ i else 0)).foldl (· + ·) 0
      let us := BitVec.ofNat 128 mask :: unitsOf (hi - lo) (bs.map Prod.snd)
      { p with typ := tWrreq, offset := BitVec.ofNat 46 (lo * 16), len := BitVec.ofNat 6 us.length, payload := us }
    | .atomic o ret x c =>
      let code := o.code + if ret then 0 else 32
      let us := [BitVec.ofNat 128 (x.toNat + c.toNat * 2 ^ 64)]
      if o.contributes && !ret then
        { p with typ := tContrib, op := BitVec.ofNat 6 o.code, offset := BitVec.ofNat 46 a.fofs, len := 1, payload := us }
      else { p with typ := tAtreq, op := BitVec.ofNat 6 code, offset := BitVec.ofNat 46 a.fofs, len := 1, payload := us }
    | .decl n b =>
      { p with typ := tAtreq, op := 0x12, offset := BitVec.ofNat 46 a.fofs, len := 1
               payload := [BitVec.ofNat 128 (n.toNat + b.toNat * 2 ^ 64)] }
    | .domain o m _ =>
      { p with typ := tAtreq, op := 0x1F, offset := BitVec.ofNat 46 a.fofs, len := 1
               payload := [BitVec.ofNat 128 (o + m.toNat * 2 ^ 16)] }
    | .coll done us =>
      { p with typ := tColl, cls := 0, sub := 0, op := if done then 1 else 0, offset := 0, len := BitVec.ofNat 6 us.length, payload := us }
    | _ => p

/-- A request's accesses: those of a group's instruction at one place; of an engine or a control processor each access is a request. -/
def Sys.requestOf (y : Sys) (a : Access) : List Access :=
  y.accesses.filter (fun b => b.who == a.who && b.seq == a.seq && b.slot == a.slot && b.pos == a.pos && b.isFabric &&
    b.isFlight && b.fchip == a.fchip && !b.undone == !a.undone && (b.id == a.id || (match a.who with | .group _ => true | _ => false)))

/-- A class O request waits while an earlier one of the package to its chip is unanswered under another generation, or one to the same
physical chip on another port, or while packets before it wait (R38, R44). -/
def Sys.classOHeld (y : Sys) (a : Access) : Bool :=
  let dom := (y.part a.part).dom
  let e := y.remapOf dom.toNat a.fchip.toNat
  let fixed := (tget y.portLists e.phys.toNat []).head?
  a.cls == 0 && (y.heldO.any (fun q => q.dphys == e.phys && q.vc == 0) ||
    y.accesses.any (fun b => b.sent && b.isFlight && b.cls == 0 && b.id < a.id &&
      (match b.packet with
        | some q => (q.dlog == a.fchip && q.dom == dom && q.gen != e.gen) ||
            (q.dphys == e.phys && decide (b.via < 18) && fixed.isSome && fixed != some b.via)
        | none => false)))

/-- A deterministic launch of a group's access. -/
def Sys.detOf (y : Sys) (a : Access) : Option Nat :=
  match a.who, y.launch? a.launch with
  | .group _, some l => if l.record.det then some l.uid else none
  | _, _ => none

/-- A request has left in a packet: its accesses keep the packet and the port, and those sent with a colour bit set are noted for
FREED (R202). -/
def Sys.noteSent (y : Sys) (part : Nat) (ids : List Nat) (via : Nat) (pk : Packet) : Sys :=
  let y1 : Sys := { y with accesses := y.accesses.map (fun b =>
    if ids.contains b.id then { b with packet := some pk, sent := true, via := via } else b) }
  let f := fun (on : Bool) (c : Colour) => if on then { c with bitRequests := c.bitRequests ++ ids } else c
  y1.modPart part (fun q => { q with colourA := f pk.ca q.colourA, colourB := f pk.cb q.colourB })

/-- Sends the request that an access belongs to, unless it has left or is held. One sent before and NACKed goes again to the
destination's present place: it keeps its colour bits and DSEQ and is counted once (R41, R44). -/
def Sys.sendRequest (y : Sys) (now : Nat) (id : Nat) : Sys :=
  match y.access? id with
  | none => y
  | some a =>
    if a.sent || !a.isFlight || y.classOHeld a then y
    else
      let as := y.requestOf a
      match a.packet with
      | some pk =>
        let e := y.remapOf (y.part a.part).dom.toNat a.fchip.toNat
        let p := { pk with dphys := e.phys, gen := e.gen }
        let (via, y1) := y.transmit p
        { y1 with accesses := y1.accesses.map (fun b =>
            if (as.map (fun x => x.id)).contains b.id then { b with packet := some p, sent := true, via := via } else b) }
      | none =>
        let (via, pk, y1) := y.sendPacket now a.part (y.detOf a) (requestPacket y as)
        y1.noteSent a.part (as.map (fun x => x.id)) via pk

/-- The start of a tick releases a packet that a deterministic launch held (R47): a request to where its chip now is. -/
def Sys.release (y : Sys) (part u : Nat) (p : Packet) : Sys :=
  let e := y.remapOf (y.part part).dom.toNat p.dlog.toNat
  let p0 := if p.isRequest then { p with dphys := e.phys, gen := e.gen } else p
  let (via, pk, y1) := y.emit part p0
  let ids := (y1.accesses.filter (fun a => a.launch == u && a.isFlight && a.packet == some p)).map (fun a => a.id)
  y1.noteSent part ids via pk

/-- Sends every request that may leave, in the order of issue: what CLASS_O_HOLD_RELEASE lets go (R44). -/
def Sys.sendAll (y : Sys) (now : Nat) : Sys :=
  (y.accesses.filter (fun a => a.isFabric && !a.sent && a.isFlight)).foldl (fun z a => z.sendRequest now a.id) y.dispatchHeld

end Sys2Proof.Machine
end

