-- ==== Sys2Proof/Machine/Abacus.lean ====
section
/-!
DEFINITION. Abacus (R263): keys of deterministic updates, the watermark of a launch, the pending updates of a line, and ticket
order.
-/
namespace Sys2Proof.Machine

/-- Keys compare by block index, GROUPIX, s and LANE in turn. -/
def AbacusKey.le (a b : AbacusKey) : Bool :=
  decide (a.block < b.block) || (a.block == b.block && (decide (a.gix < b.gix) || (a.gix == b.gix &&
    (decide (a.s < b.s) || (a.s == b.s && decide (a.lane ≤ b.lane))))))

/-- An update has been issued and not yet applied. -/
def Access.updating (a : Access) : Bool := a.abacus.isSome && a.isFlight && !a.undone

/-- The keys that a launch could still deliver: the next key of every lane that has not exited, and those of the updates not yet
applied. -/
def Sys.liveKeys (y : Sys) (launch : Nat) : List AbacusKey :=
  (y.groups.filter (fun g => g.launch == launch && !g.killed)).flatMap (fun g =>
    (lanesOf (g.lanes &&& ~~~g.helpers)).map (fun l =>
      { block := g.blockIndex, gix := g.gix, s := (sget g.updates l).toNat, lane := l })) ++
  (y.accesses.filter (fun a => a.launch == launch && a.updating)).filterMap (fun a => a.abacus)

/-- The watermark of a launch: the smallest of its live keys. -/
def Sys.watermark (y : Sys) (launch : Nat) : Option AbacusKey :=
  (y.liveKeys launch).foldl (fun acc k => match acc with
    | some m => some (if k.le m then k else m)
    | none => some k) none

/-- The line of an update. -/
def Access.line (a : Access) : Nat := match a.target with | .home f => lineOf f | .fabric _ _ _ => 0

/-- The updates that wait at a line. -/
def Sys.pendingUpdates (y : Sys) (line : Nat) : Nat :=
  (y.accesses.filter (fun a => a.updating && a.retryAt.isNone && a.line == line)).length

/-- 64 control clocks, rounded up to whole nanoseconds. -/
def retryDelay : Nat := 35

/-- An update reaches its line: it is NACKed where the line is, or now comes, into ticket order, unless its key is the watermark. -/
def Sys.abacusArrive (y : Sys) (now id : Nat) : Sys :=
  match y.access? id with
  | none => y
  | some a =>
    if !a.updating then y
    else
      let full := y.pendingUpdates a.line - (if a.retryAt.isNone then 1 else 0) ≥ 16
      let y1 : Sys := if full && !y.ticketLines.contains a.line then { y with ticketLines := y.ticketLines ++ [a.line] } else y
      let again := y1.ticketLines.contains a.line && y1.watermark a.launch != a.abacus
      y1.modAccess id (fun x => { x with retryAt := if again then some (now + retryDelay) else none })

/-- An update may apply (R263; R261 rule 4): its key is the watermark, and every lower block's serial phase is over. -/
def Sys.mayApply (y : Sys) (a : Access) : Bool :=
  match a.abacus, y.launch? a.launch with
  | some k, some l => a.retryAt.isNone && y.watermark a.launch == some k && k.block == l.serial
  | _, _ => false

/-- A line without pending updates returns to sorted order. -/
def Sys.settleLine (y : Sys) (line : Nat) : Sys :=
  if y.pendingUpdates line = 0 then { y with ticketLines := y.ticketLines.filter (fun l => l != line) } else y

end Sys2Proof.Machine
end

