-- ==== Sys2Proof/Machine/Access.lean ====
section
/-!
DEFINITION. Issuing memory accesses: the requests of an instruction, the replay of recorded ones (R114), request slots (R35), the
order that classes and fences ask for (R149, R153-R157), and where a result goes (R107, R116).
-/
namespace Sys2Proof.Machine

/-! ### Results -/

/-- The registers that a value of an access is written to: words of a v or k register run, or whole x registers. -/
def destWrites (a : Access) (value : List Byte) : Writes :=
  match a.dest with
  | .v r n => { v := (List.range n).map (fun j => (a.lane, r + j, BitVec.ofNat 64 (field value (4 * j) 4))) }
  | .k r n => { k := (List.range n).map (fun j => (r + j, BitVec.ofNat 64 (field value (4 * j) 4))) }
  | .x r n => { v := (List.range n).map (fun j => (0, r + j, BitVec.ofNat 64 (field value (8 * j) 8))) }
  | _ => {}

/-- A group's registers, and those of its later boundaries, take a result that was asked for by instruction `seq` (R116). -/
def Group.deliver (g : Group) (seq : Nat) (w : Writes) : Group :=
  { g with
    regs := g.regs.write w
    window := g.window.map (fun x => if seq < x.seq then { x with before := x.before.write w } else x) }

/-- The value of a performed access reaches its destination. -/
def Sys.deliver (y : Sys) (a : Access) (value : List Byte) : Sys :=
  match a.who with
  | .group h =>
    if a.undone then y
    else
      match a.dest with
      | .tile id ofs => { y with tileOps := y.tileOps.map (fun t => if t.id = id then { t with rows := t.rows ++ [(ofs, value)] } else t) }
      | _ => y.modGroup h (fun g => g.deliver a.seq (destWrites a value))
  | .cp c => y.modCp c (fun x => x.write (destWrites a value))
  | _ => y

/-- A load of a helper lane: where it would fault it returns 0 and writes no record (R94). -/
def Sys.helperLoad (y : Sys) (a : Access) : Bool :=
  match a.who, a.op, a.dest with
  | .group h, .load _, .v _ _ => (match y.group? h with | some g => g.helpers.getLsbD a.lane | none => false)
  | _, _, _ => false

/-- The load of a helper lane returns 0 (R94). -/
def Sys.zeroLoad (y : Sys) (now : Nat) (a : Access) : Sys :=
  (y.modAccess a.id (fun x => { x with st := .performed [] now })).deliver a []

/-! ### What is covered and done (R147, R153) -/

/-- Only the value of the access was asked for: it is globally performed once it has performed (R147). -/
def AccOp.isRead : AccOp → Bool
  | .load _ => true | .bit _ => true | .test _ => true | _ => false

/-- A load or a returning atomic (R155). -/
def AccOp.returns : AccOp → Bool
  | .load _ => true | .bit _ => true | .test _ => true | .atomic _ r _ _ => r | .exchange _ _ => true | .decl _ _ => true
  | .arrive => true | _ => false

/-- The scope of a fence reaches the access (R153): its class is in the mask, and fabric accesses need .dm or .sy. -/
def Access.covered (a : Access) (classes : BitVec 3) (scope : Nat) : Bool :=
  classes.getLsbD a.cls.toNat && (!a.isFabric || 5 ≤ scope)

/-- The access is globally performed at a scope, or answered with an error (R147, R167). -/
def Access.doneAt (a : Access) (y : Sys) (now scope : Nat) : Bool :=
  match a.st with
  | .inFlight => false
  | .failed _ _ _ _ => true
  | .performed _ gwct =>
    a.op.isRead || scope ≤ 2 || (if scope ≤ 4 then decide (gwct ≤ now) else decide (gwct + y.margin ≤ now))

/-- Every earlier covered access of some lanes is globally performed at the scope (R154). -/
def Sys.released (y : Sys) (now : Nat) (who : Agent) (lanes : LaneMask) (classes : BitVec 3) (scope : Nat) : Bool :=
  y.accesses.all (fun a =>
    !(a.who == who && a.lanes &&& lanes != 0 && !a.undone && a.covered classes scope) || a.doneAt y now scope)

/-- Every earlier covered load and returning atomic of some lanes has performed (R155). -/
def Sys.acquired (y : Sys) (who : Agent) (lanes : LaneMask) (classes : BitVec 3) (scope : Nat) (only : Option Nat) : Bool :=
  y.accesses.all (fun a =>
    !(a.who == who && a.lanes &&& lanes != 0 && !a.undone && a.op.returns && a.covered classes scope &&
      (match only with | some n => a.seq == n | none => true)) || !a.isFlight)

/-- L1 lines that an acquire at a scope invalidates are dropped, and fills in flight are not kept (R155). -/
def Sys.dropLines (y : Sys) (core scope : Nat) : Sys :=
  if scope ≤ 2 then y
  else
    let y1 := y.modCore core (fun c => { c with l1 := c.l1.filter (fun x => x.fabric && scope ≤ 4) })
    { y1 with accesses := y1.accesses.map (fun a =>
      if a.core = core && a.isFlight && a.isLoad && (!a.isFabric || 5 ≤ scope) then { a with mod := 2 } else a) }

/-! ### L1 lines (R138) -/

/-- Where a fabric byte counts from in an L1 line. -/
def flineOf (chip : BitVec 12) (sub : BitVec 2) (ofs : Nat) : Nat := 2 ^ 60 + chip.toNat * 2 ^ 48 + sub.toNat * 2 ^ 46 + ofs

/-- Where the bytes of a fabric access count from in an L1 line. -/
def Access.fline (a : Access) : Nat := flineOf a.fchip a.fsub a.fofs

/-- What is left of a line without some bytes: the runs of the others. -/
def L1Line.without (x : L1Line) (gone : Nat → Bool) : List L1Line :=
  (x.bytes.mapIdx (fun j b => (x.start + j, b))).foldl (fun (acc : List L1Line) b =>
    if gone b.1 then acc
    else
      match acc.getLast? with
      | some z => if z.start + z.bytes.length = b.1 then acc.dropLast ++ [{ z with bytes := z.bytes ++ [b.2] }]
        else acc ++ [{ x with start := b.1, bytes := [b.2] }]
      | none => [{ x with start := b.1, bytes := [b.2] }]) []

/-- The lines of an L1 within its 256 KiB (R14): the 2,048 filled last (DESIGN CHOICE, assumption log 46). -/
def boundLines (l : List L1Line) : List L1Line :=
  let kept := ((l.reverse.map (fun x => lineOf x.start)).eraseDups).take 2048
  l.filter (fun x => kept.contains (lineOf x.start))

/-- A line, or the part of one, is filled: its bytes replace those that stood there. -/
def fillLine (x : L1Line) (l : List L1Line) : List L1Line :=
  boundLines (l.flatMap (fun z => z.without (fun b => decide (x.start ≤ b) && decide (b < x.start + x.bytes.length))) ++ [x])

/-- Some bytes are dropped from a core's L1, and a fill in flight of a line that holds one of them is not kept. -/
def Sys.dropBytes (y : Sys) (core : Nat) (gone : Nat → Bool) : Sys :=
  let y1 := y.modCore core (fun c => { c with l1 := c.l1.flatMap (fun x => x.without gone) })
  let hit := fun (a : Access) =>
    let f := match a.target with | .home f => f | .fabric _ _ _ => a.fline
    (List.range 128).any (fun j => gone (lineOf f * 128 + j))
  { y1 with accesses := y1.accesses.map (fun a => if a.core = core && a.isFlight && a.isLoad && hit a then { a with mod := 2 } else a) }

/-- The core whose L1 an access uses. -/
def Access.l1Core (a : Access) : Option Nat :=
  match a.who with
  | .group _ => some a.core
  | .cp c => some c
  | _ => none

/-- A line with bytes written over those it holds. -/
def L1Line.write (x : L1Line) (fabric : Bool) (f : Nat) (data : List Byte) : L1Line :=
  if x.fabric != fabric then x
  else { x with bytes := x.bytes.mapIdx (fun j b =>
    if f ≤ x.start + j && x.start + j < f + data.length then data.getD (x.start + j - f) 0 else b) }

/-- An 8-byte word of a core's L1 that n bytes reach holds uncorrectable data (R61). -/
def Core.l1Hurt (c : Core) (f n : Nat) : Bool := c.l1Bad.any (fun w => decide (w < f + n) && decide (f < w + 8))

/-- Words of an L1 that n bytes replace whole are good again (R62). -/
def Core.l1Good (c : Core) (f n : Nat) : Core := { c with l1Bad := c.l1Bad.filter (fun w => !(decide (f ≤ w) && decide (w + 8 ≤ f + n))) }

/-- Requests of a core over the fabric that their home, in another package, has applied by now though no answer tells of it (R145). -/
def Sys.appliedAfar (y : Sys) (now c : Nat) : List Access :=
  y.accesses.filter (fun b => b.isFlight && b.isFabric && b.sent && b.l1Core == some c && !b.op.isRead &&
    (y.hostPart (y.part b.part).dom.toNat b.fchip.toNat).isNone && decide (Config.appliedAt b.id ≤ now))

/-- A line as it stands with the stores that homes in other packages have applied; none where one of them was an atomic on it. -/
def L1Line.asApplied (x : L1Line) (bs : List Access) : Option L1Line :=
  bs.foldl (fun (acc : Option L1Line) b => acc.bind (fun z => match b.op with
    | .store d => some (z.write true b.fline d)
    | _ => if lineOf b.fline = lineOf z.start then none else some z)) (some x)

/-- The L1 bytes that serve a fabric load under a live lease, where no earlier access of its lanes to a common byte is still to perform
(R149). -/
def Sys.fabricHit (y : Sys) (now : Nat) (a : Access) : Option (List Byte) :=
  match a.l1Core, a.op with
  | some c, .load n =>
    let before := y.accesses.any (fun b =>
      b.isFlight && b.isFabric && b.who == a.who && b.id < a.id && b.cls == 0 && a.cls == 0 && b.lanes &&& a.lanes != 0 &&
      b.fchip == a.fchip && decide (b.fline < a.fline + n) && decide (a.fline < b.fline + b.op.bytes))
    if before then none
    else
      (((y.core c).l1.find? (fun x => x.fabric && decide (now < x.expiry) && decide (x.start ≤ a.fline) &&
        decide (a.fline + n ≤ x.start + x.bytes.length))).bind (fun x => x.asApplied (y.appliedAfar now c))).map
          (fun x => slice x.bytes (a.fline - x.start) n)
  | _, _ => none

/-- The record of an error that an access meets, with the requester that R79 names. EALCNT after it. -/
def Sys.logAccess (y : Sys) (now : Nat) (a : Access) (c : Cause) (rem remLog : BitVec 8) : Nat × Sys :=
  let y1 := match a.who with
    | .group h =>
      y.logEal now a.part c rem remLog a.ptr .group a.core (match y.group? h with | some g => g.slot | none => 0) a.vf
    | .cp core => y.logEal now a.part c rem remLog a.ptr .cp core 0 a.vf
    | .engine _ => y.logEal now a.part c rem remLog a.ptr .engine a.core 0 a.vf
    | .port _ => y.logEal now a.part c rem remLog a.ptr .port 0 0 a.vf
  ((y1.part a.part).ealcnt, y1)

/-- A fabric load that hits in L1 performs, or meets uncorrectable data there. -/
def Sys.takeHit (y : Sys) (now : Nat) (a : Access) (v : List Byte) : Sys :=
  if (match a.l1Core with | some c => (y.core c).l1Hurt a.fline v.length | none => false) then
    let (n, y1) := y.logAccess now a .ecc 0 0
    y1.modAccess a.id (fun x => { x with st := .failed .ecc 0 0 n })
  else (y.modAccess a.id (fun x => { x with st := .performed v now })).deliver a v

/-- Fabric loads that hit in L1 perform without a packet. -/
def Sys.fabricHits (y : Sys) (now : Nat) : Sys :=
  (y.accesses.filter (fun a => a.isFabric && !a.sent && a.isFlight)).foldl (fun z a =>
    match z.fabricHit now a with
    | some v => z.takeHit now a v
    | none => z) y

/-! ### Requests -/

/-- What one lane asks for: the operation, the pointer, where it leads, where the result goes, and the lanes concerned. -/
structure Req where
  lane : Nat
  lanes : LaneMask
  wait : LaneMask
  op : AccOp
  ptr : Nat
  target : Target
  key : Nat
  dest : Dest
  mod : BitVec 2 := 0
  ordered : Bool := false
  /-- The operation names the access of the request before it (R216). -/
  linked : Bool := false
  /-- A deterministic update (R263). -/
  update : Bool := false
  quarantined : Bool := false
deriving DecidableEq, Repr

/-- The agent that issues. -/
def Iss.agent (i : Iss) : Agent := if i.cp then .cp i.core else .group i.g.handle
/-- The number of the instruction. -/
def Iss.seqNo (i : Iss) : Nat := if i.cp then i.c.nextSeq else i.g.nextSeq

/-- The recorded request that a request of a re-executed instruction answers to (R114). -/
def Sys.recorded (y : Sys) (i : Iss) (r : Req) (op : AccOp) : Option Access :=
  if i.cp then none
  else y.accesses.find? (fun a => a.undone && a.who == .group i.g.handle && a.lane == r.lane && a.pc == i.e.pc && a.op == op &&
    a.ptr == BitVec.ofNat 64 r.ptr)

/-- The launch's deterministic flag. -/
def Iss.det (i : Iss) : Bool := match i.launch with | some l => !i.cp && l.record.det | none => false

/-- A request counts as an update of a deterministic launch (R263): only those to this package do. -/
def Iss.counts (i : Iss) (r : Req) : Bool :=
  r.update && i.det && (match r.target with | .fabric _ _ _ => false | .home _ => true)

/-- The access in flight that a request becomes, with the lane's count of updates. -/
def Iss.newAccess (i : Iss) (cls : BitVec 2) (slot : Option Nat) (pos : Nat) (r : Req) (op : AccOp) (id cur : Nat) : Access :=
  let fab := match r.target with | .fabric _ _ _ => true | .home _ => false
  { id := id, who := i.agent, lane := r.lane, lanes := r.lanes, wait := r.wait, seq := i.seqNo
    pc := if i.cp then i.e.hints.boundary i.e.pc else i.e.pc
    cls := if fab then cls else 0, op := op, ptr := BitVec.ofNat 64 r.ptr, target := r.target, key := r.key, part := i.part
    vf := i.vf, launch := i.g.launch, core := i.core, dest := r.dest, mod := r.mod, ordered := r.ordered
    slot := if fab then slot else none, pos := pos, packet := none, sent := false, via := 0, nacks := 0, sentAt := i.now
    undone := false
    abacus := if i.counts r then some { block := i.g.blockIndex, gix := i.g.gix, s := cur, lane := r.lane } else none
    retryAt := none, quarantined := r.quarantined, st := .inFlight }

/-- A new access stands. A fabric request to a logical chip that does not exist is answered with REMOTE at once, with one record for the
packet it would have been (R40, R79). An update of a deterministic launch reaches its line. -/
def Iss.putAccess (i : Iss) (a : Access) (y : Sys) : Sys :=
  match a.target with
  | .fabric c _ _ =>
    if (y.remapOf (y.part i.part).dom.toNat c.toNat).valid then { y with accesses := y.accesses ++ [a] }
    else
      let told := y.accesses.any (fun x => x.who == a.who && x.seq == a.seq && x.slot.isSome && x.pos == a.pos &&
        (match x.st with | .failed _ _ _ _ => true | _ => false))
      let y1 := if told then y else if i.cp then y.logCp i.now i.core .remote 0 0 a.ptr else y.logGroup i.now i.g .remote 0 0 a.ptr
      { y1 with accesses := y1.accesses ++ [{ a with st := .failed .remote 0 0 (y1.part i.part).ealcnt }] }
  | .home _ =>
    let y1 : Sys := { y with accesses := y.accesses ++ [a] }
    if a.abacus.isSome then y1.abacusArrive i.now a.id else y1

/-- The operation of a request; a tape entry's names the access of the request before it (R216). -/
def Req.opAfter (r : Req) (prev : Nat) : AccOp :=
  if r.linked then (match r.op with | .tape t _ => .tape t prev | o => o) else r.op

/-- The deterministic updates that a lane of the issuing group has made (R263). -/
def Iss.updateCount (i : Iss) (y : Sys) (lane : Nat) : Nat :=
  match y.group? i.g.handle with
  | some g => (sget g.updates lane).toNat
  | none => (sget i.g.updates lane).toNat

/-- Adds one request: a recorded one stands again, with its value, and any other becomes an access in flight. The number of the access. -/
def Iss.addReq (i : Iss) (cls : BitVec 2) (slot : Option Nat) (pos : Nat) (prev : Nat) (r : Req) (y : Sys) : Nat × Sys :=
  let op := r.opAfter prev
  match y.recorded i r op with
  | some a =>
    let y1 := y.modAccess a.id (fun x => { x with seq := i.seqNo, undone := false, wait := r.wait, dest := r.dest })
    match a.st with
    | .performed value _ => (a.id, y1.deliver { a with seq := i.seqNo, undone := false, dest := r.dest } value)
    | _ => (a.id, y1)
  | none =>
    let (id, y1) := y.fresh
    let cur := i.updateCount y1 r.lane
    let y2 := if i.counts r then
      y1.modGroup i.g.handle (fun g => { g with updates := sset g.updates r.lane (BitVec.ofNat 32 (cur + 1)) }) else y1
    (id, i.putAccess (i.newAccess cls slot pos r op id cur) y2)

/-! ### Slots and places (R35) -/

/-- The request slots of a group that are taken. -/
def Sys.slotsOf (y : Sys) (g : Group) : List Nat :=
  (y.accesses.filter (fun a => a.isFlight && a.slot.isSome && a.core == g.core &&
    (a.who == .group g.handle ||
      (match a.packet with | some p => !p.tagE && p.tagGrp == BitVec.ofNat 6 g.slot | none => false)))).filterMap (fun a => a.slot)

/-- The first free request slot. -/
def Sys.freeSlot (y : Sys) (g : Group) : Option Nat := (List.range 8).find? (fun n => !(y.slotsOf g).contains n)

/-- The line of a fabric target: chip, subspace and 128-byte line. -/
def Req.fline (r : Req) : Option (BitVec 12 × BitVec 2 × Nat) :=
  match r.target with
  | .fabric c s o => some (c, s, o.toNat / 128)
  | .home _ => none

/-- The words of its line that a fabric request touches. -/
def Req.words (r : Req) : List Nat :=
  match r.target with
  | .fabric _ _ o => (List.range ((o.toNat % 128 % 4 + r.op.bytes + 3) / 4)).map (fun j => o.toNat % 128 / 4 + j)
  | .home _ => []

/-- The start of the run of touched words that holds a word. -/
def runStart (ws : List Nat) : Nat → Nat
  | 0 => 0
  | w + 1 => if ws.contains w then runStart ws w else w + 1

/-- The key of the packet that a request goes into: a run of words of a line for a load, a line for a store, and the lane for
an atomic (R35). -/
def reqKey (rs : List Req) (r : Req) : List Nat :=
  match r.fline with
  | none => []
  | some (c, s, l) =>
    match r.op with
    | .load _ =>
      let ws := (rs.filter (fun x => x.fline == r.fline)).flatMap Req.words
      [c.toNat, s.toNat, l, runStart ws (r.words.headD 0)]
    | .store _ => [c.toNat, s.toNat, l]
    | _ => [c.toNat, s.toNat, l, r.lane]

/-- The place of a request among those of its instruction: packets in order of their first lane. -/
def reqPos (rs : List Req) (r : Req) : Nat :=
  let ks := ((rs.filter (fun x => x.fline.isSome)).map (reqKey rs)).foldl (fun acc k => if acc.contains k then acc else acc ++ [k]) []
  ks.findIdx (fun k => k == reqKey rs r)

/-- Accesses that nothing can ask about again are forgotten: performed everywhere, outside the window and not recorded. -/
def Sys.forget (y : Sys) (now : Nat) : Sys :=
  { y with accesses := y.accesses.filter (fun a =>
      match a.who, a.st with
      | .group h, .performed _ gwct =>
        (match y.group? h with
          | some g => a.undone || !(a.op.isRead || decide (gwct + 1000 ≤ now)) || g.window.any (fun w => w.seq == a.seq)
          | none => false)
      | .group h, .failed _ _ _ _ => (y.group? h).isSome
      | .cp _, .performed _ gwct => !(a.op.isRead || decide (gwct + 1000 ≤ now))
      | .cp _, .failed _ _ _ _ => false
      | _, _ => true) }

/-! ### Memory instructions -/

/-- What a memory instruction does once its checks have passed. -/
structure Plan where
  writes : Writes := {}
  /-- Registers that become pending, and the lanes. -/
  deferred : List Nat := []
  deferredLanes : LaneMask := 0
  deferredK : List Nat := []
  reqs : List Req := []
  /-- The bytes of tape in use afterwards (R216, R219). -/
  tapep : Option Word := none
  holds : List FenceHold := []
  /-- Free values used. -/
  frees : Nat := 0
deriving DecidableEq, Repr

/-- What a memory instruction decides at issue. -/
inductive Decision where
  | hold
  | trap (c : Cause) (lanes : LaneMask) (addr : DWord)
  | go (p : Plan)
deriving DecidableEq, Repr

/-- Adds the requests of an instruction in order. -/
def Iss.addReqs (i : Iss) (cls : BitVec 2) (slot : Option Nat) (rs : List Req) (y : Sys) : Sys :=
  (rs.foldl (fun (acc : Nat × Sys) r => i.addReq cls slot (reqPos rs r) acc.1 r acc.2) (0, y)).2

/-- The instruction needs a request slot: some fabric request was not recorded. -/
def Iss.needsSlot (i : Iss) (y : Sys) (rs : List Req) : Bool :=
  !i.cp && rs.any (fun r => r.fline.isSome && (y.recorded i r r.op).isNone)

/-- The lanes of .REL must have released (R157): at .pk, or at .dm for a fabric access. -/
def Iss.relHolds (i : Iss) (y : Sys) (rs : List Req) : Bool :=
  i.mod.l && rs.any (fun r => !y.released i.now i.agent r.lanes 7 (if r.fline.isSome then 5 else 4))

/-- The package knows of a domain barrier at a place. -/
def Sys.knowDomain (y : Sys) (t : Target) : Sys := if y.domains.contains t then y else { y with domains := y.domains ++ [t] }

/-- The package knows of the domain barriers that an instruction names. -/
def Sys.knowDomains (y : Sys) (rs : List Req) : Sys :=
  rs.foldl (fun y r => match r.op with | .domain .. => y.knowDomain r.target | _ => y) y

/-- The target is PHASE of a domain barrier that the package knows of: its first four bytes (R210). -/
def Sys.isPhase (y : Sys) (t : Target) : Bool :=
  y.domains.any (fun d => match d, t with
    | .home a, .home b => decide (a ≤ b) && decide (b < a + 4)
    | .fabric c s a, .fabric e u b => c == e && s == u && decide (a.toNat ≤ b.toNat) && decide (b.toNat < a.toNat + 4)
    | _, _ => false)

/-- The acquire of scope .dm that a load of PHASE makes (R164, R211), whatever value it returns (DEDUCED, assumption log 62). -/
def Sys.phaseHold (y : Sys) (rs : List Req) : List FenceHold :=
  let m := (rs.filter (fun r => (match r.op with | .load _ => true | _ => false) && y.isPhase r.target)).foldl (fun (m : LaneMask) r => m ||| r.lanes) 0
  if m = 0 then [] else [{ kind := 1, scope := 5, classes := 7, lanes := m, only := none }]

/-- The fence of .ACQ (R157), and that of a load of PHASE. -/
def Iss.acqHold (i : Iss) (y : Sys) (rs : List Req) : List FenceHold :=
  (if i.mod.q && !rs.isEmpty then
    [{ kind := 1, scope := if rs.any (fun r => r.fline.isSome) then 5 else 4, classes := 7,
       lanes := rs.foldl (fun m r => m ||| r.lanes) 0, only := some i.seqNo }]
  else []) ++ y.phaseHold rs

/-- A memory instruction: the checks of R268 up to step 4, then its own decision. -/
def memWord (d : Iss → Desc) (cls : BitVec 2) (decideIt : Iss → State → Decision) : State → Host.Outcome State Fault Refusal :=
  wordNext (fun i s =>
    let ds := d i
    match i.check s.sys ds with
    | .hold => s.sys
    | .trap c m a => i.trap s.sys c m a
    | .go =>
      match decideIt i s with
      | .hold => s.sys
      | .trap c m a => i.trap s.sys c m a
      | .go p =>
        let slot := if i.needsSlot s.sys p.reqs then s.sys.freeSlot i.g else some 0
        if slot.isNone || i.relHolds s.sys p.reqs then s.sys
        else
          let y := i.commit p.writes (({ s.sys.forget i.now with free := s.sys.free + p.frees } : Sys).knowDomains p.reqs)
          let y1 := if p.deferred.isEmpty then y else i.defer p.deferred p.deferredLanes y
          let y2 := if p.deferredK.isEmpty then y1 else i.deferK p.deferredK y1
          let y3 := match p.tapep with
            | some t => y2.modGroup i.g.handle (fun g => { g with regs := { g.regs with tapep := t } })
            | none => y2
          let y4 := i.addReqs cls slot p.reqs y3
          let kw := p.deferredK ++ (if p.tapep.isSome then [130] else [])
          ((i.fall ds kw (p.holds ++ i.acqHold s.sys p.reqs) y4).fabricHits i.now).sendAll i.now)

end Sys2Proof.Machine
end

