-- ==== Sys2Proof/Machine/LoadStore.lean ====
section
/-!
DEFINITION. Loads and stores (R308-R314), with inversion in differentiable regions (R214-R219, R223), the uniform accesses (R307)
and STQ (R265, R266).
-/
namespace Sys2Proof.Machine

/-! ### Addresses of the lanes -/

/-- A lane's pointer and effective address (R308). -/
def Iss.laneAddr (i : Iss) (a : Nat) (ofs : Int) (lane : Nat) : LaneAddr :=
  let base := (i.a64 lane a).toNat
  { lane := lane, base := base, ea := (((base : Int) + ofs) % (2 ^ 64 : Nat)).toNat }

/-- The check of a lane's address. -/
def Iss.addrFail (i : Iss) (y : Sys) (k : AccKind) (size align : Nat) (a : LaneAddr) : Option (Nat × Cause) :=
  (i.ctx y).failure y i.kcount k size align a

/-- The format entry of a heap address with D = 1 (R214). -/
def AddrCtx.diffEntry (c : AddrCtx) (ea : Nat) : Option FormatEntry :=
  if spaceOf ea = 0 then (c.heap.fmtAt (offsetOf ea)).filter (fun f => f.d) else none

/-- An address reaches a P region (R266): directly, or through the shadow view. -/
def AddrCtx.profile (c : AddrCtx) (ea : Nat) : Bool :=
  let at? := fun (o : Nat) => match c.heap.fmtAt o with | some f => f.p | none => false
  if spaceOf ea = 0 then at? (offsetOf ea)
  else if spaceOf ea = 5 then
    (match c.heap.fmtAt (offsetOf ea) with | some f => at? (f.cell (offsetOf ea)) | none => false)
  else false

/-- The lanes of some addresses. -/
def addrMask (as : List LaneAddr) : LaneMask := maskOf (fun l => as.any (fun a => a.lane == l))

/-- The address reported for some lanes: that of the lowest. -/
def addrFirst (as : List LaneAddr) : DWord := match as with | [] => 0 | a :: _ => BitVec.ofNat 64 a.ea

/-- The home or fabric target of an address that has passed its checks. -/
def Iss.target (i : Iss) (y : Sys) (ea size : Nat) : Option (Target × Nat) :=
  match (i.ctx y).place y i.kcount ea size with
  | .home f k => some (.home f, k)
  | .fabric c s o => some (.fabric c s o, 0)
  | _ => none

/-- The adjoint cell of an element, as a target. -/
def Iss.cellTarget (i : Iss) (y : Sys) (f : FormatEntry) (ea : Nat) : Option (Nat × Nat) :=
  heapFlat (y.part i.part) (i.ctx y).heap (f.cell (offsetOf ea)) 4

/-- The lanes that fail a check at its first failing step, helper lanes left out (R94). -/
def Iss.firstFail (i : Iss) (fs : List (LaneAddr × Option (Nat × Cause))) : Option (Cause × LaneMask × DWord) :=
  firstFailure (fs.filter (fun f => !i.g.helpers.getLsbD f.1.lane))

/-! ### Loads (R310, R311) -/

/-- A load's destination. -/
def Iss.loadDest (i : Iss) (d size : Nat) : Dest := if i.cp then .x d ((size + 7) / 8) else .v d ((size + 3) / 4)

/-- A load whose address passes its checks would raise QUAR (R265) or name a logical chip that does not exist (R40). -/
def Iss.loadFaults (i : Iss) (y : Sys) (ea size : Nat) : Bool :=
  (i.det && (i.ctx y).profile ea) ||
  (match i.target y ea size with
    | some (.fabric c _ _, _) => !(y.remapOf (y.part i.part).dom.toNat c.toNat).valid
    | _ => false)

/-- What a load of the given size does. -/
def loadDecision (o : FormTM) (size : Nat) (i : Iss) (s : State) : Decision :=
  let y := s.sys
  let c := i.ctx y
  let d := o.d.toNat
  let as := (lanesOf (i.act o.g)).map (fun l => i.laneAddr o.a.toNat (i.ofs o.o size) l)
  let fs := as.map (fun a => (a, i.addrFail y .load size size a))
  -- a helper lane whose load would fault receives 0 (R94)
  let ok := (fs.filter (fun f => f.2.isNone && !(i.g.helpers.getLsbD f.1.lane && i.loadFaults y f.1.ea size))).map Prod.fst
  let real := ok.filter (fun a => !i.g.helpers.getLsbD a.lane)
  let inverts := fun (a : LaneAddr) => !i.cp && i.g.adm == 2 && (c.diffEntry a.ea).isSome
  let quar := real.filter (fun a => i.det && c.profile a.ea)
  let conf := real.filter (fun a => inverts a &&
    (match c.diffEntry a.ea with | some f => f.elemSize != size | none => false))
  let lost := real.filter (fun a => inverts a &&
    (match c.diffEntry a.ea with | some f => (i.cellTarget y f a.ea).isNone | none => false))
  match i.firstFail fs with
  | some (x, m, p) => .trap x m p
  | none =>
    if !quar.isEmpty then .trap .quar (addrMask quar) (addrFirst quar)
    else if !conf.isEmpty then .trap .adconf (addrMask conf) (addrFirst conf)
    else if !lost.isEmpty then .trap .limit (addrMask lost) (addrFirst lost)
    else
      let regs := if i.cp then regRange d ((size + 7) / 8) else regRange d ((size + 3) / 4)
      let zero := fun (l : Nat) => regs.map (fun r => (l, r, (0 : DWord)))
      let zeros := (as.filter (fun a => inverts a || !(ok.any (fun b => b.lane == a.lane)))).flatMap (fun a => zero a.lane)
      let consts := (ok.filter (fun a => !inverts a)).flatMap (fun a =>
        match c.place y i.kcount a.ea size, i.launch with
        | .consts ofs, some l =>
          let b := l.constBytes ofs size
          regs.mapIdx (fun j r => (a.lane, r, BitVec.ofNat 64 (field b (4 * j) 4)))
        -- a control processor has no launch: what it reads there is not stated
        | .consts _, none => regs.mapIdx (fun j r => (a.lane, r, Config.freeWord (y.free + j)))
        | _, _ => [])
      let frees := if consts.isEmpty || !i.cp then 0 else regs.length
      let reqs := ok.filterMap (fun a =>
        if inverts a then
          if i.g.helpers.getLsbD a.lane then none
          else
            match c.diffEntry a.ea with
            | some f =>
              (i.cellTarget y f a.ea).map (fun t =>
                { lane := a.lane, lanes := laneBit a.lane, wait := 0
                  op := .atomic .addF32 false ((i.v a.lane d).setWidth 64) 0, ptr := a.ea, target := .home t.1, key := t.2
                  dest := .none, update := true })
            | none => none
        else
          (i.target y a.ea size).map (fun t =>
            { lane := a.lane, lanes := laneBit a.lane, wait := laneBit a.lane, op := .load size, ptr := a.ea, target := t.1
              key := t.2, dest := i.loadDest d size, mod := i.mod.e }))
      .go { writes := { v := zeros ++ consts }, deferred := regs, deferredLanes := i.act o.g, reqs := reqs, frees := frees }

/-- A load: D's alignment in a group is that of its registers (R310). -/
def loadWord (o : FormTM) (size : Nat) : State → Host.Outcome State Fault Refusal :=
  memWord (fun i =>
    { g := o.g, s := o.s, cls := some o.c, mem := true, immOk := true, leaseOk := true, acqOk := true
      dst := if i.cp then regRange o.d.toNat ((size + 7) / 8) else regRange o.d.toNat ((size + 3) / 4)
      a := pair i.cp o.a.toNat, afk := true, even := [o.a.toNat]
      bad := !i.cp && o.d.toNat % ((size + 3) / 4) != 0 }) o.c (loadDecision o size)

/-- LD8 (R311). -/
def execLd8 (o : FormTM) := loadWord o 1
/-- LD16 (R311). -/
def execLd16 (o : FormTM) := loadWord o 2
/-- LD32 (R311). -/
def execLd32 (o : FormTM) := loadWord o 4
/-- LD64 (R311). -/
def execLd64 (o : FormTM) := loadWord o 8
/-- LD128 (R311). Its two halves perform in one step: R148 makes no promise of it (DESIGN CHOICE, assumption log 61). -/
def execLd128 (o : FormTM) := loadWord o 16

/-! ### Stores (R312) -/

/-- The bytes that a lane stores: v[D..] of a group, x[D..] of the control processor. -/
def Iss.storeData (i : Iss) (d lane size : Nat) : List Byte :=
  if i.cp then ((regRange d ((size + 7) / 8)).flatMap (fun r => bytesOf 8 (i.v64 0 r).toNat)).take size
  else ((regRange d ((size + 3) / 4)).flatMap (fun r => bytesOf 4 (i.v lane r).toNat)).take size

/-- The tag of an element (R216). -/
def tapeTag (ea : Nat) : Word := BitVec.ofNat 32 (offsetOf ea)

/-- The check of the n tape entries from a tape offset on (R216): heap space, then R126 entry by entry. -/
def Iss.tapeFail (i : Iss) (y : Sys) (k : AccKind) (at_ n : Nat) : Option (Cause × Nat) :=
  ((List.range n).map (fun j => i.g.tapeb.toNat + at_ + 8 * j)).findSome? (fun p =>
    if spaceOf p != 0 then some (.space, p)
    else match i.addrFail y k 8 8 { lane := 0, base := p, ea := p } with
      | some (_, c) => some (c, p)
      | none => none)

/-- The bytes of memory at a heap pointer as a load by the group's block finds them, and the error that reading them meets. -/
def Iss.peek (i : Iss) (s : State) (p n : Nat) : Except Cause (List Byte) :=
  match i.target s.sys p n with
  | some (.home f, k) =>
    (match s.sys.readError f n k with
      | some c => .error c
      | none =>
        .ok (match i.launch with
          | some l => if i.det then l.ownView s.mem i.g.blockIndex f n else readBytes s.mem f n
          | none => readBytes s.mem f n))
  | _ => .error .limit

/-- A group's stores to some bytes are still in flight. -/
def Sys.storesPending (y : Sys) (h : Nat) (f n : Nat) : Bool :=
  y.accesses.any (fun a => a.who == .group h && a.isFlight && !a.undone && !a.op.isRead &&
    (match a.target with
      | .home g => decide (g < f + n) && decide (f < g + a.op.bytes)
      | .fabric _ _ _ => false))

/-- An ordinary lane's store. -/
def Iss.plainStore (i : Iss) (y : Sys) (d size : Nat) (a : LaneAddr) : Option Req :=
  (i.target y a.ea size).map (fun t =>
    { lane := a.lane, lanes := laneBit a.lane, wait := 0, op := .store (i.storeData d a.lane size), ptr := a.ea, target := t.1
      key := t.2, dest := .none })

/-- Some ADRAIN.U of the launch into a differentiable region is in flight (R222): also one that a return to a boundary has undone, whose
stores are still performed (R115). -/
def Iss.drainsInFlight (i : Iss) (y : Sys) : Bool :=
  y.accesses.any (fun a => a.launch == i.g.launch && a.mod == 3 && a.isFlight &&
    (match a.who with | .group _ => true | _ => false))

/-- A forward-mode store (R216). -/
def forwardStore (d size : Nat) (i : Iss) (s : State) (c : AddrCtx) (as : List LaneAddr) : Decision :=
  let y := s.sys
  let inv := as.filter (fun a => (c.diffEntry a.ea).isSome)
  let n := inv.length
  let p := i.g.regs.tapep.toNat
  if n != 0 && i.g.tapel.toNat < p + 8 * n then .trap .tapeovf (addrMask inv) (addrFirst inv)
  else
    match i.tapeFail y .store p n with
    | some (x, at_) => .trap x (addrMask inv) (BitVec.ofNat 64 at_)
    | none =>
      if n != 0 && p == 0 && i.drainsInFlight y then .hold
      else
        let step := fun (acc : Nat × List Req) (a : LaneAddr) =>
          if (c.diffEntry a.ea).isSome then
            let t := i.g.tapeb.toNat + acc.1
            match i.target y a.ea size, i.target y t 8 with
            | some e, some q =>
              (acc.1 + 8, acc.2 ++
                [{ lane := a.lane, lanes := laneBit a.lane, wait := 0
                   op := .exchange size (BitVec.ofNat 32 (numOf (i.storeData d a.lane size))), ptr := a.ea, target := e.1
                   key := e.2, dest := .none, ordered := true },
                 { lane := a.lane, lanes := laneBit a.lane, wait := 0, op := .tape (tapeTag a.ea) 0, ptr := t, target := q.1
                   key := q.2, dest := .none, ordered := true, linked := true }])
            | _, _ => acc
          else
            match i.plainStore y d size a with
            | some r => (acc.1, acc.2 ++ [r])
            | none => acc
        let res := as.foldl step (p, [])
        .go { reqs := res.2, tapep := if n = 0 then none else some (BitVec.ofNat 32 res.1) }

/-- The tape entry of an inverting lane in reverse mode (R219): the highest lane takes the entry below TAPEP. -/
def tapeEntryOf (top : Nat) (inv : List LaneAddr) (a : LaneAddr) : Nat :=
  top - 8 * ((inv.filter (fun b => a.lane ≤ b.lane)).length)

/-- The heap load of a lane's tape entry (R219): what a load does at its home, the claim of a frame (R59) and the touch of a line (R261), it
does too. Its value is taken at issue (assumption log 35). -/
def Iss.tapeLoad (i : Iss) (y : Sys) (at_ : Nat) (a : LaneAddr) : Option Req :=
  (i.target y at_ 8).map (fun t =>
    { lane := a.lane, lanes := laneBit a.lane, wait := 0, op := .load 8, ptr := at_, target := t.1, key := t.2, dest := .none, ordered := true })

/-- A reverse-mode store (R219). -/
def reverseStore (d size : Nat) (i : Iss) (s : State) (c : AddrCtx) (act : LaneMask) (as : List LaneAddr) : Decision :=
  let y := s.sys
  let inv := as.filter (fun a => (c.diffEntry a.ea).isSome)
  let n := inv.length
  let p := i.g.regs.tapep.toNat
  if p < 8 * n then .trap .tapeund (addrMask inv) (addrFirst inv)
  else
    match i.tapeFail y .load (p - 8 * n) n with
    | some (x, at_) => .trap x (addrMask inv) (BitVec.ofNat 64 at_)
    | none =>
      let base := i.g.tapeb.toNat
      let pend := inv.any (fun a =>
        match i.target y (base + tapeEntryOf p inv a) 8 with
        | some (.home f, _) => y.storesPending i.g.handle f 8
        | _ => false)
      if pend then .hold
      else
        let entry := fun (a : LaneAddr) => i.peek s (base + tapeEntryOf p inv a) 8
        let err := inv.filter (fun a => match entry a with | .error _ => true | .ok _ => false)
        let old := fun (a : LaneAddr) => match entry a with | .ok b => b | .error _ => []
        -- an entry that reads with an error has no tag to compare; TAPEMIS comes before KEY and ECC (R223)
        let mis := inv.filter (fun a => match entry a with | .error _ => false | .ok b => BitVec.ofNat 32 (field b 4 4) != tapeTag a.ea)
        if !mis.isEmpty then .trap .tapemis (addrMask mis) (addrFirst mis)
        else match err with
        | a :: _ =>
          .trap (match entry a with | .error x => x | .ok _ => .ecc) (addrMask err)
            (BitVec.ofNat 64 (base + tapeEntryOf p inv a))
        | [] =>
            let step := fun (a : LaneAddr) =>
              match c.diffEntry a.ea with
              | some f =>
                (match i.cellTarget y f a.ea, i.target y a.ea size with
                  | some t, some e =>
                    (i.tapeLoad y (base + tapeEntryOf p inv a) a).toList ++
                    [{ lane := a.lane, lanes := laneBit a.lane, wait := laneBit a.lane, op := .exchange 4 0, ptr := a.ea
                       target := .home t.1, key := t.2, dest := .v d 1, ordered := true, update := true },
                     { lane := a.lane, lanes := laneBit a.lane, wait := 0, op := .store ((old a).take size), ptr := a.ea
                       target := e.1, key := e.2, dest := .none, ordered := true }]
                  | _, _ => ([] : List Req))
              | none => (i.plainStore y d size a).toList
            let helpers := lanesOf (act &&& i.g.helpers)
            .go { writes := { v := helpers.map (fun l => (l, d, 0)) }
                  deferred := if n = 0 && helpers.isEmpty then [] else [d]
                  deferredLanes := addrMask inv ||| (act &&& i.g.helpers)
                  reqs := as.reverse.flatMap step
                  tapep := if n = 0 then none else some (BitVec.ofNat 32 (p - 8 * n)) }

/-- What a store of the given size does. -/
def storeDecision (o : FormTM) (size : Nat) (i : Iss) (s : State) : Decision :=
  let y := s.sys
  let c := i.ctx y
  let d := o.d.toNat
  let as := (lanesOf (i.real (i.act o.g))).map (fun l => i.laneAddr o.a.toNat (i.ofs o.o size) l)
  let fs := as.map (fun a => (a, i.addrFail y .store size size a))
  let mode := if i.cp then 0 else i.g.adm.toNat
  let conf := as.filter (fun a => mode != 0 &&
    (match c.diffEntry a.ea with | some f => f.elemSize != size | none => false))
  let lost := as.filter (fun a => mode == 2 &&
    (match c.diffEntry a.ea with | some f => (i.cellTarget y f a.ea).isNone | none => false))
  match i.firstFail fs with
  | some (x, m, p) => .trap x m p
  | none =>
    if !conf.isEmpty then .trap .adconf (addrMask conf) (addrFirst conf)
    else if !lost.isEmpty then .trap .limit (addrMask lost) (addrFirst lost)
    else if mode = 1 then forwardStore d size i s c as
    else if mode = 2 then
      -- a helper lane whose access inverts receives 0 (R219)
      let h := maskOf (fun l => (i.act o.g &&& i.g.helpers).getLsbD l &&
        (c.diffEntry (i.laneAddr o.a.toNat (i.ofs o.o size) l).ea).isSome)
      reverseStore d size i s c h as
    else .go { reqs := as.filterMap (i.plainStore y d size) }

/-- A store: the data registers are read (R312). -/
def storeWord (o : FormTM) (size : Nat) : State → Host.Outcome State Fault Refusal :=
  memWord (fun i =>
    { g := o.g, s := o.s, cls := some o.c, mem := true, immOk := true, relOk := true
      src := if i.cp then regRange o.d.toNat ((size + 7) / 8) else regRange o.d.toNat ((size + 3) / 4)
      a := pair i.cp o.a.toNat, afk := true, even := [o.a.toNat]
      bad := !i.cp && o.d.toNat % ((size + 3) / 4) != 0 }) o.c (storeDecision o size)

/-- ST8 (R312). -/
def execSt8 (o : FormTM) := storeWord o 1
/-- ST16 (R312). -/
def execSt16 (o : FormTM) := storeWord o 2
/-- ST32 (R312). -/
def execSt32 (o : FormTM) := storeWord o 4
/-- ST64 (R312). -/
def execSt64 (o : FormTM) := storeWord o 8
/-- ST128 (R312). Its two halves perform in one step, as those of LD128 do (assumption log 61). -/
def execSt128 (o : FormTM) := storeWord o 16

/-! ### Uniform accesses (R307) -/

/-- The pointer of a uniform access. -/
def Iss.uniAddr (i : Iss) (a : Nat) (lane : Nat) : LaneAddr :=
  { lane := lane, base := (i.k64 a).toNat, ea := (i.k64 a).toNat }

/-- A uniform load or store: one access of every lane whose guard holds, made by the lowest of them. -/
def uniDecision (o : FormTF) (size : Nat) (store : Bool) (i : Iss) (s : State) : Decision :=
  let y := s.sys
  let c := i.ctx y
  let lanes := i.real (i.act o.g)
  match i.first? o.g with
  | none => .go {}
  | some l =>
    let a := i.uniAddr o.a.toNat l
    match i.addrFail y (if store then .store else .load) size size a with
    | some (_, x) => .trap x lanes (BitVec.ofNat 64 a.ea)
    | none =>
      if !store && i.det && c.profile a.ea then .trap .quar lanes (BitVec.ofNat 64 a.ea)
      else if !i.cp && i.g.adm != 0 && (c.diffEntry a.ea).isSome then .trap .adconf lanes (BitVec.ofNat 64 a.ea)
      else
        let n := if i.cp then 1 else size / 4
        let regs := regRange o.d.toNat n
        if store then
          let data := bytesOf 4 (i.k o.d.toNat).toNat
          .go { reqs := ((i.target y a.ea size).map (fun t =>
            { lane := l, lanes := lanes, wait := 0, op := .store data, ptr := a.ea, target := t.1, key := t.2, dest := .none })).toList }
        else
          match c.place y i.kcount a.ea size, i.launch with
          | .consts ofs, some x =>
            let b := x.constBytes ofs size
            .go { writes := { k := regs.mapIdx (fun j r => (r, BitVec.ofNat 64 (field b (4 * j) 4))) }, deferredK := regs }
          | .consts _, none =>
            .go { writes := { k := regs.mapIdx (fun j r => (r, Config.freeWord (y.free + j))) }, deferredK := regs
                  frees := regs.length }
          | _, _ =>
            .go { deferredK := regs
                  reqs := ((i.target y a.ea size).map (fun t =>
              { lane := l, lanes := lanes, wait := i.e.mask, op := .load size, ptr := a.ea, target := t.1, key := t.2
                dest := if i.cp then .x o.d.toNat 1 else .k o.d.toNat n, mod := i.mod.e })).toList }

/-- A uniform access's registers. -/
def uniDesc (o : FormTF) (size : Nat) (store : Bool) (i : Iss) : Desc :=
  { g := o.g, s := o.s, mem := true, cls := some 0, leaseOk := !store, acqOk := !store, relOk := store
    ks := pair i.cp o.a.toNat ++ (if store then [o.d.toNat] else [])
    kd := if store then [] else if i.cp then [o.d.toNat] else regRange o.d.toNat (size / 4)
    even := if size = 8 then [o.a.toNat, o.d.toNat] else [o.a.toNat] }

/-- KLD32 (R307). -/
def execKld32 (o : FormTF) := memWord (uniDesc o 4 false) 0 (uniDecision o 4 false)
/-- KLD64 (R307). -/
def execKld64 (o : FormTF) := memWord (uniDesc o 8 false) 0 (uniDecision o 8 false)
/-- KST32 (R307). -/
def execKst32 (o : FormTF) := memWord (uniDesc o 4 true) 0 (uniDecision o 4 true)

/-! ### STQ (R265, R266) -/

/-- STQ: q[D] to the heap pointer of each active non-helper lane. -/
def stqDecision (o : FormStq) (i : Iss) (s : State) : Decision :=
  let y := s.sys
  let c := i.ctx y
  let as := (lanesOf (i.real (i.act o.g))).map (fun l =>
    { lane := l, base := (i.v64 l o.a.toNat).toNat, ea := (i.v64 l o.a.toNat).toNat : LaneAddr })
  let fs := as.map (fun a => (a, if spaceOf a.ea != 0 then some (1, Cause.space) else i.addrFail y .store 8 8 a))
  let quar := as.filter (fun a => !c.profile a.ea)
  match i.firstFail fs with
  | some (x, m, p) => .trap x m p
  | none =>
    let conf := as.filter (fun a => i.g.adm != 0 && (c.diffEntry a.ea).isSome)
    if !quar.isEmpty then .trap .quar (addrMask quar) (addrFirst quar)
    -- an inverted access is one element (R215), and no element has 8 bytes
    else if !conf.isEmpty then .trap .adconf (addrMask conf) (addrFirst conf)
    else
      .go { reqs := as.filterMap (fun a => (i.target y a.ea 8).map (fun t =>
        { lane := a.lane, lanes := laneBit a.lane, wait := 0, op := .store (bytesOf 8 (sget i.g.q o.d.toNat).toNat), ptr := a.ea
          target := t.1, key := t.2, dest := .none, quarantined := true })) }

/-- STQ (R266): issues only when the window holds no memory access (R113). -/
def execStq (o : FormStq) : State → Host.Outcome State Fault Refusal :=
  memWord (fun _ =>
    { g := o.g, s := o.s, src := [o.a.toNat, o.a.toNat + 1], even := [o.a.toNat], agents := .groupOnly, mem := true
      drained := true }) 0 (stqDecision o)

end Sys2Proof.Machine
end

