-- ==== Sys2Proof/Machine/Atomic.lean ====
section
/-!
DEFINITION. Atomics and contribution instructions (R315-R318) as they issue; what they do at the home is in Machine/Home.lean.
-/
namespace Sys2Proof.Machine

/-- The fields of an ATOM word (R315). -/
structure AtomWord where
  s : Bool
  d : Nat
  a : Nat
  c : BitVec 2
  ret : Bool
  g : BitVec 3
deriving DecidableEq, Repr

def FormAtom.word (o : FormAtom) : AtomWord := { s := o.s, d := o.d.toNat, a := o.a.toNat, c := o.c, ret := !o.n, g := o.g }
def FormAtomRet.word (o : FormAtomRet) : AtomWord := { s := o.s, d := o.d.toNat, a := o.a.toNat, c := o.c, ret := true, g := o.g }

/-- The registers that an atomic's operands lie in (R316, R317). -/
def AtomOp.operands (k : AtomOp) (cp : Bool) (d : Nat) : List Nat :=
  match k with
  | .cas => [d, d + 1]
  | .addB64 => pair cp d
  | .casB64 => if cp then [d, d + 1] else regRange d 4
  | _ => [d]

/-- The registers that take the old value. -/
def AtomOp.results (k : AtomOp) (cp : Bool) (d : Nat) : List Nat := if k.size = 8 then pair cp d else [d]

/-- A lane's operand a and comparand c. -/
def Iss.atomArgs (i : Iss) (k : AtomOp) (d lane : Nat) : DWord × DWord :=
  match k with
  | .cas => ((i.v lane d).setWidth 64, (i.v lane (d + 1)).setWidth 64)
  | .addB64 => (i.v64 lane d, 0)
  | .casB64 => (i.v64 lane d, i.v64 lane (if i.cp then d + 1 else d + 2))
  | _ => ((i.v lane d).setWidth 64, 0)

/-- The lanes of an atomic, their addresses checked: R126, QUAR, then ADCONF (R317). `mk` makes a lane's request. -/
def atomicDecision (w : AtomWord) (size align : Nat) (res : List Nat) (mk : LaneAddr → Target × Nat → Req) (i : Iss) (s : State) :
    Decision :=
  let y := s.sys
  let c := i.ctx y
  let as := (lanesOf (i.real (i.act w.g))).map (fun l => i.laneAddr w.a 0 l)
  let fs := as.map (fun a => (a, i.addrFail y .atomic size align a))
  let quar := as.filter (fun a => i.det && c.profile a.ea)
  let conf := as.filter (fun a => !i.cp && i.g.adm != 0 && (c.diffEntry a.ea).isSome)
  match i.firstFail fs with
  | some (x, m, p) => .trap x m p
  | none =>
    if !quar.isEmpty then .trap .quar (addrMask quar) (addrFirst quar)
    else if !conf.isEmpty then .trap .adconf (addrMask conf) (addrFirst conf)
    else
      let helpers := lanesOf (i.act w.g &&& i.g.helpers)
      .go { writes := { v := if w.ret then helpers.flatMap (fun l => res.map (fun r => (l, r, 0))) else [] }
            deferred := if w.ret then res else []
            deferredLanes := i.act w.g
            reqs := as.filterMap (fun a => (i.target y a.ea size).map (mk a)) }

/-- An atomic of R316. -/
def atomicWord (w : AtomWord) (k : AtomOp) : State → Host.Outcome State Fault Refusal :=
  memWord (fun i =>
    { g := w.g, s := w.s, cls := some w.c, mem := true, acqOk := w.ret, relOk := true
      src := k.operands i.cp w.d, dst := if w.ret then k.results i.cp w.d else []
      a := pair i.cp w.a, afk := true, even := if k.size = 8 then [w.a, w.d] else [w.a] }) w.c
    (fun i s => atomicDecision w k.size k.size (k.results i.cp w.d) (fun a t =>
      let (x, c) := i.atomArgs k w.d a.lane
      { lane := a.lane, lanes := laneBit a.lane, wait := if w.ret then laneBit a.lane else 0, op := .atomic k w.ret x c
        ptr := a.ea, target := t.1, key := t.2
        dest := if !w.ret then .none else if i.cp then .x w.d 1 else .v w.d (k.size / 4), update := true }) i s)

/-- ATOM_ADD_B32 (R316). -/
def execAtomAddB32 (o : FormAtom) := atomicWord (FormAtom.word o) .addB32
/-- ATOM_ADD_F32 (R316). -/
def execAtomAddF32 (o : FormAtom) := atomicWord (FormAtom.word o) .addF32
/-- ATOM_ADD_BF16X2 (R316). -/
def execAtomAddBf16x2 (o : FormAtom) := atomicWord (FormAtom.word o) .addBf16x2
/-- ATOM_MIN_S32 (R316). -/
def execAtomMinS32 (o : FormAtom) := atomicWord (FormAtom.word o) .minS32
/-- ATOM_MAX_S32 (R316). -/
def execAtomMaxS32 (o : FormAtom) := atomicWord (FormAtom.word o) .maxS32
/-- ATOM_MIN_Z32 (R316). -/
def execAtomMinZ32 (o : FormAtom) := atomicWord (FormAtom.word o) .minZ32
/-- ATOM_MAX_Z32 (R316). -/
def execAtomMaxZ32 (o : FormAtom) := atomicWord (FormAtom.word o) .maxZ32
/-- ATOM_AND (R316). -/
def execAtomAnd (o : FormAtom) := atomicWord (FormAtom.word o) .and
/-- ATOM_OR (R316). -/
def execAtomOr (o : FormAtom) := atomicWord (FormAtom.word o) .or
/-- ATOM_XOR (R316). -/
def execAtomXor (o : FormAtom) := atomicWord (FormAtom.word o) .xor
/-- ATOM_XCHG (R316). -/
def execAtomXchg (o : FormAtomRet) := atomicWord (FormAtomRet.word o) .xchg
/-- ATOM_CAS (R316). -/
def execAtomCas (o : FormAtomRet) := atomicWord (FormAtomRet.word o) .cas
/-- ATOM_INCW (R316). -/
def execAtomIncw (o : FormAtom) := atomicWord (FormAtom.word o) .incw
/-- ATOM_DECW (R316). -/
def execAtomDecw (o : FormAtom) := atomicWord (FormAtom.word o) .decw
/-- ATOM_ADD_B64 (R316). -/
def execAtomAddB64 (o : FormAtom) := atomicWord (FormAtom.word o) .addB64
/-- ATOM_CAS_B64 (R316). -/
def execAtomCasB64 (o : FormAtomRet) := atomicWord (FormAtomRet.word o) .casB64
/-- ATOM_CADD_F32 (R318). -/
def execAtomCaddF32 (o : FormAtom) := atomicWord (FormAtom.word o) .caddF32
/-- ATOM_CADD_BF16X2 (R318). -/
def execAtomCaddBf16x2 (o : FormAtom) := atomicWord (FormAtom.word o) .caddBf16x2

/-- The barrier pointer of a CDECL as it leaves: for a fabric line, RANK 255 names the cluster of the issuer's own rank (R318). -/
def Iss.declBar (i : Iss) (y : Sys) (t : Target) (bar : DWord) : DWord :=
  match t with
  | .fabric _ _ _ =>
    if spaceOf bar.toNat = 2 && rankOf bar.toNat = 255 then
      BitVec.ofNat 64 (bar.toNat - 255 * 2 ^ 52 + (y.part i.part).rankOfCore i.core * 2 ^ 52)
    else bar
  | .home _ => bar

/-- ATOM_CDECL (R318). -/
def execAtomCdecl (o : FormAtomRet) : State → Host.Outcome State Fault Refusal :=
  let w := FormAtomRet.word o
  memWord (fun i =>
    { g := w.g, s := w.s, cls := some w.c, mem := true, acqOk := true, relOk := true
      src := if i.cp then [w.d, w.d + 1] else [w.d, w.d + 2, w.d + 3], dst := [w.d]
      a := pair i.cp w.a, afk := true, even := [w.a, w.d] }) w.c
    (fun i s => atomicDecision w 128 128 [w.d] (fun a t =>
      let bar := if i.cp then i.v64 0 (w.d + 1) else i.v64 a.lane (w.d + 2)
      { lane := a.lane, lanes := laneBit a.lane, wait := laneBit a.lane
        op := .decl (i.v a.lane w.d) (i.declBar s.sys t.1 bar), ptr := a.ea, target := t.1, key := t.2
        dest := if i.cp then .x w.d 1 else .v w.d 1, update := true }) i s)

end Sys2Proof.Machine
end

