-- ==== Sys2Proof/Machine/Control.lean ====
section
/-!
DEFINITION. Branches, calls, jumps, RJOIN and EXIT (R105, R110, R302-R305) and the hints (R275, R276).
-/
namespace Sys2Proof.Machine

/-! ### Branches -/

/-- The distinct values of a list, in order of first appearance. -/
def distinct (l : List Word) : List Word := l.foldl (fun acc x => if acc.contains x then acc else acc ++ [x]) []

/-- The entries that lanes with the given next PCs form: equal PCs together (R105). -/
def Iss.partsBy (i : Iss) (next : Nat → Word) : List (LaneMask × Word × EntryState × List FenceHold) :=
  let ls := lanesOf i.e.mask
  (distinct (ls.map next)).map (fun pc => (i.e.mask &&& maskOf (fun l => next l == pc), pc, .ready, []))

/-- A branch, call or jump: `target` of each lane, `uni` whether the entry's lanes must agree, `link` whether v127 takes the
return offset. `differs` says when non-helper lanes disagree; `checkAlign` is the ALIGN check of the jumps (R303). -/
def branchWord (d : Iss → Desc) (uni link checkAlign : Bool) (target : Iss → Nat → Word) : State → Host.Outcome State Fault Refusal :=
  wordNext (fun i s =>
    let ds := d i
    match i.check s.sys ds with
    | .hold => s.sys
    | .trap c m a => i.trap s.sys c m a
    | .go =>
      let takes := fun l => i.guardAt ds.g (i.g.leader l)
      let real := lanesOf (i.real i.e.mask)
      let taking := real.filter takes
      let dest := fun l => target i (i.g.leader l)
      let disagree :=
        if checkAlign then (distinct (taking.map dest)).length > 1
        else !taking.isEmpty && taking.length != real.length
      if uni && !i.cp && disagree then i.trap s.sys .uniform i.e.mask 0
      else
        let off := taking.filter (fun l => checkAlign && (dest l).toNat % 4 != 0)
        match off with
        | l :: _ => i.trap s.sys .align (maskOf (fun x => off.contains x)) ((dest l).setWidth 64)
        | [] =>
          let ret := (i.e.pc + 4).setWidth 64
          let ws : Writes := { v := if link then ((lanesOf i.e.mask).filter takes).map (fun l => (l, 127, ret)) else [] }
          let y := i.commit ws s.sys
          if i.cp then i.placeCp ds (if takes 0 then dest 0 else i.e.pc + 4) [] y
          else
            i.place ds (i.partsBy (fun l => if takes l then dest l else i.e.pc + 4)) (i.pushWindow ds.mem [] y))

/-- The target of a TB word (R271). -/
def tbTarget (o : FormTB) (i : Iss) (_ : Nat) : Word := i.e.pc + (o.e.signExtend 32 <<< 2)

/-- BRA (R302). -/
def execBra (o : FormTB) : State → Host.Outcome State Fault Refusal :=
  branchWord (fun _ => { g := o.g, s := o.s }) o.u false false (tbTarget o)

/-- CALL (R302). -/
def execCall (o : FormTB) : State → Host.Outcome State Fault Refusal :=
  branchWord (fun _ => { g := o.g, s := o.s, dst := [127] }) o.u true false (tbTarget o)

/-- JMPI (R303). -/
def execJmpi (o : FormJump) : State → Host.Outcome State Fault Refusal :=
  branchWord (fun _ => { g := o.g, s := o.s, a := [o.a.toNat], afk := true }) o.u false true (fun i l => i.a l o.a.toNat)

/-- CALLI (R303). -/
def execCalli (o : FormJump) : State → Host.Outcome State Fault Refusal :=
  branchWord (fun _ => { g := o.g, s := o.s, a := [o.a.toNat], afk := true, dst := [127] }) o.u true true
    (fun i l => i.a l o.a.toNat)

/-- RET (R303). -/
def execRet (o : FormJump) : State → Host.Outcome State Fault Refusal :=
  branchWord (fun _ => { g := o.g, s := o.s, a := [o.a.toNat], afk := true }) o.u false true (fun i l => i.a l o.a.toNat)

/-- JMPK (R303). -/
def execJmpk (o : FormA) : State → Host.Outcome State Fault Refusal :=
  branchWord (fun _ => { g := o.g, s := o.s, ks := [o.a.toNat] }) false false true (fun i _ => i.k o.a.toNat)

/-! ### RJOIN and EXIT -/

/-- RJOIN (R110, R304): a NOP with an empty J and on the control processor; otherwise the entry waits at the RJOIN. -/
def execRjoin (o : FormS) : State → Host.Outcome State Fault Refusal :=
  wordNext (fun i s =>
    let ds : Desc := { g := 7, s := o.s, guardOk := false, modOk := false }
    match i.check s.sys ds with
    | .hold => s.sys
    | .trap c m a => i.trap s.sys c m a
    | .go =>
      if i.cp || i.e.j = 0 then i.fall ds [] [] s.sys
      else i.place { ds with s := false } [(i.e.mask, i.e.pc, .join o.s, [])] (i.pushWindow false [] s.sys))

/-- Lanes leave every mask and every J of a group (R105); a helper lane leaves when no non-helper lane of its quad remains
(R305), and else goes with the lowest that is left. Their pending marks go with them. -/
def Group.leave (g : Group) (m : LaneMask) : Group :=
  let left := g.lanes &&& ~~~m
  let real := left &&& ~~~g.helpers
  let keep := maskOf (fun l => left.getLsbD l &&
    (!g.helpers.getLsbD l || (List.range 4).any (fun j => real.getLsbD (l / 4 * 4 + j))))
  let h : Group := { g with lanes := keep }
  let follow := fun (e : Entry) => maskOf (fun l => keep.getLsbD l && e.mask.getLsbD (h.leader l))
  { h with
    regs := passS g.regs (~~~keep)
    frontier := (g.frontier.map (fun e => { e with mask := follow e, j := e.j &&& keep })).filter (fun e => e.mask != 0) }

/-- EXIT (R305): issues only when the window holds no memory access. -/
def execExit (o : FormG) : State → Host.Outcome State Fault Refusal :=
  wordNext (fun i s =>
    let ds : Desc := { g := o.g, s := o.s, agents := .groupOnly, drained := true }
    match i.check s.sys ds with
    | .hold => s.sys
    | .trap c m a => i.trap s.sys c m a
    | .go =>
      let gone := i.real (i.act o.g)
      let y := i.place ds [(i.e.mask, i.e.pc + 4, .ready, [])] (i.pushWindow false [] s.sys)
      let y1 := y.modGroup i.g.handle (fun g => g.leave gone)
      y1.settle i.g.handle)

/-! ### Hints (R275, R276) -/

/-- How many hints are pending. -/
def Hints.count (h : Hints) : Nat :=
  (if h.guard.isSome then 1 else 0) + (if h.imm.isSome then 1 else 0) + (if h.mod.isSome then 1 else 0) +
  (if h.delay.isSome then 1 else 0)

/-- A hint word: ILLEGAL, at that hint, for a fourth in a row or a second of one kind; otherwise it stands pending for the lanes of the
entry. `again` says whether the kind is already pending. -/
def hintWord (again : Hints → Bool) (add : Hints → Hints) : State → Host.Outcome State Fault Refusal :=
  wordNext (fun i s =>
    let h := i.e.hints
    if again h || 3 ≤ h.count then { i with e := { i.e with hints := {} } : Iss }.trap s.sys .illegal i.e.mask 0
    else
      let h1 := { add h with start := h.boundary i.e.pc }
      if i.cp then s.sys.modCp i.core (fun c => { c with pc := c.pc + 4, hints := h1 })
      else
        (s.sys.modGroup i.g.handle (fun g =>
          { g with frontier := g.others i.e ++ [{ i.e with pc := i.e.pc + 4, st := .ready, hints := h1 }] })).settle i.g.handle)

/-- GUARD (R277). -/
def execGuard (o : FormGuard) : State → Host.Outcome State Fault Refusal :=
  hintWord (fun h => h.guard.isSome) (fun h => { h with guard := some o })

/-- IMM (R278). -/
def execImm (o : FormImm) : State → Host.Outcome State Fault Refusal :=
  hintWord (fun h => h.imm.isSome) (fun h => { h with imm := some o })

/-- MOD (R279). -/
def execMod (o : FormMod) : State → Host.Outcome State Fault Refusal :=
  hintWord (fun h => h.mod.isSome) (fun h => { h with mod := some o })

/-- DELAY (R279). -/
def execDelay (o : FormDelay) : State → Host.Outcome State Fault Refusal :=
  hintWord (fun h => h.delay.isSome) (fun h => { h with delay := some o })

end Sys2Proof.Machine
end

