-- ==== Sys2Proof/Machine/Command.lean ====
section
/-!
DEFINITION. Final statuses of engine commands and of host commands (R70, R72, R175, R183), and the Error Address Log records of
requests that perform at a home.
-/
namespace Sys2Proof.Machine

/-- The code of a status (R175). -/
def CmdStatus.code : CmdStatus → Nat
  | .running => 0 | .done => 1 | .faulted => 2 | .invalid => 3 | .invalidated => 4 | .error => 5 | .aborted => 6 | .cancelled => 7

/-- The command has not taken its final status. -/
def Cmd.isOpen (c : Cmd) : Bool := c.status == .running || c.status == .faulted

/-- The code of a host status (R72). -/
def HostStatus.code : HostStatus → Nat
  | .ok => 0 | .badop => 1 | .invalid => 2 | .key => 3 | .busy => 4 | .nocolour => 5 | .notfound => 6 | .denied => 7
  | .terminated => 8 | .stopped => 9

/-- A host command has its result and waits for its completion entry, in the order in which commands completed (R72). -/
def Sys.completeHost (y : Sys) (uid : Nat) (st : HostStatus) (result : DWord) : Sys :=
  match y.hostCmd? uid with
  | none => y
  | some c =>
    if c.result.isSome then y
    else
      (y.modHostCmd uid (fun x => { x with result := some (st, result), running := false })).modVf c.vf
        (fun v => { v with completions := v.completions ++ [uid] })

/-- A host command that fails validation: its record and its completion (R70). An unbound VF has no partition whose log could take a
record. -/
def Sys.refuseHost (y : Sys) (now uid : Nat) (st : HostStatus) (addr : DWord) (result : DWord) : Sys :=
  match y.hostCmd? uid with
  | none => y
  | some c =>
    let v := y.vf c.vf
    let y1 := if v.valid then y.logEal now v.part.toNat (if st == .key then .key else .badcmd) 0 0 addr .host 0 0 c.vf else y
    y1.completeHost uid st result

/-- The pointer to its barrier that a command's record holds: BAR of a shape record (R176), of a digest's (R377) or a routing (R228)
descriptor. -/
def Cmd.barPtr (c : Cmd) : DWord :=
  BitVec.ofNat 64 (field c.record (match c.kind with | .digest => 0x18 | .route => 0x58 | .combine => 0x58 | _ => 0x70) 8)

/-! ### Pins and selections (R143) -/

/-- Some 4 KiB page of a range is pinned. -/
def Sys.pinned (y : Sys) (vf : Nat) (r : Nat × Nat) : Bool :=
  y.pins.any (fun p => p.2.1 == vf && decide (r.1 ≤ p.2.2) && decide (p.2.2 < r.1 + r.2))

/-- The first unpinned candidate is selected. -/
def Sys.selectVictim (y : Sys) (vf : Nat) : Sys :=
  let cs := (y.vf vf).candidates
  match (List.range cs.length).find? (fun j => !y.pinned vf (cs.getD j (0, 0))) with
  | some j => y.modVf vf (fun v => { v with migsel := BitVec.ofNat 8 j, migstat := .selected })
  | none => y

/-- A command's pins become those given: a waiting selection takes the first candidate that this leaves unpinned, at that moment. -/
def Sys.setPins (y : Sys) (h : Nat) (mine : List (Nat × Nat × Nat)) : Sys :=
  let y1 : Sys := { y with pins := y.pins.filter (fun p => p.1 != h) ++ mine }
  ((y1.vfs.filter (fun v => v.2.migstat == .waiting)).map Prod.fst).foldl Sys.selectVictim y1

/-- A command takes a status. A status other than DONE and CANCELLED writes a record with RKIND 2, unless the barrier's home has
written it (R175). Final statuses release the command's pins (R143) and answer the FAULT_RESUME that waits on it (R71). -/
def Sys.setStatus (y : Sys) (now h : Nat) (st : CmdStatus) (why : Option (Cause × DWord)) (logIt : Bool) : Sys :=
  match y.cmd? h with
  | none => y
  | some c =>
    if !c.isOpen then y
    else
      let y1 := match why with
        | some (k, a) =>
          let r : BitVec 8 × BitVec 8 := if st == CmdStatus.error then c.erem else (0, 0)
          if logIt then y.logEal now c.part k r.1 r.2 a .engine c.core 0 c.vf else y
        | none => y
      let final := st != .running && st != .faulted
      let (n, y2) := y1.fresh
      let y3 := y2.modCmd h (fun x => { x with
        status := st
        ecause := if st == .error then why else x.ecause
        doneOrder := if final then n else 0
        resume := none })
      let y4 : Sys := match c.resume with
        | some u => y3.completeHost u .ok 0
        | none => y3
      if final then
        let doneHere : Nat := (y4.cmds.filter (fun x => x.core == c.core && !x.isOpen)).length
        let oldest := (y4.cmds.filter (fun x => x.core == c.core && !x.isOpen)).foldl (fun m x => min m x.doneOrder) n
        let y5 : Sys := y4.setPins h []
        if 1024 < doneHere then { y5 with cmds := y5.cmds.filter (fun x => !(x.core == c.core && !x.isOpen && x.doneOrder == oldest)) } else y5
      else y4

/-- A command completes DONE. -/
def Sys.finishCmd (y : Sys) (now h : Nat) : Sys := y.setStatus now h .done none false

/-- An access is answered with an error. A group's waits for the return of R115, the control processor's own instruction traps,
and a command's first error stands as its cause, recorded when the command takes its status (R175). The load of a helper lane returns 0
(R94). -/
def Sys.failAccess (y : Sys) (now : Nat) (a : Access) (c : Cause) (rem remLog : BitVec 8) (logged : Bool) : Sys :=
  if y.helperLoad a then y.zeroLoad now a
  else
  let mine := match a.who with | .engine _ => true | _ => false
  let (n, y1) := if logged || mine then ((y.part a.part).ealcnt, y) else y.logAccess now a c rem remLog
  match a.who with
  | .group _ => y1.modAccess a.id (fun x => { x with st := .failed c rem remLog n })
  | .cp core =>
    let y2 := { y1 with accesses := y1.accesses.filter (fun x => x.id != a.id) }
    let t : TrapRec :=
    { cause := c, remCause := rem, pc := a.pc, lanes := 1, whole := 1, addr := a.ptr, prio := 0, ealcnt := n, insn := y.insn
      seq := 0, queued := true, taken := false }
    if (match (y2.core core).cp.ownTrap with | some t => !t.taken | none => false) then y2
    else y2.modCore core (fun k => { k with
      trapq := k.trapq ++ [.cp core]
      cp := { k.cp with pc := a.pc, ownTrap := some t, hints := {}, pend := [] } })
  | .engine h =>
    (y1.modCmd h (fun x => { x with
      ecause := if x.ecause.isSome then x.ecause else some (c, a.ptr)
      erem := if x.ecause.isSome then x.erem else (rem, remLog)
      failedChunks := x.failedChunks ++ [a.seq] })).modAccess a.id (fun x => { x with st := .failed c rem remLog n })
  | _ => y1.modAccess a.id (fun x => { x with st := .failed c rem remLog n })

end Sys2Proof.Machine
end

