-- ==== Sys2Proof/Machine/Barrier.lean ====
section
/-!
DEFINITION. The barrier object and its operations (R168-R173), the domain barrier (R210, R211), waking waiters (R324), and the
contribution entries that attach to a barrier (R186).
-/
namespace Sys2Proof.Machine

/-! ### The object (R168) -/

structure BarObj where
  phase : Nat
  inv : Bool
  exparr : Nat
  arrived : Nat
  expbytes : Nat
  landed : Nat
deriving DecidableEq, Repr

/-- The object in memory. -/
def readBar (m : List Host.Cell) (f : Nat) : BarObj :=
  let b := readBytes m f 16
  { phase := field b 0 4 % 2 ^ 31, inv := field b 0 4 / 2 ^ 31 == 1, exparr := field b 4 2, arrived := field b 6 2
    expbytes := field b 8 4, landed := field b 12 4 }

/-- Its bytes. -/
def BarObj.bytes (o : BarObj) : List Byte :=
  bytesOf 4 (o.phase + if o.inv then 2 ^ 31 else 0) ++ bytesOf 2 o.exparr ++ bytesOf 2 o.arrived ++ bytesOf 4 o.expbytes ++
  bytesOf 4 o.landed

/-- What BTEST, BWAIT and the operations return of it. -/
def BarObj.value (o : BarObj) : Word := if o.inv then 0xFFFFFFFF else BitVec.ofNat 32 o.phase

/-- The operations of R169. -/
inductive BarOp where
  | arrive
  | landing (n : Nat)
  | expect (n : Nat)
  | init (c : Nat)
  | invalidate
deriving DecidableEq, Repr

/-- What an operation makes of the object: the object, whether it completed a phase, whether it overflowed. -/
structure BarResult where
  obj : BarObj
  done : Bool := false
  isOver : Bool := false
deriving DecidableEq, Repr

/-- The completion test, or the overflow of R170; `full` says that a count was saturated. -/
def BarObj.test (o : BarObj) (full : Bool) : BarResult :=
  if full || o.exparr < o.arrived || (o.arrived = o.exparr && o.expbytes < o.landed) then { obj := o, isOver := true }
  else if o.arrived = o.exparr && o.landed = o.expbytes && !(o.exparr = 0 && o.expbytes = 0) then
    { obj := { o with phase := (o.phase + 1) % 2 ^ 31, arrived := 0, landed := 0, expbytes := 0 }, done := true }
  else { obj := o }

/-- An operation on the object (R169-R173). -/
def BarObj.apply (o : BarObj) (op : BarOp) : BarResult :=
  match op with
  | .init c => { obj := { phase := 0, inv := false, exparr := c, arrived := 0, expbytes := 0, landed := 0 } }
  | .invalidate => if o.inv then { obj := o } else { obj := { o with inv := true, arrived := 0, expbytes := 0, landed := 0 } }
  | .arrive =>
    if o.inv then { obj := o }
    else { o with arrived := min (o.arrived + 1) 65535 }.test (65535 < o.arrived + 1)
  | .landing n =>
    if o.inv then { obj := o }
    else { o with landed := min (o.landed + n) (2 ^ 32 - 1) }.test (2 ^ 32 ≤ o.landed + n)
  | .expect n =>
    if o.inv then { obj := o }
    else { o with expbytes := min (o.expbytes + n) (2 ^ 32 - 1) }.test (2 ^ 32 ≤ o.expbytes + n)

/-! ### Users of an object (R171) -/

/-- An entry waits at the object. -/
def Entry.waitsAt (e : Entry) (f : Nat) : Bool := match e.st with | .barrier a _ _ _ _ _ _ => a == f | _ => false

/-- Some entry, parked or resident, or some control processor waits at the object for the given phase (R171). -/
def Sys.hasWaiter (y : Sys) (f phase : Nat) : Bool :=
  y.groups.any (fun g => g.frontier.any (fun e => match e.st with | .barrier a w _ _ _ _ _ => a == f && w.toNat == phase | _ => false)) ||
  y.cores.any (fun c => match c.2.cp.wait with | some (a, w, _) => a == f && w.toNat == phase | none => false)

/-- An engine command is attached to the object (R172). -/
def Sys.hasAttached (y : Sys) (f : Nat) : Bool := y.cmds.any (fun c => c.isOpen && c.bar == some f)

/-- The core whose cluster is the home of a byte (R144), as a cluster number. -/
def homeCluster (f : Nat) : Nat :=
  if isSram f then coreCluster (sramCore f) else f / 2 ^ 36 * 16 + f % 2 ^ 36 / 128 % 16

/-- The objects of one Jack group that hold a watch record (R171). -/
def Sys.watched (y : Sys) (cl : Nat) : List Nat :=
  let waits := y.groups.flatMap (fun g => g.frontier.filterMap (fun e => match e.st with
    | .barrier a _ _ _ _ _ _ => some a
    | _ => none)) ++
    y.cores.filterMap (fun c => c.2.cp.wait.map (fun w => w.1)) ++
    (y.cmds.filter Cmd.isOpen).filterMap (fun c => c.bar)
  ((waits.filter (fun a => homeCluster a == cl)).foldl (fun acc a => if acc.contains a then acc else acc ++ [a]) [])

/-- A watch record for the object exists or is free. -/
def Sys.watchFree (y : Sys) (f : Nat) : Bool :=
  let w := y.watched (homeCluster f)
  w.contains f || w.length < 1024

/-! ### Waking (R169, R173, R324) -/

/-- The acquire that a return with a new phase makes (R161); a return with 0xFFFF_FFFF makes none. -/
def wakeHold (value : Word) (m : LaneMask) : List FenceHold :=
  if value = 0xFFFFFFFF then [] else [{ kind := 1, scope := 5, classes := 7, lanes := m, only := none }]

/-- A waiting entry becomes Ready at the next PC with the value in its register; an S then splits it (R109). -/
def Group.wake (g : Group) (wait blocked : LaneMask) (f : Nat) (value : Word) : Group :=
  g.frontier.foldl (fun acc e =>
    match e.st with
    | .barrier a _ reg s seq whole _ =>
      if a = f then
        let w : Writes := { v := (lanesOf e.mask).map (fun l => (l, reg, value.setWidth 64)) }
        let g1 := acc.deliver seq w
        let n : Entry := { e with pc := e.pc + 4, st := .ready, holds := e.holds ++ wakeHold value e.mask }
        let g2 := { g1 with
          regs := if s then passS g1.regs e.mask else g1.regs
          frontier := g1.others e ++ (if s then splitS wait whole n else [n]) }
        g2.settle wait blocked
      else acc
    | _ => acc) g

/-- Every waiter of an object wakes. A parked group keeps its Barrier entry until it returns (R118). -/
def Sys.wakeAll (y : Sys) (f : Nat) (value : Word) : Sys :=
  let y1 := y.groups.foldl (fun (acc : Sys) g =>
    if g.offCore.isNone && g.frontier.any (fun e => e.waitsAt f) then
      acc.modGroup g.handle (fun x => x.wake (x.waitMask (acc.awaiting g.handle)) (acc.returning x) f value)
    else acc) y
  { y1 with cores := y1.cores.map (fun c =>
      match c.2.cp.wait with
      | some (a, _, reg) =>
        if a = f then
          let p := c.2.cp.write { v := [(0, reg, value.setWidth 64)] }
          (c.1, { c.2 with cp := { p with wait := none, pc := p.pc + 4, hints := {}, nextSeq := p.nextSeq + 1
                                          holds := p.holds ++ wakeHold value 1 } })
        else c
      | none => c) }

/-- The users of an object that BINVAL acts on: waiters wake, attached commands stop, declarations are dropped (R173). -/
def Sys.invalidateUsers (y : Sys) (now : Nat) (f : Nat) : Sys :=
  let y1 := y.wakeAll f 0xFFFFFFFF
  let y2 : Sys := { y1 with
    contribs := y1.contribs.map (fun c =>
      match c.declared with
      | some (_, b) => if b = f then { c with declared := none } else c
      | none => c)
    due := y1.due.filter (fun d => d.bar != f) }
  let working := fun (h : Nat) => y2.accesses.any (fun a => a.who == .engine h)
  y2.cmds.foldl (fun acc c =>
    if c.isOpen && c.bar == some f then
      if working c.handle then acc.modCmd c.handle (fun x => { x with inval := true })
      else acc.setStatus now c.handle .invalidated (some (.cmdinval, c.barPtr)) true
    else acc) y2

/-! ### One operation at the home -/

/-- What a barrier operation answers: the effect, the value returned, and the error. -/
structure BarAnswer where
  eff : Eff
  value : Word
  err : Option Cause

/-- A barrier operation at a flat address (R169). The value is PHASE as the operation found it, or 0xFFFF_FFFF. -/
def barrierOp (s : State) (f : Nat) (op : BarOp) : BarAnswer :=
  match s.sys.readError f 16 0 with
  | some c => { eff := Eff.none s, value := 0, err := some c }
  | none =>
    let o := readBar s.mem f
    let busy := match op with | .init _ => s.sys.hasWaiter f o.phase || s.sys.hasAttached f | _ => false
    if busy then { eff := Eff.none s, value := 0, err := some .barbusy }
    else
      let r := o.apply op
      let e := putBytes s f r.obj.bytes
      let y := if r.done then e.sys.wakeAll f (BitVec.ofNat 32 r.obj.phase)
        else (match op with
          | .invalidate => if o.inv then e.sys else e.sys.invalidateUsers s.gtime f
          | _ => e.sys)
      { eff := { e with sys := y }, value := o.value, err := if r.isOver then some .barovf else none }

/-! ### Domain barriers (R210, R211) -/

/-- The bits set in a map of 512 bytes. -/
def popMap (b : List Byte) : Nat :=
  b.foldl (fun n x => n + ((List.range 8).filter (fun j => x.getLsbD j)).length) 0

/-- A map with one bit set or cleared. -/
def setMap (b : List Byte) (i : Nat) (v : Bool) : List Byte :=
  b.mapIdx (fun j x => if j = i / 8 then (if v then x ||| BitVec.ofNat 8 (2 ^ (i % 8)) else x &&& ~~~BitVec.ofNat 8 (2 ^ (i % 8))) else x)

/-- The object of 1,088 bytes after an operation by a logical chip. Of bits of the object that R210 reserves, bytes 12 to 63 keep what they
hold and bit 31 of PHASE is written 0, and none of them is refused: whether the object is a record whose reserved fields R5 has checked,
the spec does not say (DESIGN CHOICE, assumption log 61). -/
def domainOp (b : List Byte) (op m chip : Nat) : List Byte :=
  let exp := slice b 0x40 512
  let arr := slice b 0x240 512
  let mapBit := fun (x : List Byte) (i : Nat) => (x.getD (i / 8) 0).getLsbD (i % 8)
  let (exp1, arr1) :=
    if op = 0 then (exp, if mapBit exp chip then setMap arr chip true else arr)
    else if op = 1 then (setMap exp m false, arr)
    else (setMap exp m true, arr)
  let nmemb := popMap exp1
  let both := (List.range 512).map (fun j => exp1.getD j 0 &&& arr1.getD j 0)
  let narr := popMap both
  let fin := nmemb = narr
  let phase := (field b 0 4 % 2 ^ 31 + if fin then 1 else 0) % 2 ^ 31
  let arr2 := if fin then List.replicate 512 0 else arr1
  bytesOf 4 phase ++ bytesOf 4 nmemb ++ bytesOf 4 (if fin then 0 else narr) ++ slice b 12 52 ++ exp1 ++ arr2

end Sys2Proof.Machine
end

