-- ==== Sys2Proof/Machine/Kill.lean ====
section
/-!
DEFINITION. Ending groups and launches: the end of a group by GKILL (R384), of every group of a launch (R69, R123, R262), and the
exhaustion of the ownership table (R262).
-/
namespace Sys2Proof.Machine

/-- A trap source names an entry of a group. -/
def trapOf (h : Nat) (t : TrapSource) : Bool := match t with | .entry g _ => g == h | .cp _ => false

/-- The outstanding service request of a group is cancelled (R383, R384, R386). -/
def Cp.cancelSvc (c : Cp) (h : Nat) (m : LaneMask) : Cp :=
  { c with
    svc := c.svc.filter (fun x => !(x.handle == h && x.mask &&& m != 0))
    replies := c.replies.filter (fun x => !(x.handle == h && x.mask &&& m != 0)) }

/-- A group ends as by GKILL (R384): every lane leaves, its pending results, queued traps and service request go, and its launch
completes with TERMINATED. Requests in flight complete. -/
def Sys.killGroup (y : Sys) (h : Nat) : Sys :=
  match y.group? h with
  | none => y
  | some g =>
    let y1 := y.modGroup h (fun x =>
      { x with frontier := [], lanes := 0, killed := true, gpark := false, window := []
               mmaj := x.mmaj.filter (fun m => m.joined), matrix := []
               regs := { x.regs with pend := [], pendK := [] } })
    let y2 := y1.modCore g.core (fun k =>
      { k with
        trapq := k.trapq.filter (fun t => !trapOf h t)
        growq := k.growq.filter (fun q => q.2.1 != h)
        cp := k.cp.cancelSvc h 0xFFFFFFFF })
    { y2.modLaunch g.launch (fun l => { l with terminated := true }) with
      accesses := y2.accesses.filter (fun a => !(a.who == .group h && !a.isFlight))
      storeWaits := y2.storeWaits.filter (fun w => w.hostCmd.isSome || w.group != h) }

/-- A GPARK that waits for a group ends with a status, and its control processor goes on (R385). -/
def Sys.endGpark (y : Sys) (core h : Nat) (status : Nat) : Sys :=
  y.modCp core (fun c =>
    match c.gparkWait with
    | some (g, d) => if g = h then
        { c.write { v := [(0, d, BitVec.ofNat 64 status)] } with gparkWait := none, pc := c.pc + 4, hints := {}, nextSeq := c.nextSeq + 1 }
      else c
    | none => c)

/-- Every group of a launch is ended, and none of it starts any more. -/
def Sys.killLaunch (y : Sys) (u : Nat) : Sys :=
  let y1 := (y.groups.filter (fun g => g.launch == u && !g.killed)).foldl (fun acc g => acc.killGroup g.handle) y
  { y1.modLaunch u (fun l => { l with terminated := true, stopped := true, inStore := false }) with
    cores := y1.cores.map (fun c => (c.1, { c.2 with bins := c.2.bins.filter (fun b => b.2.launch != u) })) }

/-- A launch exhausts its ownership table (R262): its groups end, none of its accesses performs any more, its versions are
discarded, and a record with cause LIMIT is written. -/
def Sys.exhaust (y : Sys) (now u : Nat) (addr : DWord) : Sys :=
  match y.launch? u with
  | none => y
  | some l =>
    let y1 := y.logEal now l.part .limit 0 0 addr .host 0 0 l.vf
    let y2 := y1.killLaunch u
    { y2.modLaunch u (fun x => { x with own := [] }) with accesses := y2.accesses.filter (fun a =>
        !(a.launch == u && (match a.who with | .group _ => true | _ => false))) }

end Sys2Proof.Machine
end

