-- ==== Sys2Proof/Machine/Formats.lean ====
section
/-!
DEFINITION. Element formats in memory (R133, R238) and the twin-exponent block formats: decoding (R245) and the deterministic
encoder (R246, R247).
-/
namespace Sys2Proof.Machine

/-- A TXB format: the largest m, the exponent bias of R244, and the width of m. -/
structure Txb where
  top : Nat
  bias : Nat
  mbits : Nat
deriving DecidableEq, Repr

def txb8 : Txb := { top := 63, bias := 132, mbits := 6 }
def txb4 : Txb := { top := 3, bias := 128, mbits := 2 }

/-- The value of an element under the exponents E0 and E1 (R245). -/
def txbDecode (t : Txb) (e0 e1 elem : Nat) : FVal :=
  let e := if elem.testBit (t.mbits + 1) then e1 else e0
  if e = 0xFF then .nan false
  else .num (elem.testBit t.mbits) (elem % 2 ^ t.mbits) ((e : Int) - t.bias)

/-- |x| ÷ 2^(E - bias) rounded to an integer under the mode, and whether that is inexact; none for an infinity. -/
def txbQuot (t : Txb) (mode : Rnd) (x : FVal) (e : Nat) : Option (Nat × Bool) :=
  match x with
  | .num n m ex => some (roundAt mode n m false ex ((e : Int) - t.bias))
  | _ => none

/-- "E holds x" (R246). -/
def txbHolds (t : Txb) (x : FVal) (e : Nat) : Bool :=
  e != 0xFF && (match txbQuot t .rne x e with
    | some (q, _) => q ≤ t.top
    | none => false)

/-- The least exponent in 0-254 that holds every value; 254 if none does. -/
def txbSearch (t : Txb) (xs : List FVal) : Nat :=
  ((List.range 255).find? (fun e => xs.all (fun x => txbHolds t x e))).getD 254

/-- One encoded element: its bits and flags. Under SR an m of M + 1 becomes M with NX alone (R247). -/
def txbElem (t : Txb) (mode : Rnd) (e0 e1 : Nat) (neg : Bool) (x : FVal) : FRes :=
  let sel := !txbHolds t x e0
  let e := if sel then e1 else e0
  let head := (if sel then 2 ^ (t.mbits + 1) else 0) + (if neg then 2 ^ t.mbits else 0)
  match txbQuot t mode x e with
  | none => ⟨head + t.top, flagOF ||| flagNX⟩
  | some (q, nx) =>
    if t.top < q then
      ⟨head + t.top, (match mode with | .sr _ => flagIf (t.top + 1 < q) flagOF | _ => flagOF) ||| flagNX⟩
    else ⟨head + q, flagIf (nx || e == 0xFF) flagNX⟩

/-- The exponents of a block: those supplied, or those of the search (R246). -/
def txbExps (t : Txb) (sup : Option (Nat × Nat)) (xs : List FVal) : Nat × Nat :=
  match sup with
  | some p => p
  | none => (txbSearch t xs - 4, txbSearch t xs)

/-- One value of a block to encode, with its sign and its rounding mode. -/
structure TxbIn where
  neg : Bool
  val : FVal
  mode : Rnd

/-- The deterministic encoder (R246): E0, E1 and the elements. -/
def txbEncode (t : Txb) (sup : Option (Nat × Nat)) (xs : List TxbIn) : Nat × Nat × List FRes :=
  let es := txbExps t sup (xs.map TxbIn.val)
  let both := es.1 == 0xFF && es.2 == 0xFF
  if xs.any (fun x => x.val.isNan) || both then
    (0xFF, 0xFF, xs.map (fun x => ⟨2 ^ (t.mbits + 1) + (if x.neg then 2 ^ t.mbits else 0), flagIf (x.val.isNan || both) flagNV⟩))
  else (es.1, es.2, xs.map (fun x => txbElem t x.mode es.1 es.2 x.neg x.val))

/-- Bytes of one element of a format entry, or 0 for TXB formats, whose elements the encoder handles by the block. -/
def fmtBytes (f : Nat) : Nat := if f = 1 || f = 5 then 4 else if f = 2 || f = 3 then 2 else if f = 4 then 1 else 0

/-- The binary format of an element format. -/
def fmtOf (f : Nat) : Fmt := if f = 2 then bf16 else if f = 3 then fp16 else fp32

/-- The value of an element's bits in a format that is no TXB format (R243). -/
def elemValue (f x : Nat) : FVal :=
  if f = 4 then .num (x.testBit 7) (signedOf 8 x).natAbs 0
  else if f = 5 then .num (x.testBit 31) (signedOf 32 x).natAbs 0
  else decodeF (fmtOf f) x

/-- The flags of a conversion to an integer element: a value that saturates is inexact too (R242, R243), which R335 takes back for F2I alone.
A NaN sets NV alone (DESIGN CHOICE, assumption log 61: a NaN has no exact result that 0 could differ from). -/
def intElemFlags (x : FVal) (fl : BitVec 5) : BitVec 5 := if x.isNan then fl else fl ||| flagIf (fl &&& flagNV != 0) flagNX

/-- A value written in a format that is no TXB format (R243). -/
def elemBits (f : Nat) (mode : Rnd) (x : FVal) : FRes :=
  if f = 4 then
    let r := fToInt mode (-128) 127 x
    ⟨(BitVec.ofInt 8 r.1).toNat, intElemFlags x r.2⟩
  else if f = 5 then
    let r := fToInt mode (-2147483648) 2147483647 x
    ⟨(BitVec.ofInt 32 r.1).toNat, intElemFlags x r.2⟩
  else roundTo (fmtOf f) mode x

end Sys2Proof.Machine
end

