-- ==== Sys2Proof/Machine/Service.lean ====
section
/-!
DEFINITION. The package's host side that its partitions share: service slots by weighted round-robin (R78), and the posted writes to host and
CXL memory with their port, traffic class and Relaxed Ordering (R48, R56).
-/
namespace Sys2Proof.Machine

/-! ### Rings that run (R68, R69) -/

/-- Entries of a ring, and whether it is full (R68). -/
def Ring.size (r : Ring) : Nat := 2 ^ r.log2n.toNat
def Ring.full (r : Ring) : Bool := (r.pidx - r.cidx).toNat == r.size

/-- The rings are processed: RUN is 1, or a stop is under way (R69). -/
def Vf.runs (v : Vf) : Bool := v.run || v.stopping

/-! ### Service slots (R78): 0 the host ring service, 1 fault processing, 2 Kite -/

/-- The valid partitions. -/
def Sys.validParts (y : Sys) : List Nat := allParts.filter (fun p => (y.part p).valid)

/-- The weight of a partition. -/
def Part.weight (q : Part) : Nat := if q.svcwt = 0 then 1 else q.svcwt.toNat

/-- What the weights are divided by. -/
def Sys.weightBase (y : Sys) : Nat := max 12 (y.validParts.foldl (fun n p => n + (y.part p).weight) 0)

/-- A host command has been read and waits to start. -/
def HostCmd.unstarted (c : HostCmd) : Bool := !c.running && c.result.isNone

/-- Work of a partition waits for a service. -/
def Sys.workWaits (y : Sys) (p k : Nat) : Bool :=
  let vs := (y.partVfs p).map y.vf
  match k with
  | 0 => !(y.part p).svcq.isEmpty || y.hostCmds.any (fun c => c.unstarted && (y.partVfs p).contains c.vf) ||
      vs.any (fun v => v.runs && ((v.ring 0).pidx != (v.ring 0).cidx || !v.completions.isEmpty || !v.notifications.isEmpty ||
        (v.ring 5).pidx != (v.ring 5).cidx))
  | 1 => vs.any (fun v => !v.faults.isEmpty) || y.hostCmds.any (fun c => c.opc == 2 && c.unstarted && (y.partVfs p).contains c.vf)
  | _ => !(y.part p).colourA.staging.isEmpty || !(y.part p).colourB.staging.isEmpty

/-- The slots of a service used in the window so far, by a partition and by all. -/
def Part.windowSlots (q : Part) (k : Nat) : Nat := q.windowUsed.getD k 0
def Sys.windowSlots (y : Sys) (k : Nat) : Nat := y.validParts.foldl (fun n p => n + (y.part p).windowSlots k) 0

/-- With one slot more in the window, a partition has had less than its share of a service, in whole slots. -/
def Sys.behind (y : Sys) (p k : Nat) : Bool :=
  decide ((y.part p).windowSlots k < (y.windowSlots k + 1) * (y.part p).weight / y.weightBase)

/-- A partition may take a slot of a service: it is behind, or no other with work waiting is. -/
def Sys.slotFor (y : Sys) (p k : Nat) : Bool :=
  y.behind p k || y.validParts.all (fun q => q == p || !y.behind q k || !y.workWaits q k)

/-- A VF may have a slot of a service; an unbound one belongs to no partition and takes none. -/
def Sys.slotFree (y : Sys) (vf k : Nat) : Bool := !(y.vf vf).valid || y.slotFor (y.vf vf).part.toNat k

/-- A partition takes slots of a service. -/
def Part.takeSlots (q : Part) (k n : Nat) : Part :=
  { q with slotsUsed := q.slotsUsed.set k (q.slotsUsed.getD k 0 + n), windowUsed := q.windowUsed.set k (q.windowSlots k + n) }

/-- One slot of a service is used by a VF. -/
def Sys.useSlot (y : Sys) (vf k : Nat) : Sys :=
  if (y.vf vf).valid then y.modPart (y.vf vf).part.toNat (fun p => p.takeSlots k 1) else y

/-- The number of the 10 µs window of GTIME that a time lies in: a window begins at every multiple of 10 µs (DESIGN CHOICE, assumption
log 63). -/
def windowOf (now : Nat) : Nat := now / 10000

/-- A service window has ended and has not been counted. -/
def Sys.windowDue (y : Sys) (now : Nat) : Bool := decide (y.lastWindow < windowOf now)

/-- The windows that have ended are counted for the partitions whose work waits, and a new one begins. -/
def Sys.endWindow (y : Sys) (now : Nat) : Sys :=
  let n := windowOf now - y.lastWindow
  let y1 := y.validParts.foldl (fun z p => z.modPart p (fun q => { q with
    slotWindows := q.slotWindows.mapIdx (fun k m => if y.workWaits p k then m + n else m), windowUsed := [0, 0, 0] })) y
  { y1 with lastWindow := windowOf now }

/-! ### Posted writes (R48, R56) -/

/-- The CXL port of a VF, and the I/O die it is on: LDs 0 to 7 are on port 0 and IOD0, LDs 8 to 15 on port 1 and IOD1 (R12, R48). -/
def Vf.iod (v : Vf) : Nat := if v.ld.toNat < 8 then 0 else 1

/-- A write leaves for host or CXL memory through the port of a VF; a write to a place of the package itself does not. -/
def Sys.post (y : Sys) (vf f n : Nat) (kind : PostKind) (tc : Nat) (relaxed : Bool) : Sys :=
  if isHost f then
    { y with posted := y.posted ++ [{ port := (y.vf vf).iod, vf := vf, addr := f, bytes := n, kind := kind, tc := tc, relaxed := relaxed }] }
  else y

/-- An MSI-X message of a VF leaves. -/
def Sys.postMessage (y : Sys) (vf vector : Nat) : Sys :=
  { y with posted := y.posted ++
    [{ port := (y.vf vf).iod, vf := vf, addr := 0, bytes := 4, kind := .message vector, tc := 0, relaxed := false }] }

/-- What a store of an engine command sends: only copies and channels set Relaxed Ordering. -/
def Sys.postStore (y : Sys) (a : Access) (f n : Nat) : Sys :=
  match a.who with
  | .engine h => y.post a.vf f n .data 0 (y.cmds.any (fun c => c.handle == h && (match c.kind with | .copy => true | .channel _ => true | _ => false)))
  | _ => y

end Sys2Proof.Machine
end

