-- ==== Sys2Proof/Machine/Paging.lean ====
section
/-!
DEFINITION. Paged space: the nested walk (R139, R140), cached translations and their invalidation (R141, R142), access counters
(R76), pin counts and the selection of a victim page (R143), and reads and writes of paged bytes by the engines of a VF.
-/
namespace Sys2Proof.Machine

/-! ### Table entries (R140) -/

/-- The memory behind the CXL port of a logical device: that of its host (R49). -/
def Sys.hostOf (y : Sys) (ld : Nat) : Nat := tget y.lds ld (1048576 + ld)

/-- The flat address of a system-physical address for a VF; none beyond the partition's memory (R140). -/
def Sys.physFlat (y : Sys) (vf spa : Nat) : Option Nat :=
  let v := y.vf vf
  if bit spa 51 then some (flatHost (y.hostOf v.ld.toNat) (spa % 2 ^ 51)) else (y.part v.part.toNat).flat spa

/-- ADDR of an entry. -/
def pteAddr (e : Nat) : Nat := bits e 51 12 * 4096

/-- An entry with V = 1 breaks the field rules at a level. -/
def pteBad (host : Bool) (level idx e : Nat) : Bool :=
  let leaf := bit e 2
  let c64 := bit e 3
  bits e 63 60 != 0 ||
  ((host || !leaf) && (bits e 11 4 != 0 || bits e 59 52 != 0)) ||
  (3 ≤ level && leaf) || (level == 1 && !leaf) || (c64 && level != 1) ||
  (!host && leaf && (5 < bits e 7 4 || bits e 9 8 != 0 || bit e 10)) ||
  (level == 2 && leaf && bits e 20 12 != 0) ||
  (c64 && bits e 15 12 != idx % 16)

/-- The size of a leaf's page. -/
def pteSize (level e : Nat) : Nat := if level = 2 then 2 ^ 21 else if bit e 3 then 65536 else 4096

/-- The index of a level in an address. -/
def pteIndex (level a : Nat) : Nat := bits a (11 + 9 * level) (3 + 9 * level)

/-- Why a walk gives no translation: a fault of a KIND (R140), or a table entry of uncorrectable data (R62). -/
inductive WalkStop where
  | fault (kind : Nat)
  | ecc
deriving DecidableEq, Repr

/-- The number that a command keeps of it. -/
def WalkStop.kind : WalkStop → Nat
  | .fault k => k
  | .ecc => 0

/-- The 8 bytes of an entry. -/
def readPte (s : State) (vf spa : Nat) : Except WalkStop Nat :=
  match s.sys.physFlat vf spa with
  | none => .error (.fault 4)
  | some f => if s.sys.eccHit f 8 then .error .ecc else .ok (numOf (readBytes s.mem f 8))

/-! ### The walks (R139) -/

/-- A page that a walk found: where an address leads, the page's size, and whether it may be written. -/
structure Leaf where
  addr : Nat
  size : Nat
  writable : Bool
deriving DecidableEq, Repr

/-- The host walk from a level's table down: system-physical from guest-physical, or KIND 3 or 4. -/
def hostWalk (s : State) (vf gpa : Nat) (write : Bool) : Nat → Nat → Bool → Except WalkStop Leaf
  | 0, _, _ => .error (.fault 4)
  | n + 1, table, w =>
    let idx := pteIndex (n + 1) gpa
    match readPte s vf (table + 8 * idx) with
    | .error e => .error e
    | .ok e =>
      if !bit e 0 then .error (.fault 3)
      else if pteBad true (n + 1) idx e || (write && !bit e 1) then .error (.fault 4)
      else if bit e 2 then
        let size := pteSize (n + 1) e
        .ok { addr := pteAddr e / size * size + gpa % size, size := size, writable := w && bit e 1 }
      else hostWalk s vf gpa write n (pteAddr e) (w && bit e 1)

/-! ### The caches of the I/O dies (R142) -/

/-- The I/O die whose walker serves a core's engine: the one that the core's die attaches to (DESIGN CHOICE, assumption log 32). -/
def iodOfCore (core : Nat) : Nat := if coreDie core < 6 then 0 else 1

/-- A cached guest translation covers a paged address. -/
def GuestEntry.covers (g : GuestEntry) (iod vf va : Nat) : Bool :=
  g.iod == iod && g.vf == vf && decide (g.page ≤ va) && decide (va < g.page + g.size)

/-- A cached host translation covers a guest-physical address. -/
def NestedEntry.covers (h : NestedEntry) (iod vf gpa : Nat) : Bool :=
  h.iod == iod && h.vf == vf && decide (h.page ≤ gpa) && decide (gpa < h.page + h.size)

/-- The newest n of the elements that `p` picks, and all others. -/
def keepNewest {α : Type} (p : α → Bool) (n : Nat) (l : List α) : List α := (l.filter p).take n ++ l.filter (fun x => !p x)

/-- A host translation is cached; each I/O die keeps the newest 4,096. -/
def addNested (h : NestedEntry) (l : List NestedEntry) : List NestedEntry :=
  keepNewest (fun x => x.iod == h.iod) 4096
    (h :: l.filter (fun x => !(x.iod == h.iod && x.vf == h.vf && x.page == h.page && x.size == h.size)))

/-- A guest translation is cached; each I/O die keeps the newest 2,048. -/
def addGuest (g : GuestEntry) (l : List GuestEntry) : List GuestEntry :=
  keepNewest (fun x => x.iod == g.iod) 2048
    (g :: l.filter (fun x => !(x.iod == g.iod && x.vf == g.vf && x.page == g.page && x.size == g.size)))

/-- A guest-physical address through the nested TLB, where it still holds a translation, or the host tables; and the nested TLB after it. -/
def hostPhys (s : State) (iod vf gpa : Nat) (write : Bool) (cs : List NestedEntry) : Except WalkStop (NestedEntry × List NestedEntry) :=
  match cs.find? (fun h => h.covers iod vf gpa && (!write || h.writable) && !Config.evicted s.sys.free gpa) with
  | some h => .ok (h, cs)
  | none =>
    let root := (s.sys.vf vf).heap.htroot.toNat
    if 2 ^ 48 ≤ gpa then .error (.fault 4)
    else if root = 0 then .error (.fault 3)
    else
      match hostWalk s vf gpa write 4 root true with
      | .error e => .error e
      | .ok l =>
        let h : NestedEntry := { iod := iod, vf := vf, page := gpa / l.size * l.size, size := l.size, phys := l.addr - gpa % l.size, writable := l.writable }
        .ok (h, addNested h cs)

/-- Where a host translation leads. -/
def NestedEntry.at (h : NestedEntry) (gpa : Nat) : Nat := h.phys + (gpa - h.page)

/-- The translation of a paged address by a guest and a host translation. -/
def GuestEntry.join (g : GuestEntry) (h : NestedEntry) (va : Nat) : Translation :=
  let z := min g.size h.size
  { vf := g.vf, page := va / z * z, size := z, phys := h.at (g.gpa + (va - g.page)) - va % z, gpage := g.page, gsize := g.size
    writable := g.writable && h.writable, key := g.key, fmt := g.fmt, profile := g.profile }

/-- What a translation must still meet when it is used: its place exists, and a KEY that counts lies in the VF's range (R140). -/
def Sys.stopAt (y : Sys) (t : Translation) : Option WalkStop :=
  let v := y.vf t.vf
  if (y.physFlat t.vf t.phys).isNone then some (.fault 4)
  else if !bit t.phys 51 && !(v.keylo.toNat ≤ t.key.toNat && t.key.toNat < v.keylo.toNat + v.keyn.toNat) then some (.fault 2)
  else none

/-! ### The walk (R139) -/

/-- What a completed walk gives: the translation, its two parts, and the nested TLB after it. -/
structure Walked where
  guest : GuestEntry
  tr : Translation
  nested : List NestedEntry
deriving DecidableEq, Repr

/-- The translation that a guest leaf gives. -/
def leafTranslation (s : State) (iod vf va : Nat) (write : Bool) (e size : Nat) (w : Bool) (cs : List NestedEntry) : Except WalkStop Walked :=
  let g : GuestEntry :=
  { iod := iod, vf := vf, page := va / size * size, size := size, gpa := pteAddr e / size * size, writable := w
    key := BitVec.ofNat 8 (bits e 59 52), fmt := BitVec.ofNat 4 (bits e 7 4), profile := bit e 11 }
  match hostPhys s iod vf (g.gpa + va % size) write cs with
  | .error x => .error x
  | .ok (h, cs1) =>
    let t := g.join h va
    match s.sys.stopAt t with
    | some x => .error x
    | none => .ok { guest := g, tr := t, nested := cs1 }

/-- The guest walk from a level's table down, each fetch through the host tables. -/
def guestWalk (s : State) (iod vf va : Nat) (write : Bool) : Nat → Nat → Bool → List NestedEntry → Except WalkStop Walked
  | 0, _, _, _ => .error (.fault 2)
  | n + 1, table, w, cs =>
    let idx := pteIndex (n + 1) va
    match hostPhys s iod vf (table + 8 * idx) false cs with
    | .error x => .error x
    | .ok (h, cs1) =>
      match readPte s vf (h.at (table + 8 * idx)) with
      | .error x => .error x
      | .ok e =>
        if !bit e 0 then .error (.fault 1)
        else if pteBad false (n + 1) idx e || (write && !bit e 1) then .error (.fault 2)
        else if bit e 2 then leafTranslation s iod vf va write e (pteSize (n + 1) e) (w && bit e 1) cs1
        else guestWalk s iod vf va write n (pteAddr e) (w && bit e 1) cs1

/-- A whole walk of a paged address: a translation, or why there is none. -/
def walk (s : State) (iod vf va : Nat) (write : Bool) : Except WalkStop Walked :=
  let root := (s.sys.vf vf).gtroot.toNat
  if root = 0 then .error (.fault 1) else guestWalk s iod vf va write 4 root true s.sys.nested

/-! ### Cached translations (R142) -/

/-- The cached translation of an access: a guest and a host translation that are both cached and allow it. -/
def Sys.cachedAt (y : Sys) (iod vf va : Nat) (write : Bool) : Option Translation :=
  match y.tlb.find? (fun g => g.covers iod vf va && (!write || g.writable)) with
  | none => none
  | some g =>
    match y.nested.find? (fun h => h.covers iod vf (g.gpa + (va - g.page)) && (!write || h.writable)) with
    | none => none
    | some h => let t := g.join h va; if (y.stopAt t).isSome then none else some t

/-- What a walk found is cached; a free value has been used for the evictions that it met. -/
def Sys.cache (y : Sys) (w : Walked) : Sys := { y with tlb := addGuest w.guest y.tlb, nested := w.nested, free := y.free + 1 }

/-- The flat address and key of a paged byte under a translation. -/
def Sys.pagedFlat (y : Sys) (t : Translation) (va : Nat) : Option (Nat × Nat) :=
  (y.physFlat t.vf (t.phys + (va - t.page))).map (fun f => (f, t.key.toNat))

/-! ### Access counters (R76) -/

/-- The notification ring takes no entry: it is full, or it stands, or the rings are paused (R69). -/
def Vf.notifyClosed (v : Vf) : Bool :=
  let r := v.ring 3
  !v.runs || r.halted || decide (r.size ≤ (r.pidx - r.cidx).toNat + v.notifications.length)

/-- A notification dropped (R67, R76): NDROP saturates. -/
def Vf.drop (v : Vf) : Vf := { v with ndrop := if v.ndrop = 0xFFFFFFFF then v.ndrop else v.ndrop + 1 }

/-- One engine access to a page. -/
def Sys.touchPage (y : Sys) (t : Translation) : Sys :=
  y.modVf t.vf (fun v =>
    let page := t.page / 4096
    let n := sget v.counters page
    if n.toNat < v.accthr.toNat then { v with counters := sset v.counters page (n + 1) }
    else if v.accessQueued.any (fun q => q.1 == t.page) then v
    else if v.notifyClosed then v.drop
    else { v with
      notifications := v.notifications ++ [{ kind := 1, data := BitVec.ofNat 64 t.page }]
      accessQueued := v.accessQueued ++ [(t.page, (v.ring 3).pidx.toNat + v.notifications.length)] })

/-! ### Pins and selections (R143) -/

/-- The range that a selection holds engine accesses to. -/
def Vf.heldRange (v : Vf) : Option (Nat × Nat) :=
  if v.migstat == .selected then v.candidates[v.migsel.toNat]? else none

/-- A new engine access to an address waits at the walker. -/
def Sys.pageHeld (y : Sys) (vf va : Nat) : Bool :=
  match (y.vf vf).heldRange with
  | some (b, z) => decide (b ≤ va) && decide (va < b + z)
  | none => false

/-! ### Paged bytes of a VF outside engine commands: rings and lists (R68, R143) -/

/-- The page pieces of n bytes from a paged address. `fuel` bounds them. -/
def pagePieces : Nat → Nat → Nat → List (Nat × Nat)
  | 0, _, _ => []
  | fuel + 1, va, n => if n = 0 then [] else
      let k := min n (4096 - va % 4096)
      (va, k) :: pagePieces fuel (va + k) (n - k)

/-- The record of a KEY or ECC error that an access of a VF's queues and lists meets at memory (R59, R62). -/
def Sys.logPaged (y : Sys) (now vf va : Nat) (c : Cause) : Sys :=
  y.logEal now (y.vf vf).part.toNat c 0 0 (BitVec.ofNat 64 (2 ^ 60 + va)) .host 0 0 vf

/-- The translation of an address for a VF's rings and lists, and the package after it: a cached one, or a fresh walk, which is cached. A
table entry of uncorrectable data is logged (R62). -/
def Sys.translate (s : State) (vf va : Nat) (write : Bool) : Option Translation × Sys :=
  let iod := (s.sys.vf vf).iod
  match s.sys.cachedAt iod vf va write with
  | some t => (some t, s.sys)
  | none => match walk s iod vf va write with
    | .ok w => (some w.tr, s.sys.cache w)
    | .error .ecc => (none, s.sys.logPaged s.gtime vf va .ecc)
    | .error (.fault _) => (none, s.sys)

/-- The pieces of a run of paged bytes at their flat addresses, with their keys (none where a walk fails), and the caches and counters after
it. -/
def pagedRun (s : State) (vf va n : Nat) (write : Bool) : Option (List (Nat × Nat × Nat)) × Sys :=
  (pagePieces (n / 4096 + 2) va n).foldl (fun acc p =>
    match acc.1 with
    | none => acc
    | some ps =>
      match Sys.translate { s with sys := acc.2 } vf p.1 write with
      | (none, y) => (none, y)
      | (some t, y) => (match y.pagedFlat t p.1 with
        | some (f, k) => (some (ps ++ [(f, p.2, k)]), y.touchPage t)
        | none => (none, y))) (some [], s.sys)

/-- The pieces of a run one after another, each with its paged address. -/
def pieceAddrs (va : Nat) (ps : List (Nat × Nat × Nat)) : List (Nat × Nat × Nat × Nat) :=
  (ps.foldl (fun (acc : List (Nat × Nat × Nat × Nat) × Nat) p => (acc.1 ++ [(acc.2, p.1, p.2.1, p.2.2)], acc.2 + p.2.1)) ([], va)).1

/-- Bytes of paged space as an engine access of a VF reads them; none when a walk faults or a read is answered with an error, whose record
is written. -/
def readPaged (s : State) (vf va n : Nat) : Option (List Byte) × Sys :=
  match pagedRun s vf va n false with
  | (none, y) => (none, y)
  | (some ps, y) =>
    match (pieceAddrs va ps).findSome? (fun p => (y.readError p.2.1 p.2.2.1 p.2.2.2).map (fun c => (p.1, c))) with
    | some (a, c) => (none, y.logPaged s.gtime vf a c)
    | none => (some (ps.flatMap (fun p => readBytes s.mem p.1 p.2.1)), ps.foldl (fun z p => z.readAt p.1 p.2.1 p.2.2) y)

/-- Bytes of paged space as an engine access of a VF writes them; not done as for `readPaged`. The write to host or CXL memory is of TC0 and
never relaxed (R56). -/
def writePaged (s : State) (vf va : Nat) (bs : List Byte) (kind : PostKind) : Option Eff × Sys :=
  match pagedRun s vf va bs.length true with
  | (none, y) => (none, y)
  | (some ps, y) =>
    match (pieceAddrs va ps).findSome? (fun p => (y.writeError p.2.1 p.2.2.1 p.2.2.2).map (fun c => (p.1, c))) with
    | some (a, c) => (none, y.logPaged s.gtime vf a c)
    | none =>
      let t : State := { s with sys := ps.foldl (fun z p => z.claim p.1 p.2.2) y }
      let e := putAll t ((pieceAddrs va ps).map (fun p => (p.2.1, slice bs (p.1 - va) p.2.2.1)))
      let z := ps.foldl (fun z p => z.post vf p.1 p.2.1 kind 0 false) e.sys
      (some { e with sys := z }, z)

/-- Some byte of a run is held by a selection. -/
def Sys.runHeld (y : Sys) (vf va n : Nat) : Bool :=
  match (y.vf vf).heldRange with
  | some (b, z) => decide (b < va + n) && decide (va < b + z)
  | none => false

/-- A write of a run of paged bytes would stall for want of staging (R195). -/
def pagedStalls (s : State) (vf va n : Nat) : Bool :=
  match (pagedRun s vf va n true).1 with
  | some ps => s.sys.allStall (ps.map (fun p => (p.1, p.2.1)))
  | none => false

/-! ### The events -/

/-- The I/O die whose walker serves a command of a VF. -/
def Sys.walkerOf (y : Sys) (vf cmd : Nat) : Nat :=
  match y.cmd? cmd with
  | some c => iodOfCore c.core
  | none => (y.vf vf).iod

/-- PAGE_WALK (R139): a walk for an engine command completes with a translation, which is cached, or ends in a fault that the
command keeps. A page held by a selection is not walked (R143). -/
def execPageWalk : State → Host.Outcome State Fault Refusal :=
  eventNext (fun s => match s.sys.ev with
    | some (.pageWalk vf va write cmd) =>
      if s.sys.pageHeld vf va then Eff.none s
      else
        (match walk s (s.sys.walkerOf vf cmd) vf va write with
          | .ok w => { sys := s.sys.cache w }
          | .error x =>
            let f : WalkFault := { cmd := cmd, page := va / 4096 * 4096, kind := x.kind, write := write }
            if (match s.sys.cmd? cmd with | some c => c.vf == vf && c.status == .running | none => false) &&
              !s.sys.walkFaults.any (fun x => x.cmd == cmd && x.page == f.page && x.write == write) then
              { sys := { s.sys with walkFaults := s.sys.walkFaults ++ [f] } }
            else Eff.none s)
    | _ => Eff.none s)

/-- INVPAGE (R141). -/
def execInvpage : State → Host.Outcome State Fault Refusal :=
  eventNext (fun s => match s.sys.ev with
    | some (.invpage vf) =>
      if (s.sys.vf vf).invbusy then Eff.none s
      else { sys := s.sys.modVf vf (fun v => { v with invbusy := true, invall := false, invat := v.invaddr }) }
    | _ => Eff.none s)

/-- INVALL (R141). -/
def execInvall : State → Host.Outcome State Fault Refusal :=
  eventNext (fun s => match s.sys.ev with
    | some (.invall vf) =>
      if (s.sys.vf vf).invbusy then Eff.none s
      else { sys := s.sys.modVf vf (fun v => { v with invbusy := true, invall := true }) }
    | _ => Eff.none s)

/-- The VF's translations that an invalidation covers are dropped: guest translations of the address, and, as the nested TLBs are tagged by
VF alone, every host translation of the VF (DEDUCED, assumption log 32). -/
def Sys.dropTranslations (y : Sys) (vf : Nat) (all : Bool) (va : Nat) : Sys :=
  { y with
    tlb := y.tlb.filter (fun g => !(g.vf == vf && (all || g.covers g.iod vf va)))
    nested := y.nested.filter (fun h => h.vf != vf) }

/-- An engine access of a VF to paged space is in flight that used a translation which an invalidation covers. -/
def Sys.pagedFlight (y : Sys) (vf : Nat) (all : Bool) (va : Nat) : Bool :=
  y.accesses.any (fun a => a.vf == vf && a.isFlight && spaceOf a.ptr.toNat == 1 && (match a.who with | .engine _ => true | _ => false) &&
    (all || (decide (a.page.1 ≤ va) && decide (va < a.page.1 + a.page.2))))

/-- INVALIDATION_COMPLETE (R141): covered translations are gone and their accesses have been performed. -/
def execInvalidationComplete : State → Host.Outcome State Fault Refusal :=
  eventNext (fun s => match s.sys.ev with
    | some (.invalidationComplete vf) =>
      let v := s.sys.vf vf
      if !v.invbusy || s.sys.pagedFlight vf v.invall v.invat.toNat then Eff.none s
      else { sys := (s.sys.dropTranslations vf v.invall v.invat.toNat).modVf vf (fun x => { x with invbusy := false, invall := false }) }
    | _ => Eff.none s)

/-- The range that a candidate names. -/
def candidateRange (s : State) (vf va : Nat) : Nat × Nat :=
  match walk s (s.sys.vf vf).iod vf va false with
  | .ok w => (w.tr.page, w.tr.size)
  | .error _ => (va / 4096 * 4096, 4096)

/-- A selection starts. -/
def migStart (s : State) (vf : Nat) : Sys :=
  let v := s.sys.vf vf
  let n := v.mign.toNat
  if v.migstat == .waiting || v.migstat == .selected then s.sys
  else
    match if n = 0 || 64 < n || v.miglist.toNat % 8 != 0 then (none, s.sys) else readPaged s vf (v.miglist.toNat % 2 ^ 48) (8 * n) with
    | (none, y) => y.modVf vf (fun x => { x with migstat := .invalidList })
    | (some b, y) =>
      let cs := (List.range n).map (fun j => candidateRange s vf (field b (8 * j) 8 % 2 ^ 48))
      (y.modVf vf (fun x => { x with candidates := cs, migstat := .waiting })).selectVictim vf

/-- MIGGO (R143). -/
def execMiggo : State → Host.Outcome State Fault Refusal :=
  eventNext (fun s => match s.sys.ev with
    | some (.miggo vf) => { sys := migStart s vf }
    | _ => Eff.none s)

/-- A selection ends or is cancelled. -/
def Sys.migEnd (y : Sys) (vf : Nat) : Sys := y.modVf vf (fun v => { v with migstat := .idle, candidates := [] })

/-- MIGDONE (R143). -/
def execMigdone : State → Host.Outcome State Fault Refusal :=
  eventNext (fun s => match s.sys.ev with
    | some (.migdone vf) => { sys := s.sys.migEnd vf }
    | _ => Eff.none s)

/-- MIGRATION_SELECT (R143): a waiting selection takes the first candidate whose pin count is 0. -/
def execMigrationSelect : State → Host.Outcome State Fault Refusal :=
  eventNext (fun s => match s.sys.ev with
    | some (.migrationSelect vf) => if (s.sys.vf vf).migstat == .waiting then { sys := s.sys.selectVictim vf } else Eff.none s
    | _ => Eff.none s)

end Sys2Proof.Machine
end

