-- ==== Sys2Proof/Machine/Shape.lean ====
section
/-!
DEFINITION. The tensor shape record (R176-R179): its fields and checks, the places of its elements (R178), its chunks (R180), and the
conversion of elements and blocks (R178, R243, R249).
-/
namespace Sys2Proof.Machine

/-! ### The record -/

structure Shape where
  src : Nat
  dst : Nat
  ebytes : Nat
  ndims : Nat
  sfmt : Nat
  dfmt : Nat
  flags : Nat
  ext : List Nat
  rsvd : Nat
  sstr : List Nat
  dstr : List Nat
  bar : Nat
  bmap : Nat
deriving DecidableEq, Repr

/-- The fields of the 128 bytes. -/
def shapeOf (b : List Byte) : Shape :=
  { src := field b 0 8, dst := field b 8 8, ebytes := field b 0x10 1, ndims := field b 0x11 1, sfmt := field b 0x12 1
    dfmt := field b 0x13 1, flags := field b 0x14 4, ext := (List.range 5).map (fun j => field b (0x18 + 4 * j) 4)
    rsvd := field b 0x2C 4, sstr := (List.range 4).map (fun j => field b (0x30 + 8 * j) 8)
    dstr := (List.range 4).map (fun j => field b (0x50 + 8 * j) 8), bar := field b 0x70 8, bmap := field b 0x78 8 }

def Shape.tr (h : Shape) : Bool := bit h.flags 0
def Shape.ta (h : Shape) : Nat := bits h.flags 3 1
def Shape.tb (h : Shape) : Nat := bits h.flags 6 4
def Shape.ovl (h : Shape) : Bool := bit h.flags 7
def Shape.bmen (h : Shape) : Bool := bit h.flags 8
def Shape.sg (h : Shape) : Bool := bit h.flags 9
def Shape.sr (h : Shape) : Bool := bit h.flags 10
def Shape.rnd (h : Shape) : Nat := bits h.flags 13 11
def Shape.det (h : Shape) : Bool := bit h.flags 14

/-- An element's size in half bytes. -/
def Shape.nibs (h : Shape) (fmt : Nat) : Nat :=
  if fmt = 0 then 2 * h.ebytes else if fmt = 6 then 2 else if fmt = 7 then 1 else 2 * fmtBytes fmt

/-- A twin-exponent format. -/
def isTxb (f : Nat) : Bool := f = 6 || f = 7

/-- The table of a TXB format. -/
def txbOf (f : Nat) : Txb := if f = 6 then txb8 else txb4

/-! ### Places of elements (R178) -/

/-- Two places of a list exchanged. -/
def swapAt (l : List Nat) (a b : Nat) : List Nat := (l.set a (l.getD b 0)).set b (l.getD a 0)

/-- The source and destination extents of the dimensions in use. -/
def Shape.sext (h : Shape) : List Nat := h.ext.take h.ndims
def Shape.dext (h : Shape) : List Nat := if h.tr then swapAt h.sext h.ta h.tb else h.sext

/-- How many elements. -/
def Shape.count (h : Shape) : Nat := h.sext.foldl (· * ·) 1

/-- The index of the n-th element in destination order, dimension 0 fastest. -/
def unflatten : List Nat → Nat → List Nat
  | [], _ => []
  | d :: r, n => n % d :: unflatten r (n / d)

/-- The place of an index in half bytes from a base, an element size and strides. -/
def placeNib (base nib : Nat) (str idx : List Nat) : Nat :=
  match idx with
  | [] => 2 * base
  | j :: r => 2 * base + j * nib + 2 * ((r.zip str).foldl (fun n p => n + p.1 * p.2) 0)

/-- The n-th destination element's place, and its source's, in half bytes. -/
def Shape.dstNib (h : Shape) (n : Nat) : Nat := placeNib h.dst (h.nibs h.dfmt) h.dstr (unflatten h.dext n)
def Shape.srcNib (h : Shape) (n : Nat) : Nat :=
  let j := unflatten h.dext n
  placeNib h.src (h.nibs h.sfmt) h.sstr (if h.tr then swapAt j h.ta h.tb else j)

/-- The stream's length L, and its chunks (R180). -/
def Shape.length (h : Shape) : Nat := h.count * h.nibs h.dfmt / 2
def Shape.chunks (h : Shape) : Nat := (h.length + 511) / 512

/-- The elements of a chunk. -/
def Shape.elems (h : Shape) (i : Nat) : List Nat :=
  let per := 1024 / h.nibs h.dfmt
  (List.range (min per (h.count - i * per))).map (fun j => i * per + j)

/-- The stream bytes of a chunk. -/
def Shape.chunkBytes (h : Shape) (i : Nat) : Nat := min 512 (h.length - 512 * i)

/-- The byte pointers of the element at a place. -/
def bytesAt (pos nib : Nat) : List Nat := (List.range ((pos % 2 + nib + 1) / 2)).map (fun j => pos / 2 + j)

/-! ### Checks (R179) -/

/-- The context of an engine command's addresses. -/
def Cmd.ctx (c : Cmd) : AddrCtx :=
  { cp := false, engine := true, core := c.core, part := c.part, vf := c.vf, heap := c.launchHeap, block := none, gang := []
    gangSize := 0, scrBytes := 0, alone := false }

/-- The cause of a check that fails, as the record of INVALID names it (R175). -/
def invalidCause (c : Cause) : Cause := if [Cause.limit, .space, .align, .key].contains c then c else .badcmd

/-- n bytes at a pointer fail a window check, or lie under a key outside the VF's range (R59, R126). -/
def AddrCtx.engineFail (c : AddrCtx) (y : Sys) (k : AccKind) (base ea n : Nat) : Option Cause :=
  let v := y.vf c.vf
  match c.failure y 0 k n 1 { lane := 0, base := base, ea := ea } with
  | some (_, x) => some x
  | none =>
    match c.place y 0 ea n with
    | .home f key =>
      if isHbm f && !(v.keylo.toNat ≤ key && key < v.keylo.toNat + v.keyn.toNat) then some .key else none
    | _ => none

/-- The format entry of a heap pointer. -/
def AddrCtx.entryAt (c : AddrCtx) (p : Nat) : Option FormatEntry := if spaceOf p = 0 then c.heap.fmtAt (offsetOf p) else none

/-- The base of a side lies in an entry, or in a paged leaf, of its format (R179 item 4). -/
def AddrCtx.fmtOk (c : AddrCtx) (s : State) (p f : Nat) : Bool :=
  if f = 0 then true
  else
    match c.entryAt p with
    | some e => e.fmt.toNat = f && (!isTxb f || e.geom = 1 || e.geom = 2)
    | none => spaceOf p = 1 && !isTxb f && (match walk s (iodOfCore c.core) c.vf (offsetOf p) false with | .ok w => w.guest.fmt.toNat == f | .error _ => false)

/-- The offsets and causes of the checks of the list of R179, in order, with those of a scatter-gather copy (R181). -/
def Shape.checks (h : Shape) (s : State) (c : AddrCtx) : List (Bool × Nat × Cause) :=
  let y := s.sys
  let n5 := min h.ndims 5
  let dims := List.range 5
  let sB := h.nibs h.sfmt
  let dB := h.nibs h.dfmt
  let pre := fun (ok : Bool) (o : Nat) => (ok, o, Cause.badcmd)
  let at_ := fun (ok : Bool) (o : Nat) (x : Cause) => (ok, o, x)
  let unit := fun (f : Nat) => if f = 6 then 32 else if f = 7 then 16 else h.nibs f / 2
  let sp := fun (p : Nat) (k : AccKind) => !c.spaceBad y k p
  let low := fun (p : Nat) => [2, 3].contains (spaceOf p) && !c.spaceBad y .atomic p
  -- 1
  [ pre ((h.sfmt = 0 && h.dfmt = 0) || h.ebytes = 0) 0x10,
    pre ((!h.sr || h.rnd = 0) && bits h.flags 31 15 = 0 && (h.tr || (h.ta = 0 && h.tb = 0))) 0x14 ] ++
  dims.map (fun j => pre (decide (j < n5) || h.ext.getD j 0 = 0) (0x18 + 4 * j)) ++
  [ pre (h.rsvd = 0) 0x2C ] ++
  (dims.take 4).map (fun j => pre (decide (j + 1 < n5) || h.sstr.getD j 0 = 0) (0x30 + 8 * j)) ++
  (dims.take 4).map (fun j => pre (decide (j + 1 < n5) || h.dstr.getD j 0 = 0) (0x50 + 8 * j)) ++
  [ pre (h.bmen || h.bmap = 0) 0x78,
  -- 2
    pre (1 ≤ h.ndims && h.ndims ≤ 5) 0x10,
    pre (!h.tr || (h.ta < h.tb && h.tb < h.ndims)) 0x14 ] ++
  dims.map (fun j => pre (decide (n5 ≤ j) || h.ext.getD j 0 != 0) (0x18 + 4 * j)) ++
  -- 3
  [ pre (h.sfmt ≤ 7 && h.dfmt ≤ 7 && ((h.sfmt = 0) == (h.dfmt = 0)) &&
      (h.sfmt != 0 || [1, 2, 4, 8, 16].contains h.ebytes)) 0x10,
    pre (h.rnd ≤ 4 && !(h.sr && h.det)) 0x14,
    pre (!h.sg || (h.ndims = 1 && h.sfmt = 0 && h.ebytes = 1)) 0x10, pre (!h.sg || !h.tr) 0x14,
  -- 4
    at_ (sp h.src .load) 0x00 .space, at_ (sp h.dst .store) 0x08 .space,
    at_ (h.bar = 0 || low h.bar) 0x70 .space, at_ (h.bmap = 0 || low h.bmap) 0x78 .space,
    pre (c.fmtOk s h.src h.sfmt) 0x10, pre (c.fmtOk s h.dst h.dfmt) 0x10,
  -- 5
    at_ (h.src % (if h.sg then 32 else unit h.sfmt) = 0) 0x00 .align, at_ (h.dst % unit h.dfmt = 0) 0x08 .align ] ++
  (dims.take 4).map (fun j => at_ (h.sstr.getD j 0 % unit h.sfmt = 0) (0x30 + 8 * j) .align) ++
  (dims.take 4).map (fun j => at_ (h.dstr.getD j 0 % unit h.dfmt = 0) (0x50 + 8 * j) .align) ++
  [ at_ (h.bar % 16 = 0) 0x70 .align,
    pre (!(isTxb h.sfmt || isTxb h.dfmt) || h.ext.getD 0 0 % 32 = 0) 0x18,
  -- 6
    pre (!(h.tr && (isTxb h.sfmt || isTxb h.dfmt)) || h.ext.getD h.ta 0 % 32 = 0) (0x18 + 4 * h.ta),
    pre (!(h.tr && (isTxb h.sfmt || isTxb h.dfmt)) || h.ext.getD h.tb 0 % 32 = 0) (0x18 + 4 * h.tb) ] ++
  -- 7
  (dims.take 4).map (fun j =>
    pre (h.ovl || decide (h.ndims ≤ j + 1) ||
      (if j = 0 then decide (h.dext.getD 0 0 * dB ≤ 2 * h.dstr.getD 0 0)
       else decide (h.dext.getD j 0 * h.dstr.getD (j - 1) 0 ≤ h.dstr.getD j 0))) (0x50 + 8 * j)) ++
  -- 8
  (match if h.sg then none else (List.range h.count).findSome? (fun n =>
      let p := h.srcNib n
      c.engineFail y .load h.src (p / 2) (bytesAt p sB).length) with
    | some x => [(false, 0x00, invalidCause x)] | none => []) ++
  (match (List.range h.count).findSome? (fun n =>
      let p := h.dstNib n
      c.engineFail y .store h.dst (p / 2) (bytesAt p dB).length) with
    | some x => [(false, 0x08, invalidCause x)] | none => []) ++
  (match if h.bar = 0 then none else c.engineFail y .atomic h.bar h.bar 16 with
    | some x => [(false, 0x70, invalidCause x)] | none => []) ++
  (match if h.bmen && h.bmap != 0 then c.engineFail y .atomic h.bmap h.bmap ((h.chunks + 7) / 8) else none with
    | some x => [(false, 0x78, invalidCause x)] | none => []) ++
  -- 9
  [ pre (!h.bmen || h.bmap != 0) 0x78, at_ (!h.bmen || h.bmap % 8 = 0) 0x78 .align ]

/-- The first failing check: the offset and the cause of its record. Items 1 to 3 come before any place is formed. -/
def Shape.fails (h : Shape) (s : State) (c : AddrCtx) : Option (Nat × Cause) :=
  ((h.checks s c).find? (fun x => !x.1)).map (fun x => x.2)

/-! ### Blocks (R248, R249) -/

/-- Where an element of a TXB region lies: its block's number, its place in the block, and the pointer of the block's exponents. -/
structure BlockPlace where
  block : Nat
  pos : Nat
  exps : Nat
deriving DecidableEq, Repr

/-- The block of the element at a place in half bytes of an entry. -/
def FormatEntry.blockAt (e : FormatEntry) (nib : Nat) : BlockPlace :=
  let i := (nib - 2 * e.start.toNat) / (if e.fmt = 6 then 2 else 1)
  let (n, p) := if e.geom = 2 then (i / 1024 * 32 + i % 32, i % 1024 / 32) else (i / 32, i % 32)
  { block := n, pos := p, exps := e.aux.toNat + 2 * n }

/-- The elements of the copy that land in the destination block of element n. -/
def Shape.blockMates (h : Shape) (d : FormatEntry) (n : Nat) : List Nat :=
  (List.range h.count).filter (fun m => (d.blockAt (h.dstNib m)).block == (d.blockAt (h.dstNib n)).block)

/-- Every destination block takes its elements from one source block in the same positions (R249). -/
def Shape.blocksMove (h : Shape) (e d : FormatEntry) : Bool :=
  h.sfmt == h.dfmt && e.geom == d.geom && !h.tr &&
  (List.range h.count).all (fun n =>
    (e.blockAt (h.srcNib n)).pos == (d.blockAt (h.dstNib n)).pos &&
    (h.blockMates d n).all (fun m => (e.blockAt (h.srcNib m)).block == (e.blockAt (h.srcNib n)).block))

/-- The elements that a chunk's bytes depend on: its own, and for a TXB destination all of their blocks. -/
def Shape.needs (h : Shape) (c : AddrCtx) (i : Nat) : List Nat :=
  match if isTxb h.dfmt then c.entryAt h.dst else none with
  | some d => ((h.elems i).flatMap (h.blockMates d)).foldl (fun acc n => if acc.contains n then acc else acc ++ [n]) []
  | none => h.elems i

/-- The byte pointers that a chunk reads: its elements', and the exponents of their source blocks. -/
def Shape.reads (h : Shape) (c : AddrCtx) (i : Nat) : List Nat :=
  (h.needs c i).flatMap (fun n =>
    let p := h.srcNib n
    bytesAt p (h.nibs h.sfmt) ++
    (match if isTxb h.sfmt then c.entryAt h.src else none with
      | some e => let x := (e.blockAt p).exps; [x, x + 1]
      | none => []))

/-! ### What a chunk writes -/

/-- The bits of the element at a place, from its bytes. -/
def nibsOf (get : Nat → Byte) (pos nib : Nat) : Nat :=
  let x := numOf ((bytesAt pos nib).map get)
  (x >>> (4 * (pos % 2))) % 2 ^ (4 * nib)

/-- The value of the source element at a place. -/
def Shape.value (h : Shape) (c : AddrCtx) (get : Nat → Byte) (pos : Nat) : FVal :=
  let x := nibsOf get pos (h.nibs h.sfmt)
  match if isTxb h.sfmt then c.entryAt h.src else none with
  | some e =>
    let b := (e.blockAt pos).exps
    txbDecode (txbOf h.sfmt) (get b).toNat (get (b + 1)).toNat x
  | none => elemValue h.sfmt x

/-- The rounding of the j-th element that a chunk writes: SR takes a free value for each, where SR reaches the format (R256). -/
def Shape.mode (h : Shape) (free j : Nat) : Rnd :=
  if h.sr then (if [2, 3, 6, 7].contains h.dfmt then .sr ((Config.freeWord (free + j)).toNat % 65536) else .rne) else rndOf h.rnd

/-- The bytes that whole elements of some bits make from places on, lowest half byte first. -/
def packNibs (nib : Nat) : List (Nat × Nat) → List (Nat × Byte)
  | [] => []
  | (p, x) :: r =>
    if nib = 1 then
      match r with
      | (_, z) :: r2 => (p / 2, BitVec.ofNat 8 (x + 16 * z)) :: packNibs nib r2
      | [] => [(p / 2, BitVec.ofNat 8 x)]
    else (bytesOf (nib / 2) x).mapIdx (fun j b => (p / 2 + j, b)) ++ packNibs nib r

/-- What a chunk writes, byte by byte, the flags it raises, and the free values it uses. -/
structure ChunkOut where
  bytes : List (Nat × Byte)
  flags : BitVec 5 := 0
  frees : Nat := 0
deriving DecidableEq, Repr

/-- The sign of the source element at a place, which a NaN keeps in its block (R246). -/
def Shape.sign (h : Shape) (get : Nat → Byte) (pos : Nat) : Bool :=
  (nibsOf get pos (h.nibs h.sfmt)).testBit (if isTxb h.sfmt then (txbOf h.sfmt).mbits else 4 * h.nibs h.sfmt - 1)

/-- The element that stays at a position of a destination block which several are written to (R178): the highest with DET = 1, one of them
otherwise. -/
def Shape.stays (h : Shape) (who : Nat) (d : FormatEntry) (n p : Nat) : Option Nat :=
  let ms := (h.blockMates d n).filter (fun m => (d.blockAt (h.dstNib m)).pos == p)
  if h.det then ms.getLast? else ms[Config.overlapWriter who (32 * (d.blockAt (h.dstNib n)).block + p) % ms.length]?

/-- The elements of one destination block as encoded (R246): exponents, bits by element, flags. The 32 values are those of the elements that
stay at the 32 positions; a block of which the copy leaves a position unwritten has exponents and elements that the spec does not state. -/
def Shape.block (h : Shape) (c : AddrCtx) (who free : Nat) (get : Nat → Byte) (d : FormatEntry) (n : Nat) :
    Nat × Nat × List (Nat × FRes) :=
  let ms := h.blockMates d n
  let win := (List.range 32).filterMap (h.stays who d n)
  let f := fun (j : Nat) => (Config.freeWord (free + j)).toNat
  let e : Nat × Nat × List FRes :=
    if win.length != 32 then (f 32 % 256, f 33 % 256, (List.range 32).map (fun j => ⟨f j % 2 ^ (4 * h.nibs h.dfmt), 0⟩))
    else txbEncode (txbOf h.dfmt) none (win.mapIdx (fun j m =>
      { neg := h.sign get (h.srcNib m), val := h.value c get (h.srcNib m), mode := h.mode free j }))
  (e.1, e.2.1, ms.map (fun m => (m, e.2.2.getD (d.blockAt (h.dstNib m)).pos ⟨0, 0⟩)))

/-- What a chunk writes once its source bytes are there. -/
def Shape.convert (h : Shape) (c : AddrCtx) (who free i : Nat) (get : Nat → Byte) : ChunkOut :=
  let es := h.elems i
  let sn := h.nibs h.sfmt
  let dn := h.nibs h.dfmt
  if h.sfmt = 0 then
    { bytes := packNibs dn (es.map (fun n => (h.dstNib n, nibsOf get (h.srcNib n) sn))) }
  else if isTxb h.dfmt then
    match c.entryAt h.dst, c.entryAt h.src with
    | some d, e =>
      let move := match e with | some x => isTxb h.sfmt && h.blocksMove x d | none => false
      -- the first element of the chunk in each of its blocks
      let heads := es.filter (fun n => !es.any (fun m => decide (m < n) &&
        (d.blockAt (h.dstNib m)).block == (d.blockAt (h.dstNib n)).block))
      if move then
        let ex := heads.flatMap (fun n => match e with
          | some x =>
            let a := (x.blockAt (h.srcNib n)).exps
            let b := (d.blockAt (h.dstNib n)).exps
            [(b, get a), (b + 1, get (a + 1))]
          | none => [])
        { bytes := ex ++ packNibs dn (es.map (fun n => (h.dstNib n, nibsOf get (h.srcNib n) sn))) }
      else
        let bs := heads.mapIdx (fun j n => (n, h.block c who (free + 34 * j) get d n))
        let ex := bs.flatMap (fun b => let x := (d.blockAt (h.dstNib b.1)).exps
          [(x, BitVec.ofNat 8 b.2.1), (x + 1, BitVec.ofNat 8 b.2.2.1)])
        let all := bs.flatMap (fun b => b.2.2.2)
        let own := es.filterMap (fun n => (all.find? (fun x => x.1 == n)).map (fun x => (h.dstNib n, x.2.bits)))
        let fl := (all.filter (fun x => es.contains x.1)).foldl (fun (m : BitVec 5) x => m ||| x.2.flags) 0
        { bytes := ex ++ packNibs dn own, flags := fl, frees := 34 * heads.length }
    | none, _ => { bytes := [] }
  else
    let rs := es.mapIdx (fun j n => (h.dstNib n, elemBits h.dfmt (h.mode free j) (h.value c get (h.srcNib n))))
    { bytes := packNibs dn (rs.map (fun r => (r.1, r.2.bits))), flags := rs.foldl (fun (m : BitVec 5) r => m ||| r.2.flags) 0
      frees := if h.sr then es.length else 0 }

/-! ### The bytes that a chunk writes -/

/-- The byte pointers that a chunk writes, but for exponents. -/
def Shape.dsts (h : Shape) (i : Nat) : List Nat := (h.elems i).flatMap (fun n => bytesAt (h.dstNib n) (h.nibs h.dfmt))

/-- The source pointer of a stream byte of a chain, once its element has been reached; none where it is skipped (R181). -/
def Cmd.sgByte (c : Cmd) (b : Nat) : Option Nat :=
  (c.sg.find? (fun e => decide (e.1 ≤ b) && decide (b < e.1 + e.2.1))).bind (fun e => if e.2.2.2 then none else some (e.2.2.1 + (b - e.1)))

/-- The stream bytes of a chunk of a chain copy. -/
def Shape.stream (h : Shape) (i : Nat) : List Nat := (List.range (h.chunkBytes i)).map (fun j => 512 * i + j)

/-- The byte pointers that a chunk writes. -/
def Cmd.dests (c : Cmd) (i : Nat) : List Nat :=
  let h := shapeOf c.record
  if c.kind == .digest then []
  else if h.sg then ((h.stream i).filter (fun b => (c.sgByte b).isSome)).map (fun b => h.dst + b) else h.dsts i

/-- Some destination bytes of chunks of a command, as L1 counts them: a predicate on where a byte counts from (R162). -/
def Cmd.lands (c : Cmd) (y : Sys) (is : List Nat) : Nat → Bool :=
  let at_ := (is.flatMap c.dests).filterMap (fun p =>
    match c.ctx.place y 0 p 1 with
    | .home f _ => some f
    | .fabric l sub o => some (flineOf l sub o.toNat)
    | _ => none)
  fun b => at_.contains b

/-- The chunks whose bit of a chunk bitmap stands at a bit of a byte (R180). -/
def Sys.chunksAt (y : Sys) (f i : Nat) : List (Cmd × Nat) :=
  y.cmds.filterMap (fun c =>
    let h := shapeOf c.record
    if (match c.kind with | .copy => true | .channel _ => true | _ => false) && h.bmen then
      ((List.range h.chunks).find? (fun n => n % 8 == i && (match c.ctx.place y 0 (h.bmap + n / 8) 1 with | .home g _ => g == f | _ => false))).map
        (fun n => (c, n))
    else none)

/-- What a CHKTEST that reports a chunk landed drops from L1: that chunk's bytes. Where no command known to the package has set the bit, which
may be one forgotten since, every line goes (DESIGN CHOICE, assumption log 46). -/
def Sys.acquireChunk (y : Sys) (core f i : Nat) : Sys :=
  match y.chunksAt f i with
  | [] => y.dropLines core 5
  | cs => cs.foldl (fun z c => z.dropBytes core (c.1.lands y [c.2])) y

end Sys2Proof.Machine
end

