-- ==== Sys2Proof/Machine/Home.lean ====
section
/-!
DEFINITION. What an access does at its home (R144-R149): loads and L1 lines (R138), stores, atomics (R316, R317), exchanges, tests,
domain barriers (R211), contribution counts (R186), and the ownership table of deterministic launches (R261, R406).
-/
namespace Sys2Proof.Machine

/-- What a home makes of a request: the effect, the value it answers with, and the error it answers with instead. -/
structure Served where
  eff : Eff
  value : List Byte := []
  err : Option Cause := none

/-! ### Leases and GWCT (R146) -/

/-- The bytes from a home byte on in increasing heap address, wherever they are interleaved (R134). -/
def Sys.runOf (y : Sys) (f n : Nat) : List Nat :=
  match y.partOfFlat f with
  | some p => if isHbm f then
      (List.range n).map (fun j => ((y.part p).flat ((y.part p).unflat f + j)).getD 0) else (List.range n).map (fun j => f + j)
  | none => (List.range n).map (fun j => f + j)

/-- The lines of n bytes from f. -/
def Sys.linesOf (y : Sys) (f n : Nat) : List Nat :=
  if f % 4096 + n ≤ 4096 then (List.range (lineOf (f + n - 1) - lineOf f + 1)).map (fun j => lineOf f + j)
  else ((y.runOf f n).map lineOf).eraseDups

/-- The GWCT of a write performed now: the later of now and the latest lease on its lines. -/
def Sys.gwct (y : Sys) (now f n : Nat) : Nat := (y.linesOf f n).foldl (fun m l => max m (tget y.leases l 0)) now

/-- A lease on a line. -/
def Sys.grantLease (y : Sys) (line expiry : Nat) : Sys := { y with leases := tmod y.leases line 0 (fun e => max e expiry) }

/-! ### L1 lines (R138) -/

/-- The space of an access is held in L1. -/
def Access.cached (a : Access) : Bool := spaceOf a.ptr.toNat != 3 && spaceOf a.ptr.toNat != 5

/-- The L1 bytes that serve a load of n bytes at f under a live lease. -/
def Sys.l1Hit (y : Sys) (now : Nat) (a : Access) (f n : Nat) : Option (List Byte) :=
  match a.l1Core with
  | none => none
  | some c =>
    if !a.cached then none
    else ((y.core c).l1.find? (fun x => !x.fabric && x.key == a.key && decide (now < x.expiry) && decide (x.start ≤ f) &&
      decide (f + n ≤ x.start + x.bytes.length))).map (fun x => slice x.bytes (f - x.start) n)

/-- The L1 bytes of a load hold uncorrectable data (R61, R62). -/
def Sys.l1Hurts (y : Sys) (a : Access) (f n : Nat) : Bool := match a.l1Core with | some c => (y.core c).l1Hurt f n | none => false

/-- A store updates the issuing core's copy. -/
def Sys.l1Write (y : Sys) (a : Access) (f : Nat) (data : List Byte) : Sys :=
  match a.l1Core with
  | none => y
  | some c => y.modCore c (fun k => { k.l1Good f data.length with l1 := k.l1.map (fun x => x.write false f data) })

/-- An atomic invalidates the issuing core's copy of its line. -/
def Sys.l1Drop (y : Sys) (a : Access) (f : Nat) : Sys :=
  match a.l1Core with
  | none => y
  | some c => y.modCore c (fun k => { k with l1 := k.l1.filter (fun x => x.fabric || lineOf x.start != lineOf f) })

/-- A load miss fills its line under a lease. -/
def Sys.l1Fill (s : State) (y : Sys) (a : Access) (f : Nat) : Sys :=
  match a.l1Core with
  | none => y
  | some c =>
    let line := lineOf f
    if a.mod = 2 || !a.cached || y.eccHit (line * 128) 128 then y
    else
      let e := s.gtime + if a.mod = 1 then 500 else 4000
      let x : L1Line := { start := line * 128, expiry := e, fabric := false, key := a.key, bytes := readBytes s.mem (line * 128) 128 }
      (y.modCore c (fun k => { k.l1Good (line * 128) 128 with l1 := fillLine x k.l1 })).grantLease line e

/-! ### Deterministic launches (R260, R261) -/

/-- A pointer of a launch reaches a P region (R266). -/
def Launch.inProfile (l : Launch) (p : Nat) : Bool :=
  let at? := fun (o : Nat) => match l.heap.fmtAt o with | some f => f.p | none => false
  if spaceOf p = 0 then at? (offsetOf p)
  else if spaceOf p = 5 then (match l.heap.fmtAt (offsetOf p) with | some f => at? (f.cell (offsetOf p)) | none => false)
  else false

/-- The deterministic launch whose ownership table covers an access, and the block that makes it. -/
def Sys.owner (y : Sys) (a : Access) : Option (Launch × Nat) :=
  match a.who, y.launch? a.launch with
  | .group h, some l =>
    if l.record.det && !a.quarantined && [0, 2, 5].contains (spaceOf a.ptr.toNat) && !l.inProfile a.ptr.toNat then
      (y.group? h).map (fun g => (l, g.blockIndex))
    else none
  | _, _ => none

/-- The launch keeps its changed table, and the bytes that changed with it are written; an exhausted launch ends (R262). -/
def ownWrite (s : State) (l : Launch) (f : Nat) (cells : List Host.Cell) (addr : DWord) : Eff × Bool :=
  if l.ownExhausted (s.sys.part l.part) then ({ sys := s.sys.exhaust s.gtime l.uid addr }, true)
  else
    let y := if cells.isEmpty then s.sys else captureFor s f 1
    ({ sys := y.modLaunch l.uid (fun x => { x with own := l.own, ownLines := l.ownLines, ownRecords := l.ownRecords })
       cells := cells }, false)

/-! ### Loads and stores -/

/-- A load of n bytes at its home or from L1. -/
def serveLoad (s : State) (a : Access) (f n : Nat) : Served :=
  match s.sys.owner a with
  | some (l, b) =>
    (match s.sys.readError f n a.key with
      | some c => { eff := Eff.none s, err := some c }
      | none =>
        let t := l.ownTouch (lineOf f) b
        let (e, dead) := ownWrite { s with sys := s.sys.readAt f n a.key } t.1 f t.2 a.ptr
        { eff := e, value := if dead then [] else t.1.ownView (writeCells s.mem t.2) b f n })
  | none =>
    match s.sys.l1Hit s.gtime a f n with
    | some v => if s.sys.l1Hurts a f n then { eff := Eff.none s, err := some .ecc } else { eff := Eff.none s, value := v }
    | none =>
      match s.sys.readError f n a.key with
      | some c => { eff := Eff.none s, err := some c }
      | none => { eff := { sys := Sys.l1Fill s (s.sys.readAt f n a.key) a f }, value := readBytes s.mem f n }

/-- A store of bytes at its home. -/
def serveStore (s : State) (a : Access) (f : Nat) (data : List Byte) : Served :=
  match s.sys.writeError f data.length a.key with
  | some c => { eff := Eff.none s, err := some c }
  | none =>
    let t : State := { s with sys := s.sys.claim f a.key }
    match s.sys.owner a with
    | some (l, b) =>
      let r := l.ownStore s.mem b f data
      { eff := (ownWrite t r.1 f r.2 a.ptr).1 }
    | none =>
      let e := putBytes t f data
      { eff := { e with sys := (e.sys.l1Write a f data).postStore a f data.length } }

/-! ### Atomics (R316, R317) -/

/-- The sum of the two halves of a word as bf16. -/
def addHalves (x y : Nat) : Nat :=
  (fadd bf16 .rne (x % 65536) (y % 65536)).bits + 65536 * (fadd bf16 .rne (x / 65536 % 65536) (y / 65536 % 65536)).bits

/-- The value that an atomic writes (R316). -/
def AtomOp.new (k : AtomOp) (old a c : Nat) : Nat :=
  let lt := fun (x y : Nat) => decide (signedOf 32 x < signedOf 32 y)
  match k with
  | .addB32 => (old + a) % 2 ^ 32
  | .addF32 | .caddF32 => (fadd fp32 .rne old a).bits
  | .addBf16x2 | .caddBf16x2 => addHalves old a
  | .minS32 => if lt a old then a else old
  | .maxS32 => if lt old a then a else old
  | .minZ32 => min old a
  | .maxZ32 => max old a
  | .and => old &&& a
  | .or => old ||| a
  | .xor => old ^^^ a
  | .xchg => a
  | .cas | .casB64 => if old = c then a else old
  | .incw => if a ≤ old then 0 else old + 1
  | .decw => if old = 0 || a < old then a else old - 1
  | .addB64 => (old + a) % 2 ^ 64

/-- One indivisible read and write of n bytes. Nothing is written where `new` answers none. -/
def serveModify (s : State) (a : Access) (f n : Nat) (new : Nat → Option Nat) : Served :=
  match s.sys.readError f n a.key with
  | some c => { eff := Eff.none s, err := some c }
  | none =>
    let t0 : State := { s with sys := (s.sys.readAt f n a.key).l1Drop a f }
    let (e0, dead) : Eff × Bool := match s.sys.owner a with
      | some (l, b) =>
        let r := l.ownTouch (lineOf f) b
        ownWrite t0 (r.1.ownPre (writeCells s.mem r.2) (lineOf f)) f r.2 a.ptr
      | none => (Eff.none t0, false)
    if dead then { eff := e0 }
    else
      let t := e0.apply t0
      let old := numOf (readBytes t.mem f n)
      { eff := e0.andThen t0 (fun u => match new old with
          | some v => putBytes u f (bytesOf n v)
          | none => Eff.none u)
        value := bytesOf n old }

/-- An atomic. A CAS that fails writes nothing. -/
def serveAtomic (s : State) (a : Access) (f : Nat) (k : AtomOp) (x c : DWord) : Served :=
  let w := 8 * k.size
  serveModify s a f k.size (fun old =>
    match k with
    | .cas | .casB64 => if old = c.toNat % 2 ^ w then some (x.toNat % 2 ^ w) else none
    | _ => some (k.new old (x.toNat % 2 ^ w) (c.toNat % 2 ^ w)))

/-! ### Domain barriers (R210, R211) -/

/-- Bytes of memory at some flat addresses. -/
def readRun (m : List Host.Cell) (run : List Nat) : List Byte := run.map (readByte m)

/-- An operation on a domain barrier object. -/
def serveDomain (s : State) (a : Access) (f op m chip : Nat) : Served :=
  let run := s.sys.runOf f 1088
  let units := (List.range 17).map (fun j => run.getD (64 * j) 0)
  match units.findSome? (fun u => s.sys.readError u 64 a.key) with
  | some c => { eff := Eff.none s, err := some c }
  | none =>
    let b := domainOp (readRun s.mem run) op m chip
    let y := units.foldl (fun y u => y.readAt u 64 a.key) s.sys
    let t : State := { s with sys := y.knowDomain (.home f) }
    { eff := putAll t (units.mapIdx (fun j u => (u, slice b (64 * j) 64))) }

/-! ### Contribution counts (R186, R187) -/

/-- A line's entry. -/
def Sys.contribAt (y : Sys) (line : Nat) : Option ContribEntry := y.contribs.find? (fun c => c.line == line)

/-- An entry for the line exists or is free among the 4,096 of its Jack group. -/
def Sys.contribFree (y : Sys) (line : Nat) : Bool :=
  (y.contribAt line).isSome ||
  decide ((y.contribs.filter (fun c => homeCluster (c.line * 128) == homeCluster (line * 128))).length < 4096)

/-- A line's entry made or changed. -/
def Sys.putContrib (y : Sys) (c : ContribEntry) : Sys :=
  { y with contribs := y.contribs.filter (fun x => x.line != c.line) ++ [c] }

/-- An arrival that the home of a line makes on a declared barrier. An error of it is logged with the object's address, as the declaration
gave it (R170). -/
def homeArrival (s : State) (bar : Nat) (ptr : DWord) : Eff :=
  let r := barrierOp s bar .arrive
  match r.err with
  | some c => { r.eff with sys := r.eff.sys.logEal s.gtime ((r.eff.sys.partOfFlat bar).getD 0) c 0 0 ptr .port 0 0 0 }
  | none => r.eff

/-- A ready arrival is a release of its line (R163): it is made at once where no lease on the line outlives the moment, else when the GWCT
of the line's contributions has passed. -/
def releaseArrival (s : State) (d : DueArrival) : Eff :=
  if d.time ≤ s.gtime && !s.sys.writeStalls d.bar 16 then homeArrival s d.bar d.ptr
  else { sys := { s.sys with due := s.sys.due ++ [d] } }

/-- The ready arrival, when the count has reached the declared number; the entry is freed (R186). -/
def readyArrival (s : State) (line : Nat) : Eff :=
  match s.sys.contribAt line with
  | some c =>
    (match c.declared with
      | some (n, bar) =>
        if n ≤ c.count then
          releaseArrival { s with sys := { s.sys with contribs := s.sys.contribs.filter (fun x => x.line != line) } }
            { bar := bar, ptr := c.ptr, time := c.gwct }
        else Eff.none s
      | none => Eff.none s)
  | none => Eff.none s

/-- Contributions counted at a line. -/
def countContrib (s : State) (f n : Nat) : Eff :=
  let line := lineOf f
  let c := (s.sys.contribAt line).getD { line := line, count := 0, declared := none, bound := none, aborted := false }
  let y := s.sys.putContrib { c with count := c.count + n, gwct := max c.gwct (s.sys.gwct s.gtime f 4) }
  Eff.andThen { sys := y } s (fun t => readyArrival t line)

/-- A contribution: its add, then its count. An aborted entry discards it: it is answered as performed, with the line's value
where it returns one (R226). -/
def serveCadd (s : State) (a : Access) (f : Nat) (k : AtomOp) (x : DWord) (n : Nat) : Served :=
  if (match s.sys.contribAt (lineOf f) with | some c => c.aborted | none => false) then
    serveModify s a f 4 (fun _ => none)
  else
  let r := serveAtomic s a f k x 0
  match r.err with
  | some _ => r
  | none => { r with eff := r.eff.andThen s (fun t => countContrib t f n) }

/-! ### Order at the home (R149, R216, R219) -/

/-- Two accesses touch a common byte of this package. -/
def Access.overlaps (a b : Access) : Bool :=
  match a.target, b.target with
  | .home f, .home g => decide (f < g + b.op.bytes) && decide (g < f + a.op.bytes)
  | _, _ => false

/-- Earlier accesses that must perform before an access may: those of a common lane (R149), and within an inverted instruction those of
its lane and of the lanes that name its element (R216, R219); deterministic exchanges of several lanes go in key order instead (R221). -/
def Sys.orderOk (y : Sys) (a : Access) : Bool :=
  y.accesses.all (fun b =>
    !(b.id < a.id && b.isFlight && b.who == a.who && !b.isFabric &&
      ((match a.who with | .engine _ => false | _ => true) && b.lanes &&& a.lanes != 0 && (!a.op.isRead || a.overlaps b) ||
       (a.ordered && b.ordered && b.seq == a.seq &&
        (b.lane == a.lane || (a.overlaps b && !(a.abacus.isSome && b.abacus.isSome)))))))

/-- The error of an access of the same instruction that an ordered access waits for. -/
def Sys.linkError (y : Sys) (a : Access) : Option (Cause × BitVec 8) :=
  if a.ordered then
    y.accesses.findSome? (fun b =>
      if b.id < a.id && b.ordered && b.who == a.who && b.seq == a.seq && b.lane == a.lane then
        (match b.st with | .failed c r _ _ => some (c, r) | _ => none)
      else none)
  else none

/-- The old value that the linked exchange returned, with its tag behind it (R216). -/
def Sys.tapeData (y : Sys) (link : Nat) (tag : Word) : Option (List Byte) :=
  match y.access? link with
  | some b => (match b.st with
    | .performed v _ => some (bytesOf 4 (numOf v) ++ bytesOf 4 tag.toNat)
    | _ => none)
  | none => none

/-! ### Completion -/

/-- An access has performed with a value and a GWCT. A store or atomic of a launch counts towards the release that its CBAR arrival makes
(R165). -/
def Sys.performAt (y : Sys) (a : Access) (v : List Byte) (gwct : Nat) : Sys :=
  let y1 := (y.modAccess a.id (fun x => { x with st := .performed v gwct })).deliver a v
  match a.who with
  | .group _ => if a.op.isRead then y1 else y1.modLaunch a.launch (fun l => { l with release := max l.release gwct })
  | _ => y1

/-- The access has performed or been answered with an error. -/
def finishAccess (s : State) (a : Access) (r : Served) (n : Nat) : Eff :=
  let y := r.eff.sys
  let f := match a.target with | .home f => f | .fabric _ _ _ => 0
  let y1 := match r.err with
    | some c => y.failAccess s.gtime a c 0 0 false
    | none => y.performAt a r.value (y.gwct s.gtime f n)
  { r.eff with sys := y1 }

/-- An entry's lane is held by the acquire that its BTEST makes (R161, R325). -/
def Sys.holdLane (y : Sys) (a : Access) : Sys :=
  let h : FenceHold := { kind := 1, scope := 5, classes := 7, lanes := a.lanes, only := none }
  match a.who with
  | .group g => y.modGroup g (fun x => { x with
      frontier := x.frontier.map (fun e => if e.mask &&& a.lanes != 0 then { e with holds := e.holds ++ [h] } else e) })
  | .cp c => y.modCp c (fun x => { x with holds := x.holds ++ [h] })
  | _ => y

/-- What an access does at its home; none while it waits there. Barrier operations, contributions and deterministic updates have
steps of their own. -/
def serve (s : State) (a : Access) (f : Nat) : Option Served :=
  match a.op with
  | .load n => some (serveLoad s a f n)
  | .store d => if s.sys.writeStalls f d.length then none else some (serveStore s a f d)
  | .tape tag link =>
    if s.sys.writeStalls f 8 then none else (s.sys.tapeData link tag).map (fun d => serveStore s a f d)
  | .atomic k _ x c =>
    if k.contributes || a.abacus.isSome || s.sys.writeStalls f k.size then none else some (serveAtomic s a f k x c)
  | .exchange n v =>
    if a.abacus.isSome || s.sys.writeStalls f n then none
    else
      match s.sys.owner a with
      | some (l, b) =>
        some { serveStore s a f (bytesOf n v.toNat) with value := l.ownView s.mem b f n }
      | none => some (serveModify s a f n (fun _ => some (v.toNat % 2 ^ (8 * n))))
  | .bit i =>
    some (match s.sys.readError f 1 a.key with
      | some c => { eff := Eff.none s, err := some c }
      | none =>
        let set := (readByte s.mem f).getLsbD i
        { eff := { sys := if set then s.sys.acquireChunk a.core f i else s.sys }, value := bytesOf 4 (if set then 1 else 0) })
  | .test w =>
    some (match s.sys.readError f 16 a.key with
      | some c => { eff := Eff.none s, err := some c }
      | none =>
        let o := readBar s.mem f
        { eff := { sys := if !o.inv && BitVec.ofNat 31 o.phase != w then s.sys.holdLane a else s.sys }
          value := bytesOf 4 o.value.toNat })
  | .domain op m chip =>
    if s.sys.writeStalls f 1088 then none else some (serveDomain s a f op m.toNat chip.toNat)
  | _ => none

/-- HOME_ACCESS (R145): one access in flight performs at its home, once the order of its lane allows (R149). -/
def homeAccess (s : State) (id : Nat) : Eff :=
  match s.sys.access? id with
  | none => Eff.none s
  | some a =>
    match a.target with
    | .fabric _ _ _ => Eff.none s
    | .home f =>
      if !a.isFlight || !s.sys.orderOk a then Eff.none s
      else
        match s.sys.linkError a with
        | some (c, r) => { sys := s.sys.failAccess s.gtime a c r 0 true }
        | none =>
          match serve s a f with
          | none => Eff.none s
          | some r => finishAccess s a r a.op.bytes

/-- HOME_ACCESS (R145, R149). -/
def execHomeAccess : State → Host.Outcome State Fault Refusal :=
  eventNext (fun s => match s.sys.ev with
    | some (.homeAccess id) => homeAccess s id
    | _ => Eff.none s)

/-! ### Barrier operations as accesses (R169-R173) -/

/-- A barrier operation of an access in flight; `op` names those that the event performs. -/
def barrierAccess (s : State) (id : Nat) (op : AccOp → Option BarOp) : Eff :=
  match s.sys.access? id with
  | none => Eff.none s
  | some a =>
    match a.target, op a.op with
    | .home f, some o =>
      if !a.isFlight || !s.sys.orderOk a || s.sys.writeStalls f 16 then Eff.none s
      else
        let r := barrierOp s f o
        finishAccess s a { eff := r.eff, value := bytesOf 4 r.value.toNat, err := r.err } 16
    | _, _ => Eff.none s

/-- BARRIER_ARRIVAL (R169). -/
def execBarrierArrival : State → Host.Outcome State Fault Refusal :=
  eventNext (fun s => match s.sys.ev with
    | some (.barrierArrival id) => barrierAccess s id (fun o => match o with | .arrive => some .arrive | _ => none)
    | _ => Eff.none s)

/-- BARRIER_LANDING (R169). -/
def execBarrierLanding : State → Host.Outcome State Fault Refusal :=
  eventNext (fun s => match s.sys.ev with
    | some (.barrierLanding id) => barrierAccess s id (fun o => match o with | .landing n => some (.landing n) | _ => none)
    | _ => Eff.none s)

/-- BARRIER_EXPECT (R169). -/
def execBarrierExpect : State → Host.Outcome State Fault Refusal :=
  eventNext (fun s => match s.sys.ev with
    | some (.barrierExpect id) => barrierAccess s id (fun o => match o with | .expect n => some (.expect n.toNat) | _ => none)
    | _ => Eff.none s)

/-- BARRIER_INIT (R172). -/
def execBarrierInit : State → Host.Outcome State Fault Refusal :=
  eventNext (fun s => match s.sys.ev with
    | some (.barrierInit id) => barrierAccess s id (fun o => match o with | .init c => some (.init c.toNat) | _ => none)
    | _ => Eff.none s)

/-- BARRIER_INVALIDATE (R173). -/
def execBarrierInvalidate : State → Host.Outcome State Fault Refusal :=
  eventNext (fun s => match s.sys.ev with
    | some (.barrierInvalidate id) => barrierAccess s id (fun o => match o with | .invalidate => some .invalidate | _ => none)
    | _ => Eff.none s)

/-! ### Contributions (R186, R187, R226, R227) -/

/-- CADD_HOME (R186): a contribution without a deterministic key adds and is counted, once the line has an entry. -/
def caddHome (s : State) (id : Nat) : Eff :=
  match s.sys.access? id with
  | none => Eff.none s
  | some a =>
    match a.target, a.op with
    | .home f, .atomic k _ x _ =>
      if !k.contributes || a.abacus.isSome || !a.isFlight || !s.sys.orderOk a || !s.sys.contribFree (lineOf f) ||
        s.sys.writeStalls f 4 then Eff.none s
      else finishAccess s a (serveCadd s a f k x 1) 4
    | _, _ => Eff.none s

/-- A ready arrival that waits is made once its time has come. -/
def dueArrival (s : State) (bar : Nat) : Eff :=
  match s.sys.due.find? (fun d => d.bar == bar && decide (d.time ≤ s.gtime)) with
  | none => Eff.none s
  | some d =>
    if s.sys.writeStalls bar 16 then Eff.none s
    else homeArrival { s with sys := { s.sys with due := s.sys.due.erase d } } bar d.ptr

/-- CADD_HOME (R163, R186). -/
def execCaddHome : State → Host.Outcome State Fault Refusal :=
  eventNext (fun s => match s.sys.ev with
    | some (.caddHome id) => caddHome s id
    | some (.readyArrival bar) => dueArrival s bar
    | _ => Eff.none s)

/-- Where a declared barrier pointer leads at the home's package: scratchpad through the issuer's own window, or distributed SRAM
(R187, R318). -/
def Sys.declBarrier (y : Sys) (a : Access) (part : Nat) (vf : Nat) (p : Nat) : Option Nat :=
  let g : Option Group := match a.who with | .group h => y.group? h | _ => none
  let blk := match g with | some x => (match x.block with | some u => y.block? u | none => none) | none => none
  let ctx : AddrCtx :=
  { cp := (match a.who with | .cp _ => true | _ => false), engine := (match a.who with | .port _ => true | _ => false)
    core := a.core, part := part, vf := vf, heap := {}, block := blk
    gang := (match blk with | some b => y.blocks.filter (fun x => x.gang == b.gang && x.launch == b.launch) | none => [])
    gangSize := (match g with | some x => x.gangSize.toNat | none => 0)
    scrBytes := (match g with | some x => x.scrBytes.toNat | none => 0), alone := false }
  let port := match a.who with | .port _ => true | _ => false
  if spaceOf p != 2 && (port || spaceOf p != 3) then none
  else if p % 16 != 0 || ctx.spaceBad y .atomic p then none
  else match ctx.place y 0 p 16 with
    | .home f _ => some f
    | _ => none

/-- A CDECL at its line (R187, R227): the status and the effect. -/
def serveDecl (s : State) (a : Access) (part vf f : Nat) (n : Word) (bar : DWord) : Served :=
  let line := lineOf f
  let y := s.sys
  let q := y.part part
  let cnt := bits n.toNat 15 0
  let grp := bits n.toNat 21 16
  let useGroup := bit n.toNat 31
  let answer := fun (e : Eff) (st : Nat) => ({ eff := e, value := bytesOf 4 st } : Served)
  match y.readError f 128 a.key with
  | some c => { eff := Eff.none s, err := some c }
  | none =>
    let entry := (y.contribAt line).filter (fun e => !e.aborted)
    let held := match entry with | some e => e.declared.isSome | none => false
    if bits n.toNat 30 22 != 0 then answer (Eff.none s) 3
    else if cnt = 0 && bar = 0 then
      if held then answer (Eff.none s) 2
      else answer { sys := { y with contribs := y.contribs.filter (fun e => e.line != line) } } 4
    else if cnt = 0 then answer (Eff.none s) 3
    else
      match y.declBarrier a part vf bar.toNat with
      | none => answer (Eff.none s) 3
      | some b =>
        if (readBar s.mem b).inv then answer (Eff.none s) 3
        else if held then answer (Eff.none s) 2
        else if !y.contribFree line then answer (Eff.none s) 1
        else
          let e0 : ContribEntry := entry.getD { line := line, count := 0, declared := none, bound := none, aborted := false }
          let bound := if useGroup then some (grp, q.groupGen grp) else none
          let y1 := y.putContrib { e0 with declared := some (cnt, b), bound := bound, ptr := bar }
          answer (Eff.andThen { sys := y1 } s (fun t => readyArrival t line)) 0

/-- CDECL_HOME (R187). -/
def cdeclHome (s : State) (id : Nat) : Eff :=
  match s.sys.access? id with
  | none => Eff.none s
  | some a =>
    match a.target, a.op with
    | .home f, .decl n bar =>
      if a.abacus.isSome || !a.isFlight || !s.sys.orderOk a then Eff.none s
      else finishAccess s a (serveDecl s a a.part a.vf f n bar) 4
    | _, _ => Eff.none s

/-- CDECL_HOME (R187). -/
def execCdeclHome : State → Host.Outcome State Fault Refusal :=
  eventNext (fun s => match s.sys.ev with
    | some (.cdeclHome id) => cdeclHome s id
    | _ => Eff.none s)

/-! ### Deterministic updates (R263) -/

/-- What an update does when Abacus applies it. -/
def serveUpdate (s : State) (a : Access) (f : Nat) : Option Served :=
  match a.op with
  | .atomic k _ x c =>
    if k.contributes then (if s.sys.contribFree (lineOf f) then some (serveCadd s a f k x 1) else none)
    else some (serveAtomic s a f k x c)
  | .exchange n v => some (serveModify s a f n (fun _ => some (v.toNat % 2 ^ (8 * n))))
  | .decl n b => some (serveDecl s a a.part a.vf f n b)
  | _ => none

/-- ABACUS_APPLY (R263): the update whose key is the watermark applies. -/
def abacusApply (s : State) (id : Nat) : Eff :=
  match s.sys.access? id with
  | none => Eff.none s
  | some a =>
    match a.target with
    | .fabric _ _ _ => Eff.none s
    | .home f =>
      if !a.updating || !s.sys.mayApply a || !s.sys.orderOk a || s.sys.writeStalls f a.op.bytes then Eff.none s
      else
        match s.sys.linkError a with
        | some (c, r) => { sys := (s.sys.failAccess s.gtime a c r 0 true).settleLine a.line }
        | none =>
          match serveUpdate s a f with
          | none => Eff.none s
          | some r =>
            let e := finishAccess s a r a.op.bytes
            { e with sys := e.sys.settleLine a.line }

/-- ABACUS_APPLY (R263). -/
def execAbacusApply : State → Host.Outcome State Fault Refusal :=
  eventNext (fun s => match s.sys.ev with
    | some (.abacusApply id) => abacusApply s id
    | _ => Eff.none s)

/-- ABACUS_RETRY (R263): a NACKed update tries its line again after 64 control clocks. -/
def execAbacusRetry : State → Host.Outcome State Fault Refusal :=
  eventNext (fun s => match s.sys.ev with
    | some (.abacusRetry id) =>
      (match s.sys.access? id with
        | some a =>
          (match a.retryAt with
            | some t => if t ≤ s.gtime then { sys := s.sys.abacusArrive s.gtime id } else Eff.none s
            | none => Eff.none s)
        | none => Eff.none s)
    | _ => Eff.none s)

/-- Every lane of a block has executed EXIT, and every update of it has been applied (R261 rule 4). -/
def Sys.blockDone (y : Sys) (l : Launch) (b : Nat) : Bool :=
  decide (b < l.placed) &&
  !y.groups.any (fun g => g.launch == l.uid && g.blockIndex == b && g.lanes != 0) &&
  !y.accesses.any (fun a => a.launch == l.uid && a.isFlight && !a.undone &&
    (match a.who with
      | .group h => (match y.group? h with | some g => g.blockIndex == b | none => false)
      | _ => false))

/-- SERIAL_PHASE (R261): the next block's versions go over memory and its private lines are released. -/
def serialPhase (s : State) (u : Nat) : Eff :=
  match s.sys.launch? u with
  | none => Eff.none s
  | some l =>
    if !l.record.det || !s.sys.blockDone l l.serial then Eff.none s
    else
      let r := l.ownSerial l.serial
      let out := r.2.foldl (fun m c => max m (s.sys.gwct s.gtime c.1 1)) l.release
      if s.sys.allStall (r.2.map (fun c => (c.1, 1))) then Eff.none s
      else
        let y := r.2.foldl (fun y c => captureFor { s with sys := y } c.1 1) s.sys
        { sys := y.modLaunch u (fun x => { x with serial := r.1.serial, own := r.1.own, release := out }), cells := r.2 }

/-- SERIAL_PHASE (R261). -/
def execSerialPhase : State → Host.Outcome State Fault Refusal :=
  eventNext (fun s => match s.sys.ev with
    | some (.serialPhase u) => serialPhase s u
    | _ => Eff.none s)

end Sys2Proof.Machine
end

