-- ==== Sys2Proof/Machine/Launch.lean ====
section
/-!
DEFINITION. Launches: the record and the priority map (R73, R102), the pending-launch store (R95), the distributor (R82-R85), the
initial state of groups (R88, R213), release and finish (R86, R87), spawn bins (R91-R93), GROW and SHRINK (R89), and the
instructions of R96-R101.
-/
namespace Sys2Proof.Machine

/-! ### The record (R73) -/

/-- The fields of the 128 bytes. -/
def recordOf (b : List Byte) : LaunchRec :=
  let w := fun (o n : Nat) => field b o n
  let x := w 0x54 4
  { code := BitVec.ofNat 64 (w 0 8), entry := BitVec.ofNat 32 (w 8 4), priomap := BitVec.ofNat 32 (w 12 4)
    gridX := BitVec.ofNat 32 (w 0x10 4), gridY := BitVec.ofNat 32 (w 0x14 4), gridZ := BitVec.ofNat 32 (w 0x18 4)
    gpb := BitVec.ofNat 8 (w 0x1C 1), det := bit (w 0x1D 1) 0, coop := bit (w 0x1D 1) 1
    gangP := BitVec.ofNat 8 (w 0x1E 1), gangF := BitVec.ofNat 8 (w 0x1F 1), regs := BitVec.ofNat 8 (w 0x20 1)
    qos := BitVec.ofNat 8 (w 0x21 1), scrBytes := BitVec.ofNat 32 (w 0x24 4), constp := BitVec.ofNat 64 (w 0x28 8)
    kcount := BitVec.ofNat 8 (w 0x30 1), cbar := BitVec.ofNat 64 (w 0x38 8), launchId := BitVec.ofNat 32 (w 0x40 4)
    parentId := BitVec.ofNat 32 (w 0x44 4), tapep := BitVec.ofNat 64 (w 0x48 8), tapeBytes := BitVec.ofNat 32 (w 0x50 4)
    dgroup := BitVec.ofNat 6 x, dgv := bit x 6, bytes := b }

/-- Blocks of the grid. -/
def LaunchRec.blocks (r : LaunchRec) : Nat := r.gridX.toNat * r.gridY.toNat * r.gridZ.toNat

/-- A pointer to heap space with no rank. -/
def isHeapPtr (p : Nat) : Bool := spaceOf p = 0 && rankOf p = 0

/-- The flat address of an object of distributed SRAM that the distributor or the host names (R73, R128). -/
def Sys.sramObject (y : Sys) (part vf p n : Nat) : Option Nat :=
  let w := y.vf vf
  let b := bits p 21 0
  let lo := w.dsbase.toNat * 16384
  if spaceOf p = 2 && bits p 51 24 = 0 && w.dsvalid && lo ≤ b && b + n ≤ lo + w.dsn.toNat * 16384 &&
      b + n ≤ (y.part part).dsres.toNat * 16384 then
    ((y.part part).cluster (rankOf p)).map (fun cl => flatSram (clusterCore cl (bits p 23 22)) b)
  else none

/-- The field checks of R73 in offset order, each with its offset. -/
def recordChecks (y : Sys) (part vf : Nat) (h : HeapWindow) (host : Bool) (r : LaunchRec) : List (Bool × Nat) :=
  let b := r.bytes
  let g := r.blocks
  let q := y.part part
  [ (isHeapPtr r.code.toNat && r.code.toNat % 256 == 0, 0x00),
    (r.entry.toNat % 4 == 0, 0x08), (r.priomap.toNat % 8 == 0, 0x08),
    (r.gridX != 0, 0x10), (r.gridY != 0, 0x14), (r.gridZ != 0 && decide (g ≤ 2 ^ 32 - 1), 0x18),
    (1 ≤ r.gpb.toNat && r.gpb.toNat ≤ 32, 0x1C),
    (!(r.coop && decide (80 * 64 * q.dieList.length < g * r.gpb.toNat)), 0x1C),
    (bits (field b 0x1D 1) 7 2 == 0, 0x1C), (1 ≤ r.gangP.toNat && r.gangP.toNat ≤ 16, 0x1C),
    (r.det || (1 ≤ r.gangF.toNat && r.gangF.toNat ≤ r.gangP.toNat), 0x1C),
    (r.regs.toNat % 8 == 0 && 8 ≤ r.regs.toNat && r.regs.toNat ≤ 128, 0x20), (r.qos.toNat ≤ 3, 0x20),
    (field b 0x22 2 == 0, 0x20), (r.scrBytes.toNat % 256 == 0 && r.scrBytes.toNat ≤ 1048576, 0x24),
    ((if r.kcount = 0 then r.constp == 0
      else isHeapPtr r.constp.toNat && r.constp.toNat % 4 == 0 && h.inside (offsetOf r.constp.toNat) (4 * r.kcount.toNat)), 0x28),
    (r.kcount.toNat ≤ 128, 0x30), (field b 0x31 7 == 0, 0x30),
    (r.cbar == 0 || (r.cbar.toNat % 16 == 0 && (y.sramObject part vf r.cbar.toNat 16).isSome), 0x38),
    (!host || r.parentId == 0, 0x44),
    (r.tapep == 0 || (isHeapPtr r.tapep.toNat && r.tapep.toNat % 8 == 0), 0x48),
    (r.tapeBytes.toNat % 8 == 0 && (r.tapep != 0 || r.tapeBytes == 0), 0x50),
    (r.dgv || r.dgroup == 0, 0x54), (r.det || !r.dgv, 0x54), (bits (field b 0x54 4) 31 7 == 0, 0x54),
    (field b 0x58 40 == 0, 0x58) ]

/-- Groups that quadrant q takes of a block (R83). -/
def quadGroups (gpb q : Nat) : Nat := if gpb ≤ q then 0 else (gpb - q + 3) / 4

/-- k blocks fit on an empty core. -/
def fitsEmpty (q : Part) (r : LaunchRec) (k : Nat) : Bool :=
  k ≤ 16 && k * r.scrBytes.toNat ≤ (224 - q.dsres.toNat) * 16384 &&
  (List.range 4).all (fun d => k * quadGroups r.gpb.toNat d ≤ 16 && k * quadGroups r.gpb.toNat d * r.regs.toNat ≤ 1024)

/-- The three further cases of R73. -/
def recordFits (q : Part) (r : LaunchRec) : List (Bool × Nat) :=
  let s := min (if r.det then r.gangP.toNat else r.gangF.toNat) r.blocks
  [ (fitsEmpty q r 1, 0x1C),
    ((List.range 4).all (fun j => fitsEmpty q r ((s - j + 3) / 4)), 0x1C),
    (!r.dgv || (q.groupMembers r.dgroup.toNat).contains q.chip.toNat, 0x54) ]

/-- What reading memory for a record gives: bytes of heap from an offset on, or an error. -/
abbrev Reader := Nat → Nat → Except Cause (List Byte)

/-- The first error that a read of n heap bytes meets at memory, and the heap offset where it meets it. -/
def heapError (y : Sys) (part : Nat) (h : HeapWindow) (a n : Nat) : Option (Cause × Nat) :=
  (pieces64 a n).findSome? (fun x =>
    match heapFlat (y.part part) h (a + x.1) x.2 with
    | none => some (.limit, a + x.1)
    | some (f, k) => (y.readError f x.2 k).map (fun c => (c, a + x.1)))

/-- Heap bytes as a reader with no versions of its own finds them; a run that leaves the window is LIMIT. -/
def heapReader (s : State) (part : Nat) (h : HeapWindow) : Reader := fun a n =>
  match heapError s.sys part h a n with
  | some (c, _) => .error c
  | none => .ok (readHeap s.mem (s.sys.part part) h a n)

/-- What reads of heap bytes leave: frames claimed and corrected words counted (R59, R61), and a KEY or ECC error that one meets logged by
`log` (R62), after which nothing more is read. -/
def Sys.afterReads (part : Nat) (h : HeapWindow) (log : Sys → Cause → Nat → Sys) : List (Nat × Nat) → Sys → Sys
  | [], y => y
  | (a, n) :: r, y =>
    let y1 := (pieces64 a n).foldl (fun z x =>
      match heapFlat (z.part part) h (a + x.1) x.2 with
      | some (f, k) => if (z.readError f x.2 k).isSome then z else z.readAt f x.2 k
      | none => z) y
    match heapError y part h a n with
    | some (.key, o) => log y1 .key o
    | some (.ecc, o) => log y1 .ecc o
    | some _ => y1
    | none => Sys.afterReads part h log r y1

/-- The priority map from a heap offset on (R102): its entries, or the offset of the first failing entry. `fuel` is how many entries may
precede the end entry. -/
def readPrio (rd : Reader) (at_ : Nat) (fuel : Nat) (prev : Option Nat) (acc : List (Nat × BitVec 16)) :
    Except Nat (List (Nat × BitVec 16)) :=
  match rd at_ 8 with
  | .error _ => .error at_
  | .ok b =>
    let st := field b 0 4
    if st = 0xFFFFFFFF then
      if prev.isNone || field b 4 4 / 65536 != 0 then .error at_ else .ok acc
    else
      match fuel with
      | 0 => .error at_
      | n + 1 =>
        if st % 4 != 0 || field b 6 2 != 0 || (match prev with | none => st != 0 | some p => decide (st ≤ p)) then .error at_
        else readPrio rd (at_ + 8) n (some st) (acc ++ [(st, BitVec.ofNat 16 (field b 4 2))])

/-- What a validated record gives, or the address to log; and the heap reads that this took. -/
def checkRecord (y : Sys) (part vf : Nat) (h : HeapWindow) (host : Bool) (rd : Reader) (addr : Nat) (r : LaunchRec) :
    Except Nat (List Word × List (Nat × BitVec 16)) × List (Nat × Nat) :=
  match (recordChecks y part vf h host r).find? (fun c => !c.1) with
  | some c => (.error (addr + c.2), [])
  | none =>
    let pm := offsetOf r.code.toNat + r.priomap.toNat
    let ct := offsetOf r.constp.toNat
    let n := 4 * r.kcount.toNat
    match readPrio rd pm 4096 none [] with
    | .error a => (.error a, [(pm, a - pm + 8)])
    | .ok m =>
      let rs := [(pm, 8 * m.length + 8)]
      match (recordFits (y.part part) r).find? (fun c => !c.1) with
      | some c => (.error (addr + c.2), rs)
      | none =>
        if r.kcount = 0 then (.ok ([], m), rs)
        else
          match rd ct n with
          | .error _ => (.error (addr + 0x28), rs ++ [(ct, n)])
          | .ok b => (.ok ((List.range r.kcount.toNat).map (fun j => BitVec.ofNat 32 (field b (4 * j) 4)), m), rs ++ [(ct, n)])

/-! ### The store (R95) -/

/-- The pending-launch store has room. -/
def Sys.storeRoom (y : Sys) (part : Nat) : Bool :=
  (y.launches.filter (fun l => l.part == part && l.inStore)).length < 4096

/-- A free entry of the store is for a new request: none has waited for one before (R95). -/
def Sys.storeFree (y : Sys) (part : Nat) : Bool := y.storeRoom part && !y.storeWaits.any (fun w => w.part == part)

/-- A record enters the store, and takes its VF's heap window as it now stands (R132). -/
def Sys.storeLaunch (y : Sys) (part vf : Nat) (r : LaunchRec) (consts : List Word)
    (prio : List (Nat × BitVec 16)) (hostCmd parent : Option Nat) : Sys :=
  let (u, y1) := y.fresh
  let l : Launch :=
  { uid := u, part := part, vf := vf, record := r, heap := (y.vf vf).heap, consts := consts, prio := prio, inStore := true
    waitParent := parent, placed := 0, gangs := 0, releasedBlocks := 0, serial := 0, terminated := false
    stopped := false, finished := false, hostCmd := hostCmd, own := [], ownLines := 0, ownRecords := 0, ticks := {} }
  { y1 with launches := y1.launches ++ [l], launched := true }

/-- A lane of a group takes a deferred status. -/
def Sys.laneStatus (y : Sys) (h lane reg : Nat) (st : Word) : Sys :=
  y.modGroup h (fun g => g.deliver 0 { v := [(lane, reg, st.setWidth 64)] })

/-- LAUNCH_STORE_GRANT (R95): the request that has waited longest takes a freed entry. -/
def execLaunchStoreGrant : State → Host.Outcome State Fault Refusal :=
  eventNext (fun s => match s.sys.ev with
    | some (.launchStoreGrant p) =>
      (match s.sys.storeWaits.find? (fun w => w.part == p) with
        | some w =>
          if s.sys.storeRoom p then
            let rest := s.sys.storeWaits.takeWhile (fun x => x.part != p) ++ (s.sys.storeWaits.dropWhile (fun x => x.part != p)).drop 1
            let y := ({ s.sys with storeWaits := rest } : Sys).storeLaunch p w.vf w.record w.consts w.prio w.hostCmd
              w.parent
            { sys := if w.hostCmd.isSome then y else y.laneStatus w.group w.lane w.reg 0 }
          else Eff.none s
        | none => Eff.none s)
    | _ => Eff.none s)

/-! ### Groups and blocks (R82-R88, R213) -/

/-- The groups resident on a core. -/
def Sys.residents (y : Sys) (core : Nat) : List Group := y.groups.filter (fun g => g.core == core && g.offCore.isNone)

/-- A free group slot of a quadrant. -/
def Sys.freeGroupSlot (y : Sys) (core q : Nat) : Option Nat :=
  ((List.range 16).map (fun j => q * 16 + j)).find? (fun n => !(y.residents core).any (fun g => g.slot == n))

/-- Free registers per lane position in a quadrant's pool. -/
def Sys.freeRegs (y : Sys) (core q : Nat) : Nat :=
  1024 - ((y.residents core).filter (fun g => g.quadrant == q)).foldl (fun n g => n + g.allot) 0

/-- What is free between two places of a slice, around runs in rising order. -/
def freeGaps (lo hi : Nat) (used : List (Nat × Nat)) : List (Nat × Nat) :=
  let r := used.foldl (fun (acc : Nat × List (Nat × Nat)) u =>
    (max acc.1 u.2, if acc.1 < u.1 then acc.2 ++ [(acc.1, u.1 - acc.1)] else acc.2)) (lo, [])
  if r.1 < hi then r.2 ++ [(r.1, hi - r.1)] else r.2

/-- The first n bytes of some runs; none when there are too few. -/
def takeRuns : List (Nat × Nat) → Nat → Option (List (Nat × Nat))
  | [], n => if n = 0 then some [] else none
  | (a, k) :: r, n => if n = 0 then some [] else (takeRuns r (n - min n k)).map (fun l => (a, min n k) :: l)

/-- The lowest free bytes of a core's pool for a scratchpad of n bytes (R83, R128): none that another scratchpad holds, and none in a bank
that holds another VF's. -/
def Sys.scratchAt (y : Sys) (part vf core n : Nat) : Option (List (Nat × Nat)) :=
  let used := (y.blocks.filter (fun b => b.core == core)).flatMap (fun b =>
    let mine := (match y.launch? b.launch with | some l => l.vf | none => vf) == vf
    b.scr.map (fun r => if mine then (r.1, r.1 + r.2) else (r.1 / 16384 * 16384, (r.1 + r.2 + 16383) / 16384 * 16384)))
  let sorted := used.foldl (fun acc u => acc.takeWhile (fun x => decide (x.1 ≤ u.1)) ++ [u] ++ acc.dropWhile (fun x => decide (x.1 ≤ u.1)))
    ([] : List (Nat × Nat))
  takeRuns (freeGaps ((y.part part).dsres.toNat * 16384) (224 * 16384) sorted) n

/-- The tape slice of a group: where it starts and its length (R213). -/
def Launch.tape (l : Launch) (block gix : Nat) : DWord × Word :=
  let r := l.record
  let g := r.blocks * r.gpb.toNat
  let s := r.tapeBytes.toNat / (8 * g) * 8
  if r.tapep = 0 || s = 0 then (0, 0)
  else (BitVec.ofNat 64 (r.tapep.toNat + (block * r.gpb.toNat + gix) * s), BitVec.ofNat 32 s)

/-- The constants in the k registers. -/
def Launch.kregs (l : Launch) : Sparse 32 := ssets [] (l.consts.mapIdx (fun j w => (j, w)))

/-- A group of a block, or of a bin when there is none (R88). -/
def newGroup (y : Sys) (l : Launch) (b : Option Block) (core slot q gix : Nat) : Group × Sys :=
  let (h, y1) := y.fresh
  let r := l.record
  let n := match b with | some x => x.index | none => 0
  let (tb, tl) := match b with | some x => l.tape x.index gix | none => (0, 0)
  let gx := r.gridX.toNat
  let coord := fun (v : Nat) => match b with | some _ => BitVec.ofNat 32 v | none => (0xFFFFFFFF : Word)
  ({ blankGroup with
     handle := h, launch := l.uid, core := core, slot := slot, quadrant := q, block := b.map (fun x => x.uid), gix := gix
     blockX := coord (n % gx), blockY := coord (n / gx % r.gridY.toNat), blockZ := coord (n / gx / r.gridY.toNat)
     blockIndex := n
     gangRank := (match b with | some x => BitVec.ofNat 32 x.rank | none => 0)
     gangSize := (match b with | some x => BitVec.ofNat 32 x.gangSize | none => 0)
     scrBytes := if b.isSome then r.scrBytes else 0
     lanes := 0xFFFFFFFF, allot := r.regs.toNat, regs := { k := l.kregs }, tapeb := tb, tapel := tl
     frontier := [{ pc := r.entry, mask := 0xFFFFFFFF, j := 0, st := .ready }], age := h }, y1)

/-- One block placed on a core; none when it does not fit (R83). -/
def placeBlock (y : Sys) (l : Launch) (index gang rank gsize core : Nat) : Option Sys :=
  let r := l.record
  let bslot := (List.range 16).find? (fun n => !y.blocks.any (fun b => b.core == core && b.bslot == n && !b.released))
  match bslot, y.scratchAt l.part l.vf core r.scrBytes.toNat with
  | some bs, some runs =>
    let (u, y1) := y.fresh
    let b : Block :=
    { uid := u, launch := l.uid, index := index, gang := gang, rank := rank, gangSize := gsize, core := core, bslot := bs
      scr := runs, scrBytes := r.scrBytes.toNat, regs := r.regs.toNat, gpb := r.gpb.toNat, released := false }
    (List.range r.gpb.toNat).foldl (fun (acc : Option Sys) g =>
      match acc with
      | none => none
      | some z =>
        match z.freeGroupSlot core (g % 4) with
        | none => none
        | some slot =>
          if z.freeRegs core (g % 4) < r.regs.toNat then none
          else
            let (ng, z1) := newGroup z l (some b) core slot (g % 4) g
            some { z1 with groups := z1.groups ++ [ng] }) (some { y1 with blocks := y1.blocks ++ [b] })
  | _, _ => none

/-- A gang placed whole on a physical cluster; none when it does not fit. -/
def placeGang (y : Sys) (l : Launch) (size cl : Nat) : Option Sys :=
  (List.range size).foldl (fun (acc : Option Sys) r =>
    match acc with
    | none => none
    | some z => placeBlock z l (l.placed + r) l.placed r size (clusterCore cl (r % 4))) (some y)

/-- The physical clusters of a partition by rising number. -/
def Part.clusters (p : Part) : List Nat := p.dieList.flatMap (fun d => (List.range 16).map (fun c => d * 16 + c))

/-- An entry of a parked group could be Ready (R118): it is, its barrier phase has completed, its results have arrived, or its GROW
can be granted together with its allotment (R90; the room itself is Sys.canReturn's). -/
def Sys.entryWakes (y : Sys) (m : List Host.Cell) (h : Nat) (e : Entry) : Bool :=
  match e.st with
  | .ready => true
  | .barrier a w _ _ _ _ _ => let o := readBar m a; o.inv || BitVec.ofNat 31 o.phase != w
  | .results => e.mask &&& y.awaiting h == 0
  | .grow _ _ => true
  | _ => false

/-- A parked group asks to return (R118, R385). -/
def Sys.wantsBack (y : Sys) (m : List Host.Cell) (g : Group) : Bool :=
  g.offCore.isSome && !g.gpark && !g.killed && g.frontier.any (fun e => y.entryWakes m g.handle e)

/-- The registers per lane position that a group's entries at GROW ask for (R89). -/
def Group.pendingGrow (g : Group) : Nat := g.frontier.foldl (fun n e => match e.st with | .grow k _ => n + k | _ => n) 0

/-- The registers a parked group needs in order to return: its allotment and its pending GROWs. -/
def Group.needs (g : Group) : Nat := g.allot + g.pendingGrow

/-- A GROW request of a resident group still waits. -/
def Sys.growStands (y : Sys) (r : Nat × Nat × Nat) : Bool :=
  match y.group? r.2.1 with
  | some g => g.offCore.isNone && (match (g.entry? r.2.2).map Entry.st with | some (.grow _ _) => true | _ => false)
  | none => false

/-- Some request of a quadrant that was issued before a group's own still waits: no later one is granted before it (R89). -/
def Sys.growBehind (y : Sys) (g : Group) : Bool :=
  g.pendingGrow != 0 &&
  ((y.core g.core).growq.takeWhile (fun r => r.2.1 != g.handle)).any (fun r => r.1 == g.quadrant && y.growStands r)

/-- A parked group can return to a core now. -/
def Sys.canReturn (y : Sys) (m : List Host.Cell) (g : Group) : Bool :=
  y.wantsBack m g && (y.freeGroupSlot g.core g.quadrant).isSome && decide (g.needs ≤ y.freeRegs g.core g.quadrant) && !y.growBehind g

/-- Some parked group can return to a core: it goes ahead of new blocks and bins (R118). -/
def Sys.returnsTo (y : Sys) (m : List Host.Cell) (core : Nat) : Bool := y.groups.any (fun g => g.core == core && y.canReturn m g)

/-- The first cluster that takes a gang of a size. -/
def gangOn (m : List Host.Cell) (y : Sys) (l : Launch) (size : Nat) : Option Sys :=
  (y.part l.part).clusters.findSome? (fun cl =>
    if (List.range (min size 4)).any (fun j => y.returnsTo m (clusterCore cl j)) then none else placeGang y l size cl)

/-- The next gang of a launch placed: the preferred size, or the fallback (R84, R85). -/
def nextGang (now : Nat) (mem : List Host.Cell) (y : Sys) (l : Launch) : Option Sys :=
  let tick := y.tickOf now
  let m := l.record.blocks - l.placed
  let p := min l.record.gangP.toNat m
  let f := min l.record.gangF.toNat m
  let fin := fun (n : Nat) (z : Sys) =>
    let q := z.part l.part
    z.modLaunch l.uid (fun x =>
      { x with placed := x.placed + n, gangs := x.gangs + 1, inStore := decide (x.placed + n < x.record.blocks)
               ticks := if x.ticks.started then x.ticks
                 else { x.ticks with
                   started := true, released := tick
                   members := if x.record.dgv then q.groupMembers x.record.dgroup.toNat else [q.chip.toNat] } })
  match gangOn mem y l p with
  | some z => some (fin p z)
  | none => if l.record.det then none else (gangOn mem y l f).map (fin f)

/-- The launches of a partition that the distributor serves, in its order (R84). -/
def Sys.queue (y : Sys) (part : Nat) : List Launch :=
  let ls := y.launches.filter (fun l => l.part == part && l.inStore && !l.stopped && l.waitParent.isNone)
  [3, 2, 1, 0].flatMap (fun q => ls.filter (fun l => l.record.qos.toNat == q))

/-- GANG_PLACE (R84): the first launch of the queue that can place its next gang. -/
def execGangPlace : State → Host.Outcome State Fault Refusal :=
  eventNext (fun s => match s.sys.ev with
    | some (.gangPlace p) => { sys := ((s.sys.queue p).findSome? (fun l => nextGang s.gtime s.mem s.sys l)).getD s.sys }
    | _ => Eff.none s)

/-! ### Release and finish (R86, R87) -/

/-- No request of a group is in flight. -/
def Sys.quietGroup (y : Sys) (h : Nat) : Bool := !y.accesses.any (fun a => a.who == .group h && a.isFlight)

/-- The place of a word of a tile (R351): element (r, c) at word 32r + c. -/
def tileWord (core t w : Nat) : Nat := core * 131072 + t * 1024 + w

/-- The tiles of an owner return to unowned and are zeroed (R351). -/
def Sys.freeTiles (y : Sys) (owner : Nat) : Sys :=
  let ts := (y.tileOwner.filter (fun t => t.2 == owner)).map Prod.fst
  if ts.isEmpty then y
  else { y with tiles := y.tiles.filter (fun p => !ts.contains (p.1 / 1024)), accBad := y.accBad.filter (fun b => !ts.contains (b / 512))
                tileOwner := y.tileOwner.filter (fun t => t.2 != owner) }

/-- An MLOOP or ALOAD.M of an owner of tiles has not finished (R352). -/
def Sys.tileWork (y : Sys) (owner : Nat) : Bool :=
  y.mloops.any (fun m => m.block == owner) || y.tileOps.any (fun t => t.block == owner)

/-- What an owner of tiles leaves, once its groups and its MLOOPs and ALOAD.Ms are gone (R86, R351, R352): the tiles; a block its slot,
and the blocks of its gang their windows, when no peer runs. -/
def Sys.releaseOwner (y : Sys) (u : Nat) : Sys :=
  if y.tileWork u || y.groups.any (fun g => g.block == some u || g.handle == u) then y
  else
    match y.block? u with
    | none => y.freeTiles u
    | some b =>
      let y1 := ((y.freeTiles u).modBlock u (fun x => { x with released := true })).modLaunch b.launch
        (fun l => { l with releasedBlocks := l.releasedBlocks + 1 })
      let peers := fun (x : Block) => x.launch == b.launch && x.gang == b.gang
      if y1.blocks.any (fun x => peers x && !x.released) then y1
      else { y1 with blocks := y1.blocks.filter (fun x => !peers x) }

/-- GROUP_RELEASE (R86, R305): a group that every lane has left and whose MMAs and MMAJ are over gives up its slot and registers; a
killed one once no request of it is in flight. -/
def groupRelease (y : Sys) (h : Nat) : Sys :=
  match y.group? h with
  | none => y
  | some g =>
    if g.lanes != 0 || !y.quietGroup h || g.mmaj.isSome || !g.mmas.isEmpty then y
    else
      let y1 : Sys := { y with
        groups := y.groups.filter (fun x => x.handle != h)
        accesses := y.accesses.filter (fun a => a.who != .group h) }
      let y2 := (y1.modCore g.core (fun k => { k with
        trapq := k.trapq.filter (fun t => !trapOf h t), growq := k.growq.filter (fun q => q.2.1 != h) })).endGpark g.core h 1
      y2.releaseOwner (g.block.getD h)

/-- GROUP_RELEASE (R86). -/
def execGroupRelease : State → Host.Outcome State Fault Refusal :=
  eventNext (fun s => match s.sys.ev with
    | some (.groupRelease h) => { sys := groupRelease s.sys h }
    | _ => Eff.none s)

/-- A launch is finished (R87): its blocks are released, no bin holds a thread of it, no group of it remains, and the serial
phases of a deterministic one are over. -/
def Sys.launchDone (y : Sys) (l : Launch) : Bool :=
  !l.finished && (if l.stopped then true else decide (l.releasedBlocks = l.record.blocks)) &&
  !y.groups.any (fun g => g.launch == l.uid) &&
  !y.cores.any (fun c => c.2.bins.any (fun b => b.2.st != .free && b.2.launch == l.uid)) &&
  (!l.record.det || decide (l.serial = l.record.blocks) || l.stopped)

/-- The CBAR arrival of a finished launch (R73): the effect, and whether the launch ends TERMINATED. -/
def cbarArrival (s : State) (l : Launch) : Eff × Bool :=
  let p := l.record.cbar
  let fail := fun (y : Sys) (c : Cause) => y.logEal s.gtime l.part c 0 0 p .host 0 0 l.vf
  if p = 0 then (Eff.none s, l.terminated)
  else
    match s.sys.sramObject l.part l.vf p.toNat 16 with
    | none => ({ sys := fail s.sys .limit }, true)
    | some f =>
      let r := barrierOp s f .arrive
      match r.err with
      | some c => ({ r.eff with sys := fail r.eff.sys c }, true)
      | none => (r.eff, l.terminated)

/-- LAUNCH_FINISH (R87, R73): the CBAR arrival, once the accesses of its lanes are globally performed at .sy (R165), then the completion of a host LAUNCH; children that waited for the launch go on. A
job's launch stays for its ticks (R47). -/
def launchFinish (s : State) (u : Nat) : Eff :=
  match s.sys.launch? u with
  | none => Eff.none s
  | some l =>
    if !s.sys.launchDone l || (l.record.cbar != 0 && decide (s.gtime < l.release + s.sys.margin)) || (match s.sys.sramObject l.part l.vf l.record.cbar.toNat 16 with
        | some f => s.sys.writeStalls f 16 | none => false) then Eff.none s
    else
      let (e, term) := cbarArrival s l
      let y := match l.hostCmd with
        | some c => e.sys.completeHost c (if term then .terminated else .ok) (l.record.launchId.setWidth 64)
        | none => e.sys
      let y1 : Sys := { y with launches := y.launches.map (fun x =>
        if x.waitParent = some u then { x with waitParent := none } else x) }
      { e with sys :=
          if l.record.det && l.record.dgv && l.ticks.started then
            y1.modLaunch u (fun x => { x with finished := true, inStore := false, own := [] })
          else { y1 with launches := y1.launches.filter (fun x => x.uid != u) } }

/-- LAUNCH_FINISH (R87). -/
def execLaunchFinish : State → Host.Outcome State Fault Refusal :=
  eventNext (fun s => match s.sys.ev with
    | some (.launchFinish u) => launchFinish s u
    | _ => Eff.none s)

/-! ### Spawn bins (R91-R93, R100) -/

/-- A filling bin whose time is over at a clock is closed (R91). -/
def Bin.atClock (b : Bin) (now : Nat) : Bin := if b.st == .filling && decide (b.since + b.limit ≤ now) then { b with st := .closed } else b

/-- Places one thread of a launch at a clock; none when it is refused. -/
def Core.spawn (k : Core) (now launch : Nat) (entry : Word) (args : List Word) : Option Core :=
  let c : Core := { k with bins := k.bins.map (fun b => (b.1, b.2.atClock now)) }
  let room := c.bins.find? (fun b =>
    b.2.st == .filling && b.2.launch == launch && b.2.entryOfs == entry && decide (b.2.threads.length < 32))
  let add := fun (n : Nat) (b : Bin) =>
    let t := b.threads ++ [args]
    { c with bins := tset c.bins n { b with threads := t, st := if t.length = 32 then .closed else .filling } }
  match room with
  | some (n, b) => some (add n b)
  | none =>
    ((List.range 16).find? (fun n => (tget c.bins n {}).st == .free)).map (fun n =>
      add n { st := .filling, launch := launch, entryOfs := entry, since := now, limit := c.bintime, threads := [] })

/-- SPAWN (R100): each active lane's thread by rising lane, status 1 where no bin is free, 2 in a deterministic launch, 3 in a
helper lane. -/
def execSpawn (o : FormTF) : State → Host.Outcome State Fault Refusal :=
  let a := o.a.toNat
  let d := o.d.toNat
  wordNext (fun i s =>
    let ds : Desc :=
    { g := o.g, s := o.s, src := regRange a 5, dst := [d], agents := .groupOnly, bad := 123 < a, drained := true }
    match i.check s.sys ds with
    | .hold => s.sys
    | .trap c m x => i.trap s.sys c m x
    | .go =>
      let act := i.act o.g
      let off := (lanesOf (i.real act)).filter (fun l => (i.v l a).toNat % 4 != 0)
      match off with
      | l :: _ => i.trap s.sys .align (maskOf (fun x => off.contains x)) ((i.v l a).setWidth 64)
      | [] =>
        let step := fun (acc : Sys × List (Nat × Nat × DWord)) (l : Nat) =>
          let st := fun (y : Sys) (n : Nat) => (y, acc.2 ++ [(l, d, BitVec.ofNat 64 n)])
          if i.g.helpers.getLsbD l then st acc.1 3
          else if i.det then st acc.1 2
          else
            match (acc.1.core i.core).spawn s.sys.clocks i.g.launch (i.v l a) ((regRange (a + 1) 4).map (i.v l)) with
            | some c => st (acc.1.modCore i.core (fun _ => c)) 0
            | none => st acc.1 1
        let r := (lanesOf act).foldl step (s.sys, [])
        i.fall ds [] [] (i.defer [d] act (i.commit { v := r.2 } r.1)))

/-- BIN_TIMEOUT (R91). -/
def execBinTimeout : State → Host.Outcome State Fault Refusal :=
  eventNext (fun s => match s.sys.ev with
    | some (.binTimeout c n) =>
      let b := tget (s.sys.core c).bins n {}
      if b.atClock s.sys.clocks = b then Eff.none s
      else { sys := s.sys.modCore c (fun k => { k with bins := tset k.bins n (b.atClock s.sys.clocks) }) }
    | _ => Eff.none s)

/-- The lowest-numbered quadrant with a group slot and registers free. -/
def Sys.quadrantFor (y : Sys) (core regs : Nat) : Option (Nat × Nat) :=
  (List.range 4).findSome? (fun q =>
    if y.freeRegs core q < regs then none else (y.freeGroupSlot core q).map (fun n => (q, n)))

/-- BIN_GROUP_FORM (R91, R94): a closed bin forms one group; thread i becomes lane i, and helper lanes complete the last quad. -/
def execBinGroupForm : State → Host.Outcome State Fault Refusal :=
  eventNext (fun s => match s.sys.ev with
    | some (.binGroupForm c n) =>
      let b := tget (s.sys.core c).bins n {}
      (match s.sys.launch? b.launch with
        | none => Eff.none s
        | some l =>
          match (if b.st == .closed && !s.sys.returnsTo s.mem c then s.sys.quadrantFor c l.record.regs.toNat else none) with
          | none => Eff.none s
          | some (q, slot) =>
            let (g, y) := newGroup s.sys l none c slot q 0
            let k := b.threads.length
            let top := (k + 3) / 4 * 4
            let all := maskOf (fun x => decide (x < top))
            let v := (b.threads.mapIdx (fun lane t => t.mapIdx (fun j w => (lane * 128 + j, w)))).flatMap id
            let g1 : Group := { g with
              lanes := all, helpers := maskOf (fun x => decide (k ≤ x) && decide (x < top)), regs := { g.regs with v := ssets [] v }
              frontier := [{ pc := b.entryOfs, mask := all, j := 0, st := .ready }] }
            { sys := ({ y with groups := y.groups ++ [g1] } : Sys).modCore c (fun k => { k with bins := tdel k.bins n }) })
    | _ => Eff.none s)

/-! ### GROW and SHRINK (R89, R99, R101) -/

/-- GROW (R89, R274): where a lane's guard holds, the entry waits for registers in the order of its quadrant's requests. What the group's
other entries wait for counts towards the 128 (assumption log 61). -/
def execGrow (o : FormD) : State → Host.Outcome State Fault Refusal :=
  wordNext (fun i s =>
    let n := 8 * o.d.toNat
    let ds : Desc := { g := 7, s := o.s, agents := .groupOnly, drained := true
                       bad := o.d == 0 || 15 < o.d.toNat || 128 < i.g.allot + i.g.pendingGrow + n }
    match i.check s.sys ds with
    | .hold => s.sys
    | .trap c m a => i.trap s.sys c m a
    | .go =>
      if i.act 7 = 0 then i.fall ds [] [] s.sys
      else
      let y := s.sys.modCore i.core (fun k => { k with growq := k.growq ++ [(i.g.quadrant, i.g.handle, lowest i.e.mask)] })
      i.place { ds with s := false } [(i.e.mask, i.e.pc, .grow n o.s, [])] (i.pushWindow false [] y))

/-- SHRINK (R89, R274): where no lane's guard holds it does nothing; HAZARD while a deferred result is pending into a released register, and it
waits for a register MMA that has not yet written one (R111). -/
def execShrink (o : FormD) : State → Host.Outcome State Fault Refusal :=
  wordNext (fun i s =>
    let n := 8 * o.d.toNat
    let low := i.g.allot - n
    let pend := (regRange low n).foldl (fun (m : LaneMask) r => m ||| sget i.g.regs.pend r) 0
    let ds : Desc := { g := 7, s := o.s, agents := .groupOnly, drained := true
                       src := if i.act 7 = 0 then [] else (regRange low n).filter (fun r => decide (r < i.g.allot))
                       bad := o.d == 0 || 15 < o.d.toNat || i.g.allot < n + 8, hz := some (if i.act 7 = 0 then 0 else pend) }
    match i.check s.sys ds with
    | .hold => s.sys
    | .trap c m a => i.trap s.sys c m a
    | .go =>
      if i.act 7 = 0 then i.fall ds [] [] s.sys
      else
      let y := s.sys.modGroup i.g.handle (fun g =>
        { g with allot := low, regs := { g.regs with v := g.regs.v.filter (fun p => p.1 % 128 < low) } })
      i.fall ds [] [] y)

/-- A waiting entry of a group is granted its registers: the new ones are zero (R89). -/
def grantGrow (y : Sys) (h lane : Nat) : Sys :=
  match y.group? h with
  | none => y
  | some g =>
    match g.entry? lane with
    | some { st := .grow n sw, pc := pc, mask := mask, j := j, hints := hints, holds := holds, delay := delay } =>
      let e : Entry := { pc := pc, mask := mask, j := j, st := .grow n sw, hints := hints, holds := holds, delay := delay }
      let f : Entry := { e with pc := pc + 4, st := .ready }
      let y1 := y.modGroup h (fun x => { x with
        allot := x.allot + n
        regs := { (if sw then passS x.regs mask else x.regs) with v := x.regs.v.filter (fun p => decide (p.1 % 128 < x.allot)) }
        frontier := x.others e ++ (if sw then splitS (x.waitMask (y.awaiting h)) e.mask f else [f]) })
      y1.settle h
    | _ => y

/-- The registers that a GROW request asks for. -/
def Sys.growNeed (y : Sys) (h lane : Nat) : Nat :=
  match (y.group? h).bind (fun g => (g.entry? lane).map Entry.st) with
  | some (.grow n _) => n
  | _ => 0

/-- The oldest GROW request of a quadrant, where the pool has its registers (R89). -/
def Sys.growReady (y : Sys) (core q : Nat) : Option (Nat × Nat × Nat) :=
  ((y.core core).growq.find? (fun r => r.1 == q && y.growStands r)).filter (fun r => decide (y.growNeed r.2.1 r.2.2 ≤ y.freeRegs core q))

/-- GROW_GRANT (R89): the oldest request of a quadrant is granted once the pool has its registers. -/
def execGrowGrant : State → Host.Outcome State Fault Refusal :=
  eventNext (fun s => match s.sys.ev with
    | some (.growGrant c q) =>
      (match s.sys.growReady c q with
        | none => Eff.none s
        | some r => { sys := (grantGrow s.sys r.2.1 r.2.2).modCore c (fun k => { k with growq := k.growq.filter (fun x => x != r) }) })
    | _ => Eff.none s)

/-! ### Device launch (R96) -/

/-- A lane's pointer fails a check of R96. -/
def launchFail (h : HeapWindow) (l p : Nat) : LaneAddr × Option (Nat × Cause) :=
  let a : LaneAddr := { lane := l, base := p, ea := p }
  if !isHeapPtr p then (a, some (1, .space))
  else if p % 128 != 0 then (a, some (2, .align))
  else if !h.inside (offsetOf p) 128 then (a, some (3, .limit))
  else (a, none)

/-- Heap bytes of a window as the lanes of a group find them. -/
def Iss.reader (i : Iss) (s : State) (h : HeapWindow) : Reader := fun a n =>
  match i.launch with
  | none => .error .limit
  | some l =>
    match heapReader s i.part h a n with
    | .error c => .error c
    | .ok b =>
      if i.det then
        .ok ((List.range n).map (fun j => match heapByte (s.sys.part i.part) h (a + j) with
          | some f => (l.ownView s.mem i.g.blockIndex f 1).headD 0
          | none => b.getD j 0))
      else .ok b

/-- A record with the PARENTID that a device launch places in it (R96). -/
def LaunchRec.withParent (r : LaunchRec) (id : Word) : LaunchRec :=
  { r with parentId := id, bytes := r.bytes.take 0x44 ++ bytesOf 4 id.toNat ++ r.bytes.drop 0x48 }

/-- LAUNCH and LAUNCHW (R96). The record is read through the issuing launch's window, and what it points to is checked and read in the
window that the child would take (R132). -/
def launchWord (o : FormTF) (wait : Bool) : State → Host.Outcome State Fault Refusal :=
  let a := o.a.toNat
  let d := o.d.toNat
  wordNext (fun i s =>
    let ds : Desc :=
    { g := o.g, s := o.s, src := [a, a + 1], dst := [d], even := [a], agents := .groupOnly, drained := true }
    match i.check s.sys ds, i.launch with
    | .hold, _ => s.sys
    | .trap c m x, _ => i.trap s.sys c m x
    | .go, none => s.sys
    | .go, some l =>
      let act := i.act o.g
      let ptr := fun (x : Nat) => (i.v64 x a).toNat
      match firstFailure ((lanesOf (i.real act)).map (fun x => launchFail l.heap x (ptr x))) with
      | some (c, m, x) => i.trap s.sys c m x
      | none =>
        let rd := i.reader s l.heap
        let w := (s.sys.vf i.vf).heap
        let log := fun (y : Sys) (c : Cause) (a : Nat) => y.logGroup i.now i.g c 0 0 (BitVec.ofNat 64 a)
        let bad := (lanesOf (i.real act)).filter (fun x => match rd (offsetOf (ptr x)) 128 with | .error _ => true | .ok _ => false)
        match bad with
        | x :: _ =>
          i.trap s.sys (match rd (offsetOf (ptr x)) 128 with | .error c => c | .ok _ => .ecc) (maskOf (fun z => bad.contains z))
            (BitVec.ofNat 64 (ptr x))
        | [] =>
          let step := fun (acc : Sys × List (Nat × Nat × DWord)) (x : Nat) =>
            let st := fun (y : Sys) (n : Nat) => (y, acc.2 ++ [(x, d, BitVec.ofNat 64 n)])
            if i.g.helpers.getLsbD x then st acc.1 3
            else
              match rd (offsetOf (ptr x)) 128 with
              | .error _ => st acc.1 2
              | .ok b =>
                let r := recordOf b
                let y0 := Sys.afterReads i.part l.heap log [(offsetOf (ptr x), 128)] acc.1
                let chk := checkRecord y0 i.part i.vf w false (i.reader s w) (ptr x) r
                let y1 := Sys.afterReads i.part w log chk.2 y0
                match chk.1 with
                | .error at_ => st (y1.logEal i.now i.part .badcmd 0 0 (BitVec.ofNat 64 at_) .group i.core i.g.slot i.vf) 2
                | .ok (consts, prio) =>
                  let child := r.withParent l.record.launchId
                  let parent := if i.det then some l.uid else none
                  if y1.storeFree i.part then
                    st (y1.storeLaunch i.part i.vf child consts prio none parent) 0
                  else if wait then
                    ({ y1 with storeWaits := y1.storeWaits ++
                        [{ part := i.part, vf := i.vf, record := child, consts := consts, prio := prio
                           hostCmd := none, group := i.g.handle, lane := x, reg := d, parent := parent }] }, acc.2)
                  else st y1 1
          let r := (lanesOf act).foldl step (s.sys, [])
          i.fall ds [] [] (i.defer [d] act (i.commit { v := r.2 } r.1)))

/-- LAUNCH (R96). -/
def execDeviceLaunch (o : FormTF) : State → Host.Outcome State Fault Refusal := launchWord o false
/-- LAUNCHW (R96). -/
def execLaunchw (o : FormTF) : State → Host.Outcome State Fault Refusal := launchWord o true

end Sys2Proof.Machine
end

