-- ==== Sys2Proof/Machine/System.lean ====
section
/-!
DEFINITION. The SYS space but for launches (R367-R372, R220, R265) and the group service of the control processor (R373,
R380-R388).
-/
namespace Sys2Proof.Machine

/-! ### NOP and YIELD (R367) -/

/-- NOP (R367). -/
def execNop (o : FormG) : State → Host.Outcome State Fault Refusal :=
  laneWord (fun _ => { g := o.g, s := o.s }) [] (fun _ _ => {})

/-- YIELD (R367): the group counts as newly resident. -/
def execYield (o : FormG) : State → Host.Outcome State Fault Refusal :=
  wordNext (fun i s =>
    let ds : Desc := { g := o.g, s := o.s }
    match i.check s.sys ds with
    | .hold => s.sys
    | .trap c m a => i.trap s.sys c m a
    | .go =>
      let y := i.fall ds [] [] s.sys
      if i.cp || i.act o.g = 0 then y
      else
        let (n, y1) := y.fresh
        y1.modGroup i.g.handle (fun g => { g with age := n }))

/-! ### System registers (R283, R284) -/

/-- A group's system register as a lane reads it; `act` is ACTMASK. None for a reserved index. -/
def sysReg (g : Group) (l : Option Launch) (lane : Nat) (act : LaneMask) (idx : Nat) : Option Word :=
  let rec_ := l.map (fun x => x.record)
  let ofRec := fun (f : LaunchRec → Word) => some (match rec_ with | some r => f r | none => 0)
  match idx with
  | 0x00 => some (BitVec.ofNat 32 lane)
  | 0x01 => some (BitVec.ofNat 32 (lane / 4))
  | 0x02 => some (BitVec.ofNat 32 g.gix)
  | 0x03 => some g.blockX
  | 0x04 => some g.blockY
  | 0x05 => some g.blockZ
  | 0x06 => ofRec (fun r => r.gridX)
  | 0x07 => ofRec (fun r => r.gridY)
  | 0x08 => ofRec (fun r => r.gridZ)
  | 0x09 => some g.gangRank
  | 0x0A => some g.gangSize
  | 0x0B => ofRec (fun r => r.launchId)
  | 0x0C => some act
  | 0x0D => some (if g.helpers.getLsbD lane then 1 else 0)
  | 0x0F => ofRec (fun r => r.gpb.setWidth 32)
  | 0x10 => some (g.regs.frm.setWidth 32)
  | 0x11 => some ((sget g.regs.fstat lane).setWidth 32)
  | 0x12 => some (g.regs.mpb.setWidth 32)
  | 0x13 => some ((g.regs.mpb >>> 32).setWidth 32)
  | 0x14 => some (g.tapeb.setWidth 32)
  | 0x15 => some ((g.tapeb >>> 32).setWidth 32)
  | 0x16 => some g.tapel
  | 0x17 => some g.regs.tapep
  | 0x18 => some (g.adm.setWidth 32)
  | 0x19 => some (BitVec.ofNat 32 g.allot)
  | 0x1A => some g.scrBytes
  | 0x1B => ofRec (fun r => if r.det then 1 else 0)
  | _ => none

/-- A control processor's system register (R122, R284). -/
def cpReg (k : Core) (idx : Nat) : Option DWord :=
  let c := k.cp
  let lo := fun (x : Word) => x.setWidth 64
  match idx with
  | 0x10 => some (c.frm.setWidth 64)
  | 0x11 => some (c.fstat.setWidth 64)
  | 0x20 => some (c.tcause.setWidth 64 ||| (c.tremcause.setWidth 64 <<< 8))
  | 0x21 => some (lo c.tpc)
  | 0x22 => some (lo c.tmask ||| (lo c.tentry <<< 32))
  | 0x23 => some c.taddr
  | 0x24 => some c.tghandle
  | 0x25 => some (c.tprio.setWidth 64)
  | 0x26 => some c.tealcnt
  | 0x27 => some (lo c.tinsn)
  | 0x28 => some (c.cptvec)
  | 0x29 => some ((if c.intrap then 1 else 0) ||| BitVec.ofNat 64 (min k.trapq.length 255 * 256))
  | 0x2A => some (BitVec.ofNat 64 k.bintime)
  | 0x2B => some (BitVec.ofNat 64 c.parkthr)
  | 0x2C | 0x2D | 0x2E | 0x2F => some 0
  | _ => none

/-- The indices that a group may write (R283, R369). -/
def sysWritable (idx : Nat) : Bool := 0x10 ≤ idx && idx ≤ 0x17

/-- A group's system register written; FSTAT in one lane (R212, R241). -/
def Group.writeSys (g : Group) (lane idx : Nat) (x : Word) : Group :=
  let low := fun (a b : DWord) => (a &&& 0xFFFFFFFF00000000) ||| b
  let high := fun (a : DWord) (b : Word) => (a &&& 0xFFFFFFFF) ||| (b.setWidth 64 <<< 32)
  let al8 := x &&& 0xFFFFFFF8
  match idx with
  | 0x10 => if x.toNat % 8 ≤ 4 then { g with regs := { g.regs with frm := x.setWidth 3 } } else g
  | 0x11 => { g with regs := { g.regs with fstat := sset g.regs.fstat lane (x.setWidth 5) } }
  | 0x12 => { g with regs := { g.regs with mpb := low g.regs.mpb (x.setWidth 64) } }
  | 0x13 => { g with regs := { g.regs with mpb := high g.regs.mpb x } }
  | 0x14 => { g with tapeb := low g.tapeb (x.setWidth 64) }
  | 0x15 => { g with tapeb := high g.tapeb x }
  | 0x16 => { g with tapel := al8 }
  | 0x17 => { g with regs := { g.regs with tapep := al8 } }
  | _ => g

/-- A control processor's system register written; writes of values a register does not take are ignored. -/
def Core.writeSys (k : Core) (idx : Nat) (x : DWord) : Core :=
  let n := x.toNat
  match idx with
  | 0x10 => if n % 8 ≤ 4 then { k with cp := { k.cp with frm := x.setWidth 3 } } else k
  | 0x11 => { k with cp := { k.cp with fstat := x.setWidth 5 } }
  | 0x28 => { k with cp := { k.cp with cptvec := x &&& 0xFFFFFFFFFFFFFFFC } }
  | 0x2A => if 64 ≤ n && n ≤ 65535 then { k with bintime := n } else k
  | 0x2B => if 1024 ≤ n && n ≤ 16777216 then { k with cp := { k.cp with parkthr := n } } else k
  | _ => k

/-- The registers of SREAD and SWRITE; a reserved index is ILLEGAL, one of the control processor's PRIVILEGE in a group. -/
def sysDesc (o : FormTF) (write : Bool) (i : Iss) : Desc :=
  let idx := o.a.toNat
  let mine := 0x20 ≤ idx && idx < 0x30
  { g := o.g, s := o.s, src := if write then [o.d.toNat] else [], dst := if write then [] else [o.d.toNat]
    fst := idx == 0x11
    agents := if mine then .cpOnly else .both
    bad := if i.cp then !(idx == 0x10 || idx == 0x11 || mine)
      else (mine && i.g.allot ≤ o.d.toNat) || !mine && ((sysReg i.g i.launch 0 0 idx).isNone ||
        (write && (!sysWritable idx || (0x14 ≤ idx && i.g.adm != 0)))) }

/-- SREAD (R368). -/
def execSread (o : FormTF) : State → Host.Outcome State Fault Refusal :=
  wordNext (fun i s =>
    let ds := sysDesc o false i
    match i.check s.sys ds with
    | .hold => s.sys
    | .trap c m a => i.trap s.sys c m a
    | .go =>
      let act := i.act o.g
      let val := fun (l : Nat) =>
        if i.cp then (cpReg (s.sys.core i.core) o.a.toNat).getD 0
        else ((sysReg i.g i.launch l (i.real act) o.a.toNat).getD 0).setWidth 64
      i.fall ds [] [] (i.commit { v := (lanesOf act).map (fun l => (l, o.d.toNat, val l)) } s.sys))

/-- SWRITE (R369). -/
def execSwrite (o : FormTF) : State → Host.Outcome State Fault Refusal :=
  wordNext (fun i s =>
    let ds := sysDesc o true i
    let idx := o.a.toNat
    match i.check s.sys ds with
    | .hold => s.sys
    | .trap c m a => i.trap s.sys c m a
    | .go =>
      let ls := lanesOf (i.act o.g)
      let who := if idx = 0x11 then ls else ls.take 1
      let kw := if idx = 0x10 then [128] else if idx = 0x12 || idx = 0x13 then [129] else if idx = 0x17 then [130] else []
      let y := who.foldl (fun y l =>
        if i.cp then y.modCore i.core (fun k => k.writeSys idx (i.v64 0 o.d.toNat))
        else y.modGroup i.g.handle (fun g => g.writeSys l idx (i.v l o.d.toNat))) s.sys
      i.fall ds kw [] y)

/-! ### Quarantined registers (R265) -/

/-- The value that QREAD names. -/
def qValue (y : Sys) (i : Iss) (n : Nat) : DWord :=
  BitVec.ofNat 64 (match n with
    | 0 => y.clocks
    | 1 => i.now
    | 2 => i.core
    | 3 => coreCluster i.core
    | 4 => coreDie i.core
    | 5 => i.g.slot
    | 6 => y.phys.toNat
    | _ => i.g.parks)

/-- QREAD and QSUB act once for the group. -/
def qWord (o : FormQ) (f : Sys → Iss → DWord) : State → Host.Outcome State Fault Refusal :=
  wordNext (fun i s =>
    let ds : Desc := { g := o.g, s := o.s, agents := .groupOnly, bad := 7 < o.d.toNat || 7 < o.a.toNat }
    match i.check s.sys ds with
    | .hold => s.sys
    | .trap c m a => i.trap s.sys c m a
    | .go =>
      let y := if i.act o.g = 0 then s.sys
        else s.sys.modGroup i.g.handle (fun g => { g with q := sset g.q o.d.toNat (f s.sys i) })
      i.fall ds [] [] y)

/-- QREAD (R265). -/
def execQread (o : FormQ) := qWord o (fun y i => qValue y i o.a.toNat)
/-- QSUB (R265). -/
def execQsub (o : FormQ) := qWord o (fun _ i => sget i.g.q o.d.toNat - sget i.g.q o.a.toNat)

/-! ### STRAP, BREAK, ADMODE, CPOST -/

/-- The issuing entry splits: lanes that trap at the next PC, and the others, which go on; helper lanes go with their quads. -/
def Iss.stop (i : Iss) (y : Sys) (ds : Desc) (cause : Cause) (lanes : LaneMask) : Sys :=
  let whole := i.e.mask &&& maskOf (fun l => lanes.getLsbD (i.g.leader l))
  let rest := i.e.mask &&& ~~~whole
  let pc := i.e.pc + 4
  let t : TrapRec :=
  { cause := cause, remCause := 0, pc := pc, lanes := lanes, whole := whole, addr := 0, prio := y.prio i.g pc, ealcnt := 0
    insn := y.insn, seq := i.g.nextSeq, queued := false, taken := false }
  i.place ds [(whole, pc, .trapped t, []), (rest, pc, .ready, [])] (i.pushWindow false [] y)

/-- STRAP (R370). -/
def execStrap (o : FormTF) : State → Host.Outcome State Fault Refusal :=
  wordNext (fun i s =>
    let lanes := i.real (i.act o.g)
    let ds : Desc :=
    { g := o.g, s := o.s, agents := .groupOnly, src := regRange o.d.toNat 6, drained := lanes != 0 }
    match i.check s.sys ds with
    | .hold => s.sys
    | .trap c m a => i.trap s.sys c m a
    | .go => if lanes = 0 then i.fall ds [] [] s.sys else i.stop s.sys ds .strap lanes)

/-- BREAK (R371, R123). -/
def execBrk (o : FormA) : State → Host.Outcome State Fault Refusal :=
  wordNext (fun i s =>
    let lanes := i.real (i.act o.g)
    let ds : Desc := { g := o.g, s := o.s }
    match i.check s.sys ds with
    | .hold => s.sys
    | .trap c m a => i.trap s.sys c m a
    | .go =>
      if lanes = 0 then i.fall ds [] [] s.sys
      else if i.cp then s.sys.trapCp i.now i.core .brk 0 0 (i.e.pc + 4) 0 s.sys.insn
      else i.stop s.sys ds .brk lanes)

/-- ADMODE (R220, R274: a GUARD hint under which no lane acts leaves ADM): UNIFORM when some lane of the group is not in the issuing entry. -/
def execAdmode (o : FormD) : State → Host.Outcome State Fault Refusal :=
  wordNext (fun i s =>
    let ds : Desc :=
    { g := 7, s := o.s, agents := .groupOnly, bad := 2 < o.d.toNat, drained := true }
    match i.check s.sys { ds with drained := false } with
    | .hold => s.sys
    | .trap c m a => i.trap s.sys c m a
    | .go =>
      if i.g.lanes &&& ~~~i.e.mask != 0 then i.trap s.sys .uniform i.e.mask 0
      else
        match i.check s.sys ds with
        | .go =>
          i.fall ds [] [] (if i.act 7 = 0 then s.sys else s.sys.modGroup i.g.handle (fun g => { g with adm := o.d.setWidth 2 }))
        | _ => s.sys)

/-- CPOST (R372). -/
def execCpost (o : FormA) : State → Host.Outcome State Fault Refusal :=
  wordNext (fun i s =>
    let a := o.a.toNat
    let ds : Desc :=
    { g := o.g, s := o.s, agents := .groupOnly, src := [a, a + 1], even := [a], once := true, drained := true }
    match i.check s.sys ds with
    | .hold => s.sys
    | .trap c m x => i.trap s.sys c m x
    | .go =>
      match i.first? o.g with
      | none => i.fall ds [] [] s.sys
      | some l =>
        if 64 ≤ (s.sys.core i.core).mailbox.length then s.sys
        else
          let mail : Mail :=
          { handle := i.g.handle, lo := i.v l a, hi := i.v l (a + 1), mask := i.real (i.act o.g)
            launchId := match i.launch with | some x => x.record.launchId | none => 0 }
          i.fall ds [] [] (s.sys.modCore i.core (fun k => { k with mailbox := k.mailbox ++ [mail] })))

/-! ### The control processor's own instructions -/

/-- An ENGINE word of the control processor: what it does when its checks have passed and its guard holds. It moves past the word
unless `f` answers none, which leaves it waiting at issue. -/
def cpWord (d : Iss → Desc) (f : Iss → State → Option Sys) : State → Host.Outcome State Fault Refusal :=
  wordNext (fun i s =>
    let ds := { d i with agents := .cpOnly }
    match i.check s.sys ds with
    | .hold => s.sys
    | .trap c m a => i.trap s.sys c m a
    | .go =>
      if i.act ds.g = 0 then i.fall ds [] [] s.sys
      else
        match f i s with
        | none => s.sys
        | some y => i.fall ds [] [] y)

/-- Values written to x registers. -/
def Iss.setX (i : Iss) (ws : List (Nat × DWord)) (y : Sys) : Sys := i.commit { v := ws.map (fun w => (0, w.1, w.2)) } y

/-- CPPOP (R373): the oldest mailbox entry, with an acquire of scope .pk. -/
def execCppop (o : FormDG) : State → Host.Outcome State Fault Refusal :=
  let d := o.d.toNat
  cpWord (fun _ => { g := o.g, s := o.s, dst := regRange d 3, bad := 125 < d }) (fun i s =>
    match (s.sys.core i.core).mailbox with
    | [] => some (i.setX [(d, 0), (d + 1, 0), (d + 2, 0)] s.sys)
    | m :: r =>
      let y := s.sys.modCore i.core (fun k => { k with mailbox := r })
      some ((i.setX [(d, BitVec.ofNat 64 m.handle), (d + 1, m.hi ++ m.lo), (d + 2, m.launchId ++ m.mask)] y).dropLines i.core 4))

/-- CPRET (R388). -/
def execCpret (o : FormG) : State → Host.Outcome State Fault Refusal :=
  wordNext (fun i s =>
    let ds : Desc := { g := o.g, s := o.s, agents := .cpOnly, bad := i.cp && !i.c.intrap }
    match i.check s.sys ds with
    | .hold => s.sys
    | .trap c m a => i.trap s.sys c m a
    | .go =>
      if i.act o.g = 0 then i.fall ds [] [] s.sys
      else i.placeCp ds i.c.saved [] (s.sys.modCp i.core (fun c => c.leave)))

/-! ### Servicing groups (R380-R385) -/

/-- A group is held (R380). -/
def Group.held (g : Group) : Bool :=
  g.offCore.isSome || (!g.frontier.isEmpty && g.frontier.all (fun e => match e.st with | .trapped _ => true | _ => false))

/-- The group of a handle on a core. -/
def Sys.served (y : Sys) (core : Nat) (h : DWord) : Option Group :=
  y.groups.find? (fun g => BitVec.ofNat 64 g.handle == h && g.core == core && !g.killed)

/-- The group to act on, or the status. -/
def Sys.heldGroup (y : Sys) (core : Nat) (h : DWord) : Except Nat Group :=
  match y.served core h with
  | none => .error 1
  | some g => if g.held && g.mmas.isEmpty && g.mmaj.isNone then .ok g else .error 2

/-- Frontier entries by rising lowest lane (R381). -/
def Group.ordered (g : Group) : List Entry :=
  (allLanes.filterMap (fun l => g.frontier.find? (fun e => e.mask != 0 && lowest e.mask == l)))

/-- The state of an entry as GREAD reports it (R381). -/
def EntryState.code : EntryState → Nat
  | .ready => 0 | .results => 1 | .barrier _ _ _ _ _ _ _ => 2 | .grow _ _ => 3 | .join _ => 4 | .trapped _ => 5

/-- A selector (R381). -/
structure Selector where
  kind : Nat
  num : Nat
  lane : Nat
  bad : Bool
deriving DecidableEq, Repr

def selectorOf (x : DWord) : Selector :=
  let n := x.toNat
  { kind := bits n 3 0, num := bits n 11 4, lane := bits n 20 16, bad := bits n 15 12 != 0 || bits n 63 21 != 0 }

/-- A lane is present (R381). -/
def Group.present (g : Group) (l : Nat) : Bool := g.lanes.getLsbD l

/-- A system register that is held per lane (R283). -/
def perLane (idx : Nat) : Bool := [0x00, 0x01, 0x0C, 0x0D, 0x11].contains idx

/-- A service request of the group is outstanding. -/
def Sys.svcOut (y : Sys) (g : Group) : Bool := (y.core g.core).cp.svc.any (fun x => x.handle == g.handle)

/-- The value that GREAD reads; none is BADSEL (R381). -/
def greadValue (y : Sys) (g : Group) (q : Selector) : Option DWord :=
  let wide := fun (x : Word) => some (x.setWidth 64)
  if q.bad then none
  else match q.kind with
  | 0 => if g.present q.lane && q.num < g.allot then wide (sget g.regs.v (q.lane * 128 + q.num)) else none
  | 1 => if q.num < 128 then wide (sget g.regs.k q.num) else none
  | 2 =>
    if g.present q.lane && q.num < 64 then
      some (if q.num = 63 || (sget g.regs.p q.num).getLsbD q.lane then 1 else 0) else none
  | 3 =>
    if perLane q.num && !g.present q.lane then none
    else
      let act := match g.entry? q.lane with | some e => e.mask &&& ~~~g.helpers | none => 0
      (sysReg g (y.launch? g.launch) q.lane act q.num).map (fun x => x.setWidth 64)
  | 4 => (g.ordered[q.num]?).map (fun e =>
      BitVec.ofNat 64 (e.pc.toNat + (y.prio g e.pc).toNat * 2 ^ 32 + e.st.code * 2 ^ 48))
  | 5 => (g.ordered[q.num]?).map (fun e => e.j ++ e.mask)
  | 6 => if q.num < 8 then some (sget g.q q.num) else none
  | 7 =>
    some (BitVec.ofNat 64 ((if g.held then 1 else 0) + (if g.offCore.isSome then 2 else 0) + (if y.svcOut g then 4 else 0) +
      (if g.gpark then 8 else 0) + g.frontier.length * 256 + g.allot * 2 ^ 32))
  | _ => none

/-- GREAD (R382). -/
def execGread (o : FormTF) : State → Host.Outcome State Fault Refusal :=
  let a := o.a.toNat
  let d := o.d.toNat
  cpWord (fun _ => { g := o.g, s := o.s, src := [a, a + 1], dst := [d, d + 1], bad := 126 < a || 126 < d }) (fun i s =>
    let st := fun (n : Nat) => some (i.setX [(d, BitVec.ofNat 64 n)] s.sys)
    match s.sys.heldGroup i.core (i.v64 0 a) with
    | .error n => st n
    | .ok g =>
      match greadValue s.sys g (selectorOf (i.v64 0 (a + 1))) with
      | none => st 3
      | some x => some (i.setX [(d, 0), (d + 1, x)] s.sys))

/-- What GWRITE makes of a group; none is BADSEL (R381, R382). -/
def gwriteGroup (g : Group) (q : Selector) (x : DWord) : Option Group :=
  let w : Word := x.setWidth 32
  let pend := fun (r : Nat) => (sget g.regs.pend r).getLsbD q.lane
  if q.bad then none
  else match q.kind with
  | 0 =>
    if g.present q.lane && decide (q.num < g.allot) && !pend q.num then
      some { g with regs := g.regs.write { v := [(q.lane, q.num, w.setWidth 64)] } } else none
  | 1 =>
    if decide (q.num < 128) && sget g.regs.pendK q.num == 0 then
      some { g with regs := g.regs.write { k := [(q.num, w.setWidth 64)] } } else none
  | 2 =>
    if g.present q.lane && decide (q.num < 63) then
      some { g with regs := g.regs.write { p := [(q.lane, q.num, x.getLsbD 0)] } } else none
  | 3 =>
    if q.num = 0x18 then (if w.toNat ≤ 2 then some { g with adm := w.setWidth 2 } else none)
    else if !sysWritable q.num then none
    else if q.num = 0x11 && (!g.present q.lane || pend 128) then none
    else some (g.writeSys q.lane q.num w)
  | 4 =>
    match g.ordered[q.num]? with
    | none => none
    | some e =>
      if w.toNat % 4 != 0 then none
      else some { g with frontier := g.others e ++ [{ e with pc := w, hints := {} }], matrix := g.matrix.filter (fun l => !l.undone) }
  | _ => none

/-- GWRITE (R382). A new PC discards the group's recorded requests. -/
def execGwrite (o : FormTF) : State → Host.Outcome State Fault Refusal :=
  let a := o.a.toNat
  let d := o.d.toNat
  cpWord (fun _ => { g := o.g, s := o.s, src := [a, a + 1, d + 1], dst := [d], bad := 126 < a || 126 < d }) (fun i s =>
    let st := fun (n : Nat) (y : Sys) => some (i.setX [(d, BitVec.ofNat 64 n)] y)
    match s.sys.heldGroup i.core (i.v64 0 a) with
    | .error n => st n s.sys
    | .ok g =>
      let q := selectorOf (i.v64 0 (a + 1))
      match gwriteGroup g q (i.v64 0 (d + 1)) with
      | none => st 3 s.sys
      | some g1 =>
        let y := s.sys.modGroup g.handle (fun _ => g1)
        st 0 (if q.kind = 4 then
          { y with accesses := y.accesses.filter (fun x => !(x.who == .group g.handle && x.undone && !x.isFlight)) } else y))

/-- GRESUME (R383): a mask that holds the non-helper lanes of an entry, such as TMASK, selects it (R387). -/
def execGresume (o : FormTF) : State → Host.Outcome State Fault Refusal :=
  let a := o.a.toNat
  let d := o.d.toNat
  cpWord (fun _ => { g := o.g, s := o.s, src := [a, a + 1], dst := [d], bad := 126 < a }) (fun i s =>
    let st := fun (n : Nat) (y : Sys) => some (i.setX [(d, BitVec.ofNat 64 n)] y)
    match s.sys.heldGroup i.core (i.v64 0 a) with
    | .error n => st n s.sys
    | .ok g =>
      let m : LaneMask := (i.v64 0 (a + 1)).setWidth 32
      let sel := fun (e : Entry) => (match e.st with | .trapped t => t.taken && e.mask &&& ~~~g.helpers &&& ~~~m == 0 | _ => false)
      let es := g.frontier.filter sel
      if es.isEmpty && !g.gpark then st 3 s.sys
      else
        let gone := es.foldl (fun (acc : LaneMask) e => acc ||| e.mask) 0
        let y := s.sys.modGroup g.handle (fun x =>
          { x with gpark := false, frontier := x.frontier.map (fun e => if sel e then { e with st := .ready } else e) })
        let y1 := y.modCp i.core (fun c => c.cancelSvc g.handle gone)
        st 0 (y1.settle g.handle))

/-- GKILL (R384). -/
def execGkill (o : FormTF) : State → Host.Outcome State Fault Refusal :=
  let d := o.d.toNat
  cpWord (fun _ => { g := o.g, s := o.s, src := [o.a.toNat], dst := [d] }) (fun i s =>
    match s.sys.heldGroup i.core (i.v64 0 o.a.toNat) with
    | .error n => some (i.setX [(d, BitVec.ofNat 64 n)] s.sys)
    | .ok g => some (i.setX [(d, 0)] (s.sys.killGroup g.handle)))

/-- A free park slot of a core (R117). -/
def Sys.freePark (y : Sys) (core : Nat) : Option Nat :=
  (List.range 16).find? (fun n => !y.groups.any (fun g => g.core == core && g.offCore == some n))

/-- GPARK (R385): the control processor waits until the group is parked off-core. -/
def execGpark (o : FormTF) : State → Host.Outcome State Fault Refusal :=
  let d := o.d.toNat
  wordNext (fun i s =>
    let ds : Desc := { g := o.g, s := o.s, agents := .cpOnly, src := [o.a.toNat], dst := [d] }
    match i.check s.sys ds with
    | .hold => s.sys
    | .trap c m a => i.trap s.sys c m a
    | .go =>
      let st := fun (n : Nat) (y : Sys) => i.fall ds [] [] (i.setX [(d, BitVec.ofNat 64 n)] y)
      if i.act o.g = 0 then i.fall ds [] [] s.sys
      else
        match s.sys.served i.core (i.v64 0 o.a.toNat) with
        | none => st 1 s.sys
        | some g =>
          if g.offCore.isSome then st 0 (s.sys.modGroup g.handle (fun x => { x with gpark := true }))
          else if (s.sys.freePark i.core).isNone then st 4 s.sys
          else s.sys.modCp i.core (fun c => { c with gparkWait := some (g.handle, d), pend := if o.s then [] else c.pend }))

/-! ### Service requests (R386, R387) -/

/-- SVCPOST (R386). -/
def execSvcpost (o : FormTF) : State → Host.Outcome State Fault Refusal :=
  let a := o.a.toNat
  let d := o.d.toNat
  cpWord (fun _ => { g := o.g, s := o.s, src := [a, a + 1], dst := [d], bad := 126 < a }) (fun i s =>
    let st := fun (n : Nat) (y : Sys) => some (i.setX [(d, BitVec.ofNat 64 n)] y)
    match s.sys.heldGroup i.core (i.v64 0 a) with
    | .error n => st n s.sys
    | .ok g =>
      let x := (i.v64 0 (a + 1)).toNat
      let b := bits x 22 16
      let m := BitVec.ofNat 32 (bits x 63 32)
      let inEntry := g.frontier.any (fun e => match e.st with | .trapped t => t.taken && m &&& ~~~e.mask == 0 | _ => false)
      if m = 0 || !inEntry || g.allot ≤ b + 5 || bits x 31 23 != 0 then st 3 s.sys
      else if s.sys.svcOut g || 64 ≤ i.c.svc.length then st 4 s.sys
      else
        let (vf, part, lid) := match s.sys.launch? g.launch with
          | some l => (l.vf, l.part, l.record.launchId)
          | none => (0, i.part, 0)
        let seq := (s.sys.vf vf).svcseq
        let post : SvcPost :=
        { vf := vf, core := i.core, seq := seq, launchId := lid, code := BitVec.ofNat 16 x, handle := g.handle, mask := m
          args := (lanesOf m).map (fun l => (l, (regRange b 6).map (fun r => sget g.regs.v (l * 128 + r)))) }
        let y := ((s.sys.modPart part (fun p => { p with svcq := p.svcq ++ [post] })).modVf vf
          (fun v => { v with svcseq := v.svcseq + 1 })).modCp i.core
          (fun c => { c with svc := c.svc ++ [{ seq := seq, vf := vf, handle := g.handle, mask := m, base := b, code := BitVec.ofNat 16 x }] })
        st 0 y)

/-- The pointer checks of a record or buffer of the control processor (R374 items 4-6). -/
def Iss.bufFail (i : Iss) (y : Sys) (spaces : List Nat) (k : AccKind) (p size align : Nat) : Option Cause :=
  if !spaces.contains (spaceOf p) then some .space
  else (i.addrFail y k size align { lane := 0, base := p, ea := p }).map Prod.snd

/-- SVCTAKE (R387): the oldest matched reply is stored to the buffer in 16-byte pieces; the control processor goes on once they have
performed. -/
def execSvctake (o : FormTF) : State → Host.Outcome State Fault Refusal :=
  let d := o.d.toNat
  wordNext (fun i s =>
    let ds : Desc :=
    { g := o.g, s := o.s, agents := .cpOnly, src := [o.a.toNat], dst := [d, d + 1], bad := 126 < d }
    match i.check s.sys ds with
    | .hold => s.sys
    | .trap c m a => i.trap s.sys c m a
    | .go =>
      if i.act o.g = 0 then i.fall ds [] [] s.sys
      else
        match i.c.replies with
        | [] => i.fall ds [] [] (i.setX [(d, 0)] s.sys)
        | r :: rest =>
          let p := (i.v64 0 o.a.toNat).toNat
          match i.bufFail s.sys [0, 2, 3] .store p r.bytes.length 16 with
          | some c => i.trap s.sys c 1 (BitVec.ofNat 64 p)
          | none =>
            let y := s.sys.modCp i.core (fun c => { c with
              replies := rest, svc := c.svc.filter (fun x => !(x.seq == r.seq && x.vf == r.vf)) })
            let y1 := i.setX [(d, BitVec.ofNat 64 r.handle), (d + 1, (BitVec.setWidth 64 (r.status &&& 1) <<< 32) ||| r.mask.setWidth 64)] y
            let reqs := (List.range (r.bytes.length / 16)).filterMap (fun j =>
              (i.target s.sys (p + 16 * j) 16).map (fun t =>
                ({ lane := 0, lanes := 1, wait := 0, op := .store (slice r.bytes (16 * j) 16), ptr := p + 16 * j, target := t.1
                   key := t.2, dest := .none } : Req)))
            i.fall ds [] [{ kind := 2, scope := 0, classes := 1, lanes := 1, only := some i.seqNo }] (i.addReqs 0 none reqs y1))

end Sys2Proof.Machine
end

