-- ==== Sys2Proof/Machine/Engine.lean ====
section
/-!
DEFINITION. Engine commands: how one starts (R174, R374), its accesses, how it settles into a final status (R173, R175), copies
(R176-R183, R375) and streaming channels (R184, R185, R376).
-/
namespace Sys2Proof.Machine

/-! ### Starting (R174, R374) -/

/-- The bytes of a record by 64-byte pieces, as an engine finds them, or the error of the first piece that fails. -/
def readRecord (s : State) (c : AddrCtx) (p : Nat) : Nat → Except Cause (List Byte)
  | 0 => .ok []
  | n + 1 =>
    match c.place s.sys 0 p 64 with
    | .home f k =>
      (match s.sys.readError f 64 k with
        | some x => .error x
        | none => match readRecord s c (p + 64) n with
          | .error x => .error x
          | .ok r => .ok (readBytes s.mem f 64 ++ r))
    | .fail x => .error x
    | _ => .error .space

/-- The context of addresses that a control processor names for an engine. -/
def Iss.engineCtx (i : Iss) (y : Sys) : AddrCtx := { i.ctx y with cp := false, engine := true }

/-- Commands of a control processor that have started and not completed. -/
def Sys.openCmds (y : Sys) (core : Nat) : Nat := (y.cmds.filter (fun c => c.core == core && c.isOpen)).length

/-- Every access of a control processor has performed (R374). -/
def Sys.cpQuiet (y : Sys) (core : Nat) : Bool := !y.accesses.any (fun a => a.who == .cp core && a.isFlight)

/-- A command at its start. -/
def Iss.newCmd (i : Iss) (y : Sys) (k : CmdKind) (p : Nat) (b : List Byte) : Cmd × Sys :=
  let (h, y1) := y.fresh
  ({ handle := h, core := i.core, part := i.part, vf := i.vf, launchHeap := (i.ctx y).heap, kind := k, record := b
     ptr := BitVec.ofNat 64 p, status := .running, ecause := none, flags := 0, bar := none, chunks := [], skipped := []
     failedChunks := [], cursor := 0, progress := [], cancel := false, inval := false, route := {}, doneOrder := 0
     resume := none }, y1)

/-- A command is added. -/
def Sys.addCmd (y : Sys) (c : Cmd) : Sys := { y with cmds := y.cmds ++ [c] }

/-- A word that starts an engine command from a record of 64-byte pieces: the checks of R374, the wait for a free
place and for the control processor's own earlier accesses, and `start`, which answers none
while the command must wait at issue. -/
def engineWord (o : FormTF) (spaces : List Nat) (pieces : Nat) (two : Bool) (start : Iss → State → Nat → List Byte → Option Sys) :
    State → Host.Outcome State Fault Refusal :=
  let a := o.a.toNat
  let d := o.d.toNat
  wordNext (fun i s =>
    let ds : Desc := { g := o.g, s := o.s, src := if two then [a, a + 1] else [a], dst := [d], agents := .cpOnly
                       bad := two && 126 < a }
    match i.check s.sys ds with
    | .hold => s.sys
    | .trap c m x => i.trap s.sys c m x
    | .go =>
      if i.act ds.g = 0 then i.fall ds [] [] s.sys
      else
        let p := (i.v64 0 a).toNat
        let ctx := i.ctx s.sys
        let la : LaneAddr := { lane := 0, base := p, ea := p }
        if !spaces.contains (spaceOf p) then i.trap s.sys .space i.e.mask (BitVec.ofNat 64 p)
        else
          match ctx.failure s.sys 0 .load (64 * pieces) 64 la with
          | some (_, c) => i.trap s.sys c i.e.mask (BitVec.ofNat 64 p)
          | none =>
            if 64 ≤ s.sys.openCmds i.core || !s.sys.cpQuiet i.core then s.sys
            else
              match readRecord s ctx p pieces with
              | .error c => i.trap s.sys c i.e.mask (BitVec.ofNat 64 p)
              | .ok b =>
                match start i s p b with
                | none => s.sys
                | some y => i.fall ds [] [] y)

/-- A command that failed validation: it exists, completed with INVALID (R374). -/
def Sys.invalidCmd (y : Sys) (now : Nat) (c : Cmd) (at_ : Nat) (why : Cause) : Sys :=
  (y.addCmd c).setStatus now c.handle .invalid (some (why, c.ptr + BitVec.ofNat 64 at_)) true

/-- A command whose barrier, 0 for none, is attached: its flat address, or INVALIDATED at once (R173, R179). None while no watch record is
free (R171). -/
def Iss.attach (i : Iss) (s : State) (y : Sys) (c : Cmd) (bar : Nat) : Option Sys :=
  if bar = 0 then some (y.addCmd c)
  else
    match (i.engineCtx y).place y 0 bar 16 with
    | .home f _ =>
      if (readBar s.mem f).inv then
        some ((y.addCmd c).setStatus s.gtime c.handle .invalidated (some (.cmdinval, BitVec.ofNat 64 bar)) true)
      else if y.watchFree f then some (y.addCmd { c with bar := some f })
      else none
    | _ => some (y.addCmd c)

/-! ### Accesses of a command (R159) -/

/-- Runs of bytes that one request reaches: consecutive pointers within a 128-byte line. -/
def coalesce (ps : List Nat) : List (Nat × Nat) :=
  ps.foldl (fun acc p =>
    match acc.getLast? with
    | some (a, n) => if a + n = p && p % 128 != 0 then acc.dropLast ++ [(a, n + 1)] else acc ++ [(p, 1)]
    | none => [(p, 1)]) []

/-- The same for bytes to write. -/
def coalesceBytes (bs : List (Nat × Byte)) : List (Nat × List Byte) :=
  bs.foldl (fun acc b =>
    match acc.getLast? with
    | some (a, l) => if a + l.length = b.1 && b.1 % 128 != 0 then acc.dropLast ++ [(a, l ++ [b.2])] else acc ++ [(b.1, [b.2])]
    | none => [(b.1, [b.2])]) []

/-- How a command's access to an address of paged space stands: it may go, it waits for a walk or a selection (R143), or its walk
has faulted (R182). -/
inductive PageState where
  | ready
  | wait
  | faulted
deriving DecidableEq, Repr

def Cmd.pageState (c : Cmd) (y : Sys) (write : Bool) (p : Nat) : PageState :=
  if spaceOf p != 1 then .ready
  else if y.walkFaults.any (fun f => f.cmd == c.handle && f.page == offsetOf p / 4096 * 4096 && f.write == write) then .faulted
  else if y.pageHeld c.vf (offsetOf p) then .wait
  else if (y.cachedAt (iodOfCore c.core) c.vf (offsetOf p) write).isSome then .ready
  else .wait

/-- How some accesses stand together. -/
def Cmd.pagesState (c : Cmd) (y : Sys) (write : Bool) (ps : List Nat) : PageState :=
  let sts := ps.map (c.pageState y write)
  if sts.contains .faulted then .faulted else if sts.contains .wait then .wait else .ready

/-- Where an address of a command leads, with its key, the guest page of the translation it uses (R141), and the package after it. -/
def Cmd.target (c : Cmd) (y : Sys) (p n : Nat) (write : Bool) : Option (Target × Nat × (Nat × Nat) × Sys) :=
  match c.ctx.place y 0 p n with
  | .home f k => some (.home f, k, (0, 0), y)
  | .fabric l sub o => some (.fabric l sub o, 0, (0, 0), y)
  | .paged va =>
    (match y.cachedAt (iodOfCore c.core) c.vf va write with
      | some t => (y.pagedFlat t va).map (fun f => (.home f.1, f.2, (t.gpage, t.gsize), y.touchPage t))
      | none => none)
  | _ => none

/-- The class of a command's accesses: a routing descriptor names it (R228), and all others use class O (R159). -/
def Cmd.cls (c : Cmd) : BitVec 2 := if c.kind == .route || c.kind == .combine then BitVec.ofNat 2 (bits (field c.record 4 2) 9 8) else 0

/-- One access of a command is issued. A request to a logical chip that does not exist is answered with REMOTE at once (R40). -/
def Cmd.issue (c : Cmd) (now seq pos : Nat) (ordered : Bool) (op : AccOp) (p : Nat) (y : Sys) : Sys :=
  match c.target y p op.bytes (!op.isRead) with
  | none => y
  | some (t, k, page, y0) =>
    let (id, y1) := y0.fresh
    let a : Access :=
    { id := id, who := .engine c.handle, lane := 0, lanes := 1, wait := 0, seq := seq, pc := 0, cls := c.cls, op := op
      ptr := BitVec.ofNat 64 p, target := t, key := k, part := c.part, vf := c.vf, launch := 0, core := c.core, dest := .none
      mod := 2, ordered := ordered, slot := none, pos := pos, packet := none, sent := false, via := 0, nacks := 0, sentAt := now
      undone := false, abacus := none, retryAt := none, quarantined := false, st := .inFlight, page := page }
    let y2 : Sys := { y1 with accesses := y1.accesses ++ [a] }
    match t with
    | .fabric l _ _ =>
      if (y2.remapOf (y2.part c.part).dom.toNat l.toNat).valid then y2
      else y2.failAccess now a .remote 0 0 false
    | .home _ => y2

/-- Loads of runs of bytes, or stores, as the accesses of one chunk. -/
def Cmd.issueLoads (c : Cmd) (now seq : Nat) (ps : List (Nat × Nat)) (y : Sys) : Sys :=
  ((ps.foldl (fun (acc : Nat × Sys) p => (acc.1 + 1, c.issue now seq acc.1 false (.load p.2) p.1 acc.2)) (0, y)).2).sendAll now

def Cmd.issueStores (c : Cmd) (now seq : Nat) (ordered : Bool) (ps : List (Nat × List Byte)) (y : Sys) : Sys :=
  ((ps.foldl (fun (acc : Nat × Sys) p => (acc.1 + 1, c.issue now seq acc.1 ordered (.store p.2) p.1 acc.2)) (0, y)).2).sendAll now

/-- The accesses of a part of a command. -/
def Sys.engineAccs (y : Sys) (h seq : Nat) : List Access := y.accesses.filter (fun a => a.who == .engine h && a.seq == seq)

/-- They are forgotten. -/
def Sys.dropAccs (y : Sys) (h seq : Nat) : Sys := { y with accesses := y.accesses.filter (fun a => !(a.who == .engine h && a.seq == seq)) }

/-- Some access of a command is left. -/
def Sys.engineBusy (y : Sys) (h : Nat) : Bool := y.accesses.any (fun a => a.who == .engine h)

/-- Whether an access was answered with an error. -/
def Access.isFailed (a : Access) : Bool := match a.st with | .failed _ _ _ _ => true | _ => false

/-- The byte that loads returned for a pointer. -/
def byteFrom (as : List Access) (p : Nat) : Byte :=
  (as.findSome? (fun a => match a.st with
    | .performed v _ => if a.ptr.toNat ≤ p && p < a.ptr.toNat + v.length then v[p - a.ptr.toNat]? else none
    | _ => none)).getD 0

/-- Stores are globally performed: at .pk, or at .dm for the fabric (R160). -/
def allDone (y : Sys) (now : Nat) (as : List Access) : Bool := as.all (fun a => a.doneAt y now (if a.isFabric then 5 else 4))

/-! ### Settling -/

/-- A copy's chunk is accounted for. -/
def Cmd.counted (c : Cmd) (i : Nat) : Bool :=
  c.chunks.contains i || c.failedChunks.contains i || c.skipped.any (fun k => k.1 == i)

/-- The number of a copy's or channel's chunks. -/
def Cmd.total (c : Cmd) : Nat := (shapeOf c.record).chunks

/-- A copy or channel with nothing in flight takes the final status that is due: an error ends it once every other chunk has landed,
failed or been skipped (R180). -/
def Sys.settleCmd (y : Sys) (now h : Nat) : Sys :=
  match y.cmd? h with
  | none => y
  | some c =>
    let fin := fun (st : CmdStatus) (why : Option (Cause × DWord)) =>
      y.setStatus now h st why (match why with | some (.barovf, _) => false | _ => true)
    if c.status != .running || y.engineBusy h then y
    else if c.inval then
      fin .invalidated (some (.cmdinval, c.barPtr))
    else if c.cancel then fin .cancelled none
    else if c.bad.isSome then fin .invalid c.bad
    else
      let chan := match c.kind with | .channel _ => true | _ => false
      let lost := fun (i : Nat) => c.failedChunks.any (fun k => decide (2 ^ 40 ≤ k)) && decide (c.cursor < 512 * i + (shapeOf c.record).chunkBytes i)
      if c.ecause.isSome && (chan || (List.range c.total).all (fun i => c.counted i || lost i)) then fin .error c.ecause
      else if c.skipped.isEmpty && c.chunks.length = c.total then fin .done none
      else y

/-- A command that ends with one arrival on its barrier, whose pointer is `p`: DONE, or the error that the arrival meets, of which the home has
written the record (R175). None while the arrival stalls. -/
def Cmd.endAt (c : Cmd) (s : State) (p : Nat) : Option Eff :=
  match c.bar with
  | none => some { sys := s.sys.setStatus s.gtime c.handle .done none false }
  | some f =>
    if s.sys.writeStalls f 16 then none
    else
      let ptr := BitVec.ofNat 64 p
      let r := barrierOp s f .arrive
      some { r.eff with sys := match r.err with
        | none => r.eff.sys.setStatus s.gtime c.handle .done none false
        | some x => (r.eff.sys.logEal s.gtime c.part x 0 0 ptr .engine c.core 0 c.vf).setStatus s.gtime c.handle .error (some (x, ptr)) false }

/-! ### Pins (R143) -/

/-- The 4 KiB pages of paged space among some pointers. -/
def pagesOf (ps : List Nat) : List Nat :=
  ((ps.filter (fun p => spaceOf p == 1)).map (fun p => offsetOf p / 4096 * 4096)).foldl
    (fun acc p => if acc.contains p then acc else acc ++ [p]) []

/-- The run of bytes that a digest reads next (R377): up to the end of its region and of a 128-byte line. -/
def Cmd.nextRun (c : Cmd) : List Nat :=
  match c.sg.find? (fun e => decide (e.1 ≤ c.cursor) && decide (c.cursor < e.1 + e.2.1)) with
  | some e =>
    let p := e.2.2.1 + (c.cursor - e.1)
    (List.range (min (128 - p % 128) (e.1 + e.2.1 - c.cursor))).map (fun j => p + j)
  | none => []

/-- The next read of a chain: an element, or the predicate of the element being read; none at its end. -/
def Cmd.chainPtr (c : Cmd) : Option Nat :=
  match c.sgElem with
  | some b => some (field b 0x18 8)
  | none => if c.sgAt = 0 then none else some c.sgAt

/-- The elements reached so far do not fill a chunk of a chain copy: it still needs the chain. -/
def Cmd.needsChain (c : Cmd) (i : Nat) : Bool :=
  let h := shapeOf c.record
  h.sg && decide (c.cursor < 512 * i + h.chunkBytes i)

/-- The bytes of the region list of a digest. -/
def Cmd.listBytes (c : Cmd) : List Nat := (List.range (16 * field c.record 8 2)).map (fun j => field c.record 0 8 + j)

/-- The byte pointers that a chunk reads, with that of the chain where it needs it; of a digest, those that it reads next. -/
def Cmd.srcs (c : Cmd) (i : Nat) : List Nat :=
  let h := shapeOf c.record
  if c.kind == .digest then (if c.sg.isEmpty then c.listBytes else c.nextRun)
  else if h.sg then (h.stream i).filterMap c.sgByte ++ (if c.needsChain i then c.chainPtr.toList else []) else h.reads c.ctx i

/-- The paged pages of the regions that a digest has still to read. -/
def Cmd.digestPages (c : Cmd) : List Nat :=
  (c.sg.filter (fun e => spaceOf e.2.2.1 == 1 && decide (c.cursor < e.1 + e.2.1))).flatMap (fun e =>
    let a := offsetOf e.2.2.1 + (c.cursor - e.1)
    let b := offsetOf e.2.2.1 + e.2.1
    (List.range ((b + 4095) / 4096 - a / 4096)).map (fun j => (a / 4096 + j) * 4096))

/-- The byte pointers that a chunk will write, as far as the chain does not skip them. -/
def Cmd.willWrite (c : Cmd) (i : Nat) : List Nat :=
  let h := shapeOf c.record
  let skipped := fun (b : Nat) => c.sg.any (fun e => e.2.2.2 && decide (e.1 ≤ b) && decide (b < e.1 + e.2.1))
  if h.sg then ((h.stream i).filter (fun b => !skipped b)).map (fun b => h.dst + b) else c.dests i

/-- The pins of a command: the pages of every chunk not yet counted or failed, with those of the chain's next read, and of a digest's list
and regions. -/
def Sys.pinCmd (y : Sys) (h : Nat) : Sys :=
  match y.cmd? h with
  | none => y
  | some c =>
    let left := (List.range c.total).filter (fun i => !c.chunks.contains i && !c.failedChunks.contains i)
    let ps := if c.kind == .digest then (if c.sg.isEmpty then pagesOf c.listBytes else c.digestPages)
      else left.foldl (fun acc i => (pagesOf (c.srcs i ++ c.willWrite i)).foldl
        (fun acc p => if acc.contains p then acc else acc ++ [p]) acc) ([] : List Nat)
    y.setPins h (if c.isOpen then ps.map (fun p => (h, c.vf, p)) else [])

/-! ### COPY and CHOPEN -/

/-- COPY (R375). -/
def execCopy (o : FormTF) : State → Host.Outcome State Fault Refusal :=
  engineWord o [0, 2, 3] 2 false (fun i s p b =>
    let (c, y) := i.newCmd s.sys .copy p b
    let h := shapeOf b
    let y1 := i.setX [(o.d.toNat, BitVec.ofNat 64 c.handle)] y
    match h.fails s c.ctx with
    | some (at_, why) => some (y1.invalidCmd s.gtime c at_ why)
    | none => (i.attach s y1 { c with sgAt := if h.sg then h.src else 0 } h.bar).map (fun z => z.pinCmd c.handle))

/-- The further checks of a channel's record (R184). -/
def Shape.channelFails (h : Shape) : Option (Nat × Cause) :=
  if h.sg || h.tr then some (0x14, .badcmd) else if 2 ^ 32 - 2 < h.length then some (0x18, .badcmd) else none

/-- CHOPEN (R376). -/
def execChopen (o : FormTF) : State → Host.Outcome State Fault Refusal :=
  engineWord o [0, 2, 3] 2 true (fun i s p b =>
    let n := (i.v64 0 (o.a.toNat + 1)).toNat % 4
    let (c, y) := i.newCmd s.sys (.channel n) p b
    let h := shapeOf b
    let y1 := i.setX [(o.d.toNat, BitVec.ofNat 64 c.handle)] y
    match (h.fails s c.ctx).orElse (fun _ => h.channelFails) with
    | some (at_, why) => some (y1.invalidCmd s.gtime c at_ why)
    | none =>
      if (tget (y1.core i.core).channels n {}).isOpen then
        some ((y1.addCmd c).setStatus s.gtime c.handle .error (some (.barbusy, c.ptr)) true)
      else
        (i.attach s y1 c h.bar).map (fun z =>
          let live := match z.cmd? c.handle with | some x => x.isOpen | none => false
          let z1 := if live then z.modCore i.core (fun k => { k with
            channels := tset k.channels n { isOpen := true, cmd := c.handle, wp := 0 } }) else z
          z1.pinCmd c.handle))

/-- A copy, channel, digest or COMBINE is asked to stop (R185, R379). -/
def Sys.stopCmd (y : Sys) (now h : Nat) : Sys :=
  match y.cmd? h with
  | none => y
  | some c =>
    if c.status == .faulted || (c.status == .running && !y.engineBusy h) then y.setStatus now h .cancelled none false
    else y.modCmd h (fun x => { x with cancel := true })

/-- CHCLOSE (R185, R376). -/
def execChclose (o : FormChclose) : State → Host.Outcome State Fault Refusal :=
  cpWord (fun _ => { g := o.g, s := o.s }) (fun i s =>
    let ch := tget (s.sys.core i.core).channels o.a.toNat {}
    if !ch.isOpen then some s.sys
    else
      let y := s.sys.modCore i.core (fun k => { k with channels := tset k.channels o.a.toNat { ch with isOpen := false } })
      some (y.stopCmd i.now ch.cmd))

/-! ### Skipped chunks (R182) -/

/-- The pointers of a chunk in a faulting page, in the order of the stream. -/
def Cmd.inPage (c : Cmd) (i page : Nat) (write : Bool) : List Nat :=
  ((if write then c.dests i else c.srcs i).filter (fun p => spaceOf p == 1 && offsetOf p / 4096 * 4096 == page)).map offsetOf

/-- A walk of the command for a page found a table entry of uncorrectable data (R62). -/
def Sys.pageLost (y : Sys) (h page : Nat) : Bool := y.walkFaults.any (fun f => f.cmd == h && f.page == page && f.kind == 0)

/-- A part of a command fails at a page whose walk read uncorrectable data: the page's address stands as the address of the error. -/
def Sys.losePage (y : Sys) (h i page : Nat) : Sys :=
  y.modCmd h (fun k => { k with
    ecause := if k.ecause.isSome then k.ecause else some (.ecc, BitVec.ofNat 64 (2 ^ 60 + page)), failedChunks := k.failedChunks ++ [i] })

/-- A chunk that needs a page whose walk has faulted is skipped; one whose walk read uncorrectable data fails. -/
def Sys.skipChunk (y : Sys) (c : Cmd) (i page : Nat) : Sys :=
  let y1 := y.dropAccs c.handle i
  if y.pageLost c.handle page then y1.losePage c.handle i page
  else y1.modCmd c.handle (fun k => { k with skipped := k.skipped ++ [(i, page)] })

/-- The chain goes no further at a page whose walk has faulted: every chunk that needs it is skipped, or the chain is lost. -/
def Sys.skipChain (y : Sys) (c : Cmd) (seq p : Nat) : Sys :=
  let page := offsetOf p / 4096 * 4096
  if y.pageLost c.handle page then y.losePage c.handle seq page
  else ((List.range c.total).filter (fun i => !c.counted i && c.needsChain i)).foldl (fun z i => z.skipChunk c i page) y

/-! ### Chains (R181) -/

/-- The parts of a command that read its chain: the next element, and its predicate. -/
def chainSeq : Nat := 2 ^ 40
def predSeq : Nat := 2 ^ 40 + 1

/-- The first layout rule that an element breaks, with the field's offset. -/
def Cmd.elemFails (c : Cmd) (y : Sys) (b : List Byte) : Option (Nat × Cause) :=
  let next := field b 0 8
  let addr := field b 8 8
  let pred := field b 0x18 8
  let skip := bit (field b 0x14 4) 6
  let ok := fun (p : Nat) => !c.ctx.spaceBad y .load p
  let size := fun (p n : Nat) => c.ctx.engineFail y .load p p n
  if next != 0 && !ok next then some (0, .space)
  else if next % 32 != 0 then some (0, .align)
  else if !([0, 1, 2].contains (spaceOf addr)) || !ok addr then some (8, .space)
  else if field b 0x10 4 = 0 then some (0x10, .badcmd)
  else if bits (field b 0x14 4) 31 7 != 0 then some (0x14, .badcmd)
  else if !skip && pred != 0 then some (0x18, .badcmd)
  else if skip && !ok pred then some (0x18, .space)
  else if skip && pred % 8 != 0 then some (0x18, .align)
  else
    match size addr (field b 0x10 4), (if skip then size pred 8 else none), (if next = 0 then none else size next 32) with
    | some x, _, _ => some (8, invalidCause x)
    | _, some x, _ => some (0x18, invalidCause x)
    | _, _, some x => some (0, invalidCause x)
    | _, _, _ => none

/-- An element is reached: its bytes fill the stream from the cursor on, unless the chain runs past its end or stops short. -/
def Cmd.takeElem (c : Cmd) (b : List Byte) (skip : Bool) : Cmd :=
  let total := (shapeOf c.record).length
  let n := field b 0x10 4
  let next := field b 0 8
  let c1 := { c with sg := c.sg ++ [(c.cursor, n, field b 8 8, skip)], cursor := c.cursor + n, sgAt := next, sgElem := none }
  if total < c.cursor + n || (next = 0 && c.cursor + n < total) || (next != 0 && c.cursor + n = total) then
    { c1 with bad := some (.badcmd, c.ptr + 0x18) }
  else c1

/-- The next read of the chain is asked for; at a page whose walk has faulted the chain stands. -/
def Cmd.readChain (c : Cmd) (s : State) (seq p n : Nat) : Sys :=
  match c.pageState s.sys false p with
  | .ready => c.issueLoads s.gtime seq [(p, n)] s.sys
  | .wait => s.sys
  | .faulted => s.sys.skipChain c seq p

/-- One step of walking the chain: the element is asked for, taken, or its predicate asked for. -/
def chainStep (s : State) (c : Cmd) : Sys :=
  let y := s.sys
  let es := y.engineAccs c.handle chainSeq
  let ps := y.engineAccs c.handle predSeq
  let stopped := c.cancel || c.inval || c.bad.isSome || c.ecause.isSome
  match es, ps with
  | a :: _, _ =>
    if a.isFlight then y
    else
      let y1 := y.dropAccs c.handle chainSeq
      if a.isFailed || stopped then y1
      else
        let b := (List.range 32).map (fun j => byteFrom [a] (a.ptr.toNat + j))
        match c.elemFails y b with
        | some (o, x) => y1.modCmd c.handle (fun k => { k with bad := some (x, a.ptr + BitVec.ofNat 64 o) })
        | none =>
          if bit (field b 0x14 4) 6 then y1.modCmd c.handle (fun k => { k with sgElem := some b })
          else (y1.modCmd c.handle (fun k => k.takeElem b false)).pinCmd c.handle
  | [], a :: _ =>
    if a.isFlight then y
    else
      let y1 := y.dropAccs c.handle predSeq
      match c.sgElem with
      | some b =>
        if a.isFailed || stopped then y1
        else
          let w := numOf ((List.range 8).map (fun j => byteFrom [a] (a.ptr.toNat + j)))
          (y1.modCmd c.handle (fun k => k.takeElem b (bit w (field b 0x14 4 % 64)))).pinCmd c.handle
      | none => y1
  | [], [] =>
    if stopped then y
    else
      match c.sgElem with
      | some b => c.readChain s predSeq (field b 0x18 8) 8
      | none => if c.sgAt = 0 then y else c.readChain s chainSeq c.sgAt 32

/-! ### Chunks (R180) -/

/-- A chunk of a channel is globally performed: WP advances (R184). -/
def Sys.advanceWp (y : Sys) (c : Cmd) (i : Nat) : Sys :=
  match c.kind with
  | .channel n => y.modCore c.core (fun q =>
      let ch := tget q.channels n {}
      if ch.isOpen && ch.cmd == c.handle then
        { q with channels := tset q.channels n { ch with wp := BitVec.ofNat 32 (min (512 * (i + 1)) (shapeOf c.record).length) } }
      else q)
  | _ => y

/-- A chunk is globally performed: its landing on BAR, its bitmap bit, and it is counted. After BINVAL its bytes are not counted
(R173). None while a write stalls for staging (R195). -/
def landChunk (s : State) (c : Cmd) (i : Nat) : Option Eff :=
  let h := shapeOf c.record
  let y0 := (s.sys.dropAccs c.handle i).advanceWp c i
  let map_ : Option Nat := if h.bmen then (match c.ctx.place s.sys 0 (h.bmap + i / 8) 1 with | .home f _ => some f | _ => none) else none
  if s.sys.allStall ((if c.inval then [] else c.bar.toList.map (fun f => (f, 16))) ++ map_.toList.map (fun f => (f, 1))) then none
  else
    let fail := fun (y : Sys) (x : Cause) (p : Nat) => y.modCmd c.handle (fun k => { k with
      ecause := if k.ecause.isSome then k.ecause else some (x, BitVec.ofNat 64 p), failedChunks := k.failedChunks ++ [i] })
    let e1 : Eff × Option Cause := match c.bar with
      | some f => if c.inval then ({ sys := y0 }, none) else
          let r := barrierOp { s with sys := y0 } f (.landing (h.chunkBytes i))
          (r.eff, r.err)
      | none => ({ sys := y0 }, none)
    let e2 := e1.1.andThen s (fun t => match map_ with
      | some f =>
        (match t.sys.readError f 1 0 with
          | some x => { sys := fail t.sys x (h.bmap + i / 8) }
          | none => putBytes t f [readByte t.mem f ||| BitVec.ofNat 8 (2 ^ (i % 8))])
      | none => Eff.none t)
    let y2 := match e1.2 with
      | some x =>
        let y := fail e2.sys x h.bar
        if x == .barovf then y.logEal s.gtime c.part .barovf 0 0 (BitVec.ofNat 64 h.bar) .engine c.core 0 c.vf else y
      | none => e2.sys
    let ok := match y2.cmd? c.handle with | some k => !k.failedChunks.contains i | none => false
    let y3 := if ok && !c.inval then y2.modCmd c.handle (fun k => { k with chunks := k.chunks ++ [i] }) else y2
    some { e2 with sys := y3 }

/-- What a chunk writes from the bytes its loads returned. -/
def Cmd.output (c : Cmd) (free i : Nat) (get : Nat → Byte) : ChunkOut :=
  let h := shapeOf c.record
  if h.sg then { bytes := (h.stream i).filterMap (fun b => (c.sgByte b).map (fun p => (h.dst + b, get p))) }
  else h.convert c.ctx c.handle free i get

/-- The chunk's stores are issued, or it lands where it writes nothing. -/
def writeChunk (s : State) (c : Cmd) (i : Nat) (as : List Access) : Eff :=
  let o := c.output s.sys.free i (byteFrom as)
  let y := (({ s.sys with free := s.sys.free + o.frees } : Sys).dropAccs c.handle i).modCmd c.handle (fun k => { k with flags := k.flags ||| o.flags })
  if o.bytes.isEmpty then (landChunk { s with sys := y } c i).getD (Eff.none s)
  else { sys := c.issueStores s.gtime i (shapeOf c.record).det (coalesceBytes o.bytes) y }

/-- The first page of a chunk whose walk has faulted. -/
def Cmd.badPage (c : Cmd) (y : Sys) (i : Nat) : Nat :=
  let bad := fun (w : Bool) (ps : List Nat) => (ps.filter (fun p => c.pageState y w p == .faulted)).map (fun p => offsetOf p / 4096 * 4096)
  match bad false (c.srcs i) ++ bad true (c.dests i) with
  | [] => 0
  | p :: r => r.foldl min p

/-- One step of a chunk: its loads are issued, then its stores, then it lands. -/
def chunkStep (s : State) (c : Cmd) (i : Nat) : Eff :=
  let y := s.sys
  let as := y.engineAccs c.handle i
  let stop := c.cancel || c.inval || c.bad.isSome
  let pages := (c.pagesState y false (c.srcs i), c.pagesState y true (c.dests i))
  if as.isEmpty then
    if stop then Eff.none s
    else if pages.1 == .faulted || pages.2 == .faulted then { sys := y.skipChunk c i (c.badPage y i) }
    else if pages.1 == .wait || pages.2 == .wait then Eff.none s
    else
      let ps := coalesce (c.srcs i)
      if ps.isEmpty then writeChunk s c i [] else { sys := c.issueLoads s.gtime i ps y }
  else if as.any Access.isFlight then Eff.none s
  else if as.any Access.isFailed then { sys := y.dropAccs c.handle i }
  else if as.all (fun a => a.op.isRead) then
    if pages.2 == .faulted then { sys := y.skipChunk c i (c.badPage y i) }
    else if pages.2 == .wait then Eff.none s
    else writeChunk s c i as
  else if !allDone y s.gtime as then Eff.none s
  else (landChunk s c i).getD (Eff.none s)

/-- The chunk may be worked on: it exists, is not accounted for, its source bytes are known, and with DET = 1 every earlier one is
accounted for (R180). -/
def Cmd.chunkOk (c : Cmd) (y : Sys) (i : Nat) : Bool :=
  let h := shapeOf c.record
  decide (i < c.total) && (!c.counted i || !(y.engineAccs c.handle i).isEmpty) &&
  (!h.sg || decide (512 * i + h.chunkBytes i ≤ c.cursor)) &&
  (!h.det || (List.range i).all (fun j => c.counted j))

/-- CHUNK_LAND (R180). A chain is walked as its chunks need it. -/
def execChunkLand : State → Host.Outcome State Fault Refusal :=
  eventNext (fun s => match s.sys.ev with
    | some (.chunkLand h i) =>
      (match s.sys.cmd? h with
        | none => Eff.none s
        | some c =>
          if c.kind != .copy || c.status != .running then Eff.none s
          else
            let e := if c.chunkOk s.sys i then chunkStep s c i
              else if (shapeOf c.record).sg && decide (i < c.total) && !c.counted i then { sys := chainStep s c } else Eff.none s
            { e with sys := (e.sys.pinCmd h).settleCmd s.gtime h })
    | _ => Eff.none s)

/-- CHANNEL_CHUNK_LAND (R184): the next chunk of a channel, which completes DONE when WP = L. A chunk that an error has ended leaves nothing
behind, so that the channel can take its status. -/
def execChannelChunkLand : State → Host.Outcome State Fault Refusal :=
  eventNext (fun s => match s.sys.ev with
    | some (.channelChunkLand h) =>
      (match s.sys.cmd? h with
        | none => Eff.none s
        | some c =>
          match c.kind with
          | .channel _ =>
            let i := c.chunks.length
            let idle := (s.sys.engineAccs h i).isEmpty
            if c.status != .running || !(decide (i < c.total)) || ((c.counted i || c.ecause.isSome) && idle) then
              { sys := s.sys.settleCmd s.gtime h }
            else
              let e := chunkStep s c i
              { e with sys := (e.sys.pinCmd h).settleCmd s.gtime h }
          | _ => Eff.none s)
    | _ => Eff.none s)

/-! ### Faults (R182) -/

/-- The faults that a command's walks met, those of reads before those of writes. -/
def Sys.faultsOf (y : Sys) (h : Nat) : List WalkFault :=
  let fs := y.walkFaults.filter (fun f => f.cmd == h && f.kind != 0)
  fs.filter (fun f => !f.write) ++ fs.filter (fun f => f.write)

/-- The faulting pages of a command. -/
def Sys.faultPages (y : Sys) (h : Nat) : List Nat := ((y.faultsOf h).map (fun f => f.page)).eraseDups

/-- A chunk needs a page in a way that faults. -/
def Cmd.needsPage (c : Cmd) (fs : List WalkFault) (i page : Nat) : Bool :=
  fs.any (fun g => g.page == page && !(c.inPage i page g.write).isEmpty)

/-- The fault record of a page: its first skipped chunk, and how many are counted there (R74, R182). Where a page faults for reads and for
writes, the record tells of the fault that its first chunk meets, a read's before a write's (DESIGN CHOICE, assumption log 32). -/
def Cmd.faultRecord (c : Cmd) (fs : List WalkFault) (page : Nat) : Option FaultRec :=
  let mine := (c.skipped.map Prod.fst).filter (fun i => c.needsPage fs i page)
  let low := mine.filter (fun i => !fs.any (fun g => decide (g.page < page) && c.needsPage fs i g.page))
  match mine with
  | [] => none
  | i :: r =>
    let first := r.foldl min i
    (fs.find? (fun g => g.page == page && !(c.inPage first page g.write).isEmpty)).map (fun f =>
      { kind := BitVec.ofNat 8 f.kind, vaddr := BitVec.ofNat 64 ((c.inPage first page f.write).headD page)
        access := if f.write then 2 else 1, cmdh := c.handle, first := BitVec.ofNat 32 first, count := BitVec.ofNat 32 low.length })

/-- Every page of the skipped chunks has been walked. -/
def Cmd.allWalked (c : Cmd) (y : Sys) : Bool :=
  c.skipped.all (fun k => c.pagesState y false (c.srcs k.1) != .wait && c.pagesState y true (c.dests k.1) != .wait &&
    (c.srcs k.1).all (fun p => c.pageState y false p != .wait) && (c.dests k.1).all (fun p => c.pageState y true p != .wait))

/-- The command enters FAULTED with its fault records. -/
def Sys.faultCmd (y : Sys) (now : Nat) (c : Cmd) (rs : List FaultRec) : Sys :=
  let low := rs.foldl (fun (m : Option DWord) r => match m with
    | some a => some (if r.vaddr.toNat < a.toNat then r.vaddr else a)
    | none => some r.vaddr) none
  let y1 := y.modVf c.vf (fun v => { v with faults := v.faults ++ rs })
  let y2 : Sys := { y1 with walkFaults := y1.walkFaults.filter (fun f => f.cmd != c.handle) }
  y2.setStatus now c.handle .faulted (some (.cmdfault, low.getD 0)) true

/-- COPY_FAULTED (R182, R185). -/
def execCopyFaulted : State → Host.Outcome State Fault Refusal :=
  eventNext (fun s => match s.sys.ev with
    | some (.copyFaulted h) =>
      (match s.sys.cmd? h with
        | none => Eff.none s
        | some c =>
          let chan := match c.kind with | .channel _ => true | .digest => true | _ => false
          if c.status != .running || c.skipped.isEmpty || s.sys.engineBusy h || c.cancel || c.inval || c.bad.isSome || c.ecause.isSome ||
            !(chan || c.kind == .copy) || !(chan || (List.range c.total).all (fun i => c.counted i)) || !c.allWalked s.sys then Eff.none s
          else
            { sys := s.sys.faultCmd s.gtime c ((s.sys.faultPages h).filterMap (c.faultRecord (s.sys.faultsOf h))) })
    | _ => Eff.none s)

/-- A faulted command goes on with what it skipped (R183). -/
def Sys.resumeCmd (y : Sys) (h uid : Nat) : Sys :=
  y.modCmd h (fun c => { c with status := .running, skipped := [], resume := some uid })

end Sys2Proof.Machine
end

