-- ==== Sys2Proof/Machine/Sha.lean ====
section
/-!
DEFINITION. SHA-512 (FIPS 180-4), which DIGEST computes (R377); the spec names the function (assumption log 9). Its constants are not
tables here but what the standard says they are: the first 64 bits of the fractions of roots of the first primes.
-/
namespace Sys2Proof.Machine

/-- The primes below 410: the first 80. -/
def shaPrimes : List Nat :=
  ((List.range 408).map (· + 2)).filter (fun n => (List.range 19).all (fun d => n % (d + 2) != 0 || n == d + 2))

/-- The largest number below 2^70 whose k-th power does not exceed x, found from its highest bit down. -/
def rootBelow (k x : Nat) : Nat :=
  (List.range 70).foldl (fun r b => if (r + 2 ^ (69 - b)) ^ k ≤ x then r + 2 ^ (69 - b) else r) 0

/-- The first 64 bits of the fraction of the k-th root of p. -/
def rootFraction (k p : Nat) : DWord := BitVec.ofNat 64 (rootBelow k (p * 2 ^ (64 * k)))

/-- The constant of each round: from the cube roots of the first 80 primes. -/
def shaK : List DWord := shaPrimes.map (rootFraction 3)

/-- The hash value at the start: from the square roots of the first eight. -/
def shaInit : List DWord := (shaPrimes.take 8).map (rootFraction 2)

/-- The exclusive or of a word turned right by each of some distances. -/
def turns (x : DWord) (ns : List Nat) : DWord := ns.foldl (fun acc n => acc ^^^ x.rotateRight n) 0

/-- Big-endian bytes as a number. -/
def beNum (l : List Byte) : Nat := l.foldl (fun n b => 256 * n + b.toNat) 0

/-- The n big-endian bytes of a number. -/
def beBytes : Nat → Nat → List Byte
  | 0, _ => []
  | n + 1, x => beBytes n (x / 256) ++ [BitVec.ofNat 8 x]

/-- Sixteen words of the schedule move on by one: the next word depends on four of them. -/
def nextSixteen (w : List DWord) : List DWord :=
  let a := w.getD 1 0
  let b := w.getD 14 0
  w.tail ++ [w.headD 0 + w.getD 9 0 + (turns a [1, 8] ^^^ (a >>> 7)) + (turns b [19, 61] ^^^ (b >>> 6))]

/-- One round: the sum of the word and constant enters the eight working words, which move on by one; the fifth takes a part. -/
def shaRound (v : List DWord) (x : DWord) : List DWord :=
  let at_ := fun n => v.getD n 0
  let pick := at_ 6 ^^^ (at_ 4 &&& (at_ 5 ^^^ at_ 6))
  let most := (at_ 0 &&& (at_ 1 ||| at_ 2)) ||| (at_ 1 &&& at_ 2)
  let enter := x + at_ 7 + turns (at_ 4) [14, 18, 41] + pick
  (enter + most + turns (at_ 0) [28, 34, 39]) :: v.take 3 ++ [enter + at_ 3] ++ (v.drop 4).take 3

/-- The rounds of a block, with the constants still to come and the sixteen words that stand next. -/
def shaRounds : List DWord → List DWord → List DWord → List DWord
  | [], _, v => v
  | k :: ks, w, v => shaRounds ks (nextSixteen w) (shaRound v (k + w.headD 0))

/-- The hash value after the blocks of 128 bytes that a padded message holds. -/
def shaBlocks : Nat → List DWord → List Byte → List DWord
  | 0, h, _ => h
  | n + 1, h, m =>
    let w := (List.range 16).map (fun j => BitVec.ofNat 64 (beNum ((m.drop (8 * j)).take 8)))
    shaBlocks n (List.zipWith (· + ·) h (shaRounds shaK w h)) (m.drop 128)

/-- The message, a 1 bit, zeros, and its length in bits as the last 16 bytes of a whole block. -/
def shaPadded (m : List Byte) : List Byte :=
  m ++ 0x80 :: (List.replicate ((239 - m.length % 128) % 128) 0 ++ beBytes 16 (m.length * 8))

/-- The 64 bytes of the digest of a message. -/
def sha512 (m : List Byte) : List Byte :=
  (shaBlocks ((m.length + 144) / 128) shaInit (shaPadded m)).flatMap (fun x => beBytes 8 x.toNat)

end Sys2Proof.Machine
end

