-- ==== Sys2Proof/Machine/Digest.lean ====
section
/-!
DEFINITION. DIGEST (R377): the descriptor, the region list, reading the message, and completion.
-/
namespace Sys2Proof.Machine

/-! ### The descriptor -/

/-- Windows of a run of bytes: the run lies in one space, inside its window (R179 item 8). -/
def AddrCtx.runOutside (c : AddrCtx) (y : Sys) (p n : Nat) : Option Cause :=
  if c.spaceBad y .load p then some .space
  else if spaceOf p = 0 then
    if c.heap.inside (offsetOf p) n && ((y.part c.part).flat (c.heap.at (offsetOf p + n - 1))).isSome then none else some .limit
  else if spaceOf p = 1 then (if offsetOf p + n ≤ 2 ^ 48 then none else some .limit)
  else match c.failure y 0 .load n 1 { lane := 0, base := p, ea := p } with
    | some (_, x) => some x
    | none => none

/-- The checks of the descriptor, by offset. -/
def digestChecks (y : Sys) (c : AddrCtx) (b : List Byte) : List (Bool × Nat × Cause) :=
  let w := fun (o n : Nat) => field b o n
  let at_ := fun (ok : Bool) (o : Nat) (x : Cause) => (ok, o, x)
  let win := fun (p n o : Nat) => match c.runOutside y p n with
    | some x => [(false, o, invalidCause x)] | none => ([] : List (Bool × Nat × Cause))
  [ at_ (w 0x0A 2 = 0) 0x08 .badcmd, at_ (w 0x0C 4 = 0) 0x0C .badcmd, at_ (numOf (slice b 0x20 32) = 0) 0x20 .badcmd,
    at_ (1 ≤ w 8 2 && w 8 2 ≤ 1024) 0x08 .badcmd,
    at_ (!c.spaceBad y .load (w 0 8)) 0x00 .space,
    at_ ([0, 2, 3].contains (spaceOf (w 0x10 8)) && !c.spaceBad y .store (w 0x10 8)) 0x10 .space,
    at_ (w 0x18 8 = 0 || ([2, 3].contains (spaceOf (w 0x18 8)) && !c.spaceBad y .atomic (w 0x18 8))) 0x18 .space,
    at_ (w 0 8 % 16 = 0) 0x00 .align, at_ (w 0x10 8 % 64 = 0) 0x10 .align, at_ (w 0x18 8 % 16 = 0) 0x18 .align ] ++
  win (w 0 8) (16 * w 8 2) 0x00 ++ win (w 0x10 8) 64 0x10 ++ (if w 0x18 8 = 0 then [] else win (w 0x18 8) 16 0x18)

/-- DIGEST (R377). -/
def execDigest (o : FormTF) : State → Host.Outcome State Fault Refusal :=
  engineWord o [0, 2, 3] 1 false (fun i s p b =>
    let (c, y) := i.newCmd s.sys .digest p b
    let y1 := i.setX [(o.d.toNat, BitVec.ofNat 64 c.handle)] y
    match (digestChecks s.sys c.ctx b).find? (fun x => !x.1) with
    | some (_, at_, why) => some (y1.invalidCmd s.gtime c at_ why)
    | none => (i.attach s y1 c (field b 0x18 8)).map (fun z => z.pinCmd c.handle))

/-! ### The regions -/

/-- The first failing entry of the region list: its offset in the list and the cause. -/
def regionsFail (y : Sys) (c : AddrCtx) (l : List Byte) : Nat → Nat → Option (Nat × Cause)
  | _, 0 => none
  | j, n + 1 =>
    let p := field l (16 * j) 8
    let len := field l (16 * j + 8) 8
    if !([0, 1, 2].contains (spaceOf p)) || (spaceOf p = 2 && rankOf p = 255) || c.spaceBad y .load p then some (16 * j, .space)
    else if len = 0 then some (16 * j + 8, .badcmd)
    else match c.runOutside y p len with
      | some x => some (16 * j, invalidCause x)
      | none => regionsFail y c l (j + 1) n

/-- The regions, each with where it starts in the message. -/
def regionsOf (l : List Byte) : Nat → Nat → Nat → List (Nat × Nat × Nat × Bool)
  | _, _, 0 => []
  | j, at_, n + 1 =>
    let len := field l (16 * j + 8) 8
    (at_, len, field l (16 * j) 8, false) :: regionsOf l (j + 1) (at_ + len) n

/-- Bytes of the message and of the regions. -/
def Cmd.regionBytes (c : Cmd) : Nat := c.sg.foldl (fun n e => n + e.2.1) 0

/-- A byte stays out of the message: it lies in a profile region or page (R266). -/
def Cmd.profiled (c : Cmd) (y : Sys) (p : Nat) : Bool :=
  if spaceOf p = 1 then (match y.cachedAt (iodOfCore c.core) c.vf (offsetOf p) false with | some t => t.profile | none => false)
  else match c.ctx.entryAt p with | some e => e.p | none => false

/-! ### Steps -/

/-- The parts of a digest's accesses: the region list, the message, and the result. -/
def listSeq : Nat := 0
def dataSeq : Nat := 1
def outSeq : Nat := 2

/-- The digest has been written: the arrival on BAR, and DONE. None while the arrival stalls. -/
def digestEnd (s : State) (c : Cmd) : Option Eff := c.endAt { s with sys := s.sys.dropAccs c.handle outSeq } (field c.record 0x18 8)

/-- The read stops at a page whose walk has faulted (R377): the page is noted for the fault record, or, where the walk read uncorrectable
data, as the command's error. -/
def digestFault (y : Sys) (c : Cmd) : Sys :=
  if !c.skipped.isEmpty || c.ecause.isSome then y else y.skipChunk c 0 (c.badPage y 0)

/-- One step of a digest. `regions` is true once the list has been read. -/
def digestStep (s : State) (c : Cmd) : Eff :=
  let y := s.sys
  let n := field c.record 8 2
  let las := y.engineAccs c.handle listSeq
  let das := y.engineAccs c.handle dataSeq
  let oas := y.engineAccs c.handle outSeq
  let all := las ++ das ++ oas
  if all.any Access.isFlight then Eff.none s
  else if c.inval then
    { sys := ({ y with accesses := y.accesses.filter (fun a => a.who != .engine c.handle) } : Sys).setStatus s.gtime c.handle .invalidated
        (some (.cmdinval, c.barPtr)) true }
  else if c.cancel then
    { sys := ({ y with accesses := y.accesses.filter (fun a => a.who != .engine c.handle) } : Sys).setStatus s.gtime c.handle .cancelled none false }
  else if all.any Access.isFailed || c.ecause.isSome then
    { sys := ({ y with accesses := y.accesses.filter (fun a => a.who != .engine c.handle) } : Sys).setStatus s.gtime c.handle .error c.ecause true }
  else if c.sg.isEmpty then
    let ps := c.listBytes
    if las.isEmpty then
      match c.pagesState y false ps with
      | .wait => Eff.none s
      | .faulted => { sys := digestFault y c }
      | .ready => { sys := c.issueLoads s.gtime listSeq (coalesce ps) y }
    else
      let l := ps.map (byteFrom las)
      let y1 := y.dropAccs c.handle listSeq
      match regionsFail y c.ctx l 0 n with
      | some (at_, x) =>
        { sys := y1.setStatus s.gtime c.handle .invalid (some (x, BitVec.ofNat 64 (field c.record 0 8 + at_))) true }
      | none => { sys := (y1.modCmd c.handle (fun k => { k with sg := regionsOf l 0 0 n })).pinCmd c.handle }
  else if !das.isEmpty then
    let ps := c.nextRun
    let bs := (ps.filter (fun p => !c.profiled y p)).map (byteFrom das)
    { sys := ((y.dropAccs c.handle dataSeq).modCmd c.handle (fun k =>
        { k with progress := k.progress ++ bs, cursor := k.cursor + ps.length })).pinCmd c.handle }
  else if c.cursor < c.regionBytes then
    let ps := c.nextRun
    match c.pagesState y false ps with
    | .wait => Eff.none s
    | .faulted => { sys := digestFault y c }
    | .ready => { sys := c.issueLoads s.gtime dataSeq (coalesce ps) y }
  else if oas.isEmpty then
    { sys := c.issueStores s.gtime outSeq false [(field c.record 0x10 8, sha512 c.progress)] y }
  else if allDone y s.gtime oas then (digestEnd s c).getD (Eff.none s)
  else Eff.none s

/-- DIGEST_COMPLETE (R377): a step of the command; once the digest bytes are globally performed, the arrival on BAR and DONE. -/
def execDigestComplete : State → Host.Outcome State Fault Refusal :=
  eventNext (fun s => match s.sys.ev with
    | some (.digestComplete h) =>
      (match s.sys.cmd? h with
        | some c => if c.kind == .digest && c.status == .running then digestStep s c else Eff.none s
        | none => Eff.none s)
    | _ => Eff.none s)

end Sys2Proof.Machine
end

