-- ==== Sys2Proof/Machine/Colour.lean ====
section
/-!
DEFINITION. The snapshot protocol between chips (R188, R189, R200-R203): its messages, the coordinator's part, and what a chip does on
each message. Messages of a chip to itself are taken in place.
-/
namespace Sys2Proof.Machine

/-! ### Messages (R41, R200) -/

/-- The kinds of MARKER packet (R200). -/
inductive MsgKind where
  | channel | localdone | complete | freed | reopen | reopened | request | grant | refuse | abort | tombcount
deriving DecidableEq, Repr

def MsgKind.code : MsgKind → Nat
  | .channel => 0 | .localdone => 1 | .complete => 2 | .freed => 3 | .reopen => 4 | .reopened => 5 | .request => 6 | .grant => 7
  | .refuse => 8 | .abort => 9 | .tombcount => 10

/-- The unit of a MARKER packet. -/
def markerUnit (colour : Bool) (cls : Nat) (k : MsgKind) (count snapno lchip reqcol : Nat) : PUnit :=
  BitVec.ofNat 128 ((if colour then 1 else 0) + cls % 4 * 2 + k.code * 8 + count % 2 ^ 32 * 2 ^ 32 + snapno % 2 ^ 32 * 2 ^ 64 +
    lchip % 4096 * 2 ^ 96 + reqcol % 4 * 2 ^ 108)

/-- The class of the channel that a channel marker names. -/
def markerClass (p : Packet) : BitVec 2 := BitVec.ofNat 2 (bits (p.payload.headD 0).toNat 2 1)

/-- The fields of a MARKER packet, with its sender. -/
def snapMsgOf (p : Packet) : SnapMsg :=
  let u := (p.payload.headD 0).toNat
  { colour := bit u 0, count := BitVec.ofNat 32 (bits u 63 32), snapno := BitVec.ofNat 32 (bits u 95 64)
    lchip := BitVec.ofNat 12 (bits u 107 96), reqcol := BitVec.ofNat 2 (bits u 109 108), src := p.slog }

/-- A colour of a partition. -/
def Sys.colour (y : Sys) (part : Nat) (b : Bool) : Colour := (y.part part).colour b
def Sys.modColour (y : Sys) (part : Nat) (b : Bool) (f : Colour → Colour) : Sys := y.modPart part (fun q => q.modColour b f)
def Sys.coord (y : Sys) (part : Nat) (b : Bool) : Coordinator := (y.part part).coordOf b
def Sys.modCoord (y : Sys) (part : Nat) (b : Bool) (f : Coordinator → Coordinator) : Sys := y.modPart part (fun q => q.modCoord b f)

/-- The logical chips of the domain, as the remap table has them; with JOINED = 0 the chip alone. -/
def Sys.domainChips (y : Sys) (part : Nat) : List Nat :=
  let q := y.part part
  if q.joined then
    (y.remap.filter (fun r => r.2.valid && r.1 / 4096 == q.dom.toNat)).map (fun r => r.1 % 4096)
  else [0]

/-- The domain's coordinator (R189). -/
def Part.coordinator (q : Part) : Nat := if q.joined then q.coord.toNat else 0

/-- A MARKER packet leaves. -/
def Sys.sendMarker (y : Sys) (part : Nat) (cls : BitVec 2) (dest : Nat) (u : PUnit) : Sys :=
  let e := y.remapOf (y.part part).dom.toNat dest
  if e.valid then
    (y.emit part { blankPacket with
      typ := tMarker, cls := cls, dlog := BitVec.ofNat 12 dest, dphys := e.phys, gen := e.gen, len := 1, payload := [u] }).2.2
  else y

/-- A protocol message to a logical chip; `here` is what the chip does with its own. -/
def Sys.message (y : Sys) (part : Nat) (b : Bool) (k : MsgKind) (count snapno lchip reqcol dest : Nat) (here : Sys → Sys) : Sys :=
  if dest = (y.part part).chip.toNat then here y
  else y.sendMarker part 1 dest (markerUnit b 0 k count snapno lchip reqcol)

/-- A list with a number added once. -/
def addOnce (l : List Nat) (x : Nat) : List Nat := if l.contains x then l else l ++ [x]

/-- Every awaited chip has reported. -/
def Coordinator.all (c : Coordinator) (l : List Nat) : Bool := !c.awaited.isEmpty && c.awaited.all (fun x => l.contains x)

/-! ### Reopening (R202) -/

/-- REOPENED at the coordinator: with the last one the allocation flag clears. -/
def Sys.coordReopened (y : Sys) (part : Nat) (b : Bool) (src : Nat) : Sys :=
  y.modCoord part b (fun c =>
    let r := addOnce c.reopened src
    if c.all r then {} else { c with reopened := r })

/-- REOPEN at a chip: the epoch flips, the colour is FREE and SENT counts anew. -/
def Sys.reopenChip (y : Sys) (part : Nat) (b : Bool) : Sys :=
  let c := y.colour part b
  if c.st != .quiet then y
  else
    let y1 := y.modColour part b (fun c =>
      { epoch := !c.epoch, snapno := c.snapno, capbytes := c.capbytes, recEpoch := c.recEpoch, recv := c.recv, init := c.init })
    let me := (y1.part part).chip.toNat
    y1.message part b .reopened 0 c.snapno.toNat me 0 (y1.part part).coordinator (fun z => z.coordReopened part b me)

/-- FREED at the coordinator: REOPEN is due 200 µs after the last one. -/
def Sys.coordFreed (y : Sys) (now part : Nat) (b : Bool) (src : Nat) : Sys :=
  y.modCoord part b (fun c =>
    let r := addOnce c.freed src
    { c with freed := r, reopenAt := if c.all r && c.reopenAt.isNone then some (now + 200000) else c.reopenAt })

/-- A QUIET chip answers FREED once every fabric request that it sent with the bit set has completed. -/
def Sys.checkFreed (y : Sys) (now part : Nat) (b : Bool) : Sys :=
  let c := y.colour part b
  let open_ := c.bitRequests.any (fun id => match y.access? id with | some a => a.isFlight | none => false)
  if c.st == .quiet && c.freedDue && !open_ then
    let y1 := y.modColour part b (fun c => { c with freedDue := false, bitRequests := [] })
    let me := (y1.part part).chip.toNat
    y1.message part b .freed 0 c.snapno.toNat me 0 (y1.part part).coordinator (fun z => z.coordFreed now part b me)
  else y

/-- Both colours of a partition answer FREED where they may. -/
def Sys.checkAllFreed (y : Sys) (now part : Nat) : Sys := (y.checkFreed now part false).checkFreed now part true

/-! ### Completion and abort (R202, R203) -/

/-- COMPLETE at a chip, or the end of an aborted snapshot: the header bit clears, the colour is QUIET, and SNAPDONE is posted to every
enabled VF. -/
def Sys.completeChip (y : Sys) (now part : Nat) (b aborted : Bool) : Sys :=
  let c := y.colour part b
  if c.st != .localdone && !(aborted && c.st == .aborting) then y
  else
    let y1 := y.modColour part b (fun c => { c with st := .quiet, headerBit := false, freedDue := true })
    let data : Nat := (if b then 1 else 0) + (if aborted then 2 else 0) + c.snapno.toNat * 2 ^ 32
    let y2 := ((y1.partVfs part).filter (fun v => (y1.vf v).en)).foldl (fun z v => z.notify v 3 (BitVec.ofNat 64 data)) y1
    y2.checkFreed now part b

/-- LOCALDONE at the coordinator: COMPLETE goes to each chip once it holds all. -/
def Sys.coordLocaldone (y : Sys) (now part : Nat) (b : Bool) (src : Nat) : Sys :=
  let c := y.coord part b
  let r := addOnce c.localdone src
  let y1 := y.modCoord part b (fun c => { c with localdone := r })
  if c.all r && !c.all c.localdone then
    c.awaited.foldl (fun z d => z.message part b .complete 0 (y.colour part b).snapno.toNat 0 0 d
      (fun w => w.completeChip now part b false)) y1
  else y1

/-- The causes by number, for an error whose cause the spec leaves open. -/
def causeAt (n : Nat) : Cause :=
  [Cause.illegal, .hazard, .uniform, .spbound, .space, .limit, .key, .align, .class, .quar, .tapeovf, .tapeund, .tapemis, .adconf,
   .barbusy, .strap, .brk, .remote, .ecc, .privilege, .barovf, .thermal, .badcmd, .badreply, .cmdinval, .cmdabort,
   .cmdfault].getD (n % 27) .cmdabort

/-- The initiator's SNAP command ends: DONE, or ERROR with a cause and an address that the spec leaves open (R192, R203). -/
def Sys.endSnap (y : Sys) (now part : Nat) (b ok : Bool) : Sys :=
  match (y.colour part b).snapCmd with
  | none => y
  | some h =>
    let y0 := y.modColour part b (fun c => { c with snapCmd := none })
    if ok then y0.finishCmd now h
    else
      let (w, y1) := takeFree y0
      let (a, y2) := takeFree y1
      y2.setStatus now h .error (some (causeAt w.toNat, a)) true

/-- ABORT of a snapshot at a chip (R203): capturing stops, staging is discarded, and an end record marked aborted is still to be written. A
chip that has not recorded it gives its record point up and goes on as on COMPLETE, for every chip's colour is reopened. -/
def Sys.abortChip (y : Sys) (now part : Nat) (b : Bool) (no : Word) : Sys :=
  let c := y.colour part b
  if c.st == .live || c.st == .localdone then
    (y.modColour part b (fun c => { c with
      st := .aborting, aborted := true, staging := [], scope := [], logs := [], nvmePending := 0, endWritten := false
      deadline := none, snapno := if c.snapno = 0 then no else c.snapno })).endSnap now part b false
  else if c.st == .free && (c.trec.isSome || c.snapno != no) then
    let host := c.hostCmd
    let y1 := (y.modColour part b (fun c => { c with st := .aborting, aborted := true, trec := none, hostCmd := none
                                                     snapno := no, endWritten := true })).endSnap now part b false
    (match host with
      | some u => y1.completeHost u .terminated 0
      | none => y1).completeChip now part b true
  else y

/-- ABORT at the coordinator goes on to every chip. -/
def Sys.coordAbort (y : Sys) (now part : Nat) (b : Bool) : Sys :=
  let c := y.coord part b
  if !c.flag then y
  else
    let ds := if c.awaited.isEmpty then y.domainChips part else c.awaited
    let y1 := y.modCoord part b (fun c => { c with awaited := ds })
    ds.foldl (fun z d => z.message part b .abort 0 c.no.toNat 0 0 d (fun w => w.abortChip now part b c.no)) y1

/-- A chip asks for the abort of a snapshot (R203). -/
def Sys.askAbort (y : Sys) (now part : Nat) (b : Bool) : Sys :=
  let q := y.part part
  y.message part b .abort 0 (q.colour b).snapno.toNat q.chip.toNat 0 q.coordinator (fun z => z.coordAbort now part b)

/-! ### Requests (R189, R192) -/

/-- SNAP goes on with its two results. -/
def Cp.endSnapWait (c : Cp) (d : Nat) (lo hi : DWord) : Cp :=
  let w := c.write { v := [(0, d, lo), (0, d + 1, hi)] }
  { w with snapWait := none, pc := w.pc + 4, hints := {}, nextSeq := w.nextSeq + 1 }

/-- The request that a grant of a colour answers: the first that asked for it or for any. -/
def Part.reqFor (q : Part) (b : Bool) : Option SnapReq :=
  q.snapReqs.find? (fun r => r.reqcol == 0 || r.reqcol == (if b then 2 else 1))

/-- GRANT at the requester (R192, R194): the record point is fixed 1,000 ns from now, and SNAP returns its colour, number and
handle. -/
def Sys.granted (y : Sys) (now part : Nat) (b : Bool) (no : Word) : Sys :=
  match (y.part part).reqFor b with
  | none => y
  | some r =>
    let y1 := y.modPart part (fun q => { q with snapReqs := q.snapReqs.erase r })
    let sinks := BitVec.ofNat 8 (field r.desc 2 1)
    let y2 := y1.modColour part b (fun c => { c with
      trec := some (now + 1000), pendingNo := no, desc := some r, hostCmd := r.host, sinks := sinks })
    match r.cp with
    | none => y2
    | some (core, d) =>
      let (h, y3) := y2.fresh
      let vf := (y3.core core).cp.vf
      let c : Cmd :=
      { handle := h, core := core, part := part, vf := vf, launchHeap := (y3.vf vf).heap, kind := .snap b, record := r.desc
        ptr := 0, status := .running, ecause := none, flags := 0, bar := none, chunks := [], skipped := [], failedChunks := []
        cursor := 0, progress := [], cancel := false, inval := false, route := {}, doneOrder := 0, resume := none }
      let y4 : Sys := { y3 with cmds := y3.cmds ++ [c] }
      let lo := BitVec.ofNat 64 ((if b then 1 else 0) + no.toNat * 2 ^ 32)
      (y4.modColour part b (fun k => { k with snapCmd := some h })).modCp core
        (fun k => k.endSnapWait d lo (BitVec.ofNat 64 h))

/-- REFUSE at the requester: the oldest request ends with NOCOLOUR. -/
def Sys.refused (y : Sys) (part : Nat) : Sys :=
  match (y.part part).snapReqs with
  | [] => y
  | r :: rest =>
    let y1 := y.modPart part (fun q => { q with snapReqs := rest })
    let y2 := match r.cp with
      | some (core, d) => y1.modCp core (fun k => k.endSnapWait d 2 0)
      | none => y1
    match r.host with
    | some u => y2.completeHost u .nocolour 0
    | none => y2

/-- A REMAP of a partition's domain is in progress (R208). -/
def Sys.remapRuns (y : Sys) (part : Nat) : Bool :=
  (y.part part).joined && y.remapping.any (fun r => r.2 == (y.part part).dom.toNat)

/-- REQUEST at the coordinator: the colour it picks, or none. -/
def Sys.pickColour (y : Sys) (part : Nat) (reqcol : BitVec 2) : Option Bool :=
  if y.remapRuns part then none else
  ((if reqcol = 0 then [false, true] else if reqcol = 1 then [false] else if reqcol = 2 then [true] else []) : List Bool).find?
    (fun b => !(y.coord part b).flag && (y.colour part b).st == .free)

/-- REQUEST at the coordinator (R189). -/
def Sys.coordRequest (y : Sys) (now part : Nat) (reqcol : BitVec 2) (src : Nat) : Sys :=
  match y.pickColour part reqcol with
  | none => y.message part false .refuse 0 0 src reqcol.toNat src (fun z => z.refused part)
  | some b =>
    let no := (y.part part).grants + 1
    let y1 := (y.modPart part (fun q => { q with grants := no })).modCoord part b (fun _ => { flag := true, no := no })
    y1.message part b .grant 0 no.toNat src 0 src (fun z => z.granted now part b no)

/-- A chip asks for a snapshot. -/
def Sys.askSnapshot (y : Sys) (now part : Nat) (r : SnapReq) : Sys :=
  let y1 := y.modPart part (fun q => { q with snapReqs := q.snapReqs ++ [r] })
  let q := y1.part part
  y1.message part false .request 0 0 q.chip.toNat r.reqcol.toNat q.coordinator (fun z => z.coordRequest now part r.reqcol q.chip.toNat)

end Sys2Proof.Machine
end

