-- ==== Sys2Proof/Machine/Fabric.lean ====
section
/-!
DEFINITION. Packets that arrive: malformed ones (R34), those for a chip that is not here (R42, R43), colour bits and channel counts
(R194, R199, R201, R202), requests served through the FAB window (R131), responses (R35, R36, R38), NACK (R44), slot timeouts, and the
ticks of deterministic jobs (R47).
-/
namespace Sys2Proof.Machine

/-! ### Arrival -/

/-- The partition whose log takes a record about a packet: the host of its chip, or the lowest that has joined its domain. -/
def Sys.logPart (y : Sys) (p : Packet) : Option Nat :=
  (y.hostPart p.dom.toNat p.dlog.toNat).orElse
    (fun _ => allParts.find? (fun n => (y.part n).valid && (y.part n).joined && (y.part n).dom == p.dom))

/-- A record about a packet, with its OFFSET (R34, R43, R202). -/
def Sys.logPacket (y : Sys) (now : Nat) (p : Packet) (c : Cause) : Sys :=
  match y.logPart p with
  | some n => y.logEal now n c 0 0 (p.offset.setWidth 64) .port 0 0 0
  | none => y

/-- The port in whose receive buffers a packet stands; none for one that came through the loopback. -/
def Sys.arrivalPort (y : Sys) (p : Packet) : Option Nat :=
  (y.ports.find? (fun q => q.2.rxBuf.any (fun f => f.2.contains p))).map Prod.fst

/-- A packet leaves the receive buffer; with the last packet of a flit the credit of its virtual channel is owed (R31). -/
def takeBuffered (p : Packet) : List (Nat × List Packet) → List (Nat × List Packet) × List Nat
  | [] => ([], [])
  | f :: r =>
    if f.2.contains p then (let rest := f.2.erase p; if rest.isEmpty then (r, [f.1]) else ((f.1, rest) :: r, []))
    else
      let x := takeBuffered p r
      (f :: x.1, x.2)

/-- A packet is taken from those received. -/
def Sys.takePacket (y : Sys) (p : Packet) : Sys :=
  let y1 : Sys := { y with inbox := y.inbox.erase p }
  match y.arrivalPort p with
  | none => y1
  | some n => y1.modPort n (fun q =>
      let x := takeBuffered p q.rxBuf
      { q with rxBuf := x.1, owed := x.2.foldl (fun l vc => tmod l vc 0 (· + 1)) q.owed })

/-- The unit of an ERRRSP: the cause and the index of the responder's newest record (R33). -/
def Sys.errorUnit (y : Sys) (part : Nat) (c : Cause) : PUnit :=
  BitVec.ofNat 128 (c.code + ((y.part part).ealcnt + 255) % 256 * 256)

/-- An answer of a package that hosts no chip of the packet: it goes back uncounted in the name of the chip addressed (R43). -/
def Sys.answerAs (y : Sys) (p : Packet) (typ : BitVec 4) (u : PUnit) : Sys :=
  (y.transmit { blankPacket with
    typ := typ, cls := if p.cls == 3 then 0 else p.cls, dlog := p.slog, dphys := p.sphys, slog := p.dlog, sphys := y.phys
    dom := p.dom, gen := (y.remapOf p.dom.toNat p.slog.toNat).gen, len := 1, tagCore := p.tagCore, tagGrp := p.tagGrp
    tagSlot := p.tagSlot, tagE := p.tagE, tagPos := p.tagPos, payload := [u] }).2

/-- A malformed packet is discarded and logged, and a request among them is answered (R34). -/
def Sys.malformed (y : Sys) (now : Nat) (p : Packet) : Sys :=
  let c : Cause := if p.cls == 3 then .class else .remote
  let y1 := y.logPacket now p c
  if !p.isRequest then y1
  else
    match y.hostPart p.dom.toNat p.dlog.toNat with
    | some n => y1.respond now n p tErrrsp [y1.errorUnit n c]
    | none => y1.answerAs p tErrrsp (match y1.logPart p with | some n => y1.errorUnit n c | none => BitVec.ofNat 128 c.code)

/-- The live tombstone of a logical chip (R42). -/
def Sys.tombstone (y : Sys) (now dom lchip : Nat) : Option Tombstone :=
  y.tombstones.find? (fun t => t.dom == dom && t.lchip == lchip && decide (now < t.expiry))

/-- A packet for a chip that is not here (R43), with the port it arrived on. A counted response that a live tombstone discards is reported
to the new host (R199). A NACK or TIMEX has no row in R43's table: it is treated as a MARKER is (DESIGN CHOICE, assumption log 61). -/
def Sys.notHosted (y : Sys) (now : Nat) (from_ : Option Nat) (p : Packet) : Sys :=
  let t := y.tombstone now p.dom.toNat p.dlog.toNat
  if p.isResponse then
    let y1 := match from_ with
      | some n => y.modPort n (fun q => { q with discarded := q.discarded + 1 })
      | none => y
    match t with
    | none => y1
    | some t =>
      let msg := fun (b : Bool) (z : Sys) => (z.transmit { blankPacket with
        typ := tMarker, cls := 1, dlog := p.dlog, dphys := t.phys, gen := t.gen, slog := p.slog, sphys := y.phys, dom := p.dom, len := 1
        payload := [markerUnit b 0 .tombcount 1 0 p.dlog.toNat 0] }).2
      let y2 := if p.ca then y1 else msg false y1
      if p.cb then y2 else msg true y2
  else
    match t with
    | some t => y.answerAs p tNack (BitVec.ofNat 128 (t.phys.toNat + t.gen.toNat * 2 ^ 16))
    | none =>
      if p.isRequest then
        let y1 := y.logPacket now p .remote
        y1.answerAs p tErrrsp (match y1.logPart p with | some n => y1.errorUnit n .remote | none => BitVec.ofNat 128 Cause.remote.code)
      else y.logPacket now p .remote

/-- What a colour bit of a packet asks (R194, R202). -/
inductive ColourCheck where
  | go | wait | stale
deriving DecidableEq, Repr

def Colour.check (c : Colour) (set epoch : Bool) : ColourCheck :=
  if !set then .go else if epoch != c.epoch then .stale else if c.st == .free then .wait else .go

/-- A trigger fixes the record point 1,000 ns from now (R194), while the colour is FREE and none is fixed. -/
def Sys.trigger (y : Sys) (now part : Nat) (b : Bool) (no : Word) : Sys :=
  y.modColour part b (fun c =>
    if c.st == .free && c.trec.isNone then
      { c with trec := some (now + 1000), pendingNo := no, sinks := (y.part part).defsinks, desc := none }
    else c)

/-- Both colours' checks of a packet: stale before waiting. -/
def Part.check (q : Part) (p : Packet) : ColourCheck :=
  match q.colourA.check p.ca p.ea, q.colourB.check p.cb p.eb with
  | .stale, _ => .stale
  | _, .stale => .stale
  | .wait, _ => .wait
  | _, .wait => .wait
  | _, _ => .go

/-- A stale packet is discarded; a request among them is logged (R202). -/
def Sys.stale (y : Sys) (now : Nat) (p : Packet) : Sys := if p.isRequest then y.logPacket now p .remote else y

/-! ### Channel counts (R40, R199, R201) -/

/-- The channels that a packet counts on, and how often: a combined contribution on each of its sources'. -/
def countsOf (p : Packet) : List (Nat × Nat) :=
  if p.typ == tContrib && p.len == 2 then
    let u := (p.payload.getD 1 0).toNat
    (List.range 8).filterMap (fun i =>
      let e := bits u (16 * i + 15) (16 * i)
      if e = 0 then none else some (chanKey (BitVec.ofNat 12 e) p.cls, e / 4096))
  else [(chanKey p.slog p.cls, 1)]

/-- A channel closes when its RECV equals the count of its marker; its log, where not empty, goes to staging as one record. -/
def Colour.close (c : Colour) (k : Nat) : Colour :=
  match c.markers.find? (fun m => m.1 == k) with
  | none => c
  | some m =>
    if c.closed.contains k || tget c.recv k 0 != m.2 || c.st != .live then c
    else
      let ps := (c.logs.filter (fun l => l.1 == k)).map Prod.snd
      let r : StreamRec :=
      { rkind := 5, ident := BitVec.ofNat 64 (k / 4 + k % 4 * 4096), body := bytesOfUnits (ps.flatMap encodePacket), image := .log ps }
      { c with closed := c.closed ++ [k], staging := if ps.isEmpty then c.staging else c.staging ++ [r]
               logs := c.logs.filter (fun l => l.1 != k) }

/-- A packet counts for a colour: RECV of its channels, and the log of an open one. -/
def Colour.receive (c : Colour) (p : Packet) (set : Bool) : Colour :=
  if set || !p.isCounted then c
  else
    let ks := countsOf p
    let c1 := { c with recv := ks.foldl (fun r k => tmod r k.1 0 (· + k.2)) c.recv }
    let live := c1.st == .live
    let c2 := match ks.find? (fun k => live && c1.chans.contains k.1 && !c1.closed.contains k.1) with
      | some k => { c1 with logs := c1.logs ++ [(k.1, p)] }
      | none => c1
    ks.foldl (fun x k => x.close k.1) c2

/-- A packet counts for both colours. -/
def Sys.countRecv (y : Sys) (part : Nat) (p : Packet) : Sys :=
  y.modPart part (fun q => { q with colourA := q.colourA.receive p p.ca, colourB := q.colourB.receive p p.cb })

/-- A packet that a log would take a page of staging for waits while there is none (R195, R201; DEDUCED, assumption log 65). -/
def Sys.logStalls (y : Sys) (part : Nat) (z : Sys) : Bool :=
  decide ((y.part part).staged < (z.part part).staged) && decide ((z.part part).stagingBytes < (z.part part).staged)

/-! ### The way of a packet to its meaning -/

/-- The order of a packet is kept by ticks, not by its path (R47). -/
def Packet.ticked (p : Packet) : Bool := p.det || p.typ == tTickend

/-- A class O packet does not overtake an earlier one of its sender, destination and virtual channel. -/
def Sys.isNext (y : Sys) (p : Packet) : Bool :=
  let first := y.inbox.find? (fun q =>
    q.cls == 0 && !Packet.ticked q && q.vc == p.vc && q.slog == p.slog && q.dlog == p.dlog && q.dom == p.dom)
  y.inbox.contains p && (p.cls != 0 || Packet.ticked p || first == some p)

/-- A deterministic packet goes to the tick buffer of its job (R47); it waits while no launch of the job has started here. -/
def Sys.buffer (y : Sys) (part : Nat) (p : Packet) : Option Sys :=
  (y.detJob part p.slog.toNat p.dseq.toNat).map (fun u => y.modLaunch u (fun l =>
    { l with ticks := { l.ticks with received := l.ticks.received ++ [(p.slog.toNat, p)] } }))

/-- What arrives is checked in order: form, host, colour bits; then it is counted and acted on. `act` answers none while the packet
must wait. -/
def arrive (s : State) (p : Packet) (typ : BitVec 4) (act : State → Nat → Option Eff) : Eff :=
  let y := s.sys
  if p.typ != typ || !y.isNext p then Eff.none s
  else if p.malformed then { sys := (y.takePacket p).malformed s.gtime p }
  else
    match y.hostPart p.dom.toNat p.dlog.toNat with
    | none => { sys := (y.takePacket p).notHosted s.gtime (y.arrivalPort p) p }
    | some part =>
      match (y.part part).check p with
      | .stale => { sys := (y.takePacket p).stale s.gtime p }
      | .wait =>
        let f := fun (b set : Bool) (z : Sys) => if set then z.trigger s.gtime part b 0 else z
        { sys := f true p.cb (f false p.ca y) }
      | .go =>
        let t : State := { s with sys := (y.takePacket p).countRecv part p }
        if y.logStalls part t.sys then Eff.none s
        else if p.det && p.isCounted then (match t.sys.buffer part p with | some z => { sys := z } | none => Eff.none s)
        else (act t part).getD (Eff.none s)

/-! ### Requests at their home (R131) -/

/-- The VF whose windows serve the fabric. -/
def Sys.fabVf (y : Sys) (part : Nat) : Option Nat := (y.partVfs part).find? (fun v => (y.vf v).heap.fab)

/-- Where n bytes of a subspace lie, with their key. -/
def Sys.fabPlace (y : Sys) (part : Nat) (sub : BitVec 2) (ofs n : Nat) : Option (Nat × Nat) :=
  match y.fabVf part with
  | none => none
  | some v =>
    let w := y.vf v
    if sub = 0 then heapFlat (y.part part) w.heap ofs n
    else
      let b := bits ofs 21 0
      let lo := w.dsbase.toNat * 16384
      if ofs / 2 ^ 32 = 0 && w.dsvalid && decide (lo ≤ b) && decide (b + n ≤ lo + w.dsn.toNat * 16384) then
        ((y.part part).cluster (bits ofs 31 24)).map (fun cl => (flatSram (clusterCore cl (bits ofs 23 22)) b, 0))
      else none

/-- The access that a packet makes at its home. -/
def portAccess (part : Nat) (p : Packet) (op : AccOp) (f key : Nat) : Access :=
  { id := 0, who := .port p, lane := 0, lanes := 1, wait := 0, seq := 0, pc := 0, cls := p.cls, op := op
    ptr := p.offset.setWidth 64, target := .home f, key := key, part := part, vf := 0, launch := 0, core := 0, dest := .none, mod := 2
    ordered := false, slot := none, pos := 0, packet := none, sent := false, via := 0, nacks := 0, sentAt := 0, undone := false
    abacus := none, retryAt := none, quarantined := false, st := .inFlight }

/-- An ERRRSP with its record. -/
def Sys.errorAnswer (y : Sys) (now part : Nat) (p : Packet) (c : Cause) : Sys :=
  let y1 := y.logEal now part c 0 0 (p.offset.setWidth 64) .port 0 0 0
  y1.respond now part p tErrrsp [y1.errorUnit part c]

/-- The accesses of this package that a packet which came through the loopback stands for. -/
def Sys.senders (y : Sys) (p : Packet) : List Access :=
  if p.sphys != y.phys then []
  else y.accesses.filter (fun a => a.isFabric && a.sent && a.isFlight && a.fchip == p.dlog && (y.part a.part).dom == p.dom &&
    (y.part a.part).chip == p.slog && (match a.packet with
      | some q => q.tagCore == p.tagCore && q.tagGrp == p.tagGrp && q.tagSlot == p.tagSlot && q.tagE == p.tagE && q.tagPos == p.tagPos
      | none => false))

/-- Changes the L1 of the core that made an access, where n bytes from b on are written. -/
def Sys.modL1 (y : Sys) (a : Access) (b n : Nat) (f : List L1Line → List L1Line) : Sys :=
  match a.l1Core with
  | some c => y.modCore c (fun k => { k.l1Good b n with l1 := f k.l1 })
  | none => y

/-- What a request that performs at its home does at that moment to the L1 of the core that made it, where that is a core of this package
(R145): a store updates its copy, an atomic drops it. -/
def Sys.ownCopies (y : Sys) (p : Packet) : Sys :=
  (y.senders p).foldl (fun z a => match a.op with
    | .store d => z.modL1 a a.fline d.length (fun l => l.map (fun x => x.write true a.fline d))
    | .load _ => z
    | _ => z.modL1 a 0 0 (fun l => l.filter (fun x => !x.fabric || lineOf x.start != lineOf a.fline))) y

/-- The answer to an access that has been served. -/
def answerServed (s : State) (part : Nat) (p : Packet) (r : Served) (f n : Nat) (typ : BitVec 4) : Eff :=
  match r.err with
  | some c => { r.eff with sys := r.eff.sys.errorAnswer s.gtime part p c }
  | none =>
    let g := r.eff.sys.gwct s.gtime f n
    let y := r.eff.sys.ownCopies p
    let u := if typ = tWrack then BitVec.ofNat 128 (g % 2 ^ 64) else BitVec.ofNat 128 (numOf (slice r.value 0 8) + g % 2 ^ 64 * 2 ^ 64)
    { r.eff with sys := y.respond s.gtime part p typ [u] }

/-- RDREQ at its home: the span, under a lease of 8 µs (R138). Of an OP of 32 to 63, which R33 does not list and R34 does not call malformed,
the low five bits are the span (DESIGN CHOICE, assumption log 61). -/
def serveRdreq (s : State) (part : Nat) (p : Packet) : Eff :=
  let n := (p.op.toNat % 32 + 1) * 4
  match s.sys.fabPlace part p.sub p.offset.toNat n with
  | none => { sys := s.sys.errorAnswer s.gtime part p .limit }
  | some (f, k) =>
    match s.sys.readError f n k with
    | some c => { sys := s.sys.errorAnswer s.gtime part p c }
    | none =>
      { sys := ((s.sys.readAt f n k).grantLease (lineOf f) (s.gtime + 8000)).respond s.gtime part p tRdrsp
          (unitsOf ((n + 15) / 16) (readBytes s.mem f n)) }

/-- The runs of enabled bytes of a WRREQ: offset in the span and bytes. -/
def maskRuns (mask : Nat) (data : List Byte) : List (Nat × List Byte) :=
  ((data.mapIdx (fun i b => (i, b))).filter (fun x => bit mask x.1)).foldl (fun acc x =>
    match acc.getLast? with
    | some (o, l) => if o + l.length = x.1 then acc.dropLast ++ [(o, l ++ [x.2])] else acc ++ [(x.1, [x.2])]
    | none => [(x.1, [x.2])]) []

/-- WRREQ at its home. -/
def serveWrreq (s : State) (part : Nat) (p : Packet) : Option Eff :=
  let runs := maskRuns (p.payload.headD 0).toNat (bytesOfUnits (p.payload.drop 1))
  let places := runs.map (fun r => (s.sys.fabPlace part p.sub (p.offset.toNat + r.1) r.2.length, r.2))
  let fail := fun (c : Cause) => some ({ sys := s.sys.errorAnswer s.gtime part p c } : Eff)
  if places.any (fun x => x.1.isNone) then fail .limit
  else
    let ws := places.filterMap (fun x => x.1.map (fun fk => (fk.1, fk.2, x.2)))
    match ws.findSome? (fun w => s.sys.writeError w.1 w.2.2.length w.2.1) with
    | some c => fail c
    | none =>
      if s.sys.allStall (ws.map (fun w => (w.1, w.2.2.length))) then none
      else
        let t : State := { s with sys := ws.foldl (fun y w => y.claim w.1 w.2.1) s.sys }
        let e := putAll t (ws.map (fun w => (w.1, w.2.2)))
        let g := ws.foldl (fun m w => max m (e.sys.gwct s.gtime w.1 w.2.2.length)) s.gtime
        some { e with sys := (e.sys.ownCopies p).respond s.gtime part p tWrack [BitVec.ofNat 128 (g % 2 ^ 64)] }

/-- An atomic, contribution, declaration or domain barrier operation at its home (R211, R316, R317, R186, R187). -/
def serveAtreq (s : State) (part : Nat) (p : Packet) : Option Eff :=
  let u := (p.payload.headD 0).toNat
  let x : DWord := BitVec.ofNat 64 u
  let c : DWord := BitVec.ofNat 64 (u / 2 ^ 64)
  let fail := fun (c : Cause) => some ({ sys := s.sys.errorAnswer s.gtime part p c } : Eff)
  let at_ := fun (n : Nat) => s.sys.fabPlace part p.sub p.offset.toNat n
  if p.op = 0x1F then
    match at_ 1088 with
    | none => fail .limit
    | some (f, k) =>
      if s.sys.writeStalls f 1088 then none
      else
        let a := portAccess part p (.domain (u % 4) (BitVec.ofNat 12 (bits u 27 16)) p.slog) f k
        let r := serveDomain s a f (u % 4) (bits u 27 16) p.slog.toNat
        some (answerServed s part p { r with value := [] } f 1088 tAtrsp)
  else if p.op.toNat % 32 = 0x12 then
    match at_ 128 with
    | none => fail .limit
    | some (f, k) =>
      let n : Word := BitVec.ofNat 32 u
      let a := portAccess part p (.decl n c) f k
      let v := (s.sys.fabVf part).getD 0
      some (answerServed s part p (serveDecl s a part v f n c) f 128 tAtrsp)
  else
    match atomOf (p.op.toNat % 32) with
    | none => fail .remote
    | some o =>
      match at_ o.size with
      | none => fail .limit
      | some (f, k) =>
        let a := portAccess part p (.atomic o true x c) f k
        if s.sys.writeStalls f o.size then none
        else if o.contributes then
          if s.sys.contribFree (lineOf f) then some (answerServed s part p (serveCadd s a f o x 1) f 4 tAtrsp) else none
        else some (answerServed s part p (serveAtomic s a f o x c) f o.size tAtrsp)

/-- CONTRIB at its home: the sum of a combined packet is added once and counts as all its contributions (R40, R186). It is answered
with WRACK. -/
def serveContrib (s : State) (part : Nat) (p : Packet) : Option Eff :=
  let x : DWord := BitVec.ofNat 64 (p.payload.headD 0).toNat
  let o : AtomOp := if p.op = 0x10 then .caddF32 else .caddBf16x2
  match s.sys.fabPlace part p.sub p.offset.toNat 4 with
  | none => some { sys := s.sys.errorAnswer s.gtime part p .limit }
  | some (f, k) =>
    if s.sys.writeStalls f 4 || !s.sys.contribFree (lineOf f) then none
    else
      let n := (countsOf p).foldl (fun m c => m + c.2) 0
      some (answerServed s part p (serveCadd s (portAccess part p (.atomic o false x 0) f k) f o x n) f 4 tWrack)

/-! ### Responses (R35, R36) -/

/-- The accesses in flight that a response or NACK answers: those of its tag to the chip it comes from. -/
def Sys.answered (y : Sys) (part : Nat) (p : Packet) : List Access :=
  y.accesses.filter (fun a => a.isFabric && a.sent && a.isFlight && a.part == part && a.fchip == p.slog &&
    (match a.packet with
      | some q => q.tagCore == p.tagCore && q.tagGrp == p.tagGrp && q.tagSlot == p.tagSlot && q.tagE == p.tagE && q.tagPos == p.tagPos
      | none => false))

/-- What follows a response: held requests go, and FREED may be due. -/
def Sys.afterAnswer (y : Sys) (now part : Nat) : Sys := (y.sendAll now).checkAllFreed now part

/-- RDRSP: each load takes its part of the span, and L1 keeps the span under a lease (R138), in place of what it held of it. -/
def Sys.rdrsp (y : Sys) (now part : Nat) (p : Packet) : Sys :=
  let as := y.answered part p
  let data := bytesOfUnits p.payload
  let y1 := as.foldl (fun z a =>
    let base := match a.packet with | some q => q.offset.toNat | none => 0
    z.performAt a (slice data (a.fofs - base) a.op.bytes) now) y
  let y2 := match as with
    | a :: _ =>
      let (base, n) := match a.packet with | some q => (q.offset.toNat, (q.op.toNat % 32 + 1) * 4) | none => (0, 0)
      if a.mod = 2 || !as.all (fun b => match b.op with | .load _ => true | _ => false) then y1
      else
        let x : L1Line :=
        { start := a.fline + base - a.fofs, expiry := a.sentAt + (if a.mod = 1 then 1000 else 8000), fabric := true, key := 0
          bytes := slice data 0 n }
        -- bytes under a store or atomic of the core that has still to perform are not kept
        let under := fun (b : Nat) => y1.accesses.any (fun q => q.isFlight && q.isFabric && q.l1Core == a.l1Core && !q.op.isRead &&
          decide (q.fline ≤ b) && decide (b < q.fline + q.op.bytes))
        y1.modL1 a x.start n (fun l => (x.without under).foldl (fun m z => fillLine z m) l)
    | [] => y1
  y2.afterAnswer now part

/-- WRACK: the stores have performed. The issuing core's copies took them when a home in this package applied them, and take them now where
the home is another's (R145). -/
def Sys.wrack (y : Sys) (now part : Nat) (p : Packet) : Sys :=
  let g := (p.payload.headD 0).toNat % 2 ^ 64
  let y1 := (y.answered part p).foldl (fun z a =>
    let z1 := if p.sphys == y.phys then z else match a.op with
      | .store d => z.modL1 a a.fline d.length (fun (l : List L1Line) => l.map (fun (x : L1Line) => x.write true a.fline d))
      | .load _ => z
      | _ => z.modL1 a 0 0 (fun (l : List L1Line) => l.filter (fun (x : L1Line) => !x.fabric || lineOf x.start != lineOf a.fline))
    z1.performAt a [] g) y
  y1.afterAnswer now part

/-- ATRSP: the old value arrives; the issuing core's copy of the line goes (R138). -/
def Sys.atrsp (y : Sys) (now part : Nat) (p : Packet) : Sys :=
  let u := (p.payload.headD 0).toNat
  let y1 := (y.answered part p).foldl (fun z a =>
    (z.modL1 a 0 0 (fun (l : List L1Line) => l.filter (fun (x : L1Line) => !x.fabric || lineOf x.start != lineOf a.fline))).performAt a (bytesOf 8 u) (u / 2 ^ 64)) y
  y1.afterAnswer now part

/-- The requests of some accesses fail with REMOTE, with one record. -/
def Sys.failRemote (y : Sys) (now : Nat) (as : List Access) (rem remLog : BitVec 8) : Sys :=
  (as.foldl (fun (acc : Bool × Sys) a => (acc.1 || !acc.2.helperLoad a, acc.2.failAccess now a .remote rem remLog acc.1)) (false, y)).2

/-- ERRRSP: the request completes with an error (R36). -/
def Sys.errrsp (y : Sys) (now part : Nat) (p : Packet) : Sys :=
  let u := (p.payload.headD 0).toNat
  (y.failRemote now (y.answered part p) (BitVec.ofNat 8 u) (BitVec.ofNat 8 (u / 256))).afterAnswer now part

/-- Markers and TICKENDs of the last ticks go again to a chip that has moved (R43, R44). -/
def Sys.resendControl (y : Sys) (part chip : Nat) : Sys :=
  let q := y.part part
  let marks := fun (b : Bool) (c : Colour) (z : Sys) =>
    (c.markersSent.filter (fun m => m.1 / 4 == chip)).foldl (fun w m =>
      w.sendMarker part (BitVec.ofNat 2 m.1) chip (markerUnit b (m.1 % 4) .channel m.2 c.snapno.toNat 0 0)) z
  let y1 := marks true q.colourB (marks false q.colourA y)
  (y1.launches.filter (fun l => l.part == part)).foldl (fun z l =>
    (l.ticks.sentEnds.filter (fun e => e.1 == chip)).foldl (fun w e =>
      let r := w.remapOf q.dom.toNat chip
      (w.emit part { blankPacket with
        typ := tTickend, dlog := BitVec.ofNat 12 chip, dphys := r.phys, gen := r.gen, len := 1
        payload := [BitVec.ofNat 128 (e.2.1 % 2 ^ 64 + e.2.2 * 2 ^ 64 + l.record.launchId.toNat * 2 ^ 96)] }).2.2) z) y1

/-- NACK (R44): the newer place is adopted and the request goes again, in the original order; one NACKed more than four times
completes with REMOTE (R35). -/
def Sys.nack (y : Sys) (now part : Nat) (p : Packet) : Sys :=
  let u := (p.payload.headD 0).toNat
  let key := p.dom.toNat * 4096 + p.slog.toNat
  let e := y.remapOf p.dom.toNat p.slog.toNat
  let gen := BitVec.ofNat 16 (bits u 31 16)
  let y1 : Sys := if newerGen gen e.gen then { y with adopted := tset y.adopted key { e with phys := BitVec.ofNat 12 u, gen := gen } } else y
  match y.answered part p with
  | [] => y1.resendControl part p.slog.toNat
  | a :: r =>
    if 4 ≤ a.nacks then (y1.failRemote now (a :: r) 0 0).afterAnswer now part
    else
      let ids := (a :: r).map (fun x => x.id)
      let y2 : Sys := { y1 with accesses := y1.accesses.map (fun b =>
        if ids.contains b.id then { b with sent := false, nacks := b.nacks + 1 } else b) }
      y2.afterAnswer now part

/-! ### Meanings of requests and responses -/

/-- RDREQ (R33, R131). -/
def execRdreq : State → Host.Outcome State Fault Refusal :=
  eventNext (fun s => match s.sys.ev with
    | some (.rdreq p) => arrive s p tRdreq (fun t part => some (serveRdreq t part p))
    | _ => Eff.none s)

/-- WRREQ (R33, R131). -/
def execWrreq : State → Host.Outcome State Fault Refusal :=
  eventNext (fun s => match s.sys.ev with
    | some (.wrreq p) => arrive s p tWrreq (fun t part => serveWrreq t part p)
    | _ => Eff.none s)

/-- ATREQ (R33, R131, R211). -/
def execAtreq : State → Host.Outcome State Fault Refusal :=
  eventNext (fun s => match s.sys.ev with
    | some (.atreq p) => arrive s p tAtreq (fun t part => serveAtreq t part p)
    | _ => Eff.none s)

/-- CONTRIB (R40, R186). -/
def execContrib : State → Host.Outcome State Fault Refusal :=
  eventNext (fun s => match s.sys.ev with
    | some (.contrib p) => arrive s p tContrib (fun t part => serveContrib t part p)
    | _ => Eff.none s)

/-- RDRSP (R35). -/
def execRdrsp : State → Host.Outcome State Fault Refusal :=
  eventNext (fun s => match s.sys.ev with
    | some (.rdrsp p) => arrive s p tRdrsp (fun t part => some { sys := t.sys.rdrsp t.gtime part p })
    | _ => Eff.none s)

/-- WRACK (R35). -/
def execWrack : State → Host.Outcome State Fault Refusal :=
  eventNext (fun s => match s.sys.ev with
    | some (.wrack p) => arrive s p tWrack (fun t part => some { sys := t.sys.wrack t.gtime part p })
    | _ => Eff.none s)

/-- ATRSP (R35). -/
def execAtrsp : State → Host.Outcome State Fault Refusal :=
  eventNext (fun s => match s.sys.ev with
    | some (.atrsp p) => arrive s p tAtrsp (fun t part => some { sys := t.sys.atrsp t.gtime part p })
    | _ => Eff.none s)

/-- ERRRSP (R36). -/
def execErrrsp : State → Host.Outcome State Fault Refusal :=
  eventNext (fun s => match s.sys.ev with
    | some (.errrsp p) => arrive s p tErrrsp (fun t part => some { sys := t.sys.errrsp t.gtime part p })
    | _ => Eff.none s)

/-- NACK (R44). -/
def execNack : State → Host.Outcome State Fault Refusal :=
  eventNext (fun s => match s.sys.ev with
    | some (.nack p) => arrive s p tNack (fun t part => some { sys := t.sys.nack t.gtime part p })
    | _ => Eff.none s)

/-- SLOT_TIMEOUT (R35, R38): a request unanswered 1 ms after issue completes with REMOTE. A request of an engine or of a control
processor, which takes no slot of a group, is named by group 0 and the number of one of its accesses. -/
def execSlotTimeout : State → Host.Outcome State Fault Refusal :=
  eventNext (fun s => match s.sys.ev with
    | some (.slotTimeout h n) =>
      let late := s.sys.accesses.filter (fun a => a.isFabric && a.isFlight && decide (a.sentAt + 1000000 ≤ s.gtime) &&
        (if h = 0 then a.id == n && (match a.who with | .group _ => false | _ => true) else a.who == .group h && a.slot == some n))
      (match late with
        | [] => Eff.none s
        | a :: _ =>
          let as := if h = 0 then s.sys.requestOf a else late
          { sys := (s.sys.failRemote s.gtime as 0 0).afterAnswer s.gtime a.part })
    | _ => Eff.none s)

/-- TOMBSTONE_EXPIRY (R42). -/
def execTombstoneExpiry : State → Host.Outcome State Fault Refusal :=
  eventNext (fun s => match s.sys.ev with
    | some (.tombstoneExpiry dom l) =>
      { sys := { s.sys with tombstones := s.sys.tombstones.filter (fun t => !(t.dom == dom && t.lchip == l && decide (t.expiry ≤ s.gtime))) } }
    | _ => Eff.none s)

end Sys2Proof.Machine
end

