-- ==== Sys2Proof/Machine/Domino.lean ====
section
/-!
DEFINITION. Token routing (R228-R237): the routing descriptor and its checks, ROUTE with its collective messages, and COMBINE; and what a
control processor asks of its engine commands, CMDSTAT and CMDCANCEL (R378, R379).
-/
namespace Sys2Proof.Machine

/-! ### The descriptor (R228-R230) -/

/-- The fields of a routing descriptor. -/
structure Routing where
  t : Nat
  k : Nat
  gfmt : Nat
  cls : Nat
  e : Nat
  cgroup : Nat
  xfmt : Nat
  ofmt : Nat
  opno : Nat
  choice : Nat
  gate : Nat
  rows : Nat
  rstride : Nat
  rbytes : Nat
  extab : Nat
  counts : Nat
  drops : Nat
  invp : Nat
  summary : Nat
  bar : Nat
  out : Nat
  ostride : Nat
  nelem : Nat
deriving DecidableEq, Repr

def routingOf (b : List Byte) : Routing :=
  let w := field b 4 4
  let v := field b 8 4
  { t := field b 0 4, k := bits w 3 0, gfmt := bits w 4 4, cls := bits w 9 8, e := bits w 26 16, cgroup := bits v 5 0
    xfmt := bits v 19 16, ofmt := bits v 23 20, opno := field b 0xC 4, choice := field b 0x10 8, gate := field b 0x18 8
    rows := field b 0x20 8, rstride := field b 0x28 4, rbytes := field b 0x2C 4, extab := field b 0x30 8, counts := field b 0x38 8
    drops := field b 0x40 8, invp := field b 0x48 8, summary := field b 0x50 8, bar := field b 0x58 8, out := field b 0x60 8
    ostride := field b 0x68 4, nelem := field b 0x6C 4 }

/-- The bytes of a gate, and of an element of an output format. -/
def Routing.gateBytes (r : Routing) : Nat := if r.gfmt = 0 then 4 else 2
def Routing.rowBytes (r : Routing) : Nat := r.nelem * fmtBytes r.xfmt

/-- The formats of expert and combined outputs: FP32, BF16 and FP16. -/
def outFmt (f : Nat) : Bool := 1 ≤ f && f ≤ 3

/-- An array of a run of bytes lies in heap or distributed SRAM, inside its window. -/
def AddrCtx.arrayFail (c : AddrCtx) (y : Sys) (p n ofs : Nat) : List (Bool × Nat × Cause) :=
  if spaceOf p != 0 && spaceOf p != 2 then [(false, ofs, .space)]
  else match c.runOutside y p n with
    | some x => [(false, ofs, invalidCause x)]
    | none => []

/-- The checks of a descriptor but for its expert table and membership, in the order of R230, each with its offset and cause. A pointer that the
command ignores is checked where it is not 0 (R228). -/
def routingChecks (y : Sys) (c : AddrCtx) (route : Bool) (b : List Byte) : List (Bool × Nat × Cause) :=
  let r := routingOf b
  let w := field b 4 4
  let v := field b 8 4
  let tk := r.t * r.k
  let bad := fun (ok : Bool) (o : Nat) => (ok, o, Cause.badcmd)
  let al := fun (p n o : Nat) => (p % n == 0, o, Cause.align)
  let own := fun (mine ok : Bool) (x o : Nat) => (ok || (!mine && x == 0), o, Cause.badcmd)
  let arr := fun (mine : Bool) (p n o : Nat) => if mine || p != 0 then c.arrayFail y p n o else []
  [ bad (bits w 7 5 == 0 && bits w 15 10 == 0 && bits w 31 27 == 0) 0x04, bad (bits v 15 6 == 0 && bits v 31 24 == 0) 0x08,
    al r.choice 2 0x10, al r.gate r.gateBytes 0x18, al r.rows 16 0x20, al r.extab 8 0x30, al r.counts 4 0x38, al r.drops 8 0x40,
    al r.invp 4 0x48, al r.summary 4 0x50, al r.bar 16 0x58, al r.out 16 0x60, bad (numOf (slice b 0x70 16) == 0) 0x70,
    bad (1 ≤ r.t && r.t ≤ 1048576) 0x00, bad (1 ≤ r.k && r.k ≤ 8) 0x04, bad (1 ≤ r.e && r.e ≤ 1024) 0x04,
    own (!route) (outFmt r.xfmt) r.xfmt 0x08, own (!route) (outFmt r.ofmt) r.ofmt 0x08,
    own route (r.rstride % 16 == 0 && r.rbytes ≤ r.rstride) r.rstride 0x28,
    own route (r.rbytes % 16 == 0 && 16 ≤ r.rbytes && r.rbytes ≤ 65536) r.rbytes 0x2C, bad (r.bar != 0) 0x58,
    own (!route) (r.ostride % 16 == 0 && r.nelem * fmtBytes r.ofmt ≤ r.ostride) r.ostride 0x68,
    own (!route) (1 ≤ r.nelem && r.nelem ≤ 16384) r.nelem 0x6C, bad (r.cls != 3) 0x04 ] ++
  arr true r.choice (2 * tk) 0x10 ++ arr (!route) r.gate (r.gateBytes * tk) 0x18 ++
  arr route r.rows ((r.t - 1) * r.rstride + r.rbytes) 0x20 ++ arr true r.extab (32 * r.e) 0x30 ++ arr route r.counts (12 * r.e) 0x38 ++
  arr route r.drops (8 * tk) 0x40 ++ arr true r.invp (4 * tk) 0x48 ++ arr route r.summary 16 0x50 ++
  (if spaceOf r.bar != 2 && spaceOf r.bar != 3 then [(false, 0x58, Cause.space)]
   else match c.runOutside y r.bar 16 with | some x => [(false, 0x58, invalidCause x)] | none => []) ++
  arr (!route) r.out ((r.t - 1) * r.ostride + r.nelem * fmtBytes r.ofmt) 0x60

/-- The first check of an expert table entry that fails: the field's offset and the cause (R229). -/
def expertFails (joined : Bool) (b : List Byte) : Option (Nat × Cause) :=
  if field b 0 4 / 4096 != 0 then some (0, .badcmd)
  else if field b 0x18 8 != 0 then some (0x18, .badcmd)
  else if field b 8 8 % 16 != 0 then some (8, .align)
  else if field b 0x10 8 % 16 != 0 then some (0x10, .align)
  else if !joined && field b 0 4 != 0 then some (0, .badcmd)
  else if 16777216 < field b 4 4 then some (4, .badcmd)
  else none

/-- The bytes of the expert table as an engine reads them, or the first address and its error. -/
def readExperts (s : State) (c : AddrCtx) (p : Nat) : Nat → Except (Nat × Cause) (List Byte)
  | 0 => .ok []
  | n + 1 =>
    match c.place s.sys 0 p 32 with
    | .home f k =>
      (match s.sys.readError f 32 k with
        | some x => .error (p, x)
        | none => (readExperts s c (p + 32) n).map (fun r => readBytes s.mem f 32 ++ r))
    | .fail x => .error (p, x)
    | _ => .error (p, .space)

/-- The first failing entry of the table: the address of the field and the cause. -/
def expertsFail (joined : Bool) (p : Nat) (b : List Byte) (n : Nat) : Option (Nat × Cause) :=
  (List.range n).findSome? (fun j => (expertFails joined (slice b (32 * j) 32)).map (fun x => (p + 32 * j + x.1, x.2)))

/-- The arrays that a command reads first, as they follow one another in what it has read. -/
def Routing.inputs (r : Routing) (route : Bool) : List (Nat × Nat × Nat × Bool) :=
  let tk := r.t * r.k
  if route then [(0, 2 * tk, r.choice, false)]
  else [(0, 2 * tk, r.choice, false), (2 * tk, 4 * tk, r.invp, false), (6 * tk, r.gateBytes * tk, r.gate, false)]

/-- ROUTE or COMBINE starts (R230, R237). -/
def domino (o : FormTF) (route : Bool) : State → Host.Outcome State Fault Refusal :=
  engineWord o [0, 2] 2 false (fun i s p b =>
    let (c, y) := i.newCmd s.sys (if route then .route else .combine) p b
    let y1 := i.setX [(o.d.toNat, BitVec.ofNat 64 c.handle)] y
    let r := routingOf b
    let q := s.sys.part i.part
    let end_ := fun (st : CmdStatus) (a : Nat) (x : Cause) =>
      some ((y1.addCmd c).setStatus s.gtime c.handle st (some (x, BitVec.ofNat 64 a)) true)
    match (routingChecks s.sys c.ctx route b).find? (fun x => !x.1) with
    | some (_, at_, why) => end_ .invalid (p + at_) why
    | none =>
      match readExperts s c.ctx r.extab r.e with
      | .error (a, x) => end_ .error a x
      | .ok ex =>
        match expertsFail q.joined r.extab ex r.e with
        | some (a, x) => end_ .invalid a x
        | none =>
          let ms := q.groupMembers r.cgroup
          if route && !ms.contains q.chip.toNat then end_ .invalid (p + 8) .badcmd
          else
            let st : RouteState :=
            { phase := if route then .waiting else .reading, gen := q.groupGen r.cgroup, members := ms
              rank := (ms.filter (fun m => decide (m < q.chip.toNat))).length, extab := ex }
            i.attach s y1 { c with route := st, sg := r.inputs route } r.bar)

/-- ROUTE (R231, R237). -/
def execRoute (o : FormTF) : State → Host.Outcome State Fault Refusal := domino o true

/-- COMBINE (R236, R237). -/
def execCombine (o : FormTF) : State → Host.Outcome State Fault Refusal := domino o false

/-! ### Shared steps -/

/-- The parts of a command's accesses: its arrays, rows read, messages, and what it writes. -/
def arraySeq : Nat := 0
def rowSeq : Nat := 1
def collSeq : Nat := 2
/-- The outputs of a ROUTE. -/
def outputSeq : Nat := 3
/-- The row that an item writes. -/
def writeSeq (item : Nat) : Nat := 4 + item
def Sys.rowWrites (y : Sys) (h : Nat) : List Access := y.accesses.filter (fun a => a.who == .engine h && decide (writeSeq 0 ≤ a.seq))

/-- The command's route changed. -/
def Sys.modRoute (y : Sys) (h : Nat) (f : RouteState → RouteState) : Sys := y.modCmd h (fun c => { c with route := f c.route })

/-- Every access of a command is forgotten. -/
def Sys.dropAll (y : Sys) (h : Nat) : Sys := { y with accesses := y.accesses.filter (fun a => a.who != .engine h) }

/-- The command ends with its first error, or with REMOTE at an address that no rule states. -/
def Sys.endError (y : Sys) (now : Nat) (c : Cmd) : Sys :=
  match c.ecause with
  | some x => (y.dropAll c.handle).setStatus now c.handle .error (some x) (x.1 != .barovf)
  | none =>
    let (a, y1) := takeFree (y.dropAll c.handle)
    y1.setStatus now c.handle .error (some (.remote, a)) true

/-- A failure that no access met: the cause stands as the first error. -/
def Sys.noteError (y : Sys) (c : Cmd) (x : Cause) : Sys :=
  let (a, y1) := takeFree y
  y1.modCmd c.handle (fun k => { k with ecause := if k.ecause.isSome then k.ecause else some (x, a) })

/-- What a restored command has counted (R198): its items but those that some write of has not performed. It goes back to the first of these, and
on from there. -/
def RouteState.rewind (x : RouteState) (as : List Access) : RouteState :=
  let open_ := as.filterMap (fun a => if writeSeq 0 ≤ a.seq && a.isFlight then some (a.seq - writeSeq 0) else none)
  let i := open_.foldl min x.item
  { x with item := i, loaded := false, invp := x.invp.take i, drops := x.drops.filter (fun d => decide (d < i))
           counted := (List.range x.item).filter (fun j => !open_.contains j)
           phase := if x.phase == .writing && as.any (fun a => a.seq != collSeq && a.isFlight) then .working else x.phase }

/-- The accesses that a restored command keeps: its messages, and the writes of rows that it has counted. -/
def keptAccess (a : Access) : Bool := a.seq == collSeq || (decide (writeSeq 0 ≤ a.seq) && !a.isFlight)

/-- The choice of an item. -/
def Cmd.choice (c : Cmd) (i : Nat) : Int := signedOf 16 (field c.progress (2 * i) 2)

/-- An expert's fields: the chip, its capacity, and the bases of its rows. -/
def Cmd.expert (c : Cmd) (e : Nat) : Nat × Nat × Nat × Nat :=
  let b := slice c.route.extab (32 * e) 32
  (field b 0 4 % 4096, field b 4 4, field b 8 8, field b 0x10 8)

/-- The pointer of a byte of an expert's buffers: of the partition's own heap with JOINED = 0, of the fabric else. -/
def Cmd.rowPtr (c : Cmd) (y : Sys) (e ofs : Nat) : Option Nat :=
  if (y.part c.part).joined then (if ofs < 2 ^ 46 then some (4 * 2 ^ 60 + (c.expert e).1 * 2 ^ 48 + ofs) else none)
  else if ofs < 2 ^ 52 then some ofs else none

/-- A row of n bytes at a pointer can be reached as a whole. -/
def Cmd.rowOk (c : Cmd) (y : Sys) (e ofs n : Nat) : Bool :=
  (c.rowPtr y e ofs).isSome && (c.rowPtr y e (ofs + n - 1)).isSome &&
  ((y.part c.part).joined || (c.ctx.runOutside y ofs n).isNone)

/-- The byte pointers of a row. -/
def Cmd.rowBytes (c : Cmd) (y : Sys) (e ofs n : Nat) : List Nat := (List.range n).filterMap (fun j => c.rowPtr y e (ofs + j))

/-- Reading the arrays: the next run is asked for or taken; `done` follows the last. -/
def readArrays (s : State) (c : Cmd) (done : Sys → Sys) : Eff :=
  let y := s.sys
  let as := y.engineAccs c.handle arraySeq
  if !as.isEmpty then
    let ps := c.nextRun
    { sys := (y.dropAccs c.handle arraySeq).modCmd c.handle (fun k => { k with
        progress := k.progress ++ ps.map (byteFrom as), cursor := k.cursor + ps.length }) }
  else if c.cursor < c.regionBytes then { sys := c.issueLoads s.gtime arraySeq (coalesce c.nextRun) y }
  else { sys := done y }

/-- What ends any such command: INVALIDATED, CANCELLED, or an error while it reads its arrays. Nothing of it may be in flight. -/
def dominoStop (s : State) (c : Cmd) : Option Eff :=
  let y := s.sys
  if c.inval then
    some { sys := (y.dropAll c.handle).setStatus s.gtime c.handle .invalidated (some (.cmdinval, c.barPtr)) true }
  else if c.cancel then some { sys := (y.dropAll c.handle).setStatus s.gtime c.handle .cancelled none false }
  else if c.route.phase == .reading && c.ecause.isSome then some { sys := y.endError s.gtime c }
  else none

/-! ### ROUTE (R231-R235) -/

/-- Unit 0 of a collective message (R234). -/
def collUnit (r : Routing) (gen : BitVec 16) (bad : Bool) (firste : Nat) : PUnit :=
  BitVec.ofNat 128 (r.cgroup + gen.toNat * 2 ^ 16 + r.opno * 2 ^ 32 + r.e * 2 ^ 64 + r.k * 2 ^ 75 + (if bad then 2 ^ 79 else 0) +
    r.rbytes * 2 ^ 80 + firste * 2 ^ 97)

/-- How often each expert is chosen, and whether some choice is no expert. -/
def Cmd.demand (c : Cmd) : List Nat × Bool :=
  let r := routingOf c.record
  let cs := (List.range (r.t * r.k)).map c.choice
  ((List.range r.e).map (fun (e : Nat) => (cs.filter (fun x => x == (e : Int))).length),
   cs.any (fun x => decide (x < -1) || decide ((r.e : Int) ≤ x)))

/-- The COUNT messages of a member: one for each 32 experts. -/
def countUnits (r : Routing) (gen : BitVec 16) (bad : Bool) (d : List Nat) : List (List PUnit) :=
  (List.range ((r.e + 31) / 32)).map (fun j =>
    let ws := (d.drop (32 * j)).take (min 32 (r.e - 32 * j))
    collUnit r gen bad (32 * j) :: unitsOf ((ws.length + 3) / 4) (slice (ws.flatMap (bytesOf 4)) 0 ((ws.length + 3) / 4 * 16)))

/-- A message of a command goes to a member: inside the package with JOINED = 0, and to a chip that does not exist not at all (R233). -/
def Cmd.sendColl (c : Cmd) (now pos : Nat) (done : Bool) (us : List PUnit) (m : Nat) (y : Sys) : Sys :=
  if (y.part c.part).joined then
    let (id, y1) := y.fresh
    let a : Access :=
    { id := id, who := .engine c.handle, lane := 0, lanes := 1, wait := 0, seq := collSeq, pc := 0, cls := 0, op := .coll done us
      ptr := 0, target := .fabric (BitVec.ofNat 12 m) 0 0, key := 0, part := c.part, vf := c.vf, launch := 0, core := c.core
      dest := .none, mod := 2, ordered := false, slot := none, pos := pos, packet := none, sent := false, via := 0, nacks := 0
      sentAt := now, undone := false, abacus := none, retryAt := none, quarantined := false, st := .inFlight }
    let y2 : Sys := { y1 with accesses := y1.accesses ++ [a] }
    if (y2.remapOf (y2.part c.part).dom.toNat m).valid then y2.sendRequest now id else y2.failAccess now a .remote 0 0 false
  else
    y.modRoute c.handle (fun r =>
      if done then { r with dones := r.dones ++ [(m, bit (us.headD 0).toNat 79)] } else { r with counts := r.counts ++ [(m, us)] })

/-- Some messages go to every member, up to the first that cannot be sent (R233). -/
def Cmd.sendAllColl (c : Cmd) (now : Nat) (done : Bool) (ms : List (List PUnit)) (y : Sys) : Sys :=
  ((c.route.members.flatMap (fun m => ms.map (fun u => (m, u)))).foldl (fun (acc : Nat × Sys) x =>
    if (acc.2.engineAccs c.handle collSeq).any Access.isFailed then acc
    else (acc.1 + 1, c.sendColl now acc.1 done x.2 x.1 acc.2)) (if done then 1000000 else 0, y)).2

/-- A message for this command: of its group and operation number. -/
def Routing.takes (r : Routing) (u : PUnit) : Bool := bits u.toNat 5 0 == r.cgroup && bits u.toNat 63 32 == r.opno

/-- Demand is known: the COUNTs leave, and those held for the operation are taken (R233). -/
def Cmd.startCounting (c : Cmd) (now : Nat) (y : Sys) : Sys :=
  let r := routingOf c.record
  let (d, bad) := c.demand
  let y1 := y.modRoute c.handle (fun x => { x with phase := .counting })
  let mine := ((y1.part c.part).held).filter (fun p => r.takes (p.payload.headD 0))
  let y2 := y1.modPart c.part (fun q => { q with held := q.held.filter (fun p => !mine.contains p) })
  let y3 := y2.modRoute c.handle (fun x => { x with counts := x.counts ++ mine.map (fun p => (p.slog.toNat, p.payload)) })
  c.sendAllColl now false (countUnits r c.route.gen bad d) y3

/-- A member's COUNT has wholly arrived: all packets that its E asks for. -/
def RouteState.countFrom (x : RouteState) (m : Nat) : Option (List (List PUnit)) :=
  let us := (x.counts.filter (fun q => q.1 == m)).map Prod.snd
  match us with
  | [] => none
  | u :: _ =>
    let e := bits (u.headD 0).toNat 74 64
    if (List.range ((e + 31) / 32)).all (fun j => us.any (fun v => bits (v.headD 0).toNat 106 97 == 32 * j)) then some us else none

/-- A COUNT packet that fails the test of R231. -/
def RouteState.differs (x : RouteState) (r : Routing) (u : List PUnit) : Bool :=
  let w := (u.headD 0).toNat
  bit w 79 || bits w 31 16 != x.gen.toNat || bits w 74 64 != r.e || bits w 78 75 != r.k || bits w 96 80 != r.rbytes

/-- A member's demand for an expert. -/
def RouteState.demandOf (x : RouteState) (m e : Nat) : Nat :=
  match x.counts.find? (fun q => q.1 == m && bits (q.2.headD 0).toNat 106 97 == e / 32 * 32) with
  | some q => field (bytesOfUnits (q.2.drop 1)) (4 * (e % 32)) 4
  | none => 0

/-- The first row of an expert for this member, and the rows of all members. -/
def RouteState.offsetOf (x : RouteState) (e : Nat) : Nat := (x.members.take x.rank).foldl (fun n m => n + x.demandOf m e) 0
def RouteState.totalOf (x : RouteState) (e : Nat) : Nat := x.members.foldl (fun n m => n + x.demandOf m e) 0

/-- What is to be done about an item: nothing, dropped, or a row of an expert. -/
def Cmd.placeOf (c : Cmd) (i : Nat) : Option (Nat × Nat) :=
  let e := c.choice i
  if e = -1 then none
  else
    let x := e.toNat
    some (x, c.route.offsetOf x + ((List.range i).filter (fun j => c.choice j == e)).length)

/-- Outputs as bytes by pointer. -/
def outBytes (p : Nat) (b : List Byte) : List (Nat × Byte) := b.mapIdx (fun j x => (p + j, x))

/-- INVP, DROPS, COUNTS and SUMMARY (R232). -/
def Cmd.routeOutputs (c : Cmd) : List (Nat × Byte) :=
  let r := routingOf c.record
  let x := c.route
  let es := List.range r.e
  let own := (c.demand).1
  let drops := x.drops.flatMap (fun i =>
    bytesOf 4 (i / r.k) ++ bytesOf 1 (i % r.k) ++ bytesOf 2 (c.choice i).toNat ++ bytesOf 1 0)
  let counts := own.flatMap (bytesOf 4) ++ es.flatMap (fun e => bytesOf 4 (x.offsetOf e)) ++
    es.flatMap (fun e => bytesOf 4 (min (x.totalOf e) (c.expert e).2.1))
  let placed := (x.invp.filter (fun n => n != 0xFFFFFFFF)).length
  outBytes r.counts counts ++ outBytes r.drops drops ++ outBytes r.invp (x.invp.flatMap (bytesOf 4)) ++
    outBytes r.summary (bytesOf 4 placed ++ bytesOf 4 x.drops.length ++ bytesOf 4 x.gen.toNat ++ bytesOf 4 x.rank)

/-- The next item of the placement: a choice that is dropped, or a row that is read and then written. -/
def routeItem (s : State) (c : Cmd) : Eff :=
  let y := s.sys
  let r := routingOf c.record
  let x := c.route
  let i := x.item
  let next := fun (inv : Nat) (drop : Bool) (z : Sys) => z.modRoute c.handle (fun q => { q with
    item := i + 1, loaded := false, invp := q.invp ++ [inv], drops := if drop then q.drops ++ [i] else q.drops })
  if r.t * r.k ≤ i then
    { sys := (c.issueStores s.gtime outputSeq false (coalesceBytes c.routeOutputs) y).modRoute c.handle (fun q => { q with phase := .writing }) }
  else
    match c.placeOf i with
    | none => { sys := next 0xFFFFFFFF false y }
    | some (e, row) =>
      let (_, cap, base, _) := c.expert e
      let dst := base + row * r.rbytes
      if cap ≤ row then { sys := next 0xFFFFFFFF true y }
      else if x.counted.contains i then { sys := next row false y }
      else if !c.rowOk y e dst r.rbytes then { sys := next row false (y.noteError c .limit) }
      else
        let src := (List.range r.rbytes).map (fun j => r.rows + i / r.k * r.rstride + j)
        if !x.loaded then
          { sys := (c.issueLoads s.gtime rowSeq (coalesce src) y).modRoute c.handle (fun q => { q with loaded := true }) }
        else
          let as := y.engineAccs c.handle rowSeq
          if as.any Access.isFlight then Eff.none s
          else
            let y1 := y.dropAccs c.handle rowSeq
            if as.any Access.isFailed then { sys := next row false y1 }
            else
              let bs := (c.rowBytes y e dst r.rbytes).zip (src.map (byteFrom as))
              { sys := next row false (c.issueStores s.gtime (writeSeq i) false (coalesceBytes bs) y1) }

/-- ROUTE commands of a die that have started and not sent DONE. -/
def Sys.routesOn (y : Sys) (die : Nat) : Nat :=
  (y.cmds.filter (fun k => k.kind == .route && k.isOpen && coreDie k.core == die &&
    [RoutePhase.reading, .counting, .working, .writing].contains k.route.phase)).length

/-- One step of a ROUTE. -/
def routeStep (s : State) (c : Cmd) : Eff :=
  let y := s.sys
  let r := routingOf c.record
  let x := c.route
  let colls := y.engineAccs c.handle collSeq
  let busy := (y.accesses.filter (fun a => a.who == .engine c.handle)).any Access.isFlight
  let stop := if busy then none else dominoStop s c
  match stop with
  | some e => e
  | none =>
    if c.inval || c.cancel then Eff.none s
    else if colls.any Access.isFailed then (if busy then Eff.none s else { sys := y.endError s.gtime { c with ecause := c.ecause.orElse (fun _ => some (.remote, 0)) } })
    else
      match x.phase with
      | .waiting => if y.routesOn (coreDie c.core) < 8 then { sys := y.modRoute c.handle (fun q => { q with phase := .reading }) } else Eff.none s
      | .reading => if busy then Eff.none s else readArrays s c (fun z => c.startCounting s.gtime z)
      | .counting =>
        (match x.members.mapM x.countFrom with
          | none => Eff.none s
          | some us =>
            if us.any (fun m => m.any (fun u => x.differs r u)) then
              (if busy then Eff.none s else { sys := y.endError s.gtime { c with ecause := none } })
            else { sys := y.modRoute c.handle (fun q => { q with phase := .working }) })
      | .working => routeItem s c
      | .writing =>
        -- rows at .dm, outputs at .pk
        if (y.rowWrites c.handle).all (fun a => a.doneAt y s.gtime 5) && allDone y s.gtime (y.engineAccs c.handle outputSeq) then
          let y1 := y.modRoute c.handle (fun q => { q with phase := .ending })
          { sys := c.sendAllColl s.gtime true [[collUnit r x.gen c.ecause.isSome 0]] y1 }
        else Eff.none s
      | .ending =>
        if !x.members.all (fun m => x.dones.any (fun d => d.1 == m)) || busy then Eff.none s
        else if c.ecause.isSome then { sys := y.endError s.gtime c }
        else if x.members.any (fun m => x.dones.any (fun d => d.1 == m && d.2)) then { sys := y.endError s.gtime { c with ecause := none } }
        else (c.endAt { s with sys := y.dropAll c.handle } r.bar).getD (Eff.none s)

/-- ROUTE_WRITES_PERFORMED (R231): a step of the command, up to DONE and the arrival on BAR. -/
def execRouteWritesPerformed : State → Host.Outcome State Fault Refusal :=
  eventNext (fun s => match s.sys.ev with
    | some (.routeWritesPerformed h) =>
      (match s.sys.cmd? h with
        | some c => if c.kind == .route && c.status == .running then routeStep s c else Eff.none s
        | none => Eff.none s)
    | _ => Eff.none s)

/-- The running ROUTE that a message is for. -/
def Sys.routeFor (y : Sys) (part : Nat) (u : PUnit) : Option Cmd :=
  y.cmds.find? (fun c => c.kind == .route && c.status == .running && c.part == part && (routingOf c.record).takes u &&
    c.route.phase != .waiting && c.route.phase != .reading)

/-- A collective message is answered with WRACK, whose GWCT is 0 (R234). -/
def Sys.ackColl (y : Sys) (now part : Nat) (p : Packet) : Sys := y.respond now part p tWrack [0]

/-- A COUNT is taken by its ROUTE, held, or left waiting (R233). -/
def collCount (s : State) (part : Nat) (p : Packet) : Option Eff :=
  if p.op != 0 then none
  else
    let y := s.sys
    match y.routeFor part (p.payload.headD 0) with
    | some c =>
      some { sys := (y.modRoute c.handle (fun x => { x with counts := x.counts ++ [(p.slog.toNat, p.payload)] })).ackColl s.gtime part p }
    | none =>
      if (y.part part).held.length < 4096 then
        some { sys := (y.modPart part (fun q => { q with held := q.held ++ [p] })).ackColl s.gtime part p }
      else none

/-- COLL_COUNT (R234). -/
def execCollCount : State → Host.Outcome State Fault Refusal :=
  eventNext (fun s => match s.sys.ev with
    | some (.collCount p) => arrive s p tColl (fun t part => collCount t part p)
    | _ => Eff.none s)

/-- A DONE is noted by its ROUTE; one for no ROUTE is answered and forgotten. -/
def collDone (s : State) (part : Nat) (p : Packet) : Option Eff :=
  if p.op != 1 then none
  else
    let y := s.sys
    let u := p.payload.headD 0
    let y1 := match y.routeFor part u with
      | some c => y.modRoute c.handle (fun x => { x with dones := x.dones ++ [(p.slog.toNat, bit u.toNat 79)] })
      | none => y
    some { sys := y1.ackColl s.gtime part p }

/-- COLL_DONE (R231). -/
def execCollDone : State → Host.Outcome State Fault Refusal :=
  eventNext (fun s => match s.sys.ev with
    | some (.collDone p) => arrive s p tColl (fun t part => collDone t part p)
    | _ => Eff.none s)

/-! ### COMBINE (R236) -/

/-- The expert, row and gate of each choice of a token that has a row. -/
def Cmd.tokenRows (c : Cmd) (t : Nat) : List (Int × Nat × Nat) :=
  let r := routingOf c.record
  let tk := r.t * r.k
  (List.range r.k).filterMap (fun j =>
    let i := t * r.k + j
    let row := field c.progress (2 * tk + 4 * i) 4
    if row = 0xFFFFFFFF then none else some (c.choice i, row, field c.progress (6 * tk + r.gateBytes * i) r.gateBytes))

/-- A row read that fails of itself: the expert or the row does not exist, or cannot be reached. -/
def Cmd.rowBad (c : Cmd) (y : Sys) (x : Int × Nat × Nat) : Bool :=
  let r := routingOf c.record
  let e := x.1.toNat
  decide (x.1 < 0) || decide ((r.e : Int) ≤ x.1) || decide ((c.expert e).2.1 ≤ x.2.1) ||
  !c.rowOk y e ((c.expert e).2.2.2 + x.2.1 * r.rowBytes) r.rowBytes

/-- The place of a row's output. -/
def Cmd.rowOfs (c : Cmd) (x : Int × Nat × Nat) : Nat := (c.expert x.1.toNat).2.2.2 + x.2.1 * (routingOf c.record).rowBytes

/-- An element of a token's output (R236). -/
def Cmd.combined (c : Cmd) (y : Sys) (as : List Access) (rows : List (Int × Nat × Nat)) (i : Nat) : Nat :=
  let r := routingOf c.record
  let n := fmtBytes r.xfmt
  let acc := rows.foldl (fun acc x =>
    let bs := (c.rowBytes y x.1.toNat (c.rowOfs x + i * n) n).map (byteFrom as)
    let e := (roundTo fp32 .rne (decodeF (fmtOf r.xfmt) (numOf bs))).bits
    let g := (roundTo fp32 .rne (decodeF (if r.gfmt = 0 then fp32 else bf16) x.2.2)).bits
    (ffma fp32 .rne g e acc).bits) 0
  (roundTo (fmtOf r.ofmt) .rne (decodeF fp32 acc)).bits

/-- The next token of a COMBINE. -/
def combineItem (s : State) (c : Cmd) : Eff :=
  let y := s.sys
  let r := routingOf c.record
  let t := c.route.item
  let rows := c.tokenRows t
  let next := fun (z : Sys) => z.modRoute c.handle (fun q => { q with item := t + 1, loaded := false })
  if r.t ≤ t then { sys := y.modRoute c.handle (fun q => { q with phase := .writing }) }
  else if c.route.counted.contains t then { sys := next y }
  else if rows.any (c.rowBad y) then { sys := next (y.noteError c .limit) }
  else if !c.route.loaded then
    let ps := rows.flatMap (fun x => coalesce (c.rowBytes y x.1.toNat (c.rowOfs x) r.rowBytes))
    { sys := (c.issueLoads s.gtime rowSeq ps y).modRoute c.handle (fun q => { q with loaded := true }) }
  else
    let as := y.engineAccs c.handle rowSeq
    if as.any Access.isFlight then Eff.none s
    else
      let y1 := y.dropAccs c.handle rowSeq
      if as.any Access.isFailed then { sys := next y1 }
      else
        let m := fmtBytes r.ofmt
        let bs := (List.range r.nelem).flatMap (fun i => bytesOf m (c.combined y as rows i))
        { sys := next (c.issueStores s.gtime (writeSeq t) false (coalesceBytes (outBytes (r.out + t * r.ostride) bs)) y1) }

/-- One step of a COMBINE. -/
def combineStep (s : State) (c : Cmd) : Eff :=
  let y := s.sys
  let busy := (y.accesses.filter (fun a => a.who == .engine c.handle)).any Access.isFlight
  let stop := if busy then none else dominoStop s c
  match stop with
  | some e => e
  | none =>
    if c.inval || c.cancel then Eff.none s
    else
      match c.route.phase with
      | .reading => if busy then Eff.none s else readArrays s c (fun z => z.modRoute c.handle (fun q => { q with phase := .working }))
      | .working => combineItem s c
      | _ =>
        if busy || !allDone y s.gtime (y.rowWrites c.handle) then Eff.none s
        else if c.ecause.isSome then { sys := y.endError s.gtime c }
        else (c.endAt { s with sys := y.dropAll c.handle } (routingOf c.record).bar).getD (Eff.none s)

/-- COMBINE_DONE (R236): a step of the command; once the output rows are globally performed, the arrival on BAR and DONE. -/
def execCombineDone : State → Host.Outcome State Fault Refusal :=
  eventNext (fun s => match s.sys.ev with
    | some (.combineDone h) =>
      (match s.sys.cmd? h with
        | some c => if c.kind == .combine && c.status == .running then combineStep s c else Eff.none s
        | none => Eff.none s)
    | _ => Eff.none s)

/-! ### CMDSTAT and CMDCANCEL (R378, R379) -/

/-- The state of a command as CMDSTAT reports it. -/
def Cmd.statWord (c : Cmd) : DWord :=
  let ec := if c.status == .error then (match c.ecause with | some x => x.1.code | none => 0) else 0
  BitVec.ofNat 64 (c.status.code + ec * 2 ^ 8 + c.flags.toNat * 2 ^ 16 + min c.chunks.length 0xFFFFFFFF * 2 ^ 32)

/-- A command of a control processor. -/
def Sys.cpCmd (y : Sys) (core : Nat) (h : DWord) : Option Cmd := (y.cmd? h.toNat).filter (fun c => c.core == core)

/-- CMDSTAT (R378). -/
def execCmdstat (o : FormTF) : State → Host.Outcome State Fault Refusal :=
  cpWord (fun _ => { g := o.g, s := o.s, src := [o.a.toNat], dst := [o.d.toNat] }) (fun i s =>
    let x := match s.sys.cpCmd i.core (i.v64 0 o.a.toNat) with
      | some c => c.statWord
      | none => 0xFFFFFFFFFFFFFFFF
    some (i.setX [(o.d.toNat, x)] s.sys))

/-- CMDCANCEL (R379): 0 accepted, 1 already completed, 2 no command of this control processor. -/
def execCmdcancel (o : FormTF) : State → Host.Outcome State Fault Refusal :=
  cpWord (fun _ => { g := o.g, s := o.s, src := [o.a.toNat], dst := [o.d.toNat] }) (fun i s =>
    let say := fun (n : DWord) (y : Sys) => some (i.setX [(o.d.toNat, n)] y)
    match s.sys.cpCmd i.core (i.v64 0 o.a.toNat) with
    | none => say 2 s.sys
    | some c =>
      if !c.isOpen then say 1 s.sys
      else
        match c.kind with
        | .snap b => say 0 (s.sys.askAbort s.gtime c.part b)
        | _ => say 0 (s.sys.stopCmd s.gtime c.handle))

end Sys2Proof.Machine
end

