-- ==== Sys2Proof/WellFormed.lean ====
section
/-!
DEFINITION. Which terms of the syntax are well formed: the field values that a word may hold whichever agent issues it
(the others raise ILLEGAL, R282), and the indices that an operation or event of the machine may name (R12, R21, R25, R50).
Limits that hold on one agent only (an even pair in a group, x[D+1] on the control processor) are checked at issue.
-/
namespace Sys2Proof

/-- The register ranges [a, a+n) and [d, d+m) share no register. -/
def disjointRanges (a n d m : Nat) : Bool := a + n ≤ d || d + m ≤ a

/-- Complex matrix types CBF16 and CF32 (R281). -/
def complexType (t : BitVec 5) : Bool := t == 6 || t == 7

/-- v registers that MMA reads from A upward: the fragments and the scales of X8 and X4 (R354). -/
def mmaOperands (t : BitVec 5) : Nat := if t == 2 then 17 else if t == 3 then 18 else 16

/-- v registers of the accumulator (R354). -/
def mmaAccumulator (t : BitVec 5) : Nat := if complexType t then 64 else 32

/-- MMA's operand limits that no allotment changes (R354). -/
def FormMma.wfMma (o : FormMma) : Bool :=
  o.t.toNat ≤ 7 && o.a.toNat % 8 == 0 && o.d.toNat % 32 == 0 &&
  disjointRanges o.a.toNat (mmaOperands o.t) o.d.toNat (mmaAccumulator o.t)

/-- MMAJ's operand limits that no allotment changes (R355). -/
def FormMma.wfMmaj (o : FormMma) : Bool :=
  o.t.toNat ≤ 5 && o.a.toNat % 8 == 0 && o.d.toNat % 32 == 0 &&
  disjointRanges o.a.toNat 12 o.d.toNat 64 &&
  (o.t != 2 || disjointRanges (o.a.toNat + 16) 1 o.d.toNat 64) &&
  (o.t != 3 || disjointRanges (o.a.toNat + 16) 2 o.d.toNat 64)

/-- FENCE's fields (R320). -/
def FormFence.wf (o : FormFence) : Bool := o.c != 7 && o.m != 0 && o.k.toNat ≤ 2

/-- The term is well formed. -/
def Instr.wellFormed : Instr → Bool
  | .fence o => o.wf
  | .grow o => 1 ≤ o.d.toNat && o.d.toNat ≤ 15
  | .shrink o => 1 ≤ o.d.toNat && o.d.toNat ≤ 15
  | .admode o => o.d.toNat ≤ 2
  | .darrive o => o.d.toNat ≤ 2
  | .stq o => o.a.toNat % 2 == 0
  | .spawn o => o.a.toNat ≤ 123
  | .deviceLaunch o => o.a.toNat % 2 == 0
  | .launchw o => o.a.toNat % 2 == 0
  | .cpost o => o.a.toNat % 2 == 0
  | .p2v _ => true
  | .gbal o => o.a.toNat ≤ 63
  | .kbal o => o.a.toNat ≤ 63
  | .snap o => o.d.toNat % 2 == 0
  | .mma o => o.wfMma
  | .mmaj o => o.wfMmaj
  | .mloop o => o.t.toNat ≤ 7 && (!complexType o.t || o.d.toNat % 2 == 0)
  | .adrainR o => o.f != 7 && o.a.toNat % 8 == 0
  | .adrainM o => o.f != 7
  | .adrainU o => o.f.toNat ≤ 4
  | .aloadR o => o.a.toNat % 32 == 0
  | _ => true

/-- The event names only dies, ports, partitions, functions and cores that the package has. -/
def Event.wellFormed : Event → Bool
  | .junctionThrottle d | .junctionTrip d | .controlParityError d | .junctionBelowThrottle d => d < 12
  | .partitionScrubDone d => d < 12
  | .timex p _ _ | .laneFailure p _ | .flitTransmit p | .flitReceive p _ | .retryRequest p _ => p < 18
  | .flitCounterLimit p | .linkRekey p _ _ _ _ => p < 18
  | .ldBind ld _ => ld < 16
  | .spdmGetVersion p | .spdmGetCapabilities p | .spdmNegotiateAlgorithms p | .spdmGetDigests p => p < 3
  | .spdmGetCertificate p | .spdmChallenge p _ | .spdmGetMeasurements p _ | .spdmKeyExchange p _ => p < 3
  | .spdmFinish p | .spdmEndSession p => p < 3
  | .partitionEmpty p | .launchStoreGrant p | .gangPlace p | .serviceRequestWrite p => p < 12
  | .sweepCapture p | .stagingFreed p | .kiteRecordWrite p => p < 12
  | .recordPoint p _ | .localComplete p _ | .snaptmoExpiry p _ | .reopenTimer p _ => p < 12
  | .nvmeCompletion p _ _ => p < 12
  | .localdoneMsg p _ | .completeMsg p _ | .freedMsg p _ | .reopenMsg p _ | .reopenedMsg p _ => p < 12
  | .snapRequestMsg p _ | .grant p _ | .refuse p _ | .abortMsg p _ | .tombcount p _ => p < 12
  | .cxlMemWrite vf _ _ | .cxlMemRead vf _ _ | .registerWrite vf _ _ => vf < 256
  | .vfEnable vf | .vfPause vf | .vfStop vf | .vfKill vf => vf < 256
  | .commandDoorbell vf _ | .replyDoorbell vf _ | .commandFetch vf | .completionWrite vf => vf < 256
  | .cidxWrite vf ring _ => vf < 256 && 1 ≤ ring && ring ≤ 4
  | .faultRecordWrite vf | .notificationWrite vf | .replyTake vf => vf < 256
  | .invpage vf | .invall vf | .invalidationComplete vf | .miggo vf | .migdone vf => vf < 256
  | .migrationSelect vf | .pageWalk vf _ _ _ => vf < 256
  | .binTimeout c b | .binGroupForm c b => c < 768 && b < 16
  | .growGrant c q => c < 768 && q < 4
  | .cpTrapEntry c | .leaseExpiry c _ => c < 768
  | .keyInstall (.tenant k) => 1 ≤ k && k ≤ 255
  | .keyInstall (.ide p) => p < 2
  | .remapEntryWrite dom l _ => dom < 256 && l < 4096
  | .portListWrite phys ports _ => phys < 4096 && ports.all (· < 18)
  | .memberElsewhere dom g _ ms => dom < 256 && g < 64 && ms.all (· < 4096)
  | .remapElsewhere dom l _ _ win => dom < 256 && l < 4096 && 10 ≤ win && win ≤ 1000
  | .timeReferenceNamed dom phys => dom < 256 && phys < 4096
  | .tombstoneExpiry dom l => dom < 256 && l < 4096
  | _ => true

end Sys2Proof
end

