-- ==== Sys2Proof/Decode.lean ====
section
/-!
DEFINITION. The decoder of the 32-bit instruction word (R269-R282) and the encoder, written from the same tables. The decoder
is total: a word that no row of the maps R280 and R281 defines, and a word with a field outside its values, is rejected
under a name of its own; the machine raises ILLEGAL on it (R282).
-/
namespace Sys2Proof

/-- Why a word is no instruction. -/
inductive DecodeError where
  /-- Fewer than the four bytes of a word (R269). -/
  | truncated
  /-- MAJOR 0x3F (R280). -/
  | undefinedMajor
  /-- A minor code that R281 does not assign. -/
  | undefinedMinor
  /-- A reserved TH kind (R275). -/
  | undefinedHint
  /-- An ATOM code or combination that R281 excludes. -/
  | undefinedAtom
  /-- A MATRIX operation, type or form that R281 and R347 do not define. -/
  | undefinedMatrix
  /-- A field that must be 0 is not, or a field that must be 7 is not (R271). -/
  | mustBeZero
  /-- A field holds a value its instruction excludes (`Instr.wellFormed`). -/
  | badField
deriving DecidableEq, Repr

/-- The MAJOR field (R269). -/
def majorOf (w : Word) : BitVec 6 := w.extractLsb' 25 6

/-- The FN8 field of the TF spaces (R271). -/
def fn8Of (w : Word) : BitVec 8 := w.extractLsb' 3 8

/-- The word of the fields of `FormTR`. -/
def FormTR.pack (op : BitVec 6) (o : FormTR) : Word :=
  BitVec.ofBool o.s ++ op ++ o.d ++ o.a ++ o.b ++ BitVec.ofBool o.m ++ o.g

/-- The fields of `FormTR` in a word. -/
def FormTR.unpack (w : Word) : FormTR :=
  { s := w.getLsbD 31, d := w.extractLsb' 18 7, a := w.extractLsb' 11 7, b := w.extractLsb' 4 7, m := w.getLsbD 3, g := w.extractLsb' 0 3 }

/-- The word of the fields of `FormCmp`. -/
def FormCmp.pack (op : BitVec 6) (o : FormCmp) : Word :=
  BitVec.ofBool o.s ++ op ++ o.p ++ BitVec.ofBool o.n ++ o.a ++ o.b ++ BitVec.ofBool o.m ++ o.g

/-- The fields of `FormCmp` in a word. -/
def FormCmp.unpack (w : Word) : FormCmp :=
  { s := w.getLsbD 31, p := w.extractLsb' 19 6, n := w.getLsbD 18, a := w.extractLsb' 11 7, b := w.extractLsb' 4 7, m := w.getLsbD 3, g := w.extractLsb' 0 3 }

/-- The word of the fields of `FormTI`. -/
def FormTI.pack (op : BitVec 6) (o : FormTI) : Word :=
  BitVec.ofBool o.s ++ op ++ o.d ++ o.a ++ o.i ++ o.g

/-- The fields of `FormTI` in a word. -/
def FormTI.unpack (w : Word) : FormTI :=
  { s := w.getLsbD 31, d := w.extractLsb' 18 7, a := w.extractLsb' 11 7, i := w.extractLsb' 3 8, g := w.extractLsb' 0 3 }

/-- The word of the fields of `FormShfi`. -/
def FormShfi.pack (op : BitVec 6) (o : FormShfi) : Word :=
  BitVec.ofBool o.s ++ op ++ o.d ++ o.a ++ o.k ++ 0#1 ++ o.n ++ o.g

/-- The fields of `FormShfi` in a word. -/
def FormShfi.unpack (w : Word) : FormShfi :=
  { s := w.getLsbD 31, d := w.extractLsb' 18 7, a := w.extractLsb' 11 7, k := w.extractLsb' 9 2, n := w.extractLsb' 3 5, g := w.extractLsb' 0 3 }

/-- The fixed fields of `FormShfi` hold what they must (R271). -/
def FormShfi.fixedOk (w : Word) : Bool :=
  w.extractLsb' 8 1 == 0

/-- The word of the fields of `FormMovi`. -/
def FormMovi.pack (op : BitVec 6) (o : FormMovi) : Word :=
  BitVec.ofBool o.s ++ op ++ o.d ++ 0#7 ++ o.i ++ o.g

/-- The fields of `FormMovi` in a word. -/
def FormMovi.unpack (w : Word) : FormMovi :=
  { s := w.getLsbD 31, d := w.extractLsb' 18 7, i := w.extractLsb' 3 8, g := w.extractLsb' 0 3 }

/-- The fixed fields of `FormMovi` hold what they must (R271). -/
def FormMovi.fixedOk (w : Word) : Bool :=
  w.extractLsb' 11 7 == 0

/-- The word of the fields of `FormTM`. -/
def FormTM.pack (op : BitVec 6) (o : FormTM) : Word :=
  BitVec.ofBool o.s ++ op ++ o.d ++ o.a ++ o.c ++ o.o ++ o.g

/-- The fields of `FormTM` in a word. -/
def FormTM.unpack (w : Word) : FormTM :=
  { s := w.getLsbD 31, d := w.extractLsb' 18 7, a := w.extractLsb' 11 7, c := w.extractLsb' 9 2, o := w.extractLsb' 3 6, g := w.extractLsb' 0 3 }

/-- The word of the fields of `FormAtom`. -/
def FormAtom.pack (op : BitVec 6) (fn : BitVec 5) (o : FormAtom) : Word :=
  BitVec.ofBool o.s ++ op ++ o.d ++ o.a ++ o.c ++ BitVec.ofBool o.n ++ fn ++ o.g

/-- The fields of `FormAtom` in a word. -/
def FormAtom.unpack (w : Word) : FormAtom :=
  { s := w.getLsbD 31, d := w.extractLsb' 18 7, a := w.extractLsb' 11 7, c := w.extractLsb' 9 2, n := w.getLsbD 8, g := w.extractLsb' 0 3 }

/-- The word of the fields of `FormAtomRet`. -/
def FormAtomRet.pack (op : BitVec 6) (fn : BitVec 5) (o : FormAtomRet) : Word :=
  BitVec.ofBool o.s ++ op ++ o.d ++ o.a ++ o.c ++ 0#1 ++ fn ++ o.g

/-- The fields of `FormAtomRet` in a word. -/
def FormAtomRet.unpack (w : Word) : FormAtomRet :=
  { s := w.getLsbD 31, d := w.extractLsb' 18 7, a := w.extractLsb' 11 7, c := w.extractLsb' 9 2, g := w.extractLsb' 0 3 }

/-- The fixed fields of `FormAtomRet` hold what they must (R271). -/
def FormAtomRet.fixedOk (w : Word) : Bool :=
  w.extractLsb' 8 1 == 0

/-- The word of the fields of `FormTB`. -/
def FormTB.pack (op : BitVec 6) (fn : BitVec 1) (o : FormTB) : Word :=
  BitVec.ofBool o.s ++ op ++ BitVec.ofBool o.u ++ fn ++ o.e ++ o.g

/-- The fields of `FormTB` in a word. -/
def FormTB.unpack (w : Word) : FormTB :=
  { s := w.getLsbD 31, u := w.getLsbD 24, e := w.extractLsb' 3 20, g := w.extractLsb' 0 3 }

/-- The word of the fields of `FormJump`. -/
def FormJump.pack (op : BitVec 6) (fn : BitVec 8) (o : FormJump) : Word :=
  BitVec.ofBool o.s ++ op ++ 0#6 ++ BitVec.ofBool o.u ++ o.a ++ fn ++ o.g

/-- The fields of `FormJump` in a word. -/
def FormJump.unpack (w : Word) : FormJump :=
  { s := w.getLsbD 31, u := w.getLsbD 18, a := w.extractLsb' 11 7, g := w.extractLsb' 0 3 }

/-- The fixed fields of `FormJump` hold what they must (R271). -/
def FormJump.fixedOk (w : Word) : Bool :=
  w.extractLsb' 19 6 == 0

/-- The word of the fields of `FormS`. -/
def FormS.pack (op : BitVec 6) (fn : BitVec 8) (o : FormS) : Word :=
  BitVec.ofBool o.s ++ op ++ 0#14 ++ fn ++ 7#3

/-- The fields of `FormS` in a word. -/
def FormS.unpack (w : Word) : FormS :=
  { s := w.getLsbD 31 }

/-- The fixed fields of `FormS` hold what they must (R271). -/
def FormS.fixedOk (w : Word) : Bool :=
  w.extractLsb' 11 14 == 0 && w.extractLsb' 0 3 == 7

/-- The word of the fields of `FormA`. -/
def FormA.pack (op : BitVec 6) (fn : BitVec 8) (o : FormA) : Word :=
  BitVec.ofBool o.s ++ op ++ 0#7 ++ o.a ++ fn ++ o.g

/-- The fields of `FormA` in a word. -/
def FormA.unpack (w : Word) : FormA :=
  { s := w.getLsbD 31, a := w.extractLsb' 11 7, g := w.extractLsb' 0 3 }

/-- The fixed fields of `FormA` hold what they must (R271). -/
def FormA.fixedOk (w : Word) : Bool :=
  w.extractLsb' 18 7 == 0

/-- The word of the fields of `FormG`. -/
def FormG.pack (op : BitVec 6) (fn : BitVec 8) (o : FormG) : Word :=
  BitVec.ofBool o.s ++ op ++ 0#14 ++ fn ++ o.g

/-- The fields of `FormG` in a word. -/
def FormG.unpack (w : Word) : FormG :=
  { s := w.getLsbD 31, g := w.extractLsb' 0 3 }

/-- The fixed fields of `FormG` hold what they must (R271). -/
def FormG.fixedOk (w : Word) : Bool :=
  w.extractLsb' 11 14 == 0

/-- The word of the fields of `FormTF`. -/
def FormTF.pack (op : BitVec 6) (fn : BitVec 8) (o : FormTF) : Word :=
  BitVec.ofBool o.s ++ op ++ o.d ++ o.a ++ fn ++ o.g

/-- The fields of `FormTF` in a word. -/
def FormTF.unpack (w : Word) : FormTF :=
  { s := w.getLsbD 31, d := w.extractLsb' 18 7, a := w.extractLsb' 11 7, g := w.extractLsb' 0 3 }

/-- The word of the fields of `FormQ`. -/
def FormQ.pack (op : BitVec 6) (fn : BitVec 8) (o : FormQ) : Word :=
  BitVec.ofBool o.s ++ op ++ 0#4 ++ o.d ++ 0#4 ++ o.a ++ fn ++ o.g

/-- The fields of `FormQ` in a word. -/
def FormQ.unpack (w : Word) : FormQ :=
  { s := w.getLsbD 31, d := w.extractLsb' 18 3, a := w.extractLsb' 11 3, g := w.extractLsb' 0 3 }

/-- The fixed fields of `FormQ` hold what they must (R271). -/
def FormQ.fixedOk (w : Word) : Bool :=
  w.extractLsb' 21 4 == 0 && w.extractLsb' 14 4 == 0

/-- The word of the fields of `FormStq`. -/
def FormStq.pack (op : BitVec 6) (fn : BitVec 8) (o : FormStq) : Word :=
  BitVec.ofBool o.s ++ op ++ 0#4 ++ o.d ++ o.a ++ fn ++ o.g

/-- The fields of `FormStq` in a word. -/
def FormStq.unpack (w : Word) : FormStq :=
  { s := w.getLsbD 31, d := w.extractLsb' 18 3, a := w.extractLsb' 11 7, g := w.extractLsb' 0 3 }

/-- The fixed fields of `FormStq` hold what they must (R271). -/
def FormStq.fixedOk (w : Word) : Bool :=
  w.extractLsb' 21 4 == 0

/-- The word of the fields of `FormD`. -/
def FormD.pack (op : BitVec 6) (fn : BitVec 8) (o : FormD) : Word :=
  BitVec.ofBool o.s ++ op ++ o.d ++ 0#7 ++ fn ++ 7#3

/-- The fields of `FormD` in a word. -/
def FormD.unpack (w : Word) : FormD :=
  { s := w.getLsbD 31, d := w.extractLsb' 18 7 }

/-- The fixed fields of `FormD` hold what they must (R271). -/
def FormD.fixedOk (w : Word) : Bool :=
  w.extractLsb' 11 7 == 0 && w.extractLsb' 0 3 == 7

/-- The word of the fields of `FormFence`. -/
def FormFence.pack (op : BitVec 6) (fn : BitVec 8) (o : FormFence) : Word :=
  BitVec.ofBool o.s ++ op ++ 0#1 ++ o.m ++ o.c ++ o.k ++ fn ++ o.g

/-- The fields of `FormFence` in a word. -/
def FormFence.unpack (w : Word) : FormFence :=
  { s := w.getLsbD 31, m := w.extractLsb' 21 3, c := w.extractLsb' 18 3, k := w.extractLsb' 11 7, g := w.extractLsb' 0 3 }

/-- The fixed fields of `FormFence` hold what they must (R271). -/
def FormFence.fixedOk (w : Word) : Bool :=
  w.extractLsb' 24 1 == 0

/-- The word of the fields of `FormChwp`. -/
def FormChwp.pack (op : BitVec 6) (fn : BitVec 8) (o : FormChwp) : Word :=
  BitVec.ofBool o.s ++ op ++ o.d ++ 0#5 ++ o.a ++ fn ++ o.g

/-- The fields of `FormChwp` in a word. -/
def FormChwp.unpack (w : Word) : FormChwp :=
  { s := w.getLsbD 31, d := w.extractLsb' 18 7, a := w.extractLsb' 11 2, g := w.extractLsb' 0 3 }

/-- The fixed fields of `FormChwp` hold what they must (R271). -/
def FormChwp.fixedOk (w : Word) : Bool :=
  w.extractLsb' 13 5 == 0

/-- The word of the fields of `FormP2v`. -/
def FormP2v.pack (op : BitVec 6) (fn : BitVec 8) (o : FormP2v) : Word :=
  BitVec.ofBool o.s ++ op ++ o.d ++ 0#1 ++ o.a ++ fn ++ o.g

/-- The fields of `FormP2v` in a word. -/
def FormP2v.unpack (w : Word) : FormP2v :=
  { s := w.getLsbD 31, d := w.extractLsb' 18 7, a := w.extractLsb' 11 6, g := w.extractLsb' 0 3 }

/-- The fixed fields of `FormP2v` hold what they must (R271). -/
def FormP2v.fixedOk (w : Word) : Bool :=
  w.extractLsb' 17 1 == 0

/-- The word of the fields of `FormV2p`. -/
def FormV2p.pack (op : BitVec 6) (fn : BitVec 8) (o : FormV2p) : Word :=
  BitVec.ofBool o.s ++ op ++ 0#1 ++ o.d ++ o.a ++ fn ++ o.g

/-- The fields of `FormV2p` in a word. -/
def FormV2p.unpack (w : Word) : FormV2p :=
  { s := w.getLsbD 31, d := w.extractLsb' 18 6, a := w.extractLsb' 11 7, g := w.extractLsb' 0 3 }

/-- The fixed fields of `FormV2p` hold what they must (R271). -/
def FormV2p.fixedOk (w : Word) : Bool :=
  w.extractLsb' 24 1 == 0

/-- The word of the fields of `FormPred`. -/
def FormPred.pack (op : BitVec 6) (o : FormPred) : Word :=
  BitVec.ofBool o.s ++ op ++ o.d ++ o.a ++ o.b ++ o.t ++ o.g

/-- The fields of `FormPred` in a word. -/
def FormPred.unpack (w : Word) : FormPred :=
  { s := w.getLsbD 31, d := w.extractLsb' 19 6, a := w.extractLsb' 13 6, b := w.extractLsb' 7 6, t := w.extractLsb' 3 4, g := w.extractLsb' 0 3 }

/-- The word of the fields of `FormMma`. -/
def FormMma.pack (op : BitVec 6) (fn : BitVec 3) (o : FormMma) : Word :=
  BitVec.ofBool o.s ++ op ++ o.d ++ o.a ++ fn ++ o.t ++ o.g

/-- The fields of `FormMma` in a word. -/
def FormMma.unpack (w : Word) : FormMma :=
  { s := w.getLsbD 31, d := w.extractLsb' 18 7, a := w.extractLsb' 11 7, t := w.extractLsb' 3 5, g := w.extractLsb' 0 3 }

/-- The word of the fields of `FormMloop`. -/
def FormMloop.pack (op : BitVec 6) (fn : BitVec 3) (o : FormMloop) : Word :=
  BitVec.ofBool o.s ++ op ++ o.d ++ 0#7 ++ fn ++ o.t ++ o.g

/-- The fields of `FormMloop` in a word. -/
def FormMloop.unpack (w : Word) : FormMloop :=
  { s := w.getLsbD 31, d := w.extractLsb' 18 7, t := w.extractLsb' 3 5, g := w.extractLsb' 0 3 }

/-- The fixed fields of `FormMloop` hold what they must (R271). -/
def FormMloop.fixedOk (w : Word) : Bool :=
  w.extractLsb' 11 7 == 0

/-- The word of the fields of `FormDrainR`. -/
def FormDrainR.pack (op : BitVec 6) (fn : BitVec 5) (o : FormDrainR) : Word :=
  BitVec.ofBool o.s ++ op ++ o.d ++ o.a ++ fn ++ o.f ++ o.g

/-- The fields of `FormDrainR` in a word. -/
def FormDrainR.unpack (w : Word) : FormDrainR :=
  { s := w.getLsbD 31, d := w.extractLsb' 18 7, a := w.extractLsb' 11 7, f := w.extractLsb' 3 3, g := w.extractLsb' 0 3 }

/-- The word of the fields of `FormDrain`. -/
def FormDrain.pack (op : BitVec 6) (fn : BitVec 5) (o : FormDrain) : Word :=
  BitVec.ofBool o.s ++ op ++ o.d ++ 0#7 ++ fn ++ o.f ++ o.g

/-- The fields of `FormDrain` in a word. -/
def FormDrain.unpack (w : Word) : FormDrain :=
  { s := w.getLsbD 31, d := w.extractLsb' 18 7, f := w.extractLsb' 3 3, g := w.extractLsb' 0 3 }

/-- The fixed fields of `FormDrain` hold what they must (R271). -/
def FormDrain.fixedOk (w : Word) : Bool :=
  w.extractLsb' 11 7 == 0

/-- The word of the fields of `FormDG`. -/
def FormDG.pack (op : BitVec 6) (fn : BitVec 8) (o : FormDG) : Word :=
  BitVec.ofBool o.s ++ op ++ o.d ++ 0#7 ++ fn ++ o.g

/-- The fields of `FormDG` in a word. -/
def FormDG.unpack (w : Word) : FormDG :=
  { s := w.getLsbD 31, d := w.extractLsb' 18 7, g := w.extractLsb' 0 3 }

/-- The fixed fields of `FormDG` hold what they must (R271). -/
def FormDG.fixedOk (w : Word) : Bool :=
  w.extractLsb' 11 7 == 0

/-- The word of the fields of `FormChclose`. -/
def FormChclose.pack (op : BitVec 6) (fn : BitVec 8) (o : FormChclose) : Word :=
  BitVec.ofBool o.s ++ op ++ 0#12 ++ o.a ++ fn ++ o.g

/-- The fields of `FormChclose` in a word. -/
def FormChclose.unpack (w : Word) : FormChclose :=
  { s := w.getLsbD 31, a := w.extractLsb' 11 2, g := w.extractLsb' 0 3 }

/-- The fixed fields of `FormChclose` hold what they must (R271). -/
def FormChclose.fixedOk (w : Word) : Bool :=
  w.extractLsb' 13 12 == 0

/-- The word of the fields of `FormGuard`. -/
def FormGuard.pack (op : BitVec 6) (fn : BitVec 4) (o : FormGuard) : Word :=
  0#1 ++ op ++ fn ++ 0#11 ++ BitVec.ofBool o.n ++ o.p ++ 7#3

/-- The fields of `FormGuard` in a word. -/
def FormGuard.unpack (w : Word) : FormGuard :=
  { n := w.getLsbD 9, p := w.extractLsb' 3 6 }

/-- The fixed fields of `FormGuard` hold what they must (R271). -/
def FormGuard.fixedOk (w : Word) : Bool :=
  w.extractLsb' 31 1 == 0 && w.extractLsb' 10 11 == 0 && w.extractLsb' 0 3 == 7

/-- The word of the fields of `FormImm`. -/
def FormImm.pack (op : BitVec 6) (fn : BitVec 4) (o : FormImm) : Word :=
  0#1 ++ op ++ fn ++ 0#2 ++ o.i ++ 7#3

/-- The fields of `FormImm` in a word. -/
def FormImm.unpack (w : Word) : FormImm :=
  { i := w.extractLsb' 3 16 }

/-- The fixed fields of `FormImm` hold what they must (R271). -/
def FormImm.fixedOk (w : Word) : Bool :=
  w.extractLsb' 31 1 == 0 && w.extractLsb' 19 2 == 0 && w.extractLsb' 0 3 == 7

/-- The word of the fields of `FormMod`. -/
def FormMod.pack (op : BitVec 6) (fn : BitVec 4) (o : FormMod) : Word :=
  0#1 ++ op ++ fn ++ 0#9 ++ BitVec.ofBool o.l ++ BitVec.ofBool o.q ++ BitVec.ofBool o.k ++ o.e ++ BitVec.ofBool o.t ++ o.r ++ 7#3

/-- The fields of `FormMod` in a word. -/
def FormMod.unpack (w : Word) : FormMod :=
  { l := w.getLsbD 11, q := w.getLsbD 10, k := w.getLsbD 9, e := w.extractLsb' 7 2, t := w.getLsbD 6, r := w.extractLsb' 3 3 }

/-- The fixed fields of `FormMod` hold what they must (R271). -/
def FormMod.fixedOk (w : Word) : Bool :=
  w.extractLsb' 31 1 == 0 && w.extractLsb' 12 9 == 0 && w.extractLsb' 0 3 == 7

/-- The word of the fields of `FormDelay`. -/
def FormDelay.pack (op : BitVec 6) (fn : BitVec 4) (o : FormDelay) : Word :=
  0#1 ++ op ++ fn ++ 0#10 ++ o.n ++ 7#3

/-- The fields of `FormDelay` in a word. -/
def FormDelay.unpack (w : Word) : FormDelay :=
  { n := w.extractLsb' 3 8 }

/-- The fixed fields of `FormDelay` hold what they must (R271). -/
def FormDelay.fixedOk (w : Word) : Bool :=
  w.extractLsb' 31 1 == 0 && w.extractLsb' 11 10 == 0 && w.extractLsb' 0 3 == 7

/-- How a word of one code is read. -/
abbrev Reader := Word → Except DecodeError Instr

/-- The minor codes of major 0x35, from 0x00 (R281). -/
def jumpReaders : List Reader :=
  [fun w => if FormJump.fixedOk w then .ok (.jmpi (.unpack w)) else .error .mustBeZero,
   fun w => if FormJump.fixedOk w then .ok (.calli (.unpack w)) else .error .mustBeZero,
   fun w => if FormJump.fixedOk w then .ok (.ret (.unpack w)) else .error .mustBeZero,
   fun w => if FormS.fixedOk w then .ok (.rjoin (.unpack w)) else .error .mustBeZero,
   fun w => if FormA.fixedOk w then .ok (.jmpk (.unpack w)) else .error .mustBeZero,
   fun w => if FormG.fixedOk w then .ok (.exit (.unpack w)) else .error .mustBeZero]

/-- The minor codes of major 0x36, from 0x00 (R281). -/
def sysReaders : List Reader :=
  [fun w => if FormG.fixedOk w then .ok (.nop (.unpack w)) else .error .mustBeZero,
   fun w => .ok (.sread (.unpack w)),
   fun w => .ok (.swrite (.unpack w)),
   fun w => if FormQ.fixedOk w then .ok (.qread (.unpack w)) else .error .mustBeZero,
   fun w => if FormQ.fixedOk w then .ok (.qsub (.unpack w)) else .error .mustBeZero,
   fun w => if FormStq.fixedOk w then .ok (.stq (.unpack w)) else .error .mustBeZero,
   fun w => .ok (.strap (.unpack w)),
   fun w => if FormA.fixedOk w then .ok (.brk (.unpack w)) else .error .mustBeZero,
   fun w => if FormD.fixedOk w then .ok (.grow (.unpack w)) else .error .mustBeZero,
   fun w => if FormD.fixedOk w then .ok (.shrink (.unpack w)) else .error .mustBeZero,
   fun w => if FormG.fixedOk w then .ok (.yield (.unpack w)) else .error .mustBeZero,
   fun w => .ok (.spawn (.unpack w)),
   fun w => .ok (.deviceLaunch (.unpack w)),
   fun w => .ok (.launchw (.unpack w)),
   fun w => if FormD.fixedOk w then .ok (.admode (.unpack w)) else .error .mustBeZero,
   fun w => if FormA.fixedOk w then .ok (.cpost (.unpack w)) else .error .mustBeZero]

/-- The minor codes of major 0x37, from 0x00 (R281). -/
def syncReaders : List Reader :=
  [fun w => if FormFence.fixedOk w then .ok (.fence (.unpack w)) else .error .mustBeZero,
   fun w => .ok (.binit (.unpack w)),
   fun w => .ok (.bexpect (.unpack w)),
   fun w => .ok (.barrive (.unpack w)),
   fun w => .ok (.bwait (.unpack w)),
   fun w => .ok (.btest (.unpack w)),
   fun w => if FormA.fixedOk w then .ok (.binval (.unpack w)) else .error .mustBeZero,
   fun w => .ok (.chktest (.unpack w)),
   fun w => if FormChwp.fixedOk w then .ok (.chwp (.unpack w)) else .error .mustBeZero,
   fun w => .ok (.darrive (.unpack w))]

/-- The minor codes of major 0x38, from 0x00 (R281). -/
def xfnReaders : List Reader :=
  [fun w => .ok (.mov (.unpack w)),
   fun w => .ok (.not (.unpack w)),
   fun w => .ok (.neg (.unpack w)),
   fun w => .ok (.iabs (.unpack w)),
   fun w => .ok (.popc (.unpack w)),
   fun w => .ok (.clz (.unpack w)),
   fun w => .ok (.ctz (.unpack w)),
   fun w => .ok (.brev (.unpack w)),
   fun w => .ok (.sext8 (.unpack w)),
   fun w => .ok (.sext16 (.unpack w)),
   fun w => .ok (.zext8 (.unpack w)),
   fun w => .ok (.zext16 (.unpack w)),
   fun w => .ok (.movk (.unpack w)),
   fun w => if FormP2v.fixedOk w then .ok (.p2v (.unpack w)) else .error .mustBeZero,
   fun w => if FormV2p.fixedOk w then .ok (.v2p (.unpack w)) else .error .mustBeZero,
   fun w => .ok (.i2fS (.unpack w)),
   fun w => .ok (.i2fZ (.unpack w)),
   fun w => .ok (.f2iS (.unpack w)),
   fun w => .ok (.f2iZ (.unpack w)),
   fun w => .ok (.fneg (.unpack w)),
   fun w => .ok (.fabs (.unpack w)),
   fun w => .ok (.fsat (.unpack w)),
   fun w => .ok (.frnd (.unpack w)),
   fun w => .ok (.fclass (.unpack w)),
   fun w => .ok (.frcp (.unpack w)),
   fun w => .ok (.frsq (.unpack w)),
   fun w => .ok (.fsqrt (.unpack w)),
   fun w => .ok (.fex2 (.unpack w)),
   fun w => .ok (.flg2 (.unpack w)),
   fun w => .ok (.fsin (.unpack w)),
   fun w => .ok (.fcos (.unpack w)),
   fun w => .ok (.ftanh (.unpack w)),
   fun w => .ok (.fsigm (.unpack w)),
   fun w => .ok (.f2bf (.unpack w)),
   fun w => .ok (.bf2f (.unpack w)),
   fun w => .ok (.bf2fh (.unpack w)),
   fun w => .ok (.f2h (.unpack w)),
   fun w => .ok (.h2f (.unpack w)),
   fun w => .ok (.pkbf2 (.unpack w)),
   fun w => .ok (.unpbf2 (.unpack w)),
   fun w => .ok (.txbenc8 (.unpack w)),
   fun w => .ok (.txbdec8 (.unpack w)),
   fun w => .ok (.txbenc4 (.unpack w)),
   fun w => .ok (.txbdec4 (.unpack w)),
   fun w => .ok (.f2i8s (.unpack w))]

/-- The minor codes of major 0x3A, from 0x00 (R281). -/
def laneReaders : List Reader :=
  [fun w => .ok (.qxh (.unpack w)),
   fun w => .ok (.qxv (.unpack w)),
   fun w => .ok (.qxd (.unpack w)),
   fun w => .ok (.qbc0 (.unpack w)),
   fun w => .ok (.qbc1 (.unpack w)),
   fun w => .ok (.qbc2 (.unpack w)),
   fun w => .ok (.qbc3 (.unpack w)),
   fun w => .ok (.gshf (.unpack w)),
   fun w => .ok (.gbal (.unpack w)),
   fun w => .ok (.gradd (.unpack w)),
   fun w => .ok (.grfadd (.unpack w)),
   fun w => .ok (.grmin (.unpack w)),
   fun w => .ok (.grmax (.unpack w)),
   fun w => .ok (.gscan (.unpack w)),
   fun w => .ok (.gfirst (.unpack w))]

/-- The minor codes of major 0x3C, from 0x00 (R281). -/
def engineReaders : List Reader :=
  [fun w => .ok (.copy (.unpack w)),
   fun w => .ok (.chopen (.unpack w)),
   fun w => if FormChclose.fixedOk w then .ok (.chclose (.unpack w)) else .error .mustBeZero,
   fun w => .ok (.snap (.unpack w)),
   fun w => .ok (.snapst (.unpack w)),
   fun w => .ok (.route (.unpack w)),
   fun w => .ok (.combine (.unpack w)),
   fun w => .ok (.digest (.unpack w)),
   fun w => if FormDG.fixedOk w then .ok (.cppop (.unpack w)) else .error .mustBeZero,
   fun w => .ok (.gread (.unpack w)),
   fun w => .ok (.gwrite (.unpack w)),
   fun w => .ok (.gresume (.unpack w)),
   fun w => .ok (.gkill (.unpack w)),
   fun w => .ok (.gpark (.unpack w)),
   fun w => .ok (.svcpost (.unpack w)),
   fun w => .ok (.svctake (.unpack w)),
   fun w => if FormG.fixedOk w then .ok (.cpret (.unpack w)) else .error .mustBeZero,
   fun w => .ok (.cmdstat (.unpack w)),
   fun w => .ok (.cmdcancel (.unpack w))]

/-- The minor codes of major 0x3D, from 0x00 (R281). -/
def uniReaders : List Reader :=
  [fun w => .ok (.kmov (.unpack w)),
   fun w => .ok (.kmovv (.unpack w)),
   fun w => .ok (.kadd (.unpack w)),
   fun w => .ok (.ksub (.unpack w)),
   fun w => .ok (.kmul (.unpack w)),
   fun w => .ok (.kand (.unpack w)),
   fun w => .ok (.kor (.unpack w)),
   fun w => .ok (.kxor (.unpack w)),
   fun w => .ok (.kshl (.unpack w)),
   fun w => .ok (.kshr (.unpack w)),
   fun w => .ok (.kadd64 (.unpack w)),
   fun w => .ok (.kld32 (.unpack w)),
   fun w => .ok (.kld64 (.unpack w)),
   fun w => .ok (.kst32 (.unpack w)),
   fun w => .ok (.kbal (.unpack w))]

/-- The operations of the ATOM field fn6 [4:0], from 0x00 (R281). -/
def atomReaders : List Reader :=
  [fun w => .ok (.atomAddB32 (.unpack w)),
   fun w => .ok (.atomAddF32 (.unpack w)),
   fun w => .ok (.atomAddBf16x2 (.unpack w)),
   fun w => .ok (.atomMinS32 (.unpack w)),
   fun w => .ok (.atomMaxS32 (.unpack w)),
   fun w => .ok (.atomMinZ32 (.unpack w)),
   fun w => .ok (.atomMaxZ32 (.unpack w)),
   fun w => .ok (.atomAnd (.unpack w)),
   fun w => .ok (.atomOr (.unpack w)),
   fun w => .ok (.atomXor (.unpack w)),
   fun w => if w.getLsbD 8 then .error .undefinedAtom else .ok (.atomXchg (.unpack w)),
   fun w => if w.getLsbD 8 then .error .undefinedAtom else .ok (.atomCas (.unpack w)),
   fun w => .ok (.atomIncw (.unpack w)),
   fun w => .ok (.atomDecw (.unpack w)),
   fun w => .ok (.atomAddB64 (.unpack w)),
   fun w => if w.getLsbD 8 then .error .undefinedAtom else .ok (.atomCasB64 (.unpack w)),
   fun w => .ok (.atomCaddF32 (.unpack w)),
   fun w => .ok (.atomCaddBf16x2 (.unpack w)),
   fun w => if w.getLsbD 8 then .error .undefinedAtom else .ok (.atomCdecl (.unpack w))]

/-- Majors 0x00-0x32: one instruction each (R280). -/
def majorReaders : List Reader :=
  [fun w => .ok (.iadd (.unpack w)),
   fun w => .ok (.isub (.unpack w)),
   fun w => .ok (.imul (.unpack w)),
   fun w => .ok (.imulhs (.unpack w)),
   fun w => .ok (.imulhz (.unpack w)),
   fun w => .ok (.imins (.unpack w)),
   fun w => .ok (.imaxs (.unpack w)),
   fun w => .ok (.iminz (.unpack w)),
   fun w => .ok (.imaxz (.unpack w)),
   fun w => .ok (.and (.unpack w)),
   fun w => .ok (.or (.unpack w)),
   fun w => .ok (.xor (.unpack w)),
   fun w => .ok (.shl (.unpack w)),
   fun w => .ok (.shr (.unpack w)),
   fun w => .ok (.sar (.unpack w)),
   fun w => .ok (.imad (.unpack w)),
   fun w => .ok (.fadd (.unpack w)),
   fun w => .ok (.fsub (.unpack w)),
   fun w => .ok (.fmul (.unpack w)),
   fun w => .ok (.ffma (.unpack w)),
   fun w => .ok (.fmin (.unpack w)),
   fun w => .ok (.fmax (.unpack w)),
   fun w => .ok (.sel (.unpack w)),
   fun w => .ok (.bmul2 (.unpack w)),
   fun w => .ok (.bfma2 (.unpack w)),
   fun w => .ok (.icmpeq (.unpack w)),
   fun w => .ok (.icmpne (.unpack w)),
   fun w => .ok (.icmplt (.unpack w)),
   fun w => .ok (.icmple (.unpack w)),
   fun w => .ok (.icmpltz (.unpack w)),
   fun w => .ok (.iadd64 (.unpack w)),
   fun w => .ok (.fcmpeq (.unpack w)),
   fun w => .ok (.fcmplt (.unpack w)),
   fun w => .ok (.fcmple (.unpack w)),
   fun w => .ok (.fcmpun (.unpack w)),
   fun w => .ok (.iaddi (.unpack w)),
   fun w => .ok (.andi (.unpack w)),
   fun w => .ok (.ori (.unpack w)),
   fun w => .ok (.xori (.unpack w)),
   fun w => if FormShfi.fixedOk w then .ok (.shfi (.unpack w)) else .error .mustBeZero,
   fun w => if FormMovi.fixedOk w then .ok (.movi (.unpack w)) else .error .mustBeZero,
   fun w => .ok (.ld8 (.unpack w)),
   fun w => .ok (.ld16 (.unpack w)),
   fun w => .ok (.ld32 (.unpack w)),
   fun w => .ok (.ld64 (.unpack w)),
   fun w => .ok (.ld128 (.unpack w)),
   fun w => .ok (.st8 (.unpack w)),
   fun w => .ok (.st16 (.unpack w)),
   fun w => .ok (.st32 (.unpack w)),
   fun w => .ok (.st64 (.unpack w)),
   fun w => .ok (.st128 (.unpack w))]

/-- The reader of one code of a table, or the rejection of a code the table does not hold. -/
def readerAt (table : List Reader) (code : Nat) (e : DecodeError) : Reader :=
  fun w => match table[code]? with
    | some r => r w
    | none => .error e

/-- MATRIX words: FN8 [7:5] is the operation (R281, R347). -/
def readMatrix : Reader := fun w =>
  match (w.extractLsb' 8 3).toNat with
  | 0 => .ok (.mma (.unpack w))
  | 1 => .ok (.mmaj (.unpack w))
  | 2 => if FormMloop.fixedOk w then .ok (.mloop (.unpack w)) else .error .mustBeZero
  | 3 => match (w.extractLsb' 6 2).toNat with
    | 0 => .ok (.adrainR (.unpack w))
    | 1 => if FormDrain.fixedOk w then .ok (.adrainM (.unpack w)) else .error .mustBeZero
    | 2 => if FormDrain.fixedOk w then .ok (.adrainU (.unpack w)) else .error .mustBeZero
    | _ => .error .undefinedMatrix
  | 4 => if w.extractLsb' 3 5 == 0 then if FormDG.fixedOk w then .ok (.azero (.unpack w)) else .error .mustBeZero else .error .undefinedMatrix
  | 5 => if w.extractLsb' 3 5 == 0 then .ok (.aloadR (.unpack w)) else
    if w.extractLsb' 3 5 == 1 then if FormDG.fixedOk w then .ok (.aloadM (.unpack w)) else .error .mustBeZero else .error .undefinedMatrix
  | 6 => if w.extractLsb' 3 5 == 0 then if FormG.fixedOk w then .ok (.opfence (.unpack w)) else .error .mustBeZero else .error .undefinedMatrix
  | _ => .error .undefinedMatrix

/-- TH words: KIND [24:21] (R275). -/
def readHint : Reader := fun w =>
  if w.getLsbD 31 then .error .mustBeZero else
  match (w.extractLsb' 21 4).toNat with
  | 0 => if FormGuard.fixedOk w then .ok (.guard (.unpack w)) else .error .mustBeZero
  | 1 => if FormImm.fixedOk w then .ok (.imm (.unpack w)) else .error .mustBeZero
  | 2 => if FormMod.fixedOk w then .ok (.mod (.unpack w)) else .error .mustBeZero
  | 3 => if FormDelay.fixedOk w then .ok (.delay (.unpack w)) else .error .mustBeZero
  | _ => .error .undefinedHint

/-- A word as the maps of R280 and R281 read it, before the values of its fields are checked. -/
def readWord : Reader := fun w =>
  let major := (majorOf w).toNat
  let minor := (fn8Of w).toNat
  if major ≤ 0x32 then readerAt majorReaders major .undefinedMajor w
  else match major with
  | 0x33 => readerAt atomReaders (w.extractLsb' 3 5).toNat .undefinedAtom w
  | 0x34 => .ok (if w.getLsbD 23 then .call (.unpack w) else .bra (.unpack w))
  | 0x35 => readerAt jumpReaders minor .undefinedMinor w
  | 0x36 => readerAt sysReaders minor .undefinedMinor w
  | 0x37 => readerAt syncReaders minor .undefinedMinor w
  | 0x38 => readerAt xfnReaders minor .undefinedMinor w
  | 0x39 => .ok (.pred (.unpack w))
  | 0x3A => readerAt laneReaders minor .undefinedMinor w
  | 0x3B => readMatrix w
  | 0x3C => readerAt engineReaders minor .undefinedMinor w
  | 0x3D => readerAt uniReaders minor .undefinedMinor w
  | 0x3E => readHint w
  | _ => .error .undefinedMajor

/-- The instruction a word holds (R269-R282). -/
def decodeWord (w : Word) : Except DecodeError Instr :=
  match readWord w with
  | .ok i => if i.wellFormed then .ok i else .error .badField
  | .error e => .error e

/-- A word from its four bytes, the first at the lowest address (R2). -/
def wordOfBytes (b0 b1 b2 b3 : Byte) : Word := b3 ++ b2 ++ b1 ++ b0

/-- The four bytes of a word, the lowest address first (R2). -/
def bytesOfWord (w : Word) : List Byte :=
  [w.extractLsb' 0 8, w.extractLsb' 8 8, w.extractLsb' 16 8, w.extractLsb' 24 8]

/-- The instruction at the front of a byte string, and the bytes behind it. -/
def decode : List Byte → Except DecodeError (Instr × List Byte)
  | b0 :: b1 :: b2 :: b3 :: rest => (decodeWord (wordOfBytes b0 b1 b2 b3)).map (·, rest)
  | _ => .error .truncated

/-- The word that stands for an instruction; an operation or event of the machine has none. -/
def encodeWord : Instr → Option Word
  | .iadd o => some (o.pack 0x00)
  | .isub o => some (o.pack 0x01)
  | .imul o => some (o.pack 0x02)
  | .imulhs o => some (o.pack 0x03)
  | .imulhz o => some (o.pack 0x04)
  | .imins o => some (o.pack 0x05)
  | .imaxs o => some (o.pack 0x06)
  | .iminz o => some (o.pack 0x07)
  | .imaxz o => some (o.pack 0x08)
  | .and o => some (o.pack 0x09)
  | .or o => some (o.pack 0x0A)
  | .xor o => some (o.pack 0x0B)
  | .shl o => some (o.pack 0x0C)
  | .shr o => some (o.pack 0x0D)
  | .sar o => some (o.pack 0x0E)
  | .imad o => some (o.pack 0x0F)
  | .fadd o => some (o.pack 0x10)
  | .fsub o => some (o.pack 0x11)
  | .fmul o => some (o.pack 0x12)
  | .ffma o => some (o.pack 0x13)
  | .fmin o => some (o.pack 0x14)
  | .fmax o => some (o.pack 0x15)
  | .sel o => some (o.pack 0x16)
  | .bmul2 o => some (o.pack 0x17)
  | .bfma2 o => some (o.pack 0x18)
  | .icmpeq o => some (o.pack 0x19)
  | .icmpne o => some (o.pack 0x1A)
  | .icmplt o => some (o.pack 0x1B)
  | .icmple o => some (o.pack 0x1C)
  | .icmpltz o => some (o.pack 0x1D)
  | .iadd64 o => some (o.pack 0x1E)
  | .fcmpeq o => some (o.pack 0x1F)
  | .fcmplt o => some (o.pack 0x20)
  | .fcmple o => some (o.pack 0x21)
  | .fcmpun o => some (o.pack 0x22)
  | .iaddi o => some (o.pack 0x23)
  | .andi o => some (o.pack 0x24)
  | .ori o => some (o.pack 0x25)
  | .xori o => some (o.pack 0x26)
  | .shfi o => some (o.pack 0x27)
  | .movi o => some (o.pack 0x28)
  | .ld8 o => some (o.pack 0x29)
  | .ld16 o => some (o.pack 0x2A)
  | .ld32 o => some (o.pack 0x2B)
  | .ld64 o => some (o.pack 0x2C)
  | .ld128 o => some (o.pack 0x2D)
  | .st8 o => some (o.pack 0x2E)
  | .st16 o => some (o.pack 0x2F)
  | .st32 o => some (o.pack 0x30)
  | .st64 o => some (o.pack 0x31)
  | .st128 o => some (o.pack 0x32)
  | .atomAddB32 o => some (o.pack 0x33 0x00)
  | .atomAddF32 o => some (o.pack 0x33 0x01)
  | .atomAddBf16x2 o => some (o.pack 0x33 0x02)
  | .atomMinS32 o => some (o.pack 0x33 0x03)
  | .atomMaxS32 o => some (o.pack 0x33 0x04)
  | .atomMinZ32 o => some (o.pack 0x33 0x05)
  | .atomMaxZ32 o => some (o.pack 0x33 0x06)
  | .atomAnd o => some (o.pack 0x33 0x07)
  | .atomOr o => some (o.pack 0x33 0x08)
  | .atomXor o => some (o.pack 0x33 0x09)
  | .atomXchg o => some (o.pack 0x33 0x0A)
  | .atomCas o => some (o.pack 0x33 0x0B)
  | .atomIncw o => some (o.pack 0x33 0x0C)
  | .atomDecw o => some (o.pack 0x33 0x0D)
  | .atomAddB64 o => some (o.pack 0x33 0x0E)
  | .atomCasB64 o => some (o.pack 0x33 0x0F)
  | .atomCaddF32 o => some (o.pack 0x33 0x10)
  | .atomCaddBf16x2 o => some (o.pack 0x33 0x11)
  | .atomCdecl o => some (o.pack 0x33 0x12)
  | .bra o => some (o.pack 0x34 0x00)
  | .call o => some (o.pack 0x34 0x01)
  | .jmpi o => some (o.pack 0x35 0x00)
  | .calli o => some (o.pack 0x35 0x01)
  | .ret o => some (o.pack 0x35 0x02)
  | .rjoin o => some (o.pack 0x35 0x03)
  | .jmpk o => some (o.pack 0x35 0x04)
  | .exit o => some (o.pack 0x35 0x05)
  | .nop o => some (o.pack 0x36 0x00)
  | .sread o => some (o.pack 0x36 0x01)
  | .swrite o => some (o.pack 0x36 0x02)
  | .qread o => some (o.pack 0x36 0x03)
  | .qsub o => some (o.pack 0x36 0x04)
  | .stq o => some (o.pack 0x36 0x05)
  | .strap o => some (o.pack 0x36 0x06)
  | .brk o => some (o.pack 0x36 0x07)
  | .grow o => some (o.pack 0x36 0x08)
  | .shrink o => some (o.pack 0x36 0x09)
  | .yield o => some (o.pack 0x36 0x0A)
  | .spawn o => some (o.pack 0x36 0x0B)
  | .deviceLaunch o => some (o.pack 0x36 0x0C)
  | .launchw o => some (o.pack 0x36 0x0D)
  | .admode o => some (o.pack 0x36 0x0E)
  | .cpost o => some (o.pack 0x36 0x0F)
  | .fence o => some (o.pack 0x37 0x00)
  | .binit o => some (o.pack 0x37 0x01)
  | .bexpect o => some (o.pack 0x37 0x02)
  | .barrive o => some (o.pack 0x37 0x03)
  | .bwait o => some (o.pack 0x37 0x04)
  | .btest o => some (o.pack 0x37 0x05)
  | .binval o => some (o.pack 0x37 0x06)
  | .chktest o => some (o.pack 0x37 0x07)
  | .chwp o => some (o.pack 0x37 0x08)
  | .darrive o => some (o.pack 0x37 0x09)
  | .mov o => some (o.pack 0x38 0x00)
  | .not o => some (o.pack 0x38 0x01)
  | .neg o => some (o.pack 0x38 0x02)
  | .iabs o => some (o.pack 0x38 0x03)
  | .popc o => some (o.pack 0x38 0x04)
  | .clz o => some (o.pack 0x38 0x05)
  | .ctz o => some (o.pack 0x38 0x06)
  | .brev o => some (o.pack 0x38 0x07)
  | .sext8 o => some (o.pack 0x38 0x08)
  | .sext16 o => some (o.pack 0x38 0x09)
  | .zext8 o => some (o.pack 0x38 0x0A)
  | .zext16 o => some (o.pack 0x38 0x0B)
  | .movk o => some (o.pack 0x38 0x0C)
  | .p2v o => some (o.pack 0x38 0x0D)
  | .v2p o => some (o.pack 0x38 0x0E)
  | .i2fS o => some (o.pack 0x38 0x0F)
  | .i2fZ o => some (o.pack 0x38 0x10)
  | .f2iS o => some (o.pack 0x38 0x11)
  | .f2iZ o => some (o.pack 0x38 0x12)
  | .fneg o => some (o.pack 0x38 0x13)
  | .fabs o => some (o.pack 0x38 0x14)
  | .fsat o => some (o.pack 0x38 0x15)
  | .frnd o => some (o.pack 0x38 0x16)
  | .fclass o => some (o.pack 0x38 0x17)
  | .frcp o => some (o.pack 0x38 0x18)
  | .frsq o => some (o.pack 0x38 0x19)
  | .fsqrt o => some (o.pack 0x38 0x1A)
  | .fex2 o => some (o.pack 0x38 0x1B)
  | .flg2 o => some (o.pack 0x38 0x1C)
  | .fsin o => some (o.pack 0x38 0x1D)
  | .fcos o => some (o.pack 0x38 0x1E)
  | .ftanh o => some (o.pack 0x38 0x1F)
  | .fsigm o => some (o.pack 0x38 0x20)
  | .f2bf o => some (o.pack 0x38 0x21)
  | .bf2f o => some (o.pack 0x38 0x22)
  | .bf2fh o => some (o.pack 0x38 0x23)
  | .f2h o => some (o.pack 0x38 0x24)
  | .h2f o => some (o.pack 0x38 0x25)
  | .pkbf2 o => some (o.pack 0x38 0x26)
  | .unpbf2 o => some (o.pack 0x38 0x27)
  | .txbenc8 o => some (o.pack 0x38 0x28)
  | .txbdec8 o => some (o.pack 0x38 0x29)
  | .txbenc4 o => some (o.pack 0x38 0x2A)
  | .txbdec4 o => some (o.pack 0x38 0x2B)
  | .f2i8s o => some (o.pack 0x38 0x2C)
  | .pred o => some (o.pack 0x39)
  | .qxh o => some (o.pack 0x3A 0x00)
  | .qxv o => some (o.pack 0x3A 0x01)
  | .qxd o => some (o.pack 0x3A 0x02)
  | .qbc0 o => some (o.pack 0x3A 0x03)
  | .qbc1 o => some (o.pack 0x3A 0x04)
  | .qbc2 o => some (o.pack 0x3A 0x05)
  | .qbc3 o => some (o.pack 0x3A 0x06)
  | .gshf o => some (o.pack 0x3A 0x07)
  | .gbal o => some (o.pack 0x3A 0x08)
  | .gradd o => some (o.pack 0x3A 0x09)
  | .grfadd o => some (o.pack 0x3A 0x0A)
  | .grmin o => some (o.pack 0x3A 0x0B)
  | .grmax o => some (o.pack 0x3A 0x0C)
  | .gscan o => some (o.pack 0x3A 0x0D)
  | .gfirst o => some (o.pack 0x3A 0x0E)
  | .mma o => some (o.pack 0x3B 0x00)
  | .mmaj o => some (o.pack 0x3B 0x01)
  | .mloop o => some (o.pack 0x3B 0x02)
  | .adrainR o => some (o.pack 0x3B 0x0C)
  | .adrainM o => some (o.pack 0x3B 0x0D)
  | .adrainU o => some (o.pack 0x3B 0x0E)
  | .azero o => some (o.pack 0x3B 0x80)
  | .aloadR o => some (o.pack 0x3B 0xA0)
  | .aloadM o => some (o.pack 0x3B 0xA1)
  | .opfence o => some (o.pack 0x3B 0xC0)
  | .copy o => some (o.pack 0x3C 0x00)
  | .chopen o => some (o.pack 0x3C 0x01)
  | .chclose o => some (o.pack 0x3C 0x02)
  | .snap o => some (o.pack 0x3C 0x03)
  | .snapst o => some (o.pack 0x3C 0x04)
  | .route o => some (o.pack 0x3C 0x05)
  | .combine o => some (o.pack 0x3C 0x06)
  | .digest o => some (o.pack 0x3C 0x07)
  | .cppop o => some (o.pack 0x3C 0x08)
  | .gread o => some (o.pack 0x3C 0x09)
  | .gwrite o => some (o.pack 0x3C 0x0A)
  | .gresume o => some (o.pack 0x3C 0x0B)
  | .gkill o => some (o.pack 0x3C 0x0C)
  | .gpark o => some (o.pack 0x3C 0x0D)
  | .svcpost o => some (o.pack 0x3C 0x0E)
  | .svctake o => some (o.pack 0x3C 0x0F)
  | .cpret o => some (o.pack 0x3C 0x10)
  | .cmdstat o => some (o.pack 0x3C 0x11)
  | .cmdcancel o => some (o.pack 0x3C 0x12)
  | .kmov o => some (o.pack 0x3D 0x00)
  | .kmovv o => some (o.pack 0x3D 0x01)
  | .kadd o => some (o.pack 0x3D 0x02)
  | .ksub o => some (o.pack 0x3D 0x03)
  | .kmul o => some (o.pack 0x3D 0x04)
  | .kand o => some (o.pack 0x3D 0x05)
  | .kor o => some (o.pack 0x3D 0x06)
  | .kxor o => some (o.pack 0x3D 0x07)
  | .kshl o => some (o.pack 0x3D 0x08)
  | .kshr o => some (o.pack 0x3D 0x09)
  | .kadd64 o => some (o.pack 0x3D 0x0A)
  | .kld32 o => some (o.pack 0x3D 0x0B)
  | .kld64 o => some (o.pack 0x3D 0x0C)
  | .kst32 o => some (o.pack 0x3D 0x0D)
  | .kbal o => some (o.pack 0x3D 0x0E)
  | .guard o => some (o.pack 0x3E 0x00)
  | .imm o => some (o.pack 0x3E 0x01)
  | .mod o => some (o.pack 0x3E 0x02)
  | .delay o => some (o.pack 0x3E 0x03)
  | _ => none

/-- The bytes of an instruction, the lowest address first. -/
def encode (i : Instr) : List Byte := ((encodeWord i).map bytesOfWord).getD []

/-- The instruction the decoder reads from a word of `nbits` bits laid out as the opcode table numbers them. -/
def decodeTableWord (nbits w : Nat) : Option Instr :=
  match decode (bytesOfWord (BitVec.ofNat 32 (w % 2 ^ nbits))) with
  | .ok (i, _) => some i
  | .error _ => none

end Sys2Proof
end

