-- ==== Sys2Proof/Machine/Fetch.lean ====
section
/-!
DEFINITION. Fetching and choosing what issues: the word at a PC (R270), the order in which a quadrant tries its groups (R106),
the control processor's own code, and how a word is placed so that the next step runs it.
-/
namespace Sys2Proof.Machine

/-- What a fetch gives. -/
inductive Fetched where
  | word (w : Word)
  | fail (c : Cause) (addr : DWord)
deriving DecidableEq, Repr

/-- The heap offset of a word of a launch's code image. -/
def Launch.codeAt (l : Launch) (pc : Word) : Nat := offsetOf l.record.code.toNat + pc.toNat

/-- A group's fetch goes through its launch's heap window: LIMIT outside it, and an error at memory as a read of the word meets
it (R270). -/
def fetchGroup (s : State) (g : Group) (pc : Word) : Fetched :=
  match s.sys.launch? g.launch with
  | none => .fail .limit 0
  | some l =>
    let a := l.codeAt pc
    match heapFlat (s.sys.part l.part) l.heap a 4 with
    | none => .fail .limit (BitVec.ofNat 64 a)
    | some (f, k) =>
      match s.sys.readError f 4 k with
      | some c => .fail c (BitVec.ofNat 64 a)
      | none => .word (BitVec.ofNat 32 (numOf (readBytes s.mem f 4)))

/-- The frame that a fetch reaches is claimed (R59), and a corrected word counted (R61). -/
def claimFetch (y : Sys) (g : Group) (pc : Word) : Sys :=
  match y.launch? g.launch with
  | none => y
  | some l =>
    match heapFlat (y.part l.part) l.heap (l.codeAt pc) 4 with
    | some (f, k) => if (y.readError f 4 k).isSome then y.claim f k else y.readAt f 4 k
    | none => y

/-- A control processor's fetch reads its own code. -/
def fetchCp (c : Cp) (pc : Word) : Word := BitVec.ofNat 32 (numOf (readBytes c.code pc.toNat 4))

/-! ### The order of issue (R106) -/

/-- An entry may issue, so far as its own state says (R104, R106): the holds of its next word are found when it is tried. -/
def Entry.canIssue (e : Entry) (returning : LaneMask) : Bool :=
  e.st == .ready && e.holds.isEmpty && e.delay == 0 && e.mask &&& returning == 0

/-- A group is resident in a quadrant of a core. -/
def Group.inQuadrant (g : Group) (core q : Nat) : Bool :=
  g.core == core && g.quadrant == q && g.offCore.isNone && !g.killed

/-- A group that is to be pre-empted stops at an instruction boundary (R120): GPARK waits for it, or the management plane has asked. -/
def Sys.stopping (y : Sys) (g : Group) : Bool :=
  g.preempt || (match (y.core g.core).cp.gparkWait with | some (h, _) => h == g.handle | none => false)

/-- The entries of a group that may issue, highest priority first and a tie to the lower PC. -/
def Sys.issueOrder (y : Sys) (g : Group) : List Entry :=
  let es := if y.stopping g then [] else g.frontier.filter (fun e => e.canIssue (y.returning g))
  let before := fun (a b : Entry) =>
    let pa := (y.prio g a.pc).toNat
    let pb := (y.prio g b.pc).toNat
    decide (pb < pa) || (pa == pb && decide (a.pc.toNat ≤ b.pc.toNat))
  es.foldl (fun acc e => (acc.takeWhile (fun x => before x e)) ++ [e] ++ (acc.dropWhile (fun x => before x e))) []

/-- The groups of a quadrant in the order of R106: those passed over for 256 slots first, then by age. -/
def Sys.groupOrder (y : Sys) (core q : Nat) : List Group :=
  let gs := y.groups.filter (fun g => g.inQuadrant core q)
  let before := fun (a b : Group) =>
    let sa := decide (256 ≤ a.skipped)
    let sb := decide (256 ≤ b.skipped)
    (sa && !sb) || (sa == sb && decide (a.age ≤ b.age))
  gs.foldl (fun acc g => (acc.takeWhile (fun x => before x g)) ++ [g] ++ (acc.dropWhile (fun x => before x g))) []

/-- What a quadrant tries to issue, in order: each entry by its group and lowest lane. -/
def Sys.candidates (y : Sys) (core q : Nat) : List Issuer :=
  if y.dieRuns (coreDie core) then
    (y.groupOrder core q).flatMap (fun g => (y.issueOrder g).map (fun e => .group g.handle (lowest e.mask)))
  else []

/-- An issue slot passes in a quadrant: DELAY counts run down (R279). -/
def Sys.slotPasses (y : Sys) (core q : Nat) : Sys :=
  { y with groups := y.groups.map (fun g =>
      if g.inQuadrant core q then { g with frontier := g.frontier.map (fun e => { e with delay := e.delay - 1 }) } else g) }

/-- Groups that were eligible in a slot in which another issued have waited one slot more (R106). -/
def Sys.passedOver (y : Sys) (hs : List Nat) : Sys :=
  { y with groups := y.groups.map (fun g => if hs.contains g.handle then { g with skipped := g.skipped + 1 } else g) }

/-- The group that issues starts its wait anew. -/
def Sys.issued (y : Sys) (w : Issuer) : Sys :=
  match w with
  | .group h _ => y.modGroup h (fun g => { g with skipped := 0 })
  | .cp _ => y

/-- One of the control processor's own instructions waits, or a hint run stands before one (R121). -/
def Sys.cpBusy (y : Sys) (core : Nat) : Bool :=
  let c := (y.core core).cp
  !c.holds.isEmpty || c.wait.isSome || c.snapWait.isSome || c.gparkWait.isSome || c.hints.any || c.stalled ||
  y.accesses.any (fun a => a.who == .cp core && a.isFlight)

/-- The control processor takes a trap at its next instruction boundary: one that waits at the head of the queue while INTRAP is 0 (R121). -/
def Sys.cpTakes (y : Sys) (core : Nat) : Bool :=
  let k := y.core core
  !k.cp.intrap && (match k.trapq with
    | [] => false
    | .cp _ :: _ => true
    | .entry _ _ :: _ => !y.cpBusy core)

/-- The control processor may execute: it runs, no trap is to be taken first, no trap of its own waits, no hold, no wait of an instruction
stands, and none of its accesses is unanswered (assumption log 6). -/
def Sys.cpReady (y : Sys) (core : Nat) : Bool :=
  let c := (y.core core).cp
  y.dieRuns (coreDie core) && c.running && !c.stopped && !y.cpTakes core && (match c.ownTrap with | some t => t.taken | none => true) && c.holds.isEmpty && c.wait.isNone && c.snapWait.isNone &&
  c.gparkWait.isNone &&
  !y.accesses.any (fun a => a.who == .cp core && (match a.st with | .inFlight => true | _ => false))

/-- The state with the word, its issuer and no event set. -/
def State.issueAs (s : State) (w : Issuer) (insn : Word) : State :=
  { s with sys := { s.sys with cur := some w, insn := insn, ev := none } }

/-- The fetch of an issuer's next word. -/
def fetchFor (s : State) (w : Issuer) : Fetched :=
  match w with
  | .cp core => .word (fetchCp (s.sys.core core).cp (s.sys.core core).cp.pc)
  | .group h lane =>
    match s.sys.group? h with
    | none => .fail .limit 0
    | some g =>
      match g.entry? lane with
      | none => .fail .limit 0
      | some e => fetchGroup s g e.pc

/-- A fetch that fails traps at the fetched PC, with TADDR the fetch address (R270). -/
def fetchTrap (s : State) (w : Issuer) (c : Cause) (addr : DWord) : State :=
  match issuer { s with sys := { s.sys with cur := some w, insn := 0 } } with
  | none => s
  | some i => { s with sys := i.trap { s.sys with insn := 0 } c i.e.mask addr }

/-- What an issue slot does before the word: the frame it was fetched from is claimed, and the group's wait starts anew. -/
def beforeIssue (s : State) (w : Issuer) : State :=
  match w with
  | .cp _ => s
  | .group h lane =>
    match s.sys.group? h with
    | none => s
    | some g =>
      match g.entry? lane with
      | none => s
      | some e => { s with sys := claimFetch (s.sys.issued w) g e.pc }

/-- A word that no map defines raises ILLEGAL for its entry (R282). -/
def execUndefined (s : State) : Host.Outcome State Fault Refusal :=
  wordNext (fun i s => i.trap s.sys .illegal i.e.mask 0) s

/-! ### Placing a word for the next step -/

/-- The launch record of the placed word: one block of one group with 128 registers, code at heap offset 0. -/
def placedRecord : LaunchRec :=
  { code := 0, entry := 0, priomap := 0, gridX := 1, gridY := 1, gridZ := 1, gpb := 1, det := false, coop := false,
    gangP := 1, gangF := 1, regs := 128, qos := 0, scrBytes := 0, constp := 0, kcount := 0, cbar := 0, launchId := 0,
    parentId := 0, tapep := 0, tapeBytes := 0, dgroup := 0, dgv := false, bytes := List.replicate 128 0 }

/-- The heap window of the placed word's launch: 1 MiB from partition memory address 0, key 1. -/
def placedHeap : HeapWindow := { hlimit := 0x100000, dkey := 1 }

/-- The launch of the placed word. -/
def placedLaunch (uid : Nat) : Launch :=
  { uid := uid, part := 0, vf := 0, record := placedRecord, heap := placedHeap, consts := [], prio := [(0, 0)],
    inStore := false, waitParent := none, placed := 1, gangs := 1, releasedBlocks := 0, serial := 0,
    terminated := false, stopped := false, finished := false, hostCmd := none, own := [], ownLines := 0, ownRecords := 0,
    ticks := {} }

/-- The block of the placed word. -/
def placedBlock (uid launch : Nat) : Block :=
  { uid := uid, launch := launch, index := 0, gang := 0, rank := 0, gangSize := 1, core := 0, bslot := 0,
    scr := [], scrBytes := 0, regs := 128, gpb := 1, released := false }

/-- The group of the placed word: 32 lanes at PC 0. -/
def placedGroup (handle launch block : Nat) : Group :=
  { blankGroup with
    handle := handle, launch := launch, block := some block, gangSize := 1, lanes := 0xFFFFFFFF, allot := 128,
    frontier := [{ pc := 0, mask := 0xFFFFFFFF, j := 0, st := .ready }] }

/-- The state with a word stored where the next step fetches: a launch with one group resident on core 0, quadrant 0, whose code
image holds the word, and a turn of that quadrant (assumption log 4). -/
def placeWord (s : State) (w : Nat) : State :=
  let y := s.sys
  let u := y.nextId
  let y1 := y.modPart 0 (fun p => { p with dies := p.dies ||| 1, valid := true, st := .active, keylo := 1, keyn := 255 })
  let y2 := (y1.modDie 0 (fun d => { d with gated := false, capHeld := 0, hot := false })).modVf 0 (fun v => { v with part := 0, valid := true, keylo := 1, keyn := 255, heap := placedHeap })
  { s with
    mem := writeCells s.mem (cellsAt 0 (bytesOf 4 w))
    sys := { y2 with
      nextId := u + 3
      cur := none
      ev := none
      turns := [{ ns := 1, act := .issue 0 0 }]
      frames := sset y2.frames 0 0x101
      eccBad := y2.eccBad.filter (fun x => x != 0)
      launches := y2.launches ++ [placedLaunch u]
      blocks := y2.blocks.filter (fun b => b.core != 0) ++ [placedBlock (u + 1) u]
      groups := y2.groups.filter (fun g => g.core != 0) ++ [placedGroup (u + 2) u (u + 1)] } }

end Sys2Proof.Machine
end

