-- ==== Sys2Proof/Machine/Real.lean ====
section
/-!
DEFINITION. The correctly rounded functions of R250. FRCP, FRSQ and FSQRT divide and take roots of integers exactly. The
others enclose the exact result between two fixed-point numbers of growing precision until both ends round to one value.
-/
namespace Sys2Proof.Machine

/-! ### Quotients and roots -/

/-- The integer square root, by bisection over `fuel` bits. -/
def isqrtFuel : Nat → Nat → Nat → Nat
  | 0, _, acc => acc
  | fuel + 1, n, acc =>
    let t := acc + 2 ^ fuel
    isqrtFuel fuel n (if t * t ≤ n then t else acc)

/-- The integer square root. -/
def isqrt (n : Nat) : Nat := isqrtFuel (Nat.log2 n / 2 + 1) n 0

/-- The quotient a/b × 2^e rounded to FP32 under RNE. -/
def divRound (neg : Bool) (a b : Nat) (e : Int) : FRes :=
  let k := 64 + Nat.log2 b
  let n := a * 2 ^ k
  roundMag fp32 .rne neg (n / b) (e - k) (n % b != 0)

/-- FRCP (R250). -/
def frcp (x : Nat) : FRes :=
  match decodeF fp32 x with
  | .nan s => nanRes fp32 s
  | .inf n => ⟨fp32.sign n, 0⟩
  | .num n m e => if m = 0 then ⟨fp32.sign n + fp32.inf, flagDZ⟩ else divRound n 1 m (-e)

/-- FSQRT (R250). -/
def fsqrt (x : Nat) : FRes :=
  match decodeF fp32 x with
  | .nan s => nanRes fp32 s
  | .inf n => if n then nanRes fp32 true else ⟨fp32.inf, 0⟩
  | .num n m e =>
    if m = 0 then ⟨x, 0⟩
    else if n then nanRes fp32 true
    else
      let e2 := if e % 2 = 0 then e else e - 1
      let m2 := if e % 2 = 0 then m else 2 * m
      let n := m2 * 2 ^ 128
      let r := isqrt n
      roundMag fp32 .rne false r (e2 / 2 - 64) (r * r != n)

/-- FRSQ (R250). -/
def frsq (x : Nat) : FRes :=
  match decodeF fp32 x with
  | .nan s => nanRes fp32 s
  | .inf n => if n then nanRes fp32 true else ⟨0, 0⟩
  | .num n m e =>
    if m = 0 then ⟨fp32.sign n + fp32.inf, flagDZ⟩
    else if n then nanRes fp32 true
    else
      let e2 := if e % 2 = 0 then e else e - 1
      let m2 := if e % 2 = 0 then m else 2 * m
      -- 1/sqrt(m2 × 2^e2) = sqrt(2^200 / m2) × 2^(-100 - e2/2)
      let q := 2 ^ 200 / m2
      let r := isqrt q
      roundMag fp32 .rne false r (-100 - e2 / 2) (r * r * m2 != 2 ^ 200)

/-! ### Fixed-point series

A fixed-point number is an integer n standing for n / 2^w. Each series below is off by less than 2^16 units. -/

/-- The sum of the terms of atanh(1/n)-like series: t/(2k+1) with t divided by n² at each step. -/
def atanhTerms : Nat → Nat → Nat → Nat → Nat
  | 0, _, _, _ => 0
  | fuel + 1, t, k, d => if t = 0 then 0 else t / (2 * k + 1) + atanhTerms fuel (t / d) (k + 1) d

/-- ln 2 = 2 atanh(1/3). -/
def ln2Fix (w : Nat) : Nat := 2 * atanhTerms w (2 ^ w / 3) 0 9

/-- The alternating series of atan(1/n): t/(2k+1), signs alternating. -/
def atanTerms : Nat → Nat → Nat → Nat → Int
  | 0, _, _, _ => 0
  | fuel + 1, t, k, d => if t = 0 then 0 else (t / (2 * k + 1) : Nat) - atanTerms fuel (t / d) (k + 1) d

/-- π = 16 atan(1/5) - 4 atan(1/239). -/
def piFix (w : Nat) : Int := 16 * atanTerms w (2 ^ w / 5) 0 25 - 4 * atanTerms w (2 ^ w / 239) 0 57121

/-- Product of fixed-point numbers. -/
def fixMul (w : Nat) (a b : Int) : Int := a * b / (2 ^ w : Nat)

/-- Terms of the exponential series from t = r^k / k! on. -/
def expTerms : Nat → Nat → Int → Int → Nat → Int
  | 0, _, _, _, _ => 0
  | fuel + 1, w, r, t, k => if t.natAbs ≤ 1 then 0 else t + expTerms fuel w r (fixMul w t r / (k + 1 : Nat)) (k + 1)

/-- e^r for |r| ≤ 1. -/
def expSmall (w : Nat) (r : Int) : Int := expTerms w w r (2 ^ w : Nat) 0

/-- e^y: a fixed-point number a and a power of two k with e^y = a × 2^k. -/
def expFix (w : Nat) (y : Int) : Int × Int :=
  let l : Int := ln2Fix w
  let k := y / l
  (expSmall w (y - k * l), k)

/-- Terms of the series of sine or cosine: t is the current term, `k` its order. -/
def trigTerms : Nat → Nat → Int → Int → Nat → Int
  | 0, _, _, _, _ => 0
  | fuel + 1, w, r2, t, k =>
    if t.natAbs ≤ 1 then 0 else t - trigTerms fuel w r2 (fixMul w t r2 / ((k + 1) * (k + 2) : Nat)) (k + 2)

/-- sin r for |r| ≤ 1. -/
def sinSmall (w : Nat) (r : Int) : Int := trigTerms w w (fixMul w r r) r 1

/-- cos r for |r| ≤ 1. -/
def cosSmall (w : Nat) (r : Int) : Int := trigTerms w w (fixMul w r r) (2 ^ w : Nat) 0

/-- Series of atanh z for |z| ≤ 1/3. -/
def atanhFix : Nat → Nat → Int → Int → Nat → Int
  | 0, _, _, _, _ => 0
  | fuel + 1, w, z2, t, k => if t.natAbs ≤ 1 then 0 else t / (2 * k + 1 : Nat) + atanhFix fuel w z2 (fixMul w t z2) (k + 1)

/-- A fixed-point enclosure: the value lies between lo and hi, in units of 2^-w. -/
structure Encl where
  lo : Int
  hi : Int
  w : Nat

/-- An approximation with its error bound. -/
def around (w : Nat) (x : Int) : Encl := ⟨x - 2 ^ 24, x + 2 ^ 24, w⟩

/-- The exact integer part of x = ±m × 2^e in units of 2^-w, or an approximation of it when e is below -w. -/
def toFix (w : Nat) (n : Bool) (m : Nat) (e : Int) : Int :=
  let s := e + (w : Int)
  mant n m * (if 0 ≤ s then (2 ^ s.toNat : Nat) else 1) / (if 0 ≤ s then 1 else (2 ^ (-s).toNat : Nat))

/-- 2^x. -/
def exp2Encl (w : Nat) (n : Bool) (m : Nat) (e : Int) : Encl :=
  let x := toFix w n m e
  let k := x / (2 ^ w : Nat)
  let f := x % (2 ^ w : Nat)
  let a := expSmall w (fixMul w f (ln2Fix w))
  let s := (w : Int) + k
  if s < 32 then ⟨0, 1, w⟩ else around s.toNat a |> fun c => ⟨c.lo, c.hi, ((w : Int) - k).toNat⟩

/-- log2 x for x > 0. -/
def log2Encl (w : Nat) (m : Nat) (e : Int) : Encl :=
  let k := Nat.log2 m
  let one : Int := (2 ^ w : Nat)
  let y : Int := (m * 2 ^ w / 2 ^ k : Nat)
  let z := (y - one) * one / (y + one)
  let ln := 2 * atanhFix w w (fixMul w z z) z 0
  around w ((e + (k : Int)) * one + ln * one / (ln2Fix w : Int))

/-- sin x or cos x: the argument is reduced by multiples of π/2 held to enough bits. -/
def trigEncl (isCos : Bool) (w : Nat) (n : Bool) (m : Nat) (e : Int) : Encl :=
  let big := w + (if 0 < e then e.toNat else 0) + 32
  let x := toFix big n m e
  let h := piFix big / 2
  let k := x / h
  let r := (x - k * h) / (2 ^ (big - w) : Nat)
  let q := ((k + (if isCos then 1 else 0)) % 4).toNat
  -- halve the argument once so that it lies below 1, and double with sin 2a = 2 sin a cos a
  let a := r / 2
  let sa := sinSmall w a
  let ca := cosSmall w a
  let s := 2 * fixMul w sa ca
  let c := fixMul w ca ca - fixMul w sa sa
  around w (if q = 0 then s else if q = 1 then c else if q = 2 then -s else -c)

/-- tanh x for x > 0, from e^(2x). -/
def tanhEncl (w : Nat) (n : Bool) (m : Nat) (e : Int) : Encl :=
  let one : Int := (2 ^ w : Nat)
  let (a, k) := expFix w (-2 * (toFix w false m e))
  let t := a / (2 ^ (-k).toNat : Nat)
  let r := (one - t) * one / (one + t)
  around w (if n then -r else r)

/-- 1 / (1 + e^-x). -/
def sigmEncl (w : Nat) (n : Bool) (m : Nat) (e : Int) : Encl :=
  let one : Int := (2 ^ w : Nat)
  let x := toFix w n m e
  let (a, k) := expFix w (if x < 0 then x else -x)
  let t := a / (2 ^ (-k).toNat : Nat)
  around w ((if x < 0 then t else one) * one / (one + t))

/-- The rounding of a non-zero value inside an enclosure, when both ends agree. -/
def roundEncl (c : Encl) : Option FRes :=
  let neg := decide (c.hi ≤ 0)
  if !neg && c.lo < 0 then none
  else
    let a := if neg then c.hi.natAbs else c.lo.natAbs
    let b := if neg then c.lo.natAbs else c.hi.natAbs
    if Nat.log2 a < 40 then none
    else
      let r1 := roundMag fp32 .rne neg a (-(c.w : Int)) true
      let r2 := roundMag fp32 .rne neg b (-(c.w : Int)) true
      if r1 = r2 then some r1 else none

/-- The first precision of a list at which the enclosure decides; the last resort rounds the widest enclosure's lower end. -/
def ziv (encl : Nat → Encl) : List Nat → FRes
  | [] => roundMag fp32 .rne (decide ((encl 1024).hi ≤ 0)) (encl 1024).lo.natAbs (-((encl 1024).w : Int)) true
  | w :: r =>
    match roundEncl (encl w) with
    | some x => x
    | none => ziv encl r

/-- The precisions tried. -/
def precisions : List Nat := [128, 256, 512]

/-- A value a little below (or above) a number: m × 2^e less (or plus) something far below its rounding quantum. -/
def nudge (neg : Bool) (m : Nat) (e : Int) (up : Bool) : FRes :=
  roundMag fp32 .rne neg (if up then m * 2 ^ 64 else m * 2 ^ 64 - 1) (e - 64) true

/-- FEX2 (R250). -/
def fex2 (x : Nat) : FRes :=
  match decodeF fp32 x with
  | .nan s => nanRes fp32 s
  | .inf n => ⟨if n then 0 else fp32.inf, 0⟩
  | .num n m e =>
    if m = 0 then ⟨fp32.one, 0⟩
    else
      let msb := e + (Nat.log2 m : Int)
      if msb ≥ 8 then (if n then roundMag fp32 .rne false (2 ^ 30) (-400) true else roundMag fp32 .rne false (2 ^ 30) 400 true)
      else if msb < -40 then nudge false 1 0 (!n)
      else
        let i := mant n m * (if 0 ≤ e then (2 ^ e.toNat : Nat) else 1)
        if 0 ≤ e then roundMag fp32 .rne false 1 i false
        else if m % 2 ^ (-e).toNat = 0 then roundMag fp32 .rne false 1 (mant n (m / 2 ^ (-e).toNat)) false
        else ziv (fun w => exp2Encl w n m e) precisions

/-- FLG2 (R250). -/
def flg2 (x : Nat) : FRes :=
  match decodeF fp32 x with
  | .nan s => nanRes fp32 s
  | .inf n => if n then nanRes fp32 true else ⟨fp32.inf, 0⟩
  | .num n m e =>
    if m = 0 then ⟨fp32.sign true + fp32.inf, flagDZ⟩
    else if n then nanRes fp32 true
    else if m = 2 ^ Nat.log2 m then intToF fp32 .rne (e + (Nat.log2 m : Int))
    else ziv (fun w => log2Encl w m e) precisions

/-- FSIN (R250). -/
def fsin (x : Nat) : FRes :=
  match decodeF fp32 x with
  | .nan s => nanRes fp32 s
  | .inf _ => nanRes fp32 true
  | .num n m e =>
    if m = 0 then ⟨x, 0⟩
    else if e + (Nat.log2 m : Int) < -20 then nudge n m e false
    else ziv (fun w => trigEncl false w n m e) precisions

/-- FCOS (R250). -/
def fcos (x : Nat) : FRes :=
  match decodeF fp32 x with
  | .nan s => nanRes fp32 s
  | .inf _ => nanRes fp32 true
  | .num n m e =>
    if m = 0 then ⟨fp32.one, 0⟩
    else if e + (Nat.log2 m : Int) < -20 then nudge false 1 0 false
    else ziv (fun w => trigEncl true w n m e) precisions

/-- FTANH (R250). -/
def ftanh (x : Nat) : FRes :=
  match decodeF fp32 x with
  | .nan s => nanRes fp32 s
  | .inf n => ⟨fp32.sign n + fp32.one, 0⟩
  | .num n m e =>
    let msb := e + (Nat.log2 m : Int)
    if m = 0 then ⟨x, 0⟩
    else if msb < -20 then nudge n m e false
    else if msb ≥ 4 then nudge n 1 0 false
    else ziv (fun w => tanhEncl w n m e) precisions

/-- FSIGM (R250). -/
def fsigm (x : Nat) : FRes :=
  match decodeF fp32 x with
  | .nan s => nanRes fp32 s
  | .inf n => ⟨if n then 0 else fp32.one, 0⟩
  | .num n m e =>
    let msb := e + (Nat.log2 m : Int)
    if m = 0 then ⟨0x3F000000, 0⟩
    else if msb < -40 then nudge false 1 (-1) (!n)
    else if msb ≥ 7 then (if n then roundMag fp32 .rne false (2 ^ 30) (-400) true else nudge false 1 0 false)
    else ziv (fun w => sigmEncl w n m e) [256, 512]

end Sys2Proof.Machine
end

