-- ==== Sys2Proof/Machine/Float.lean ====
section
/-!
DEFINITION. Floating-point, conversion and TXB block instructions (R330-R341).
-/
namespace Sys2Proof.Machine

/-- One lane's 32-bit result with its flags. -/
def wrF (lane r : Nat) (x : FRes) : Writes := { v := [(lane, r, BitVec.ofNat 64 x.bits)], f := [(lane, x.flags)] }

/-- A TR floating-point instruction (R332): op of the mode, a, b and v[D]; the result is clamped under SAT. -/
def fpTR (o : FormTR) (rounds readsD : Bool) (op : Rnd → Nat → Nat → Nat → FRes) : State → Host.Outcome State Fault Refusal :=
  laneWord (fun _ => { descTR o readsD with rounds := rounds, satOk := true }) []
    (fun i l => wrF l o.d.toNat (satIf i.sat fp32
      (op i.rnd (i.a l o.a.toNat).toNat (i.b o.m l o.b.toNat).toNat (i.v l o.d.toNat).toNat)))

/-- FADD (R332). -/
def execFadd (o : FormTR) := fpTR o true false (fun m a b _ => fadd fp32 m a b)
/-- FSUB (R332). -/
def execFsub (o : FormTR) := fpTR o true false (fun m a b _ => fsub fp32 m a b)
/-- FMUL (R332). -/
def execFmul (o : FormTR) := fpTR o true false (fun m a b _ => fmul fp32 m a b)
/-- FFMA (R332). -/
def execFfma (o : FormTR) := fpTR o true true (fun m a b c => ffma fp32 m a b c)
/-- FMIN (R332, R239). -/
def execFmin (o : FormTR) := fpTR o false false (fun _ a b _ => fminmax fp32 false a b)
/-- FMAX (R332, R239). -/
def execFmax (o : FormTR) := fpTR o false false (fun _ a b _ => fminmax fp32 true a b)

/-- An operation on both BF16 halves (R333): the flags of both are ORed. -/
def halves (sat : Bool) (op : Nat → Nat → Nat → FRes) (a b c : Nat) : FRes :=
  let lo := satIf sat bf16 (op (a % 65536) (b % 65536) (c % 65536))
  let hi := satIf sat bf16 (op (a / 65536) (b / 65536) (c / 65536))
  ⟨lo.bits + 65536 * hi.bits, lo.flags ||| hi.flags⟩

/-- A TR instruction on BF16 halves (R333). -/
def bfTR (o : FormTR) (readsD : Bool) (op : Rnd → Nat → Nat → Nat → FRes) : State → Host.Outcome State Fault Refusal :=
  laneWord (fun _ => { descTR o readsD with rounds := true, satOk := true }) []
    (fun i l => wrF l o.d.toNat (halves i.sat (op i.rnd) (i.a l o.a.toNat).toNat (i.b o.m l o.b.toNat).toNat (i.v l o.d.toNat).toNat))

/-- BMUL2 (R333). -/
def execBmul2 (o : FormTR) := bfTR o false (fun m a b _ => fmul bf16 m a b)
/-- BFMA2 (R333). -/
def execBfma2 (o : FormTR) := bfTR o true (fun m a b c => ffma bf16 m a b c)

/-! ### Compares (R334) -/

/-- A float compare: the condition on two numbers, its value when an operand is a NaN, and whether every NaN sets NV. -/
def fpCmp (o : FormCmp) (cc : FVal → FVal → Bool) (onNan allNan : Bool) : State → Host.Outcome State Fault Refusal :=
  laneWord (fun _ => descCmp o) []
    (fun i l =>
      let x := decodeF fp32 (i.a l o.a.toNat).toNat
      let y := decodeF fp32 (i.b o.m l o.b.toNat).toNat
      let nan := x.isNan || y.isNan
      let nv := x.isSnan || y.isSnan || (allNan && nan)
      { cmpWrite i o l (if nan then onNan else cc x y) with f := [(l, flagIf nv flagNV)] })

/-- FCMPEQ (R334). -/
def execFcmpeq (o : FormCmp) := fpCmp o fvalEq false false
/-- FCMPLT (R334). -/
def execFcmplt (o : FormCmp) := fpCmp o fvalLt false true
/-- FCMPLE (R334). -/
def execFcmple (o : FormCmp) := fpCmp o (fun x y => !fvalLt y x) false true
/-- FCMPUN (R334). -/
def execFcmpun (o : FormCmp) := fpCmp o (fun _ _ => false) true false

/-! ### XFN functions (R335-R338) -/

/-- An XFN floating-point function of v[A]; SAT clamps an FP32 result. -/
def fpXfn (o : FormTF) (rounds sat : Bool) (fmt : Fmt) (f : Rnd → Nat → FRes) : State → Host.Outcome State Fault Refusal :=
  laneWord (fun _ => { descTF o with rounds := rounds, satOk := sat }) []
    (fun i l => wrF l o.d.toNat (satIf (sat && i.sat) fmt (f i.rnd (i.a l o.a.toNat).toNat)))

/-- I2F.S (R335). -/
def execI2fS (o : FormTF) := fpXfn o true true fp32 (fun m a => intToF fp32 m (signedOf 32 a))
/-- I2F.Z (R335). -/
def execI2fZ (o : FormTF) := fpXfn o true true fp32 (fun m a => intToF fp32 m (a : Int))

/-- A float-to-integer result in 32 bits (R243). -/
def toInt32 (lo hi : Int) (m : Rnd) (a : Nat) : FRes :=
  let r := fToInt m lo hi (decodeF fp32 a)
  ⟨(BitVec.ofInt 32 r.1).toNat, r.2⟩

/-- F2I.S (R335). -/
def execF2iS (o : FormTF) := fpXfn o true false fp32 (toInt32 (-2147483648) 2147483647)
/-- F2I.Z (R335). -/
def execF2iZ (o : FormTF) := fpXfn o true false fp32 (toInt32 0 4294967295)
/-- F2I8S (R335). -/
def execF2i8s (o : FormTF) := fpXfn o true false fp32 (toInt32 (-128) 127)

/-- A sign function: a NaN gives the canonical NaN. -/
def signFn (f : Nat → Nat) (a : Nat) : FRes :=
  match decodeF fp32 a with
  | .nan s => nanRes fp32 s
  | _ => ⟨f a, 0⟩

/-- FNEG (R335). -/
def execFneg (o : FormTF) := fpXfn o false false fp32 (fun _ => signFn (fun a => a ^^^ 0x80000000))
/-- FABS (R335). -/
def execFabs (o : FormTF) := fpXfn o false false fp32 (fun _ => signFn (fun a => a % 0x80000000))
/-- FSAT (R335, R240). -/
def execFsat (o : FormTF) := fpXfn o false false fp32 (fun _ a => ⟨satF fp32 a, flagIf (decodeF fp32 a).isSnan flagNV⟩)
/-- FRND (R335). -/
def execFrnd (o : FormTF) := fpXfn o true true fp32 (fun m a => frnd fp32 m a)
/-- FCLASS (R336). -/
def execFclass (o : FormTF) := fpXfn o false false fp32 (fun _ a => ⟨fclass a, 0⟩)

/-- A correctly rounded function (R337): the result and its flags are deferred (R331). -/
def fnXfn (o : FormTF) (f : Nat → FRes) : State → Host.Outcome State Fault Refusal :=
  laneWord (fun _ => { descTF o with satOk := true }) [o.d.toNat, 128]
    (fun i l => wrF l o.d.toNat (satIf i.sat fp32 (f (i.a l o.a.toNat).toNat)))

/-- FRCP (R250, R337). -/
def execFrcp (o : FormTF) := fnXfn o frcp
/-- FRSQ (R250, R337). -/
def execFrsq (o : FormTF) := fnXfn o frsq
/-- FSQRT (R250, R337). -/
def execFsqrt (o : FormTF) := fnXfn o fsqrt
/-- FEX2 (R250, R337). -/
def execFex2 (o : FormTF) := fnXfn o fex2
/-- FLG2 (R250, R337). -/
def execFlg2 (o : FormTF) := fnXfn o flg2
/-- FSIN (R250, R337). -/
def execFsin (o : FormTF) := fnXfn o fsin
/-- FCOS (R250, R337). -/
def execFcos (o : FormTF) := fnXfn o fcos
/-- FTANH (R250, R337). -/
def execFtanh (o : FormTF) := fnXfn o ftanh
/-- FSIGM (R250, R337). -/
def execFsigm (o : FormTF) := fnXfn o fsigm

/-- F2BF (R338). -/
def execF2bf (o : FormTF) := fpXfn o true true bf16 (fun m a => fconv fp32 bf16 m a)
/-- BF2F (R338). -/
def execBf2f (o : FormTF) := fpXfn o false false fp32 (fun m a => fconv bf16 fp32 m (a % 65536))
/-- BF2FH (R338). -/
def execBf2fh (o : FormTF) := fpXfn o false false fp32 (fun m a => fconv bf16 fp32 m (a / 65536))
/-- F2H (R338). -/
def execF2h (o : FormTF) := fpXfn o true false fp16 (fun m a => fconv fp32 fp16 m a)
/-- H2F (R338). -/
def execH2f (o : FormTF) := fpXfn o false false fp32 (fun m a => fconv fp16 fp32 m (a % 65536))

/-- PKBF2 (R338): A names two registers. -/
def execPkbf2 (o : FormTF) : State → Host.Outcome State Fault Refusal :=
  laneWord (fun _ =>
    { descTF o with a := [o.a.toNat, o.a.toNat + 1], even := [o.a.toNat], rounds := true, satOk := true }) []
    (fun i l =>
      let lo := satIf i.sat bf16 (fconv fp32 bf16 i.rnd (i.a l o.a.toNat).toNat)
      let hi := satIf i.sat bf16 (fconv fp32 bf16 i.rnd (i.a l (o.a.toNat + 1)).toNat)
      wrF l o.d.toNat ⟨lo.bits + 65536 * hi.bits, lo.flags ||| hi.flags⟩)

/-- UNPBF2 (R338): D names two registers. -/
def execUnpbf2 (o : FormTF) : State → Host.Outcome State Fault Refusal :=
  laneWord (fun _ => { descTF o with dst := [o.d.toNat, o.d.toNat + 1], even := [o.d.toNat] }) []
    (fun i l =>
      let a := (i.a l o.a.toNat).toNat
      let lo := fconv bf16 fp32 .rne (a % 65536)
      let hi := fconv bf16 fp32 .rne (a / 65536)
      { v := [(l, o.d.toNat, BitVec.ofNat 64 lo.bits), (l, o.d.toNat + 1, BitVec.ofNat 64 hi.bits)]
        f := [(l, lo.flags ||| hi.flags)] })

/-! ### TXB block functions (R339-R341) -/

/-- The lanes of a mask in which some of the registers is pending. -/
def Iss.pendIn (i : Iss) (regs : List Nat) (m : LaneMask) : LaneMask :=
  m &&& regs.foldl (fun (acc : LaneMask) r => acc ||| sget i.g.regs.pend r) 0

/-- An encoder (R340): every lane of the entry receives its element; lanes that do not take part contribute +0. -/
def txbEncWord (o : FormTF) (t : Txb) : State → Host.Outcome State Fault Refusal :=
  laneWord (fun i =>
    let part := i.real (i.act o.g)
    { g := o.g, s := o.s, agents := .groupOnly, src := [o.a.toNat, o.a.toNat + 1], dst := [o.d.toNat], even := [o.a.toNat]
      rounds := true, all := true
      hz := some (i.pendIn [o.d.toNat] (i.real i.e.mask) ||| i.pendIn [o.a.toNat] part |||
        i.pendIn [o.a.toNat + 1] (i.e.mask &&& 1)) }) [o.d.toNat, 128]
    (fun i l =>
      let part := i.real (i.act o.g)
      let ctl := if i.e.mask.getLsbD 0 then (i.v 0 (o.a.toNat + 1)).toNat else 0
      let sup := if bit ctl 16 then some (bits ctl 7 0, bits ctl 15 8) else none
      let vals := allLanes.map (fun j =>
        let x := if part.getLsbD j then (i.v j o.a.toNat).toNat else 0
        ({ neg := x.testBit 31, val := decodeF fp32 x, mode := i.rnd } : TxbIn))
      let enc := txbEncode t sup vals
      let e := enc.2.2.getD l ⟨0, 0⟩
      let hi := if l = 0 then enc.1 * 256 else if l = 1 then enc.2.1 * 256 else 0
      { v := [(l, o.d.toNat, BitVec.ofNat 64 (e.bits + hi))], f := if part.getLsbD l then [(l, e.flags)] else [] })

/-- TXBENC8 (R340). -/
def execTxbenc8 (o : FormTF) := txbEncWord o txb8
/-- TXBENC4 (R340). -/
def execTxbenc4 (o : FormTF) := txbEncWord o txb4

/-- A decoder (R341): exponents come from lanes 0 and 1 while they are in the entry, and read 0xFF otherwise. -/
def txbDecWord (o : FormTF) (t : Txb) : State → Host.Outcome State Fault Refusal :=
  laneWord (fun i =>
    { g := o.g, s := o.s, agents := .groupOnly, src := [o.a.toNat], dst := [o.d.toNat]
      hz := some (i.pendIn [o.a.toNat, o.d.toNat] (i.real (i.act o.g)) ||| i.pendIn [o.a.toNat] (i.e.mask &&& 3)) }) [o.d.toNat, 128]
    (fun i l =>
      let ex := fun (j : Nat) => if i.e.mask.getLsbD j then bits (i.v j o.a.toNat).toNat 15 8 else 0xFF
      let x := txbDecode t (ex 0) (ex 1) ((i.v l o.a.toNat).toNat % 2 ^ (t.mbits + 2))
      let r := roundTo fp32 .rne x
      wrF l o.d.toNat ⟨r.bits, r.flags ||| flagIf x.isNan flagNV⟩)

/-- TXBDEC8 (R341). -/
def execTxbdec8 (o : FormTF) := txbDecWord o txb8
/-- TXBDEC4 (R341). -/
def execTxbdec4 (o : FormTF) := txbDecWord o txb4

end Sys2Proof.Machine
end

