-- ==== Sys2Proof/Machine/Gcm.lean ====
section
/-!
DEFINITION. AES-GCM-256, which encrypts and authenticates the flits of a link (R27, R29). The spec names the algorithm; it is computed as
FIPS 197 and SP 800-38D define it (assumption log 60).
-/
namespace Sys2Proof.Machine

/-! ### AES-256 -/

/-- Twice an element of the field of 256. -/
def gfTwice (x : Byte) : Byte := (x <<< 1) ^^^ (if x.msb then 0x1B else 0)

/-- The product of two elements, from the highest bit of the second down. -/
def gfTimes (x y : Byte) : Byte :=
  (List.range 8).foldl (fun acc i => gfTwice acc ^^^ (if y.getMsbD i then x else 0)) 0

/-- The 254th power: the inverse, and 0 of 0. -/
def gfInverse (x : Byte) : Byte :=
  (List.range 6).foldl (fun acc _ => gfTimes (gfTimes acc acc) x) x |> fun y => gfTimes y y

/-- The substitution of a byte. -/
def aesSub (x : Byte) : Byte :=
  let y := gfInverse x
  y ^^^ y.rotateLeft 1 ^^^ y.rotateLeft 2 ^^^ y.rotateLeft 3 ^^^ y.rotateLeft 4 ^^^ 0x63

/-- Two byte strings added bit by bit. -/
def xorBytes (a b : List Byte) : List Byte := List.zipWith (· ^^^ ·) a b

/-- The words of the key schedule, each of four bytes, up to word n + 7. -/
def aesWords (key : List Byte) (n : Nat) : List (List Byte) :=
  (List.range n).foldl (fun ws j =>
    let t := ws.getD (j + 7) []
    let u := if j % 8 = 0 then
        match (t.drop 1 ++ t.take 1).map aesSub with
        | b :: r => (b ^^^ BitVec.ofNat 8 (2 ^ (j / 8))) :: r
        | [] => []
      else if j % 8 = 4 then t.map aesSub else t
    ws ++ [xorBytes (ws.getD j []) u])
    ((List.range 8).map (fun j => (key.drop (4 * j)).take 4))

/-- The fifteen round keys of a key of 32 bytes. -/
def aesKeys (key : List Byte) : List (List Byte) :=
  let ws := aesWords key 52
  (List.range 15).map (fun j => ((ws.drop (4 * j)).take 4).flatten)

/-- Row r of the four columns moves left by r. -/
def aesShift (s : List Byte) : List Byte := (List.range 16).map (fun i => s.getD ((i + 4 * (i % 4)) % 16) 0)

/-- Each byte of a column becomes twice itself, three times the next, and the two after it. -/
def aesMix (s : List Byte) : List Byte :=
  (List.range 16).map (fun i =>
    let at_ := fun d => s.getD (i / 4 * 4 + (i + d) % 4) 0
    gfTwice (at_ 0 ^^^ at_ 1) ^^^ at_ 1 ^^^ at_ 2 ^^^ at_ 3)

/-- The rounds after the first round key: the last one does not mix. -/
def aesRounds : List (List Byte) → List Byte → List Byte
  | [], s => s
  | [k], s => xorBytes k (aesShift (s.map aesSub))
  | k :: r, s => aesRounds r (xorBytes k (aesMix (aesShift (s.map aesSub))))

/-- A block of 16 bytes encrypted under round keys. -/
def aesBlock (ks : List (List Byte)) (b : List Byte) : List Byte := aesRounds ks.tail (xorBytes (ks.headD []) b)

/-! ### Galois counter mode -/

/-- A block as an element of the field of 2^128, its first bit the most significant. -/
def blockNum (b : List Byte) : BitVec 128 := b.foldl (fun n x => (n <<< 8) ||| x.setWidth 128) 0

/-- The product of two elements of the field of 2^128. -/
def ghashTimes (x y : BitVec 128) : BitVec 128 :=
  ((List.range 128).foldl (fun (zv : BitVec 128 × BitVec 128) i =>
    (if x.getMsbD i then zv.1 ^^^ zv.2 else zv.1,
     (zv.2 >>> 1) ^^^ (if zv.2.getLsbD 0 then 0xE1000000000000000000000000000000 else 0))) (0, y)).1

/-- A byte string filled with zeros to whole blocks, as elements. -/
def blocksOf : Nat → List Byte → List (BitVec 128)
  | 0, _ => []
  | n + 1, b => blockNum (slice b 0 16) :: blocksOf n (b.drop 16)

/-- The hash of additional data and ciphertext under the hash key. -/
def ghash (h : BitVec 128) (aad text : List Byte) : BitVec 128 :=
  (blocksOf ((aad.length + 15) / 16) aad ++ blocksOf ((text.length + 15) / 16) text ++
    [BitVec.ofNat 128 (aad.length * 8 * 2 ^ 64 + text.length * 8)]).foldl (fun y x => ghashTimes (y ^^^ x) h) 0

/-- The counter block of a 12-byte initialisation vector. -/
def gcmCounter (iv : List Byte) (n : Nat) : List Byte := iv ++ (bytesOf 4 n).reverse

/-- n blocks of the key stream, from counter 2 on. -/
def gcmStream (ks : List (List Byte)) (iv : List Byte) (n : Nat) : List Byte :=
  (List.range n).flatMap (fun j => aesBlock ks (gcmCounter iv (j + 2)))

/-- Encryption, and decryption, of a text. -/
def gcmText (ks : List (List Byte)) (iv text : List Byte) : List Byte :=
  xorBytes text (gcmStream ks iv ((text.length + 15) / 16))

/-- The tag of additional data and ciphertext. -/
def gcmTag (ks : List (List Byte)) (iv aad cipher : List Byte) : List Byte :=
  xorBytes (aesBlock ks (gcmCounter iv 1))
    ((bytesOf 16 (ghash (blockNum (aesBlock ks (List.replicate 16 0))) aad cipher).toNat).reverse)

end Sys2Proof.Machine
end

