-- ==== Sys2Proof/Machine/Flit.lean ====
section
/-!
DEFINITION. The 256 bytes of a flit (R27, R28): the link header, the CRC, and how a flit is encrypted, checked and opened (R29, R30).
-/
namespace Sys2Proof.Machine

/-! ### The link header (R28) -/

end Sys2Proof.Machine

namespace Sys2Proof

/-- The header as a number, its bit i being bit i of R28's layout. -/
def LinkHeader.num (h : LinkHeader) : Nat :=
  h.ftype.toNat + h.seq.toNat * 2 ^ 4 + h.ack.toNat * 2 ^ 16 + h.creq.toNat * 2 ^ 28 + h.crsp.toNat * 2 ^ 33 + h.cctl.toNat * 2 ^ 38 +
  (if h.keysel then 2 ^ 43 else 0) + h.rsvd.toNat * 2 ^ 44

end Sys2Proof

namespace Sys2Proof.Machine

/-- The header that a number holds. -/
def headerOf (n : Nat) : LinkHeader :=
  { ftype := BitVec.ofNat 4 n, seq := BitVec.ofNat 12 (n / 2 ^ 4), ack := BitVec.ofNat 12 (n / 2 ^ 16), creq := BitVec.ofNat 5 (n / 2 ^ 28)
    crsp := BitVec.ofNat 5 (n / 2 ^ 33), cctl := BitVec.ofNat 5 (n / 2 ^ 38), keysel := n.testBit 43, rsvd := BitVec.ofNat 20 (n / 2 ^ 44) }

/-! ### CRC and FEC (R27) -/

/-- A byte enters the CRC, its highest bit first; the polynomial is that of ECMA-182. -/
def crcByte (c : DWord) (b : Byte) : DWord :=
  (List.range 8).foldl (fun c _ => if c.msb then (c <<< 1) ^^^ 0x42F0E1EBA9EA3693 else c <<< 1) (c ^^^ (b.setWidth 64 <<< 56))

/-- The CRC-64 of ECMA-182 of some bytes. -/
def crc64 (bs : List Byte) : DWord := bs.foldl crcByte 0

/-- The Reed-Solomon check symbols: the spec names neither field nor generator, so each is a free function of the bytes they check. -/
def fecBytes (bs : List Byte) : List Byte := (List.range 16).map (Config.fecSymbol (numOf bs))

/-! ### Encryption (R29) -/

/-- The initialisation vector of a counter value: the link salt, then the counter. -/
def LinkKey.iv (k : LinkKey) (counter : Nat) : List Byte := bytesOf 4 k.salt.toNat ++ bytesOf 8 counter

/-- The round keys of a link key. -/
def LinkKey.rounds (k : LinkKey) : List (List Byte) := aesKeys (bytesOf 32 k.key.toNat)

/-- The bytes that the CRC covers: the header, the encrypted transaction area, and the tag over both. -/
def SentFlit.body (f : SentFlit) : List Byte :=
  let h := bytesOf 8 f.header.num
  let c := gcmText f.key.rounds (f.key.iv f.counter) (slice (bytesOfUnits f.units) 0 208)
  h ++ c ++ gcmTag f.key.rounds (f.key.iv f.counter) h c

/-- The 256 bytes that leave for the lanes. -/
def SentFlit.image (f : SentFlit) : List Byte :=
  let b := f.body ++ bytesOf 8 (crc64 f.body).toNat
  b ++ fecBytes b

/-! ### Reception (R30) -/

end Sys2Proof.Machine

namespace Sys2Proof

open Sys2Proof.Machine

/-- The bytes that the lanes deliver. -/
def RxSlot.delivered (x : RxSlot) : List Byte :=
  x.errors.foldl (fun bs e => bs.set e.1 e.2) (slice x.bytes 0 256)

/-- FEC: up to eight byte errors are corrected; more stand. -/
def RxSlot.corrected (x : RxSlot) : List Byte :=
  let sent := slice x.bytes 0 256
  if ((sent.zip x.delivered).filter (fun b => b.1 != b.2)).length ≤ 8 then sent else x.delivered

/-- The CRC of the corrected flit holds. -/
def RxSlot.crcGood (x : RxSlot) : Bool := numOf (slice x.corrected 232 8) == (crc64 (x.corrected.take 232)).toNat

/-- The header of the corrected flit. -/
def RxSlot.header (x : RxSlot) : LinkHeader := headerOf (field x.corrected 0 8)

/-- The tag of the corrected flit fits a key and a counter. -/
def RxSlot.tagGood (x : RxSlot) (k : LinkKey) (counter : Nat) : Bool :=
  slice x.corrected 216 16 == gcmTag k.rounds (k.iv counter) (slice x.corrected 0 8) (slice x.corrected 8 208)

/-- The packet units of the corrected flit, decrypted. -/
def RxSlot.units (x : RxSlot) (k : LinkKey) (counter : Nat) : List PUnit :=
  unitsOf 13 (gcmText k.rounds (k.iv counter) (slice x.corrected 8 208))

end Sys2Proof
end

