-- ==== Sys2Proof/Machine/Link.lean ====
section
/-!
DEFINITION. Yilwick links: lanes (R26), flits (R27, R28), encryption and retry (R29, R30), ports that go down (R38), port lists (R37), and
the time exchange (R45).
-/
namespace Sys2Proof.Machine

/-- Abten records an event. -/
def Sys.recordEvent (y : Sys) (k : MgmtEvent) (n : Nat) : Sys := { y with events := y.events ++ [(k, n)] }

/-! ### Ports that go down (R26, R38) -/

/-- A packet that waited on a port that went down goes another way; class O requests are held as R38 has it. -/
def Sys.reroute (y : Sys) (p : Packet) : Sys :=
  if p.isRequest && p.cls == 0 && y.accesses.any (fun a => a.packet == some p && a.isFlight) then
    { y with accesses := y.accesses.map (fun a => if a.packet == some p && a.isFlight then { a with sent := false } else a) }
  else (y.transmit p).2

/-- The list of a destination once a port of it has failed: class O moves to the next port that is up. -/
def Sys.rotate (y : Sys) (n : Nat) (l : List Nat) : List Nat :=
  if l.head? = some n then
    match l.find? (fun k => (y.port k).up) with
    | some k => k :: l.filter (fun j => j != k)
    | none => l
  else l

/-- A port that cannot hold four lanes goes down: its unacknowledged flits are not sent again, and its traffic moves. -/
def Sys.portDown (y : Sys) (now n : Nat) : Sys :=
  let q := y.port n
  let lost := q.retryBuf.foldl (fun m f => m + (decodePackets 13 f.2).length) 0
  let y1 := y.modPort n (fun q => { q with
    lanes := 0, queue := [], retryBuf := [], retryDue := [], retryCount := 0, unacked := q.unacked + lost })
  let y2 : Sys := { y1 with portLists := y1.portLists.map (fun e => (e.1, y1.rotate n e.2)) }
  ((q.queue.foldl (fun z p => z.reroute p) y2).sendAll now).recordEvent .portDown n

/-- LANE_FAILURE (R26): the port retrains at four lanes, or goes down. -/
def execLaneFailure : State → Host.Outcome State Fault Refusal :=
  eventNext (fun s => match s.sys.ev with
    | some (.laneFailure n four) =>
      if 18 ≤ n || (s.sys.port n).lanes = 0 then Eff.none s
      else if four then { sys := s.sys.modPort n (fun q => { q with lanes := 4 }) }
      else { sys := s.sys.portDown s.gtime n }
    | _ => Eff.none s)

/-! ### Transmission (R27-R30) -/

/-- Whole packets of one virtual channel that fit in a transaction area of 13 units: their units, and what is left of the queue. -/
def packFlit (vc : Nat) : Nat → List Packet → List PUnit × List Packet
  | _, [] => ([], [])
  | room, p :: r =>
    let us := encodePacket p
    if p.vc = vc && us.length ≤ room then
      let x := packFlit vc (room - us.length) r
      (us ++ x.1, x.2)
    else if p.vc = vc then ([], p :: r)
    else
      let x := packFlit vc room r
      (x.1, p :: x.2)

/-- Credits that a port may spend on a virtual channel. How many a link starts with the spec does not say: as many as one header can
return (assumption log 16). -/
def Port.credit (q : Port) (vc : Nat) : Nat := tget q.credits vc 31

/-- What fills the next flit slot of a port: its type, sequence number and units, and the port after it. New data is the first packet whose
virtual channel has a credit, so that no channel waits for another (R31), and what fits behind it. -/
def Port.nextFlit (q : Port) : Nat × BitVec 12 × List PUnit × Port :=
  if q.askRetry then (2, 0, [], { q with askRetry := false })
  else
    match q.retryDue with
    | n :: r => (1, n, ((q.retryBuf.find? (fun f => f.1 == n)).map Prod.snd).getD [], { q with retryDue := r })
    | [] =>
      match q.queue.find? (fun p => decide (0 < q.credit p.vc)) with
      | none => (0, 0, [], q)
      | some p =>
        if 512 ≤ q.retryBuf.length then (0, 0, [], q)
        else
          let x := packFlit p.vc 13 q.queue
          (1, q.txSeq, x.1, { q with queue := x.2, txSeq := q.txSeq + 1, retryBuf := q.retryBuf ++ [(q.txSeq, x.1)]
                                     credits := tset q.credits p.vc (q.credit p.vc - 1) })

/-- The credits of a virtual channel that a header can return. -/
def Port.returns (q : Port) (vc : Nat) : Nat := min 31 (tget q.owed vc 0)

/-- One flit slot is transmitted, under a counter value of its own (R29). -/
def Port.transmit (q : Port) : Port :=
  match keyInUse q.txKeys q.txKey q.txCounter with
  | none => q
  | some k =>
    let (t, n, us, q1) := q.nextFlit
    let h : LinkHeader :=
    { ftype := BitVec.ofNat 4 t, seq := n, ack := q.rxSeq - 1, creq := BitVec.ofNat 5 (q.returns 0), crsp := BitVec.ofNat 5 (q.returns 1)
      cctl := BitVec.ofNat 5 (q.returns 2), keysel := q.txKey, rsvd := 0 }
    { q1 with
      owed := (List.range 3).foldl (fun l vc => tset l vc (tget l vc 0 - q.returns vc)) q.owed, txCounter := q.txCounter + 1
      sent := q1.sent ++ [⟨h, us, k, q.txCounter⟩] }

/-- FLIT_TRANSMIT (R29): a retry request, a retransmission, new data, or an idle flit. -/
def execFlitTransmit : State → Host.Outcome State Fault Refusal :=
  eventNext (fun s => match s.sys.ev with
    | some (.flitTransmit n) =>
      if 18 ≤ n || !(s.sys.port n).up then Eff.none s else { sys := s.sys.modPort n Port.transmit }
    | _ => Eff.none s)

/-! ### Reception (R30) -/

/-- Flits that an ACK covers leave the retry buffer. -/
def Port.acknowledge (q : Port) (a : BitVec 12) : Port :=
  if q.retryBuf.any (fun f => f.1 == a) then
    let rest := (q.retryBuf.dropWhile (fun f => f.1 != a)).drop 1
    { q with retryBuf := rest, retryDue := q.retryDue.filter (fun n => rest.any (fun f => f.1 == n)), acked := a, retryCount := 0 }
  else q

/-- The other end asks for a retry: everything after its ACK goes again. Sixteen in a row for one flit retrain the port. At how many lanes
it trains then, R30 does not say: it keeps those it has, and the retrain is recorded as an event (DESIGN CHOICE, assumption log 61). -/
def Sys.retryFrom (y : Sys) (n : Nat) (a : BitVec 12) : Sys :=
  let y1 := y.modPort n (fun q =>
    let p := q.acknowledge a
    { p with retryDue := p.retryBuf.map Prod.fst, retryCount := p.retryCount + 1 })
  if 16 ≤ (y1.port n).retryCount then (y1.modPort n (fun q => { q with retryCount := 0 })).recordEvent .retrain n else y1

/-- RETRY_REQUEST (R30). -/
def execRetryRequest : State → Host.Outcome State Fault Refusal :=
  eventNext (fun s => match s.sys.ev with
    | some (.retryRequest n a) =>
      if 18 ≤ n || !(s.sys.port n).up then Eff.none s else { sys := s.sys.retryFrom n a }
    | _ => Eff.none s)

/-- Packets of an accepted flit: a malformed one is dealt with at once, the others wait in the receive buffer of their virtual channel. A
flit with nothing to keep returns its credit at once. -/
def Sys.deliverFlit (y : Sys) (now n : Nat) (us : List PUnit) : Sys :=
  let ps := decodePackets 13 us
  let kept := ps.filter (fun p => !p.malformed)
  let vc := match ps with | p :: _ => p.vc | [] => 0
  let y1 := y.modPort n (fun q =>
    if kept.isEmpty then (if ps.isEmpty then q else { q with owed := tmod q.owed vc 0 (· + 1) })
    else { q with rxBuf := q.rxBuf ++ [(vc, kept)] })
  ps.foldl (fun z p => if p.malformed then z.malformed now p else { z with inbox := z.inbox ++ [p] }) y1

/-- A tag fails although the CRC is good: the link goes down and its keys are discarded. -/
def Sys.linkAlarm (y : Sys) (n : Nat) : Sys :=
  (y.modPort n (fun q => { q with rxKeys := [], txKeys := [] })).recordEvent .security n

/-- The credits that a header returns. -/
def Port.credited (q : Port) (h : LinkHeader) : Port :=
  { q with credits := [(0, q.credit 0 + h.creq.toNat), (1, q.credit 1 + h.crsp.toNat), (2, q.credit 2 + h.cctl.toNat)] }

/-- A flit slot is received: FEC and CRC, the tag, then SEQ. -/
def Sys.receiveSlot (y : Sys) (now n : Nat) (x : RxSlot) : Sys :=
  let q := y.port n
  let y1 := y.modPort n (fun q => { q with rxCounter := q.rxCounter + 1 })
  let h := x.header
  if !x.crcGood then y1.modPort n (fun q => { q with corrupt := q.corrupt + 1, askRetry := true })
  else
    match (keyInUse q.rxKeys h.keysel q.rxCounter).filter (fun k => x.tagGood k q.rxCounter) with
    | none => y1.linkAlarm n
    | some k =>
      if 4 ≤ h.ftype.toNat then y1.modPort n (fun q => { q with corrupt := q.corrupt + 1 })
      else
        let y2 := y1.modPort n (fun q => (q.acknowledge h.ack).credited h)
        if h.ftype = 2 then y2.retryFrom n h.ack
        else if h.ftype != 1 then y2
        else if h.seq = q.rxSeq then
          (y2.modPort n (fun q => { q with rxSeq := q.rxSeq + 1, gapSeen := false })).deliverFlit now n (x.units k q.rxCounter)
        else y2.modPort n (fun q => { q with askRetry := q.askRetry || !q.gapSeen, gapSeen := true })

/-- FLIT_RECEIVE (R30). -/
def execFlitReceive : State → Host.Outcome State Fault Refusal :=
  eventNext (fun s => match s.sys.ev with
    | some (.flitReceive n x) =>
      if 18 ≤ n || !(s.sys.port n).up then Eff.none s else { sys := s.sys.receiveSlot s.gtime n x }
    | _ => Eff.none s)

/-- FLIT_COUNTER_LIMIT (R29): keys under which a counter has run 2^47 slots are used no more. -/
def execFlitCounterLimit : State → Host.Outcome State Fault Refusal :=
  eventNext (fun s => match s.sys.ev with
    | some (.flitCounterLimit n) =>
      if 18 ≤ n then Eff.none s
      else { sys := s.sys.modPort n (fun q => { q with
        txKeys := q.txKeys.filter (fun k => decide (q.txCounter < k.2.base + 2 ^ 47))
        rxKeys := q.rxKeys.filter (fun k => decide (q.rxCounter < k.2.base + 2 ^ 47)) }) }
    | _ => Eff.none s)

/-- A key in a slot of a direction. -/
def installKey (l : List (Bool × LinkKey)) (slot : Bool) (k : LinkKey) : List (Bool × LinkKey) := l.filter (fun e => e.1 != slot) ++ [(slot, k)]

/-- A key is installed in a slot of one direction of a link; the sending direction goes over to it. A link that comes up by it sends its
retry buffer again. -/
def Port.rekey (q : Port) (tx slot : Bool) (key : BitVec 256) (salt : Word) : Port :=
  let q1 : Port :=
    if tx then { q with txKeys := installKey q.txKeys slot ⟨key, salt, q.txCounter⟩, txKey := slot }
    else { q with rxKeys := installKey q.rxKeys slot ⟨key, salt, q.rxCounter⟩ }
  if !q.up && q1.up then { q1 with retryDue := q.retryBuf.map Prod.fst } else q1

/-- LINK_REKEY (R29). -/
def execLinkRekey : State → Host.Outcome State Fault Refusal :=
  eventNext (fun s => match s.sys.ev with
    | some (.linkRekey n tx slot key salt) =>
      if 18 ≤ n then Eff.none s else { sys := s.sys.modPort n (fun q => q.rekey tx slot key salt) }
    | _ => Eff.none s)

/-- PORT_LIST_WRITE (R37): the list of a physical chip, and whether it is joined without a switch. What was held for the old fixed port may
go. -/
def execPortListWrite : State → Host.Outcome State Fault Refusal :=
  eventNext (fun s => match s.sys.ev with
    | some (.portListWrite phys ports direct) =>
      if ports.all (fun n => decide (n < 18)) then
        { sys := ({ s.sys with
            portLists := tset s.sys.portLists phys ports
            direct := s.sys.direct.filter (fun d => d != phys) ++ (if direct then [phys] else []) } : Sys).sendAll s.gtime }
      else Eff.none s
    | _ => Eff.none s)

/-! ### Time (R18, R45) -/

/-- The OP of a TIMEX packet. -/
def timexCode : TimexKind → Nat
  | .sync => 0 | .followUp => 1 | .delayRequest => 2 | .delayResponse => 3

/-- A TIMEX packet leaves by a port. -/
def Sys.sendTimex (y : Sys) (n : Nat) (k : TimexKind) (stamp : Nat) : Sys :=
  let d := match y.reference with | r :: _ => r.2 | [] => 0
  y.modPort n (fun q => { q with queue := q.queue ++ [{ blankPacket with
    typ := tTimex, cls := 1, op := BitVec.ofNat 6 (timexCode k), dphys := BitVec.ofNat 12 d, sphys := y.phys, len := 1
    payload := [BitVec.ofNat 128 (stamp % 2 ^ 64)] }] })

/-- The stamps of an exchange are kept by their place in it: 1 sent by the reference, 2 received here, 3 sent from here, 4 received by the
reference. -/
def Port.stampAt (q : Port) (i now : Nat) : Port := { q with timexStamps := tset q.timexStamps i (BitVec.ofNat 64 now) }

/-- An exchange on a port: a reference sends sync and follow-up, any other package a delay request. -/
def Sys.exchange (y : Sys) (now n : Nat) : Sys :=
  let q := y.port n
  if !q.up || now < q.lastTimex + 1000000 then y
  else
    let y1 := y.modPort n (fun q => { q with lastTimex := now })
    if y.isReference then (y1.sendTimex n .sync now).sendTimex n .followUp now
    else (y1.modPort n (fun q => q.stampAt 3 now)).sendTimex n .delayRequest now

/-- TIMEX_SEND (R45): once per millisecond on every port that is up. -/
def execTimexSend : State → Host.Outcome State Fault Refusal :=
  eventNext (fun s => match s.sys.ev with
    | some .timexSend => { sys := (List.range 18).foldl (fun y n => y.exchange s.gtime n) s.sys }
    | _ => Eff.none s)

/-- The offset from the reference that four stamps give: half the difference of the two directions' delays. -/
def Port.offset (q : Port) : Option Int :=
  let t := fun (i : Nat) => (q.timexStamps.find? (fun x => x.1 == i)).map (fun x => (x.2.toNat : Int))
  match t 1, t 2, t 3, t 4 with
  | some a, some b, some c, some d => some ((b - a - (d - c)) / 2)
  | _, _, _, _ => none

/-- A new estimate of the offset. A package more than 1 ms behind at its first alignment, which has accepted no launch, steps forward
once, and is then aligned (DEDUCED: the offset that is left is 0); any other slews. -/
def alignTime (s : State) (o : Int) : State :=
  let near := -40 ≤ o && o ≤ 40
  let step := !s.sys.firstAligned && !s.sys.launched && o < -1000000
  { s with
    gtime := s.gtime + if step then o.natAbs else 0
    sys := { s.sys with
      timeofs := BitVec.ofInt 32 o, firstAligned := true, slew := if step then 0 else -o, slewAcc := 0
      aligned := s.sys.aligned || near || step, wide := s.sys.wide && !(near || step)
      lastExchange := s.gtime + if step then o.natAbs else 0 } }

/-- What a TIMEX message does. -/
def timexAct (s : State) (n : Nat) (k : TimexKind) (stamp : DWord) : State :=
  let put := fun (i x : Nat) (y : Sys) => y.modPort n (fun q => q.stampAt i x)
  match k with
  | .sync => { s with sys := put 2 s.gtime (put 1 stamp.toNat s.sys) }
  | .followUp => { s with sys := put 1 stamp.toNat s.sys }
  | .delayRequest => { s with sys := s.sys.sendTimex n .delayResponse s.gtime }
  | .delayResponse =>
    let y := put 4 stamp.toNat s.sys
    match (y.port n).offset with
    | some o => if y.isReference then { s with sys := y } else alignTime { s with sys := y } o
    | none => { s with sys := y }

/-- TIMEX (R45): a message received on a port. -/
def execTimex (s : State) : Host.Outcome State Fault Refusal :=
  .next (match s.sys.ev with
    | some (.timex n k stamp) =>
      (match s.sys.inbox.find? (fun p => p.typ == tTimex && p.op.toNat == timexCode k && (p.payload.headD 0).toNat % 2 ^ 64 == stamp.toNat) with
        | some p => if n < 18 then timexAct { s with sys := s.sys.takePacket p } n k stamp else s
        | none => s)
    | _ => s)

/-- TIME_WIDE (R45): no valid exchange for 100 ms. A TIMEWIDE notification goes to every enabled VF (R75). -/
def execTimeWide : State → Host.Outcome State Fault Refusal :=
  eventNext (fun s => match s.sys.ev with
    | some .timeWide =>
      if s.sys.wide || s.sys.isReference || s.gtime < s.sys.lastExchange + 100000000 then Eff.none s
      else
        let y : Sys := { s.sys with aligned := false, wide := true }
        { sys := (y.vfs.filter (fun v => v.2.en)).foldl (fun z v => z.notify v.1 5 (y.timeofs.setWidth 64)) y }
    | _ => Eff.none s)

/-- TIME_REFERENCE_NAMED (R45). -/
def execTimeReferenceNamed : State → Host.Outcome State Fault Refusal :=
  eventNext (fun s => match s.sys.ev with
    | some (.timeReferenceNamed dom phys) =>
      let y : Sys := { s.sys with reference := tset s.sys.reference dom phys }
      -- the reference's own offset is 0
      { sys := if y.isReference then { y with aligned := true, wide := false } else y }
    | _ => Eff.none s)

/-- Time passes: n nanoseconds, on which the clocks are counted, are that many counts of GTIME, but for one in 5,000 while GTIME is
slewed (R18). -/
def elapse (s : State) (n : Nat) : State :=
  let t : Sys := { s.sys with ns := s.sys.ns + n }
  if s.sys.slew = 0 then { s with gtime := s.gtime + n, sys := t }
  else
    let k := min ((s.sys.slewAcc + n) / 5000) s.sys.slew.natAbs
    let fast := 0 < s.sys.slew
    { s with
      gtime := s.gtime + if fast then n + k else n - k
      sys := { t with slew := if fast then s.sys.slew - k else s.sys.slew + k, slewAcc := (s.sys.slewAcc + n) % 5000 } }

end Sys2Proof.Machine
end

