-- ==== Sys2Proof/Machine/Sync.lean ====
section
/-!
DEFINITION. The SYNC space (R319-R328): fences, barrier instructions, the chunk and channel probes, DARRIVE.
-/
namespace Sys2Proof.Machine

/-! ### FENCE (R153-R156, R320) -/

/-- Every access of one instruction of an agent has performed or been answered. -/
def Sys.instrDone (y : Sys) (who : Agent) (n : Nat) : Bool := y.accesses.all (fun a => !(a.who == who && a.seq == n) || !a.isFlight)

/-- A fence's condition holds (R154-R156): kinds 0 full, 1 acquire, 2 release. A release of one instruction waits until that
instruction's accesses have performed (R387). -/
def Sys.fenceDone (y : Sys) (now : Nat) (who : Agent) (h : FenceHold) : Bool :=
  (h.kind == 1 || (match h.only with
    | some n => y.instrDone who n
    | none => y.released now who h.lanes h.classes h.scope)) &&
  (h.kind == 2 || y.acquired who h.lanes h.classes h.scope h.only)

/-- What the completion of a fence does: an acquire drops L1 lines (R155). -/
def Sys.fenceEffect (y : Sys) (core : Nat) (h : FenceHold) : Sys := if h.kind = 2 then y else y.dropLines core h.scope

/-- The scope as the agent's fence has it: on the control processor .qd to .gg act as .pk (R153). -/
def Iss.scope (i : Iss) (n : Nat) : Nat := if i.cp && n ≤ 3 then 4 else n

/-- A fence at issue: done at once when nothing is outstanding, else the entry is held. -/
def Iss.fenceAt (i : Iss) (y : Sys) (h : FenceHold) : Sys × List FenceHold :=
  if h.lanes = 0 then (y, [])
  else if y.fenceDone i.now i.agent h then (y.fenceEffect i.core h, [])
  else (y, [h])

/-- FENCE (R320). -/
def execFence (o : FormFence) : State → Host.Outcome State Fault Refusal :=
  wordNext (fun i s =>
    let ds : Desc := { g := o.g, s := o.s, modOk := false, bad := o.m == 0 || o.c == 7 || 2 < o.k.toNat }
    match i.check s.sys ds with
    | .hold => s.sys
    | .trap c m a => i.trap s.sys c m a
    | .go =>
      let h : FenceHold :=
      { kind := o.k.toNat, scope := i.scope o.c.toNat, classes := o.m, lanes := i.act o.g, only := none }
      let (y, holds) := i.fenceAt s.sys h
      i.fall ds [] holds y)

/-! ### Barrier instructions (R321-R325) -/

/-- The check of a barrier pointer (R321): SPACE, ALIGN, then LIMIT or SPBOUND over the 16 bytes. -/
def Iss.barFail (i : Iss) (y : Sys) (p : Nat) : Option (Nat × Cause) :=
  if spaceOf p != 2 && spaceOf p != 3 then some (1, .space)
  else i.addrFail y .atomic 16 16 { lane := 0, base := p, ea := p }

/-- The flat address of a local pointer that has passed its checks. -/
def Iss.flatOf (i : Iss) (y : Sys) (p n : Nat) : Nat :=
  match (i.ctx y).place y i.kcount p n with
  | .home f _ => f
  | _ => 0

/-- The registers of a barrier instruction. -/
def barDesc (o : FormTF) (once readsD writesD : Bool) (i : Iss) : Desc :=
  { g := o.g, s := o.s, modOk := false, mem := true, once := once, even := [o.a.toNat]
    src := pair i.cp o.a.toNat ++ (if readsD then [o.d.toNat] else []), dst := if writesD then [o.d.toNat] else [] }

/-- BINIT, BEXPECT and BINVAL: one request of every lane whose guard holds, with the operands of the lowest (R322). -/
def onceBarDecision (g : BitVec 3) (a : Nat) (op : Iss → Nat → AccOp) (i : Iss) (s : State) : Decision :=
  match i.first? g with
  | none => .go {}
  | some l =>
    let p := (i.v64 l a).toNat
    let lanes := i.real (i.act g)
    match i.barFail s.sys p with
    | some (_, c) => .trap c lanes (BitVec.ofNat 64 p)
    | none =>
      .go { reqs := [{ lane := l, lanes := lanes, wait := 0, op := op i l, ptr := p, target := .home (i.flatOf s.sys p 16)
                       key := 0, dest := .none }] }

/-- BINIT (R322). -/
def execBinit (o : FormTF) : State → Host.Outcome State Fault Refusal :=
  memWord (barDesc o true true false) 0
    (onceBarDecision o.g o.a.toNat (fun i l => .init ((i.v l o.d.toNat).setWidth 16)))

/-- BEXPECT (R322). -/
def execBexpect (o : FormTF) : State → Host.Outcome State Fault Refusal :=
  memWord (barDesc o true true false) 0 (onceBarDecision o.g o.a.toNat (fun i l => .expect (i.v l o.d.toNat)))

/-- BINVAL (R322). -/
def execBinval (o : FormA) : State → Host.Outcome State Fault Refusal :=
  memWord (fun i =>
    { g := o.g, s := o.s, modOk := false, mem := true, once := true, even := [o.a.toNat], src := pair i.cp o.a.toNat }) 0
    (onceBarDecision o.g o.a.toNat (fun _ _ => .invalidate))

/-- The lanes of a per-lane probe: their pointers checked, helper lanes receiving 0. `req` makes a lane's request; with `acq` the lanes' later
accesses wait until it has performed, since what it then reports may be an acquire (R161, R162). -/
def laneProbe (o : FormTF) (acq : Bool) (fail : Iss → Sys → Nat → Option (LaneAddr × Nat × Cause)) (req : Iss → Sys → Nat → Req)
    (i : Iss) (s : State) : Decision :=
  let y := s.sys
  let ls := lanesOf (i.real (i.act o.g))
  let fs := ls.filterMap (fun l => (fail i y l).map (fun x => (x.1, some (x.2.1, x.2.2))))
  match firstFailure fs with
  | some (c, m, a) => .trap c m a
  | none =>
    .go { writes := { v := (lanesOf (i.act o.g &&& i.g.helpers)).map (fun l => (l, o.d.toNat, 0)) }
          deferred := [o.d.toNat], deferredLanes := i.act o.g, reqs := ls.map (req i y)
          holds := if acq && !ls.isEmpty then [{ kind := 1, scope := 0, classes := 7, lanes := i.real (i.act o.g), only := some i.seqNo }] else [] }

/-- The destination of a 32-bit deferred result. -/
def Iss.dest32 (i : Iss) (d : Nat) : Dest := if i.cp then .x d 1 else .v d 1

/-- A lane's barrier pointer and its failure. -/
def laneBarFail (a : Nat) (i : Iss) (y : Sys) (l : Nat) : Option (LaneAddr × Nat × Cause) :=
  let p := (i.v64 l a).toNat
  (i.barFail y p).map (fun x => ({ lane := l, base := p, ea := p }, x.1, x.2))

/-- A lane's request to a barrier object. -/
def laneBarReq (d a : Nat) (op : Word → AccOp) (i : Iss) (y : Sys) (l : Nat) : Req :=
  let p := (i.v64 l a).toNat
  { lane := l, lanes := laneBit l, wait := laneBit l, op := op (i.v l d), ptr := p, target := .home (i.flatOf y p 16), key := 0
    dest := i.dest32 d }

/-- BARRIVE (R323): issues only when the window holds no memory access, after the release of its lanes (R161). -/
def execBarrive (o : FormTF) : State → Host.Outcome State Fault Refusal :=
  memWord (fun i => { barDesc o false false true i with drained := true }) 0
    (fun i s =>
      if s.sys.released i.now i.agent (i.act o.g) 7 4 then
        laneProbe o false (laneBarFail o.a.toNat) (laneBarReq o.d.toNat o.a.toNat (fun _ => .arrive)) i s
      else .hold)

/-- BTEST (R325). -/
def execBtest (o : FormTF) : State → Host.Outcome State Fault Refusal :=
  memWord (barDesc o false true true) 0
    (laneProbe o true (laneBarFail o.a.toNat) (laneBarReq o.d.toNat o.a.toNat (fun w => .test (w.setWidth 31))))

/-- The lanes that wait at a BWAIT: those whose guard holds, helper lanes with their quads (R324). -/
def Iss.waiters (i : Iss) (g : BitVec 3) : LaneMask := i.e.mask &&& maskOf (fun l => i.guardAt g (i.g.leader l))

/-- The registers of BWAIT: it reads the lowest waiting lane's operands and writes v[D] of every waiting lane (R108, R324). -/
def bwaitDesc (o : FormTF) (i : Iss) : Desc :=
  let ds := { barDesc o true true true i with mem := false }
  if i.cp then ds
  else
    let one := match i.first? o.g with
      | some l => i.hazard ds (laneBit l)
      | none => 0
    { ds with hz := some (one ||| (i.waiters o.g &&& sget i.g.regs.pend o.d.toNat)) }

/-- BWAIT (R324). -/
def execBwait (o : FormTF) : State → Host.Outcome State Fault Refusal :=
  wordNext (fun i s =>
    let ds := bwaitDesc o i
    match i.check s.sys ds with
    | .hold => s.sys
    | .trap c m a => i.trap s.sys c m a
    | .go =>
      match i.first? o.g with
      | none => i.fall ds [] [] s.sys
      | some l =>
        let p := (i.v64 l o.a.toNat).toNat
        let w := (i.v l o.d.toNat).setWidth 31
        let lanes := i.waiters o.g
        let rest := i.e.mask &&& ~~~lanes
        match i.barFail s.sys p with
        | some (_, c) => i.trap s.sys c (i.real lanes) (BitVec.ofNat 64 p)
        | none =>
          let f := i.flatOf s.sys p 16
          match s.sys.readError f 16 0 with
          | some c => i.trap s.sys c (i.real lanes) (BitVec.ofNat 64 p)
          | none =>
            let b := readBar s.mem f
            if b.inv || BitVec.ofNat 31 b.phase != w then
              let h : FenceHold := { kind := 1, scope := 5, classes := 7, lanes := lanes, only := none }
              let y := i.commit { v := (lanesOf lanes).map (fun x => (x, o.d.toNat, b.value.setWidth 64)) } s.sys
              let (y1, holds) := if b.inv then (y, []) else i.fenceAt y h
              if i.cp then i.placeCp ds (i.e.pc + 4) holds y1
              else i.place ds [(lanes, i.e.pc + 4, .ready, holds), (rest, i.e.pc + 4, .ready, [])] (i.pushWindow false [] y1)
            else if !s.sys.watchFree f then s.sys
            else if i.cp then s.sys.modCp i.core (fun c => { c with wait := some (f, w, o.d.toNat) })
            else
              i.place ds [(lanes, i.e.pc, .barrier f w o.d.toNat o.s i.g.nextSeq i.e.mask s.sys.clocks, []), (rest, i.e.pc + 4, .ready, [])]
                (i.pushWindow false [] s.sys))

/-! ### Probes (R326, R327) -/

/-- A lane's bitmap byte. -/
def chkAddr (d a : Nat) (i : Iss) (l : Nat) : LaneAddr :=
  let base := (i.v64 l a).toNat
  { lane := l, base := base, ea := (base + (i.v l d).toNat / 8) % 2 ^ 64 }

/-- Its checks: the base in space 0x2 or 0x3 and 8-byte aligned, then the byte's window. -/
def chkFail (d a : Nat) (i : Iss) (y : Sys) (l : Nat) : Option (LaneAddr × Nat × Cause) :=
  let x := chkAddr d a i l
  if spaceOf x.base != 2 && spaceOf x.base != 3 then some (x, 1, .space)
  else if (i.ctx y).spaceBad y .load x.base then some (x, 1, .space)
  else if x.base % 8 != 0 then some (x, 2, .align)
  else (i.addrFail y .load 1 1 x).map (fun f => (x, f.1, f.2))

/-- CHKTEST (R326). -/
def execChktest (o : FormTF) : State → Host.Outcome State Fault Refusal :=
  memWord (barDesc o false true true) 0
    (laneProbe o true (chkFail o.d.toNat o.a.toNat) (fun i y l =>
      let x := chkAddr o.d.toNat o.a.toNat i l
      { lane := l, lanes := laneBit l, wait := laneBit l, op := .bit ((i.v l o.d.toNat).toNat % 8), ptr := x.ea
        target := .home (i.flatOf y x.ea 1), key := 0, dest := i.dest32 o.d.toNat }))

/-- CHWP (R327): WP of a channel of the issuing core, an acquire of the bytes below it. -/
def execChwp (o : FormChwp) : State → Host.Outcome State Fault Refusal :=
  wordNext (fun i s =>
    let ds : Desc := { g := o.g, s := o.s, modOk := false, dst := [o.d.toNat] }
    match i.check s.sys ds with
    | .hold => s.sys
    | .trap c m a => i.trap s.sys c m a
    | .go =>
      match i.first? o.g with
      | none => i.fall ds [] [] s.sys
      | some _ =>
        let ch := tget (s.sys.core i.core).channels o.a.toNat {}
        let v : Word := if ch.isOpen then ch.wp else 0xFFFFFFFF
        let y := i.commit { v := (lanesOf (i.act o.g)).map (fun x => (x, o.d.toNat, v.setWidth 64)) } s.sys
        let y1 := i.defer [o.d.toNat] (i.act o.g) y
        i.fall ds [] [] (match (if ch.isOpen then s.sys.cmd? ch.cmd else none) with
          | some c => y1.dropBytes i.core (c.lands s.sys (List.range ((ch.wp.toNat + 511) / 512)))
          | none => y1))

/-! ### DARRIVE (R211, R328) -/

/-- The pointer's check: heap or fabric, 64-byte aligned, 1,088 bytes. -/
def Iss.domFail (i : Iss) (y : Sys) (p : Nat) : Option (Nat × Cause) :=
  if spaceOf p != 0 && spaceOf p != 4 then some (1, .space)
  else i.addrFail y .atomic 1088 64 { lane := 0, base := p, ea := p }

/-- DARRIVE (R328): issues only when the window holds no memory access, after the release of scope .dm. -/
def execDarrive (o : FormTF) : State → Host.Outcome State Fault Refusal :=
  let a := o.a.toNat
  let needM := o.d != 0
  memWord (fun i =>
    let base : Desc :=
    { g := o.g, s := o.s, modOk := false, mem := true, once := true, drained := true, even := [a], bad := 2 < o.d.toNat
      src := pair i.cp a ++ (if needM then [if i.cp then a + 1 else a + 2] else []) }
    let h := i.hazard { base with src := pair i.cp a ++ [if i.cp then a + 1 else a + 2] }
      (match i.first? o.g with | some l => laneBit l | none => 0)
    { base with hz := some h }) 0
    (fun i s =>
      match i.first? o.g with
      | none => .go {}
      | some l =>
        let p := (i.v64 l a).toNat
        let lanes := i.real (i.act o.g)
        match i.domFail s.sys p with
        | some (_, c) => .trap c lanes (BitVec.ofNat 64 p)
        | none =>
          if !s.sys.released i.now i.agent (i.act o.g) 7 5 then .hold
          else
            let q := s.sys.part i.part
            let m : BitVec 12 := (i.v l (if i.cp then a + 1 else a + 2)).setWidth 12
            .go { reqs := ((i.target s.sys p 1088).map (fun t =>
              { lane := l, lanes := lanes, wait := 0
                op := .domain o.d.toNat (if needM then m else 0) (if q.joined then q.lchip else 0), ptr := p, target := t.1
                key := t.2, dest := .none })).toList })

end Sys2Proof.Machine
end

