-- ==== Sys2Proof/Machine/Progress.lean ====
section
/-!
DEFINITION. The steps of the issue state that no instruction makes: results that arrive (R109), fences that complete (R154-R156),
returns to a boundary (R115, R116), traps that join the queue and are taken (R121-R123), parking (R90, R117, R118, R120), and
leases that expire (R138).
-/
namespace Sys2Proof.Machine

/-! ### Results and fences -/

/-- RESULT_ARRIVE (R109): the last result of a Results entry has arrived. -/
def execResultArrive : State → Host.Outcome State Fault Refusal :=
  eventNext (fun s => match s.sys.ev with
    | some (.resultArrive h lane) =>
      (match s.sys.group? h with
        | none => Eff.none s
        | some g =>
          match g.entry? lane with
          | none => Eff.none s
          | some e =>
            if e.st == .results && e.mask &&& s.sys.awaiting h == 0 then
              { sys := (s.sys.modGroup h (fun x => { x with frontier := x.others e ++ [{ e with st := .ready }] })).settle h }
            else Eff.none s)
    | _ => Eff.none s)

/-- The holds of an agent that are over are dropped, with what their completion does. -/
def Sys.endFences (y : Sys) (now : Nat) (who : Agent) (core : Nat) (hs : List FenceHold) : Sys × List FenceHold :=
  ((hs.filter (fun h => y.fenceDone now who h)).foldl (fun acc h => acc.fenceEffect core h) y,
   hs.filter (fun h => !y.fenceDone now who h))

/-- FENCE_COMPLETE (R154-R156). -/
def execFenceComplete : State → Host.Outcome State Fault Refusal :=
  eventNext (fun s => match s.sys.ev with
    | some (.fenceComplete (.entry h lane)) =>
      (match s.sys.group? h with
        | none => Eff.none s
        | some g =>
          match g.entry? lane with
          | none => Eff.none s
          | some e =>
            let (y, left) := s.sys.endFences s.gtime (.group h) g.core e.holds
            { sys := (y.modGroup h (fun x => { x with frontier := x.others e ++ [{ e with holds := left }] })).settle h })
    | some (.fenceComplete (.cp c)) =>
      let (y, left) := s.sys.endFences s.gtime (.cp c) c (s.sys.core c).cp.holds
      { sys := y.modCp c (fun x => { x with holds := left }) }
    | _ => Eff.none s)

/-- LEASE_EXPIRY (R138): a line of an L1 whose lease is over is no longer served. -/
def execLeaseExpiry : State → Host.Outcome State Fault Refusal :=
  eventNext (fun s => match s.sys.ev with
    | some (.leaseExpiry c line) =>
      let y := s.sys.modCore c (fun k => { k with l1 := k.l1.filter (fun x => lineOf x.start != line || decide (s.gtime < x.expiry)) })
      { sys := { y with leases := y.leases.filter (fun l => l.1 != line || decide (s.gtime < l.2)) } }
    | _ => Eff.none s)

/-! ### Returns to a boundary (R115, R116) -/

/-- The entries of lanes in a sparse table of lane × 128 + register, as another table has them. -/
def restoreV (m : LaneMask) (now before : Sparse 32) : Sparse 32 :=
  ssets (now.filter (fun p => !m.getLsbD (p.1 / 128))) (before.filter (fun p => m.getLsbD (p.1 / 128)))

/-- A table of lane masks with the bits of some lanes as another table has them. -/
def restoreMasks (m : LaneMask) (now before : Sparse 32) : Sparse 32 :=
  (now.map Prod.fst ++ before.map Prod.fst).foldl (fun t r => sset t r ((sget now r &&& ~~~m) ||| (sget before r &&& m))) []

/-- FSTAT of lanes as another table has it. -/
def restoreFstat (m : LaneMask) (now before : Sparse 5) : Sparse 5 :=
  ssets (now.filter (fun p => !m.getLsbD p.1)) (before.filter (fun p => m.getLsbD p.1))

/-- A group's registers when lanes go back to a boundary; `kw` names the group-wide registers that undone instructions wrote. -/
def Regs.back (r b : Regs) (m : LaneMask) (kw : List Nat) : Regs :=
  { v := restoreV m r.v b.v
    k := kw.foldl (fun t n => if n < 128 then sset t n (sget b.k n) else t) r.k
    p := restoreMasks m r.p b.p
    fstat := restoreFstat m r.fstat b.fstat
    frm := if kw.contains 128 then b.frm else r.frm
    mpb := if kw.contains 129 then b.mpb else r.mpb
    tapep := if kw.contains 130 then b.tapep else r.tapep
    pend := restoreMasks m r.pend b.pend
    pendK := restoreMasks m r.pendK b.pendK
    bad := r.bad }

/-- The causes of error responses in the order in which R268 has them. -/
def errorOrder : List Cause := [.barbusy, .barovf, .key, .ecc, .remote]

/-- The failed accesses of an instruction of a group, lowest lane first, as cause, remote cause, EALCNT and access. -/
def Sys.failures (y : Sys) (h seq : Nat) : List (Cause × BitVec 8 × Nat × Access) :=
  let fs := y.accesses.filterMap (fun a =>
    if a.who == .group h && a.seq == seq && !a.undone then
      (match a.st with | .failed c r _ n => some (c, r, n, a) | _ => none)
    else none)
  allLanes.flatMap (fun l => fs.filter (fun f => f.2.2.2.lane == l))

/-- The replay record of matrix instructions when the lanes of undone ones go back (R114): what has been performed stays, to be matched when
it issues again; an MMAJ that has not joined and an ALOAD.M whose data is still to come are withdrawn. -/
def Group.undoMatrix (g : Group) (ops : List TileOp) (seq : Nat) : List MatrixLine :=
  (g.matrix.filter (fun l => decide (l.seq < seq) ||
    !(ops.any (fun t => t.group == g.handle && t.seq == l.seq) || (match g.mmaj with | some m => !m.joined && m.seq == l.seq | none => false)))).map
    (fun l => if seq ≤ l.seq then { l with undone := true } else l)

/-- The lanes `m` of a group go back to the boundary before an instruction of its window, as one entry in a state (R116). A matrix
instruction names every lane of the group, so it is undone with all of them or not at all. -/
def Sys.goBack (y : Sys) (g : Group) (w : WindowItem) (m : LaneMask) (st : EntryState) : Sys :=
  let undone := fun (x : WindowItem) => decide (w.seq ≤ x.seq) && x.mask &&& m != 0
  let kw := (g.window.filter undone).flatMap (fun x => x.kw)
  let y1 := y.modGroup g.handle (fun x => { x with
    regs := x.regs.back w.before m kw
    window := x.window.filter (fun z => !undone z)
    mmas := x.mmas.filter (fun z => decide (z.seq < w.seq))
    matrix := if g.lanes &&& ~~~m = 0 then x.undoMatrix y.tileOps w.seq else x.matrix
    mmaj := x.mmaj.filter (fun z => z.joined || decide (z.seq < w.seq))
    frontier := (x.frontier.map (fun z => { z with mask := z.mask &&& ~~~m })).filter (fun z => z.mask != 0) ++
      [{ pc := w.pc, mask := m, j := w.j, st := st }] })
  let y2 : Sys := { y1 with
    accesses := y1.accesses.map (fun b =>
      if b.who == .group g.handle && decide (w.seq ≤ b.seq) && b.lanes &&& m != 0 then { b with undone := true } else b)
    tileOps := y1.tileOps.filter (fun t => t.group != g.handle || decide (t.seq < w.seq)) }
  y2.settle g.handle

/-- CHECKPOINT_RETURN (R115, R116): the group goes back to the boundary before the oldest marked instruction and traps there. -/
def checkpointReturn (s : State) (h : Nat) : Eff :=
  let y := s.sys
  match y.group? h with
  | none => Eff.none s
  | some g =>
    match y.oldestMarked g with
    | none => Eff.none s
    | some n =>
      match g.window.find? (fun w => w.seq == n) with
      | none => Eff.none s
      | some w =>
        let m := widen g.window n 33 w.mask
        let older := y.accesses.any (fun a => a.who == .group h && !a.undone && a.isFlight && decide (a.seq ≤ n))
        let fs := y.failures h n
        let pick := (errorOrder.findSome? (fun c => fs.find? (fun f => f.1 == c))).orElse (fun _ => fs.head?)
        match pick with
        | none => Eff.none s
        | some (c, r, cnt, a) =>
          if older then Eff.none s
          else
            let lanes := (fs.filter (fun f => f.1 == c)).foldl (fun (acc : LaneMask) f => acc ||| f.2.2.2.lanes) 0
            let insn := match fetchGroup s g a.pc with | .word x => x | .fail _ _ => 0
            let t : TrapRec :=
            { cause := c, remCause := r, pc := w.pc, lanes := lanes, whole := m, addr := a.ptr, prio := y.prio g w.pc
              ealcnt := cnt, insn := insn, seq := n, queued := false, taken := false }
            { sys := y.goBack g w m (.trapped t) }

/-- CHECKPOINT_RETURN (R115). -/
def execCheckpointReturn : State → Host.Outcome State Fault Refusal :=
  eventNext (fun s => match s.sys.ev with
    | some (.checkpointReturn h) => checkpointReturn s h
    | _ => Eff.none s)

/-! ### Traps (R121-R123) -/

/-- A trap of an entry is ready to join the queue: no return takes its lanes back, and the accesses before it are over. -/
def Sys.trapReady (y : Sys) (g : Group) (e : Entry) : Bool :=
  match e.st with
  | .trapped t =>
    !t.queued && e.mask &&& y.returning g == 0 &&
    !y.accesses.any (fun a => a.who == .group g.handle && !a.undone && a.isFlight && decide (a.seq < t.seq))
  | _ => false

/-- Some entry is in a state. -/
def Group.has (g : Group) (p : EntryState → Bool) : Bool := g.frontier.any (fun e => p e.st)

/-- Traps that have become ready to join their queues take the clock in which they did (R121). -/
def Sys.noteReady (y : Sys) : Sys :=
  { y with groups := y.groups.map (fun g =>
      if g.has (fun st => match st with | .trapped t => !t.queued && t.readyAt.isNone | _ => false) then
        { g with frontier := g.frontier.map (fun e => match e.st with
            | .trapped t => if t.readyAt.isNone && y.trapReady g e then { e with st := .trapped { t with readyAt := some y.clocks } } else e
            | _ => e) }
      else g) }

/-- The place of a trap among those that are ready on a core: its clock, its group's slot, its lowest lane (R121). -/
def trapRank (g : Group) (e : Entry) : List Nat :=
  [match e.st with | .trapped t => t.readyAt.getD 0 | _ => 0, g.slot, lowest e.mask]

/-- Ranks in order. -/
def rankLt : List Nat → List Nat → Bool
  | a :: r, b :: t => decide (a < b) || (a == b && rankLt r t)
  | _, _ => false

/-- The trap that joins a core's queue next: it is ready, and none that is ready ranks before it. -/
def Sys.joinsNext (y : Sys) (g : Group) (e : Entry) : Bool :=
  y.trapReady g e &&
  !y.groups.any (fun x => x.core == g.core && x.frontier.any (fun z => y.trapReady x z && rankLt (trapRank x z) (trapRank g e)))

/-- TRAP_QUEUE_JOIN (R121). The control processor's own traps join as they arise. -/
def execTrapQueueJoin : State → Host.Outcome State Fault Refusal :=
  eventNext (fun s => match s.sys.ev with
    | some (.trapQueueJoin (.entry h lane)) =>
      (match s.sys.group? h with
        | none => Eff.none s
        | some g =>
          match g.entry? lane with
          | none => Eff.none s
          | some e =>
            if s.sys.joinsNext g e then
              let y := s.sys.modGroup h (fun x => { x with frontier := x.frontier.map (fun z =>
                if z.mask = e.mask then
                  (match z.st with | .trapped t => { z with st := .trapped { t with queued := true } } | _ => z)
                else z) })
              { sys := y.modCore g.core (fun k => { k with trapq := k.trapq ++ [.entry h (lowest e.mask)] }) }
            else Eff.none s)
    | _ => Eff.none s)

/-- The control processor stops after a second trap (R123): its launches end, and a BREAK writes its record. -/
def doubleTrap (y : Sys) (now core : Nat) (t : TrapRec) : Sys :=
  let y1 := if t.cause == .brk then
    y.logEal now (y.partOfCore core) .brk 0 0 0 .cp core 0 (y.core core).cp.vf else y
  let us := (y1.groups.filter (fun g => g.core == core && g.offCore.isNone)).foldl
    (fun acc g => if acc.contains g.launch then acc else acc ++ [g.launch]) ([] : List Nat)
  let y2 := us.foldl (fun acc u => acc.killLaunch u) y1
  y2.modCore core (fun k => { k with trapq := k.trapq.filter (fun x => x != .cp core), cp := k.cp.stop })

/-- CP_TRAP_ENTRY (R121, R122). -/
def cpTrapEntry (y : Sys) (now core : Nat) : Sys :=
  let k := y.core core
  let c := k.cp
  if !c.running || c.stopped then y
  else if c.intrap then
    (match c.ownTrap with
      | some t => if t.taken then y else doubleTrap y now core t
      | none => y)
  else
    match k.trapq with
    | [] => y
    | .cp _ :: r =>
      (match c.ownTrap with
        | some t => y.modCore core (fun k => { k with trapq := r, cp := { k.cp.enter t 0 t.pc with ownTrap := none } })
        | none => y.modCore core (fun k => { k with trapq := r }))
    | .entry h lane :: r =>
      if y.cpBusy core then y
      else
        match (y.group? h).bind (fun g => g.entry? lane) with
        | some { st := .trapped t, mask := mask, .. } =>
          let y1 := y.modGroup h (fun g => { g with frontier := g.frontier.map (fun e =>
            if e.mask = mask then { e with st := .trapped { t with taken := true } } else e) })
          y1.modCore core (fun k => { k with
            trapq := r
            cp := { k.cp.enter t h k.cp.pc with ownTrap := k.cp.ownTrap.map (fun x => { x with taken := true }) } })
        | _ => y.modCore core (fun k => { k with trapq := r })

/-- CP_TRAP_ENTRY (R121). -/
def execCpTrapEntry : State → Host.Outcome State Fault Refusal :=
  eventNext (fun s => match s.sys.ev with
    | some (.cpTrapEntry c) => { sys := cpTrapEntry s.sys s.gtime c }
    | _ => Eff.none s)

/-! ### Parking (R90, R117, R118, R120) -/

def EntryState.isReady : EntryState → Bool
  | .ready => true | _ => false
def EntryState.isGrow : EntryState → Bool
  | .grow _ _ => true | _ => false
def EntryState.isBarrier : EntryState → Bool
  | .barrier _ _ _ _ _ _ _ => true | _ => false

/-- The group holds a STRAP trap and nothing Ready or in Results (R117, R370). -/
def Group.strapped (g : Group) : Bool :=
  g.has (fun st => match st with | .trapped t => t.cause == .strap | _ => false) &&
  !g.has (fun st => st.isReady || st == .results)

/-- The quadrant is stuck on its pool (R90): every resident group waits at GROW or BWAIT with none ready, and no request
can be granted. The youngest at GROW. -/
def Sys.growVictim (y : Sys) (core q : Nat) : Option Nat :=
  let gs := (y.residents core).filter (fun g => g.quadrant == q)
  if (y.growReady core q).isNone && gs.all (fun g => !g.has EntryState.isReady && g.has (fun st => st.isGrow || st.isBarrier)) then
    ((gs.filter (fun g => g.has EntryState.isGrow)).foldl (fun (acc : Option Group) g =>
      match acc with
      | some m => if m.age < g.age then some g else some m
      | none => some g) none).map (fun g => g.handle)
  else none

/-- A gang, a block or a closed bin of the partition waits for room on a core's cluster (R117). -/
def Sys.roomWanted (y : Sys) (core : Nat) : Bool :=
  !(y.queue (y.partOfCore core)).isEmpty ||
  y.cores.any (fun c => coreCluster c.1 == coreCluster core && c.2.bins.any (fun b => b.2.st == .closed))

/-- The clock since which the entry of a group that has waited longest at BWAIT waits. -/
def Group.waitsSince (g : Group) : Option Nat :=
  g.frontier.foldl (fun acc e => match e.st, acc with
    | .barrier _ _ _ _ _ _ c, some n => some (min c n)
    | .barrier _ _ _ _ _ _ c, none => some c
    | _, _ => acc) none

/-- The group may be parked because an entry has waited at BWAIT for long (R117). -/
def Sys.longWait (y : Sys) (g : Group) : Bool :=
  !g.has EntryState.isReady && g.mmas.isEmpty && g.mmaj.isNone &&
  (match g.waitsSince with | some c => decide (c + (y.core g.core).cp.parkthr ≤ y.clocks) | none => false) && y.roomWanted g.core

/-- The group is parked for one of the reasons of R117. -/
def Sys.parkReason (y : Sys) (g : Group) : Bool :=
  y.stopping g || g.strapped || y.growVictim g.core g.quadrant == some g.handle ||
  (y.longWait g && !(y.residents g.core).any (fun x => y.longWait x && decide (x.waitsSince.getD 0 < g.waitsSince.getD 0)))

/-- An MMAJ that has not joined is withdrawn: the group issues it again from the boundary before it (R356). -/
def Sys.withdrawMmaj (y : Sys) (h : Nat) : Sys :=
  match y.group? h with
  | none => y
  | some g =>
    match g.mmaj with
    | none => y
    | some m =>
      if m.joined then y
      else
        match g.window.find? (fun w => w.seq == m.seq) with
        | some w => y.goBack g w (widen g.window m.seq 33 w.mask) .ready
        | none => y.modGroup h (fun x => { x with mmaj := none })

/-- The lanes whose traps the control processor has or will take: a return undoes none of them (R116). -/
def Group.settledLanes (g : Group) : LaneMask :=
  g.frontier.foldl (fun (m : LaneMask) e => match e.st with | .trapped t => if t.queued then m ||| e.mask else m | _ => m) 0

/-- A group that is pre-empted goes back to its checkpoint (R120): the lanes of each instruction of its window, from the oldest on, go to
the boundary before it, but for those with a trap that the control processor has or will take. -/
def Sys.toCheckpoint (h : Nat) : Nat → Sys → Sys
  | 0, y => y
  | fuel + 1, y =>
    match y.group? h with
    | none => y
    | some g =>
      match g.window.find? (fun w => widen g.window w.seq 33 w.mask &&& g.settledLanes == 0) with
      | some w => Sys.toCheckpoint h fuel (y.goBack g w (widen g.window w.seq 33 w.mask) .ready)
      | none => y

/-- PARK_OFF_CORE (R117, R120): the group leaves its slot for a park slot, once its matrix operations are over. -/
def parkOffCore (y : Sys) (h : Nat) : Sys :=
  match y.group? h with
  | none => y
  | some g =>
    match y.freePark g.core with
    | none => y
    | some slot =>
      if g.offCore.isSome || g.killed || !g.mmas.isEmpty || (match g.mmaj with | some m => m.joined | none => false) ||
        !y.parkReason g then y
      else
        let y0 := y.withdrawMmaj h
        let (n, y1) := (if y.stopping g then Sys.toCheckpoint h 65 y0 else y0).fresh
        let gp := match (y.core g.core).cp.gparkWait with | some (x, _) => x == h | none => false
        let y2 := y1.modGroup h (fun x => { x with
          offCore := some slot, parks := x.parks + 1, age := n, preempt := false, gpark := x.gpark || gp
          frontier := x.frontier.map (fun e => { e with pc := e.hints.boundary e.pc, hints := {} }) })
        y2.endGpark g.core h 0

/-- PARK_OFF_CORE (R117). -/
def execParkOffCore : State → Host.Outcome State Fault Refusal :=
  eventNext (fun s => match s.sys.ev with
    | some (.parkOffCore h) => { sys := parkOffCore s.sys h }
    | _ => Eff.none s)

/-- PARK_RETURN (R118): the oldest-parked group that can returns to its quadrant, as newly resident; its pending GROWs are granted
with its allotment, and an entry at BWAIT tests its phase again. -/
def parkReturn (s : State) (h : Nat) : Sys :=
  let y := s.sys
  match y.group? h with
  | none => y
  | some g =>
    let older := y.groups.any (fun x => x.core == g.core && decide (x.age < g.age) && y.canReturn s.mem x)
    match y.freeGroupSlot g.core g.quadrant with
    | none => y
    | some slot =>
      if older || !y.canReturn s.mem g then y
      else
        let (n, y1) := y.fresh
        let y2 := y1.modGroup h (fun x => { x with offCore := none, slot := slot, age := n, skipped := 0 })
        let y3 := (g.frontier.filter (fun e => e.st.isGrow)).foldl (fun acc e => grantGrow acc h (lowest e.mask)) y2
        g.frontier.foldl (fun acc e =>
          match e.st with
          | .barrier f w _ _ _ _ _ =>
            let o := readBar s.mem f
            if o.inv || BitVec.ofNat 31 o.phase != w then
              acc.modGroup h (fun x => x.wake (x.waitMask (acc.awaiting h)) (acc.returning x) f o.value)
            else acc
          | _ => acc) (y3.modCore g.core (fun k => { k with growq := k.growq.filter (fun q => q.2.1 != h) }))

/-- PARK_RETURN (R118). -/
def execParkReturn : State → Host.Outcome State Fault Refusal :=
  eventNext (fun s => match s.sys.ev with
    | some (.parkReturn h) => { sys := parkReturn s h }
    | _ => Eff.none s)

/-- MGMT_PREEMPT (R120): the management plane asks for a whole gang to be parked. -/
def execMgmtPreempt : State → Host.Outcome State Fault Refusal :=
  eventNext (fun s => match s.sys.ev with
    | some (.mgmtPreempt u gang) =>
      let bs := (s.sys.blocks.filter (fun b => b.launch == u && b.gang == gang)).map (fun b => b.uid)
      { sys := { s.sys with groups := s.sys.groups.map (fun g =>
          match g.block with
          | some b => if bs.contains b && g.offCore.isNone then { g with preempt := true } else g
          | none => g) } }
    | _ => Eff.none s)

end Sys2Proof.Machine
end

