-- ==== Sys2Proof/Machine/Snapshot.lean ====
section
/-!
DEFINITION. Snapshots: descriptors (R190, R191, R400), SNAP and SNAPST (R192, R193), the record point (R194, R197, R198), the sweeper
(R195), Kite and the sinks (R204-R206), completion, abort and reopening (R202, R203), and the protocol's messages (R200).
-/
namespace Sys2Proof.Machine

/-! ### Descriptors (R190, R191) -/

/-- The sinks that colours hold which count for R400: LIVE, LOCALDONE, or granted and before their record point. -/
def Part.sinksHeld (q : Part) : BitVec 8 :=
  let f := fun (c : Colour) => if c.st == .live || c.st == .localdone || c.trec.isSome then c.sinks else 0
  f q.colourA ||| f q.colourB

/-- The checks of a descriptor's fields, each with its offset and the cause of a failure. -/
def snapChecks (y : Sys) (part : Nat) (h : HeapWindow) (b : List Byte) : List (Bool × Nat × Cause) :=
  let q := y.part part
  let w := fun (o n : Nat) => field b o n
  let x := w 0 4
  let mask : BitVec 8 := BitVec.ofNat 8 (bits x 23 16)
  let n := w 0x10 2
  let at_ := fun (ok : Bool) (o : Nat) (c : Cause) => (ok, o, c)
  [ at_ (bits x 7 0 == if q.joined then q.dom.toNat else 0) 0 .badcmd,
    at_ (bits x 9 8 != 3) 0 .badcmd, at_ (bits x 15 11 == 0) 0 .badcmd,
    at_ (mask != 0 && (List.range 8).all (fun i => !mask.getLsbD i ||
      [1, 2].contains (tget q.sinks i {}).kind.toNat)) 0 .badcmd,
    at_ (mask &&& q.sinksHeld == 0) 0 .badcmd, at_ (bits x 31 24 == 0) 0 .badcmd,
    at_ (if bit x 10 then y.launches.any (fun l => l.part == part && !l.finished && l.record.launchId.toNat == w 4 4)
      else w 4 4 == 0) 4 .badcmd,
    at_ (n != 0 || w 8 8 == 0) 8 .badcmd, at_ (isHeapPtr (w 8 8)) 8 .space, at_ (w 8 8 % 16 == 0) 8 .align,
    at_ (n == 0 || h.inside (offsetOf (w 8 8)) (16 * n)) 8 .limit,
    at_ (decide (n ≤ 1024)) 0x10 .badcmd, at_ (w 0x12 2 == 0) 0x10 .badcmd, at_ (w 0x14 4 == 0) 0x14 .badcmd,
    at_ (numOf (slice b 0x20 32) == 0) 0x20 .badcmd ]

/-- The entries of a region list at a heap offset; none when a read is answered with an error. -/
def readRegions (s : State) (part : Nat) (h : HeapWindow) (a : Nat) : Nat → Option (List (Nat × Nat))
  | 0 => some []
  | n + 1 =>
    match heapFlat (s.sys.part part) h a 16 with
    | none => none
    | some (f, k) =>
      if (s.sys.readError f 16 k).isSome then none
      else
        let b := readHeap s.mem (s.sys.part part) h a 16
        (readRegions s part h (a + 16) n).map (fun r => (field b 0 8, field b 8 8) :: r)

/-- What is wrong with a region, with the offset in its entry. -/
def regionFail (y : Sys) (part vf : Nat) (h : HeapWindow) (r : Nat × Nat) : Option (Nat × Cause) :=
  let (p, n) := r
  if spaceOf p = 0 then
    if rankOf p != 0 then some (0, .space)
    else if n = 0 then some (8, .badcmd)
    else if h.inside (offsetOf p) n && ((y.part part).flat (h.at (offsetOf p + n - 1))).isSome then none else some (0, .limit)
  else if spaceOf p = 2 then
    if rankOf p = 255 || bits p 51 24 != 0 then some (0, .space)
    else if n = 0 then some (8, .badcmd)
    else if (y.sramObject part vf p n).isSome then none else some (0, .limit)
  else some (0, .space)

/-- A descriptor's regions, or the address to log and its cause. -/
def snapValid (s : State) (part vf : Nat) (h : HeapWindow) (addr : Nat) (b : List Byte) : Except (Nat × Cause) (List (Nat × Nat)) :=
  match (snapChecks s.sys part h b).find? (fun c => !c.1) with
  | some (_, o, c) => .error (addr + o, c)
  | none =>
    match readRegions s part h (offsetOf (field b 8 8)) (field b 0x10 2) with
    | none => .error (addr + 8, .badcmd)
    | some rs =>
      match (rs.mapIdx (fun j r => (regionFail s.sys part vf h r).map (fun f => (field b 8 8 + 16 * j + f.1, f.2)))).findSome? id with
      | some f => .error f
      | none => .ok rs

/-! ### SNAP and SNAPST -/

/-- SNAP (R192): the control processor waits for the coordinator's answer. -/
def execSnap (o : FormTF) : State → Host.Outcome State Fault Refusal :=
  let a := o.a.toNat
  let d := o.d.toNat
  wordNext (fun i s =>
    let ds : Desc :=
    { g := o.g, s := o.s, src := [a], dst := [d, d + 1], agents := .cpOnly, bad := d % 2 == 1 }
    match i.check s.sys ds with
    | .hold => s.sys
    | .trap c m x => i.trap s.sys c m x
    | .go =>
      if i.act ds.g = 0 then i.fall ds [] [] s.sys
      else
        let p := (i.v64 0 a).toNat
        let ctx := i.ctx s.sys
        if spaceOf p != 0 then i.trap s.sys .space i.e.mask (BitVec.ofNat 64 p)
        else
          match ctx.failure s.sys 0 .load 64 64 { lane := 0, base := p, ea := p } with
          | some (_, c) => i.trap s.sys c i.e.mask (BitVec.ofNat 64 p)
          | none =>
            if 64 ≤ s.sys.openCmds i.core || !s.sys.cpQuiet i.core then s.sys
            else
              match readRecord s ctx p 1 with
              | .error c => i.trap s.sys c i.e.mask (BitVec.ofNat 64 p)
              | .ok b =>
                match snapValid s i.part i.vf ctx.heap p b with
                | .error (at_, why) =>
                  let (c, y) := i.newCmd s.sys (.snap false) p b
                  let y1 := i.setX [(d, 3), (d + 1, BitVec.ofNat 64 c.handle)] y
                  i.fall ds [] [] ((y1.addCmd c).setStatus s.gtime c.handle .invalid (some (why, BitVec.ofNat 64 at_)) true)
                | .ok rs =>
                  let y := s.sys.modCp i.core (fun c => { c with snapWait := some d, pend := if o.s then [] else c.pend })
                  y.askSnapshot s.gtime i.part
                    { cp := some (i.core, d), host := none, reqcol := BitVec.ofNat 2 (bits (field b 0 4) 9 8), desc := b, regions := rs })

/-- The STATE code of a colour (R207). -/
def ColourState.code : ColourState → Nat
  | .free => 0 | .live => 1 | .localdone => 2 | .quiet => 3 | .aborting => 4

/-- SNAPST (R193). -/
def execSnapst (o : FormTF) : State → Host.Outcome State Fault Refusal :=
  let a := o.a.toNat
  let d := o.d.toNat
  wordNext (fun i s =>
    let ds : Desc := { g := o.g, s := o.s, src := [a], dst := [d] }
    match i.check s.sys ds with
    | .hold => s.sys
    | .trap c m x => i.trap s.sys c m x
    | .go =>
      let st := fun (l : Nat) =>
        if !i.cp && i.det then 0
        else
          let sel := if i.cp then (i.v64 0 a).getLsbD 0 else (i.v l a).getLsbD 0
          ((s.sys.part i.part).colour sel).st.code
      i.fall ds [] [] (i.commit { v := (lanesOf (i.act o.g)).map (fun l => (l, d, BitVec.ofNat 64 (st l))) } s.sys))

/-! ### Scope (R190, R195) -/

/-- Launches joined by those whose parent is among them, as often as there are launches. -/
def descendants (ls : List Launch) : Nat → List Launch → List Launch
  | 0, acc => acc
  | n + 1, acc =>
    let more := ls.filter (fun l => !acc.any (fun x => x.uid == l.uid) && acc.any (fun x => x.record.launchId == l.record.parentId))
    descendants ls n (acc ++ more)

/-- The launches in group scope. -/
def Sys.scopeLaunches (y : Sys) (part : Nat) (d : Option SnapReq) : List Nat :=
  let ls := y.launches.filter (fun l => l.part == part)
  let all := ls.map (fun l => l.uid)
  match d with
  | some r =>
    if bit (field r.desc 0 4) 10 then
      (descendants ls ls.length (ls.filter (fun l => l.record.launchId.toNat == field r.desc 4 4))).map (fun l => l.uid)
    else all
  | none => all

/-- The VF of a request for a snapshot. -/
def Sys.reqVf (y : Sys) (r : SnapReq) : Nat :=
  match r.cp, r.host with
  | some (core, _), _ => (y.core core).cp.vf
  | none, some u => (match y.hostCmd? u with | some c => c.vf | none => 0)
  | none, none => 0

/-- The cores of a partition. -/
def Part.cores (q : Part) : List Nat := q.dieList.flatMap (fun d => (List.range 64).map (fun j => d * 64 + j))

/-- The runs of a region. -/
def Sys.regionSpans (y : Sys) (part vf : Nat) (r : Nat × Nat) : List Span :=
  if spaceOf r.1 = 0 then [.heap vf (offsetOf r.1 / 65536 * 65536) (offsetOf r.1 + r.2)]
  else
    match y.sramObject part vf r.1 r.2 with
    | some f => [.bank (sramCore f) (sramOfs f / 16384) ((sramOfs f + r.2 + 16383) / 16384)]
    | none => []

/-- Every heap window and SRAM window of the partition's VFs. -/
def Sys.windowSpans (y : Sys) (part : Nat) : List Span :=
  (y.partVfs part).flatMap (fun v =>
    let f := y.vf v
    (if f.heap.hlimit = 0 then []
     else [Span.heap v (f.heap.hofs.toNat / 65536 * 65536) (f.heap.hofs.toNat + f.heap.hlimit.toNat)]) ++
    (if f.dsvalid then (y.part part).cores.map (fun c => Span.bank c f.dsbase.toNat (f.dsbase.toNat + f.dsn.toNat)) else []))

/-- The scratchpad banks of blocks, and the accumulator banks of tiles, whose owners are in group scope. -/
def Sys.ownedSpans (y : Sys) (us : List Nat) : List Span :=
  let bs := y.blocks.filter (fun b => us.contains b.launch)
  let gs := y.groups.filter (fun g => us.contains g.launch)
  let mine := fun (o : Nat) => bs.any (fun b => b.uid == o) || gs.any (fun g => g.handle == o)
  (bs.flatMap (fun b => b.scr.map (fun r => Span.bank b.core (r.1 / 16384) ((r.1 + r.2 + 16383) / 16384)))) ++
  ((y.tileOwner.filter (fun t => mine t.2)).map (fun t => Span.acc (t.1 / 128) (t.1 % 128 / 4) (t.1 % 128 / 4 + 1)))

/-- The place of a run in the sweep (R195). -/
def Sys.spanKey (y : Sys) (x : Span) : Nat :=
  match x with
  | .heap v lo _ => (y.vf v).heap.hbase.toNat + (lo - (y.vf v).heap.hofs.toNat)
  | .bank c lo _ => 2 ^ 60 + c * 1024 + lo
  | .acc c lo _ => 2 ^ 61 + c * 1024 + lo

/-- A list by rising key. -/
def insertBy {α : Type} (key : α → Nat) (x : α) : List α → List α
  | [] => [x]
  | z :: r => if key x < key z then x :: z :: r else z :: insertBy key x r

def sortBy {α : Type} (key : α → Nat) (l : List α) : List α := l.foldl (fun acc x => insertBy key x acc) []

/-- The scope of a snapshot. -/
def Sys.scopeOf (y : Sys) (part : Nat) (d : Option SnapReq) : List Span :=
  let base := match d with
    | some r => if r.regions.isEmpty then y.windowSpans part else r.regions.flatMap (y.regionSpans part (y.reqVf r))
    | none => y.windowSpans part
  sortBy y.spanKey (base ++ y.ownedSpans (y.scopeLaunches part d))

/-- The first granule of a run that is not captured; `n` bounds those to pass over. -/
def firstGranule (done : List Granule) (mk : Nat → Granule) (stepBy hi : Nat) : Nat → Nat → Option Granule
  | 0, _ => none
  | n + 1, x => if hi ≤ x then none else if done.contains (mk x) then firstGranule done mk stepBy hi n (x + stepBy) else some (mk x)

def Span.first (done : List Granule) (x : Span) : Option Granule :=
  match x with
  | .heap v lo hi => firstGranule done (.heapPage v) 65536 hi (done.length + 1) lo
  | .bank c lo hi => firstGranule done (.bank c) 1 hi (done.length + 1) lo
  | .acc c lo hi => firstGranule done (.accBank c) 1 hi (done.length + 1) lo

/-- The next granule of the sweep. -/
def Colour.nextGranule (c : Colour) : Option Granule :=
  if c.st == .live then c.scope.findSome? (Span.first c.captured) else none

/-! ### Contexts (R197, R198) -/

/-- Bytes that the spec leaves open. -/
def freeBytes (y : Sys) (n : Nat) : List Byte × Sys :=
  let k := (n + 7) / 8
  (((List.range k).flatMap (fun j => bytesOf 8 (Config.freeWord (y.free + j)).toNat)).take n, { y with free := y.free + k })

/-- A group with the results of its register MMAs and of an MMAJ that has joined (R197): they enter the image. The arrival of the MMAJ
follows after the restore. -/
def Group.withProducts (g : Group) : Group :=
  let put := fun (x : Group) (seq : Nat) (ws : List (Nat × Word)) =>
    x.deliver seq { v := (ws.filter (fun w => g.lanes.getLsbD (w.1 / 128))).map (fun w => (w.1 / 128, w.1 % 128, w.2.setWidth 64)) }
  let g1 : Group := { g.mmas.foldl (fun x m => put x m.seq m.writes) g with mmas := [] }
  match g.mmaj with
  | some m => if m.joined then put g1 m.seq m.writes else g1
  | none => g1

/-- The records of a group: its context, or the two banks of its park slot (R117, R197). -/
def groupRecs (y : Sys) (part : Nat) (g0 : Group) : List StreamRec × Sys :=
  let g := g0.withProducts
  let as := y.accesses.filter (fun a => a.who == .group g.handle && !a.undone)
  let ts := y.tileOps.filter (fun t => t.group == g.handle)
  let sv := (y.core g.core).cp.svc.filter (fun x => x.handle == g.handle)
  let img : Image := .group g as ts sv
  let rank := (y.part part).rankOfCore g.core
  match g.offCore with
  | none =>
    let v := (List.range g.allot).flatMap (fun n => allLanes.flatMap (fun l => bytesOf 4 (sget g.regs.v (l * 128 + n)).toNat))
    let (b, y1) := freeBytes y 1024
    ([{ rkind := 3, ident := BitVec.ofNat 64 (g.slot + g.core % 4 * 64 + rank * 256), body := v ++ b, image := img }], y1)
  | some slot =>
    let ident := fun (j : Nat) => BitVec.ofNat 64 (224 + 2 * slot + j + g.core % 4 * 1024 + rank * 4096)
    let (b, y1) := freeBytes y 16384
    let (c, y2) := freeBytes y1 16384
    ([{ rkind := 2, ident := ident 0, body := b, image := img }, { rkind := 2, ident := ident 1, body := c, image := .bytes }], y2)

/-- The records of the groups in scope. -/
def Sys.groupRecords (y : Sys) (part : Nat) (us : List Nat) : List StreamRec × Sys :=
  (y.groups.filter (fun g => us.contains g.launch && !g.killed)).foldl (fun acc g =>
    let (r, z) := groupRecs acc.2 part g
    (acc.1 ++ r, z)) (([] : List StreamRec), y)

/-- The records of engine commands and of MLOOPs. A SNAP is no part of a snapshot. -/
def Sys.engineRecords (y : Sys) (part : Nat) : List StreamRec × Sys :=
  let cs := y.cmds.filter (fun c => c.part == part && c.isOpen && (match c.kind with | .snap _ => false | _ => true))
  let mine := fun (c : Cmd) => y.accesses.filter (fun a => a.who == .engine c.handle)
  let rs := cs.map (fun c => ({ rkind := 4, ident := 0, body := c.record, image := .engine c (mine c) } : StreamRec))
  let ms := y.mloops.filter (fun m => y.partOfCore m.core == part)
  ms.foldl (fun acc m =>
    let (b, z) := freeBytes acc.2 64
    (acc.1 ++ [{ rkind := 4, ident := 0, body := b, image := .loop m }], z)) (rs, y)

/-- The fabric context's image. -/
def Sys.fabricImage (y : Sys) (part : Nat) (us : List Nat) : FabricImage :=
  let q := y.part part
  let ls := y.launches.filter (fun l => us.contains l.uid)
  { dies := q.dies, chips := y.domainChips part, dsres := q.dsres
    vfs := (y.partVfs part).map (fun v => (v, (y.vf v).heap, (y.vf v).dsbase, (y.vf v).dsn, (y.vf v).dsvalid))
    launches := ls
    blocks := y.blocks.filter (fun b => ls.any (fun l => l.uid == b.launch))
    waits := y.storeWaits.filter (fun w => w.part == part && w.hostCmd.isNone)
    tombs := y.tombstones.filter (fun t => q.joined && t.dom == q.dom.toNat)
    cgroups := q.cgroups
    held := q.held
    contribs := y.contribs.filter (fun c => y.partOfFlat (c.line * 128) == some part)
    due := y.due.filter (fun d => y.partOfFlat d.bar == some part)
    tileOwner := y.tileOwner.filter (fun t => y.partOfCore (t.1 / 128) == part)
    bins := (y.cores.filter (fun c => y.partOfCore c.1 == part && !c.2.bins.isEmpty)).map (fun c => (c.1, c.2.bins)) }

/-- The fabric context's record. -/
def Sys.fabricRecord (y : Sys) (part : Nat) (us : List Nat) : StreamRec × Sys :=
  let (b, y1) := if (y.part part).joined then freeBytes y 64 else (List.replicate 64 (0 : Byte), y)
  ({ rkind := 6, ident := 0, body := b, image := .fabric (y.fabricImage part us) }, y1)

/-! ### The record point (R194, R200) -/

/-- The channel keys of the domain. -/
def Sys.channelsOf (y : Sys) (part : Nat) : List Nat :=
  if (y.part part).joined then (y.domainChips part).flatMap (fun c => (List.range 3).map (fun k => c * 4 + k)) else []

/-- The channel markers leave. -/
def Sys.sendMarkers (y : Sys) (part : Nat) (b : Bool) : Sys :=
  let c := y.colour part b
  c.chans.foldl (fun z k =>
    let n := tget c.sent k 0
    (z.sendMarker part (BitVec.ofNat 2 k) (k / 4) (markerUnit b (k % 4) .channel n c.snapno.toNat 0 0)).modColour part b
      (fun x => { x with markersSent := x.markersSent ++ [(k, n)] })) y

/-- The groups of some launches issue again the MMAJs of theirs that have not joined, from the boundary before them (R356). -/
def Sys.withdrawScope (y : Sys) (us : List Nat) : Sys :=
  (y.groups.filter (fun g => us.contains g.launch && !g.killed)).foldl (fun z g => z.withdrawMmaj g.handle) y

/-- A chip records a colour. -/
def Sys.record (w : Sys) (now part : Nat) (b : Bool) : Sys :=
  let c := w.colour part b
  let us := w.scopeLaunches part c.desc
  let y := w.withdrawScope us
  let (gs, y1) := y.groupRecords part us
  let (es, y2) := y1.engineRecords part
  let (fr, y3) := y2.fabricRecord part us
  let scope := y.scopeOf part c.desc
  let chans := y.channelsOf part
  let label := match c.desc with | some r => BitVec.ofNat 64 (field r.desc 0x18 8) | none => 0
  let y4 := y3.modColour part b (fun c => { c with
    st := .live, init := c.desc.isSome, snapno := c.pendingNo, capbytes := 0, headerBit := true, recEpoch := c.recEpoch + 1
    captured := [], scope := scope, trec := none, desc := none, chans := chans, markersSent := [], markers := [], closed := []
    logs := [], label := label, deadline := some (now + (y.part part).snaptmo.toNat * 1000000), staging := gs ++ es ++ [fr]
    written := 0, sinkPos := [], blocks := [], endWritten := false, aborted := false, nvmePending := 0, hostCmd := none, bitRequests := []
    abortAsked := false })
  let y5 := (y4.sendMarkers part b).modCoord part b (fun k =>
    if (y.part part).coordinator = (y.part part).chip.toNat then { k with awaited := y.domainChips part } else k)
  let y6 := match c.hostCmd with
    | some u => y5.completeHost u .ok (BitVec.ofNat 64 ((if b then 1 else 0) + c.pendingNo.toNat * 2 ^ 32))
    | none => y5
  if c.desc.isNone && c.sinks = 0 then y6.askAbort now part b else y6

/-- A colour's record point has come. -/
def Colour.recordDue (c : Colour) (now : Nat) : Bool := c.st == .free && (match c.trec with | some t => decide (t ≤ now) | none => false)

/-- RECORD_POINT (R194). It happens at Trec, before anything else (`dueEvent`). -/
def execRecordPoint : State → Host.Outcome State Fault Refusal :=
  eventNext (fun s => match s.sys.ev with
    | some (.recordPoint part b) =>
      if (s.sys.colour part b).recordDue s.gtime then { sys := s.sys.record s.gtime part b } else Eff.none s
    | _ => Eff.none s)

/-! ### Capture and sinks (R195, R204-R206) -/

/-- SWEEP_CAPTURE (R195): the next granule still pending is copied to staging, when it has room. -/
def execSweepCapture : State → Host.Outcome State Fault Refusal :=
  eventNext (fun s => match s.sys.ev with
    | some (.sweepCapture part) =>
      let q := s.sys.part part
      (match q.colourA.nextGranule.orElse (fun _ => q.colourB.nextGranule) with
        | some g =>
          if q.stagingBytes < q.staged + g.room then Eff.none s else { sys := captureGranule s part g }
        | none => Eff.none s)
    | _ => Eff.none s)

/-- STAGING_FREED (R195): what Kite has written leaves staging. -/
def execStagingFreed : State → Host.Outcome State Fault Refusal :=
  eventNext (fun s => match s.sys.ev with
    | some (.stagingFreed part) => { sys := s.sys.modPart part (fun q => { q with unfreed := 0 }) }
    | _ => Eff.none s)

/-- The header of a record (R205). -/
def streamHeader (b aborted : Bool) (snapno : Word) (lchip : BitVec 12) (seq : Nat) (label : DWord) (r : StreamRec) : List Byte :=
  bytesOf 4 (r.rkind + (if b then 256 else 0) + (if aborted then 512 else 0)) ++ bytesOf 4 r.body.length ++ bytesOf 4 snapno.toNat ++
    bytesOf 4 lchip.toNat ++ bytesOf 8 r.ident.toNat ++ bytesOf 8 seq ++ bytesOf 8 label.toNat ++ List.replicate 24 0

/-- Bytes padded with zeros to a multiple of 64. -/
def padTo64 (b : List Byte) : List Byte := b ++ List.replicate ((64 - b.length % 64) % 64) 0

/-- The bytes that a sink holds. -/
def Sink.room (k : Sink) : Nat := if k.kind = 2 then k.len.toNat * 4096 else k.len.toNat

/-- The sink that a colour's stream has come to. -/
def Colour.lastSink (c : Colour) : Nat := c.sinkPos.foldl (fun m p => max m p.1) 0

/-- The sink that takes a record of n bytes: the one in use, or the next that has room (R206). -/
def Part.sinkFor (q : Part) (c : Colour) (n : Nat) : Option Nat :=
  (List.range 8).find? (fun i => c.sinks.getLsbD i && decide (c.lastSink ≤ i) &&
    decide (tget c.sinkPos i 0 + n ≤ (tget q.sinks i {}).room))

/-- The VF through whose port sinks are reached (R204). -/
def Sys.sinkVf (y : Sys) (part : Nat) : Nat :=
  let vs := sortBy id (y.partVfs part)
  ((vs.find? (fun v => (y.vf v).en)).orElse (fun _ => vs.head?)).getD 0

/-- Kite writes a record to a colour's sinks; none when it fits in none. To a range of memory its bytes go at once, as data with Relaxed Ordering,
the end record as a flag (R206); to an NVMe device they go with the Writes of its blocks. -/
def writeRecord (s : State) (part : Nat) (b aborted : Bool) (r : StreamRec) : Option Eff :=
  let q := s.sys.part part
  let c := q.colour b
  let header := streamHeader b aborted c.snapno q.chip c.written c.label r
  let bytes := header ++ padTo64 r.body
  let n := bytes.length
  (q.sinkFor c n).map (fun i =>
    let k := tget q.sinks i {}
    let pos := tget c.sinkPos i 0
    let sum := fun (l : List (Nat × Nat)) => l.foldl (fun m p => m + p.2) 0
    let now := sum (tset c.sinkPos i (pos + n)) / 4096
    let was := sum c.sinkPos / 4096
    let vf := s.sys.sinkVf part
    let place := if k.kind = 1 then s.sys.physFlat vf (k.base.toNat + pos) else none
    let rec_ : SunkRec :=
    { snapno := c.snapno, lchip := q.chip, sink := k, aborted := aborted, body := r, header := header, place := place }
    let kept := if pos = 0 then s.sys.sunk.filter (fun x => x.sink != k) else s.sys.sunk
    let y0 : Sys := { s.sys with sunk := kept ++ [rec_] }
    let y := (y0.modPart part (fun p => p.takeSlots 2 (now - was))).modColour part b
      (fun x => { x with
        written := x.written + 1, sinkPos := tset x.sinkPos i (pos + n), capbytes := BitVec.ofNat 32 (min now (2 ^ 32 - 1)) })
    match place with
    | some f =>
      let e := putBytes { s with sys := y } f bytes
      { e with sys := if r.rkind = 7 then e.sys.post vf f n .flag 1 false else e.sys.post vf f n .data 1 true }
    | none => { sys := y })

/-! ### NVMe sinks (R204; the layout of entries is PRESUMED, assumption log 66) -/

/-- A Write of blocks: opcode 01, the command's number, the namespace, two PRP entries, the first block, and the number of blocks less 1. -/
def nvmeEntry (cid : BitVec 16) (nsid : Word) (prp1 prp2 : DWord) (lba n : Nat) : List Byte :=
  bytesOf 4 (1 + cid.toNat * 65536) ++ bytesOf 4 nsid.toNat ++ List.replicate 16 0 ++ bytesOf 8 prp1.toNat ++ bytesOf 8 prp2.toNat ++
    bytesOf 8 lba ++ bytesOf 4 (n - 1) ++ List.replicate 12 0

/-- The blocks of an NVMe sink that the stream has filled: with the end record, or the stream in a later sink, the last one too. -/
def Colour.blocksDue (c : Colour) (i : Nat) : Nat :=
  let pos := tget c.sinkPos i 0
  if c.endWritten || decide (i < c.lastSink) then (pos + 4095) / 4096 else pos / 4096

/-- The first NVMe sink of a colour with blocks still to send. -/
def Part.nvmeLeft (q : Part) (c : Colour) : Option Nat :=
  (List.range 8).find? (fun i => c.sinks.getLsbD i && (tget q.sinks i {}).kind == 2 && decide (tget c.blocks i 0 < c.blocksDue i))

/-- A page of the BAR2 staging window, whose address the host gives it and no rule states. -/
def stagingPage (y : Sys) : DWord × Sys :=
  let (w, y1) := takeFree y
  (w >>> 12 <<< 12, y1)

/-- A Write of up to 16 blocks is put in an NVMe sink's submission queue, and the doorbell rung; none while the queue is full. -/
def nvmeWrite (s : State) (part : Nat) (b : Bool) (i : Nat) : Option Eff :=
  let q := s.sys.part part
  let c := q.colour b
  let k := tget q.sinks i {}
  let u := tget q.nvme i {}
  let depth := 2 ^ k.log2qd.toNat
  let done := tget c.blocks i 0
  let n := min 16 (c.blocksDue i - done)
  if depth ≤ u.inFlight.length + 1 then none
  else
    let (p1, y1) := stagingPage s.sys
    let (p2, y2) := if n = 1 then ((0 : DWord), y1) else stagingPage y1
    let tail := (u.tail + 1) % depth
    let y3 := (y2.modPart part (fun p => { p with
      nvme := tset p.nvme i { u with tail := tail, cid := u.cid + 1, inFlight := u.inFlight ++ [(u.cid, b, c.snapno)] } })).modColour part b
        (fun x => { x with blocks := tset x.blocks i (done + n), nvmePending := x.nvmePending + 1 })
    let vf := s.sys.sinkVf part
    let put := fun (t : State) (p : Nat) (bs : List Byte) => match t.sys.physFlat vf p with
      | some f => let e := putBytes t f bs; { e with sys := e.sys.post vf f bs.length .flag 1 false }
      | none => Eff.none t
    let t : State := { s with sys := y3 }
    some ((put t (k.base.toNat + 64 * u.tail) (nvmeEntry u.cid k.nsid p1 p2 (k.lba.toNat + done) n)).andThen t
      (fun w => put w k.sqdb.toNat (bytesOf 4 tail)))

/-- NVME_COMPLETION (R204): Kite finds a completion of a colour's oldest Write; one with an error aborts its snapshot. -/
def execNvmeCompletion : State → Host.Outcome State Fault Refusal :=
  eventNext (fun s => match s.sys.ev with
    | some (.nvmeCompletion part b ok) =>
      let q := s.sys.part part
      let c := q.colour b
      (match (List.range 8).findSome? (fun i => ((tget q.nvme i {}).inFlight.find? (fun w => w.2.1 == b)).map (fun w => (i, w))) with
        | none => Eff.none s
        | some (i, w) =>
          let y := s.sys.modPart part (fun p => { p with nvme := tmod p.nvme i {} (fun u => { u with
            inFlight := u.inFlight.erase w, head := (u.head + 1) % 2 ^ (tget q.sinks i {}).log2qd.toNat }) })
          if w.2.2 != c.snapno || c.nvmePending = 0 then { sys := y }
          else
            let y1 := y.modColour part b (fun c => { c with nvmePending := c.nvmePending - 1 })
            { sys := if ok then y1 else y1.askAbort s.gtime part b })
    | _ => Eff.none s)

/-! ### Kite's work (R206) -/

/-- The end record (R205). -/
def endRec (c : Colour) : StreamRec := { rkind := 7, ident := 0, body := bytesOf 8 c.written, image := .bytes }

/-- A chip that recorded on a header bit knows its snapshot's number from its first marker; until then no header can be written. -/
def Colour.unnamed (c : Colour) : Bool := c.snapno = 0 && !c.init && c.markers.isEmpty && !c.chans.isEmpty

/-- The end of an aborted snapshot once its end record is in its sink. -/
def finishAbort (part : Nat) (b : Bool) (t : State) : Eff :=
  match (t.sys.part part).nvmeLeft (t.sys.colour part b) with
  | some i => (nvmeWrite t part b i).getD (Eff.none t)
  | none => { sys := t.sys.completeChip t.gtime part b true }

/-- What Kite does next for a colour: none when it has nothing to write. -/
def kiteStep (s : State) (part : Nat) (b : Bool) : Option Eff :=
  let c := s.sys.colour part b
  let ask := (s.sys.modColour part b (fun x => { x with abortAsked := true })).askAbort s.gtime part b
  match c.st with
  | .aborting =>
    if c.endWritten then some (finishAbort part b s)
    else
      let e := (writeRecord s part b true (endRec c)).getD (Eff.none s)
      some (Eff.andThen { e with sys := e.sys.modColour part b (fun x => { x with endWritten := true }) } s (finishAbort part b))
  | .live =>
    if c.abortAsked || c.unnamed then none else
    (match (s.sys.part part).nvmeLeft c with
      | some i => nvmeWrite s part b i
      | none =>
        match c.staging with
        | r :: _ =>
          (match writeRecord s part b false r with
            | none => some { sys := ask }
            | some e =>
              let y := e.sys.modColour part b (fun x => { x with staging := x.staging.drop 1 })
              -- a copy that serves the other colour too stays until that has been written (R195)
              let left := (y.colour part (!b)).staging.any r.sameCopy
              some { e with sys := y.modPart part (fun q => { q with unfreed := q.unfreed + if left then 0 else r.room }) })
        | [] =>
          if c.endWritten || c.nextGranule.isSome || !c.chans.all (fun k => c.closed.contains k) then none
          else
            match writeRecord s part b false (endRec c) with
            | none => some { sys := ask }
            | some e => some { e with sys := e.sys.modColour part b (fun x => { x with endWritten := true }) })
  | _ => none

/-- KITE_RECORD_WRITE (R206), when the partition may have Kite's slots (R78). -/
def execKiteRecordWrite : State → Host.Outcome State Fault Refusal :=
  eventNext (fun s => match s.sys.ev with
    | some (.kiteRecordWrite part) =>
      if !s.sys.slotFor part 2 then Eff.none s
      else ((kiteStep s part false).orElse (fun _ => kiteStep s part true)).getD (Eff.none s)
    | _ => Eff.none s)

/-! ### Completion, timeout, reopening (R202, R203) -/

/-- LOCAL_COMPLETE (R202). -/
def execLocalComplete : State → Host.Outcome State Fault Refusal :=
  eventNext (fun s => match s.sys.ev with
    | some (.localComplete part b) =>
      let c := s.sys.colour part b
      if c.st == .live && c.endWritten && c.nvmePending = 0 && ((s.sys.part part).nvmeLeft c).isNone then
        let y := (s.sys.modColour part b (fun c => { c with st := .localdone, recv := [], deadline := none })).endSnap s.gtime part b true
        let q := y.part part
        { sys := y.message part b .localdone 0 c.snapno.toNat q.chip.toNat 0 q.coordinator
            (fun z => z.coordLocaldone s.gtime part b q.chip.toNat) }
      else Eff.none s
    | _ => Eff.none s)

/-- SNAPTMO_EXPIRY (R203). -/
def execSnaptmoExpiry : State → Host.Outcome State Fault Refusal :=
  eventNext (fun s => match s.sys.ev with
    | some (.snaptmoExpiry part b) =>
      let c := s.sys.colour part b
      if c.st == .live && (match c.deadline with | some t => decide (t ≤ s.gtime) | none => false) then
        { sys := (s.sys.modColour part b (fun c => { c with deadline := none })).askAbort s.gtime part b }
      else Eff.none s
    | _ => Eff.none s)

/-- REOPEN_TIMER (R202): the coordinator sends REOPEN to every chip. -/
def execReopenTimer : State → Host.Outcome State Fault Refusal :=
  eventNext (fun s => match s.sys.ev with
    | some (.reopenTimer part b) =>
      let k := s.sys.coord part b
      (match k.reopenAt with
        | some t =>
          if t ≤ s.gtime then
            let y := s.sys.modCoord part b (fun k => { k with reopenAt := none })
            { sys := k.awaited.foldl (fun z d =>
                z.message part b .reopen 0 (s.sys.colour part b).snapno.toNat 0 0 d (fun w => w.reopenChip part b)) y }
          else Eff.none s
        | none => Eff.none s)
    | _ => Eff.none s)

/-! ### Messages (R200-R203) -/

/-- A channel marker closes its channel once RECV equals its count (R201). -/
def Colour.mark (c : Colour) (k n : Nat) : Colour := ({ c with markers := c.markers ++ [(k, n)] } : Colour).close k

/-- A marker starts the record of its colour, or names the snapshot of one that a header bit started (R194). -/
def Sys.markerTrigger (y : Sys) (now part : Nat) (m : SnapMsg) : Sys :=
  (y.trigger now part m.colour m.snapno).modColour part m.colour (fun c =>
    if c.pendingNo = 0 then { c with pendingNo := m.snapno } else c)

/-- The number of a recorded snapshot that a header bit started is the one that its first marker names. -/
def Colour.name (c : Colour) (n : Word) : Colour := if c.snapno = 0 && c.st == .live then { c with snapno := n } else c

/-- A channel marker arrives. -/
def channelMarker (s : State) (p : Packet) : Eff :=
  let y := s.sys
  let m := snapMsgOf p
  match (if p.malformed then none else y.hostPart p.dom.toNat p.dlog.toNat) with
  | some part =>
    let c := y.colour part m.colour
    if y.isNext p && (y.part part).check p != .stale && c.st == .free then { sys := y.markerTrigger s.gtime part m }
    else
      arrive s p tMarker (fun t n => some { sys := t.sys.modColour n m.colour (fun c =>
        (c.name m.snapno).mark (chanKey p.slog (markerClass p)) m.count.toNat) })
  | none => arrive s p tMarker (fun t _ => some (Eff.none t))

/-- MARKER_CHANNEL (R201), and any MARKER that is malformed or for a chip that is not here. -/
def execMarkerChannel : State → Host.Outcome State Fault Refusal :=
  eventNext (fun s => match s.sys.ev with
    | some (.markerChannel p) =>
      if p.typ == tMarker && (p.malformed || p.mkind == 0 || (s.sys.hostPart p.dom.toNat p.dlog.toNat).isNone) then channelMarker s p
      else Eff.none s
    | _ => Eff.none s)

/-- A protocol message of a kind arrives at a chip. -/
def messageAct (s : State) (part : Nat) (m : SnapMsg) (k : MsgKind) (f : Sys → Sys) : Eff :=
  match s.sys.inbox.find? (fun p => p.typ == tMarker && !p.malformed && p.mkind == k.code &&
      s.sys.hostPart p.dom.toNat p.dlog.toNat == some part && snapMsgOf p == m) with
  | none => Eff.none s
  | some p => arrive s p tMarker (fun t _ => some { sys := f t.sys })

/-- LOCALDONE_MSG (R202). -/
def execLocaldoneMsg : State → Host.Outcome State Fault Refusal :=
  eventNext (fun s => match s.sys.ev with
    | some (.localdoneMsg part m) => messageAct s part m .localdone (fun y => y.coordLocaldone s.gtime part m.colour m.src.toNat)
    | _ => Eff.none s)

/-- COMPLETE_MSG (R202). -/
def execCompleteMsg : State → Host.Outcome State Fault Refusal :=
  eventNext (fun s => match s.sys.ev with
    | some (.completeMsg part m) => messageAct s part m .complete (fun y => y.completeChip s.gtime part m.colour false)
    | _ => Eff.none s)

/-- FREED_MSG (R202). -/
def execFreedMsg : State → Host.Outcome State Fault Refusal :=
  eventNext (fun s => match s.sys.ev with
    | some (.freedMsg part m) => messageAct s part m .freed (fun y => y.coordFreed s.gtime part m.colour m.src.toNat)
    | _ => Eff.none s)

/-- REOPEN_MSG (R202). -/
def execReopenMsg : State → Host.Outcome State Fault Refusal :=
  eventNext (fun s => match s.sys.ev with
    | some (.reopenMsg part m) => messageAct s part m .reopen (fun y => y.reopenChip part m.colour)
    | _ => Eff.none s)

/-- REOPENED_MSG (R202). -/
def execReopenedMsg : State → Host.Outcome State Fault Refusal :=
  eventNext (fun s => match s.sys.ev with
    | some (.reopenedMsg part m) => messageAct s part m .reopened (fun y => y.coordReopened part m.colour m.src.toNat)
    | _ => Eff.none s)

/-- SNAP_REQUEST_MSG (R189). -/
def execSnapRequestMsg : State → Host.Outcome State Fault Refusal :=
  eventNext (fun s => match s.sys.ev with
    | some (.snapRequestMsg part m) => messageAct s part m .request (fun y => y.coordRequest s.gtime part m.reqcol m.src.toNat)
    | _ => Eff.none s)

/-- GRANT (R189, R194). -/
def execGrant : State → Host.Outcome State Fault Refusal :=
  eventNext (fun s => match s.sys.ev with
    | some (.grant part m) => messageAct s part m .grant (fun y => y.granted s.gtime part m.colour m.snapno)
    | _ => Eff.none s)

/-- REFUSE (R189). -/
def execRefuse : State → Host.Outcome State Fault Refusal :=
  eventNext (fun s => match s.sys.ev with
    | some (.refuse part m) => messageAct s part m .refuse (fun y => y.refused part)
    | _ => Eff.none s)

/-- ABORT_MSG (R203): the coordinator passes it on; any other chip aborts. -/
def execAbortMsg : State → Host.Outcome State Fault Refusal :=
  eventNext (fun s => match s.sys.ev with
    | some (.abortMsg part m) => messageAct s part m .abort (fun y =>
        let q := y.part part
        if q.coordinator = q.chip.toNat then y.coordAbort s.gtime part m.colour else y.abortChip s.gtime part m.colour m.snapno)
    | _ => Eff.none s)

/-- TOMBCOUNT (R199): packets that a tombstone discarded count as received. -/
def execTombcount : State → Host.Outcome State Fault Refusal :=
  eventNext (fun s => match s.sys.ev with
    | some (.tombcount part m) => messageAct s part m .tombcount (fun y =>
        let k := chanKey m.src 0
        y.modColour part m.colour (fun c => ({ c with recv := tmod c.recv k 0 (· + m.count.toNat) } : Colour).close k))
    | _ => Eff.none s)

end Sys2Proof.Machine
end

