-- ==== Sys2Proof/Machine/Power.lean ====
section
/-!
DEFINITION. Power, cooling and clocks (R17, R19, R20), wear (R24), patrol scrub and stopped dies (R61, R62).
-/
namespace Sys2Proof.Machine

/-! ### Power caps (R19, R20) -/

/-- INPUT_VOLTAGE_FAULT (R19): an orderly power-down. -/
def execInputVoltageFault : State → Host.Outcome State Fault Refusal :=
  eventNext (fun s => match s.sys.ev with
    | some (.inputVoltageFault mv) =>
      if mv < 48000 || 58500 < mv then { sys := ({ s.sys with poweredDown := true } : Sys).recordEvent .inputVoltage mv }
      else Eff.none s
    | _ => Eff.none s)

/-- A partition's cap in twelfths of a W: PCAP, or the default (R20). -/
def Part.cap (q : Part) : Nat := if q.pcap = 0 then 3400 * q.dieList.length else 12 * q.pcap.toNat

/-- The cap in force in W, as an exact fraction: scaled where the caps sum to more than 3,400 W, and halved while the coolant is outside
its limits. Of which cap the half is taken R19 does not say: it is that of the cap after scaling (DESIGN CHOICE, assumption log 61). -/
def Sys.capOf (y : Sys) (p : Nat) : Nat × Nat :=
  let sum := y.validParts.foldl (fun n q => n + (y.part q).cap) 0
  let c := (y.part p).cap
  let d := if 12 * 3400 < sum then (c * 3400, sum) else (c, 12)
  if y.coolantFault then (d.1, 2 * d.2) else d

/-- The caps in force are recomputed. -/
def Sys.setCaps (y : Sys) : Sys := y.validParts.foldl (fun z p => z.modPart p (fun q => { q with capInForce := y.capOf p })) y

/-- The sixteenths that the dies of a partition withhold for its cap. -/
def Sys.capHeld (y : Sys) (p : Nat) : Nat := (y.part p).dieList.foldl (fun m d => max m (y.die d).capHeld.toNat) 0

/-- The dies of a partition withhold so many sixteenths for its cap (R17). -/
def Sys.holdBack (y : Sys) (p n : Nat) : Sys :=
  (y.part p).dieList.foldl (fun z d => z.modDie d (fun x => { x with capHeld := BitVec.ofNat 4 n })) y

/-- The draw of a partition over the window was above its cap. -/
def Sys.overCap (y : Sys) (p : Nat) (draw : List (Nat × Nat)) : Bool := decide ((y.capOf p).1 < tget draw p 0 * (y.capOf p).2)

/-- A share of a number of sixteenths in proportion to a cap, rounded up. -/
def share (n cap most : Nat) : Nat := (n * cap + most - 1) / most

/-- POWER_CAP_WINDOW (R19, R20): over the last 1 ms, a partition that drew more than its cap withholds more sixteenths than before, and while
the module drew more than 3,400 W every partition withholds some, in proportion to its cap. How many the spec leaves open: they are
free values, at least 1 and at most 15 of 16. -/
def execPowerCapWindow : State → Host.Outcome State Fault Refusal :=
  eventNext (fun s => match s.sys.ev with
    | some (.powerCapWindow draw) =>
      let y := s.sys.setCaps
      let total := draw.foldl (fun n d => n + d.2) 0
      let most := y.validParts.foldl (fun m p => max m (y.part p).cap) 1
      let (w, y1) := takeFree y
      let all := if 3400 < total then 1 + w.toNat % 15 else 0
      { sys := y.validParts.foldl (fun z p =>
          let was := y.capHeld p
          let (v, z1) := takeFree z
          let own := if y.overCap p draw then min 15 (was + 1 + v.toNat % (16 - was)) else 0
          z1.holdBack p (max own (share all (y.part p).cap most))) y1 }
    | _ => Eff.none s)

/-- COOLANT_FAULT (R19). -/
def execCoolantFault : State → Host.Outcome State Fault Refusal :=
  eventNext (fun s => match s.sys.ev with
    | some (.coolantFault celsius ml) =>
      if 45 < celsius || ml < 2500 then { sys := ({ s.sys with coolantFault := true } : Sys).setCaps } else Eff.none s
    | _ => Eff.none s)

/-- COOLANT_RESTORED (R19). -/
def execCoolantRestored : State → Host.Outcome State Fault Refusal :=
  eventNext (fun s => match s.sys.ev with
    | some (.coolantRestored celsius ml) =>
      if celsius ≤ 45 && 2500 ≤ ml then { sys := ({ s.sys with coolantFault := false } : Sys).setCaps } else Eff.none s
    | _ => Eff.none s)

/-! ### Dies (R19, R62) -/

/-- JUNCTION_THROTTLE (R19): how many sixteenths the die withholds is a free value, at least 1. -/
def execJunctionThrottle : State → Host.Outcome State Fault Refusal :=
  eventNext (fun s => match s.sys.ev with
    | some (.junctionThrottle d) =>
      if d < 12 then
        let (w, y) := takeFree s.sys
        { sys := y.modDie d (fun x => { x with hot := true, heatHeld := BitVec.ofNat 4 (1 + w.toNat % 15) }) }
      else Eff.none s
    | _ => Eff.none s)

/-- JUNCTION_BELOW_THROTTLE (R19). -/
def execJunctionBelowThrottle : State → Host.Outcome State Fault Refusal :=
  eventNext (fun s => match s.sys.ev with
    | some (.junctionBelowThrottle d) => if d < 12 then { sys := s.sys.modDie d (fun x => { x with hot := false }) } else Eff.none s
    | _ => Eff.none s)

/-- An engine command is ended from outside: it is ABORTED, or what it has in flight ends it. -/
def Sys.abortCmd (y : Sys) (now h : Nat) : Sys :=
  let y1 : Sys := { y with accesses := y.accesses.filter (fun a => a.who != .engine h) }
  y1.setStatus now h .aborted (some (.cmdabort, 0)) true

/-- A partition's work is terminated with a cause. -/
def Sys.terminatePart (y : Sys) (now p : Nat) (c : Cause) : Sys :=
  let y1 := y.logEal now p c 0 0 0 .mgmt 0 0 0
  let waits := y1.storeWaits.filter (fun w => w.part == p)
  let y0 := waits.foldl (fun (z : Sys) w => match w.hostCmd with
    | some u => z.completeHost u .terminated (w.record.launchId.setWidth 64)
    | none => z) { y1 with storeWaits := y1.storeWaits.filter (fun w => w.part != p) }
  let y2 := (y0.launches.filter (fun l => l.part == p && !l.finished)).foldl (fun z l => z.killLaunch l.uid) y0
  (y2.cmds.filter (fun k => k.part == p && k.isOpen)).foldl (fun z k => z.abortCmd now k.handle) y2

/-- A die stops, and its partition's work ends. -/
def Sys.stopDie (y : Sys) (now d : Nat) (c : Cause) (k : MgmtEvent) : Sys :=
  let y1 := (y.modDie d (fun x => { x with stopped := true })).recordEvent k d
  match y1.partOfDie d with
  | some p => y1.terminatePart now p c
  | none => y1

/-- JUNCTION_TRIP (R19). -/
def execJunctionTrip : State → Host.Outcome State Fault Refusal :=
  eventNext (fun s => match s.sys.ev with
    | some (.junctionTrip d) => if d < 12 then { sys := s.sys.stopDie s.gtime d .thermal .junctionTrip } else Eff.none s
    | _ => Eff.none s)

/-- CONTROL_PARITY_ERROR (R62). -/
def execControlParityError : State → Host.Outcome State Fault Refusal :=
  eventNext (fun s => match s.sys.ev with
    | some (.controlParityError d) => if d < 12 then { sys := s.sys.stopDie s.gtime d .ecc .parity } else Eff.none s
    | _ => Eff.none s)

/-! ### Patrol scrub (R61, R62) -/

/-- The address that a record names for a location: its partition memory address, or its distributed SRAM pointer. -/
def Sys.scrubAddr (y : Sys) (p f : Nat) : Nat :=
  let q := y.part p
  if isHbm f then q.unflat f
  else 2 * 2 ^ 60 + q.rankOfCore (sramCore f) * 2 ^ 52 + sramCore f % 4 * 2 ^ 22 + sramOfs f

/-- PATROL_SCRUB (R61, R62): a corrected location is written back; an uncorrectable one is logged and stays. -/
def execPatrolScrub : State → Host.Outcome State Fault Refusal :=
  eventNext (fun s => match s.sys.ev with
    | some (.patrolScrub f) =>
      let w := eccWord f
      if s.sys.eccBad.contains w then
        (match s.sys.partOfFlat f with
          | some p => { sys := s.sys.logEal s.gtime p .ecc 0 0 (BitVec.ofNat 64 (s.sys.scrubAddr p w)) .scrub 0 0 0 }
          | none => Eff.none s)
      else if s.sys.eccCorrectable.contains w then
        { sys := s.sys.correct w }
      else Eff.none s
    | _ => Eff.none s)

/-! ### Wear (R24) -/

/-- The module's wear registers stand beside those of the dies 0 to 11. -/
def moduleWear : Nat := 0xFFF

def Sys.wearOf (y : Sys) (n : Nat) : Wear := tget y.wear n {}

/-- Who is notified about a die or the module: the enabled VFs of the die's partition, or every enabled VF. -/
def Sys.wearVfs (y : Sys) (n : Nat) : List Nat :=
  let on := (y.vfs.filter (fun v => v.2.en)).map Prod.fst
  if n = moduleWear then on
  else
    match y.partOfDie n with
    | some p => (y.partVfs p).filter (fun v => on.contains v)
    | none => []

/-- Corrected errors for each 10^12 bits read over some hours, rounded down, as far as 32 bits hold them. -/
def errorTrend (hours : List (Nat × Nat)) : Word :=
  let errors := hours.foldl (fun n h => n + h.1) 0
  let bits := hours.foldl (fun n h => n + h.2) 0
  BitVec.ofNat 32 (min 0xFFFFFFFF (errors * 10 ^ 12 / bits))

/-- One update of wear registers, with the hour's corrected errors and bits read: PEOL, the drift of the oscillators and what the
electromigration count gains are the silicon's; PEOL stays all ones until the 24th update. -/
def Sys.updateWear (y : Sys) (now n : Nat) (peol : Word) (hour : Nat × Nat) : Sys :=
  let w := y.wearOf n
  let (a, y1) := takeFree y
  let hours := (hour :: w.hours).take 24
  let p := if w.updates + 1 < 24 then 0xFFFFFFFF else peol
  let warn := w.armed && decide (p.toNat < w.peolwarn.toNat)
  let y2 : Sys := { y1 with wear := tset y1.wear n { w with
    peol := p, roscdrift := a.setWidth 32
    emcount := BitVec.ofNat 32 (min 0xFFFFFFFF (w.emcount.toNat + ((a >>> 32).setWidth 32 : Word).toNat))
    hbmctrend := errorTrend hours, hours := hours
    peoltime := BitVec.ofNat 64 now, updates := w.updates + 1, armed := w.armed && !warn } }
  if warn then (y2.wearVfs n).foldl (fun z v => z.notify v 2 (BitVec.ofNat 64 n)) y2 else y2

/-- The hourly update of one die: its stack's errors since the last one are counted, and how many bits were read is a free value, since no
rule counts them. -/
def Sys.updateDie (y : Sys) (now d : Nat) : Sys :=
  let (p, y1) := takeFree y
  let (b, y2) := takeFree y1
  (y2.modDie d (fun x => { x with corrected := 0 })).updateWear now d (p.setWidth 32) ((y.die d).corrected, b.toNat)

/-- The newest hour of every die together. -/
def Sys.lastHour (y : Sys) : Nat × Nat :=
  (List.range 12).foldl (fun (m : Nat × Nat) d =>
    match (y.wearOf d).hours with | h :: _ => (m.1 + h.1, m.2 + h.2) | [] => m) (0, 0)

/-- PEOL_UPDATE (R24): every hour, each die and then the module, whose PEOL is the least of the dies'. -/
def execPeolUpdate : State → Host.Outcome State Fault Refusal :=
  eventNext (fun s => match s.sys.ev with
    | some .peolUpdate =>
      if s.gtime < (s.sys.wearOf moduleWear).peoltime.toNat + 3600000000000 then Eff.none s
      else
        let y := (List.range 12).foldl (fun z d => z.updateDie s.gtime d) s.sys
        let least := (List.range 12).foldl (fun (m : Word) d => if (y.wearOf d).peol.toNat < m.toNat then (y.wearOf d).peol else m) 0xFFFFFFFF
        { sys := y.updateWear s.gtime moduleWear least y.lastHour }
    | _ => Eff.none s)

end Sys2Proof.Machine
end

