-- ==== Sys2Proof/Machine/Tables.lean ====
section
/-!
DEFINITION. The tables of the management plane (R24, R46, R51-R53, R66, R132, R133, R196, R204, R262): their entries as bytes, the checks
of a write, and what a write does.
-/
namespace Sys2Proof.Machine

/-! ### Entries as bytes -/

def bit01 (b : Bool) : Nat := if b then 1 else 0

/-- The STATE of a partition (R52). -/
def PartState.code : PartState → Nat
  | .empty => 0 | .active => 1 | .draining => 2 | .scrubbing => 3

/-- A partition entry (R52). -/
def Part.bytes (q : Part) : List Byte :=
  bytesOf 4 (q.dies.toNat + bit01 q.valid * 2 ^ 16) ++ bytesOf 4 q.pcap.toNat ++
  bytesOf 4 (q.fabwt.toNat + q.cxlwt.toNat * 2 ^ 8 + q.svcwt.toNat * 2 ^ 16) ++
  bytesOf 4 (q.dom.toNat + q.lchip.toNat * 2 ^ 8 + bit01 q.joined * 2 ^ 20) ++
  bytesOf 4 (q.keylo.toNat + q.keyn.toNat * 2 ^ 8) ++ bytesOf 4 q.st.code ++ List.replicate 40 0

/-- The partition with its entry's writable fields as some bytes have them. -/
def Part.ofBytes (q : Part) (b : List Byte) : Part :=
  { q with
    dies := BitVec.ofNat 12 (field b 0 4), valid := bit (field b 0 4) 16, pcap := BitVec.ofNat 32 (field b 4 4)
    fabwt := BitVec.ofNat 8 (field b 8 1), cxlwt := BitVec.ofNat 8 (field b 9 1), svcwt := BitVec.ofNat 8 (field b 10 1)
    dom := BitVec.ofNat 8 (field b 12 1), lchip := BitVec.ofNat 12 (bits (field b 12 4) 19 8), joined := bit (field b 12 4) 20
    keylo := BitVec.ofNat 8 (field b 16 1), keyn := BitVec.ofNat 8 (field b 17 1) }

/-- A binding entry (R51). -/
def Vf.bindBytes (v : Vf) : List Byte :=
  bytesOf 4 (v.ld.toNat + v.part.toNat * 2 ^ 8 + bit01 v.valid * 2 ^ 16) ++ bytesOf 4 (v.keylo.toNat + v.keyn.toNat * 2 ^ 8) ++
    List.replicate 8 0

def Vf.ofBindBytes (v : Vf) (b : List Byte) : Vf :=
  { v with
    ld := BitVec.ofNat 4 (field b 0 1), part := BitVec.ofNat 4 (field b 1 1), valid := bit (field b 0 4) 16
    keylo := BitVec.ofNat 8 (field b 4 1), keyn := BitVec.ofNat 8 (field b 5 1) }

/-- A format entry (R133). -/
def FormatEntry.bytes (f : FormatEntry) : List Byte :=
  bytesOf 8 f.start.toNat ++ bytesOf 8 f.stop.toNat ++ bytesOf 8 f.aux.toNat ++
  bytesOf 8 (f.fmt.toNat + f.geom.toNat * 2 ^ 4 + bit01 f.d * 2 ^ 6 + bit01 f.p * 2 ^ 7 + f.key.toNat * 2 ^ 8)

def formatOf (b : List Byte) : FormatEntry :=
  let w := field b 0x18 8
  { start := BitVec.ofNat 64 (field b 0 8), stop := BitVec.ofNat 64 (field b 8 8), aux := BitVec.ofNat 64 (field b 16 8)
    fmt := BitVec.ofNat 4 w, geom := BitVec.ofNat 2 (bits w 5 4), d := bit w 6, p := bit w 7, key := BitVec.ofNat 8 (bits w 15 8) }

/-- A heap window header and its format entries (R132). -/
def HeapWindow.bytes (h : HeapWindow) : List Byte :=
  bytesOf 8 h.hbase.toNat ++ bytesOf 8 h.hlimit.toNat ++ bytesOf 8 h.hofs.toNat ++
  bytesOf 8 (bit01 h.fab + h.dkey.toNat * 2 ^ 8) ++ bytesOf 8 h.htroot.toNat ++ List.replicate 24 0 ++
  (List.range 16).flatMap (fun i => (tget h.formats i {}).bytes) ++ List.replicate 0x1C0 0

def heapOf (b : List Byte) : HeapWindow :=
  { hbase := BitVec.ofNat 64 (field b 0 8), hlimit := BitVec.ofNat 64 (field b 8 8), hofs := BitVec.ofNat 64 (field b 16 8)
    fab := bit (field b 0x18 8) 0, dkey := BitVec.ofNat 8 (field b 0x19 1), htroot := BitVec.ofNat 64 (field b 0x20 8)
    formats := ((List.range 16).map (fun i => (i, formatOf (slice b (0x40 + 0x20 * i) 32)))).filter (fun e => e.2 != {}) }

/-- A sink entry (R204). -/
def Sink.bytes (k : Sink) : List Byte :=
  bytesOf 4 k.kind.toNat ++ bytesOf 4 k.log2qd.toNat ++ bytesOf 8 k.base.toNat ++ bytesOf 8 k.len.toNat ++ bytesOf 8 k.cqbase.toNat ++
  bytesOf 8 k.sqdb.toNat ++ bytesOf 8 k.nsid.toNat ++ bytesOf 8 k.lba.toNat ++ List.replicate 8 0

def sinkOf (b : List Byte) : Sink :=
  { kind := BitVec.ofNat 2 (field b 0 1), log2qd := BitVec.ofNat 4 (field b 4 1), base := BitVec.ofNat 64 (field b 8 8)
    len := BitVec.ofNat 64 (field b 16 8), cqbase := BitVec.ofNat 64 (field b 24 8), sqdb := BitVec.ofNat 64 (field b 32 8)
    nsid := BitVec.ofNat 32 (field b 40 4), lba := BitVec.ofNat 64 (field b 48 8) }

/-- A snapshot control block (R196). -/
def Part.snapBytes (q : Part) : List Byte :=
  bytesOf 4 q.stageunits.toNat ++ bytesOf 4 q.coord.toNat ++ bytesOf 4 q.defsinks.toNat ++ bytesOf 4 q.snaptmo.toNat ++
  List.replicate 48 0 ++ (List.range 8).flatMap (fun i => (tget q.sinks i {}).bytes) ++ List.replicate 0x1C0 0

def Part.ofSnapBytes (q : Part) (b : List Byte) : Part :=
  let sinks := ((List.range 8).map (fun i => (i, sinkOf (slice b (0x40 + 0x40 * i) 64)))).filter (fun e => e.2 != {})
  { q with
    stageunits := BitVec.ofNat 10 (field b 0 4), coord := BitVec.ofNat 12 (field b 4 4), defsinks := BitVec.ofNat 8 (field b 8 1)
    snaptmo := BitVec.ofNat 32 (field b 12 4), sinks := sinks
    -- a sink that is written anew begins with empty queues
    nvme := if sinks == q.sinks then q.nvme else [] }

/-- Wear registers (R24). -/
def Wear.bytes (w : Wear) : List Byte :=
  bytesOf 4 w.peol.toNat ++ bytesOf 4 w.roscdrift.toNat ++ bytesOf 4 w.emcount.toNat ++ bytesOf 4 w.hbmctrend.toNat ++
  bytesOf 8 w.peoltime.toNat ++ bytesOf 4 w.peolwarn.toNat ++ List.replicate 4 0

/-- The time registers (R46). -/
def Sys.timeBytes (y : Sys) : List Byte :=
  bytesOf 4 y.ticklen.toNat ++ bytesOf 4 (bit01 y.aligned + bit01 y.wide * 2) ++ bytesOf 4 y.timeofs.toNat ++ List.replicate 4 0

/-- The entry of a table, by TABLE and INDEX (R66); none for a table or index that does not exist. -/
def Sys.entryBytes (y : Sys) (table i : Nat) : Option (List Byte) :=
  match table with
  | 0 => if i < 12 then some (y.part i).bytes else none
  | 1 => if i < 256 then some (y.vf i).bindBytes else none
  | 2 => if i < 256 then some (y.vf i).heap.bytes else none
  | 3 => if i < 12 then some (bytesOf 16 (y.part i).dsres.toNat) else none
  | 4 => if i < 256 then some (bytesOf 8 ((y.vf i).dsbase.toNat + (y.vf i).dsn.toNat * 2 ^ 8 + bit01 (y.vf i).dsvalid * 2 ^ 16)) else none
  | 5 => if i < 12 then some (y.part i).snapBytes else none
  | 6 => if i < 12 then some (bytesOf 16 (y.part i).ownunits.toNat) else none
  | 7 => if i < 12 || i = moduleWear then some (y.wearOf i).bytes else none
  | 8 => if i = 0 then some y.timeBytes else none
  | _ => none

/-- The management offset of an entry. -/
def entryOffset (table i : Nat) : Nat :=
  match table with
  | 0 => 0x0800 + i * 0x40 | 1 => 0x1000 + i * 0x10 | 2 => 0x10000 + i * 0x400 | 3 => 0x2C00 + i * 0x10 | 4 => 0x3000 + i * 8
  | 5 => 0x4000 + i * 0x400 | 6 => 0x2D00 + i * 0x10 | 7 => if i = moduleWear then 0x0400 else 0x0100 + i * 0x20
  | _ => 0x0600

/-! ### Partitions and their state (R21, R53, R54) -/

/-- Commands stand in a VF's command ring unread; a VF that has been stopped has none (DESIGN CHOICE, assumption log 63). -/
def Vf.rung (v : Vf) : Bool := (v.ring 0).pidx != (v.ring 0).cidx && !v.stopped

/-- Nothing of a partition is left: no launch, no queued command, no engine command, no live colour. -/
def Sys.isEmpty (y : Sys) (p : Nat) : Bool :=
  let mine := fun (v : Nat) => (y.partVfs p).contains v
  !(y.partVfs p).any (fun v => (y.vf v).rung) &&
  !y.launches.any (fun l => l.part == p && !l.finished) && !y.storeWaits.any (fun w => w.part == p) &&
  !y.hostCmds.any (fun c => mine c.vf && c.result.isNone) && !y.cmds.any (fun c => c.part == p && c.isOpen) &&
  (y.part p).colourA.st == .free && (y.part p).colourB.st == .free

/-- The dies that a partition holds. -/
def Part.held_ (q : Part) : BitVec 12 := if q.valid then q.dies else 0

/-- Key ranges overlap. -/
def rangesMeet (a n b m : Nat) : Bool := n != 0 && m != 0 && decide (a < b + m) && decide (b < a + n)

/-- A key range lies inside another; an empty one does. -/
def rangeIn (a n b m : Nat) : Bool := n == 0 || (decide (b ≤ a) && decide (a + n ≤ b + m))

/-- Staging in units of 64 MiB. -/
def Part.stagingUnits (q : Part) : Nat := q.stagingBytes / 2 ^ 26

/-- Staging of all valid partitions, with one as given. -/
def Sys.stagingSum (y : Sys) (p : Nat) (q : Part) : Nat :=
  (allParts.filter (fun i => if i = p then q.valid else (y.part i).valid)).foldl
    (fun n i => n + (if i = p then q else y.part i).stagingUnits) 0

/-- The checks of a partition entry (R53): those of overlap and of the VFs' key ranges hold of an entry with VALID = 0 as well. -/
def Sys.partOk (y : Sys) (p : Nat) (q : Part) : Bool :=
  let old := y.part p
  let others := (allParts.filter (fun i => i != p)).map y.part |>.filter (fun o => o.valid)
  let d := q.dieList.length
  (!q.valid || q.dies != 0) &&
  others.all (fun o => o.dies &&& q.dies == 0 && !rangesMeet q.keylo.toNat q.keyn.toNat o.keylo.toNat o.keyn.toNat) &&
  (q.keyn == 0 || (q.keylo != 0 && decide (q.keylo.toNat + q.keyn.toNat ≤ 256))) &&
  (q.pcap == 0 || (decide (150 * d ≤ q.pcap.toNat) && decide (q.pcap.toNat ≤ 3400))) &&
  y.vfs.all (fun v => v.2.part.toNat != p || rangeIn v.2.keylo.toNat v.2.keyn.toNat q.keylo.toNat q.keyn.toNat) &&
  ((q.dies == old.dies && q.valid == old.valid && q.keylo == old.keylo && q.keyn == old.keyn) || old.st == .empty) &&
  (List.range 12).all (fun n => !q.held_.getLsbD n || (y.die n).scrubbing.isNone) && decide (y.stagingSum p q ≤ 512)

/-- The entry names the same logical chip as before. -/
def Part.sameChip (q o : Part) : Bool := q.joined == o.joined && q.dom == o.dom && q.lchip == o.lchip

/-- A partition entry is written: dies that leave are scrubbed (R54), and unassigned ones are gated (R21). -/
def Sys.putPart (y : Sys) (p : Nat) (q : Part) : Sys :=
  let left := (y.part p).held_ &&& ~~~q.held_
  let y1 := y.modPart p (fun o => { q with st := if left != 0 then .scrubbing else q.st, moved := o.moved && q.sameChip o })
  let y2 := (List.range 12).foldl (fun z n => if left.getLsbD n then z.modDie n (fun d => { d with scrubbing := some p }) else z) y1
  ((List.range 12).foldl (fun z n => z.modDie n (fun d =>
    let off := (z.partOfDie n).isNone
    { d with gated := off, capHeld := if off then 0 else d.capHeld })) y2).setCaps

/-- The checks of a binding entry (R51, R53). -/
def Sys.bindOk (y : Sys) (v : Vf) : Bool :=
  let q := y.part v.part.toNat
  decide (v.part.toNat < 12) && rangeIn v.keylo.toNat v.keyn.toNat q.keylo.toNat q.keyn.toNat

/-! ### Heap windows (R132, R133) -/

/-- A key lies in a VF's range. -/
def Vf.keyOk (v : Vf) (k : Nat) : Bool := decide (v.keylo.toNat ≤ k) && decide (k < v.keylo.toNat + v.keyn.toNat)

/-- A launch of a VF is resident. -/
def Sys.vfResident (y : Sys) (vf : Nat) : Bool := y.launches.any (fun l => l.vf == vf && !l.finished && l.placed != 0)

/-- Bytes of partition memory below the ownership table and staging (R196, R262). -/
def Part.openBytes (q : Part) : Nat := q.dieList.length * 2 ^ 36 - q.stagingBytes - q.ownunits.toNat * 2 ^ 26

/-- Conditions of a format entry's fields. -/
def FormatEntry.ok (f : FormatEntry) (h : HeapWindow) : Bool :=
  !f.used ||
  (f.start.toNat % 256 == 0 && f.stop.toNat % 256 == 0 && decide (h.hofs.toNat ≤ f.start.toNat) &&
   decide (f.stop.toNat ≤ h.hofs.toNat + h.hlimit.toNat) && decide (f.fmt.toNat < 8) &&
   (if f.fmt.toNat = 6 || f.fmt.toNat = 7 then f.geom == 1 || f.geom == 2 else f.geom == 0) &&
   (!f.d || f.fmt == 1 || f.fmt == 2) &&
   (if f.d then f.aux.toNat % 4 == 0 else f.fmt.toNat == 6 || f.fmt.toNat == 7 || f.aux == 0))

/-- The used entries do not overlap. -/
def apart : List FormatEntry → Bool
  | [] => true
  | f :: r => r.all (fun g => decide (f.stop.toNat ≤ g.start.toNat) || decide (g.stop.toNat ≤ f.start.toNat)) && apart r

/-- Every key that a window names lies in the VF's range. -/
def Vf.windowKeysOk (v : Vf) (h : HeapWindow) : Bool :=
  (h.hlimit == 0 || v.keyOk h.dkey.toNat) && (h.formats.map Prod.snd).all (fun f => !f.used || v.keyOk f.key.toNat)

/-- The checks of a heap window but for the keys. -/
def Sys.heapOk (y : Sys) (i : Nat) (h : HeapWindow) (header : Bool) : Bool :=
  let v := y.vf i
  let q := y.part v.part.toNat
  let room := if v.valid && q.valid then q.openBytes else 0
  let used := (h.formats.map Prod.snd).filter FormatEntry.used
  h.hbase.toNat % 65536 == 0 && h.hlimit.toNat % 65536 == 0 && h.hofs.toNat % 65536 == 0 && decide (h.hofs.toNat < 2 ^ 52) &&
  h.htroot.toNat % 4096 == 0 && (h.hlimit == 0 || decide (h.hbase.toNat + h.hlimit.toNat ≤ room)) &&
  (!header || !y.vfResident i) && used.all (fun f => f.ok h) && apart used &&
  (!h.fab || !(y.partVfs v.part.toNat).any (fun w => w != i && (y.vf w).heap.fab))

/-- The checks of an SRAM window (R133). -/
def Sys.sramOk (y : Sys) (i : Nat) (v : Vf) : Bool :=
  !v.dsvalid ||
  (decide (v.dsbase.toNat + v.dsn.toNat ≤ (y.part v.part.toNat).dsres.toNat) &&
   (y.partVfs v.part.toNat).all (fun w => w == i || !(y.vf w).dsvalid ||
     !rangesMeet v.dsbase.toNat v.dsn.toNat (y.vf w).dsbase.toNat (y.vf w).dsn.toNat))

/-- The checks of a sink entry (R204). -/
def Sink.ok (k : Sink) : Bool :=
  k.kind != 3 && k.base.toNat % 4096 == 0 && (k.kind != 1 || k.len.toNat % 4096 == 0) && k.cqbase.toNat % 4096 == 0 &&
  (if k.kind = 2 then decide (1 ≤ k.log2qd.toNat) && decide (k.log2qd.toNat ≤ 12) else k.log2qd == 0 && k.cqbase == 0 && k.sqdb == 0)

/-- The checks of a snapshot control block (R196). -/
def Sys.snapOk (y : Sys) (p : Nat) (q : Part) : Bool :=
  let old := y.part p
  let live := fun (c : Colour) => c.st == .live || c.st == .localdone
  let standing := q == { old with coord := q.coord, defsinks := q.defsinks }
  decide (1 ≤ q.snaptmo.toNat) && decide (q.snaptmo.toNat ≤ 60000) && (q.sinks.map Prod.snd).all Sink.ok &&
  decide (y.stagingSum p q ≤ 512) &&
  (if standing then !live old.colourA && !live old.colourB || q == old else old.st == .empty)

/-! ### Writes -/

/-- What comes of a write of an entry that lies inside its table. -/
inductive WriteResult where
  | ok (y : Sys)
  | refused
  | key (part : Nat) (vf : Nat)

/-- A deterministic launch is resident somewhere in the domain (R46): one of this package, or, where a partition is joined, one of another
package, of which nothing here tells: a free value. -/
def Sys.detResident (y : Sys) : Bool × Sys :=
  if y.launches.any (fun l => l.record.det && l.placed != 0) then (true, y)
  else if allParts.any (fun p => (y.part p).valid && (y.part p).joined) then
    let (w, y1) := takeFree y
    (w.getLsbD 0, y1)
  else (false, y)

/-- A whole entry is written, as bytes (R53); `lo` and `hi` bound the bytes that the request carried. -/
def Sys.writeEntry (y : Sys) (table i lo hi : Nat) (b : List Byte) : WriteResult :=
  let done := fun (ok : Bool) (z : Sys) => if ok then WriteResult.ok z else .refused
  match table with
  | 0 =>
    let q := (y.part i).ofBytes b
    let z := y.putPart i q
    done (y.partOk i q) { z with persistent := tset z.persistent i b }
  | 1 => let v := (y.vf i).ofBindBytes b; done (y.bindOk v) (y.modVf i (fun _ => v))
  | 2 =>
    let h := heapOf b
    let v := y.vf i
    if !y.heapOk i h (decide (lo < 0x40)) then .refused
    else if !v.windowKeysOk h then .key v.part.toNat i
    else
      let y1 := y.modVf i (fun v => { v with heap := h })
      .ok (if lo < 0x28 && 0x20 < hi then y1.dropTranslations i true 0 else y1)
  | 3 =>
    let n := field b 0 1
    done (decide (n ≤ 224) && (y.part i).st == .empty) (y.modPart i (fun q => { q with dsres := BitVec.ofNat 8 n }))
  | 4 =>
    let v := { y.vf i with dsbase := BitVec.ofNat 8 (field b 0 1), dsn := BitVec.ofNat 8 (field b 1 1), dsvalid := bit (field b 0 4) 16 }
    done (y.sramOk i v) (y.modVf i (fun _ => v))
  | 5 => let q := (y.part i).ofSnapBytes b; done (y.snapOk i q) (y.modPart i (fun _ => q))
  | 6 => done ((y.part i).st == .empty) (y.modPart i (fun q => { q with ownunits := BitVec.ofNat 8 (field b 0 1) }))
  | 7 =>
    let w := y.wearOf i
    .ok (if lo < 0x1C && 0x18 < hi then
        { y with wear := tset y.wear i { w with peolwarn := BitVec.ofNat 32 (field b 0x18 4), armed := true } } else y)
  | 8 =>
    let n := field b 0 4
    if 4 ≤ lo then .ok y
    else
      let (busy, y1) := y.detResident
      done (n % 250 == 0 && decide (250 ≤ n) && decide (n ≤ 16000) && !busy) { y1 with ticklen := BitVec.ofNat 32 n }
  | _ => .refused

end Sys2Proof.Machine
end

