-- ==== Sys2Proof/Machine/Rings.lean ====
section
/-!
DEFINITION. The host's side of a virtual function (R67-R70, R72, R74-R79, R141, R166, R207): BAR0 registers, rings, stopping and killing,
reading commands, writing completions, fault records, notifications and service requests, taking replies, and CXL.mem accesses.
-/
namespace Sys2Proof.Machine

/-! ### Rings (R68, R69) -/

/-- The bytes of an entry of ring n. -/
def entrySize (n : Nat) : Nat :=
  match n with
  | 0 => 64 | 1 => 16 | 2 => 64 | 3 => 16 | 4 => 1088 | _ => 544

/-- The paged address of the slot of an index. R68 asks of the 64 bits of BASE only that they are a multiple of 4 KiB; an address of paged
space has 48 bits (R125), and the upper bits of BASE are ignored (DESIGN CHOICE, assumption log 61). -/
def Ring.slot (r : Ring) (n : Nat) (i : Word) : Nat := (r.base.toNat + i.toNat % r.size * entrySize n) % 2 ^ 48

/-- The phase bit of an entry: 1 on even passes. -/
def Ring.phase (r : Ring) (i : Word) : Bool := i.toNat / r.size % 2 == 0

/-- A ring register, or an index, is invalid. -/
def Ring.bad (r : Ring) : Bool :=
  r.base.toNat % 4096 != 0 || decide (r.log2n.toNat < 4) || decide (12 < r.log2n.toNat) || decide (r.size < (r.pidx - r.cidx).toNat)

/-- A record about a ring of a VF, which belongs to no command, and its ERROR notification (R75). -/
def Sys.ringRecord (y : Sys) (now vf : Nat) (c : Cause) (addr : DWord) : Sys :=
  let v := y.vf vf
  if v.valid then
    let y1 := y.logEal now v.part.toNat c 0 0 addr .host 0 0 vf
    y1.notify vf 4 (BitVec.ofNat 64 (y1.part v.part.toNat).ealcnt)
  else y

/-- A slot that cannot be read or written: CFGERR, a record, and the ring stands (R69). -/
def Sys.ringError (y : Sys) (now vf n addr : Nat) : Sys :=
  (y.modVf vf (fun v => { v.modRing n (fun r => { r with halted := true }) with cfgerr := true })).ringRecord now vf .badcmd
    (BitVec.ofNat 64 addr)

/-- A device-produced ring can take an entry: its rings are processed, it does not stand, and CIDX has passed the slot. -/
def Vf.ringOpen (v : Vf) (n : Nat) : Bool :=
  let r := v.ring n
  v.runs && !r.halted && decide ((r.pidx - r.cidx).toNat < r.size)

/-- The entry with its phase bit in bit 31 of the word at `pw`. -/
def withPhase (b : List Byte) (pw : Nat) (p : Bool) : List Byte :=
  if p then b.set (pw + 3) ((b.getD (pw + 3) 0) ||| 0x80) else b

/-- An entry is written, PIDX advances and the ring's MSI-X vector is raised (R69); none while it must wait. The answer says whether the
slot could be written. -/
def ringPut (s : State) (vf n pw : Nat) (b : List Byte) : Option (Eff × Bool) :=
  let v := s.sys.vf vf
  let r := v.ring n
  let a := r.slot n r.pidx
  let k := if n = 2 then 1 else 0
  if !v.ringOpen n || !s.sys.slotFree vf k || s.sys.runHeld vf a b.length || pagedStalls s vf a b.length then none
  else
    match writePaged s vf a (withPhase b pw (r.phase r.pidx)) .flag with
    | (none, y) => some ({ sys := y.ringError s.gtime vf n a }, false)
    | (some e, _) =>
      some ({ e with sys := ((e.sys.modVf vf (fun x =>
        { x.modRing n (fun q => { q with pidx := q.pidx + 1 }) with msix := x.msix ++ [n - 1] })).postMessage vf (n - 1)).useSlot vf k }, true)

/-! ### Commands read, and a stop's end (R69, R70) -/

/-- The host commands of a VF. -/
def Sys.hostCmdsOf (y : Sys) (vf : Nat) : List HostCmd := y.hostCmds.filter (fun c => c.vf == vf)

/-- Something of a VF is still started: a command, a launch of a group, one that waits for the store, or an engine command. -/
def Sys.vfStarted (y : Sys) (vf : Nat) : Bool :=
  (y.hostCmdsOf vf).any (fun c => c.result.isNone) || y.launches.any (fun l => l.vf == vf && !l.finished) ||
  y.storeWaits.any (fun w => w.vf == vf) || y.cmds.any (fun c => c.vf == vf && c.isOpen)

/-- Once nothing of a stopping VF remains started, and its commands have their completion entries unless the completion ring takes none:
STOPPED sets and EN reads 0. -/
def Sys.settleStop (y : Sys) (vf : Nat) : Sys :=
  let v := y.vf vf
  let told := (y.hostCmdsOf vf).isEmpty || (v.ring 1).halted || !v.run
  if v.stopping && !y.vfStarted vf && told && ((v.ring 0).pidx == (v.ring 0).cidx || (v.ring 0).halted) then
    y.modVf vf (fun x => { x with stopping := false, stopped := true, en := false, run := false })
  else y

/-- Every stop that has come to its end is settled. -/
def Sys.settleStops (y : Sys) : Sys :=
  ((y.vfs.filter (fun q => q.2.stopping)).map Prod.fst).foldl (fun z v => z.settleStop v) y

/-- The payload bits that an opcode uses (R71). -/
def payloadMask (opc : Nat) : Nat :=
  let w := 2 ^ 32
  match opc with
  | 1 => w * w - 1
  | 2 => w * w - 1 + w * w
  | 3 => 0xFFFF + 0x10FFF * w
  | 4 => 0xFF + 0xFFF * w + 0xFFF * (w * w) + (w - 1) * (w * w * w)
  | 5 => w * w - 1
  | 6 => 0xFF + 0xFFF * w + (w * w - 1) * (w * w)
  | _ => 0

/-- A reserved field of a command entry is not 0. -/
def entryReserved (b : List Byte) : Bool :=
  let m := payloadMask (field b 0 1)
  bits (field b 0 2) 15 9 != 0 || field b 4 4 != 0 || field b 8 56 &&& m != field b 8 56

/-- An opcode whose entry points to a record: CIDX advances once that is read too (R70). -/
def pointsOn (opc : Nat) : Bool := opc = 1 || opc = 5

/-- CIDX of a host-produced ring advances. -/
def Sys.consume (y : Sys) (vf n : Nat) : Sys := y.modVf vf (fun v => v.modRing n (fun r => { r with cidx := r.cidx + 1 }))

/-- A command starts. -/
def Sys.startHost (y : Sys) (uid : Nat) : Sys :=
  match y.hostCmd? uid with
  | none => y
  | some c =>
    let y1 := (y.modHostCmd uid (fun x => { x with running := true })).useSlot c.vf 0
    if pointsOn c.opc.toNat then y1.consume c.vf 0 else y1

/-- The next command entry is read and checked; a stopping VF's is completed with STOPPED. A partition with work is active (R52). -/
def commandFetch (s : State) (vf : Nat) : Eff :=
  let v := s.sys.vf vf
  let r := v.ring 0
  let open_ := (s.sys.hostCmdsOf vf).filter (fun c => c.result.isNone)
  let a := r.slot 0 r.cidx
  if !v.runs || r.halted || r.pidx == r.cidx || open_.any (fun c => !c.running) || !s.sys.slotFree vf 0 || s.sys.runHeld vf a 64 then Eff.none s
  else
    match readPaged s vf a 64 with
    | (none, y) => { sys := (y.ringError s.gtime vf 0 a).settleStop vf }
    | (some b, y) =>
      let opc := field b 0 1
      let (u, y1) := y.fresh
      let c : HostCmd :=
      { uid := u, vf := vf, slotAddr := BitVec.ofNat 64 a, opc := BitVec.ofNat 8 opc, cmdid := BitVec.ofNat 16 (field b 2 2)
        payload := slice b 8 56, running := false, result := none }
      let y2 : Sys := { y1 with hostCmds := y1.hostCmds ++ [c] }
      if v.stopping then { sys := ((y2.consume vf 0).completeHost u .stopped 0) }
      else if (bit (field b 1 1) 0 && !open_.isEmpty) || decide (256 ≤ open_.length) then Eff.none s
      else
        let y3 := if v.valid then y2.modPart v.part.toNat (fun p => if p.st == .empty then { p with st := .active } else p) else y2
        let refuse := fun (st : HostStatus) => ({ sys := ((y3.consume vf 0).useSlot vf 0).refuseHost s.gtime u st c.slotAddr 0 } : Eff)
        if opc = 0 || 6 < opc then refuse .badop
        else if !v.valid && opc != 6 then refuse .denied
        else if entryReserved b then refuse .invalid
        else if pointsOn opc then { sys := y3 }
        else { sys := y3.consume vf 0 }

/-- COMMAND_FETCH (R70). -/
def execCommandFetch : State → Host.Outcome State Fault Refusal :=
  eventNext (fun s => match s.sys.ev with
    | some (.commandFetch vf) => commandFetch s vf
    | _ => Eff.none s)

/-! ### What the LX768 writes (R72, R74, R75, R77) -/

/-- The completion entry of a command, but for P. -/
def HostCmd.entry (c : HostCmd) : List Byte :=
  match c.result with
  | some (st, x) => bytesOf 2 c.cmdid.toNat ++ bytesOf 2 c.opc.toNat ++ bytesOf 4 st.code ++ bytesOf 8 x.toNat
  | none => []

/-- COMPLETION_WRITE (R72). -/
def execCompletionWrite : State → Host.Outcome State Fault Refusal :=
  eventNext (fun s => match s.sys.ev with
    | some (.completionWrite vf) =>
      (match (s.sys.vf vf).completions with
        | [] => Eff.none s
        | u :: rest =>
          match s.sys.hostCmd? u with
          | none => { sys := s.sys.modVf vf (fun v => { v with completions := rest }) }
          | some c =>
            match ringPut s vf 1 0 c.entry with
            | none => Eff.none s
            | some (e, false) => { e with sys := e.sys.settleStop vf }
            | some (e, true) =>
              let y := e.sys.modVf vf (fun v => { v with completions := rest })
              { e with sys := ({ y with hostCmds := y.hostCmds.filter (fun x => x.uid != u) } : Sys).settleStop vf })
    | _ => Eff.none s)

/-- A fault record, but for P. -/
def FaultRec.entry (f : FaultRec) (vf : Nat) : List Byte :=
  bytesOf 4 f.kind.toNat ++ bytesOf 4 vf ++ bytesOf 8 f.vaddr.toNat ++ bytesOf 8 f.access.toNat ++ bytesOf 8 f.cmdh ++
    bytesOf 4 f.first.toNat ++ bytesOf 4 f.count.toNat ++ List.replicate 24 0

/-- FAULT_RECORD_WRITE (R74). -/
def execFaultRecordWrite : State → Host.Outcome State Fault Refusal :=
  eventNext (fun s => match s.sys.ev with
    | some (.faultRecordWrite vf) =>
      (match (s.sys.vf vf).faults with
        | [] => Eff.none s
        | f :: rest =>
          match ringPut s vf 2 0 (f.entry vf) with
          | none => Eff.none s
          | some (e, ok) => if ok then { e with sys := e.sys.modVf vf (fun v => { v with faults := rest }) } else e)
    | _ => Eff.none s)

/-- A notification is dropped (R69, R76): the page of an ACCESS may be notified again. -/
def Vf.dropNote (v : Vf) (n : Notification) (rest : List Notification) : Vf :=
  { v with
    notifications := rest, ndrop := v.drop.ndrop
    accessQueued := if n.kind = 1 then v.accessQueued.filter (fun q => q.1 != n.data.toNat) else v.accessQueued }

/-- NOTIFICATION_WRITE (R75, R76): dropped while the ring takes none. -/
def execNotificationWrite : State → Host.Outcome State Fault Refusal :=
  eventNext (fun s => match s.sys.ev with
    | some (.notificationWrite vf) =>
      let v := s.sys.vf vf
      (match v.notifications with
        | [] => Eff.none s
        | n :: rest =>
          if !v.ringOpen 3 then { sys := s.sys.modVf vf (fun x => x.dropNote n rest) }
          else
            let i := (v.ring 3).pidx.toNat
            match ringPut s vf 3 0 (bytesOf 4 n.kind.toNat ++ bytesOf 4 0 ++ bytesOf 8 n.data.toNat) with
            | none => Eff.none s
            | some (e, false) => { e with sys := e.sys.modVf vf (fun x => x.dropNote n (x.notifications.drop 1)) }
            | some (e, true) =>
              { e with sys := e.sys.modVf vf (fun x => { x with
                  notifications := x.notifications.drop 1
                  accessQueued := x.accessQueued.map (fun q => if n.kind = 1 && q.1 == n.data.toNat then (q.1, i) else q) }) })
    | _ => Eff.none s)

/-- A service request's entry, but for P. -/
def SvcPost.entry (p : SvcPost) (part : Nat) : List Byte :=
  bytesOf 4 p.seq.toNat ++ bytesOf 4 (part + p.vf * 2 ^ 8 + p.args.length * 2 ^ 16) ++ bytesOf 4 p.launchId.toNat ++
    bytesOf 4 p.code.toNat ++ bytesOf 8 p.handle ++ bytesOf 4 p.mask.toNat ++ List.replicate 36 0 ++
    p.args.flatMap (fun a => bytesOf 4 a.1 ++ a.2.flatMap (fun w => bytesOf 4 w.toNat) ++ bytesOf 4 0)

/-- The requests that stand first for their VFs in the partition's queue. -/
def svcHeads : List Nat → List SvcPost → List SvcPost
  | _, [] => []
  | seen, p :: r => if seen.contains p.vf then svcHeads seen r else p :: svcHeads (p.vf :: seen) r

/-- SERVICE_REQUEST_WRITE (R77): the first request of the queue whose ring takes it. -/
def execServiceRequestWrite : State → Host.Outcome State Fault Refusal :=
  eventNext (fun s => match s.sys.ev with
    | some (.serviceRequestWrite part) =>
      (match (svcHeads [] (s.sys.part part).svcq).findSome? (fun p => (ringPut s p.vf 4 4 (p.entry part)).map (fun r => (p, r))) with
        | none => Eff.none s
        | some (p, e, ok) => if ok then { e with sys := e.sys.modPart part (fun q => { q with svcq := q.svcq.erase p }) } else e)
    | _ => Eff.none s)

/-! ### Replies (R77) -/

/-- The core whose control processor has a request outstanding that a reply matches, with no reply to it taken yet. -/
def Sys.replyCore (y : Sys) (vf : Nat) (b : List Byte) : Option Nat :=
  (y.cores.find? (fun c =>
    c.2.cp.svc.any (fun x => x.vf == vf && x.seq.toNat == field b 0 4 && x.handle == field b 8 8 && x.mask.toNat == field b 16 4) &&
    !c.2.cp.replies.any (fun x => x.vf == vf && x.seq.toNat == field b 0 4))).map Prod.fst

/-- The next reply is taken: matched, or discarded with BADREPLY. -/
def replyTake (s : State) (vf : Nat) : Eff :=
  let v := s.sys.vf vf
  let r := v.ring 5
  let a := r.slot 5 r.cidx
  if !v.run || r.halted || r.pidx == r.cidx || !s.sys.slotFree vf 0 || s.sys.runHeld vf a 544 then Eff.none s
  else
    match readPaged s vf a 32 with
    | (none, y) => { sys := y.ringError s.gtime vf 5 a }
    | (some h, y0) =>
      let mask := BitVec.ofNat 32 (field h 16 4)
      match readPaged { s with sys := y0 } vf (a + 32) (16 * countLanes mask) with
      | (none, y) => { sys := y.ringError s.gtime vf 5 a }
      | (some b, y) =>
        let y1 := (y.consume vf 5).useSlot vf 0
        match y.replyCore vf h with
        | some core =>
          if 1 < field h 4 4 || numOf (slice h 20 12) != 0 then { sys := y1.ringRecord s.gtime vf .badreply (BitVec.ofNat 64 a) }
          else
            let q : SvcReply :=
            { seq := BitVec.ofNat 32 (field h 0 4), vf := vf, status := BitVec.ofNat 32 (field h 4 4), handle := field h 8 8
              mask := mask, bytes := h ++ b }
            { sys := y1.modCp core (fun c => { c with replies := c.replies ++ [q] }) }
        | none => { sys := y1.ringRecord s.gtime vf .badreply (BitVec.ofNat 64 a) }

/-- REPLY_TAKE (R77). -/
def execReplyTake : State → Host.Outcome State Fault Refusal :=
  eventNext (fun s => match s.sys.ev with
    | some (.replyTake vf) => replyTake s vf
    | _ => Eff.none s)

/-! ### EN, STOP, KILL (R67-R69) -/

/-- EN is written 1: the rings run or resume, unless a ring register or index is invalid. -/
def Vf.enable (v : Vf) : Vf :=
  let ok := (List.range 6).all (fun n => !(v.ring n).bad)
  { v with
    en := true, run := ok, cfgerr := !ok, stopped := false
    rings := v.rings.map (fun r => (r.1, { r.2 with halted := false })) }

/-- EN is written 0 without STOP or KILL. -/
def Vf.pause (v : Vf) : Vf := { v with en := false, run := false }

/-- STOP: commands read and not started complete with STOPPED; those in the ring follow as they are read. -/
def Sys.stopVf (y : Sys) (vf : Nat) : Sys :=
  let waiting := (y.hostCmdsOf vf).filter (fun c => !c.running && c.result.isNone)
  let y1 := waiting.foldl (fun z c =>
    (if pointsOn c.opc.toNat then z.consume vf 0 else z).completeHost c.uid .stopped 0) y
  let y2 := y1.modVf vf (fun v => { v with stopping := true, stopped := false })
  let p := (y.vf vf).part.toNat
  let y3 := if (y.vf vf).valid && ((y2.part p).st == .active || (y2.part p).st == .empty) then y2.modPart p (fun q => { q with st := .draining }) else y2
  y3.settleStop vf

/-- KILL: as STOP, and the VF's launches and engine commands end. -/
def Sys.killVf (y : Sys) (now vf : Nat) : Sys :=
  let waits := y.storeWaits.filter (fun w => w.vf == vf)
  let y1 : Sys := { y with storeWaits := y.storeWaits.filter (fun w => w.vf != vf) }
  let y2 := waits.foldl (fun z w => match w.hostCmd with
    | some u => z.completeHost u .terminated (w.record.launchId.setWidth 64)
    | none => z) y1
  let y3 := (y2.launches.filter (fun l => l.vf == vf && !l.finished)).foldl (fun z l => z.killLaunch l.uid) y2
  let y4 := (y3.cmds.filter (fun k => k.vf == vf && k.isOpen)).foldl (fun z k => z.abortCmd now k.handle) y3
  y4.stopVf vf

/-- The control word is written. -/
def Sys.writeControl (y : Sys) (now vf : Nat) (w : Word) : Sys :=
  let y1 :=
    if w.getLsbD 0 then y.modVf vf Vf.enable
    else if w.getLsbD 1 || w.getLsbD 2 then y
    else y.modVf vf Vf.pause
  if w.getLsbD 2 then y1.killVf now vf else if w.getLsbD 1 then y1.stopVf vf else y1

/-- VF_ENABLE (R69). -/
def execVfEnable : State → Host.Outcome State Fault Refusal :=
  eventNext (fun s => match s.sys.ev with
    | some (.vfEnable vf) => { sys := s.sys.writeControl s.gtime vf 1 }
    | _ => Eff.none s)

/-- VF_PAUSE (R69). -/
def execVfPause : State → Host.Outcome State Fault Refusal :=
  eventNext (fun s => match s.sys.ev with
    | some (.vfPause vf) => { sys := s.sys.writeControl s.gtime vf 0 }
    | _ => Eff.none s)

/-- VF_STOP (R69). -/
def execVfStop : State → Host.Outcome State Fault Refusal :=
  eventNext (fun s => match s.sys.ev with
    | some (.vfStop vf) => { sys := s.sys.writeControl s.gtime vf 2 }
    | _ => Eff.none s)

/-- VF_KILL (R69). -/
def execVfKill : State → Host.Outcome State Fault Refusal :=
  eventNext (fun s => match s.sys.ev with
    | some (.vfKill vf) => { sys := s.sys.writeControl s.gtime vf 4 }
    | _ => Eff.none s)

/-! ### Indices (R68, R76) -/

/-- The host writes PIDX of a host-produced ring: while EN = 1 a doorbell, ignored when it would overfill the ring or move back. -/
def Sys.doorbell (y : Sys) (now vf n : Nat) (i : Word) : Sys :=
  let v := y.vf vf
  let r := v.ring n
  let set := y.modVf vf (fun x => x.modRing n (fun q => { q with pidx := i }))
  if !v.en then set
  else if r.size < (i - r.cidx).toNat || (i - r.cidx).toNat < (r.pidx - r.cidx).toNat then
    let (a, y1) := takeFree (y.modVf vf (fun x => { x with cfgerr := true }))
    y1.ringRecord now vf .badcmd a
  else set

/-- COMMAND_DOORBELL (R68). -/
def execCommandDoorbell : State → Host.Outcome State Fault Refusal :=
  eventNext (fun s => match s.sys.ev with
    | some (.commandDoorbell vf i) => { sys := s.sys.doorbell s.gtime vf 0 i }
    | _ => Eff.none s)

/-- REPLY_DOORBELL (R68). -/
def execReplyDoorbell : State → Host.Outcome State Fault Refusal :=
  eventNext (fun s => match s.sys.ev with
    | some (.replyDoorbell vf i) => { sys := s.sys.doorbell s.gtime vf 5 i }
    | _ => Eff.none s)

/-- The host writes CIDX of a device-produced ring: ACCESS notifications that it passes return their pages' counters to 0. -/
def Vf.writeCidx (v : Vf) (n : Nat) (i : Word) : Vf :=
  let old := (v.ring n).cidx
  let v1 := v.modRing n (fun r => { r with cidx := i })
  if n != 3 then v1
  else
    let passed := v.accessQueued.filter (fun q => decide ((BitVec.ofNat 32 q.2 - old).toNat < (i - old).toNat))
    { v1 with
      accessQueued := v.accessQueued.filter (fun q => !passed.contains q)
      counters := passed.foldl (fun t q => sset t (q.1 / 4096) 0) v.counters }

/-- CIDX_WRITE (R68, R76). -/
def execCidxWrite : State → Host.Outcome State Fault Refusal :=
  eventNext (fun s => match s.sys.ev with
    | some (.cidxWrite vf n i) => if 1 ≤ n && n ≤ 4 then { sys := s.sys.modVf vf (fun v => v.writeCidx n i) } else Eff.none s
    | _ => Eff.none s)

/-! ### Registers (R4, R67, R68, R79, R141, R207) -/

/-- The low, or the high, half of a 64-bit register replaced. -/
def setHalf (x : DWord) (hi : Bool) (w : Word) : DWord :=
  if hi then (w ++ x.setWidth 32).setWidth 64 else (((x >>> 32).setWidth 32 : BitVec 32) ++ w).setWidth 64

/-- A ring's register is written. -/
def Sys.writeRing (y : Sys) (now vf n ofs : Nat) (w : Word) : Sys :=
  let v := y.vf vf
  let put := fun (f : Ring → Ring) => if v.en then y else y.modVf vf (fun x => x.modRing n f)
  match ofs with
  | 0 => put (fun r => { r with base := setHalf r.base false w })
  | 4 => put (fun r => { r with base := setHalf r.base true w })
  | 8 => put (fun r => { r with log2n := w.setWidth 4 })
  | 16 => if n = 0 || n = 5 then y.doorbell now vf n w else y
  | 20 => if n = 0 || n = 5 then y else y.modVf vf (fun x => x.writeCidx n w)
  | _ => y

/-- Bits that GTROOT holds: [47:12]. -/
def gtrootOf (x : DWord) : DWord := x &&& 0x0000FFFFFFFFF000

/-- A 32-bit write to BAR0 of a VF. -/
def writeBar (s : State) (vf ofs : Nat) (w : Word) : Sys :=
  let y := s.sys
  let v := y.vf vf
  let put := fun (f : Vf → Vf) => y.modVf vf f
  if 0x100 ≤ ofs && ofs < 0x1C0 then y.writeRing s.gtime vf ((ofs - 0x100) / 32) ((ofs - 0x100) % 32) w
  else
    match ofs with
    | 0x0000 => y.writeControl s.gtime vf w
    | 0x0008 => if w = 0 || 0xFFFF#32 < w then y else put (fun x => { x with accthr := w })
    | 0x1000 => if v.en then y else put (fun x => { x with gtroot := gtrootOf (setHalf x.gtroot false w) })
    | 0x1004 => if v.en then y else put (fun x => { x with gtroot := gtrootOf (setHalf x.gtroot true w) })
    | 0x1008 => put (fun x => { x with invaddr := setHalf x.invaddr false w })
    | 0x100C => put (fun x => { x with invaddr := setHalf x.invaddr true w })
    | 0x1010 =>
      if v.invbusy || !(w.getLsbD 0 || w.getLsbD 1) then y else put (fun x => { x with invbusy := true, invall := w.getLsbD 1, invat := x.invaddr })
    | 0x1018 => put (fun x => { x with miglist := setHalf x.miglist false w })
    | 0x101C => put (fun x => { x with miglist := setHalf x.miglist true w })
    | 0x1020 =>
      let y1 := put (fun x => { x with mign := w.setWidth 8 })
      let y2 := if w.getLsbD 9 then y1.migEnd vf else y1
      if w.getLsbD 8 then migStart { s with sys := y2 } vf else y2
    | _ => y

/-- REGISTER_WRITE (R4): reserved bits and read-only fields keep what they hold. -/
def execRegisterWrite : State → Host.Outcome State Fault Refusal :=
  eventNext (fun s => match s.sys.ev with
    | some (.registerWrite vf ofs w) => { sys := writeBar s vf ofs w }
    | _ => Eff.none s)

/-- The low or the high word of a register. -/
def half (x : DWord) (hi : Bool) : Word := if hi then (x >>> 32).setWidth 32 else x.setWidth 32

/-- A word of an Error Address Log record (R79). -/
def EalRec.word (e : EalRec) (i : Nat) : Word :=
  match i with
  | 0 => (e.remLog ++ e.remCause ++ e.cause).setWidth 32
  | 2 => half e.addr false
  | 3 => half e.addr true
  | 4 => (e.gslot ++ e.core ++ e.rkind).setWidth 32
  | 5 => e.vf.setWidth 32
  | 6 => half e.gtime false
  | 7 => half e.gtime true
  | _ => 0

/-- What a 32-bit read of BAR0 of a VF returns (R4): write-only and reserved bits read 0. -/
def readReg (y : Sys) (vf ofs : Nat) : Word :=
  let v := y.vf vf
  let p := if v.valid then y.part v.part.toNat else {}
  let one := fun (b : Bool) (i : Nat) => if b then (1 : Word) <<< i else 0
  let colour := fun (c : Colour) (o : Nat) => match o with
    | 0 => BitVec.ofNat 32 (match c.st with | .free => 0 | .live => 1 | .localdone => 2 | .quiet => 3 | .aborting => 4) ||| one c.init 3
    | 4 => c.snapno
    | 8 => c.capbytes
    | _ => BitVec.ofNat 32 ((c.chans.filter (fun k => !c.closed.contains k)).length)
  if 0x100 ≤ ofs && ofs < 0x1C0 then
    let r := v.ring ((ofs - 0x100) / 32)
    match (ofs - 0x100) % 32 with
    | 0 => half r.base false
    | 4 => half r.base true
    | 8 => r.log2n.setWidth 32
    | 16 => r.pidx
    | 20 => r.cidx
    | _ => 0
  else if 0x2000 ≤ ofs && ofs < 0x4000 then
    let i := (ofs - 0x2000) / 32
    let n := p.ealcnt
    let back := (n + 255 - i) % 256
    if n ≤ back then 0 else match p.eal[back]? with | some e => e.word ((ofs - 0x2000) % 32 / 4) | none => 0
  else
    match ofs with
    | 0x0000 => one v.en 0
    | 0x0004 => one v.run 0 ||| one v.stopped 1 ||| one v.cfgerr 2
    | 0x0008 => v.accthr
    | 0x000C => v.ndrop
    | 0x0010 => BitVec.ofNat 32 p.ealcnt
    | 0x0400 => colour p.colourA 0
    | 0x0404 => colour p.colourA 4
    | 0x0408 => colour p.colourA 8
    | 0x040C => colour p.colourA 12
    | 0x0410 => colour p.colourB 0
    | 0x0414 => colour p.colourB 4
    | 0x0418 => colour p.colourB 8
    | 0x041C => colour p.colourB 12
    | 0x1000 => half v.gtroot false
    | 0x1004 => half v.gtroot true
    | 0x1008 => half v.invaddr false
    | 0x100C => half v.invaddr true
    | 0x1014 => one v.invbusy 0
    | 0x1018 => half v.miglist false
    | 0x101C => half v.miglist true
    | 0x1020 => v.mign.setWidth 32
    | 0x1024 => v.migsel.setWidth 32 ||| BitVec.ofNat 32 (256 * (match v.migstat with
        | .idle => 0 | .waiting => 1 | .selected => 2 | .invalidList => 3))
    | _ => 0

/-! ### Service windows (R78) -/

/-- SERVICE_WINDOW_END (R78): windows in which work waited at their end are counted. It happens once a window of GTIME has ended, before
anything else (`dueEvent`). -/
def execServiceWindowEnd : State → Host.Outcome State Fault Refusal :=
  eventNext (fun s => match s.sys.ev with
    | some .serviceWindowEnd => if s.sys.windowDue s.gtime then { sys := s.sys.endWindow s.gtime } else Eff.none s
    | _ => Eff.none s)

/-! ### CXL.mem (R57, R166) -/

/-- The answers to CXL.mem requests. -/
def cxlWriteDone : Nat := 0x200
def cxlReadData : Nat := 0x201

/-- A CXL.mem request reaches one 64-byte line of the VF's heap window. -/
def oneLine (a n : Nat) : Bool := decide (1 ≤ n) && decide (a % 64 + n ≤ 64)

/-- A CXL.mem request that fails: its record, and the answer. -/
def Sys.cxlFail (y : Sys) (now vf a code : Nat) (c : Cause) : Sys :=
  let y1 := y.ringRecord now vf c (BitVec.ofNat 64 a)
  { y1 with answers := y1.answers ++ [{ peer := vf, code := code, status := c.code, seq := 0, bytes := [] }] }

/-- CXL_MEM_WRITE (R166): performed at its home; its completion waits for GTIME to pass its GWCT. -/
def execCxlMemWrite : State → Host.Outcome State Fault Refusal :=
  eventNext (fun s => match s.sys.ev with
    | some (.cxlMemWrite vf a bs) =>
      let v := s.sys.vf vf
      if !oneLine a bs.length then Eff.none s
      else
        (match if v.valid then heapFlat (s.sys.part v.part.toNat) v.heap a bs.length else none with
          | none => { sys := s.sys.cxlFail s.gtime vf a cxlWriteDone .limit }
          | some (f, k) =>
            if s.sys.writeStalls f bs.length then Eff.none s
            else
              match s.sys.writeError f bs.length k with
              | some c => { sys := s.sys.cxlFail s.gtime vf a cxlWriteDone c }
              | none =>
                let t : State := { s with sys := s.sys.claim f k }
                let e := putBytes t f bs
                let (u, y) := e.sys.fresh
                { e with sys := { y with hostWrites := y.hostWrites ++ [{ id := u, vf := vf, gwct := y.gwct s.gtime f bs.length }] } })
    | _ => Eff.none s)

/-- CXL_MEM_WRITE_COMPLETE (R166). -/
def execCxlMemWriteComplete : State → Host.Outcome State Fault Refusal :=
  eventNext (fun s => match s.sys.ev with
    | some (.cxlMemWriteComplete u) =>
      (match s.sys.hostWrites.find? (fun w => w.id == u) with
        | some w =>
          if w.gwct < s.gtime then
            let y := s.sys
            { sys := { y with
                hostWrites := y.hostWrites.filter (fun x => x.id != u)
                answers := y.answers ++ [{ peer := w.vf, code := cxlWriteDone, status := 0, seq := 0, bytes := [] }] } }
          else Eff.none s
        | none => Eff.none s)
    | _ => Eff.none s)

/-- CXL_MEM_READ (R166): the latest value performed at the home, without a lease. -/
def execCxlMemRead : State → Host.Outcome State Fault Refusal :=
  eventNext (fun s => match s.sys.ev with
    | some (.cxlMemRead vf a n) =>
      let v := s.sys.vf vf
      if !oneLine a n then Eff.none s
      else
        (match if v.valid then heapFlat (s.sys.part v.part.toNat) v.heap a n else none with
          | none => { sys := s.sys.cxlFail s.gtime vf a cxlReadData .limit }
          | some (f, k) =>
            match s.sys.readError f n k with
            | some c => { sys := s.sys.cxlFail s.gtime vf a cxlReadData c }
            | none =>
              let y := s.sys.readAt f n k
              { sys := { y with answers := y.answers ++
                  [{ peer := vf, code := cxlReadData, status := 0, seq := 0, bytes := readBytes s.mem f n }] } })
    | _ => Eff.none s)

end Sys2Proof.Machine
end

