-- ==== Sys2Proof/Machine/HostCmd.lean ====
section
/-!
DEFINITION. The host commands (R71): LAUNCH (R73), FAULT_RESUME (R183), MEMBER (R225, R226), REMAP (R42), SNAP_REQ (R189) and QUERY.
-/
namespace Sys2Proof.Machine

/-- A host command with an opcode that has been read and has not started. -/
def Sys.readyCmd (y : Sys) (uid opc : Nat) : Option HostCmd :=
  match y.hostCmd? uid with
  | some c => if c.opc.toNat == opc && !c.running && c.result.isNone then some c else none
  | none => none

/-- What a command of an opcode does once it starts; `f` answers none while it must wait. -/
def hostAct (s : State) (uid opc : Nat) (f : HostCmd → Vf → Option Eff) : Eff :=
  match s.sys.readyCmd uid opc with
  | none => Eff.none s
  | some c => if s.sys.slotFree c.vf 0 then (f c (s.sys.vf c.vf)).getD (Eff.none s) else Eff.none s

/-! ### LAUNCH (R73, R95) -/

/-- The record of a host command's read of heap memory that meets a KEY or ECC error (R59, R62). -/
def Sys.logHostRead (_ : Sys) (now part vf : Nat) (y : Sys) (c : Cause) (a : Nat) : Sys :=
  y.logEal now part c 0 0 (BitVec.ofNat 64 a) .host 0 0 vf

/-- The bytes of a host launch record: in heap or in paged space; none when they cannot be read. -/
def hostRecord (s : State) (vf addr : Nat) (v : Vf) : Option (List Byte) × Sys :=
  if spaceOf addr = 0 then
    let a := offsetOf addr
    let y := Sys.afterReads v.part.toNat v.heap (s.sys.logHostRead s.gtime v.part.toNat vf) [(a, 128)] s.sys
    (match heapReader s v.part.toNat v.heap a 128 with | .ok b => some b | .error _ => none, y)
  else if spaceOf addr = 1 then readPaged s vf (offsetOf addr % 2 ^ 48) 128
  else (none, s.sys)

/-- A record that passed its checks enters the store, or waits for it. -/
def Sys.hostStore (y : Sys) (uid vf : Nat) (v : Vf) (r : LaunchRec) (consts : List Word) (prio : List (Nat × BitVec 16)) : Sys :=
  let p := v.part.toNat
  if y.storeFree p then y.storeLaunch p vf r consts prio (some uid) none
  else { y with launched := true, storeWaits := y.storeWaits ++
    [{ part := p, vf := vf, record := r, consts := consts, prio := prio, hostCmd := some uid, group := 0, lane := 0, reg := 0
       parent := none }] }

/-- A host LAUNCH starts: its record is read and checked (R73). It waits while GTIME has not been aligned (R18). -/
def hostLaunch (s : State) (c : HostCmd) (v : Vf) : Option Eff :=
  let addr := field c.payload 0 8
  let y0 := s.sys.startHost c.uid
  let bad := fun (y : Sys) (st : HostStatus) (a : DWord) (id : DWord) => some ({ sys := y.refuseHost s.gtime c.uid st a id } : Eff)
  if !s.sys.timeReady then none
  else if spaceOf addr = 1 && s.sys.runHeld c.vf (offsetOf addr % 2 ^ 48) 128 then none
  else if addr % 128 != 0 then bad y0 .invalid c.slotAddr 0
  else
    match hostRecord { s with sys := y0 } c.vf addr v with
    | (none, y) => bad y .invalid c.slotAddr 0
    | (some b, y) =>
      let r := recordOf b
      let id := r.launchId.setWidth 64
      if !v.windowKeysOk v.heap then bad y .key c.slotAddr id
      else
        let chk := checkRecord y v.part.toNat c.vf v.heap true (heapReader { s with sys := y } v.part.toNat v.heap) addr r
        let y1 := Sys.afterReads v.part.toNat v.heap (y.logHostRead s.gtime v.part.toNat c.vf) chk.2 y
        match chk.1 with
        | .error a => bad y1 .invalid (BitVec.ofNat 64 a) id
        | .ok (consts, prio) => some { sys := y1.hostStore c.uid c.vf v r consts prio }

/-- HOST_LAUNCH (R73). -/
def execHostLaunch : State → Host.Outcome State Fault Refusal :=
  eventNext (fun s => match s.sys.ev with
    | some (.hostLaunch uid) => hostAct s uid 1 (hostLaunch s)
    | _ => Eff.none s)

/-! ### FAULT_RESUME (R71, R183) -/

/-- A command of the VF that is faulted-pending. -/
def Sys.faultedCmd (y : Sys) (vf h : Nat) : Bool :=
  match y.cmd? h with
  | some k => k.vf == vf && k.status == .faulted
  | none => false

/-- FAULT_RESUME starts: the command goes on, or ends ABORTED. -/
def faultResume (s : State) (c : HostCmd) : Eff :=
  let h := field c.payload 0 8
  let y := (s.sys.startHost c.uid).useSlot c.vf 1
  if !s.sys.faultedCmd c.vf h then { sys := y.completeHost c.uid .notfound 0 }
  else if bit (field c.payload 8 4) 0 then { sys := (y.setStatus s.gtime h .aborted (some (.cmdabort, 0)) true).completeHost c.uid .ok 0 }
  else { sys := y.resumeCmd h c.uid }

/-- FAULT_RESUME (R183). -/
def execFaultResume : State → Host.Outcome State Fault Refusal :=
  eventNext (fun s => match s.sys.ev with
    | some (.faultResume uid) => hostAct s uid 2 (fun c _ => if s.sys.slotFree c.vf 1 then some (faultResume s c) else none)
    | _ => Eff.none s)

/-! ### MEMBER (R225, R226) -/

/-- The partitions of this package that hold a partition's domain. -/
def Sys.domainParts (y : Sys) (part : Nat) : List Nat :=
  let q := y.part part
  if q.joined then allParts.filter (fun p => (y.part p).valid && (y.part p).joined && (y.part p).dom == q.dom) else [part]

/-- A bound contribution entry is aborted (R226): the line becomes NaN patterns, and the ready arrival is made. -/
def abortContrib (s : State) (e : ContribEntry) : Eff :=
  let t : State := { s with sys := s.sys.putContrib { e with aborted := true, declared := none } }
  (putBytes t (e.line * 128) (List.replicate 128 0xFF)).andThen t (fun u =>
    match e.declared with
    | some (_, bar) => releaseArrival u { bar := bar, ptr := e.ptr, time := u.sys.gwct u.gtime (e.line * 128) 128 }
    | none => Eff.none u)

/-- The contribution entries of a partition that are bound to a group. -/
def Sys.boundContribs (y : Sys) (part g : Nat) : List ContribEntry :=
  y.contribs.filter (fun e => !e.aborted && y.partOfFlat (e.line * 128) == some part &&
    (match e.bound with | some b => b.1 == g | none => false))

/-- Entries aborted in turn. -/
def abortContribs (s : State) : List ContribEntry → Eff
  | [] => Eff.none s
  | e :: r => (abortContrib s e).andThen s (fun t => abortContribs t r)

/-- A ROUTE of a group that has not heard DONE from every member. -/
def Cmd.routeOpen (c : Cmd) (part g : Nat) : Bool :=
  c.kind == .route && c.isOpen && c.part == part && bits (field c.record 8 4) 5 0 == g &&
  (c.route.members.isEmpty || !c.route.members.all (fun m => c.route.dones.any (fun d => d.1 == m)))

/-- What a withdrawal ends in a partition (R226). -/
def withdrawal (s : State) (part g : Nat) : Eff :=
  let y := (s.sys.cmds.filter (fun c => c.routeOpen part g)).foldl (fun z c => z.abortCmd s.gtime c.handle) s.sys
  Eff.andThen { sys := y } s (fun t => abortContribs t (t.sys.boundContribs part g))

/-- An entry with a member added or withdrawn, by rising logical chip. -/
def CollGroup.change (g : CollGroup) (chip : Nat) (out : Bool) : CollGroup :=
  { gen := g.gen + 1
    members := if out then g.members.filter (fun m => m != chip) else sortBy id (g.members ++ [chip]) }

/-- What a withdrawal ends in several partitions. -/
def withdrawals (g : Nat) : List Nat → State → Eff
  | [], s => Eff.none s
  | p :: r, s => (withdrawal s p g).andThen s (fun t => withdrawals g r t)

/-- The bytes of a collective group entry (R224), and where the management space has that of a group of a partition. No request of R66 reads
it. -/
def CollGroup.bytes (g : CollGroup) : List Byte :=
  bytesOf 4 (g.gen.toNat + (if g.members.isEmpty then 0 else 2 ^ 16)) ++ bytesOf 4 g.members.length ++ List.replicate 56 0 ++
    (List.range 512).map (fun i => BitVec.ofNat 8 (((List.range 8).filter (fun j => g.members.contains (8 * i + j))).foldl (fun n j => n + 2 ^ j) 0))
def groupOffset (p g : Nat) : Nat := 0x80000 + p * 0x10000 + g * 0x240

/-- A new generation of a group is installed in some partitions; `out` says that a member was withdrawn, which ends what was bound to older
generations where the entry counts: a partition with JOINED = 0 ignores it (R224). None while a line that is aborted cannot be written. -/
def installGroup (s : State) (ps : List Nat) (g : Nat) (new : CollGroup) (out : Bool) : Option Eff :=
  let live := ps.filter (fun p => out && (s.sys.part p).joined)
  if s.sys.allStall ((live.flatMap (fun p => s.sys.boundContribs p g)).map (fun e => (e.line * 128, 128))) then none
  else
    let y := ps.foldl (fun z p => z.modPart p (fun q => { q with cgroups := tset q.cgroups g new })) s.sys
    some (Eff.andThen { sys := y } s (withdrawals g live))

/-- MEMBER starts. Abten carries out one command at a time (R65). -/
def member (s : State) (c : HostCmd) (v : Vf) : Option Eff :=
  let g := field c.payload 0 2
  let w := field c.payload 4 4
  let chip := w % 4096
  let out := bit w 16
  let old : CollGroup := tget (s.sys.part v.part.toNat).cgroups g {}
  let y := s.sys.startHost c.uid
  if !s.sys.remapping.isEmpty then none
  else if 64 ≤ g || old.members.contains chip != out then some { sys := y.refuseHost s.gtime c.uid .invalid c.slotAddr 0 }
  else
    let new := old.change chip out
    (installGroup { s with sys := y } (s.sys.domainParts v.part.toNat) g new out).map (fun e =>
      { e with sys := e.sys.completeHost c.uid .ok (new.gen.setWidth 64) })

/-- A generation that another package's MEMBER made is installed in the partitions of its domain; it is a withdrawal's where a member is
gone. -/
def memberElsewhere (s : State) (dom g : Nat) (gen : BitVec 16) (members : List Nat) : Eff :=
  let ps := allParts.filter (fun p => (s.sys.part p).valid && (s.sys.part p).joined && (s.sys.part p).dom.toNat == dom)
  let out := ps.any (fun p => (tget (s.sys.part p).cgroups g {}).members.any (fun m => !members.contains m))
  (installGroup s ps g { gen := gen, members := sortBy id members.eraseDups } out).getD (Eff.none s)

/-- MEMBER (R225), here or carried out at another package. -/
def execMember : State → Host.Outcome State Fault Refusal :=
  eventNext (fun s => match s.sys.ev with
    | some (.member uid) => hostAct s uid 3 (member s)
    | some (.memberElsewhere dom g gen ms) => memberElsewhere s dom g gen ms
    | _ => Eff.none s)

/-! ### REMAP (R42, R208) -/

/-- Both colours of a domain are clear at its coordinator, as far as that is a chip of this package (R208). -/
def Sys.coloursClear (y : Sys) (dom : Nat) : Bool :=
  allParts.all (fun p =>
    let q := y.part p
    !(q.valid && q.joined && q.dom.toNat == dom && q.coordinator == q.lchip.toNat && (q.coordA.flag || q.coordB.flag)))

/-- The old chip of this package takes a tombstone and hosts the logical chip no more. -/
def Sys.leaveChip (y : Sys) (now dom lchip new window : Nat) (gen : BitVec 16) : Sys :=
  let t : Tombstone := { dom := dom, lchip := lchip, phys := BitVec.ofNat 12 new, gen := gen, expiry := now + 1000 * window }
  let y1 : Sys := { y with tombstones := y.tombstones.filter (fun x => !(x.dom == dom && x.lchip == lchip)) ++ [t] }
  match y1.hostPart dom lchip with
  | some p => if BitVec.ofNat 12 new = y.phys then y1 else y1.modPart p (fun q => { q with moved := true })
  | none => y1

/-- The partition of this package that is a logical chip hosts it (again). -/
def Sys.arriveChip (y : Sys) (dom lchip : Nat) : Sys :=
  (allParts.filter (fun p => (y.part p).joined && (y.part p).dom.toNat == dom && (y.part p).lchip.toNat == lchip)).foldl
    (fun z p => z.modPart p (fun q => { q with moved := false })) y

/-- The remap entry has the logical chip here. -/
def Sys.hereNow (y : Sys) (dom lchip : Nat) : Bool := let e := y.remapOf dom lchip; e.valid && e.phys == y.phys

/-- A tombstone of the domain is not to be had (R42). -/
def Sys.tombsFull (y : Sys) (dom lchip : Nat) : Bool :=
  decide (64 ≤ (y.tombstones.filter (fun t => t.dom == dom && t.lchip != lchip)).length)

/-- A logical chip moves: a tombstone at its old place, its new host, and then the new entry (R42). -/
def Sys.moveChip (y : Sys) (now dom lchip new window : Nat) (gen : BitVec 16) : Sys :=
  let y1 := if y.hereNow dom lchip then y.leaveChip now dom lchip new window gen else y
  let y2 := if BitVec.ofNat 12 new = y.phys then y1.arriveChip dom lchip else y1
  let entry : RemapEntry := { phys := BitVec.ofNat 12 new, valid := true, gen := gen }
  (y2.putRemap dom lchip entry).sendAll now

/-- REMAP starts; it waits while a snapshot is live, and while Abten carries out another (R65, R208). -/
def remap (s : State) (c : HostCmd) (v : Vf) : Option Eff :=
  let dom := field c.payload 0 1
  let lchip := field c.payload 4 2
  let win := field c.payload 12 4
  let q := s.sys.part v.part.toNat
  let y := s.sys.startHost c.uid
  if !q.joined || q.dom.toNat != dom then some { sys := y.refuseHost s.gtime c.uid .denied c.slotAddr 0 }
  else if win != 0 && (win < 10 || 1000 < win) then some { sys := y.refuseHost s.gtime c.uid .invalid c.slotAddr 0 }
  else if s.sys.hereNow dom lchip && s.sys.tombsFull dom lchip then some { sys := y.completeHost c.uid .busy 0 }
  else if !s.sys.coloursClear dom || !s.sys.remapping.isEmpty then none
  else some { sys := { y with remapping := [(c.uid, dom)] } }

/-- A REMAP that has started ends: the logical chip moves, and grants are free again. -/
def remapEnd (s : State) (c : HostCmd) : Eff :=
  let dom := field c.payload 0 1
  let lchip := field c.payload 4 2
  let win := field c.payload 12 4
  let gen := (s.sys.remapOf dom lchip).gen + 1
  let y := s.sys.moveChip s.gtime dom lchip (field c.payload 8 2) (if win = 0 then 50 else win) gen
  { sys := { y.completeHost c.uid .ok (gen.setWidth 64) with remapping := [] } }

/-- The REMAP of a number has started and not ended. -/
def Sys.remapOpen (y : Sys) (uid : Nat) : Option HostCmd := if y.remapping.any (fun r => r.1 == uid) then y.hostCmd? uid else none

/-- REMAP (R42): it starts, and then ends; or one given at another package reaches this one. -/
def execRemap : State → Host.Outcome State Fault Refusal :=
  eventNext (fun s => match s.sys.ev with
    | some (.remap uid) => (match s.sys.remapOpen uid with
      | some c => remapEnd s c
      | none => hostAct s uid 4 (remap s))
    | some (.remapElsewhere dom lchip new gen win) =>
      if !s.sys.coloursClear dom || (s.sys.hereNow dom lchip && s.sys.tombsFull dom lchip) then Eff.none s
      else { sys := s.sys.moveChip s.gtime dom lchip new.toNat win gen }
    | _ => Eff.none s)

/-! ### SNAP_REQ (R189-R191) -/

/-- SNAP_REQ starts: its descriptor is read from paged space, and a snapshot is asked for. -/
def snapReq (s : State) (c : HostCmd) (v : Vf) : Option Eff :=
  let addr := field c.payload 0 8
  let va := addr % 2 ^ 48
  let y := s.sys.startHost c.uid
  let bad := fun (z : Sys) (a : DWord) => some ({ sys := z.refuseHost s.gtime c.uid .invalid a 0 } : Eff)
  if s.sys.runHeld c.vf va 64 then none
  else if addr % 64 != 0 then bad y c.slotAddr
  else
    match readPaged { s with sys := y } c.vf va 64 with
    | (none, y1) => bad y1 c.slotAddr
    | (some b, y1) =>
      match snapValid { s with sys := y1 } v.part.toNat c.vf v.heap addr b with
      | .error (a, _) => bad y1 (BitVec.ofNat 64 a)
      | .ok rs =>
        let r : SnapReq :=
        { cp := none, host := some c.uid, reqcol := BitVec.ofNat 2 (bits (field b 0 4) 9 8), desc := b, regions := rs }
        some { sys := y1.askSnapshot s.gtime v.part.toNat r }

/-- SNAP_REQ (R189). -/
def execSnapReq : State → Host.Outcome State Fault Refusal :=
  eventNext (fun s => match s.sys.ev with
    | some (.snapReq uid) => hostAct s uid 5 (snapReq s)
    | _ => Eff.none s)

/-! ### QUERY (R71) -/

/-- The result of a selector; none for one that is reserved or has no such index. How many bytes the identity takes, and how they are laid
out, no rule states. -/
def queryBytes (y : Sys) (vf sel i : Nat) : Option (List Byte × Sys) :=
  let v := y.vf vf
  match sel with
  | 0 => let (n, y1) := takeFree y; some (freeBytes y1 (n.toNat % 257))
  | 1 => if i < 12 || i = moduleWear then some ((y.wearOf i).bytes, y) else none
  | 2 => some (y.timeBytes, y)
  | 3 => some ((y.part v.part.toNat).bytes, y)
  | 4 => some (v.bindBytes, y)
  | 5 =>
    let q := y.part v.part.toNat
    let words := fun (l : List Nat) => (List.range 3).flatMap (fun k => bytesOf 8 (l.getD k 0))
    some (words q.slotsUsed ++ words q.slotWindows, y)
  | _ => none

/-- QUERY starts. -/
def query (s : State) (c : HostCmd) (v : Vf) : Option Eff :=
  let sel := field c.payload 0 1
  let i := field c.payload 4 4
  let buf := field c.payload 8 8
  let va := buf % 2 ^ 48
  let y := s.sys.startHost c.uid
  let bad := fun (st : HostStatus) (a : DWord) => some ({ sys := y.refuseHost s.gtime c.uid st a 0 } : Eff)
  if !v.valid && sel != 0 && sel != 4 then bad .denied c.slotAddr
  else
    match queryBytes y c.vf sel i with
    | none => bad .invalid c.slotAddr
    | some (b, y1) =>
      let t : State := { s with sys := y1 }
      if buf % 8 != 0 || 2 ^ 48 ≤ offsetOf buf || !(spaceOf buf = 0 || spaceOf buf = 1) then bad .invalid (BitVec.ofNat 64 buf)
      else if s.sys.runHeld c.vf va b.length || pagedStalls t c.vf va b.length then none
      else
        match writePaged t c.vf va b .data with
        | (none, z) => some { sys := z.refuseHost s.gtime c.uid .invalid (BitVec.ofNat 64 buf) 0 }
        | (some e, _) => some { e with sys := e.sys.completeHost c.uid .ok (BitVec.ofNat 64 b.length) }

/-- QUERY (R71). -/
def execQuery : State → Host.Outcome State Fault Refusal :=
  eventNext (fun s => match s.sys.ev with
    | some (.query uid) => hostAct s uid 6 (query s)
    | _ => Eff.none s)

end Sys2Proof.Machine
end

