-- ==== Sys2Proof/Machine/Integer.lean ====
section
/-!
DEFINITION. Integer, predicate and immediate instructions (R292-R301).
-/
namespace Sys2Proof.Machine

/-- A TR integer instruction (R294): op of a, b, v[D] and SAT. -/
def intTR (o : FormTR) (sat readsD : Bool) (op : Word → Word → Word → Bool → Word) : State → Host.Outcome State Fault Refusal :=
  laneWord (fun _ => { descTR o readsD with satOk := sat }) []
    (fun i l => wr l o.d.toNat (op (i.a l o.a.toNat) (i.b o.m l o.b.toNat) (i.v l o.d.toNat) i.sat))

/-- IADD (R294). -/
def execIadd (o : FormTR) := intTR o true false (fun a b _ t => satInt 32 t (a.toInt + b.toInt))
/-- ISUB (R294). -/
def execIsub (o : FormTR) := intTR o true false (fun a b _ t => satInt 32 t (a.toInt - b.toInt))
/-- IMUL (R294). -/
def execImul (o : FormTR) := intTR o true false (fun a b _ t => satInt 32 t (a.toInt * b.toInt))
/-- IMULHS (R294). -/
def execImulhs (o : FormTR) := intTR o false false (fun a b _ _ => BitVec.ofInt 32 (a.toInt * b.toInt / (2 ^ 32 : Nat)))
/-- IMULHZ (R294). -/
def execImulhz (o : FormTR) := intTR o false false (fun a b _ _ => BitVec.ofNat 32 (a.toNat * b.toNat / 2 ^ 32))
/-- IMINS (R294). -/
def execImins (o : FormTR) := intTR o false false (fun a b _ _ => if a.slt b then a else b)
/-- IMAXS (R294). -/
def execImaxs (o : FormTR) := intTR o false false (fun a b _ _ => if a.slt b then b else a)
/-- IMINZ (R294). -/
def execIminz (o : FormTR) := intTR o false false (fun a b _ _ => if a.ult b then a else b)
/-- IMAXZ (R294). -/
def execImaxz (o : FormTR) := intTR o false false (fun a b _ _ => if a.ult b then b else a)
/-- AND (R294). -/
def execAnd (o : FormTR) := intTR o false false (fun a b _ _ => a &&& b)
/-- OR (R294). -/
def execOr (o : FormTR) := intTR o false false (fun a b _ _ => a ||| b)
/-- XOR (R294). -/
def execXor (o : FormTR) := intTR o false false (fun a b _ _ => a ^^^ b)
/-- SHL (R294): 0 when b is 32 or more. -/
def execShl (o : FormTR) := intTR o false false (fun a b _ _ => if 32 ≤ b.toNat then 0 else a <<< b.toNat)
/-- SHR (R294): 0 when b is 32 or more. -/
def execShr (o : FormTR) := intTR o false false (fun a b _ _ => if 32 ≤ b.toNat then 0 else a >>> b.toNat)
/-- SAR (R294): by at most 31. -/
def execSar (o : FormTR) := intTR o false false (fun a b _ _ => a.sshiftRight (min b.toNat 31))
/-- IMAD (R294): a × b + v[D]. -/
def execImad (o : FormTR) := intTR o true true (fun a b c t => satInt 32 t (a.toInt * b.toInt + c.toInt))

/-- IADD64 (R295). -/
def execIadd64 (o : FormTR) : State → Host.Outcome State Fault Refusal :=
  laneWord (fun i =>
    { g := o.g, s := o.s, dst := pair i.cp o.d.toNat, src := if o.m then [] else pair i.cp o.b.toNat
      a := pair i.cp o.a.toNat, afk := true, ks := if o.m then pair i.cp o.b.toNat else []
      even := [o.d.toNat, o.a.toNat, o.b.toNat], satOk := true }) []
    (fun i l =>
      let a := i.a64 l o.a.toNat
      let b := if o.m then i.k64 o.b.toNat else i.v64 l o.b.toNat
      wr64 i.cp l o.d.toNat (satInt 64 i.sat (a.toInt + b.toInt)))

/-! ### Immediate forms (R296, R297) -/

/-- IADDI (R296): on 64 bits on the control processor. -/
def execIaddi (o : FormTI) : State → Host.Outcome State Fault Refusal :=
  laneWord (fun _ => { descTI o.s o.d o.a o.g with satOk := true }) []
    (fun i l =>
      if i.cp then { v := [(l, o.d.toNat, satInt 64 i.sat ((i.a64 l o.a.toNat).toInt + (i.immS o.i).toInt))] }
      else wr l o.d.toNat (satInt 32 i.sat ((i.a l o.a.toNat).toInt + (i.immS o.i).toInt)))

/-- A bitwise TI instruction: the operand and the immediate extended to 32 bits. -/
def bitTI (o : FormTI) (signed : Bool) (op : Word → Word → Word) : State → Host.Outcome State Fault Refusal :=
  laneWord (fun _ => descTI o.s o.d o.a o.g) []
    (fun i l => wr l o.d.toNat (op (i.a l o.a.toNat) ((if signed then i.immS o.i else i.immZ o.i).setWidth 32)))

/-- ANDI (R296): sign-extended. -/
def execAndi (o : FormTI) := bitTI o true (fun a b => a &&& b)
/-- ORI (R296): zero-extended. -/
def execOri (o : FormTI) := bitTI o false (fun a b => a ||| b)
/-- XORI (R296): zero-extended. -/
def execXori (o : FormTI) := bitTI o false (fun a b => a ^^^ b)

/-- A shift of a kind of SHFI by n (R297). -/
def shiftKind (k : BitVec 2) (a : Word) (n : Nat) : Word :=
  if k = 0 then a <<< n else if k = 1 then a >>> n else if k = 2 then a.sshiftRight n else a.rotateLeft n

/-- SHFI (R297): an IMM hint must carry an extension of 0. -/
def execShfi (o : FormShfi) : State → Host.Outcome State Fault Refusal :=
  laneWord (fun i =>
    { descTI o.s o.d o.a o.g with bad := match i.e.hints.imm with | some h => h.i != 0 | none => false }) []
    (fun i l => wr l o.d.toNat (shiftKind o.k (i.a l o.a.toNat) o.n.toNat))

/-- MOVI (R296): zero-extended. -/
def execMovi (o : FormMovi) : State → Host.Outcome State Fault Refusal :=
  laneWord (fun _ => { g := o.g, s := o.s, dst := [o.d.toNat], immOk := true }) []
    (fun i l => { v := [(l, o.d.toNat, i.immZ o.i)] })

/-! ### Compares, SEL and PRED (R298-R300) -/

/-- An integer compare (R298). -/
def intCmp (o : FormCmp) (cc : Word → Word → Bool) : State → Host.Outcome State Fault Refusal :=
  laneWord (fun _ => descCmp o) [] (fun i l => cmpWrite i o l (cc (i.a l o.a.toNat) (i.b o.m l o.b.toNat)))

/-- ICMPEQ (R298). -/
def execIcmpeq (o : FormCmp) := intCmp o (fun a b => a == b)
/-- ICMPNE (R298). -/
def execIcmpne (o : FormCmp) := intCmp o (fun a b => a != b)
/-- ICMPLT (R298). -/
def execIcmplt (o : FormCmp) := intCmp o (fun a b => a.slt b)
/-- ICMPLE (R298). -/
def execIcmple (o : FormCmp) := intCmp o (fun a b => a.sle b)
/-- ICMPLTZ (R298). -/
def execIcmpltz (o : FormCmp) := intCmp o (fun a b => a.ult b)

/-- SEL (R299): in every lane of the entry; the guard selects. -/
def execSel (o : FormTR) : State → Host.Outcome State Fault Refusal :=
  laneWord (fun _ => { descTR o false with all := true }) []
    (fun i l => wr l o.d.toNat (if i.guardAt o.g l then i.a l o.a.toNat else i.b o.m l o.b.toNat))

/-- PRED (R300). -/
def execPred (o : FormPred) : State → Host.Outcome State Fault Refusal :=
  laneWord (fun _ => { g := o.g, s := o.s, modOk := false }) []
    (fun i l =>
      let n := (if i.p l o.a.toNat then 2 else 0) + (if i.p l o.b.toNat then 1 else 0)
      { p := [(l, o.d.toNat, o.t.getLsbD n)] })

/-! ### Integer functions of the XFN space (R301) -/

/-- An XFN integer function. -/
def intXfn (o : FormTF) (sat : Bool) (f : Word → Bool → Word) : State → Host.Outcome State Fault Refusal :=
  laneWord (fun _ => { descTF o with satOk := sat }) [] (fun i l => wr l o.d.toNat (f (i.a l o.a.toNat) i.sat))

/-- How many of the bits at the positions listed are set. -/
def countBits (a : Word) : Nat := ((List.range 32).filter (fun j => a.getLsbD j)).length

/-- Zero bits from the top. -/
def leadingZeros (a : Word) : Nat := ((List.range 32).takeWhile (fun j => !a.getLsbD (31 - j))).length

/-- Zero bits from the bottom. -/
def trailingZeros (a : Word) : Nat := ((List.range 32).takeWhile (fun j => !a.getLsbD j)).length

/-- MOV (R301). -/
def execMov (o : FormTF) := intXfn o false (fun a _ => a)
/-- NOT (R301). -/
def execNot (o : FormTF) := intXfn o false (fun a _ => ~~~a)
/-- NEG (R301). -/
def execNeg (o : FormTF) := intXfn o true (fun a t => satInt 32 t (-a.toInt))
/-- IABS (R301). -/
def execIabs (o : FormTF) := intXfn o true (fun a t => satInt 32 t (a.toInt.natAbs : Int))
/-- POPC (R301). -/
def execPopc (o : FormTF) := intXfn o false (fun a _ => BitVec.ofNat 32 (countBits a))
/-- CLZ (R301). -/
def execClz (o : FormTF) := intXfn o false (fun a _ => BitVec.ofNat 32 (leadingZeros a))
/-- CTZ (R301). -/
def execCtz (o : FormTF) := intXfn o false (fun a _ => BitVec.ofNat 32 (trailingZeros a))
/-- BREV (R301). -/
def execBrev (o : FormTF) := intXfn o false (fun a _ => a.reverse)
/-- SEXT8 (R301). -/
def execSext8 (o : FormTF) := intXfn o false (fun a _ => (a.setWidth 8).signExtend 32)
/-- SEXT16 (R301). -/
def execSext16 (o : FormTF) := intXfn o false (fun a _ => (a.setWidth 16).signExtend 32)
/-- ZEXT8 (R301). -/
def execZext8 (o : FormTF) := intXfn o false (fun a _ => a &&& 0xFF)
/-- ZEXT16 (R301). -/
def execZext16 (o : FormTF) := intXfn o false (fun a _ => a &&& 0xFFFF)

/-- MOVK (R301). -/
def execMovk (o : FormTF) : State → Host.Outcome State Fault Refusal :=
  laneWord (fun _ => { g := o.g, s := o.s, dst := [o.d.toNat], ks := [o.a.toNat] }) [] (fun i l => wr l o.d.toNat (i.k o.a.toNat))

/-- P2V (R301). -/
def execP2v (o : FormP2v) : State → Host.Outcome State Fault Refusal :=
  laneWord (fun _ => { g := o.g, s := o.s, dst := [o.d.toNat] }) []
    (fun i l => wr l o.d.toNat (if i.p l o.a.toNat then 1 else 0))

/-- V2P (R301): D = 63 discards. -/
def execV2p (o : FormV2p) : State → Host.Outcome State Fault Refusal :=
  laneWord (fun _ => { g := o.g, s := o.s, a := [o.a.toNat], afk := true }) []
    (fun i l => { p := [(l, o.d.toNat, i.a l o.a.toNat != 0)] })

end Sys2Proof.Machine
end

