-- ==== Sys2Proof/Machine/Lane.lean ====
section
/-!
DEFINITION. Lane exchanges within a quad and over the group (R342-R346).
-/
namespace Sys2Proof.Machine

/-- The reading lanes whose source lane holds a pending register, and the lanes in which D is pending (R342). A helper lane's trap is
suppressed (R94). -/
def Iss.laneHazard (i : Iss) (g : BitVec 3) (d a : Nat) (readers : LaneMask) (source : Nat → Option Nat) : LaneMask :=
  let pa := if i.mod.k then 0 else sget i.g.regs.pend a
  let k := i.mod.k && sget i.g.regs.pendK a != 0
  i.real ((i.act g &&& sget i.g.regs.pend d) |||
  (readers &&& maskOf (fun l => k || (match source l with | some j => pa.getLsbD j | none => false))))

/-- The registers of a LANE word (R342). -/
def descLane (o : FormTF) : Desc := { descTF o with agents := .groupOnly }

/-- A quad exchange (R343): v[A] of a partner lane, 0 when it is absent or has exited. -/
def quadWord (o : FormTF) (partner : Nat → Nat) : State → Host.Outcome State Fault Refusal :=
  laneWord (fun i =>
    { descLane o with
      hz := some (i.laneHazard o.g o.d.toNat o.a.toNat (i.act o.g)
        (fun l => if i.g.lanes.getLsbD (partner l) then some (partner l) else none)) }) []
    (fun i l => wr l o.d.toNat (if i.g.lanes.getLsbD (partner l) then i.a (partner l) o.a.toNat else 0))

/-- QXH (R343). -/
def execQxh (o : FormTF) := quadWord o (fun l => l ^^^ 1)
/-- QXV (R343). -/
def execQxv (o : FormTF) := quadWord o (fun l => l ^^^ 2)
/-- QXD (R343). -/
def execQxd (o : FormTF) := quadWord o (fun l => l ^^^ 3)
/-- QBC0 (R343). -/
def execQbc0 (o : FormTF) := quadWord o (fun l => l / 4 * 4)
/-- QBC1 (R343). -/
def execQbc1 (o : FormTF) := quadWord o (fun l => l / 4 * 4 + 1)
/-- QBC2 (R343). -/
def execQbc2 (o : FormTF) := quadWord o (fun l => l / 4 * 4 + 2)
/-- QBC3 (R343). -/
def execQbc3 (o : FormTF) := quadWord o (fun l => l / 4 * 4 + 3)

/-- The active set (R342). -/
def Iss.activeSet (i : Iss) (g : BitVec 3) : LaneMask := i.real (i.act g)

/-- GSHF (R344): v[A] of the lane that v[D] names, 0 when it is not in the active set. -/
def execGshf (o : FormTF) : State → Host.Outcome State Fault Refusal :=
  laneWord (fun i =>
    let src := fun (l : Nat) => (i.v l o.d.toNat).toNat % 32
    { descLane o with
      src := [o.d.toNat]
      hz := some (i.laneHazard o.g o.d.toNat o.a.toNat (i.act o.g)
        (fun l => if (i.activeSet o.g).getLsbD (src l) then some (src l) else none)) }) []
    (fun i l =>
      let s := (i.v l o.d.toNat).toNat % 32
      wr l o.d.toNat (if (i.activeSet o.g).getLsbD s then i.a s o.a.toNat else 0))

/-- GBAL (R344): A names a predicate. -/
def execGbal (o : FormTF) : State → Host.Outcome State Fault Refusal :=
  laneWord (fun _ => { g := o.g, s := o.s, dst := [o.d.toNat], agents := .groupOnly, bad := 64 ≤ o.a.toNat }) []
    (fun i l => wr l o.d.toNat (i.activeSet o.g &&& maskOf (fun j => i.p j o.a.toNat)))

/-- A group-wide exchange over the active set (R344): the value that a written lane takes from the active lanes' v[A].
`reads l j` says that lane l reads active lane j (R342). -/
def groupWord (o : FormTF) (reads : LaneMask → Nat → Nat → Bool) (f : Nat → List (Nat × Word) → FRes) : State → Host.Outcome State Fault Refusal :=
  laneWord (fun i =>
    let set := i.activeSet o.g
    let pa := if i.mod.k then 0 else sget i.g.regs.pend o.a.toNat
    let k := i.mod.k && sget i.g.regs.pendK o.a.toNat != 0
    { descLane o with
      hz := some ((set &&& sget i.g.regs.pend o.d.toNat) |||
        (set &&& maskOf (fun l => (lanesOf set).any (fun j => reads set l j && (k || pa.getLsbD j))))) }) []
    (fun i l =>
      let r := f l ((lanesOf (i.activeSet o.g)).map (fun j => (j, i.a j o.a.toNat)))
      { v := [(l, o.d.toNat, BitVec.ofNat 64 r.bits)], f := [(l, r.flags)] })

/-- A group-wide integer result. -/
def groupInt (o : FormTF) (reads : LaneMask → Nat → Nat → Bool) (f : Nat → List (Nat × Word) → Word) :
    State → Host.Outcome State Fault Refusal :=
  groupWord o reads (fun l xs => ⟨(f l xs).toNat, 0⟩)

/-- Every written lane reads every active lane. -/
def readsAll : LaneMask → Nat → Nat → Bool := fun _ _ _ => true

/-- The sum modulo 2^32. -/
def sumWords (xs : List (Nat × Word)) : Word := xs.foldl (fun acc x => acc + x.2) 0

/-- GRADD (R344). -/
def execGradd (o : FormTF) := groupInt o readsAll (fun _ xs => sumWords xs)
/-- GRMIN (R344). -/
def execGrmin (o : FormTF) := groupInt o readsAll (fun _ xs => xs.foldl (fun acc x => if x.2.slt acc then x.2 else acc) 0x7FFFFFFF)
/-- GRMAX (R344). -/
def execGrmax (o : FormTF) := groupInt o readsAll (fun _ xs => xs.foldl (fun acc x => if acc.slt x.2 then x.2 else acc) 0x80000000)
/-- GSCAN (R344). -/
def execGscan (o : FormTF) := groupInt o (fun _ l j => decide (j < l)) (fun l xs => sumWords (xs.filter (fun x => x.1 < l)))
/-- GFIRST (R344). -/
def execGfirst (o : FormTF) := groupInt o (fun set _ j => j == lowest set) (fun _ xs => match xs with | x :: _ => x.2 | [] => 0)

/-- One level of the pairwise tree, with the flags of its additions (R345). -/
def treeLevel : List Nat → List Nat × BitVec 5
  | a :: b :: r =>
    let s := fadd fp32 .rne a b
    let t := treeLevel r
    (s.bits :: t.1, s.flags ||| t.2)
  | l => (l, 0)

/-- The tree sum of 32 values (R345). -/
def treeSum : Nat → List Nat → FRes
  | 0, l => ⟨l.headD 0, 0⟩
  | n + 1, l =>
    let t := treeLevel l
    let r := treeSum n t.1
    ⟨r.bits, r.flags ||| t.2⟩

/-- GRFADD (R345): absent lanes stand as -0. -/
def execGrfadd (o : FormTF) : State → Host.Outcome State Fault Refusal :=
  groupWord o readsAll (fun _ xs => treeSum 5 (allLanes.map (fun j =>
    match xs.find? (fun x => x.1 == j) with
    | some x => x.2.toNat
    | none => 0x80000000)))

end Sys2Proof.Machine
end

