-- ==== Sys2Proof/Machine/Reset.lean ====
section
/-!
DEFINITION. Power-on, module reset and the steps that follow them (R23).
-/
namespace Sys2Proof.Machine

/-- The package when power comes on or a module reset is asked for: nothing but what outlives it. A verified image that was pending
takes effect (R63). -/
def Sys.cold (y : Sys) : Sys :=
  { turns := y.turns, free := y.free, nextId := y.nextId, phys := y.phys, sunk := y.sunk, answers := y.answers, events := y.events
    lds := y.lds, persistent := y.persistent, resetStep := 0, poweredDown := false, eccBad := y.eccBad
    eccCorrectable := y.eccCorrectable, frames := y.frames, tiles := y.tiles, accBad := y.accBad
    fw := (match y.fw.pending with
      | some v => { y.fw with version := v, digestOk := true, delivered := [], pending := none }
      | none => { y.fw with delivered := [] }) }

/-- POWER_ON (R23): a power-on begins the steps. -/
def execPowerOn (s : State) : Host.Outcome State Fault Refusal :=
  .next (match s.sys.ev with
    | some .powerOn => { s with sys := s.sys.cold }
    | _ => s)

/-- The firmware passes the checks of R63. -/
def Sys.firmwareOk (s : State) : Bool := s.sys.fw.digestOk && decide (s.fuse ≤ s.sys.fw.version)

/-- Words of data errors outside some memory. -/
def Sys.keepEcc (y : Sys) (p : Nat → Bool) : Sys := { y with eccBad := y.eccBad.filter p, eccCorrectable := y.eccCorrectable.filter p }

/-- The partition table as the persistent configuration holds it; an entry that the checks refuse is left out. -/
def Sys.loadParts (y : Sys) : Sys :=
  y.persistent.foldl (fun z e => let q := (z.part e.1).ofBytes e.2; if z.partOk e.1 q then z.putPart e.1 q else z) y

/-- The next step of R23 completes. Step 2 completes only with firmware that passes its checks, whose version the fused counter then
holds; step 6 loads the partition table; step 7 completes only once GTIME is aligned, where a reference is named (R18). -/
def resetNext (s : State) : State :=
  let y := s.sys
  let up : Sys := { y with resetStep := y.resetStep + 1 }
  match y.resetStep with
  | 1 => if Sys.firmwareOk s then { s with fuse := max s.fuse y.fw.version, sys := up } else s
  | 2 => { s with gtime := 0, boots := s.boots + 1, sys := up }
  | 3 => { s with mem := writeCells s.mem (zeroCells s.mem isHbm), sys := { up.keepEcc (fun w => !isHbm w) with frames := [] } }
  | 4 => { s with mem := writeCells s.mem (zeroCells s.mem isSram), sys := { up.keepEcc isHbm with tiles := [], accBad := [] } }
  | 5 => { s with sys := up.loadParts }
  | 6 => if y.timeReady then { s with sys := up } else s
  | _ => { s with sys := up }

/-- RESET_STEP_COMPLETE (R23). -/
def execResetStepComplete (s : State) : Host.Outcome State Fault Refusal :=
  .next (match s.sys.ev with
    | some .resetStepComplete => if s.sys.resetStep < 8 && !s.sys.poweredDown then resetNext s else s
    | _ => s)

end Sys2Proof.Machine
end

