-- ==== Sys2Proof/Machine/Manage.lean ====
section
/-!
DEFINITION. The management plane (R22, R49, R53, R54, R58, R60, R63, R65, R66): requests from hosts and from the management link and
their answers, key flushes, firmware delivery, binding of logical devices, and scrubbing of dies.
-/
namespace Sys2Proof.Machine

/-! ### Requests and answers (R66) -/

/-- The statuses of a management request. -/
inductive MgmtStatus where
  | ok | refused | denied | badreq | failed
deriving DecidableEq, Repr

def MgmtStatus.code : MgmtStatus → Nat
  | .ok => 0 | .refused => 1 | .denied => 2 | .badreq => 3 | .failed => 4

/-- The 16 bytes of a response: REQ in [7:0], STATUS in [15:8] and the sequence number in [31:16]; the rest is 0, as R66 says nothing of it
(DESIGN CHOICE, assumption log 61). -/
def mgmtResponse (code : Nat) (st : MgmtStatus) (seq : BitVec 16) : List Byte :=
  bytesOf 4 (code % 256 + st.code * 2 ^ 8 + seq.toNat * 2 ^ 16) ++ List.replicate 12 0

/-- An answer to a request: the response, and the bytes read after it. -/
def Sys.answerReq (y : Sys) (r : MgmtReq) (code : Nat) (st : MgmtStatus) (bytes : List Byte) : Sys :=
  { y with answers := y.answers ++
    [{ peer := r.vf.toNat, code := code, status := st.code, seq := r.seq, bytes := mgmtResponse code st r.seq ++ bytes }] }

/-- The request that the bytes of a message make: its header (R66), whose reserved bytes are not looked at, and its payload. Where the bytes
begin that follow the fields of a payload R66 does not say: at +0x08 of it, the entries of RESTORE at +0x10 (DESIGN CHOICE, assumption log
61). None for a REQ that R66 does not list, or a length that is not the payload's. -/
def mgmtOf (b : List Byte) : Option Event :=
  let r : MgmtReq := { seq := BitVec.ofNat 16 (field b 2 2), vf := BitVec.ofNat 8 (field b 5 1) }
  let p := b.drop 16
  let x := field p 0 8
  if b.length < 16 || field b 6 2 != p.length then none
  else
    match field b 0 1 with
    | 1 => if p.length < 8 then none else some (.writeEntry r (bits x 7 0) (bits x 27 16) (bits x 47 32) (p.drop 8))
    | 2 => if p.length != 8 then none else some (.readEntry r (bits x 7 0) (bits x 27 16) (bits x 47 32) (bits x 55 48))
    | 3 => if p.isEmpty then none else some (.flushKey r (bits x 7 0))
    | 4 =>
      if p.length < 16 || p.length % 16 != 0 then none
      else some (.restore r (BitVec.ofNat 32 x) ((List.range (p.length / 16 - 1)).map (fun j =>
        let e := field p (16 + 16 * j) 4
        { lchip := BitVec.ofNat 12 e, part := BitVec.ofNat 4 (bits e 19 16), sinks := BitVec.ofNat 8 (bits e 31 24) })))
    | 5 => if p.length < 8 then none else some (.fwDeliver r (x % 2 ^ 32) (p.drop 8))
    | 6 => if p.isEmpty then some (.moduleReset r) else none
    | _ => none

/-- A message that makes one of the six requests is that request. -/
def plainEvent (e : Event) : Event :=
  match e with
  | .mgmtMessage b => (mgmtOf b).getD e
  | _ => e

/-- The request comes from the external management link. -/
def fromLink (r : MgmtReq) : Bool := r.vf == 0xFF

/-- The valid VFs of the host whose VF asks: those bound to its logical device (R49, R66). -/
def Sys.hostVfs (y : Sys) (r : MgmtReq) : List Nat :=
  let v := y.vf r.vf.toNat
  if v.valid then (y.vfs.filter (fun q => q.2.valid && q.2.ld == v.ld)).map Prod.fst else []

/-- The partitions of the host that asks. -/
def Sys.hostParts (y : Sys) (r : MgmtReq) : List Nat := (y.hostVfs r).map (fun v => (y.vf v).part.toNat)

/-- A VF is bound to one of the host's partitions. -/
def Sys.vfAmong (y : Sys) (r : MgmtReq) (i : Nat) : Bool := (y.vf i).valid && (y.hostParts r).contains (y.vf i).part.toNat

/-- The host may write an entry of a table. -/
def Sys.mayWrite (y : Sys) (r : MgmtReq) (table i : Nat) : Bool :=
  fromLink r ||
  (match table with
    | 2 | 4 => y.vfAmong r i
    | 3 | 5 | 6 => (y.hostParts r).contains i
    | 7 => i != moduleWear && (y.hostParts r).any (fun p => (y.part p).valid && (y.part p).dies.getLsbD i)
    | _ => false)

/-- The host may read an entry of a table. -/
def Sys.mayRead (y : Sys) (r : MgmtReq) (table i : Nat) : Bool :=
  fromLink r ||
  (match table with
    | 0 | 3 | 5 | 6 => (y.hostParts r).contains i
    | 1 => (y.hostVfs r).contains i
    | 2 | 4 => y.vfAmong r i
    | 7 | 8 => true
    | _ => false)

/-- Bytes of an entry replaced from an offset on. -/
def patch (b : List Byte) (ofs : Nat) (new : List Byte) : List Byte := b.take ofs ++ new ++ b.drop (ofs + new.length)

/-- The answer to a WRITE_ENTRY, and the package after it. -/
def writeEntryAct (s : State) (r : MgmtReq) (table i ofs : Nat) (bs : List Byte) : Sys :=
  let y := s.sys
  match y.entryBytes table i with
  | none => y.answerReq r 1 .badreq []
  | some b =>
    if bs.isEmpty || 64 < bs.length || b.length < ofs + bs.length then y.answerReq r 1 .badreq []
    else if !y.mayWrite r table i then y.answerReq r 1 .denied []
    else
      match y.writeEntry table i ofs (ofs + bs.length) (patch b ofs bs) with
      | .ok z => z.answerReq r 1 .ok []
      | .refused => y.answerReq r 1 .refused []
      | .key p v => (y.logEal s.gtime p .key 0 0 (BitVec.ofNat 64 (entryOffset table i)) .mgmt 0 0 v).answerReq r 1 .refused []

/-- WRITE_ENTRY (R66). -/
def execWriteEntry : State → Host.Outcome State Fault Refusal :=
  eventNext (fun s => match s.sys.ev with
    | some (.writeEntry r table i ofs bs) => { sys := writeEntryAct s r table i ofs bs }
    | _ => Eff.none s)

/-- READ_ENTRY (R66), and the answer to a message that is no request of R66. -/
def execReadEntry : State → Host.Outcome State Fault Refusal :=
  eventNext (fun s => match s.sys.ev with
    | some (.readEntry r table i ofs n) =>
      { sys := match s.sys.entryBytes table i with
        | none => s.sys.answerReq r 2 .badreq []
        | some b =>
          if n = 0 || 64 < n || b.length < ofs + n then s.sys.answerReq r 2 .badreq []
          else if !s.sys.mayRead r table i then s.sys.answerReq r 2 .denied []
          else s.sys.answerReq r 2 .ok (slice b ofs n) }
    | some (.mgmtMessage b) =>
      if b.length < 16 || (mgmtOf b).isSome then Eff.none s
      else { sys := s.sys.answerReq { seq := BitVec.ofNat 16 (field b 2 2), vf := BitVec.ofNat 8 (field b 5 1) } (field b 0 1) .badreq [] }
    | _ => Eff.none s)

/-! ### Keys (R58, R60) -/

/-- Flat addresses of the 4 KiB pieces of a frame. -/
def framePieces (f : Nat) : List Nat := (List.range 16).map (fun j => f * 65536 + j * 4096)

/-- The frames tagged with a key. -/
def Sys.framesOf (y : Sys) (key : Nat) : List Nat := (y.frames.filter (fun q => q.2.toNat == 256 + key)).map Prod.fst

/-- A flush is refused: key 0 belongs to Abten, and no VF whose range holds the key may have a resident launch or an engine command. -/
def Sys.flushRefused (y : Sys) (key : Nat) : Bool :=
  key == 0 || y.vfs.any (fun q => q.2.valid && q.2.keyOk key &&
    (y.vfResident q.1 || y.cmds.any (fun c => c.vf == q.1 && c.isOpen)))

/-- The frames of a key become zero, after what snapshots still have to capture of them (R195), their tags are cleared, and the new key
is installed. -/
def flushKey (s : State) (key : Nat) : Eff :=
  let fs := s.sys.framesOf key
  let inside := fun (a : Nat) => fs.contains (frameOf a)
  let y1 := (fs.flatMap framePieces).foldl (fun (y : Sys) a => captureFor { s with sys := y } a 4096) s.sys
  { sys := { y1 with
      frames := y1.frames.filter (fun q => !fs.contains q.1)
      eccBad := y1.eccBad.filter (fun a => !(isHbm a && inside a))
      keys := key :: y1.keys.erase key }
    cells := zeroCells s.mem (fun a => isHbm a && inside a) }

/-- FLUSH_KEY (R60). It waits while staging has no room for a capture. -/
def execFlushKey : State → Host.Outcome State Fault Refusal :=
  eventNext (fun s => match s.sys.ev with
    | some (.flushKey r key) =>
      if 256 ≤ key then { sys := s.sys.answerReq r 3 .badreq [] }
      else if !(fromLink r || (s.sys.hostVfs r).any (fun v => (s.sys.vf v).keyOk key)) then { sys := s.sys.answerReq r 3 .denied [] }
      else if s.sys.flushRefused key then { sys := s.sys.answerReq r 3 .refused [] }
      else if s.sys.allStall (((s.sys.framesOf key).flatMap framePieces).map (fun a => (a, 4096))) then Eff.none s
      else
        let e := flushKey s key
        { e with sys := e.sys.answerReq r 3 .ok [] }
    | _ => Eff.none s)

/-- KEY_INSTALL (R48, R58): through an SPDM session. A tenant key that is installed is replaced only by a flush (R60). -/
def execKeyInstall : State → Host.Outcome State Fault Refusal :=
  eventNext (fun s => match s.sys.ev with
    | some (.keyInstall k) =>
      if s.sys.spdm.any (fun q => q.2.session) then
        { sys := match k with
          | .tenant i => if i != 0 && decide (i < 256) && !s.sys.keys.contains i then { s.sys with keys := i :: s.sys.keys } else s.sys
          | .ide n => if n < 2 then { s.sys with ideKeys := n :: s.sys.ideKeys.erase n } else s.sys }
      else Eff.none s
    | _ => Eff.none s)

/-! ### Firmware (R63) -/

/-- The delivered image is verified: the outcome of the signature check and its security version are the image's own, which no
rule fixes. -/
def Sys.verifyImage (y : Sys) (fuse : Nat) : Bool × Sys :=
  let (ok, y1) := takeFree y
  let (ver, y2) := takeFree y1
  if ok.getLsbD 0 && decide (fuse ≤ ver.toNat) && !y.fw.delivered.isEmpty then
    (true, { y2 with fw := { y2.fw with delivered := [], pending := some ver.toNat } })
  else (false, { y2 with fw := { y2.fw with delivered := [] } })

/-- FW_DELIVER (R63, R66). -/
def execFwDeliver : State → Host.Outcome State Fault Refusal :=
  eventNext (fun s => match s.sys.ev with
    | some (.fwDeliver r ofs bs) =>
      if !fromLink r then { sys := s.sys.answerReq r 5 .denied [] }
      else if ofs = 0xFFFFFFFF then
        (match s.sys.verifyImage s.fuse with
          | (true, y) => { sys := y.answerReq r 5 .ok [] }
          | (false, y) => { sys := y.answerReq r 5 .failed [] })
      else if bs.isEmpty || 64 < bs.length || 0xFFFFFFFF < ofs then { sys := s.sys.answerReq r 5 .badreq [] }
      else
        let y := s.sys
        let d := bs.zipIdx.foldl (fun t q => tset t (ofs + q.2) q.1) y.fw.delivered
        { sys := ({ y with fw := { y.fw with delivered := d } } : Sys).answerReq r 5 .ok [] }
    | _ => Eff.none s)

/-- MODULE_RESET (R23, R66). -/
def execModuleReset : State → Host.Outcome State Fault Refusal :=
  eventNext (fun s => match s.sys.ev with
    | some (.moduleReset r) =>
      if fromLink r then { sys := (s.sys.answerReq r 6 .ok []).cold } else { sys := s.sys.answerReq r 6 .denied [] }
    | _ => Eff.none s)

/-! ### Binding, remap (R40, R49) -/

/-- LD_BIND (R49): refused while another logical device holds the host. -/
def execLdBind : State → Host.Outcome State Fault Refusal :=
  eventNext (fun s => match s.sys.ev with
    | some (.ldBind ld host) =>
      if ld < 16 && !s.sys.lds.any (fun q => q.2 == host) then { sys := { s.sys with lds := tset s.sys.lds ld host } } else Eff.none s
    | _ => Eff.none s)

/-- Snapshots of a domain that are LIVE or LOCALDONE end when one of its chips ceases to exist (R203). -/
def Sys.abortDomain (y : Sys) (now dom : Nat) : Sys :=
  (allParts.filter (fun p => (y.part p).valid && (y.part p).joined && (y.part p).dom.toNat == dom)).foldl (fun z p =>
    [false, true].foldl (fun (w : Sys) b =>
      let st := (w.colour p b).st
      if st == .live || st == .localdone then w.askAbort now p b else w) z) y

/-- REMAP_ENTRY_WRITE (R40): one 8-byte store. Requests that waited for it may leave. -/
def execRemapEntryWrite : State → Host.Outcome State Fault Refusal :=
  eventNext (fun s => match s.sys.ev with
    | some (.remapEntryWrite dom lchip w) =>
      if dom < 256 && lchip < 4096 then
        let e : RemapEntry := { phys := w.setWidth 12, valid := w.getLsbD 12, gen := BitVec.ofNat 16 (bits w.toNat 31 16) }
        let was := (s.sys.remapOf dom lchip).valid
        let y := s.sys.putRemap dom lchip e
        let y1 := if was && !e.valid then y.abortDomain s.gtime dom else y
        { sys := y1.sendAll s.gtime }
      else Eff.none s
    | _ => Eff.none s)

/-! ### Partitions (R53, R54) -/

/-- PARTITION_EMPTY (R53): a partition that has nothing left is empty. Where its VFs were stopped to empty it, contribution
entries are freed (R186), and control processors that a double trap stopped run again (R123). -/
def execPartitionEmpty : State → Host.Outcome State Fault Refusal :=
  eventNext (fun s => match s.sys.ev with
    | some (.partitionEmpty p) =>
      let y := s.sys
      let st := (y.part p).st
      if (st == .active || st == .draining) && y.isEmpty p then
        let y1 : Sys := if st == .active then y
          else
            { y with
              contribs := y.contribs.filter (fun c => y.partOfFlat (c.line * 128) != some p)
              due := y.due.filter (fun d => y.partOfFlat d.bar != some p)
              cores := y.cores.map (fun c =>
                if y.partOfDie (coreDie c.1) = some p then (c.1, { c.2 with cp := { c.2.cp with stopped := false } }) else c) }
        { sys := y1.modPart p (fun q => { q with st := .empty }) }
      else Eff.none s
    | _ => Eff.none s)

/-- A flat address lies on a die: in its stack, or in a slice of its cores. -/
def onDie (die a : Nat) : Bool := (isHbm a && a / 2 ^ 36 == die) || (isSram a && coreDie (sramCore a) == die)

/-- A core without anything a tenant left in it: all but the code memory of its control processor, which the spec gives no tenant a way to
write, is as at reset. -/
def Core.scrub (c : Core) : Core := { cp := { code := c.cp.code } }

/-- A die is scrubbed (R54). -/
def scrubDie (s : State) (die p : Nat) : Eff :=
  let y := s.sys
  let y1 : Sys :=
  { y with
    frames := y.frames.filter (fun q => q.1 / 2 ^ 20 != die)
    eccBad := y.eccBad.filter (fun a => !onDie die a)
    eccCorrectable := y.eccCorrectable.filter (fun a => !onDie die a)
    tiles := y.tiles.filter (fun q => coreDie (q.1 / 131072) != die)
    accBad := y.accBad.filter (fun b => coreDie (b / 65536) != die)
    cores := y.cores.map (fun c => if coreDie c.1 = die then (c.1, c.2.scrub) else c) }
  let y2 := y1.modDie die (fun d => { d with scrubbing := none })
  let left := (List.range 12).any (fun n => (y2.die n).scrubbing == some p)
  { sys := if left then y2 else y2.modPart p (fun q => if q.st == .scrubbing then { q with st := .empty } else q)
    cells := zeroCells s.mem (onDie die) }

/-- PARTITION_SCRUB_DONE (R54). -/
def execPartitionScrubDone : State → Host.Outcome State Fault Refusal :=
  eventNext (fun s => match s.sys.ev with
    | some (.partitionScrubDone die) =>
      (match (s.sys.die die).scrubbing with
        | some p => scrubDie s die p
        | none => Eff.none s)
    | _ => Eff.none s)

end Sys2Proof.Machine
end

