-- ==== Sys2Proof/Machine/Matrix.lean ====
section
/-!
DEFINITION. Matrix and accumulator instructions (R347-R364), their chunk sums (R251-R254), drains and stochastic rounding
(R255-R258), and the events that finish them.
-/
namespace Sys2Proof.Machine

/-! ### Chunk sums (R251-R254) -/

/-- One rounding of an accumulator word and the exact sum of a chunk's products (R251, R252). -/
def chunkSum (acc : Nat) (ps : List (FVal × FVal)) : Nat :=
  let s := ps.foldl (fun (a : FVal) p => (fvalAdd .rne a (fvalMul p.1 p.2).1).1) (decodeF fp32 acc)
  (roundTo fp32 .rne s).bits

/-- A list cut into chunks of 32; `fuel` bounds them. -/
def chunks32 {α : Type} : Nat → List α → List (List α)
  | 0, _ => []
  | n + 1, l => if l.isEmpty then [] else l.take 32 :: chunks32 n (l.drop 32)

/-- The integer of an I8 element. -/
def FVal.int : FVal → Int
  | .num n m _ => mant n m
  | _ => 0

/-- A K sequence: its elements, and for complex types the pairs (re, im). -/
abbrev KSeq := List (FVal × FVal)

/-- The real accumulator after a K sequence (types but CBF16 and CF32). -/
def accReal (typ : Nat) (acc : Word) (a b : KSeq) : Word :=
  let ps := (a.zip b).map (fun x => (x.1.1, x.2.1))
  if typ = 4 then BitVec.ofInt 32 (acc.toInt + ps.foldl (fun s p => s + p.1.int * p.2.int) 0)
  else BitVec.ofNat 32 ((chunks32 (ps.length / 32 + 1) ps).foldl chunkSum acc.toNat)

/-- The real and imaginary accumulators after a complex K sequence (R254). -/
def accComplex (re im : Word) (a b : KSeq) : Word × Word :=
  let cs := chunks32 (a.length / 32 + 1) (a.zip b)
  let r := cs.foldl (fun acc c => chunkSum acc (c.flatMap (fun x => [(x.1.1, x.2.1), (x.1.2.negate, x.2.2)]))) re.toNat
  let j := cs.foldl (fun acc c => chunkSum acc (c.flatMap (fun x => [(x.1.1, x.2.2), (x.1.2, x.2.1)]))) im.toNat
  (BitVec.ofNat 32 r, BitVec.ofNat 32 j)

def isComplex (typ : Nat) : Bool := typ == 6 || typ == 7

/-- The K elements of one lane's 32 bytes (R353), with the exponents (E0, E1) of each K-block. -/
def fragK (typ : Nat) (b : List Byte) (sc : List (Nat × Nat)) : KSeq :=
  let half := fun (f : Fmt) (i : Nat) => decodeF f (field b (2 * i) 2)
  let word := fun (i : Nat) => decodeF fp32 (field b (4 * i) 4)
  let z : FVal := .num false 0 0
  let exps := fun (k : Nat) => sc.getD k (0, 0)
  match typ with
  | 0 => (List.range 16).map (fun i => (half bf16 i, z))
  | 1 => (List.range 16).map (fun i => (half fp16 i, z))
  | 2 => (List.range 32).map (fun i => (txbDecode txb8 (exps 0).1 (exps 0).2 (field b i 1), z))
  | 3 => (List.range 64).map (fun i =>
      (txbDecode txb4 (exps (i / 32)).1 (exps (i / 32)).2 (field b (i / 2) 1 / 16 ^ (i % 2) % 16), z))
  | 4 => (List.range 32).map (fun i => (elemValue 4 (field b i 1), z))
  | 5 => (List.range 8).map (fun i => (word i, z))
  | 6 => (List.range 8).map (fun i => (half bf16 (2 * i), half bf16 (2 * i + 1)))
  | _ => (List.range 4).map (fun i => (word (2 * i), word (2 * i + 1)))

/-- The bytes of a run of v registers of a lane; an absent lane's are zero. -/
def Group.frag (g : Group) (l r n : Nat) : List Byte :=
  (List.range n).flatMap (fun j => bytesOf 4 (if g.lanes.getLsbD l then (sget g.regs.v (l * 128 + r + j)).toNat else 0))

/-- A scale register of a lane. -/
def Group.scale (g : Group) (l r : Nat) : Nat := if g.lanes.getLsbD l then (sget g.regs.v (l * 128 + r)).toNat else 0

/-- The exponents that a type's scale registers give a row of A (`sh` 0) or a column of B (`sh` 16). -/
def scalesOf (typ : Nat) (words : List Nat) (sh : Nat) : List (Nat × Nat) :=
  let n := if typ = 2 then 1 else if typ = 3 then 2 else 0
  (List.range n).map (fun j => let w := words.getD j 0 / 2 ^ sh; (w % 256, w / 256 % 256))

/-! ### Checks common to matrix instructions (R347, R361) -/

/-- What a matrix instruction decides. -/
inductive MDecision where
  | hold
  | trap (c : Cause) (lanes : LaneMask) (addr : DWord)
  /-- It issues; with `keep` the replay record keeps what it has done. -/
  | go (p : Plan) (f : Sys → Sys) (keep : Bool := false)

/-- The line of the replay record that a matrix instruction which issues again answers to (R114). -/
def Iss.matrixLine (i : Iss) (insn : Word) : Option MatrixLine :=
  i.g.matrix.find? (fun l => l.undone && l.pc == i.e.pc && l.insn == insn)

/-- A recorded matrix instruction issues again: nothing of it performs a second time; its requests and its line stand again. -/
def Iss.replayMatrix (i : Iss) (l : MatrixLine) (y : Sys) : Sys :=
  let n := i.g.nextSeq
  let y1 := y.modGroup i.g.handle (fun g => { g with
    matrix := g.matrix.map (fun x => if x == l then { x with undone := false, seq := n } else x)
    mmaj := g.mmaj.map (fun m => if m.seq = l.seq then { m with seq := n } else m) })
  { y1 with accesses := y1.accesses.map (fun a =>
      if a.who == .group i.g.handle && a.undone && a.seq == l.seq then { a with undone := false, seq := n } else a) }

/-- The replay record keeps a line for each matrix instruction that is undone or stands in the window. -/
def Group.pruneMatrix (g : Group) : Group :=
  { g with matrix := g.matrix.filter (fun l => l.undone || g.window.any (fun w => w.seq == l.seq)) }

/-- A matrix instruction: it acts once for the whole group when some lane of the entry has its guard true. -/
def matrixWord (d : Iss → Desc) (f : Iss → State → MDecision) : State → Host.Outcome State Fault Refusal :=
  wordNext (fun i s =>
    let d0 := { d i with agents := .groupOnly }
    let acts := i.act d0.g != 0
    let ds := { d0 with hz := some (if acts then i.hazard d0 i.e.mask else 0), mem := d0.mem && acts }
    match i.check s.sys ds with
    | .hold => s.sys
    | .trap c m a => i.trap s.sys c m a
    | .go =>
      if !acts then i.fall ds [] [] s.sys
      else if i.g.lanes &&& ~~~i.e.mask != 0 then i.trap s.sys .uniform i.e.mask 0
      else
        match i.matrixLine s.sys.insn with
        | some l => (i.fall ds [] [] (i.replayMatrix l (i.commit { v := l.writes.map (fun w => (w.1 / 128, w.1 % 128, w.2.setWidth 64)) } s.sys)))
        | none =>
          match f i s with
          | .hold => s.sys
          | .trap c m a => i.trap s.sys c m a
          | .go p upd keep =>
            let y := upd (i.commit p.writes { s.sys.forget i.now with free := s.sys.free + p.frees })
            let line : MatrixLine :=
            { seq := i.g.nextSeq, pc := i.e.pc, insn := s.sys.insn, writes := p.writes.v.map (fun w => (w.1 * 128 + w.2.1, w.2.2.setWidth 32)) }
            let y1 := if keep then y.modGroup i.g.handle (fun g => { g with matrix := g.matrix ++ [line] }) else y
            ((i.fall ds [] [] (i.addReqs 0 none p.reqs y1)).modGroup i.g.handle Group.pruneMatrix).sendAll i.now)

/-- The matrix parameter block (R349). -/
structure Mpb where
  bar : Nat
  aaddr : Nat
  baddr : Nat
  ksteps : Nat
  rnd : Nat
  sren : Bool
  srmode : Nat
  cplx : Bool
  dfmt : Nat
  ainc : Int
  binc : Int
  alpha : Nat
  drainp : Nat
  srlog : Nat
  jtag : Nat
  rsvd : Bool
deriving DecidableEq, Repr

def mpbOf (b : List Byte) : Mpb :=
  let c := field b 0x18 4
  { bar := field b 0 8, aaddr := field b 8 8, baddr := field b 0x10 8, ksteps := bits c 15 0, rnd := bits c 19 16, sren := bit c 20
    srmode := bits c 22 21, cplx := bit c 23, dfmt := bits c 31 24, ainc := signedOf 32 (field b 0x1C 4)
    binc := signedOf 32 (field b 0x20 4), alpha := field b 0x24 4, drainp := field b 0x28 8, srlog := field b 0x30 8
    jtag := field b 0x38 1, rsvd := field b 0x39 7 != 0 }

/-- The MPB read at issue: a hold while the group's own stores to it are in flight, or a trap (R348). -/
def Iss.readMpb (i : Iss) (s : State) : Except MDecision Mpb :=
  let p := i.g.regs.mpb.toNat
  let fail := if spaceOf p != 3 then some .space
    else (i.addrFail s.sys .load 64 64 { lane := 0, base := p, ea := p }).map Prod.snd
  match fail with
  | some c => .error (.trap c i.e.mask (BitVec.ofNat 64 p))
  | none =>
    if s.sys.storesPending i.g.handle (match i.target s.sys p 64 with | some (.home f, _) => f | _ => 0) 64 then .error .hold
    else
      match i.peek s p 64 with
      | .error c => .error (.trap c i.e.mask (BitVec.ofNat 64 p))
      | .ok b => .ok (mpbOf b)

/-- The flat address of an MPB's barrier pointer; none when it is 0. Another space raises SPACE, misalignment ALIGN (R168). -/
def Iss.mpbBar (i : Iss) (y : Sys) (p : Nat) : Except Cause (Option Nat) :=
  if p = 0 then .ok none
  else if spaceOf p != 2 && spaceOf p != 3 then .error .space
  else
    match i.addrFail y .atomic 16 16 { lane := 0, base := p, ea := p } with
    | some (_, c) => .error c
    | none => .ok (some (i.flatOf y p 16))

/-! ### Tiles (R351, R352) -/

/-- Who owns tiles for a group: its block, or the group where it was formed from a bin. -/
def Group.owner (g : Group) : Nat := g.block.getD g.handle

/-- The tiles that an instruction names are owned by others. -/
def Iss.tileLost (i : Iss) (y : Sys) (ts : List Nat) : Bool :=
  ts.any (fun t => match y.tileOwner.find? (fun o => o.1 == i.core * 128 + t) with
    | some (_, o) => o != i.g.owner
    | none => false)

/-- An earlier operation on one of the tiles is unfinished. -/
def Sys.tileBusy (y : Sys) (core : Nat) (ts : List Nat) : Bool :=
  y.mloops.any (fun m => m.core == core && (ts.contains m.tile || (isComplex m.typ.toNat && ts.contains (m.tile + 1)))) ||
  y.tileOps.any (fun o => o.core == core && (ts.contains o.tile || (o.complex && ts.contains (o.tile + 1))))

/-- The issuing block owns the tiles. -/
def Iss.own (i : Iss) (ts : List Nat) (y : Sys) : Sys :=
  ts.foldl (fun y t =>
    if y.tileOwner.any (fun o => o.1 == i.core * 128 + t) then y
    else { y with tileOwner := y.tileOwner ++ [(i.core * 128 + t, i.g.owner)] }) y

/-- A word of a tile. -/
def Sys.tile (y : Sys) (core t r c : Nat) : Word := sget y.tiles (tileWord core t (32 * r + c))

/-- A write to tiles needs a capture that staging has no room for (R195). -/
def Sys.tileStalls (y : Sys) (core t : Nat) : Bool :=
  let p := y.part (y.partOfCore core)
  let g := Granule.accBank core (t / 4)
  (p.colourA.pending g || p.colourB.pending g) && decide (p.stagingBytes < p.staged + 16384)

/-- Words written to a tile, its granule captured first where a snapshot waits for it. -/
def writeTile (s : State) (core t : Nat) (ws : List (Nat × Word)) : Sys :=
  let y := captureGranule s (s.sys.partOfCore core) (.accBank core (t / 4))
  let at_ := ws.map (fun w => tileWord core t w.1)
  { y with
    tiles := ssets y.tiles (ws.map (fun w => (tileWord core t w.1, w.2)))
    accBad := y.accBad.filter (fun b => !(at_.contains (2 * b) && at_.contains (2 * b + 1))) }

/-- Some word of the tiles holds uncorrectable data (R61, R62). -/
def Sys.tileHurt (y : Sys) (core : Nat) (ts : List Nat) : Bool := y.accBad.any (fun b => ts.any (fun t => b / 512 == core * 128 + t))

/-! ### MMA (R354) -/

/-- The registers of MMA and MMAJ. -/
def mmaDesc (o : FormMma) (joined : Bool) (_ : Iss) : Desc :=
  let t := o.t.toNat
  let a := o.a.toNat
  let d := o.d.toNat
  let src := regRange a (if joined then 12 else 16) ++ (if t = 2 then [a + 16] else if t = 3 then [a + 16, a + 17] else [])
  let dst := regRange d (if joined || isComplex t then 64 else 32)
  { g := o.g, s := o.s, src := src, dst := dst, mem := joined
    bad := (if joined then 5 else 7) < t || a % 8 != 0 || d % 32 != 0 || src.any (fun r => dst.contains r) }

/-- The accumulator writes of a product: rows of present lanes. `a` and `b` give the K sequences, `n` the columns. -/
def productWrites (g : Group) (typ d n : Nat) (a b : Nat → KSeq) : List (Nat × Word) :=
  let acc := fun (l r : Nat) => sget g.regs.v (l * 128 + r)
  (lanesOf g.lanes).flatMap (fun l =>
    let al := a l
    (List.range n).flatMap (fun c =>
      if isComplex typ then
        let r := accComplex (acc l (d + c)) (acc l (d + 32 + c)) al (b c)
        [(l * 128 + d + c, r.1), (l * 128 + d + 32 + c, r.2)]
      else [(l * 128 + d + c, accReal typ (acc l (d + c)) al (b c))]))

/-- MMA (R354). -/
def execMma (o : FormMma) : State → Host.Outcome State Fault Refusal :=
  matrixWord (mmaDesc o false) (fun i _ =>
    let t := o.t.toNat
    let a := o.a.toNat
    let d := o.d.toNat
    let g := i.g
    let sc := fun (l sh : Nat) => scalesOf t [g.scale l (a + 16), g.scale l (a + 17)] sh
    let ws := productWrites g t d 32 (fun l => fragK t (g.frag l a 8) (sc l 0)) (fun c => fragK t (g.frag c (a + 8) 8) (sc c 16))
    .go {} (fun y => y.modGroup g.handle (fun x =>
      { x with mmas := x.mmas ++ [{ seq := g.nextSeq, d := d, n := if isComplex t then 64 else 32, writes := ws }] })))

/-- A register write by lane × 128 + register, as a delivered result. -/
def vWrites (ws : List (Nat × Word)) : Writes := { v := ws.map (fun w => (w.1 / 128, w.1 % 128, w.2.setWidth 64)) }

/-- MMA_RESULT (R354): the oldest register MMA of a group is written. -/
def execMmaResult : State → Host.Outcome State Fault Refusal :=
  eventNext (fun s => match s.sys.ev with
    | some (.mmaResult h) =>
      { sys := s.sys.modGroup h (fun g => match g.mmas with
          | m :: r => { g.deliver m.seq (vWrites (m.writes.filter (fun w => g.lanes.getLsbD (w.1 / 128)))) with mmas := r }
          | [] => g) }
    | _ => Eff.none s)

/-! ### MMAJ (R355, R356) -/

/-- The lent registers of a group as they stand. -/
def Group.lentNow (g : Group) (a d : Nat) : Sparse 32 :=
  g.regs.v.filter (fun p => let r := p.1 % 128; (decide (a ≤ r) && decide (r < a + 12)) || (decide (d ≤ r) && decide (r < d + 64)))

/-- MMAJ (R355): it waits to join, and stands in the window until then. -/
def execMmaj (o : FormMma) : State → Host.Outcome State Fault Refusal :=
  matrixWord (fun i =>
    let d := mmaDesc o true i
    let gpb := match i.launch with | some l => l.record.gpb.toNat | none => 0
    { d with bad := d.bad || i.g.block.isNone || gpb ≤ i.g.gix / 4 * 4 + 3 }) (fun i s =>
    match i.readMpb s with
    | .error e => e
    | .ok m =>
      if m.rsvd || m.bar = 0 then .trap .illegal i.e.mask 0
      else
        match i.mpbBar s.sys m.bar with
        | .error c => .trap c i.e.mask (BitVec.ofNat 64 m.bar)
        | .ok none => .trap .illegal i.e.mask 0
        | .ok (some f) =>
          if i.g.mmaj.isSome then .hold
          else
            let a := o.a.toNat
            let d := o.d.toNat
            let sc : Sparse 32 := ssets [] ((lanesOf i.g.lanes).flatMap (fun l =>
              [(2 * l, sget i.g.regs.v (l * 128 + a + 16)), (2 * l + 1, sget i.g.regs.v (l * 128 + a + 17))]))
            let j : Mmaj :=
            { jtag := BitVec.ofNat 8 m.jtag, typ := o.t, a := a, d := d, bar := BitVec.ofNat 64 m.bar, barAddr := f, scales := sc
              lent := i.g.lentNow a d, seq := i.g.nextSeq, joined := false, done := false, corrupt := false, writes := [] }
            .go {} (fun y => y.modGroup i.g.handle (fun x => { x with mmaj := some j })) true)

/-- The four groups that an MMAJ of a group joins. -/
def Sys.joinSet (y : Sys) (g : Group) : List Group :=
  (List.range 4).filterMap (fun q => y.groups.find? (fun x => x.block.isSome && x.block == g.block && x.gix == g.gix / 4 * 4 + q))

/-- A group with its lent registers as they stood at issue, for computing the product. -/
def Group.asLent (g : Group) (m : Mmaj) : Group := { g with regs := { g.regs with v := m.lent } }

/-- The column of the shared B operand (R355): lane c holds the first half of its K and lane c + 16 the second. -/
def quarterColumn (g : Group) (m : Mmaj) (c : Nat) : KSeq :=
  let t := m.typ.toNat
  let x := g.asLent m
  let sc := scalesOf t [(sget m.scales (2 * c)).toNat, (sget m.scales (2 * c + 1)).toNat] 16
  fragK t (x.frag c (m.a + 8) 4 ++ x.frag (c + 16) (m.a + 8) 4) sc

/-- The writes of a member's accumulator. -/
def mmajWrites (set : List (Group × Mmaj)) (g : Group) (m : Mmaj) : List (Nat × Word) :=
  let t := m.typ.toNat
  let x := g.asLent m
  let zero : KSeq := []
  productWrites x t m.d 64
    (fun l => fragK t (x.frag l m.a 8) (scalesOf t [(sget m.scales (2 * l)).toNat, (sget m.scales (2 * l + 1)).toNat] 0))
    (fun c => match set[c / 16]? with | some (h, n) => quarterColumn h n (c % 16) | none => zero)

/-- MMAJ_JOIN (R356): the four members of one JTAG join. Members that differ in type leave every accumulator unpredictable. -/
def mmajJoin (y : Sys) (h : Nat) : Sys :=
  match y.group? h with
  | none => y
  | some g =>
    let set := (y.joinSet g).filterMap (fun x => x.mmaj.map (fun m => (x, m)))
    match g.mmaj with
    | none => y
    | some m =>
      if set.length = 4 && set.all (fun x => !x.2.joined && x.2.jtag == m.jtag && x.1.offCore.isNone) then
        let mixed := set.any (fun x => x.2.typ != m.typ)
        set.foldl (fun acc x => acc.modGroup x.1.handle (fun z =>
          { z with mmaj := some { x.2 with joined := true, corrupt := mixed, writes := mmajWrites set x.1 x.2 } })) y
      else y

/-- MMAJ_JOIN (R356). -/
def execMmajJoin : State → Host.Outcome State Fault Refusal :=
  eventNext (fun s => match s.sys.ev with
    | some (.mmajJoin h) => { sys := mmajJoin s.sys h }
    | _ => Eff.none s)

/-- The lent quarter of B of a group has been written. -/
def Group.quarterSpoiled (g : Group) (m : Mmaj) : Bool :=
  let part := fun (v : Sparse 32) => v.filter (fun p => decide (m.a + 8 ≤ p.1 % 128) && decide (p.1 % 128 < m.a + 12))
  part g.regs.v != part m.lent

/-- The members of a joined MMAJ that are still to be written, but for one group. -/
def Sys.joinedPeers (y : Sys) (g : Group) (m : Mmaj) : List Group :=
  (y.joinSet g).filter (fun x => x.handle != g.handle && (match x.mmaj with | some n => n.joined && n.jtag == m.jtag | none => false))

/-- MMAJ_COMPLETE (R356): the accumulator is written and one arrival is made on BAR. A product whose lent registers were written
meanwhile, or whose members differ in type, is a free value in every element; a quarter of B that was written spoils every product of the
four (R111). Registers released meanwhile take nothing. The result of one that a return has undone waits for it to issue again (R114). -/
def mmajComplete (s : State) (h : Nat) : Eff :=
  match s.sys.group? h with
  | none => Eff.none s
  | some g =>
    match g.mmaj with
    | none => Eff.none s
    | some m =>
      if !m.joined || s.sys.writeStalls m.barAddr 16 then Eff.none s
      else
        let peers := s.sys.joinedPeers g m
        let spoiled := m.corrupt || g.lentNow m.a m.d != m.lent ||
          peers.any (fun x => match x.mmaj with | some n => x.quarterSpoiled n | none => false)
        let ws := (if spoiled then m.writes.mapIdx (fun j w => (w.1, (Config.freeWord (s.sys.free + j)).setWidth 32)) else m.writes).filter
          (fun w => g.lanes.getLsbD (w.1 / 128) && decide (w.1 % 128 < g.allot))
        let undone := g.matrix.any (fun l => l.seq == m.seq && l.undone)
        let y := s.sys.modGroup h (fun x => { (if undone then x else x.deliver m.seq (vWrites ws)) with
          mmaj := none, matrix := x.matrix.map (fun l => if l.seq = m.seq then { l with writes := ws } else l) })
        let y0 := if g.quarterSpoiled m then
            peers.foldl (fun z x => z.modGroup x.handle (fun v => { v with mmaj := v.mmaj.map (fun n => { n with corrupt := true }) })) y
          else y
        let y1 : Sys := if spoiled then { y0 with free := y0.free + m.writes.length } else y0
        let r := barrierOp { s with sys := y1 } m.barAddr .arrive
        match r.err with
        | some c => { r.eff with sys := (r.eff.sys.logGroup s.gtime g c 0 0 m.bar) }
        | none => r.eff

/-- MMAJ_COMPLETE (R356). -/
def execMmajComplete : State → Host.Outcome State Fault Refusal :=
  eventNext (fun s => match s.sys.ev with
    | some (.mmajComplete h) => mmajComplete s h
    | _ => Eff.none s)

/-! ### MLOOP (R357, R358) -/

/-- Bytes of one step of a type: 1,024 and its scales. -/
def stepBytes (typ : Nat) : Nat := if typ = 2 then 1088 else if typ = 3 then 1152 else 1024

/-- The pointers of the steps of an operand. -/
def stepPtrs (base : Nat) (inc : Int) (n : Nat) : List Nat :=
  (List.range n).map (fun (k : Nat) => (((base : Int) + (k : Int) * inc) % ((2 ^ 64 : Nat) : Int)).toNat)

/-- The flat addresses of the 64-byte units of a step, or its failure. -/
def Iss.stepAddr (i : Iss) (y : Sys) (n p : Nat) : Except Cause (List Nat) :=
  if spaceOf p != 3 then .error .space
  else
    match i.addrFail y .load n 64 { lane := 0, base := p, ea := p } with
    | some (_, c) => .error c
    | none => .ok ((List.range (n / 64)).map (fun u => i.flatOf y (p + 64 * u) 64))

/-- All of them, or the first failure with its pointer. -/
def allOk : List (Nat × Except Cause (List Nat)) → Except (Cause × Nat) (List (List Nat))
  | [] => .ok []
  | (p, .error c) :: _ => .error (c, p)
  | (_, .ok f) :: r => (allOk r).map (fun l => f :: l)

/-- MLOOP (R357). -/
def execMloop (o : FormMloop) : State → Host.Outcome State Fault Refusal :=
  let t := o.t.toNat
  let tile := o.d.toNat
  let ts := if isComplex t then [tile, tile + 1] else [tile]
  matrixWord (fun _ => { g := o.g, s := o.s, bad := 7 < t || (isComplex t && tile % 2 == 1) }) (fun i s =>
    match i.readMpb s with
    | .error e => e
    | .ok m =>
      if i.tileLost s.sys ts then .trap .limit i.e.mask 0
      else if m.rsvd || m.ksteps = 0 || m.ainc % 64 != 0 || m.binc % 64 != 0 then .trap .illegal i.e.mask 0
      else
        match i.mpbBar s.sys m.bar with
        | .error c => .trap c i.e.mask (BitVec.ofNat 64 m.bar)
        | .ok bar =>
          let n := stepBytes t
          let addrs := fun (b : Nat) (inc : Int) => allOk ((stepPtrs b inc m.ksteps).map (fun p => (p, i.stepAddr s.sys n p)))
          match addrs m.aaddr m.ainc, addrs m.baddr m.binc with
          | .error (c, p), _ => .trap c i.e.mask (BitVec.ofNat 64 p)
          | _, .error (c, p) => .trap c i.e.mask (BitVec.ofNat 64 p)
          | .ok as, .ok bs =>
            let queued := s.sys.mloops.filter (fun x => x.core == i.core && x.quadrant == i.g.quadrant)
            if s.sys.tileBusy i.core ts || 4 ≤ queued.length then .hold
            else
              .go {} (fun y =>
                let (id, y1) := (i.own ts y).fresh
                { y1 with mloops := y1.mloops ++
                    [{ id := id, group := i.g.handle, gslot := i.g.slot, launch := i.g.launch, block := i.g.owner, core := i.core, quadrant := i.g.quadrant
                       tile := tile, typ := o.t, aPtrs := stepPtrs m.aaddr m.ainc m.ksteps, bPtrs := stepPtrs m.baddr m.binc m.ksteps
                       aSteps := as, bSteps := bs, barPtr := m.bar, bar := bar, operands := [] }] }) true)

/-- The sequencer of a quadrant takes its commands in order. -/
def Sys.mloopTurn (y : Sys) (m : Mloop) : Bool :=
  (y.mloops.find? (fun x => x.core == m.core && x.quadrant == m.quadrant)).map (fun x => x.id) == some m.id

/-- Every step has been read. -/
def Mloop.readAll (m : Mloop) : Bool := m.aSteps.length ≤ m.operands.length

/-- An MLOOP ends at a step whose data is uncorrectable: a record of an engine, no arrival, and the tile as it was (R62, R361). -/
def Sys.failMloop (y : Sys) (now : Nat) (m : Mloop) (c : Cause) (p : Nat) : Sys :=
  let (part, vf) := match y.launch? m.launch with
    | some l => (l.part, l.vf)
    | none => (y.partOfCore m.core, 0)
  (({ y with mloops := y.mloops.filter (fun x => x.id != m.id) } : Sys).logEal now part c 0 0 (BitVec.ofNat 64 p) .engine m.core 0 vf).releaseOwner m.block

/-- MLOOP_OPERANDS_READ (R358): the next step is read, after the group's earlier scratchpad and distributed SRAM stores. -/
def execMloopOperandsRead : State → Host.Outcome State Fault Refusal :=
  eventNext (fun s => match s.sys.ev with
    | some (.mloopOperandsRead id) =>
      (match s.sys.mloops.find? (fun m => m.id == id) with
        | none => Eff.none s
        | some m =>
          let k := m.operands.length
          let earlier := s.sys.accesses.any (fun a => a.who == .group m.group && a.isFlight && !a.op.isRead && decide (a.id < id) &&
            [2, 3].contains (spaceOf a.ptr.toNat))
          if m.readAll || earlier || !s.sys.mloopTurn m then Eff.none s
          else
            let a := m.aSteps.getD k []
            let b := m.bSteps.getD k []
            match a.findSome? (fun u => s.sys.readError u 64 0), b.findSome? (fun u => s.sys.readError u 64 0) with
            | some c, _ => { sys := s.sys.failMloop s.gtime m c (m.aPtrs.getD k 0) }
            | _, some c => { sys := s.sys.failMloop s.gtime m c (m.bPtrs.getD k 0) }
            | none, none =>
              let rd := m.operands ++ [(a.flatMap (fun u => readBytes s.mem u 64), b.flatMap (fun u => readBytes s.mem u 64))]
              let y := (a ++ b).foldl (fun z u => z.readAt u 64 0) s.sys
              { sys := { y with mloops := y.mloops.map (fun x => if x.id = id then { x with operands := rd } else x) } })
    | _ => Eff.none s)

/-- Row or column r of one step's bytes as a K sequence (R357). -/
def stepK (typ : Nat) (b : List Byte) (r : Nat) : KSeq :=
  let sc := if typ = 2 then [(field b (1024 + 2 * r) 1, field b (1025 + 2 * r) 1)]
    else if typ = 3 then [(field b (1024 + 4 * r) 1, field b (1025 + 4 * r) 1), (field b (1026 + 4 * r) 1, field b (1027 + 4 * r) 1)]
    else []
  fragK typ (slice b (32 * r) 32) sc

/-- The tile writes of an MLOOP: the real tile, and the imaginary one for complex types. -/
def mloopWrites (y : Sys) (m : Mloop) (ops : List (List Byte × List Byte)) : List (Nat × Word) × List (Nat × Word) :=
  let t := m.typ.toNat
  let rows := (List.range 32).map (fun r => ops.flatMap (fun o => stepK t o.1 r))
  let cols := (List.range 32).map (fun c => ops.flatMap (fun o => stepK t o.2 c))
  let cells := rows.mapIdx (fun r a => cols.mapIdx (fun c b => (32 * r + c, a, b)))
  let all := cells.flatMap id
  if isComplex t then
    let w := all.map (fun x => (x.1, accComplex (sget y.tiles (tileWord m.core m.tile x.1)) (sget y.tiles (tileWord m.core (m.tile + 1) x.1)) x.2.1 x.2.2))
    (w.map (fun x => (x.1, x.2.1)), w.map (fun x => (x.1, x.2.2)))
  else (all.map (fun x => (x.1, accReal t (sget y.tiles (tileWord m.core m.tile x.1)) x.2.1 x.2.2)), [])

/-- MLOOP_COMPLETE (R358): the tile holds every step, and one arrival is made on BAR. -/
def mloopComplete (s : State) (id : Nat) : Eff :=
  match s.sys.mloops.find? (fun m => m.id == id) with
  | none => Eff.none s
  | some m =>
    if !m.readAll then Eff.none s
    else
      let stalls := s.sys.tileStalls m.core m.tile || (match m.bar with | some f => s.sys.writeStalls f 16 | none => false)
      if stalls then Eff.none s
      else if s.sys.tileHurt m.core (if isComplex m.typ.toNat then [m.tile, m.tile + 1] else [m.tile]) then
        { sys := s.sys.failMloop s.gtime m .ecc 0 }
      else
        let w := mloopWrites s.sys m m.operands
        let y := writeTile s m.core m.tile w.1
        let y1 := if w.2.isEmpty then y else writeTile { s with sys := y } m.core (m.tile + 1) w.2
        let y2 : Sys := { y1 with mloops := y1.mloops.filter (fun x => x.id != id) }
        match m.bar with
        | none => { sys := y2.releaseOwner m.block }
        | some f =>
          let r := barrierOp { s with sys := y2 } f .arrive
          let (part, vf) := match y2.launch? m.launch with
            | some l => (l.part, l.vf)
            | none => (y2.partOfCore m.core, 0)
          let z := match r.err with
            | some c => r.eff.sys.logEal s.gtime part c 0 0 (BitVec.ofNat 64 m.barPtr) .group m.core m.gslot vf
            | none => r.eff.sys
          { r.eff with sys := z.releaseOwner m.block }

/-- MLOOP_COMPLETE (R358). -/
def execMloopComplete : State → Host.Outcome State Fault Refusal :=
  eventNext (fun s => match s.sys.ev with
    | some (.mloopComplete id) => mloopComplete s id
    | _ => Eff.none s)

/-- OPFENCE (R359). -/
def execOpfence (o : FormG) : State → Host.Outcome State Fault Refusal :=
  matrixWord (fun _ => { g := o.g, s := o.s }) (fun i s =>
    let unjoined := match i.g.mmaj with | some m => !m.joined | none => false
    if unjoined || s.sys.mloops.any (fun m => m.group == i.g.handle && !m.readAll) then .hold else .go {} id)

/-! ### Drains (R255-R258, R360-R363) -/

/-- The format entry code (R133) of a drain format: F32, BF16, F16, X8, X4, I8, I32. -/
def drainFmt (f : Nat) : Nat := if f = 0 then 1 else if f = 1 then 2 else if f = 2 then 3 else if f = 3 then 6 else if f = 4 then 7
  else if f = 5 then 4 else 5

/-- The checks of a drain's MPB fields (R349, R350, R360). -/
def drainBad (m : Mpb) (tile f : Nat) (upd det : Bool) : Bool :=
  m.rsvd || m.dfmt != f || 4 < m.rnd || (m.sren && m.rnd != 0) || (m.sren && m.srmode = 3) ||
  (m.cplx && (tile % 2 == 1 || 2 < f)) || (upd && (f = 5 || f = 6)) || (det && m.sren && m.srmode != 2)

/-- SR reaches these destinations (R256). -/
def srReaches (f : Nat) (upd : Bool) : Bool := (f = 0 && upd) || f = 1 || f = 2 || f = 3 || f = 4

/-- Where a drain's random values come from. -/
structure Noise where
  use : Bool
  vals : List Nat

/-- The rounding mode of element e. -/
def Noise.mode (n : Noise) (rnd e : Nat) : Rnd := if n.use then .sr (n.vals.getD e 0) else rndOf rnd

/-- The value of an accumulator word: an integer for I32, else FP32. -/
def accValue (f : Nat) (w : Word) : FVal := if f = 6 then elemValue 5 w.toNat else decodeF fp32 w.toNat

/-- The value that an update drain rounds: w + alpha × acc, exact (R255); the sign of an exact zero is the mode's (R239). -/
def updValue (mode : Rnd) (alpha : Nat) (acc w : FVal) : FVal := (fvalAdd mode w (fvalMul (decodeF fp32 alpha) acc).1).1

/-- A drained element's bits in a format that is no TXB format. -/
def drainElem (f : Nat) (mode : Rnd) (x : FVal) (w : Word) (upd : Bool) : Nat :=
  if f = 6 then w.toNat
  else if f = 0 && !upd then w.toNat
  else match x with
    | .nan _ => if f = 5 then 0 else (fmtOf (drainFmt f)).nan
    | _ => (elemBits (drainFmt f) mode x).bits

/-- A drained row: its element bytes, and its exponents for the TXB formats. `old` gives the destination's values for an update. -/
def drainRow (y : Sys) (core tile r : Nat) (m : Mpb) (f : Nat) (n : Noise) (old : Option (List FVal)) : List Byte × List Byte :=
  let parts := if m.cplx then 2 else 1
  let idx := (List.range 32).flatMap (fun c => (List.range parts).map (fun p => (c, p)))
  let word := fun (x : Nat × Nat) => y.tile core (tile + x.2) r x.1
  let elemNo := fun (x : Nat × Nat) => if m.cplx then 64 * r + 2 * x.1 + x.2 else 32 * r + x.1
  let val := fun (j : Nat) (x : Nat × Nat) =>
    match old with
    | some ws => updValue (n.mode m.rnd (elemNo x)) m.alpha (accValue f (word x)) (ws.getD j (.num false 0 0))
    | none => accValue f (word x)
  if f = 3 || f = 4 then
    let t := if f = 3 then txb8 else txb4
    let xs := idx.mapIdx (fun j x => let v := val j x; ({ neg := if v.isNan then old.isNone && (word x).msb else v.neg, val := v, mode := n.mode m.rnd (elemNo x) } : TxbIn))
    let e := txbEncode t none xs
    let es := e.2.2.map (fun x => x.bits)
    let data := if f = 3 then es.map (fun b => BitVec.ofNat 8 b)
      else (List.range 16).map (fun j => BitVec.ofNat 8 (es.getD (2 * j) 0 + 16 * es.getD (2 * j + 1) 0))
    (data, [BitVec.ofNat 8 e.1, BitVec.ofNat 8 e.2.1])
  else
    let size := fmtBytes (drainFmt f)
    ((idx.mapIdx (fun j x => bytesOf size (drainElem f (n.mode m.rnd (elemNo x)) (val j x) (word x) old.isSome))).flatMap id, [])

/-- Bytes of one row of a drained image. -/
def rowBytes (m : Mpb) (f : Nat) : Nat :=
  (if f = 3 then 32 else if f = 4 then 16 else 32 * fmtBytes (drainFmt f)) * (if m.cplx then 2 else 1)

/-- The stochastic log's bytes. -/
def logBytes (m : Mpb) : Nat := if m.cplx then 4096 else 2048

/-- n bytes from a pointer cut where 128-byte lines end: offsets and lengths. `fuel` bounds the pieces. -/
def linePieces (p : Nat) : Nat → Nat → Nat → List (Nat × Nat)
  | 0, _, _ => []
  | fuel + 1, o, n => if n = 0 then [] else
      let k := min n (128 - (p + o) % 128)
      (o, k) :: linePieces p fuel (o + k) (n - k)

/-- The first failure of a run of bytes that an instruction reaches as accesses, with the run's pointer. -/
def Iss.runFail (i : Iss) (y : Sys) (k : AccKind) (p n align : Nat) : Option (Cause × Nat) :=
  if !([0, 2, 3].contains (spaceOf p)) then some (.space, p)
  else
    match i.addrFail y k 1 align { lane := 0, base := p, ea := p } with
    | some (_, c) => some (c, p)
    | none =>
      (linePieces p (n / 128 + 2) 0 n).findSome? (fun x =>
        (i.addrFail y k x.2 1 { lane := 0, base := p, ea := p + x.1 }).map (fun f => (f.2, p)))

/-- A run of bytes is free of the group's own stores in flight. -/
def Iss.runQuiet (i : Iss) (y : Sys) (p n : Nat) : Bool :=
  (linePieces p (n / 128 + 2) 0 n).all (fun x => match i.target y (p + x.1) x.2 with
    | some (.home f, _) => !y.storesPending i.g.handle f x.2
    | _ => true)

/-- The bytes of a run as the group finds them. -/
def Iss.readRun (i : Iss) (s : State) (p n : Nat) : Except (Cause × Nat) (List Byte) :=
  (linePieces p (n / 128 + 2) 0 n).foldl (fun acc x => match acc with
    | .error e => .error e
    | .ok b => match i.peek s (p + x.1) x.2 with
      | .error c => .error (c, p + x.1)
      | .ok d => .ok (b ++ d)) (.ok [])

/-- The stores of a run of bytes by a lane. -/
def Iss.storeRun (i : Iss) (y : Sys) (lane p : Nat) (data : List Byte) (mark : BitVec 2) : List Req :=
  (linePieces p (data.length / 128 + 2) 0 data.length).filterMap (fun x => (i.target y (p + x.1) x.2).map (fun t =>
    { lane := lane, lanes := laneBit lane, wait := 0, op := .store (slice data x.1 x.2), ptr := p + x.1, target := t.1, key := t.2
      dest := .none, mod := mark }))

/-- The loads of a run of bytes by a lane. Their values are taken at issue (assumption log 36); as loads they claim their frames (R59) and
touch the lines that the launch owns (R261). -/
def Iss.loadRun (i : Iss) (y : Sys) (lane p n : Nat) : List Req :=
  (linePieces p (n / 128 + 2) 0 n).filterMap (fun x => (i.target y (p + x.1) x.2).map (fun t =>
    { lane := lane, lanes := laneBit lane, wait := 0, op := .load x.2, ptr := p + x.1, target := t.1, key := t.2, dest := .none }))

/-- The random values of a drain: what fails or holds, or the values, the free values used, and the accesses to the log. -/
def Iss.noise (i : Iss) (s : State) (m : Mpb) (f : Nat) (upd : Bool) : Except MDecision (Noise × Nat × List Req) :=
  if !m.sren || m.srmode > 2 then .ok ({ use := false, vals := [] }, 0, [])
  else
    let use := srReaches f upd
    let n := logBytes m / 2
    let drawn := (List.range n).map (fun j => (Config.freeWord (s.sys.free + j)).toNat % 65536)
    let err := fun (c : Cause) (a : Nat) => (.error (.trap c i.e.mask (BitVec.ofNat 64 a)) : Except MDecision (Noise × Nat × List Req))
    if m.srmode = 0 then .ok ({ use := use, vals := drawn }, n, [])
    else
      match i.runFail s.sys (if m.srmode = 1 then .store else .load) m.srlog (logBytes m) 2 with
      | some (c, a) => err c a
      | none =>
        if m.srmode = 1 then
          let row := n / 32
          .ok ({ use := use, vals := drawn }, n, (List.range 32).flatMap (fun r =>
            i.storeRun s.sys r (m.srlog + 2 * row * r) (((drawn.drop (row * r)).take row).flatMap (bytesOf 2)) 0))
        else if !i.runQuiet s.sys m.srlog (logBytes m) then .error .hold
        else
          match i.readRun s m.srlog (logBytes m) with
          | .error (c, a) => err c a
          | .ok b => .ok ({ use := use, vals := (List.range n).map (fun j => field b (2 * j) 2) }, 0,
              (List.range 32).flatMap (fun r => i.loadRun s.sys r (m.srlog + 2 * (n / 32) * r) (2 * (n / 32))))

/-- The tiles of a drain or load: a pair under CPLX, whose field names the even one (R364). -/
def Mpb.tiles (m : Mpb) (tile : Nat) : List Nat := if m.cplx && tile % 2 == 0 then [tile, tile + 1] else [tile]

/-- The registers of a lane that ADRAIN.R writes (R362). -/
def drainRegs (f : Nat) (cplx : Bool) : Nat :=
  if cplx then (if f = 0 then 64 else 32)
  else if f = 0 || f = 6 then 32 else if f = 1 || f = 2 then 16 else if f = 5 then 8 else if f = 3 then 9 else 5

/-- ADRAIN.R (R362). With CPLX it writes more registers than its word shows: these are checked when the parameter block has been read. -/
def execAdrainR (o : FormDrainR) : State → Host.Outcome State Fault Refusal :=
  let f := o.f.toNat
  let a := o.a.toNat
  let tile := o.d.toNat
  matrixWord (fun _ => { g := o.g, s := o.s, dst := regRange a (drainRegs f false), mem := true, bad := f = 7 || a % 8 != 0 }) (fun i s =>
    match i.readMpb s with
    | .error e => e
    | .ok m =>
      let ts := m.tiles tile
      if i.tileLost s.sys ts then .trap .limit i.e.mask 0
      else if drainBad m tile f false i.det then .trap .illegal i.e.mask 0
      else
        let ds : Desc := { g := o.g, s := o.s, agents := .groupOnly, dst := regRange a (drainRegs f m.cplx), mem := true }
        match i.check s.sys { ds with hz := some (i.hazard ds i.e.mask) }, i.noise s m f false with
        | .hold, _ => .hold
        | .trap c l x, _ => .trap c l x
        | .go, .error e => e
        | .go, .ok (n, frees, reqs) =>
          if s.sys.tileBusy i.core ts then .hold
          else if s.sys.tileHurt i.core ts then .trap .ecc i.e.mask 0
          else
            let row := fun (l : Nat) => let r := drainRow s.sys i.core tile l m f n none; r.1 ++ r.2
            let ws := (lanesOf i.g.lanes).flatMap (fun l =>
              let b := row l
              (List.range (drainRegs f m.cplx)).map (fun j => (l, a + j, BitVec.ofNat 64 (field b (4 * j) 4))))
            .go { writes := { v := ws }, reqs := reqs, frees := frees } (i.own ts) true)

/-- The scale plane of an image at a heap pointer (R248, R363): the entry of the format with GEOM 1 that holds it at a block start. -/
def AddrCtx.planeOf (c : AddrCtx) (p f : Nat) : Option Nat :=
  if spaceOf p != 0 then none
  else
    let size := if f = 3 then 32 else 16
    match c.heap.fmtAt (offsetOf p) with
    | some e =>
      if e.fmt.toNat = drainFmt f && e.geom = 1 && (offsetOf p - e.start.toNat) % size = 0 && offsetOf p + 32 * size ≤ e.stop.toNat then
        some (e.aux.toNat + 2 * ((offsetOf p - e.start.toNat) / size))
      else none
    | none => none

/-- The image overlaps a differentiable region (R222). -/
def AddrCtx.diffRun (c : AddrCtx) (p n : Nat) : Bool :=
  spaceOf p == 0 && c.heap.formats.any (fun e => e.2.used && e.2.d && decide (e.2.start.toNat < offsetOf p + n) &&
    decide (offsetOf p < e.2.stop.toNat))

/-- Some group of the launch has bytes on its tape (R222). -/
def Sys.taped (y : Sys) (launch : Nat) : Bool := y.groups.any (fun g => g.launch == launch && g.regs.tapep != 0)

/-- The values of a row that an update drain reads. -/
def oldRow (f : Nat) (b e : List Byte) : List FVal :=
  if f = 3 then b.map (fun x => txbDecode txb8 (field e 0 1) (field e 1 1) x.toNat)
  else if f = 4 then (List.range 32).map (fun j => txbDecode txb4 (field e 0 1) (field e 1 1) (field b (j / 2) 1 / 16 ^ (j % 2) % 16))
  else
    let n := fmtBytes (drainFmt f)
    (List.range (b.length / n)).map (fun j => elemValue (drainFmt f) (field b (n * j) n))

/-- The rows of a drained image; `old` gives the bytes and exponents that an update drain has read. -/
def drainRows (y : Sys) (core tile : Nat) (m : Mpb) (f : Nat) (n : Noise) (old : Option (List Byte × List Byte)) :
    List (List Byte × List Byte) :=
  let size := rowBytes m f
  (List.range 32).map (fun r =>
    drainRow y core tile r m f n (old.map (fun o => oldRow f (slice o.1 (r * size) size) (slice o.2 (2 * r) 2))))

/-- The stores of a drained image: row r at DRAINP plus r rows, and its exponents in the scale plane. -/
def Iss.drainStores (i : Iss) (y : Sys) (c : AddrCtx) (m : Mpb) (f : Nat) (rows : List (List Byte × List Byte)) (mark : BitVec 2) :
    List Req :=
  let plane := if f = 3 || f = 4 then c.planeOf m.drainp f else none
  (rows.mapIdx (fun r row =>
    i.storeRun y r (m.drainp + r * rowBytes m f) row.1 mark ++
    (match plane with
      | some e => i.storeRun y r (e + 2 * r) row.2 mark
      | none => []))).flatMap id

/-- The loads of an image that an update drain reads: row r as loads of lane r, with its exponents in the scale plane. -/
def Iss.drainLoads (i : Iss) (y : Sys) (c : AddrCtx) (m : Mpb) (f : Nat) : List Req :=
  let plane := if f = 3 || f = 4 then c.planeOf m.drainp f else none
  (List.range 32).flatMap (fun r =>
    i.loadRun y r (m.drainp + r * rowBytes m f) (rowBytes m f) ++
    (match plane with
      | some e => i.loadRun y r (e + 2 * r) 2
      | none => []))

/-- ADRAIN.M and ADRAIN.U (R363). -/
def drainWord (o : FormDrain) (upd : Bool) : State → Host.Outcome State Fault Refusal :=
  let f := o.f.toNat
  let tile := o.d.toNat
  matrixWord (fun _ => { g := o.g, s := o.s, mem := true, bad := f = 7 || (upd && (f = 5 || f = 6)) }) (fun i s =>
    match i.readMpb s with
    | .error e => e
    | .ok m =>
      let ts := m.tiles tile
      let c := i.ctx s.sys
      let size := rowBytes m f
      let p := m.drainp
      let txb := f = 3 || f = 4
      if i.tileLost s.sys ts then .trap .limit i.e.mask 0
      else if drainBad m tile f upd i.det then .trap .illegal i.e.mask 0
      else if txb && (c.planeOf p f).isNone then .trap .space i.e.mask (BitVec.ofNat 64 p)
      else
        match i.runFail s.sys .store p (32 * size) (if txb then 1 else fmtBytes (drainFmt f)) with
        | some (x, a) => .trap x i.e.mask (BitVec.ofNat 64 a)
        | none =>
          match i.noise s m f upd with
          | .error e => e
          | .ok (n, frees, log) =>
            let diff := upd && c.diffRun p (32 * size)
            if diff && s.sys.taped i.g.launch then .trap .adconf i.e.mask (BitVec.ofNat 64 p)
            else if s.sys.tileBusy i.core ts then .hold
            else if s.sys.tileHurt i.core ts then .trap .ecc i.e.mask 0
            else if upd && !(i.runQuiet s.sys p (32 * size) && (match c.planeOf p f with
                | some e => i.runQuiet s.sys e 64 | none => true)) then .hold
            else
              let rd := if upd then i.readRun s p (32 * size) else .ok []
              let rx := match upd && txb, c.planeOf p f with
                | true, some e => i.readRun s e 64
                | _, _ => .ok []
              match rd, rx with
              | .error (x, a), _ => .trap x i.e.mask (BitVec.ofNat 64 a)
              | _, .error (x, a) => .trap x i.e.mask (BitVec.ofNat 64 a)
              | .ok b, .ok ex =>
                let rows := drainRows s.sys i.core tile m f n (if upd then some (b, ex) else none)
                .go { reqs := log ++ (if upd then i.drainLoads s.sys c m f else []) ++ i.drainStores s.sys c m f rows (if diff then 3 else 0)
                      frees := frees } (i.own ts) true)

/-- ADRAIN.M (R363). -/
def execAdrainM (o : FormDrain) := drainWord o false
/-- ADRAIN.U (R363). -/
def execAdrainU (o : FormDrain) := drainWord o true

/-! ### AZERO and ALOAD (R364) -/

/-- A word that sets a tile at issue. -/
def tileWordInstr (d : Iss → Desc) (tile : Nat) (ws : Iss → List (Nat × Word)) : State → Host.Outcome State Fault Refusal :=
  matrixWord d (fun i s =>
    if i.tileLost s.sys [tile] then .trap .limit i.e.mask 0
    else if s.sys.tileBusy i.core [tile] || s.sys.tileStalls i.core tile then .hold
    else .go {} (fun y => i.own [tile] (writeTile { s with sys := y } i.core tile (ws i))) true)

/-- AZERO (R364). -/
def execAzero (o : FormDG) : State → Host.Outcome State Fault Refusal :=
  tileWordInstr (fun _ => { g := o.g, s := o.s }) o.d.toNat (fun _ => (List.range 1024).map (fun w => (w, 0)))

/-- ALOAD.R (R364). -/
def execAloadR (o : FormTF) : State → Host.Outcome State Fault Refusal :=
  let a := o.a.toNat
  tileWordInstr (fun _ => { g := o.g, s := o.s, src := regRange a 32, bad := a % 32 != 0 }) o.d.toNat (fun i =>
    allLanes.flatMap (fun l => (List.range 32).map (fun c =>
      (32 * l + c, if i.g.lanes.getLsbD l then sget i.g.regs.v (l * 128 + a + c) else 0))))

/-- The loads of a tile's rows by their lanes. -/
def Iss.tileLoads (i : Iss) (y : Sys) (p size id : Nat) : List Req :=
  (List.range 32).flatMap (fun r =>
    (linePieces (p + r * size) 4 0 size).filterMap (fun x => (i.target y (p + r * size + x.1) x.2).map (fun t =>
      ({ lane := r, lanes := laneBit r, wait := 0, op := .load x.2, ptr := p + r * size + x.1, target := t.1, key := t.2
         dest := .tile id (r * size + x.1), mod := 2 } : Req))))

/-- ALOAD.M (R364): row r is read as a load of lane r; the tile changes once all the data has arrived. -/
def execAloadM (o : FormDG) : State → Host.Outcome State Fault Refusal :=
  let tile := o.d.toNat
  matrixWord (fun _ => { g := o.g, s := o.s, mem := true }) (fun i s =>
    match i.readMpb s with
    | .error e => e
    | .ok m =>
      let ts := m.tiles tile
      let size := if m.cplx then 256 else 128
      let p := m.drainp
      if i.tileLost s.sys ts then .trap .limit i.e.mask 0
      else if m.rsvd || (m.cplx && tile % 2 == 1) then .trap .illegal i.e.mask 0
      else
        match i.runFail s.sys .load p (32 * size) 4 with
        | some (x, a) => .trap x i.e.mask (BitVec.ofNat 64 a)
        | none =>
          if s.sys.tileBusy i.core ts then .hold
          else
            let id := s.sys.nextId
            .go { reqs := i.tileLoads s.sys p size id } (fun y => { i.own ts y with
              nextId := y.nextId + 1
              tileOps := y.tileOps ++ [{ id := id, core := i.core, tile := tile, group := i.g.handle, block := i.g.owner
                                         seq := i.g.nextSeq, rows := [], complex := m.cplx }] }) true)

/-- ALOAD_M_DATA (R364): all bytes of an ALOAD.M have arrived, and its tiles take them. -/
def execAloadMData : State → Host.Outcome State Fault Refusal :=
  eventNext (fun s => match s.sys.ev with
    | some (.aloadMData id) =>
      (match s.sys.tileOps.find? (fun t => t.id == id) with
        | none => Eff.none s
        | some t =>
          let total := t.rows.foldl (fun n r => n + r.2.length) 0
          if total != (if t.complex then 8192 else 4096) || s.sys.tileStalls t.core t.tile then Eff.none s
          else
            let ws := t.rows.flatMap (fun r => (List.range (r.2.length / 4)).map (fun j => (r.1 / 4 + j, BitVec.ofNat 32 (field r.2 (4 * j) 4))))
            let y := if t.complex then
                writeTile { s with sys := writeTile s t.core t.tile ((ws.filter (fun w => w.1 % 2 == 0)).map (fun w => (w.1 / 2, w.2))) }
                  t.core (t.tile + 1) ((ws.filter (fun w => w.1 % 2 == 1)).map (fun w => (w.1 / 2, w.2)))
              else writeTile s t.core t.tile ws
            { sys := ({ y with tileOps := y.tileOps.filter (fun x => x.id != id) } : Sys).releaseOwner t.block })
    | _ => Eff.none s)

end Sys2Proof.Machine
end

