-- ==== Sys2Proof/Machine/Ticks.lean ====
section
/-!
DEFINITION. Ticks of deterministic jobs (R47): the release of a tick's packets, TICKENDs, and the application of received packets in
(SLOG, DSEQ) order.
-/
namespace Sys2Proof.Machine

/-- How many packets of a tick a member counts, as far as its TICKENDs say: none while that is not known. Before a member's first
TICKEND and from its final one on it counts none. -/
def TickState.need (t : TickState) (n s : Nat) : Option Nat :=
  let es := t.ends.filter (fun e => e.1 == s)
  match es.find? (fun e => e.2.1 == n && e.2.2 != finalCount) with
  | some e => some e.2.2
  | none =>
    if es.isEmpty then none
    else if es.any (fun e => e.2.2 == finalCount && decide (e.2.1 ≤ n)) || es.all (fun e => decide (n < e.2.1)) then some 0
    else none

/-- The first DSEQ of a member in a tick. -/
def TickState.base (t : TickState) (n s : Nat) : Nat :=
  (t.ends.filter (fun e => e.1 == s && decide (e.2.1 < n) && e.2.2 != finalCount)).foldl (fun m e => m + e.2.2) 0

/-- A member's packets of a tick, in DSEQ order. -/
def TickState.of (t : TickState) (n s : Nat) : List Packet :=
  (List.range ((t.need n s).getD 0)).filterMap (fun i =>
    (t.received.find? (fun r => r.1 == s && r.2.dseq == BitVec.ofNat 32 (t.base n s + i))).map Prod.snd)

/-- The next tick to apply: none before the first TICKEND. -/
def TickState.next (t : TickState) : Option Nat :=
  (t.ends.foldl (fun (m : Option Nat) e => match m with | some a => some (min a e.2.1) | none => some e.2.1) none).map
    (fun a => max a t.applied)

/-- The tick's packets are all held. -/
def TickState.ready (t : TickState) (n : Nat) : Bool :=
  t.members.all (fun s => match t.need n s with | some k => (t.of n s).length == k | none => false)

/-- The tick's packets in (SLOG, DSEQ) order. -/
def TickState.packets (t : TickState) (n : Nat) : List Packet :=
  ((List.range 4096).filter (fun s => t.members.contains s)).flatMap (fun s => t.of n s)

/-- What a buffered packet does when its tick is applied; none while it must wait at its home. -/
def applyPacket (s : State) (part : Nat) (p : Packet) : Option Eff :=
  if p.typ = tRdreq then some (serveRdreq s part p)
  else if p.typ = tWrreq then serveWrreq s part p
  else if p.typ = tAtreq then serveAtreq s part p
  else if p.typ = tContrib then serveContrib s part p
  else if p.typ = tRdrsp then some { sys := s.sys.rdrsp s.gtime part p }
  else if p.typ = tWrack then some { sys := s.sys.wrack s.gtime part p }
  else if p.typ = tAtrsp then some { sys := s.sys.atrsp s.gtime part p }
  else if p.typ = tErrrsp then some { sys := s.sys.errrsp s.gtime part p }
  else some (Eff.none s)

/-- Packets applied in order up to the first that must wait: the effect, how many, and whether all. -/
def applyRun (part : Nat) : State → List Packet → Eff × Nat × Bool
  | s, [] => (Eff.none s, 0, true)
  | s, p :: r =>
    match applyPacket s part p with
    | none => (Eff.none s, 0, false)
    | some e =>
      let x := applyRun part (e.apply s) r
      ({ sys := x.1.sys, cells := e.cells ++ x.1.cells }, x.2.1 + 1, x.2.2)

/-- TICK_APPLY: ticks whose packets are all held are applied in turn; `fuel` bounds them. -/
def tickApply (u : Nat) : Nat → State → Eff
  | 0, s => Eff.none s
  | fuel + 1, s =>
    match s.sys.launch? u with
    | none => Eff.none s
    | some l =>
      match l.ticks.next with
      | none => Eff.none s
      | some n =>
        if !l.ticks.ready n || l.ticks.ends.all (fun e => decide (e.2.1 < n)) then Eff.none s
        else
          let ps := l.ticks.packets n
          let x := applyRun l.part s (ps.drop l.ticks.partway)
          let e : Eff := { x.1 with sys := x.1.sys.modLaunch u (fun k => { k with ticks :=
            if x.2.2 then { k.ticks with applied := n + 1, partway := 0, received := k.ticks.received.filter (fun r => !ps.contains r.2) }
            else { k.ticks with partway := k.ticks.partway + x.2.1 } }) }
          if x.2.2 then e.andThen s (fun t => tickApply u fuel t) else e

/-- The ticks of a job are over: its launch here is finished, and every member has sent its final TICKEND. -/
def Launch.jobOver (l : Launch) : Bool :=
  l.finished && l.ticks.finalSent && l.ticks.received.isEmpty &&
  l.ticks.members.all (fun s => l.ticks.ends.any (fun e => e.1 == s && e.2.2 == finalCount))

/-- What can be applied is applied, and a job that is over is forgotten. -/
def tickSettle (s : State) (u : Nat) : Eff :=
  let e := tickApply u ((match s.sys.launch? u with | some l => l.ticks.ends.length | none => 0) + 1) s
  { e with sys := { e.sys with launches := e.sys.launches.filter (fun l => !(l.uid == u && l.jobOver)) } }

/-- A member's TICKEND as its receiver keeps it; one for a tick held or applied is discarded. -/
def TickState.note (t : TickState) (s n c : Nat) : TickState :=
  if t.ends.any (fun e => e.1 == s && e.2.1 == n && (e.2.2 == finalCount) == (c == finalCount)) then t
  else { t with ends := t.ends ++ [(s, n, c)] }

/-- A TICKEND goes to a member. -/
def Sys.sendTickend (y : Sys) (l : Launch) (n c chip : Nat) : Sys :=
  let q := y.part l.part
  let y1 := y.modLaunch l.uid (fun k => { k with ticks := { k.ticks with
    sentEnds := (k.ticks.sentEnds.filter (fun e => decide (n < e.2.1 + 64))) ++ [(chip, n, c)] } })
  if !q.joined then y1.modLaunch l.uid (fun k => { k with ticks := k.ticks.note chip n c })
  else
    let r := y1.remapOf q.dom.toNat chip
    (y1.emit l.part { blankPacket with
      typ := tTickend, dlog := BitVec.ofNat 12 chip, dphys := r.phys, gen := r.gen, len := 1
      payload := [BitVec.ofNat 128 (n % 2 ^ 64 + c % 2 ^ 32 * 2 ^ 64 + l.record.launchId.toNat * 2 ^ 96)] }).2.2

/-- TICK_RELEASE (R47): the packets of the tick that has ended leave in DSEQ order, then a TICKEND to every member, and the final one
when the launch has finished. -/
def tickRelease (s : State) (u : Nat) : Eff :=
  match s.sys.launch? u with
  | none => Eff.none s
  | some l =>
    let n := l.ticks.released
    if !l.record.det || !l.ticks.started || l.ticks.finalSent || !(decide (n < s.sys.tickOf s.gtime)) then Eff.none s
    else
      let ps := (l.ticks.held.filter (fun h => decide (h.1 ≤ n))).map Prod.snd
      let y0 := s.sys.modLaunch u (fun k => { k with ticks := { k.ticks with
        held := k.ticks.held.filter (fun h => !decide (h.1 ≤ n)), released := n + 1 } })
      let y1 := ps.foldl (fun z p => z.release l.part u p) y0
      let count := fun (c : Nat) => (ps.filter (fun p => p.dlog.toNat == c)).length
      let y2 := l.ticks.members.foldl (fun z c => z.sendTickend l n (count c) c) y1
      let last := l.finished && (match y2.launch? u with | some k => k.ticks.held.isEmpty | none => true)
      let y3 := if last then
          (l.ticks.members.foldl (fun z c => z.sendTickend l (n + 1) finalCount c) y2).modLaunch u
            (fun k => { k with ticks := { k.ticks with finalSent := true } })
        else y2
      Eff.andThen { sys := y3 } s (fun t => tickSettle t u)

/-- TICK_RELEASE (R47). -/
def execTickRelease : State → Host.Outcome State Fault Refusal :=
  eventNext (fun s => match s.sys.ev with
    | some (.tickRelease u) => tickRelease s u
    | _ => Eff.none s)

/-- TICKEND (R47): kept for the job that its LAUNCHID names; it waits while no launch of the job has started here. -/
def execTickend : State → Host.Outcome State Fault Refusal :=
  eventNext (fun s => match s.sys.ev with
    | some (.tickend p) => arrive s p tTickend (fun t part =>
        let u := (p.payload.headD 0).toNat
        (t.sys.launches.find? (fun l => l.part == part && l.record.det && l.ticks.started &&
          l.record.launchId.toNat == bits u 127 96)).map (fun l =>
            let note := fun (k : Launch) => { k with ticks := k.ticks.note p.slog.toNat (bits u 63 0) (bits u 95 64) }
            Eff.andThen { sys := t.sys.modLaunch l.uid note } t (fun w => tickSettle w l.uid)))
    | _ => Eff.none s)

end Sys2Proof.Machine
end

