-- ==== Sys2Proof/Machine/Restore.lean ====
section
/-!
DEFINITION. RESTORE (R209): the records of a snapshot read back into empty partitions. Cores, addresses, VFs and numbers of the source
become those of the target; groups stand parked, and the logs of the channels are delivered.
-/
namespace Sys2Proof.Machine

/-! ### What a sink holds -/

/-- A record as it reads back. From a range of memory it has the body that the memory holds; one whose header has changed, or whose context has,
is no record of the snapshot. What an NVMe device holds is what was written to it. -/
def SunkRec.readBack (m : List Host.Cell) (r : SunkRec) : Option SunkRec :=
  if r.sink.kind != 1 then some r
  else
    r.place.bind (fun f =>
      let body := readBytes m (f + 64) r.body.body.length
      let data := r.body.image == .bytes || (match r.body.image with | .page _ => true | _ => false)
      if readBytes m f 64 == r.header && (data || body == r.body.body) then some { r with body := { r.body with body := body } } else none)

/-- The records of a logical chip that a target's sinks hold of a snapshot. -/
def recordsOf (s : State) (no : Word) (t : RestoreTarget) : List SunkRec :=
  let q := s.sys.part t.part.toNat
  (s.sys.sunk.filter (fun r => r.snapno == no && r.lchip == t.lchip &&
    (List.range 8).any (fun i => t.sinks.getLsbD i && tget q.sinks i {} == r.sink))).filterMap (SunkRec.readBack s.mem)

/-- There is an end record, not aborted, that counts the records before it (R209 step 1). -/
def endsWell (rs : List SunkRec) : Bool :=
  rs.any (fun r => r.body.rkind == 7 && !r.aborted && numOf r.body.body == (rs.filter (fun x => x.body.rkind != 7)).length) &&
  !rs.any (fun r => r.aborted)

/-- The fabric context among some records. -/
def fabricOf (rs : List SunkRec) : Option FabricImage :=
  rs.findSome? (fun r => match r.body.image with | .fabric f => some f | _ => none)

/-! ### From the source to the target -/

/-- How the source's places and numbers become the target's: dies, partition, VFs, and what is added to every number. -/
structure Move where
  src : Part
  dst : Part
  part : Nat
  vfs : List (Nat × Nat)
  k : Nat
deriving DecidableEq, Repr

def Move.num (m : Move) (n : Nat) : Nat := n + m.k
def Move.vf (m : Move) (v : Nat) : Nat := tget m.vfs v v

/-- The core of the same cluster rank and place (R209 step 3). -/
def Move.core (m : Move) (c : Nat) : Nat :=
  match m.src.dieList.findIdx? (fun d => d == coreDie c) with
  | some i => (match m.dst.dieList[i]? with | some d => d * 64 + c % 64 | none => c)
  | none => c

/-- The byte of the same partition memory address, or of the same place of a slice. -/
def Move.flat (m : Move) (f : Nat) : Nat :=
  if isHbm f then (m.dst.flat (m.src.unflat f)).getD f
  else if isSram f then flatSram (m.core (sramCore f)) (sramOfs f)
  else f

/-- A number that counts a core's tiles, by tile. -/
def Move.tile (m : Move) (t : Nat) : Nat := m.core (t / 128) * 128 + t % 128

def Move.who (m : Move) (w : Agent) : Agent :=
  match w with
  | .group h => .group (m.num h)
  | .engine h => .engine (m.num h)
  | .cp c => .cp (m.core c)
  | .port p => .port p

def Move.access (m : Move) (a : Access) : Access :=
  { a with
    id := m.num a.id, who := m.who a.who, part := m.part, vf := m.vf a.vf, launch := m.num a.launch, core := m.core a.core
    op := (match a.op with | .tape t l => .tape t (m.num l) | o => o)
    target := (match a.target with | .home f => .home (m.flat f) | t => t)
    dest := (match a.dest with | .tile i o => .tile (m.num i) o | d => d) }

def Move.entry (m : Move) (keep : Bool) (e : Entry) : Entry :=
  match e.st with
  | .barrier f w r s n k c => { e with st := .barrier (m.flat f) w r s n k c }
  | .trapped t => { e with st := .trapped { t with queued := keep && t.queued, taken := keep && t.taken } }
  | _ => e

/-- A trap that a service request answers stays taken; every other trap joins the queue again (R197). -/
def Move.group (m : Move) (g : Group) (svc : List SvcOutstanding) (age : Nat) : Group :=
  let keep := fun (e : Entry) => svc.any (fun x => x.mask &&& e.mask != 0)
  { g with
    handle := m.num g.handle, launch := m.num g.launch, core := m.core g.core, block := g.block.map m.num, age := age, preempt := false
    offCore := some (g.offCore.getD (16 + g.slot))
    frontier := g.frontier.map (fun e => m.entry (keep e) { e with pc := e.hints.boundary e.pc, hints := {} })
    mmaj := g.mmaj.map (fun j => { j with barAddr := m.flat j.barAddr }) }

def Move.launch (m : Move) (l : Launch) : Launch :=
  { l with
    uid := m.num l.uid, part := m.part, vf := m.vf l.vf, waitParent := l.waitParent.map m.num, hostCmd := none
    own := l.own.map (fun o => { o with line := m.flat (o.line * 128) / 128 }) }

def Move.block (m : Move) (b : Block) : Block := { b with uid := m.num b.uid, launch := m.num b.launch, core := m.core b.core }

def Move.wait (m : Move) (w : StoreWait) : StoreWait :=
  { w with part := m.part, vf := m.vf w.vf, group := m.num w.group, parent := w.parent.map m.num }

/-- A command goes on with what it has not counted. -/
def Move.cmd (m : Move) (c : Cmd) : Cmd :=
  { c with
    handle := m.num c.handle, core := m.core c.core, part := m.part, vf := m.vf c.vf, bar := c.bar.map m.flat, resume := none
    sgElem := none }

/-- An MLOOP goes on from the step that it has reached (R198). -/
def Move.loop (m : Move) (x : Mloop) : Mloop :=
  { x with
    id := m.num x.id, group := m.num x.group, launch := m.num x.launch, block := m.num x.block, core := m.core x.core
    aSteps := x.aSteps.map (List.map m.flat), bSteps := x.bSteps.map (List.map m.flat), bar := x.bar.map m.flat }

def Move.contrib (m : Move) (c : ContribEntry) : ContribEntry :=
  { c with line := m.flat (c.line * 128) / 128, declared := c.declared.map (fun d => (d.1, m.flat d.2)) }

/-! ### Granules -/

/-- The bytes that a record loads: a heap page at its place in the VF's window, or a bank of a slice. -/
def Move.load (m : Move) (y : Sys) (r : StreamRec) : List (Nat × List Byte) :=
  match r.image with
  | .page v =>
    let h := (y.vf (m.vf v)).heap
    (List.range 16).filterMap (fun j =>
      let o := r.ident.toNat + 4096 * j
      if h.inside o 4096 then (m.dst.flat (h.at o)).map (fun f => (f, slice r.body (4096 * j) 4096)) else none)
  | .bytes =>
    let n := r.ident.toNat
    if r.rkind = 2 && !bit n 8 && n % 256 < 224 then
      match m.dst.cluster (bits n 19 12) with
      | some cl => [(flatSram (clusterCore cl (bits n 11 10)) (n % 256 * 16384), r.body)]
      | none => []
    else []
  | _ => []

/-- The tile words that a record loads. -/
def Move.tiles (m : Move) (r : StreamRec) : List (Nat × Word) :=
  let n := r.ident.toNat
  if r.image == .bytes && r.rkind = 2 && bit n 8 then
    match m.dst.cluster (bits n 19 12) with
    | some cl => (List.range 4096).map (fun j =>
        (tileKey (clusterCore cl (bits n 11 10)) (n % 256 * 16384 + 4 * j), BitVec.ofNat 32 (field r.body (4 * j) 4)))
    | none => []
  else []

/-- The granules of a target are loaded: the key of a page is that of its region. -/
def loadGranules (s : State) (m : Move) (rs : List SunkRec) : Eff :=
  let ws := rs.flatMap (fun r => m.load s.sys r.body)
  let e := putAll s ws
  let y : Sys := { e.sys with tiles := ssets e.sys.tiles (rs.flatMap (fun r => m.tiles r.body)) }
  { e with sys := rs.foldl (fun z r =>
      match r.body.image with
      | .page v =>
        (match heapFlat m.dst (z.vf (m.vf v)).heap r.body.ident.toNat 4096 with
          | some (f, k) => z.claim f k
          | none => z)
      | _ => z) y }

/-! ### Contexts -/

/-- The results of a group's register MMAs enter the image, and an MMAJ that has not joined is issued again (R197). -/
def Sys.endMatrix (y : Sys) (h : Nat) : Sys :=
  (y.modGroup h (fun g =>
    { (g.mmas.foldl (fun (x : Group) q => x.deliver q.seq (vWrites (q.writes.filter (fun w => x.lanes.getLsbD (w.1 / 128))))) g) with
      mmas := [] })).withdrawMmaj h

/-- A service request is posted again with a new SEQ (R197, R386). -/
def Sys.repost (y : Sys) (g : Group) (x : SvcOutstanding) : Sys :=
  match y.launch? g.launch with
  | none => y
  | some l =>
    let seq := (y.vf l.vf).svcseq
    let post : SvcPost :=
    { vf := l.vf, core := g.core, seq := seq, launchId := l.record.launchId, code := x.code, handle := g.handle, mask := x.mask
      args := (lanesOf x.mask).map (fun i => (i, (regRange x.base 6).map (fun r => sget g.regs.v (i * 128 + r)))) }
    ((y.modPart l.part (fun p => { p with svcq := p.svcq ++ [post] })).modVf l.vf (fun v => { v with svcseq := v.svcseq + 1 })).modCp
      g.core (fun c => { c with svc := c.svc ++ [{ x with seq := seq, vf := l.vf, handle := g.handle }] })

/-- A group's context. -/
def Sys.addGroup (y : Sys) (m : Move) (g : Group) (as : List Access) (ts : List TileOp) (sv : List SvcOutstanding) : Sys :=
  let (age, y1) := y.fresh
  let n := m.group g sv age
  let y2 : Sys := { y1 with
    groups := y1.groups ++ [n]
    accesses := y1.accesses ++ as.map m.access
    tileOps := y1.tileOps ++ ts.map (fun t => { t with id := m.num t.id, core := m.core t.core, group := m.num t.group }) }
  sv.foldl (fun z x => z.repost n x) (y2.endMatrix n.handle)

/-- An engine command's context (R198): it performs again what it has not counted, from the source as the snapshot holds it. A ROUTE's messages
are packets, and go on. -/
def Sys.addEngine (y : Sys) (m : Move) (c : Cmd) (as : List Access) : Sys :=
  let rows := match c.kind with | .route => true | .combine => true | _ => false
  let n := { m.cmd c with route := if rows then c.route.rewind as else c.route }
  let y1 : Sys := { y with
    cmds := y.cmds ++ [n]
    accesses := y.accesses ++ (if rows then (as.filter keptAccess).map m.access else []) }
  let y2 := match c.kind with
    | .channel k => if c.cancel then y1 else y1.modCore n.core (fun q =>
        { q with channels := tset q.channels k
                   { isOpen := true, cmd := n.handle, wp := BitVec.ofNat 32 (min (512 * c.chunks.length) (shapeOf c.record).length) } })
    | _ => y1
  y2.pinCmd n.handle

/-- The fabric context (R198): the launches, what is placed, and what else of the partition no other record holds. -/
def Sys.addFabric (y : Sys) (m : Move) (f : FabricImage) : Sys :=
  let dom := (y.part m.part).dom.toNat
  let y1 : Sys := { y with
    launches := y.launches ++ f.launches.map m.launch
    blocks := y.blocks ++ f.blocks.map m.block
    storeWaits := y.storeWaits ++ f.waits.map m.wait
    tombstones := y.tombstones ++ f.tombs.map (fun t => { t with dom := dom })
    contribs := y.contribs ++ f.contribs.map m.contrib
    due := y.due ++ f.due.map (fun d => { d with bar := m.flat d.bar })
    tileOwner := y.tileOwner ++ f.tileOwner.map (fun t => (m.tile t.1, m.num t.2)) }
  let y2 := f.bins.foldl (fun z b => z.modCore (m.core b.1) (fun c =>
    { c with bins := b.2.map (fun x => (x.1, { x.2 with launch := m.num x.2.launch })) })) y1
  y2.modPart m.part (fun q => { q with
    st := .active, cgroups := f.cgroups, held := f.held, colourA := {}, colourB := {}, coordA := {}, coordB := {}, snapReqs := [] })

/-- What one record installs. -/
def Sys.install (y : Sys) (m : Move) (r : SunkRec) : Sys :=
  match r.body.image with
  | .group g as ts sv => y.addGroup m g as ts sv
  | .engine c as => y.addEngine m c as
  | .loop x => { y with mloops := y.mloops ++ [m.loop x] }
  | _ => y

/-! ### Logs (R209 steps 6, 7) -/

/-- A logged packet is delivered to its own chip; one that must wait stands in the queue of received packets. -/
def deliverLogged (part : Nat) (s : State) (p : Packet) : Eff :=
  let later : Eff := { sys := { s.sys with inbox := s.sys.inbox ++ [p] } }
  if p.det then (match s.sys.buffer part p with | some z => { sys := z } | none => later)
  else if p.typ == tColl then (((collCount s part p).orElse (fun _ => collDone s part p))).getD later
  else (applyPacket s part p).getD later

/-- Packets one after another. -/
def deliverAll (part : Nat) : State → List Packet → Eff
  | s, [] => Eff.none s
  | s, p :: r => (deliverLogged part s p).andThen s (fun t => deliverAll part t r)

/-- The logs among some records. -/
def logsOf (rs : List SunkRec) : List Packet :=
  rs.flatMap (fun r => match r.body.image with | .log ps => ps | _ => [])

/-- A restored job sends again every TICKEND of the 64 ticks before. -/
def Sys.resendTicks (y : Sys) (u : Nat) : Sys :=
  match y.launch? u with
  | none => y
  | some l => l.ticks.sentEnds.foldl (fun z e => z.sendTickend l e.2.1 e.2.2 e.1) (y.modLaunch u (fun k => { k with ticks := { k.ticks with sentEnds := [] } }))

/-! ### RESTORE -/

/-- The VFs of a partition by rising number. -/
def Sys.vfOrder (y : Sys) (part : Nat) : List Nat := sortBy id (y.partVfs part)

/-- How a target takes a fabric context. -/
def Sys.moveTo (y : Sys) (part k : Nat) (f : FabricImage) : Move :=
  { src := { (({} : Part)) with dies := f.dies }, dst := y.part part, part := part, k := k
    vfs := (sortBy (fun v => v.1) f.vfs).zipWith (fun a b => (a.1, b)) (y.vfOrder part) }

/-- A target fits: it is valid and empty, has as many dies, and its layout and its VFs' windows equal those recorded. -/
def Sys.fits (y : Sys) (part : Nat) (f : FabricImage) : Bool :=
  let q := y.part part
  q.valid && q.st == .empty && q.dieList.length == ({ (({} : Part)) with dies := f.dies }).dieList.length && q.dsres == f.dsres &&
  ((sortBy (fun v => v.1) f.vfs).map (fun v => v.2) ==
    (y.vfOrder part).map (fun v => ((y.vf v).heap, (y.vf v).dsbase, (y.vf v).dsn, (y.vf v).dsvalid)))

/-- The numbers that some records use. -/
def usedNumbers (rs : List SunkRec) : List Nat :=
  rs.flatMap (fun r => match r.body.image with
    | .group g as _ _ => g.handle :: as.map (fun a => a.id)
    | .engine c as => c.handle :: as.map (fun a => a.id)
    | .loop m => [m.id]
    | .fabric f => f.launches.map (fun l => l.uid) ++ f.blocks.map (fun b => b.uid)
    | _ => [])

/-- The package uses a number. -/
def Sys.usesNumber (y : Sys) (n : Nat) : Bool :=
  y.groups.any (fun g => g.handle == n) || y.cmds.any (fun c => c.handle == n) || y.accesses.any (fun a => a.id == n) ||
  y.launches.any (fun l => l.uid == n) || y.blocks.any (fun b => b.uid == n) || y.mloops.any (fun m => m.id == n)

/-- Steps 2 to 4 for one target. -/
def restoreOne (k : Nat) (s : State) (part : Nat) (rs : List SunkRec) (f : FabricImage) : Eff :=
  let m := s.sys.moveTo part k f
  let e := loadGranules s m rs
  { e with sys := rs.foldl (fun z r => z.install m r) (e.sys.addFabric m f) }

/-- Step 5: the logical chip is now this package, with its generation plus 1 (R40). -/
def Sys.renamed (y : Sys) (part : Nat) (l : BitVec 12) : Sys :=
  let q := y.part part
  if q.joined then
    let e := y.remapOf q.dom.toNat l.toNat
    let y1 := y.modPart part (fun q => { q with moved := false })
    y1.putRemap q.dom.toNat l.toNat { phys := y.phys, valid := true, gen := e.gen + 1 }
  else y

/-- No lease survives a restore (R209): those of the target's lines are gone, and the lines that its cores hold. -/
def Sys.dropLeases (y : Sys) (part : Nat) : Sys :=
  let y1 := (y.part part).cores.foldl (fun z c => z.modCore c (fun k => { k with l1 := [] })) y
  { y1 with leases := y1.leases.filter (fun l => y1.partOfFlat (l.1 * 128) != some part) }

/-- Effects of a list one after another. -/
def eachOf {α : Type} (f : State → α → Eff) : State → List α → Eff
  | s, [] => Eff.none s
  | s, x :: r => (f s x).andThen s (fun t => eachOf f t r)

/-- Steps 2 to 8: every target is loaded before any name changes, and every name before any log is delivered. -/
def restoreAll (s : State) (ts : List (RestoreTarget × List SunkRec × FabricImage)) : Eff :=
  let used := ts.flatMap (fun t => usedNumbers t.2.1)
  let k := if used.any s.sys.usesNumber then s.sys.nextId else 0
  -- numbers drawn later are above all that the records bring
  let s1 : State := { s with sys := { s.sys with nextId := used.foldl (fun m n => max m (n + k + 1)) (s.sys.nextId + k) } }
  let e1 := eachOf (fun (t : State) x => restoreOne k t x.1.part.toNat x.2.1 x.2.2) s1 ts
  let e2 := e1.andThen s1 (fun t => { sys := ts.foldl (fun z x => (z.renamed x.1.part.toNat x.1.lchip).dropLeases x.1.part.toNat) t.sys })
  let e3 := e2.andThen s1 (fun t => eachOf (fun (w : State) x => deliverAll x.1.part.toNat w (logsOf x.2.1)) t ts)
  let us := ts.flatMap (fun t => (t.2.2.launches.filter (fun l => l.record.det)).map (fun l => l.uid + k))
  e3.andThen s1 (fun t => { sys := (us.foldl (fun z u => z.resendTicks u) t.sys).sendAll s.gtime })

/-- What a request asks for, target by target: its records and their fabric context; none when step 1 refuses it. -/
def restorable (s : State) (no : Word) (ts : List RestoreTarget) : Option (List (RestoreTarget × List SunkRec × FabricImage)) :=
  let xs := ts.filterMap (fun t =>
    let rs := recordsOf s no t
    if endsWell rs then (fabricOf rs).map (fun f => (t, rs, f)) else none)
  let named := fun (c : Nat) => ts.any (fun t => t.lchip.toNat == c)
  if xs.length = ts.length && xs.all (fun x => x.2.2.chips.all named) then some xs else none

/-- A list without repetition. -/
def noRepeat (l : List Nat) : Bool :=
  match l with
  | [] => true
  | x :: r => !r.contains x && noRepeat r

/-- RESTORE (R66, R209). The statuses that the spec does not name for it are a choice (DESIGN CHOICE, assumption log 61): BADREQ where it
names a partition of 12 to 15 or none, REFUSED where its targets repeat or do not fit. -/
def execRestore : State → Host.Outcome State Fault Refusal :=
  eventNext (fun s => match s.sys.ev with
    | some (.restore r no ts) =>
      let y := s.sys
      let parts := ts.map (fun t => t.part.toNat)
      if ts.isEmpty || parts.any (fun p => decide (12 ≤ p)) then { sys := y.answerReq r 4 .badreq [] }
      else if !fromLink r && !parts.all (fun p => (y.hostParts r).contains p) then { sys := y.answerReq r 4 .denied [] }
      else
        match restorable s no ts with
        | none => { sys := y.answerReq r 4 .failed [] }
        | some xs =>
          if !noRepeat parts || !noRepeat (ts.map (fun t => t.lchip.toNat)) || !xs.all (fun x => y.fits x.1.part.toNat x.2.2) then
            { sys := y.answerReq r 4 .refused [] }
          else
            let e := restoreAll s xs
            { e with sys := e.sys.answerReq r 4 .ok [] }
    | _ => Eff.none s)

end Sys2Proof.Machine
end

