-- ==== Sys2Proof/Machine/Spdm.lean ====
section
/-!
DEFINITION. SPDM over MCTP (R64): the state of a responder on each transport (0 and 1 the CXL ports, 2 the management link), the order of the
requests, and the answers. The codes and the order are those of the DMTF standard that R64 names (PRESUMED, assumption log 10).
-/
namespace Sys2Proof.Machine

/-- The response codes of the requests that R64 lists. -/
def spdmVersion : Nat := 0x04
def spdmCapabilities : Nat := 0x61
def spdmAlgorithms : Nat := 0x63
def spdmDigests : Nat := 0x01
def spdmCertificate : Nat := 0x02
def spdmChallengeAuth : Nat := 0x03
def spdmMeasurements : Nat := 0x60
def spdmKeyExchangeRsp : Nat := 0x64
def spdmFinishRsp : Nat := 0x65
def spdmEndSessionAck : Nat := 0x6C
def spdmError : Nat := 0x7F

/-- The responder of a transport. -/
def Sys.spdmAt (y : Sys) (n : Nat) : Spdm := tget y.spdm n {}

/-- An answer on a transport. -/
def Sys.spdmSay (y : Sys) (n code status : Nat) (bytes : List Byte) : Sys :=
  { y with answers := y.answers ++ [{ peer := 0x100 + n, code := code, status := status, seq := 0, bytes := bytes }] }

/-- A request on a transport: out of order it is answered with an error; else the responder changes and answers with the bytes that
`body` makes. -/
def spdmReq (y : Sys) (n : Nat) (ready : Spdm → Bool) (f : Spdm → Spdm) (code : Nat) (body : Sys → List Byte × Sys) : Eff :=
  if 3 ≤ n then { sys := y }
  else if ready (y.spdmAt n) then
    let (b, y1) := body { y with spdm := tset y.spdm n (f (y.spdmAt n)) }
    { sys := y1.spdmSay n code 0 b }
  else { sys := y.spdmSay n spdmError 4 [] }

/-- The certificate chain to the Bamotte root (R64): it is the module's, and no request changes it. -/
def certChain : List Byte := (List.range (Config.chainLength % 65536)).map Config.chainByte

/-- The algorithms that the responder selects (R64), as ALGORITHMS lays them out after its four bytes of header (PRESUMED, assumption log 10):
its length, the measurement specification and hash, RSASSA-PSS 4096, SHA-512, and the structures of secp384r1, AES-256-GCM and the
SPDM key schedule. -/
def algorithmsBody : List Byte :=
  bytesOf 2 48 ++ [0x01, 0x00] ++ bytesOf 4 0x08 ++ bytesOf 4 0x40 ++ bytesOf 4 0x04 ++ List.replicate 16 0 ++
    [0x02, 0x20] ++ bytesOf 2 0x10 ++ [0x03, 0x20] ++ bytesOf 2 0x02 ++ [0x05, 0x20] ++ bytesOf 2 0x01

/-- SPDM_GET_VERSION (R64): 1.2 and 1.3. It begins the exchange anew. -/
def execSpdmGetVersion : State → Host.Outcome State Fault Refusal :=
  eventNext (fun s => match s.sys.ev with
    | some (.spdmGetVersion n) =>
      spdmReq s.sys n (fun _ => true) (fun _ => { version := true }) spdmVersion (fun y => ([0x00, 0x12, 0x00, 0x13], y))
    | _ => Eff.none s)

/-- SPDM_GET_CAPABILITIES (R64). -/
def execSpdmGetCapabilities : State → Host.Outcome State Fault Refusal :=
  eventNext (fun s => match s.sys.ev with
    | some (.spdmGetCapabilities n) =>
      spdmReq s.sys n (fun k => k.version) (fun k => { k with capabilities := true }) spdmCapabilities (fun y => freeBytes y 12)
    | _ => Eff.none s)

/-- SPDM_NEGOTIATE_ALGORITHMS (R64): RSASSA-PSS 4096, SHA-512, secp384r1, AES-GCM-256. -/
def execSpdmNegotiateAlgorithms : State → Host.Outcome State Fault Refusal :=
  eventNext (fun s => match s.sys.ev with
    | some (.spdmNegotiateAlgorithms n) =>
      spdmReq s.sys n (fun k => k.capabilities) (fun k => { k with algorithms := true }) spdmAlgorithms (fun y => (algorithmsBody, y))
    | _ => Eff.none s)

/-- SPDM_GET_DIGESTS (R64): the SHA-512 digest of the certificate chain. -/
def execSpdmGetDigests : State → Host.Outcome State Fault Refusal :=
  eventNext (fun s => match s.sys.ev with
    | some (.spdmGetDigests n) => spdmReq s.sys n (fun k => k.algorithms) id spdmDigests (fun y => (sha512 certChain, y))
    | _ => Eff.none s)

/-- SPDM_GET_CERTIFICATE (R64): the certificate chain to the Bamotte root. -/
def execSpdmGetCertificate : State → Host.Outcome State Fault Refusal :=
  eventNext (fun s => match s.sys.ev with
    | some (.spdmGetCertificate n) => spdmReq s.sys n (fun k => k.algorithms) id spdmCertificate (fun y => (certChain, y))
    | _ => Eff.none s)

/-- SPDM_CHALLENGE (R64): a signature of 512 bytes by the identity key. -/
def execSpdmChallenge : State → Host.Outcome State Fault Refusal :=
  eventNext (fun s => match s.sys.ev with
    | some (.spdmChallenge n _) => spdmReq s.sys n (fun k => k.algorithms) id spdmChallengeAuth (fun y => freeBytes y 512)
    | _ => Eff.none s)

/-- The partition table and the VF binding table as currently written: the 12 partition entries and then the 256 binding entries, each
with every field that a read of it gives, the read-only STATE among them. R64 gives the message that is hashed no layout (DESIGN CHOICE,
assumption log 61). -/
def Sys.tablesWritten (y : Sys) : List Byte :=
  (List.range 12).flatMap (fun p => (y.part p).bytes) ++ (List.range 256).flatMap (fun v => (y.vf v).bindBytes)

/-- A measurement block (R64), for a fused counter. The third is the digest of the two tables; the images and fuses that the others measure are
not described, but each is one value for a boot ROM, a firmware version and a fused counter. -/
def measurement (y : Sys) (fuse i : Nat) : List Byte :=
  if i = 3 then sha512 y.tablesWritten
  else (List.range 64).map (Config.measureByte i (if i = 2 then y.fw.version else if i = 4 then fuse else 0))

/-- The measurement blocks that a request names: one, or all with 0xFF; none that do not exist. -/
def measurementsNamed (i : Nat) : List Nat := if i = 0xFF then [1, 2, 3, 4] else if 1 ≤ i && i ≤ 4 then [i] else []

/-- SPDM_GET_MEASUREMENTS (R64): 0 asks how many blocks there are. -/
def execSpdmGetMeasurements : State → Host.Outcome State Fault Refusal :=
  eventNext (fun s => match s.sys.ev with
    | some (.spdmGetMeasurements n i) =>
      if 3 ≤ n then Eff.none s
      else if i != 0 && (measurementsNamed i).isEmpty then { sys := s.sys.spdmSay n spdmError 1 [] }
      else
        spdmReq s.sys n (fun k => k.algorithms) id spdmMeasurements
          (fun y => (if i = 0 then [4] else (measurementsNamed i).flatMap (measurement y s.fuse), y))
    | _ => Eff.none s)

/-- SPDM_KEY_EXCHANGE (R64): the responder's secp384r1 value of 96 bytes and a signature. -/
def execSpdmKeyExchange : State → Host.Outcome State Fault Refusal :=
  eventNext (fun s => match s.sys.ev with
    | some (.spdmKeyExchange n _) =>
      spdmReq s.sys n (fun k => k.algorithms) (fun k => { k with exchanged := true, session := false }) spdmKeyExchangeRsp
        (fun y => freeBytes y 608)
    | _ => Eff.none s)

/-- SPDM_FINISH (R64): the session is up. -/
def execSpdmFinish : State → Host.Outcome State Fault Refusal :=
  eventNext (fun s => match s.sys.ev with
    | some (.spdmFinish n) =>
      spdmReq s.sys n (fun k => k.exchanged) (fun k => { k with exchanged := false, session := true }) spdmFinishRsp (fun y => ([], y))
    | _ => Eff.none s)

/-- SPDM_END_SESSION (R64). -/
def execSpdmEndSession : State → Host.Outcome State Fault Refusal :=
  eventNext (fun s => match s.sys.ev with
    | some (.spdmEndSession n) =>
      spdmReq s.sys n (fun k => k.session) (fun k => { k with session := false }) spdmEndSessionAck (fun y => ([], y))
    | _ => Eff.none s)

end Sys2Proof.Machine
end

