-- ==== Sys2Proof/Machine/Uniform.lean ====
section
/-!
DEFINITION. The uniform instructions that compute on k registers (R306).
-/
namespace Sys2Proof.Machine

/-- A two-operand UNI instruction: k[D] becomes a function of k[D] and k[A]. -/
def uniOp (o : FormTF) (readsD : Bool) (f : Word → Word → Word) : State → Host.Outcome State Fault Refusal :=
  onceWord (fun _ => { g := o.g, s := o.s, kd := [o.d.toNat], ks := [o.a.toNat] ++ (if readsD then [o.d.toNat] else []) })
    (fun i _ => { k := [(o.d.toNat, (f (i.k o.d.toNat) (i.k o.a.toNat)).setWidth 64)] })

/-- KMOV (R306). -/
def execKmov (o : FormTF) := uniOp o false (fun _ a => a)
/-- KADD (R306). -/
def execKadd (o : FormTF) := uniOp o true (fun d a => d + a)
/-- KSUB (R306). -/
def execKsub (o : FormTF) := uniOp o true (fun d a => d - a)
/-- KMUL (R306). -/
def execKmul (o : FormTF) := uniOp o true (fun d a => d * a)
/-- KAND (R306). -/
def execKand (o : FormTF) := uniOp o true (fun d a => d &&& a)
/-- KOR (R306). -/
def execKor (o : FormTF) := uniOp o true (fun d a => d ||| a)
/-- KXOR (R306). -/
def execKxor (o : FormTF) := uniOp o true (fun d a => d ^^^ a)
/-- KSHL (R306): 0 when k[A] is 32 or more. -/
def execKshl (o : FormTF) := uniOp o true (fun d a => if 32 ≤ a.toNat then 0 else d <<< a.toNat)
/-- KSHR (R306): 0 when k[A] is 32 or more. -/
def execKshr (o : FormTF) := uniOp o true (fun d a => if 32 ≤ a.toNat then 0 else d >>> a.toNat)

/-- KMOVV (R306): v[A] of the lowest non-helper lane whose guard holds. -/
def execKmovv (o : FormTF) : State → Host.Outcome State Fault Refusal :=
  onceWord (fun _ => { g := o.g, s := o.s, kd := [o.d.toNat], src := [o.a.toNat], once := true })
    (fun i l => { k := [(o.d.toNat, (i.v l o.a.toNat).setWidth 64)] })

/-- A k register's write of 64 bits: the pair, or one x register on the control processor. -/
def wrK64 (cp : Bool) (r : Nat) (x : DWord) : Writes := if cp then { k := [(r, x)] } else { k := [(r, x), (r + 1, x >>> 32)] }

/-- KADD64 (R306). -/
def execKadd64 (o : FormTF) : State → Host.Outcome State Fault Refusal :=
  onceWord (fun i => { g := o.g, s := o.s, kd := pair i.cp o.d.toNat, ks := pair i.cp o.a.toNat, even := [o.d.toNat, o.a.toNat] })
    (fun i _ => wrK64 i.cp o.d.toNat (i.k64 o.d.toNat + i.k64 o.a.toNat))

/-- KBAL (R306): the mask of the non-helper lanes whose guard and p[A] hold; 1 or 0 on the control processor. -/
def execKbal (o : FormTF) : State → Host.Outcome State Fault Refusal :=
  onceWord (fun _ => { g := o.g, s := o.s, kd := [o.d.toNat], bad := 64 ≤ o.a.toNat })
    (fun i _ => { k := [(o.d.toNat, (i.real (i.act o.g) &&& maskOf (fun l => i.p l o.a.toNat)).setWidth 64)] })

end Sys2Proof.Machine
end

