-- ==== Sys2Proof/Machine/Dispatch.lean ====
section
/-!
DEFINITION. One arm per constructor of `Instr`: the direct call of its meaning, or a refusal by name.
-/
namespace Sys2Proof.Machine

def exec (i : Instr) (s : State) : Host.Outcome State Fault Refusal :=
  match i with
  | .iadd o => Sys2Proof.Machine.execIadd o s
  | .isub o => Sys2Proof.Machine.execIsub o s
  | .imul o => Sys2Proof.Machine.execImul o s
  | .imulhs o => Sys2Proof.Machine.execImulhs o s
  | .imulhz o => Sys2Proof.Machine.execImulhz o s
  | .imins o => Sys2Proof.Machine.execImins o s
  | .imaxs o => Sys2Proof.Machine.execImaxs o s
  | .iminz o => Sys2Proof.Machine.execIminz o s
  | .imaxz o => Sys2Proof.Machine.execImaxz o s
  | .and o => Sys2Proof.Machine.execAnd o s
  | .or o => Sys2Proof.Machine.execOr o s
  | .xor o => Sys2Proof.Machine.execXor o s
  | .shl o => Sys2Proof.Machine.execShl o s
  | .shr o => Sys2Proof.Machine.execShr o s
  | .sar o => Sys2Proof.Machine.execSar o s
  | .imad o => Sys2Proof.Machine.execImad o s
  | .fadd o => Sys2Proof.Machine.execFadd o s
  | .fsub o => Sys2Proof.Machine.execFsub o s
  | .fmul o => Sys2Proof.Machine.execFmul o s
  | .ffma o => Sys2Proof.Machine.execFfma o s
  | .fmin o => Sys2Proof.Machine.execFmin o s
  | .fmax o => Sys2Proof.Machine.execFmax o s
  | .sel o => Sys2Proof.Machine.execSel o s
  | .bmul2 o => Sys2Proof.Machine.execBmul2 o s
  | .bfma2 o => Sys2Proof.Machine.execBfma2 o s
  | .icmpeq o => Sys2Proof.Machine.execIcmpeq o s
  | .icmpne o => Sys2Proof.Machine.execIcmpne o s
  | .icmplt o => Sys2Proof.Machine.execIcmplt o s
  | .icmple o => Sys2Proof.Machine.execIcmple o s
  | .icmpltz o => Sys2Proof.Machine.execIcmpltz o s
  | .iadd64 o => Sys2Proof.Machine.execIadd64 o s
  | .fcmpeq o => Sys2Proof.Machine.execFcmpeq o s
  | .fcmplt o => Sys2Proof.Machine.execFcmplt o s
  | .fcmple o => Sys2Proof.Machine.execFcmple o s
  | .fcmpun o => Sys2Proof.Machine.execFcmpun o s
  | .iaddi o => Sys2Proof.Machine.execIaddi o s
  | .andi o => Sys2Proof.Machine.execAndi o s
  | .ori o => Sys2Proof.Machine.execOri o s
  | .xori o => Sys2Proof.Machine.execXori o s
  | .shfi o => Sys2Proof.Machine.execShfi o s
  | .movi o => Sys2Proof.Machine.execMovi o s
  | .ld8 o => Sys2Proof.Machine.execLd8 o s
  | .ld16 o => Sys2Proof.Machine.execLd16 o s
  | .ld32 o => Sys2Proof.Machine.execLd32 o s
  | .ld64 o => Sys2Proof.Machine.execLd64 o s
  | .ld128 o => Sys2Proof.Machine.execLd128 o s
  | .st8 o => Sys2Proof.Machine.execSt8 o s
  | .st16 o => Sys2Proof.Machine.execSt16 o s
  | .st32 o => Sys2Proof.Machine.execSt32 o s
  | .st64 o => Sys2Proof.Machine.execSt64 o s
  | .st128 o => Sys2Proof.Machine.execSt128 o s
  | .atomAddB32 o => Sys2Proof.Machine.execAtomAddB32 o s
  | .atomAddF32 o => Sys2Proof.Machine.execAtomAddF32 o s
  | .atomAddBf16x2 o => Sys2Proof.Machine.execAtomAddBf16x2 o s
  | .atomMinS32 o => Sys2Proof.Machine.execAtomMinS32 o s
  | .atomMaxS32 o => Sys2Proof.Machine.execAtomMaxS32 o s
  | .atomMinZ32 o => Sys2Proof.Machine.execAtomMinZ32 o s
  | .atomMaxZ32 o => Sys2Proof.Machine.execAtomMaxZ32 o s
  | .atomAnd o => Sys2Proof.Machine.execAtomAnd o s
  | .atomOr o => Sys2Proof.Machine.execAtomOr o s
  | .atomXor o => Sys2Proof.Machine.execAtomXor o s
  | .atomXchg o => Sys2Proof.Machine.execAtomXchg o s
  | .atomCas o => Sys2Proof.Machine.execAtomCas o s
  | .atomIncw o => Sys2Proof.Machine.execAtomIncw o s
  | .atomDecw o => Sys2Proof.Machine.execAtomDecw o s
  | .atomAddB64 o => Sys2Proof.Machine.execAtomAddB64 o s
  | .atomCasB64 o => Sys2Proof.Machine.execAtomCasB64 o s
  | .atomCaddF32 o => Sys2Proof.Machine.execAtomCaddF32 o s
  | .atomCaddBf16x2 o => Sys2Proof.Machine.execAtomCaddBf16x2 o s
  | .atomCdecl o => Sys2Proof.Machine.execAtomCdecl o s
  | .bra o => Sys2Proof.Machine.execBra o s
  | .call o => Sys2Proof.Machine.execCall o s
  | .jmpi o => Sys2Proof.Machine.execJmpi o s
  | .calli o => Sys2Proof.Machine.execCalli o s
  | .ret o => Sys2Proof.Machine.execRet o s
  | .rjoin o => Sys2Proof.Machine.execRjoin o s
  | .jmpk o => Sys2Proof.Machine.execJmpk o s
  | .exit o => Sys2Proof.Machine.execExit o s
  | .nop o => Sys2Proof.Machine.execNop o s
  | .sread o => Sys2Proof.Machine.execSread o s
  | .swrite o => Sys2Proof.Machine.execSwrite o s
  | .qread o => Sys2Proof.Machine.execQread o s
  | .qsub o => Sys2Proof.Machine.execQsub o s
  | .stq o => Sys2Proof.Machine.execStq o s
  | .strap o => Sys2Proof.Machine.execStrap o s
  | .brk o => Sys2Proof.Machine.execBrk o s
  | .grow o => Sys2Proof.Machine.execGrow o s
  | .shrink o => Sys2Proof.Machine.execShrink o s
  | .yield o => Sys2Proof.Machine.execYield o s
  | .spawn o => Sys2Proof.Machine.execSpawn o s
  | .deviceLaunch o => Sys2Proof.Machine.execDeviceLaunch o s
  | .launchw o => Sys2Proof.Machine.execLaunchw o s
  | .admode o => Sys2Proof.Machine.execAdmode o s
  | .cpost o => Sys2Proof.Machine.execCpost o s
  | .fence o => Sys2Proof.Machine.execFence o s
  | .binit o => Sys2Proof.Machine.execBinit o s
  | .bexpect o => Sys2Proof.Machine.execBexpect o s
  | .barrive o => Sys2Proof.Machine.execBarrive o s
  | .bwait o => Sys2Proof.Machine.execBwait o s
  | .btest o => Sys2Proof.Machine.execBtest o s
  | .binval o => Sys2Proof.Machine.execBinval o s
  | .chktest o => Sys2Proof.Machine.execChktest o s
  | .chwp o => Sys2Proof.Machine.execChwp o s
  | .darrive o => Sys2Proof.Machine.execDarrive o s
  | .mov o => Sys2Proof.Machine.execMov o s
  | .not o => Sys2Proof.Machine.execNot o s
  | .neg o => Sys2Proof.Machine.execNeg o s
  | .iabs o => Sys2Proof.Machine.execIabs o s
  | .popc o => Sys2Proof.Machine.execPopc o s
  | .clz o => Sys2Proof.Machine.execClz o s
  | .ctz o => Sys2Proof.Machine.execCtz o s
  | .brev o => Sys2Proof.Machine.execBrev o s
  | .sext8 o => Sys2Proof.Machine.execSext8 o s
  | .sext16 o => Sys2Proof.Machine.execSext16 o s
  | .zext8 o => Sys2Proof.Machine.execZext8 o s
  | .zext16 o => Sys2Proof.Machine.execZext16 o s
  | .movk o => Sys2Proof.Machine.execMovk o s
  | .p2v o => Sys2Proof.Machine.execP2v o s
  | .v2p o => Sys2Proof.Machine.execV2p o s
  | .i2fS o => Sys2Proof.Machine.execI2fS o s
  | .i2fZ o => Sys2Proof.Machine.execI2fZ o s
  | .f2iS o => Sys2Proof.Machine.execF2iS o s
  | .f2iZ o => Sys2Proof.Machine.execF2iZ o s
  | .fneg o => Sys2Proof.Machine.execFneg o s
  | .fabs o => Sys2Proof.Machine.execFabs o s
  | .fsat o => Sys2Proof.Machine.execFsat o s
  | .frnd o => Sys2Proof.Machine.execFrnd o s
  | .fclass o => Sys2Proof.Machine.execFclass o s
  | .frcp o => Sys2Proof.Machine.execFrcp o s
  | .frsq o => Sys2Proof.Machine.execFrsq o s
  | .fsqrt o => Sys2Proof.Machine.execFsqrt o s
  | .fex2 o => Sys2Proof.Machine.execFex2 o s
  | .flg2 o => Sys2Proof.Machine.execFlg2 o s
  | .fsin o => Sys2Proof.Machine.execFsin o s
  | .fcos o => Sys2Proof.Machine.execFcos o s
  | .ftanh o => Sys2Proof.Machine.execFtanh o s
  | .fsigm o => Sys2Proof.Machine.execFsigm o s
  | .f2bf o => Sys2Proof.Machine.execF2bf o s
  | .bf2f o => Sys2Proof.Machine.execBf2f o s
  | .bf2fh o => Sys2Proof.Machine.execBf2fh o s
  | .f2h o => Sys2Proof.Machine.execF2h o s
  | .h2f o => Sys2Proof.Machine.execH2f o s
  | .pkbf2 o => Sys2Proof.Machine.execPkbf2 o s
  | .unpbf2 o => Sys2Proof.Machine.execUnpbf2 o s
  | .txbenc8 o => Sys2Proof.Machine.execTxbenc8 o s
  | .txbdec8 o => Sys2Proof.Machine.execTxbdec8 o s
  | .txbenc4 o => Sys2Proof.Machine.execTxbenc4 o s
  | .txbdec4 o => Sys2Proof.Machine.execTxbdec4 o s
  | .f2i8s o => Sys2Proof.Machine.execF2i8s o s
  | .pred o => Sys2Proof.Machine.execPred o s
  | .qxh o => Sys2Proof.Machine.execQxh o s
  | .qxv o => Sys2Proof.Machine.execQxv o s
  | .qxd o => Sys2Proof.Machine.execQxd o s
  | .qbc0 o => Sys2Proof.Machine.execQbc0 o s
  | .qbc1 o => Sys2Proof.Machine.execQbc1 o s
  | .qbc2 o => Sys2Proof.Machine.execQbc2 o s
  | .qbc3 o => Sys2Proof.Machine.execQbc3 o s
  | .gshf o => Sys2Proof.Machine.execGshf o s
  | .gbal o => Sys2Proof.Machine.execGbal o s
  | .gradd o => Sys2Proof.Machine.execGradd o s
  | .grfadd o => Sys2Proof.Machine.execGrfadd o s
  | .grmin o => Sys2Proof.Machine.execGrmin o s
  | .grmax o => Sys2Proof.Machine.execGrmax o s
  | .gscan o => Sys2Proof.Machine.execGscan o s
  | .gfirst o => Sys2Proof.Machine.execGfirst o s
  | .mma o => Sys2Proof.Machine.execMma o s
  | .mmaj o => Sys2Proof.Machine.execMmaj o s
  | .mloop o => Sys2Proof.Machine.execMloop o s
  | .adrainR o => Sys2Proof.Machine.execAdrainR o s
  | .adrainM o => Sys2Proof.Machine.execAdrainM o s
  | .adrainU o => Sys2Proof.Machine.execAdrainU o s
  | .azero o => Sys2Proof.Machine.execAzero o s
  | .aloadR o => Sys2Proof.Machine.execAloadR o s
  | .aloadM o => Sys2Proof.Machine.execAloadM o s
  | .opfence o => Sys2Proof.Machine.execOpfence o s
  | .copy o => Sys2Proof.Machine.execCopy o s
  | .chopen o => Sys2Proof.Machine.execChopen o s
  | .chclose o => Sys2Proof.Machine.execChclose o s
  | .snap o => Sys2Proof.Machine.execSnap o s
  | .snapst o => Sys2Proof.Machine.execSnapst o s
  | .route o => Sys2Proof.Machine.execRoute o s
  | .combine o => Sys2Proof.Machine.execCombine o s
  | .digest o => Sys2Proof.Machine.execDigest o s
  | .cppop o => Sys2Proof.Machine.execCppop o s
  | .gread o => Sys2Proof.Machine.execGread o s
  | .gwrite o => Sys2Proof.Machine.execGwrite o s
  | .gresume o => Sys2Proof.Machine.execGresume o s
  | .gkill o => Sys2Proof.Machine.execGkill o s
  | .gpark o => Sys2Proof.Machine.execGpark o s
  | .svcpost o => Sys2Proof.Machine.execSvcpost o s
  | .svctake o => Sys2Proof.Machine.execSvctake o s
  | .cpret o => Sys2Proof.Machine.execCpret o s
  | .cmdstat o => Sys2Proof.Machine.execCmdstat o s
  | .cmdcancel o => Sys2Proof.Machine.execCmdcancel o s
  | .kmov o => Sys2Proof.Machine.execKmov o s
  | .kmovv o => Sys2Proof.Machine.execKmovv o s
  | .kadd o => Sys2Proof.Machine.execKadd o s
  | .ksub o => Sys2Proof.Machine.execKsub o s
  | .kmul o => Sys2Proof.Machine.execKmul o s
  | .kand o => Sys2Proof.Machine.execKand o s
  | .kor o => Sys2Proof.Machine.execKor o s
  | .kxor o => Sys2Proof.Machine.execKxor o s
  | .kshl o => Sys2Proof.Machine.execKshl o s
  | .kshr o => Sys2Proof.Machine.execKshr o s
  | .kadd64 o => Sys2Proof.Machine.execKadd64 o s
  | .kld32 o => Sys2Proof.Machine.execKld32 o s
  | .kld64 o => Sys2Proof.Machine.execKld64 o s
  | .kst32 o => Sys2Proof.Machine.execKst32 o s
  | .kbal o => Sys2Proof.Machine.execKbal o s
  | .guard o => Sys2Proof.Machine.execGuard o s
  | .imm o => Sys2Proof.Machine.execImm o s
  | .mod o => Sys2Proof.Machine.execMod o s
  | .delay o => Sys2Proof.Machine.execDelay o s
  | .powerOn => Sys2Proof.Machine.execPowerOn s
  | .resetStepComplete => Sys2Proof.Machine.execResetStepComplete s
  | .inputVoltageFault => Sys2Proof.Machine.execInputVoltageFault s
  | .powerCapWindow => Sys2Proof.Machine.execPowerCapWindow s
  | .coolantFault => Sys2Proof.Machine.execCoolantFault s
  | .junctionThrottle => Sys2Proof.Machine.execJunctionThrottle s
  | .junctionTrip => Sys2Proof.Machine.execJunctionTrip s
  | .controlParityError => Sys2Proof.Machine.execControlParityError s
  | .peolUpdate => Sys2Proof.Machine.execPeolUpdate s
  | .patrolScrub => Sys2Proof.Machine.execPatrolScrub s
  | .timexSend => Sys2Proof.Machine.execTimexSend s
  | .timex => Sys2Proof.Machine.execTimex s
  | .timeWide => Sys2Proof.Machine.execTimeWide s
  | .laneFailure => Sys2Proof.Machine.execLaneFailure s
  | .flitTransmit => Sys2Proof.Machine.execFlitTransmit s
  | .flitReceive => Sys2Proof.Machine.execFlitReceive s
  | .retryRequest => Sys2Proof.Machine.execRetryRequest s
  | .flitCounterLimit => Sys2Proof.Machine.execFlitCounterLimit s
  | .linkRekey => Sys2Proof.Machine.execLinkRekey s
  | .rdreq => Sys2Proof.Machine.execRdreq s
  | .wrreq => Sys2Proof.Machine.execWrreq s
  | .atreq => Sys2Proof.Machine.execAtreq s
  | .contrib => Sys2Proof.Machine.execContrib s
  | .rdrsp => Sys2Proof.Machine.execRdrsp s
  | .wrack => Sys2Proof.Machine.execWrack s
  | .atrsp => Sys2Proof.Machine.execAtrsp s
  | .errrsp => Sys2Proof.Machine.execErrrsp s
  | .nack => Sys2Proof.Machine.execNack s
  | .slotTimeout => Sys2Proof.Machine.execSlotTimeout s
  | .tombstoneExpiry => Sys2Proof.Machine.execTombstoneExpiry s
  | .tickRelease => Sys2Proof.Machine.execTickRelease s
  | .tickend => Sys2Proof.Machine.execTickend s
  | .collCount => Sys2Proof.Machine.execCollCount s
  | .collDone => Sys2Proof.Machine.execCollDone s
  | .markerChannel => Sys2Proof.Machine.execMarkerChannel s
  | .localdoneMsg => Sys2Proof.Machine.execLocaldoneMsg s
  | .completeMsg => Sys2Proof.Machine.execCompleteMsg s
  | .freedMsg => Sys2Proof.Machine.execFreedMsg s
  | .reopenMsg => Sys2Proof.Machine.execReopenMsg s
  | .reopenedMsg => Sys2Proof.Machine.execReopenedMsg s
  | .snapRequestMsg => Sys2Proof.Machine.execSnapRequestMsg s
  | .grant => Sys2Proof.Machine.execGrant s
  | .refuse => Sys2Proof.Machine.execRefuse s
  | .abortMsg => Sys2Proof.Machine.execAbortMsg s
  | .tombcount => Sys2Proof.Machine.execTombcount s
  | .ldBind => Sys2Proof.Machine.execLdBind s
  | .writeEntry => Sys2Proof.Machine.execWriteEntry s
  | .readEntry => Sys2Proof.Machine.execReadEntry s
  | .flushKey => Sys2Proof.Machine.execFlushKey s
  | .restore => Sys2Proof.Machine.execRestore s
  | .fwDeliver => Sys2Proof.Machine.execFwDeliver s
  | .moduleReset => Sys2Proof.Machine.execModuleReset s
  | .spdmGetVersion => Sys2Proof.Machine.execSpdmGetVersion s
  | .spdmGetCapabilities => Sys2Proof.Machine.execSpdmGetCapabilities s
  | .spdmNegotiateAlgorithms => Sys2Proof.Machine.execSpdmNegotiateAlgorithms s
  | .spdmGetDigests => Sys2Proof.Machine.execSpdmGetDigests s
  | .spdmGetCertificate => Sys2Proof.Machine.execSpdmGetCertificate s
  | .spdmChallenge => Sys2Proof.Machine.execSpdmChallenge s
  | .spdmGetMeasurements => Sys2Proof.Machine.execSpdmGetMeasurements s
  | .spdmKeyExchange => Sys2Proof.Machine.execSpdmKeyExchange s
  | .spdmFinish => Sys2Proof.Machine.execSpdmFinish s
  | .spdmEndSession => Sys2Proof.Machine.execSpdmEndSession s
  | .partitionEmpty => Sys2Proof.Machine.execPartitionEmpty s
  | .partitionScrubDone => Sys2Proof.Machine.execPartitionScrubDone s
  | .cxlMemWrite => Sys2Proof.Machine.execCxlMemWrite s
  | .cxlMemWriteComplete => Sys2Proof.Machine.execCxlMemWriteComplete s
  | .cxlMemRead => Sys2Proof.Machine.execCxlMemRead s
  | .registerWrite => Sys2Proof.Machine.execRegisterWrite s
  | .vfEnable => Sys2Proof.Machine.execVfEnable s
  | .vfPause => Sys2Proof.Machine.execVfPause s
  | .vfStop => Sys2Proof.Machine.execVfStop s
  | .vfKill => Sys2Proof.Machine.execVfKill s
  | .commandDoorbell => Sys2Proof.Machine.execCommandDoorbell s
  | .replyDoorbell => Sys2Proof.Machine.execReplyDoorbell s
  | .cidxWrite => Sys2Proof.Machine.execCidxWrite s
  | .commandFetch => Sys2Proof.Machine.execCommandFetch s
  | .hostLaunch => Sys2Proof.Machine.execHostLaunch s
  | .faultResume => Sys2Proof.Machine.execFaultResume s
  | .member => Sys2Proof.Machine.execMember s
  | .remap => Sys2Proof.Machine.execRemap s
  | .snapReq => Sys2Proof.Machine.execSnapReq s
  | .query => Sys2Proof.Machine.execQuery s
  | .completionWrite => Sys2Proof.Machine.execCompletionWrite s
  | .faultRecordWrite => Sys2Proof.Machine.execFaultRecordWrite s
  | .notificationWrite => Sys2Proof.Machine.execNotificationWrite s
  | .serviceRequestWrite => Sys2Proof.Machine.execServiceRequestWrite s
  | .replyTake => Sys2Proof.Machine.execReplyTake s
  | .invpage => Sys2Proof.Machine.execInvpage s
  | .invall => Sys2Proof.Machine.execInvall s
  | .invalidationComplete => Sys2Proof.Machine.execInvalidationComplete s
  | .miggo => Sys2Proof.Machine.execMiggo s
  | .migdone => Sys2Proof.Machine.execMigdone s
  | .migrationSelect => Sys2Proof.Machine.execMigrationSelect s
  | .pageWalk => Sys2Proof.Machine.execPageWalk s
  | .launchStoreGrant => Sys2Proof.Machine.execLaunchStoreGrant s
  | .gangPlace => Sys2Proof.Machine.execGangPlace s
  | .groupRelease => Sys2Proof.Machine.execGroupRelease s
  | .launchFinish => Sys2Proof.Machine.execLaunchFinish s
  | .binTimeout => Sys2Proof.Machine.execBinTimeout s
  | .binGroupForm => Sys2Proof.Machine.execBinGroupForm s
  | .growGrant => Sys2Proof.Machine.execGrowGrant s
  | .parkOffCore => Sys2Proof.Machine.execParkOffCore s
  | .parkReturn => Sys2Proof.Machine.execParkReturn s
  | .mgmtPreempt => Sys2Proof.Machine.execMgmtPreempt s
  | .resultArrive => Sys2Proof.Machine.execResultArrive s
  | .checkpointReturn => Sys2Proof.Machine.execCheckpointReturn s
  | .trapQueueJoin => Sys2Proof.Machine.execTrapQueueJoin s
  | .cpTrapEntry => Sys2Proof.Machine.execCpTrapEntry s
  | .homeAccess => Sys2Proof.Machine.execHomeAccess s
  | .fenceComplete => Sys2Proof.Machine.execFenceComplete s
  | .leaseExpiry => Sys2Proof.Machine.execLeaseExpiry s
  | .barrierArrival => Sys2Proof.Machine.execBarrierArrival s
  | .barrierLanding => Sys2Proof.Machine.execBarrierLanding s
  | .barrierExpect => Sys2Proof.Machine.execBarrierExpect s
  | .barrierInit => Sys2Proof.Machine.execBarrierInit s
  | .barrierInvalidate => Sys2Proof.Machine.execBarrierInvalidate s
  | .chunkLand => Sys2Proof.Machine.execChunkLand s
  | .channelChunkLand => Sys2Proof.Machine.execChannelChunkLand s
  | .copyFaulted => Sys2Proof.Machine.execCopyFaulted s
  | .caddHome => Sys2Proof.Machine.execCaddHome s
  | .cdeclHome => Sys2Proof.Machine.execCdeclHome s
  | .recordPoint => Sys2Proof.Machine.execRecordPoint s
  | .sweepCapture => Sys2Proof.Machine.execSweepCapture s
  | .stagingFreed => Sys2Proof.Machine.execStagingFreed s
  | .localComplete => Sys2Proof.Machine.execLocalComplete s
  | .kiteRecordWrite => Sys2Proof.Machine.execKiteRecordWrite s
  | .nvmeCompletion => Sys2Proof.Machine.execNvmeCompletion s
  | .snaptmoExpiry => Sys2Proof.Machine.execSnaptmoExpiry s
  | .reopenTimer => Sys2Proof.Machine.execReopenTimer s
  | .routeWritesPerformed => Sys2Proof.Machine.execRouteWritesPerformed s
  | .combineDone => Sys2Proof.Machine.execCombineDone s
  | .serialPhase => Sys2Proof.Machine.execSerialPhase s
  | .abacusApply => Sys2Proof.Machine.execAbacusApply s
  | .abacusRetry => Sys2Proof.Machine.execAbacusRetry s
  | .mmaResult => Sys2Proof.Machine.execMmaResult s
  | .mmajJoin => Sys2Proof.Machine.execMmajJoin s
  | .mmajComplete => Sys2Proof.Machine.execMmajComplete s
  | .mloopComplete => Sys2Proof.Machine.execMloopComplete s
  | .aloadMData => Sys2Proof.Machine.execAloadMData s
  | .coolantRestored => Sys2Proof.Machine.execCoolantRestored s
  | .junctionBelowThrottle => Sys2Proof.Machine.execJunctionBelowThrottle s
  | .serviceWindowEnd => Sys2Proof.Machine.execServiceWindowEnd s
  | .digestComplete => Sys2Proof.Machine.execDigestComplete s
  | .mloopOperandsRead => Sys2Proof.Machine.execMloopOperandsRead s
  | .keyInstall => Sys2Proof.Machine.execKeyInstall s
  | .remapEntryWrite => Sys2Proof.Machine.execRemapEntryWrite s
  | .portListWrite => Sys2Proof.Machine.execPortListWrite s
  | .timeReferenceNamed => Sys2Proof.Machine.execTimeReferenceNamed s

end Sys2Proof.Machine
end

