-- ==== Sys2Proof/Machine/Schedule.lean ====
section
/-!
DEFINITION. What may happen when (R23), and what moves when the schedule names nothing: the model's own choice, deterministic
(assumption log 2).
-/
namespace Sys2Proof.Machine

/-! ### What may happen (R23) -/

/-- The event belongs to the management plane or to a link, which work from step 2 of R23 on. -/
def earlyEvent : Event → Bool
  | .writeEntry _ _ _ _ _ | .readEntry _ _ _ _ _ | .flushKey _ _ | .restore _ _ _ | .fwDeliver _ _ _ | .moduleReset _ => true
  | .spdmGetVersion _ | .spdmGetCapabilities _ | .spdmNegotiateAlgorithms _ | .spdmGetDigests _ | .spdmGetCertificate _ => true
  | .spdmChallenge _ _ | .spdmGetMeasurements _ _ | .spdmKeyExchange _ _ | .spdmFinish _ | .spdmEndSession _ => true
  | .mgmtMessage _ | .keyInstall _ | .linkRekey _ _ _ _ _ | .portListWrite _ _ _ | .timeReferenceNamed _ _ | .remapEntryWrite _ _ _ => true
  | .laneFailure _ _ | .flitTransmit _ | .flitReceive _ _ | .retryRequest _ _ | .flitCounterLimit _ => true
  | .timexSend | .timex _ _ _ | .timeWide => true
  | _ => false

/-- An event may happen: power comes on at any time; a step of the reset sequence completes while it runs; all else when the sequence has
come far enough and power is on. -/
def mayHappen (s : State) (e : Event) : Bool :=
  let y := s.sys
  match e with
  | .powerOn => true
  | .resetStepComplete => !y.poweredDown && y.resetStep != 8
  | _ => y.isUp || (!y.poweredDown && 2 ≤ y.resetStep && earlyEvent e)

/-- The state in which an event happens. -/
def State.atEvent (s : State) (e : Event) : State := { s with sys := { s.sys with cur := none, ev := some e } }

/-- An event happens: one that names something the package does not have, or that may not happen now, does not. -/
def happen (s : State) (m : Event) : Host.Outcome State Fault Refusal :=
  let e := plainEvent m
  if e.wellFormed && mayHappen s e then exec e.row (s.atEvent e) else .next s

/-! ### What could happen next -/

/-- The events that a received packet can be. -/
def Sys.packetEvents (y : Sys) (p : Packet) : List Event :=
  let t := p.typ
  if t == tRdreq then [.rdreq p] else if t == tWrreq then [.wrreq p] else if t == tAtreq then [.atreq p]
  else if t == tContrib then [.contrib p] else if t == tRdrsp then [.rdrsp p] else if t == tWrack then [.wrack p]
  else if t == tAtrsp then [.atrsp p] else if t == tErrrsp then [.errrsp p] else if t == tNack then [.nack p]
  else if t == tTickend then [.tickend p] else if t == tColl then [.collCount p, .collDone p]
  else if t == tMarker then
    let m := snapMsgOf p
    let n := (y.hostPart p.dom.toNat p.dlog.toNat).getD 0
    [.markerChannel p, .localdoneMsg n m, .completeMsg n m, .freedMsg n m, .reopenMsg n m, .reopenedMsg n m, .snapRequestMsg n m,
     .grant n m, .refuse n m, .abortMsg n m, .tombcount n m]
  else []

/-- What the home of an access can do. -/
def accessEvents (a : Access) : List Event :=
  let n := a.id
  if a.isFlight then
    let wait : Event := .slotTimeout (match a.who with | .group h => h | _ => 0) ((match a.who, a.slot with | .group _, some k => k | _, _ => n))
    match a.op with
    | .arrive => [.barrierArrival n, wait]
    | .landing _ => [.barrierLanding n, wait]
    | .expect _ => [.barrierExpect n, wait]
    | .init _ => [.barrierInit n, wait]
    | .invalidate => [.barrierInvalidate n, wait]
    | .decl _ _ => [.cdeclHome n, wait]
    | _ => [.homeAccess n, .caddHome n, .abacusApply n, .abacusRetry n, wait]
  else []

/-- What a group can do but for issuing. -/
def groupEvents (g : Group) : List Event :=
  let h := g.handle
  [.mmaResult h, .mmajJoin h, .mmajComplete h, .checkpointReturn h, .groupRelease h, .parkOffCore h, .parkReturn h] ++
  g.frontier.flatMap (fun e =>
    let l := lowest e.mask
    [.resultArrive h l, .fenceComplete (.entry h l), .trapQueueJoin (.entry h l)])

/-- The walks that a command waits for, among some pointers. -/
def walkEvents (y : Sys) (c : Cmd) (w : Bool) (ps : List Nat) : List Event :=
  ((ps.filter (fun p => c.pageState y w p == .wait)).map (fun p => offsetOf p / 4096 * 4096)).map (fun p => .pageWalk c.vf p w c.handle)

/-- What an engine command can do. -/
def cmdEvents (y : Sys) (c : Cmd) : List Event :=
  let h := c.handle
  if c.status != .running then []
  else
    match c.kind with
    | .copy =>
      let i := ((List.range c.total).find? (fun i => !c.counted i)).getD 0
      let open_ := ((y.accesses.filter (fun a => a.who == .engine h)).map (fun a => a.seq)).eraseDups
      (i :: c.skipped.map Prod.fst).flatMap (fun j => walkEvents y c false (c.srcs j) ++ walkEvents y c true (c.dests j)) ++
        (i :: open_).map (fun j => .chunkLand h j) ++ [.copyFaulted h]
    | .channel _ =>
      let i := c.chunks.length
      walkEvents y c false (c.srcs i) ++ walkEvents y c true (c.dests i) ++ [.channelChunkLand h, .copyFaulted h]
    | .digest => walkEvents y c false (c.srcs 0) ++ [.digestComplete h, .copyFaulted h]
    | .route => [.routeWritesPerformed h]
    | .combine => [.combineDone h]
    | .snap _ => []

/-- What a partition can do. -/
def partEvents (n : Nat) : List Event :=
  [.gangPlace n, .launchStoreGrant n, .recordPoint n false, .recordPoint n true, .sweepCapture n, .kiteRecordWrite n, .stagingFreed n,
   .localComplete n false, .localComplete n true, .snaptmoExpiry n false, .snaptmoExpiry n true, .reopenTimer n false,
   .reopenTimer n true, .serviceRequestWrite n, .partitionEmpty n]

/-- What a VF can do. -/
def vfEvents (v : Nat) : List Event :=
  [.commandFetch v, .completionWrite v, .faultRecordWrite v, .notificationWrite v, .replyTake v, .invalidationComplete v,
   .migrationSelect v]

/-- What a host command can do. -/
def hostCmdEvents (c : HostCmd) : List Event :=
  let u := c.uid
  [.hostLaunch u, .faultResume u, .member u, .remap u, .snapReq u, .query u]

/-- What a core can do but for issuing. -/
def coreEvents (n : Nat) (k : Core) : List Event :=
  [.cpTrapEntry n, .fenceComplete (.cp n)] ++ (List.range 4).map (fun q => .growGrant n q) ++
  k.bins.flatMap (fun b => [.binTimeout n b.1, .binGroupForm n b.1]) ++ k.l1.map (fun l => .leaseExpiry n (lineOf l.start))

/-- Every event of the package's own that the state could make happen; what comes from outside, and what the passing of time alone
brings, is for the schedule. -/
def Sys.couldHappen (y : Sys) : List Event :=
  [.resetStepComplete] ++ y.inbox.flatMap y.packetEvents ++ y.accesses.flatMap accessEvents ++ y.groups.flatMap groupEvents ++
  y.cores.flatMap (fun c => coreEvents c.1 c.2) ++ y.mloops.flatMap (fun m => [.mloopOperandsRead m.id, .mloopComplete m.id]) ++
  y.tileOps.map (fun t => .aloadMData t.id) ++ y.cmds.flatMap (cmdEvents y) ++
  y.launches.flatMap (fun l => [.serialPhase l.uid, .tickRelease l.uid, .launchFinish l.uid]) ++
  y.hostCmds.flatMap hostCmdEvents ++ (y.vfs.map Prod.fst).flatMap vfEvents ++ (y.parts.map Prod.fst).flatMap partEvents ++
  y.hostWrites.map (fun w => .cxlMemWriteComplete w.id) ++ y.due.map (fun d => .readyArrival d.bar) ++
  (y.dies.filter (fun d => d.2.scrubbing.isSome)).map (fun d => .partitionScrubDone d.1) ++
  y.tombstones.map (fun t => .tombstoneExpiry t.dom t.lchip) ++
  (y.ports.filter (fun p => !p.2.queue.isEmpty)).map (fun p => .flitTransmit p.1)

/-- The event would change the state. -/
def hasEffect (s : State) (e : Event) : Bool :=
  e.wellFormed && mayHappen s e &&
  (match exec e.row (s.atEvent e) with
    | .next t => decide (t ≠ s.atEvent e)
    | _ => true)

/-- A quadrant has something to try, or a DELAY that runs down with its issue slots (R279). -/
def Sys.slotCounts (y : Sys) (core q : Nat) : Bool :=
  !(y.candidates core q).isEmpty || y.groups.any (fun g => g.inQuadrant core q && g.frontier.any (fun e => e.delay != 0))

/-- The quadrants and control processors that could issue. -/
def Sys.issuers (y : Sys) : List Act :=
  let cs := (y.cores.map Prod.fst) ++ (y.groups.map (fun g => g.core))
  let ns := cs.foldl (fun (acc : List Nat) c => if acc.contains c then acc else acc ++ [c]) []
  ns.flatMap (fun c =>
    ((List.range 4).filter (fun q => y.slotCounts c q)).map (fun q => .issue c q) ++ (if y.cpReady c then [.cp c] else []))

/-- What the next step does when the schedule is empty: the first event that would change the state; else the issuers in turn. -/
def autoAct (s : State) : Act :=
  match s.sys.couldHappen.find? (hasEffect s) with
  | some e => .event e
  | none =>
    let l := s.sys.issuers
    (l[s.gtime % l.length]?).getD .idle

/-! ### Turns -/

/-- A word is executed by an issuer: its meaning, or ILLEGAL when the maps do not define it (R282). -/
def runWord (s : State) (who : Issuer) (w : Word) : Host.Outcome State Fault Refusal :=
  match decodeWord w with
  | .ok i => exec i (s.issueAs who w)
  | .error _ => execUndefined (s.issueAs who w)

/-- An entry issues its next word: what that gives; none while the word is held at issue. -/
def issueNow (s : State) (who : Issuer) : Option (Host.Outcome State Fault Refusal) :=
  match fetchFor s who with
  | .fail c a => some (.next (fetchTrap s who c a))
  | .word w =>
    match runWord (beforeIssue s who) who w with
    | .next t => if t = (beforeIssue s who).issueAs who w then none else some (.next t)
    | o => some o

/-- The other groups that are eligible in a slot: one of their entries would issue (R106). -/
def eligible (s : State) (chosen : Issuer) (rest : List Issuer) : List Nat :=
  (rest.filter (fun x => (match x, chosen with | .group h _, .group c _ => h != c | _, _ => false) && (issueNow s x).isSome)).map
    (fun x => match x with | .group h _ => h | .cp _ => 0)

/-- A quadrant tries its entries in order: the first whose instruction is not held at issue issues it, and every other group that is
eligible is passed over. -/
def tryIssue (s : State) : List Issuer → Host.Outcome State Fault Refusal
  | [] => .next s
  | who :: r =>
    match issueNow s who with
    | none => tryIssue s r
    | some (.next t) => .next { t with sys := t.sys.passedOver (eligible s who r) }
    | some o => o

/-- Requests of a control processor that were answered with an error as they were made (R40): its instruction traps. -/
def Sys.takeRefusals (y : Sys) (now core : Nat) : Sys :=
  (y.accesses.filter (fun a => a.who == .cp core)).foldl (fun z a => match a.st with
    | .failed c r l _ => z.failAccess now a c r l true
    | _ => z) y

/-- A control processor executes its next word when it may; a DELAY withholds that word for a number of its turns (R279). A word that is
held at issue is tried again (R121). -/
def stepCp (s : State) (core : Nat) : Host.Outcome State Fault Refusal :=
  if (s.sys.core core).cp.delay != 0 then .next { s with sys := s.sys.modCp core (fun c => { c with delay := c.delay - 1 }) }
  else if s.sys.cpReady core then
    let w := fetchCp (s.sys.core core).cp (s.sys.core core).cp.pc
    match runWord s (.cp core) w with
    | .next t =>
      let held := decide (t = s.issueAs (.cp core) w)
      let y := t.sys.takeRefusals t.gtime core
      .next { t with sys := if (y.core core).cp.stalled == held then y else y.modCp core (fun c => { c with stalled := held }) }
    | o => o
  else .next s

/-- What a turn does. -/
def act (s : State) : Act → Host.Outcome State Fault Refusal
  | .event e => happen s e
  | .issue core q =>
    if s.sys.withholds core then .next s else tryIssue { s with sys := s.sys.slotPasses core q } (s.sys.candidates core q)
  | .cp core => stepCp s core
  | .idle => .next s

/-- The state with the traps that have become ready noted, and the stops that have come to their end. -/
def State.noted (s : State) : State := { s with sys := s.sys.noteReady.settleStops }

/-- The record points of a partition that have come. -/
def Sys.recordsDue (y : Sys) (now p : Nat) : List Event :=
  ([false, true].filter (fun b => (y.colour p b).recordDue now)).map (fun b => .recordPoint p b)

/-- What the time that has come makes happen before anything else: the end of a service window (R78), or a record point (R194). -/
def dueEvent (s : State) : Option Event :=
  ((if s.sys.windowDue s.gtime then [Event.serviceWindowEnd] else []) ++ s.sys.parts.flatMap (fun p => s.sys.recordsDue s.gtime p.1)).find?
    (fun e => e.wellFormed && mayHappen s e)

/-- The next turn, and the state in which it happens: what is due goes first, and the schedule's own turn then follows without further
time. -/
def nextTurn (s : State) : Act × State :=
  match s.sys.turns with
  | t :: r =>
    let u := (elapse { s with sys := { s.sys with turns := r } } t.ns).noted
    (match dueEvent u with
      | some e => (.event e, { u with sys := { u.sys with turns := { t with ns := 0 } :: r } })
      | none => (t.act, u))
  | [] =>
    let u := (elapse s 1).noted
    match dueEvent u with
    | some e => (.event e, u)
    | none => (autoAct s, u)

end Sys2Proof.Machine
end

