-- ==== Sys2Proof/Machine/Step.lean ====
section
/-!
DEFINITION. One step: the next turn of the schedule, or the model's own choice where the schedule is empty. A turn lets time
pass and then an event happens, a quadrant issues (R106), or a control processor executes its next word.
-/
namespace Sys2Proof.Machine

/-- One step of the package. -/
def step (s : State) : Host.Outcome State Fault Refusal := act (nextTurn s).2 (nextTurn s).1

/-- The state with an instruction of the given bits stored where the next step fetches. -/
def State.withFetchWord (s : State) (_nbits w : Nat) : State := placeWord s w

end Sys2Proof.Machine
end

