-- ==== Sys2Proof/Safety.lean ====
section
/-!
DEFINITION. What every step keeps (the memory's canonical form, the clock within one boot (R18), the fused counter (R63)), and the
terms in which claims say what an instruction word does: the state that its issuer finds afterwards, and all that it leaves alone.
-/
namespace Sys2Proof.Machine

/-! ### What every step keeps -/

/-- The memory is in its canonical form. -/
def State.wf (s : State) : Prop := Memory.wf s.mem

/-- GTIME never decreases within a boot, boots are counted up, and the fused counter never decreases. -/
structure Forward (s t : State) : Prop where
  boots : s.boots ≤ t.boots
  time : s.boots = t.boots → s.gtime ≤ t.gtime
  fuse : s.fuse ≤ t.fuse

/-! ### The issuer's state afterwards -/

/-- The issuing group as the state at issue holds it: `i.g` is the group as the instruction sees it, where the registers that a joined MMAJ holds
read as their old or their new values (R111). -/
def Iss.standing (i : Iss) : Group := { i.g with regs := i.stood }

/-- v[r] of a lane as the state at issue holds it. -/
def Iss.held (i : Iss) (l r : Nat) : Word := sget i.stood.v (l * 128 + r)

/-- The issuing group as a state holds it. -/
def Iss.groupIn (i : Iss) (t : State) : Group := (t.sys.group? i.g.handle).getD i.g

/-- The issuing control processor as a state holds it. -/
def Iss.cpIn (i : Iss) (t : State) : Cp := (t.sys.core i.core).cp

/-- v[r] of a lane of the issuing group in a state. -/
def Iss.vIn (i : Iss) (t : State) (l r : Nat) : Word := sget (i.groupIn t).regs.v (l * 128 + r)

/-- k[r] of the issuing group in a state. -/
def Iss.kIn (i : Iss) (t : State) (r : Nat) : Word := sget (i.groupIn t).regs.k r

/-- p[n] of a lane of the issuing group in a state. -/
def Iss.pIn (i : Iss) (t : State) (l n : Nat) : Bool := (sget (i.groupIn t).regs.p n).getLsbD l

/-- FSTAT of a lane of the issuing group in a state. -/
def Iss.fIn (i : Iss) (t : State) (l : Nat) : BitVec 5 := sget (i.groupIn t).regs.fstat l

/-- x[r] of the issuing control processor in a state. -/
def Iss.xIn (i : Iss) (t : State) (r : Nat) : DWord := sget (i.cpIn t).x r

/-! ### What a word leaves alone -/

/-- What a word that works on its issuer's own registers leaves alone: memory and the clock; for a group, all of the package but that
group, and all of the group but its registers, its frontier and its window; for a control processor, all but its own registers, its
place in the program and its fences. -/
structure Iss.Frame (i : Iss) (s t : State) : Prop where
  outside : { t with sys := s.sys } = s
  groupOnly : i.cp = false → { t.sys with groups := s.sys.groups } = s.sys
  otherGroups : i.cp = false → ∀ h, h ≠ i.g.handle → t.sys.group? h = s.sys.group? h
  groupRest : i.cp = false →
    { i.groupIn t with regs := i.g.regs, frontier := i.g.frontier, window := i.g.window, nextSeq := i.g.nextSeq } = i.g
  coreOnly : i.cp = true → { t.sys with cores := s.sys.cores } = s.sys
  otherCores : i.cp = true → ∀ c, c ≠ i.core → t.sys.core c = s.sys.core c
  coreRest : i.cp = true → { t.sys.core i.core with cp := i.c } = s.sys.core i.core
  cpRest : i.cp = true →
    { i.cpIn t with x := i.c.x, p := i.c.p, fstat := i.c.fstat, pend := i.c.pend, pc := i.c.pc, hints := i.c.hints
                    holds := i.c.holds, delay := i.c.delay, nextSeq := i.c.nextSeq } = i.c

/-- The issuer's registers afterwards: `v`, `k` and `p` give what is written (a control processor's x registers take both `v` of lane
0 and `k`), `f` the flags ORed into FSTAT; every other register holds what it held, and no register comes to hold bad data. -/
structure Iss.Changes (i : Iss) (t : State) (v : Nat → Nat → Option DWord) (k : Nat → Option DWord)
    (p : Nat → Nat → Option Bool) (f : Nat → BitVec 5) : Prop where
  inV : i.cp = false → ∀ l r, l < 32 → r < 128 → i.vIn t l r = ((v l r).map (BitVec.setWidth 32)).getD (i.held l r)
  inK : i.cp = false → ∀ r, r < 128 → i.kIn t r = ((k r).map (BitVec.setWidth 32)).getD (i.k r)
  inP : i.cp = false → ∀ l n, l < 32 → n < 63 → i.pIn t l n = (p l n).getD (i.p l n)
  inF : i.cp = false → ∀ l, l < 32 → i.fIn t l = i.fstat l ||| f l
  rest : i.cp = false → (i.groupIn t).regs.frm = i.g.regs.frm ∧ (i.groupIn t).regs.mpb = i.g.regs.mpb ∧
    (i.groupIn t).regs.tapep = i.g.regs.tapep
  whole : i.cp = false → ∀ b ∈ (i.groupIn t).regs.bad, b ∈ i.g.regs.bad
  inX : i.cp = true → ∀ r, r < 128 → i.xIn t r = ((k r).or (v 0 r)).getD (i.v64 0 r)
  cpPred : i.cp = true → ∀ n, n < 63 → (sget (i.cpIn t).p n).getLsbD 0 = (p 0 n).getD (i.p 0 n)
  cpFlags : i.cp = true → (i.cpIn t).fstat = i.c.fstat ||| f 0

/-- Every lane of the issuing entry stands at a PC. -/
def Iss.AllAt (i : Iss) (t : State) (pc : Word) : Prop :=
  if i.cp then (i.cpIn t).pc = pc
  else ∀ l, l < 32 → i.e.mask.getLsbD l = true → ∃ e ∈ (i.groupIn t).frontier, e.mask.getLsbD l = true ∧ e.pc = pc

/-- A lane of the issuing entry stands at a PC in an entry of which something holds. -/
def Iss.laneAt (i : Iss) (t : State) (l : Nat) (pc : Word) (q : Entry → Prop := fun _ => True) : Prop :=
  ∃ e ∈ (i.groupIn t).frontier, e.mask.getLsbD l = true ∧ e.pc = pc ∧ q e

/-- The instruction is executed: it answers a next state in which the issuer's registers have changed as told, every lane goes on at the
next word, and nothing else has changed. -/
def Iss.Does (i : Iss) (s : State) (x : Instr) (v : Nat → Nat → Option DWord) (k : Nat → Option DWord)
    (p : Nat → Nat → Option Bool) (f : Nat → BitVec 5) : Prop :=
  ∃ t, exec x s = .next t ∧ i.Frame s t ∧ i.Changes t v k p f ∧ i.AllAt t (i.e.pc + 4)

/-- The same for an instruction that also changes other state: it does what one that only writes registers would do in the state `s'`,
which has that change. -/
def Iss.DoesIn (i : Iss) (s s' : State) (x : Instr) (v : Nat → Nat → Option DWord) (k : Nat → Option DWord)
    (p : Nat → Nat → Option Bool) (f : Nat → BitVec 5) : Prop :=
  ∃ j t, issuer s' = some j ∧ exec x s = .next t ∧ j.Frame s' t ∧ j.Changes t v k p f ∧ j.AllAt t (i.e.pc + 4)

/-- The instruction is executed and writes no register. -/
def Iss.DoesNothing (i : Iss) (s : State) (x : Instr) : Prop :=
  i.Does s x (fun _ _ => none) (fun _ => none) (fun _ _ => none) (fun _ => 0)

/-- A lane has its guard true. -/
def Iss.on (i : Iss) (g : BitVec 3) (l : Nat) : Bool := (i.act g).getLsbD l

/-- The instruction writes a value to register d of every lane whose guard holds (v[d] of a group keeps its low 32 bits, x[d] of a
control processor all of it), and flags into their FSTAT. -/
def Iss.WritesV (i : Iss) (s : State) (x : Instr) (g : BitVec 3) (d : Nat) (val : Nat → DWord) (f : Nat → BitVec 5) : Prop :=
  i.Does s x (fun l r => if i.on g l ∧ r = d then some (val l) else none) (fun _ => none) (fun _ _ => none)
    (fun l => if i.on g l then f l else 0)

/-- The same for a 32-bit value, which x[d] of a control processor takes zero-extended, and no flag. -/
def Iss.Writes32 (i : Iss) (s : State) (x : Instr) (g : BitVec 3) (d : Nat) (val : Nat → Word) : Prop :=
  i.WritesV s x g d (fun l => (val l).setWidth 64) (fun _ => 0)

/-- The instruction writes a 64-bit value to the pair d, d + 1 of every lane whose guard holds, or to x[d] of a control processor. -/
def Iss.Writes64 (i : Iss) (s : State) (x : Instr) (g : BitVec 3) (d : Nat) (val : Nat → DWord) : Prop :=
  i.Does s x
    (fun l r => if i.on g l ∧ r = d then some (val l) else if i.on g l ∧ !i.cp ∧ r = d + 1 then some (val l >>> 32) else none)
    (fun _ => none) (fun _ _ => none) (fun _ => 0)

/-- The instruction writes a predicate in every lane whose guard holds; predicate 63 takes nothing. -/
def Iss.WritesP (i : Iss) (s : State) (x : Instr) (g : BitVec 3) (d : Nat) (val : Nat → Bool) (f : Nat → BitVec 5) : Prop :=
  i.Does s x (fun _ _ => none) (fun _ => none) (fun l n => if i.on g l ∧ n = d then some (val l) else none)
    (fun l => if i.on g l then f l else 0)

/-- The instruction writes k[d] once, when some non-helper lane of the entry has its guard true. -/
def Iss.WritesK (i : Iss) (s : State) (x : Instr) (g : BitVec 3) (d : Nat) (val : Word) : Prop :=
  i.Does s x (fun _ _ => none) (fun r => if (i.first? g).isSome ∧ r = d then some (val.setWidth 64) else none) (fun _ _ => none)
    (fun _ => 0)

/-- The instruction passes every check before its addresses (R268). -/
def Iss.passes (i : Iss) (s : State) (d : Desc) : Prop := i.check s.sys d = .go

/-- A check of the instruction fails at issue: a group's entry stands at it in state Trapped, and no register of the group has changed; a control
processor's trap waits in its own place, and its registers are as they were. -/
def Iss.TrapsWith (i : Iss) (s : State) (x : Instr) (c : Cause) : Prop :=
  ∃ t r, exec x s = .next t ∧ { t with sys := s.sys } = s ∧ r.cause = c ∧
    (i.cp = false → { i.groupIn t with frontier := i.g.frontier } = i.standing ∧
      ∃ j ∈ (i.groupIn t).frontier, j.mask = i.e.mask ∧ j.st = .trapped r) ∧
    (i.cp = true → (i.cpIn t).ownTrap = some r ∧ (i.cpIn t).x = i.c.x ∧ (i.cpIn t).p = i.c.p)

/-! ### Memory words -/

/-- An access answers a request of the issuing instruction: it asks for the same thing and is not taken back. A tape entry's access also
names the one whose old value it stores. -/
def Iss.Answers (i : Iss) (r : Req) (a : Access) : Prop :=
  a.who = i.agent ∧ a.seq = i.seqNo ∧ a.undone = false ∧ a.lane = r.lane ∧ a.lanes = r.lanes ∧ a.wait = r.wait ∧
  a.ptr = BitVec.ofNat 64 r.ptr ∧ a.target = r.target ∧ a.key = r.key ∧ a.dest = r.dest ∧
  (if r.linked then ∃ n, a.op = (match r.op with | .tape g _ => .tape g n | o => o) else a.op = r.op)

/-- Nothing that the issuer has asked for before is recorded for a re-execution (R114). -/
def Iss.firstTime (i : Iss) (s : State) : Prop := ∀ a ∈ s.sys.accesses, a.undone = true → a.who ≠ i.agent

/-- A request slot is free where one is needed (R35). -/
def Iss.slotFree (i : Iss) (s : State) (rs : List Req) : Prop :=
  i.cp = true ∨ (∀ r ∈ rs, ∃ f, r.target = .home f) ∨ (s.sys.freeSlot i.g).isSome

/-- No fabric access of the package waits to be sent, and no packet waits to leave. -/
def State.quiet (s : State) : Prop :=
  s.sys.heldO = [] ∧ ∀ a ∈ s.sys.accesses, a.isFabric = true → a.isFlight = true → a.sent = true

/-- A state with the accesses, the numbers drawn, the lines in ticket order, the domain barriers known, the issuer's count of updates and its
replay record of matrix instructions as another has them. -/
def Iss.lessAccesses (i : Iss) (s t : State) : State :=
  let y : Sys := { t.sys with accesses := s.sys.accesses, nextId := s.sys.nextId, free := s.sys.free, ticketLines := s.sys.ticketLines, domains := s.sys.domains }
  { t with sys := if i.cp then y else y.modGroup i.g.handle (fun g => { g with updates := i.g.updates, matrix := i.g.matrix }) }

/-- A memory word is executed: every lane goes on at the next word, memory and the clock are as they were, and an access stands for each
request. Where all of them lie in this package and no fabric access waits to be sent, nothing else changes but the registers as told:
what was in flight is in flight, and no access is added but those asked for. -/
def Iss.Issues (i : Iss) (s : State) (x : Instr) (rs : List Req) (v : Nat → Nat → Option DWord) (k : Nat → Option DWord) : Prop :=
  ∃ t, exec x s = .next t ∧ { t with sys := s.sys } = s ∧ i.AllAt t (i.e.pc + 4) ∧
    (∀ r ∈ rs, ∃ a ∈ t.sys.accesses, i.Answers r a) ∧
    (s.quiet → (∀ r ∈ rs, ∃ f, r.target = .home f) →
      i.Frame s (i.lessAccesses s t) ∧ i.Changes t v k (fun _ _ => none) (fun _ => 0) ∧
      (∀ a ∈ s.sys.accesses, a.isFlight = true → ∃ b ∈ t.sys.accesses, { b with retryAt := a.retryAt } = a) ∧
      (∀ b ∈ t.sys.accesses, (∃ a ∈ s.sys.accesses, { b with retryAt := a.retryAt } = a) ∨ (∃ r ∈ rs, i.Answers r b)))

/-- The same for an instruction that also changes other state, as `Iss.DoesIn` says it: it does what one that only asks for accesses and
writes registers would do in the state `s'`. -/
def Iss.IssuesIn (i : Iss) (s s' : State) (x : Instr) (rs : List Req) (v : Nat → Nat → Option DWord) : Prop :=
  ∃ j t, issuer s' = some j ∧ exec x s = .next t ∧ { t with sys := s.sys } = s ∧ j.AllAt t (i.e.pc + 4) ∧
    (∀ r ∈ rs, ∃ a ∈ t.sys.accesses, j.Answers r a) ∧
    (s.quiet → (∀ r ∈ rs, ∃ f, r.target = .home f) →
      j.Frame s' (j.lessAccesses s' t) ∧ j.Changes t v (fun _ => none) (fun _ _ => none) (fun _ => 0) ∧
      (∀ a ∈ s.sys.accesses, a.isFlight = true → ∃ b ∈ t.sys.accesses, { b with retryAt := a.retryAt } = a) ∧
      (∀ b ∈ t.sys.accesses, (∃ a ∈ s.sys.accesses, { b with retryAt := a.retryAt } = a) ∨ (∃ r ∈ rs, j.Answers r b)))

/-- A matrix instruction passes every check of R347 and R268 before its own: it has its effect when some lane's guard holds and every
present lane is in the entry. -/
def Iss.passesMatrix (i : Iss) (s : State) (d : Desc) : Prop :=
  i.passes s { d with agents := .groupOnly, modOk := false, mem := d.mem && i.act d.g != 0,
                      hz := some (if i.act d.g != 0 then i.hazard { d with agents := .groupOnly, modOk := false } i.e.mask else 0) }

/-! ### Packets -/

/-- The state in which a packet has been taken and counted. -/
def State.took (s : State) (p : Packet) (part : Nat) : State := { s with sys := (s.sys.takePacket p).countRecv part p }

/-- A packet received has the form of its type, is next in its order, is for a chip that a partition of this package hosts, its colour
bits let it in, and the log that it enters, if it does, has a page; no tick holds it. -/
structure State.Arrives (s : State) (p : Packet) (typ : BitVec 4) (part : Nat) : Prop where
  kind : p.typ = typ
  inOrder : s.sys.isNext p = true
  formed : p.malformed = false
  hosted : s.sys.hostPart p.dom.toNat p.dlog.toNat = some part
  coloured : (s.sys.part part).check p = .go
  logged : s.sys.logStalls part (s.took p part).sys = false
  untimed : p.det = false

/-- The packets that have left or are about to, wherever they stand: at a port, in the loopback, or held for the order of class O. -/
def Sys.leaving (y : Sys) (p : Packet) : Prop := p ∈ y.inbox ∨ p ∈ y.heldO ∨ ∃ n, p ∈ (y.port n).queue

/-- A response to a packet has left with a payload: it carries the class and the tag of the request and goes to its sender (R33). It is
lost where no port can take it. -/
def Sys.answersWith (y : Sys) (p : Packet) (typ : BitVec 4) (payload : List PUnit) : Prop :=
  ∃ r : Packet, r.typ = typ ∧ r.cls = (if p.cls = 3 then 0 else p.cls) ∧ r.dlog = p.slog ∧ r.dphys = p.sphys ∧ r.payload = payload ∧
    r.tagCore = p.tagCore ∧ r.tagGrp = p.tagGrp ∧ r.tagSlot = p.tagSlot ∧ r.tagE = p.tagE ∧ r.tagPos = p.tagPos ∧ r.det = false ∧
    (y.leaving r ∨ (p.sphys ≠ y.phys ∧ (y.egress r).1 = none))

/-- A record of the Error Address Log is the newest of a partition, and counted. -/
def Sys.newestRecord (y z : Sys) (part : Nat) (c : Cause) (k : RKind) (addr : DWord) : Prop :=
  (z.part part).ealcnt = (y.part part).ealcnt + 1 ∧
  ∃ r, (z.part part).eal.head? = some r ∧ r.cause = BitVec.ofNat 8 c.code ∧ r.rkind = BitVec.ofNat 3 k.code ∧ r.addr = addr

/-- An exact integer clamped to the signed range of 32 or 64 bits (R293). -/
def clamped (w : Nat) (x : Int) : BitVec w :=
  if x < -(2 ^ (w - 1)) then BitVec.ofInt w (-(2 ^ (w - 1)))
  else if 2 ^ (w - 1) ≤ x then BitVec.ofInt w (2 ^ (w - 1) - 1)
  else BitVec.ofInt w x

end Sys2Proof.Machine
end

