-- ==== Sys2Proof/Certificates/Slice0/Obligations.lean ====
section
/-!
DEFINITION. The statements about the model, for the provers.
-/
open Sys2Proof Sys2Proof.Machine

/-! ### Integer words -/

/-- R294 with R293: the TR integer instructions. Each writes v[D] in every lane whose guard holds (zero-extended into x[D] on the
control processor) and leaves all else; under SAT the exact signed result is clamped where SAT is defined.
R295, R296 and R297: IADD64 on pairs (on x registers of the control processor), and the immediate forms, whose immediate an IMM
hint widens to 24 bits (R278). On the control processor IADDI adds on 64 bits, and MOVI's result is zero-extended. -/
def Obligations.IntegerResults : Prop :=
  (∀ (s : State) (i : Iss) (o : FormTR), issuer s = some i →
     let a := fun l => i.a l o.a.toNat
     let b := fun l => i.b o.m l o.b.toNat
     let c := fun l => i.v l o.d.toNat
     let w := fun (x : Instr) (val : Nat → Word) => i.Writes32 s x o.g o.d.toNat val
     (i.passes s { descTR o false with satOk := true } →
       w (.iadd o) (fun l => if i.sat then clamped 32 ((a l).toInt + (b l).toInt) else a l + b l) ∧
       w (.isub o) (fun l => if i.sat then clamped 32 ((a l).toInt - (b l).toInt) else a l - b l) ∧
       w (.imul o) (fun l => if i.sat then clamped 32 ((a l).toInt * (b l).toInt) else a l * b l)) ∧
     (i.passes s { descTR o true with satOk := true } →
       w (.imad o) (fun l => if i.sat then clamped 32 ((a l).toInt * (b l).toInt + (c l).toInt) else a l * b l + c l)) ∧
     (i.passes s (descTR o false) →
       w (.imulhs o) (fun l => (((a l).signExtend 64 * (b l).signExtend 64) >>> 32).setWidth 32) ∧
       w (.imulhz o) (fun l => (((a l).setWidth 64 * (b l).setWidth 64) >>> 32).setWidth 32) ∧
       w (.imins o) (fun l => if (a l).toInt ≤ (b l).toInt then a l else b l) ∧
       w (.imaxs o) (fun l => if (a l).toInt ≤ (b l).toInt then b l else a l) ∧
       w (.iminz o) (fun l => if (a l).toNat ≤ (b l).toNat then a l else b l) ∧
       w (.imaxz o) (fun l => if (a l).toNat ≤ (b l).toNat then b l else a l) ∧
       w (.and o) (fun l => a l &&& b l) ∧ w (.or o) (fun l => a l ||| b l) ∧ w (.xor o) (fun l => a l ^^^ b l) ∧
       w (.shl o) (fun l => a l <<< (b l).toNat) ∧ w (.shr o) (fun l => a l >>> (b l).toNat) ∧
       w (.sar o) (fun l => (a l).sshiftRight (b l).toNat))) ∧
  (∀ (s : State) (i : Iss), issuer s = some i →
     (∀ o : FormTR,
       let a := fun l => (i.a64 l o.a.toNat)
       let b := fun l => if o.m then i.k64 o.b.toNat else i.v64 l o.b.toNat
       i.passes s { g := o.g, s := o.s, dst := pair i.cp o.d.toNat, src := if o.m then [] else pair i.cp o.b.toNat
                    a := pair i.cp o.a.toNat, afk := true, ks := if o.m then pair i.cp o.b.toNat else []
                    even := [o.d.toNat, o.a.toNat, o.b.toNat], satOk := true } →
       i.Writes64 s (.iadd64 o) o.g o.d.toNat
         (fun l => if i.sat then clamped 64 ((a l).toInt + (b l).toInt) else a l + b l)) ∧
     (∀ o : FormTI,
       let a := fun l => i.a l o.a.toNat
       let w := fun (x : Instr) (val : Nat → Word) => i.Writes32 s x o.g o.d.toNat val
       let signed : Word := match i.e.hints.imm with | some h => (h.i ++ o.i).signExtend 32 | none => o.i.signExtend 32
       let zero : Word := match i.e.hints.imm with | some h => (h.i ++ o.i).setWidth 32 | none => o.i.setWidth 32
       (i.passes s { descTI o.s o.d o.a o.g with satOk := true } → i.cp = false →
         w (.iaddi o) (fun l => if i.sat then clamped 32 ((a l).toInt + signed.toInt) else a l + signed)) ∧
       (i.passes s { descTI o.s o.d o.a o.g with satOk := true } → i.cp = true →
         i.Writes64 s (.iaddi o) o.g o.d.toNat
           (fun l => if i.sat then clamped 64 ((i.a64 l o.a.toNat).toInt + signed.toInt)
             else i.a64 l o.a.toNat + signed.signExtend 64)) ∧
       (i.passes s (descTI o.s o.d o.a o.g) →
         w (.andi o) (fun l => a l &&& signed) ∧ w (.ori o) (fun l => a l ||| zero) ∧ w (.xori o) (fun l => a l ^^^ zero))) ∧
     (∀ o : FormShfi,
       i.passes s { descTI o.s o.d o.a o.g with bad := match i.e.hints.imm with | some h => h.i != 0 | none => false } →
       i.Writes32 s (.shfi o) o.g o.d.toNat
         (fun l => let a := i.a l o.a.toNat
           if o.k = 0 then a <<< o.n.toNat else if o.k = 1 then a >>> o.n.toNat
           else if o.k = 2 then a.sshiftRight o.n.toNat else a.rotateLeft o.n.toNat)) ∧
     (∀ o : FormMovi, i.passes s { g := o.g, s := o.s, dst := [o.d.toNat], immOk := true } →
       i.Writes32 s (.movi o) o.g o.d.toNat
         (fun _ => match i.e.hints.imm with | some h => (h.i ++ o.i).setWidth 32 | none => o.i.setWidth 32)))

/-- R298, R300 and R301's V2P: the integer compares write p[pd], combined with its old value under AND; PRED looks its two inputs up in
its table; V2P tests for zero. Predicate 63 takes nothing, and a lane whose guard fails keeps its predicates. A MOD hint before PRED raises
ILLEGAL, and the example words read as the rules say. -/
def Obligations.PredicateResults : Prop :=
  ∀ (s : State) (i : Iss), issuer s = some i →
    (∀ o : FormCmp, i.passes s (descCmp o) →
      let a := fun l => i.a l o.a.toNat
      let b := fun l => i.b o.m l o.b.toNat
      let w := fun (x : Instr) (r : Nat → Bool) => i.WritesP s x o.g o.p.toNat
        (fun l => if o.n then i.p l o.p.toNat && r l else r l) (fun _ => 0)
      w (.icmpeq o) (fun l => decide (a l = b l)) ∧ w (.icmpne o) (fun l => decide (a l ≠ b l)) ∧
      w (.icmplt o) (fun l => decide ((a l).toInt < (b l).toInt)) ∧ w (.icmple o) (fun l => decide ((a l).toInt ≤ (b l).toInt)) ∧
      w (.icmpltz o) (fun l => decide ((a l).toNat < (b l).toNat))) ∧
    (∀ o : FormPred, i.passes s { g := o.g, s := o.s, modOk := false } →
      i.WritesP s (.pred o) o.g o.d.toNat
        (fun l => o.t.getLsbD (2 * (i.p l o.a.toNat).toNat + (i.p l o.b.toNat).toNat)) (fun _ => 0)) ∧
    (∀ o : FormPred, i.e.hints.mod.isSome = true → i.TrapsWith s (.pred o) .illegal) ∧
    decodeWord 0x36100827 = .ok (.icmplt { s := false, p := 2, n := false, a := 1, b := 2, m := false, g := 7 }) ∧
    decodeWord 0x36140827 = .ok (.icmplt { s := false, p := 2, n := true, a := 1, b := 2, m := false, g := 7 }) ∧
    decodeWord 0x72282147 = .ok (.pred { s := false, d := 5, a := 1, b := 2, t := 8, g := 7 }) ∧
    (∀ o : FormV2p, i.passes s { g := o.g, s := o.s, a := [o.a.toNat], afk := true } →
      i.WritesP s (.v2p o) o.g o.d.toNat (fun l => decide (i.a l o.a.toNat ≠ 0)) (fun _ => 0))

/-- R299: SEL acts in every lane of the issuing entry; the guard chooses the operand, and with G = 7 and no hint it is true. SAT raises
ILLEGAL. -/
def Obligations.SelectResult : Prop :=
  (∀ (s : State) (i : Iss) (o : FormTR), issuer s = some i →
    (i.passes s { descTR o false with all := true } →
      i.Does s (.sel o)
        (fun l r => if i.e.mask.getLsbD l ∧ r = o.d.toNat then
          some ((if i.guardAt o.g l then i.a l o.a.toNat else i.b o.m l o.b.toNat).setWidth 64) else none)
        (fun _ => none) (fun _ _ => none) (fun _ => 0)) ∧
    (i.sat = true → i.TrapsWith s (.sel o) .illegal) ∧ (i.e.hints.guard = none → ∀ l, i.guardAt 7 l = true)) ∧
  decodeWord 0x2C0C0824 = .ok (.sel { s := false, d := 3, a := 1, b := 2, m := false, g := 4 })

/-- R301: the integer functions of the XFN space. -/
def Obligations.IntegerFunctions : Prop :=
  ∀ (s : State) (i : Iss), issuer s = some i →
    (∀ o : FormTF,
      let a := fun l => i.a l o.a.toNat
      let w := fun (x : Instr) (val : Nat → Word) => i.Writes32 s x o.g o.d.toNat val
      (i.passes s { descTF o with satOk := true } →
        w (.neg o) (fun l => if i.sat then clamped 32 (-(a l).toInt) else 0 - a l) ∧
        w (.iabs o) (fun l => if i.sat then clamped 32 (a l).toInt.natAbs else if (a l).toInt < 0 then 0 - a l else a l)) ∧
      (i.passes s (descTF o) →
        w (.mov o) a ∧ w (.not o) (fun l => ~~~(a l)) ∧
        w (.popc o) (fun l => BitVec.ofNat 32 ((List.range 32).countP (fun j => (a l).getLsbD j))) ∧
        w (.clz o) (fun l => BitVec.ofNat 32 (((List.range 32).find? (fun j => (a l).getLsbD (31 - j))).getD 32)) ∧
        w (.ctz o) (fun l => BitVec.ofNat 32 (((List.range 32).find? (fun j => (a l).getLsbD j)).getD 32)) ∧
        w (.brev o) (fun l => (a l).reverse) ∧
        w (.sext8 o) (fun l => ((a l).extractLsb' 0 8).signExtend 32) ∧ w (.sext16 o) (fun l => ((a l).extractLsb' 0 16).signExtend 32) ∧
        w (.zext8 o) (fun l => ((a l).extractLsb' 0 8).setWidth 32) ∧ w (.zext16 o) (fun l => ((a l).extractLsb' 0 16).setWidth 32)) ∧
      (i.passes s { g := o.g, s := o.s, dst := [o.d.toNat], ks := [o.a.toNat] } → w (.movk o) (fun _ => i.k o.a.toNat))) ∧
    (∀ o : FormP2v, i.passes s { g := o.g, s := o.s, dst := [o.d.toNat] } →
      i.Writes32 s (.p2v o) o.g o.d.toNat (fun l => if i.p l o.a.toNat then 1 else 0))

/-- R306: the uniform instructions write k[D] once (x[D] on the control processor), when some non-helper lane of the entry has its
guard true, and do nothing otherwise. SAT, the rounding field and A-from-k raise ILLEGAL on every UNI word, as do an odd pair of KADD64 and a
predicate above 63; the codes are those of the table. -/
def Obligations.UniformResults : Prop :=
  ∀ (s : State) (i : Iss) (o : FormTF), issuer s = some i →
    let d := i.k o.d.toNat
    let a := i.k o.a.toNat
    let w := fun (x : Instr) (val : Word) => i.WritesK s x o.g o.d.toNat val
    let words : List Instr := [.kmov o, .kmovv o, .kadd o, .ksub o, .kmul o, .kand o, .kor o, .kxor o, .kshl o, .kshr o, .kadd64 o, .kld32 o,
      .kld64 o, .kst32 o, .kbal o]
    (∀ m, i.e.hints.mod = some m → m.t = true ∨ m.r ≠ 0 ∨ m.k = true → ∀ x ∈ words, i.TrapsWith s x .illegal) ∧
    (64 ≤ o.a.toNat → i.TrapsWith s (.kbal o) .illegal) ∧
    (i.cp = false → o.d.toNat % 2 = 1 ∨ o.a.toNat % 2 = 1 → i.TrapsWith s (.kadd64 o) .illegal) ∧
    (o = { s := false, d := 3, a := 1, g := 7 } → ∀ j, j < 15 → (words[j]?).map Except.ok = some (decodeWord (BitVec.ofNat 32 (0x7A0C0807 + 8 * j)))) ∧
    (i.passes s { g := o.g, s := o.s, kd := [o.d.toNat], ks := [o.a.toNat] } → w (.kmov o) a) ∧
    (i.passes s { g := o.g, s := o.s, kd := [o.d.toNat], ks := [o.a.toNat, o.d.toNat] } →
      w (.kadd o) (d + a) ∧ w (.ksub o) (d - a) ∧ w (.kmul o) (d * a) ∧ w (.kand o) (d &&& a) ∧ w (.kor o) (d ||| a) ∧
      w (.kxor o) (d ^^^ a) ∧ w (.kshl o) (d <<< a.toNat) ∧ w (.kshr o) (d >>> a.toNat)) ∧
    (i.passes s { g := o.g, s := o.s, kd := [o.d.toNat], src := [o.a.toNat], once := true } →
      w (.kmovv o) (((i.first? o.g).map (fun l => i.v l o.a.toNat)).getD 0)) ∧
    (i.passes s { g := o.g, s := o.s, kd := [o.d.toNat], bad := 64 ≤ o.a.toNat } →
      w (.kbal o) (i.real (i.act o.g) &&& maskOf (fun l => i.p l o.a.toNat))) ∧
    (i.passes s { g := o.g, s := o.s, kd := pair i.cp o.d.toNat, ks := pair i.cp o.a.toNat, even := [o.d.toNat, o.a.toNat] } →
      let sum := i.k64 o.d.toNat + i.k64 o.a.toNat
      i.Does s (.kadd64 o) (fun _ _ => none)
        (fun r => if (i.first? o.g).isSome ∧ r = o.d.toNat then some sum
          else if (i.first? o.g).isSome ∧ !i.cp ∧ r = o.d.toNat + 1 then some (sum >>> 32) else none)
        (fun _ _ => none) (fun _ => 0))

/-! ### Floating-point words -/

/-- R332 and R333 with R330: the TR floating-point instructions. The mode is MOD's when a MOD hint is pending and FRM otherwise; SAT clamps
the rounded result (R240); the flags are ORed into FSTAT (R242). BMUL2 and BFMA2 work on the two BF16 halves apart.
R334: the float compares write p[pd] as the integer compares do, and set NV as the table's last column says. -/
def Obligations.FloatArithmetic : Prop :=
  (∀ (s : State) (i : Iss) (o : FormTR), issuer s = some i →
     let a := fun l => (i.a l o.a.toNat).toNat
     let b := fun l => (i.b o.m l o.b.toNat).toNat
     let c := fun l => (i.v l o.d.toNat).toNat
     let w := fun (x : Instr) (r : Nat → FRes) =>
       i.WritesV s x o.g o.d.toNat (fun l => BitVec.ofNat 64 (r l).bits) (fun l => (r l).flags)
     let lo := fun (n : Nat) => n % 2 ^ 16
     let hi := fun (n : Nat) => n / 2 ^ 16
     let two := fun (x y : FRes) => (⟨x.bits + 2 ^ 16 * y.bits, x.flags ||| y.flags⟩ : FRes)
     let f32 := fun (r : FRes) => satIf i.sat fp32 r
     let b16 := fun (r : FRes) => satIf i.sat bf16 r
     (i.passes s { descTR o false with rounds := true, satOk := true } →
       w (.fadd o) (fun l => f32 (fadd fp32 i.rnd (a l) (b l))) ∧ w (.fsub o) (fun l => f32 (fsub fp32 i.rnd (a l) (b l))) ∧
       w (.fmul o) (fun l => f32 (fmul fp32 i.rnd (a l) (b l))) ∧
       w (.bmul2 o) (fun l => two (b16 (fmul bf16 i.rnd (lo (a l)) (lo (b l)))) (b16 (fmul bf16 i.rnd (hi (a l)) (hi (b l)))))) ∧
     (i.passes s { descTR o true with rounds := true, satOk := true } →
       w (.ffma o) (fun l => f32 (ffma fp32 i.rnd (a l) (b l) (c l))) ∧
       w (.bfma2 o) (fun l => two (b16 (ffma bf16 i.rnd (lo (a l)) (lo (b l)) (lo (c l))))
         (b16 (ffma bf16 i.rnd (hi (a l)) (hi (b l)) (hi (c l)))))) ∧
     (i.passes s { descTR o false with satOk := true } →
       w (.fmin o) (fun l => f32 (fminmax fp32 false (a l) (b l))) ∧ w (.fmax o) (fun l => f32 (fminmax fp32 true (a l) (b l))))) ∧
  (∀ (s : State) (i : Iss) (o : FormCmp), issuer s = some i → i.passes s (descCmp o) →
     let a := fun l => decodeF fp32 (i.a l o.a.toNat).toNat
     let b := fun l => decodeF fp32 (i.b o.m l o.b.toNat).toNat
     let nan := fun l => (a l).isNan || (b l).isNan
     let snan := fun l => (a l).isSnan || (b l).isSnan
     let w := fun (x : Instr) (r nv : Nat → Bool) => i.WritesP s x o.g o.p.toNat
       (fun l => if o.n then i.p l o.p.toNat && r l else r l) (fun l => if nv l then flagNV else 0)
     w (.fcmpeq o) (fun l => !nan l && fvalEq (a l) (b l)) snan ∧ w (.fcmplt o) (fun l => !nan l && fvalLt (a l) (b l)) nan ∧
     w (.fcmple o) (fun l => !nan l && !fvalLt (b l) (a l)) nan ∧ w (.fcmpun o) nan snan)

/-- R335, R336 and R338: the float functions and conversions of the XFN space that are not deferred.
R337 with R107 and R331: the correctly rounded functions write their result and flags as any other, and leave v[D] and FSTAT pending
in the lanes written until the entry passes an S. -/
def Obligations.FloatFunctionResults : Prop :=
  (∀ (s : State) (i : Iss) (o : FormTF), issuer s = some i →
     let a := fun l => (i.a l o.a.toNat).toNat
     let w := fun (x : Instr) (r : Nat → FRes) =>
       i.WritesV s x o.g o.d.toNat (fun l => BitVec.ofNat 64 (r l).bits) (fun l => (r l).flags)
     let plain := fun (f : Nat → Nat) (x : Nat) =>
       match decodeF fp32 x with
       | .nan q => (⟨0x7FC00000, if q then flagNV else 0⟩ : FRes)
       | _ => ⟨f x, 0⟩
     (i.passes s { descTF o with rounds := true, satOk := true } →
       w (.i2fS o) (fun l => satIf i.sat fp32 (intToF fp32 i.rnd (i.a l o.a.toNat).toInt)) ∧
       w (.i2fZ o) (fun l => satIf i.sat fp32 (intToF fp32 i.rnd (a l : Int))) ∧
       w (.frnd o) (fun l => satIf i.sat fp32 (frnd fp32 i.rnd (a l))) ∧
       w (.f2bf o) (fun l => satIf i.sat bf16 (fconv fp32 bf16 i.rnd (a l)))) ∧
     (i.passes s { descTF o with rounds := true } →
       let int := fun (lo hi : Int) (l : Nat) =>
         let r := fToInt i.rnd lo hi (decodeF fp32 (a l))
         (⟨(BitVec.ofInt 32 r.1).toNat, r.2⟩ : FRes)
       w (.f2iS o) (int (-(2 ^ 31)) (2 ^ 31 - 1)) ∧ w (.f2iZ o) (int 0 (2 ^ 32 - 1)) ∧ w (.f2i8s o) (int (-128) 127) ∧
       w (.f2h o) (fun l => fconv fp32 fp16 i.rnd (a l))) ∧
     (i.passes s (descTF o) →
       w (.fneg o) (fun l => plain (fun x => x ^^^ 2 ^ 31) (a l)) ∧ w (.fabs o) (fun l => plain (fun x => x % 2 ^ 31) (a l)) ∧
       w (.fsat o) (fun l => ⟨satF fp32 (a l), if (decodeF fp32 (a l)).isSnan then flagNV else 0⟩) ∧
       w (.fclass o) (fun l => ⟨fclass (a l), 0⟩) ∧
       w (.bf2f o) (fun l => fconv bf16 fp32 .rne (a l % 2 ^ 16)) ∧ w (.bf2fh o) (fun l => fconv bf16 fp32 .rne (a l / 2 ^ 16)) ∧
       w (.h2f o) (fun l => fconv fp16 fp32 .rne (a l % 2 ^ 16))) ∧
     (i.passes s { descTF o with a := [o.a.toNat, o.a.toNat + 1], even := [o.a.toNat], rounds := true, satOk := true } →
       w (.pkbf2 o) (fun l =>
         let lo := satIf i.sat bf16 (fconv fp32 bf16 i.rnd (a l))
         let hi := satIf i.sat bf16 (fconv fp32 bf16 i.rnd (i.a l (o.a.toNat + 1)).toNat)
         ⟨lo.bits + 2 ^ 16 * hi.bits, lo.flags ||| hi.flags⟩)) ∧
     (i.passes s { descTF o with dst := [o.d.toNat, o.d.toNat + 1], even := [o.d.toNat] } →
       let lo := fun l => fconv bf16 fp32 .rne (a l % 2 ^ 16)
       let hi := fun l => fconv bf16 fp32 .rne (a l / 2 ^ 16)
       i.Does s (.unpbf2 o)
         (fun l r => if i.on o.g l ∧ r = o.d.toNat then some (BitVec.ofNat 64 (lo l).bits)
           else if i.on o.g l ∧ r = o.d.toNat + 1 then some (BitVec.ofNat 64 (hi l).bits) else none)
         (fun _ => none) (fun _ _ => none) (fun l => if i.on o.g l then (lo l).flags ||| (hi l).flags else 0))) ∧
  (∀ (s : State) (i : Iss) (o : FormTF), issuer s = some i → i.passes s { descTF o with satOk := true } →
     let w := fun (x : Instr) (f : Nat → FRes) =>
       ∃ t, exec x s = .next t ∧ i.Frame s t ∧ i.AllAt t (i.e.pc + 4) ∧
         i.Changes t
           (fun l r => if i.on o.g l ∧ r = o.d.toNat then
             some (BitVec.ofNat 64 (satIf i.sat fp32 (f (i.a l o.a.toNat).toNat)).bits) else none)
           (fun _ => none) (fun _ _ => none) (fun l => if i.on o.g l then (f (i.a l o.a.toNat).toNat).flags else 0) ∧
         (o.s = false → i.cp = false → (∀ e ∈ i.g.frontier, ∀ b, e.st ≠ .join b) → ∀ l, i.on o.g l = true →
           (sget (i.groupIn t).regs.pend o.d.toNat).getLsbD l = true ∧ (sget (i.groupIn t).regs.pend 128).getLsbD l = true)
     w (.frcp o) frcp ∧ w (.frsq o) frsq ∧ w (.fsqrt o) fsqrt ∧ w (.fex2 o) fex2 ∧ w (.flg2 o) flg2 ∧ w (.fsin o) fsin ∧
     w (.fcos o) fcos ∧ w (.ftanh o) ftanh ∧ w (.fsigm o) fsigm)

/-- R339-R341: the TXB encoders give every lane of the entry its element, and lanes 0 and 1 the exponents above it; the decoders read an
element of each lane whose guard holds, and the exponents from lanes 0 and 1 while they are in the entry. -/
def Obligations.BlockFunctions : Prop :=
  ∀ (s : State) (i : Iss) (o : FormTF), issuer s = some i → i.cp = false →
    let part := i.real (i.act o.g)
    let ctl := if i.e.mask.getLsbD 0 then (i.v 0 (o.a.toNat + 1)).toNat else 0
    let sup := if bit ctl 16 then some (bits ctl 7 0, bits ctl 15 8) else none
    let vals := allLanes.map (fun j =>
      let x := if part.getLsbD j then (i.v j o.a.toNat).toNat else 0
      ({ neg := x.testBit 31, val := decodeF fp32 x, mode := i.rnd } : TxbIn))
    let ex := fun (j : Nat) => if i.e.mask.getLsbD j then bits (i.v j o.a.toNat).toNat 15 8 else 0xFF
    let enc := fun (x : Instr) (t : Txb) =>
      i.passes s { g := o.g, s := o.s, agents := .groupOnly, src := [o.a.toNat, o.a.toNat + 1], dst := [o.d.toNat], even := [o.a.toNat]
                   rounds := true, all := true
                   hz := some (i.pendIn [o.d.toNat] (i.real i.e.mask) ||| i.pendIn [o.a.toNat] part |||
                     i.pendIn [o.a.toNat + 1] (i.e.mask &&& 1)) } →
      let r := txbEncode t sup vals
      let e := fun (l : Nat) => r.2.2.getD l ⟨0, 0⟩
      let up := fun (l : Nat) => if l = 0 then r.1 else if l = 1 then r.2.1 else 0
      i.Does s x (fun l d => if i.e.mask.getLsbD l ∧ d = o.d.toNat then some (BitVec.ofNat 64 ((e l).bits + 256 * up l)) else none)
        (fun _ => none) (fun _ _ => none) (fun l => if part.getLsbD l then (e l).flags else 0)
    let dec := fun (x : Instr) (t : Txb) (width : Nat) =>
      i.passes s { g := o.g, s := o.s, agents := .groupOnly, src := [o.a.toNat], dst := [o.d.toNat]
                   hz := some (i.pendIn [o.a.toNat, o.d.toNat] part ||| i.pendIn [o.a.toNat] (i.e.mask &&& 3)) } →
      let v := fun (l : Nat) => txbDecode t (ex 0) (ex 1) ((i.v l o.a.toNat).toNat % 2 ^ width)
      i.WritesV s x o.g o.d.toNat (fun l => BitVec.ofNat 64 (roundTo fp32 .rne (v l)).bits)
        (fun l => (roundTo fp32 .rne (v l)).flags ||| (if (v l).isNan then flagNV else 0))
    enc (.txbenc8 o) txb8 ∧ enc (.txbenc4 o) txb4 ∧ dec (.txbdec8 o) txb8 8 ∧ dec (.txbdec4 o) txb4 4

/-- R239 and R240: rounding a value that the format holds gives it back, under every mode of the MOD field and with no flag; a NaN gives
the canonical NaN, and NV only when it is signalling. -/
def Obligations.RoundingIsExactOnFormat : Prop :=
  ∀ (mode : Rnd) (x : Nat), mode ∈ [Rnd.rne, .rz, .rdn, .rup, .rna] →
    (x < 2 ^ 32 → (decodeF fp32 x).isNan = false → roundTo fp32 mode (decodeF fp32 x) = ⟨x, 0⟩) ∧
    (x < 2 ^ 16 → (decodeF bf16 x).isNan = false → roundTo bf16 mode (decodeF bf16 x) = ⟨x, 0⟩) ∧
    (x < 2 ^ 16 → (decodeF fp16 x).isNan = false → roundTo fp16 mode (decodeF fp16 x) = ⟨x, 0⟩) ∧
    (x < 2 ^ 32 → (decodeF fp32 x).isNan = true →
      roundTo fp32 mode (decodeF fp32 x) = ⟨0x7FC00000, if x.testBit 22 then 0 else flagNV⟩)

/-! ### Lane exchanges -/

/-- R343 and R344 with R342: each lane whose guard holds takes the value of its partner lane, or of the lanes of the active set.
R345: the tree of GRFADD adds neighbours in pairs: a sum over 2^(n+1) leaves is the rounded sum of the sums of its two halves, and the
flags of all the additions are ORed. -/
def Obligations.LaneExchangesAndSums : Prop :=
  (∀ (s : State) (i : Iss) (o : FormTF), issuer s = some i → i.cp = false →
     let d : Desc := { descTF o with agents := .groupOnly }
     let a := fun l => i.a l o.a.toNat
     let set := i.real (i.act o.g)
     let w := fun (x : Instr) (val : Nat → Word) => i.Writes32 s x o.g o.d.toNat val
     let quad := fun (x : Instr) (partner : Nat → Nat) =>
       i.passes s { d with hz := some (i.laneHazard o.g o.d.toNat o.a.toNat (i.act o.g)
         (fun l => if i.g.lanes.getLsbD (partner l) then some (partner l) else none)) } →
       w x (fun l => if i.g.lanes.getLsbD (partner l) then a (partner l) else 0)
     let wide := fun (x : Instr) (reads : LaneMask → Nat → Nat → Bool) (val : Nat → Word) =>
       let pa := if i.mod.k then 0 else sget i.g.regs.pend o.a.toNat
       let k := i.mod.k && sget i.g.regs.pendK o.a.toNat != 0
       i.passes s { d with hz := some ((set &&& sget i.g.regs.pend o.d.toNat) |||
         (set &&& maskOf (fun l => (lanesOf set).any (fun j => reads set l j && (k || pa.getLsbD j))))) } → w x val
     let sum := fun (ls : List Nat) => (ls.map a).foldl (fun x y => x + y) 0
     quad (.qxh o) (fun l => l ^^^ 1) ∧ quad (.qxv o) (fun l => l ^^^ 2) ∧ quad (.qxd o) (fun l => l ^^^ 3) ∧
     quad (.qbc0 o) (fun l => 4 * (l / 4)) ∧ quad (.qbc1 o) (fun l => 4 * (l / 4) + 1) ∧ quad (.qbc2 o) (fun l => 4 * (l / 4) + 2) ∧
     quad (.qbc3 o) (fun l => 4 * (l / 4) + 3) ∧
     (let src := fun (l : Nat) => (i.v l o.d.toNat).toNat % 32;
       i.passes s { d with src := [o.d.toNat], hz := some (i.laneHazard o.g o.d.toNat o.a.toNat (i.act o.g)
         (fun l => if set.getLsbD (src l) then some (src l) else none)) } →
       w (.gshf o) (fun l => if set.getLsbD (src l) then a (src l) else 0)) ∧
     (i.passes s { g := o.g, s := o.s, dst := [o.d.toNat], agents := .groupOnly, bad := 64 ≤ o.a.toNat } →
       w (.gbal o) (fun _ => set &&& maskOf (fun l => i.p l o.a.toNat))) ∧
     wide (.gradd o) readsAll (fun _ => sum (lanesOf set)) ∧
     wide (.grmin o) readsAll (fun _ => BitVec.ofInt 32 ((lanesOf set).foldl (fun m l => min m (a l).toInt) (2 ^ 31 - 1))) ∧
     wide (.grmax o) readsAll (fun _ => BitVec.ofInt 32 ((lanesOf set).foldl (fun m l => max m (a l).toInt) (-(2 ^ 31)))) ∧
     wide (.gscan o) (fun _ l j => decide (j < l)) (fun l => sum ((lanesOf set).filter (fun j => j < l))) ∧
     wide (.gfirst o) (fun m _ j => j == lowest m) (fun _ => ((lanesOf set).map a).headD 0) ∧
     (let pa := if i.mod.k then 0 else sget i.g.regs.pend o.a.toNat;
       let k := i.mod.k && sget i.g.regs.pendK o.a.toNat != 0;
       let leaf := fun (j : Nat) => if set.getLsbD j then (a j).toNat else 0x80000000;
       i.passes s { d with hz := some ((set &&& sget i.g.regs.pend o.d.toNat) |||
         (set &&& maskOf (fun l => (lanesOf set).any (fun j => readsAll set l j && (k || pa.getLsbD j))))) } →
       i.WritesV s (.grfadd o) o.g o.d.toNat (fun _ => BitVec.ofNat 64 (treeSum 5 ((List.range 32).map leaf)).bits)
         (fun _ => (treeSum 5 ((List.range 32).map leaf)).flags))) ∧
  (∀ (n : Nat) (l r : List Nat), l.length = 2 ^ n → r.length = 2 ^ n →
     let x := treeSum n l
     let y := treeSum n r
     let z := fadd fp32 .rne x.bits y.bits
     (treeSum (n + 1) (l ++ r)).bits = z.bits ∧ (treeSum (n + 1) (l ++ r)).flags = x.flags ||| y.flags ||| z.flags)

/-! ### Memory words -/

/-- R310, R311 and R218 with R137 and R308: the loads. Each lane whose guard holds asks for its bytes at its effective address and takes them
in v[D..] when they come (x[D..] on the control processor); a lane that reads launch constants has them at once, and a helper lane whose
address fails, or whose load would fault otherwise (R94), takes 0. Under ADM 2, a load of a differentiable region adds v[D] to the adjoint cell instead, and v[D] becomes 0. What a
control processor reads in constant space is a free value (it has no launch). -/
def Obligations.Loads : Prop :=
  ∀ (s : State) (i : Iss) (o : FormTM), issuer s = some i → i.firstTime s →
    let ld := fun (x : Instr) (size : Nat) =>
      let addr := fun (l : Nat) => i.laneAddr o.a.toNat (i.ofs o.o size) l
      let fits := fun (l : Nat) => (i.addrFail s.sys .load size size (addr l)).isNone && !(i.g.helpers.getLsbD l && i.loadFaults s.sys (addr l).ea size)
      let words := if i.cp then (size + 7) / 8 else (size + 3) / 4
      let d := o.d.toNat
      let entry := fun (l : Nat) => if i.cp = false ∧ i.g.adm = 2 then (i.ctx s.sys).diffEntry (addr l).ea else none
      let rs := (lanesOf (i.act o.g)).filterMap (fun l => if fits l then
        match entry l with
        | some f =>
          if i.g.helpers.getLsbD l then none
          else (i.cellTarget s.sys f (addr l).ea).map (fun t =>
            ({ lane := l, lanes := laneBit l, wait := 0, op := .atomic .addF32 false ((i.v l d).setWidth 64) 0, ptr := (addr l).ea
               target := .home t.1, key := t.2, dest := .none } : Req))
        | none =>
          (i.target s.sys (addr l).ea size).map (fun t =>
            ({ lane := l, lanes := laneBit l, wait := laneBit l, op := .load size, ptr := (addr l).ea, target := t.1, key := t.2
               dest := if i.cp then .x d words else .v d words } : Req)) else none)
      i.passes s { g := o.g, s := o.s, cls := some o.c, mem := true, immOk := true, leaseOk := true, acqOk := true, dst := regRange d words
                   a := pair i.cp o.a.toNat, afk := true, even := [o.a.toNat], bad := !i.cp && d % words != 0 } →
      (∀ l, i.on o.g l = true → i.g.helpers.getLsbD l = false →
        fits l = true ∧ (i.det = true → (i.ctx s.sys).profile (addr l).ea = false) ∧
        (∀ f, entry l = some f → f.elemSize = size ∧ (i.cellTarget s.sys f (addr l).ea).isSome)) →
      i.slotFree s rs →
      i.Issues s x rs
        (fun l r => if i.on o.g l ∧ d ≤ r ∧ r < d + words then
            if fits l ∧ entry l = none then
              if spaceOf (addr l).ea = 7 then
                match i.launch with
                | some u => some (BitVec.ofNat 64 (field (u.constBytes (offsetOf (addr l).ea) size) (4 * (r - d)) 4))
                | none => some (Config.freeWord (s.sys.free + (r - d)))
              else none
            else some 0
          else none)
        (fun _ => none)
    ld (.ld8 o) 1 ∧ ld (.ld16 o) 2 ∧ ld (.ld32 o) 4 ∧ ld (.ld64 o) 8 ∧ ld (.ld128 o) 16

/-- R312 with R308: the stores of lanes that reach no differentiable region under an inverting mode. Each non-helper lane whose guard holds
asks to write its bytes of v[D..] (x[D..] on the control processor), the low byte first, at its effective address. -/
def Obligations.Stores : Prop :=
  ∀ (s : State) (i : Iss) (o : FormTM), issuer s = some i → i.firstTime s →
    let st := fun (x : Instr) (size : Nat) =>
      let addr := fun (l : Nat) => i.laneAddr o.a.toNat (i.ofs o.o size) l
      let d := o.d.toNat
      let words := if i.cp then (size + 7) / 8 else (size + 3) / 4
      let data := fun (l : Nat) => (List.range size).map (fun j =>
        if i.cp then (i.v64 0 (d + j / 8)).extractLsb' (8 * (j % 8)) 8 else (i.v l (d + j / 4)).extractLsb' (8 * (j % 4)) 8)
      let rs := (lanesOf (i.real (i.act o.g))).filterMap (fun l => (i.target s.sys (addr l).ea size).map (fun t =>
        ({ lane := l, lanes := laneBit l, wait := 0, op := .store (data l), ptr := (addr l).ea, target := t.1, key := t.2
           dest := .none } : Req)))
      i.passes s { g := o.g, s := o.s, cls := some o.c, mem := true, immOk := true, relOk := true, src := regRange d words
                   a := pair i.cp o.a.toNat, afk := true, even := [o.a.toNat], bad := !i.cp && d % words != 0 } →
      (∀ l, i.on o.g l = true → i.g.helpers.getLsbD l = false → i.addrFail s.sys .store size size (addr l) = none) →
      (i.cp = false → i.g.adm ≠ 0 → ∀ l, i.on o.g l = true → (i.ctx s.sys).diffEntry (addr l).ea = none) →
      i.slotFree s rs → i.relHolds s.sys rs = false →
      i.Issues s x rs (fun _ _ => none) (fun _ => none)
    st (.st8 o) 1 ∧ st (.st16 o) 2 ∧ st (.st32 o) 4 ∧ st (.st64 o) 8 ∧ st (.st128 o) 16

/-- R307: KLD32 and KLD64 make one access for all lanes whose guard holds and write k[D..] when it comes; KST32 stores k[D]; with no such
lane they do nothing. R265 and R266:
STQ writes q[D] to a profile region from each non-helper lane whose guard holds. -/
def Obligations.UniformAccessesAndQuarantine : Prop :=
  ∀ (s : State) (i : Iss), issuer s = some i → i.firstTime s →
    (∀ o : FormTF, ∀ l, i.first? o.g = some l →
      let ea := (i.k64 o.a.toNat).toNat
      let addr : LaneAddr := { lane := l, base := ea, ea := ea }
      let d := o.d.toNat
      let lanes := i.real (i.act o.g)
      let outside := i.cp = true ∨ i.g.adm = 0 ∨ (i.ctx s.sys).diffEntry ea = none
      (∀ (x : Instr) (size : Nat), (x = .kld32 o ∧ size = 4) ∨ (x = .kld64 o ∧ size = 8) →
        let words := if i.cp then 1 else size / 4
        let rs := ((i.target s.sys ea size).map (fun t =>
          ({ lane := l, lanes := lanes, wait := i.e.mask, op := .load size, ptr := ea, target := t.1, key := t.2
             dest := if i.cp then .x d 1 else .k d words } : Req))).toList
        i.passes s { g := o.g, s := o.s, mem := true, cls := some 0, leaseOk := true, acqOk := true, ks := pair i.cp o.a.toNat
                     kd := regRange d words, even := if size = 8 then [o.a.toNat, d] else [o.a.toNat] } →
        i.addrFail s.sys .load size size addr = none → (i.det = true → (i.ctx s.sys).profile ea = false) → outside → i.slotFree s rs →
        i.Issues s x rs (fun _ _ => none)
          (fun r => if d ≤ r ∧ r < d + words ∧ spaceOf ea = 7 then
              match i.launch with
              | some u => some (BitVec.ofNat 64 (field (u.constBytes (offsetOf ea) size) (4 * (r - d)) 4))
              | none => some (Config.freeWord (s.sys.free + (r - d)))
            else none)) ∧
      (let rs := ((i.target s.sys ea 4).map (fun t =>
          ({ lane := l, lanes := lanes, wait := 0, op := .store (bytesOf 4 (i.k d).toNat), ptr := ea, target := t.1, key := t.2
             dest := .none } : Req))).toList;
        i.passes s { g := o.g, s := o.s, mem := true, cls := some 0, relOk := true, ks := pair i.cp o.a.toNat ++ [d], even := [o.a.toNat] } →
        i.addrFail s.sys .store 4 4 addr = none → outside → i.slotFree s rs → i.relHolds s.sys rs = false →
        i.Issues s (.kst32 o) rs (fun _ _ => none) (fun _ => none))) ∧
    (∀ o : FormTF, i.first? o.g = none →
      let ld := fun (x : Instr) (kd even : List Nat) =>
        i.passes s { g := o.g, s := o.s, mem := true, cls := some 0, leaseOk := true, acqOk := true, ks := pair i.cp o.a.toNat, kd := kd
                     even := even } → i.Issues s x [] (fun _ _ => none) (fun _ => none)
      let d := o.d.toNat
      ld (.kld32 o) [d] [o.a.toNat] ∧ ld (.kld64 o) (pair i.cp d) [o.a.toNat, d] ∧
      (i.passes s { g := o.g, s := o.s, mem := true, cls := some 0, relOk := true, ks := pair i.cp o.a.toNat ++ [d], even := [o.a.toNat] } →
        i.Issues s (.kst32 o) [] (fun _ _ => none) (fun _ => none))) ∧
    (∀ o : FormStq,
      let p := fun (l : Nat) => (i.v64 l o.a.toNat).toNat
      let rs := (lanesOf (i.real (i.act o.g))).filterMap (fun l => (i.target s.sys (p l) 8).map (fun t =>
        ({ lane := l, lanes := laneBit l, wait := 0, op := .store (bytesOf 8 (sget i.g.q o.d.toNat).toNat), ptr := p l
           target := t.1, key := t.2, dest := .none } : Req)))
      i.passes s { g := o.g, s := o.s, src := [o.a.toNat, o.a.toNat + 1], even := [o.a.toNat], agents := .groupOnly, mem := true
                   drained := true } →
      (∀ l, i.on o.g l = true → i.g.helpers.getLsbD l = false → spaceOf (p l) = 0 ∧
        i.addrFail s.sys .store 8 8 { lane := l, base := p l, ea := p l } = none ∧ (i.ctx s.sys).profile (p l) = true ∧
        (i.g.adm ≠ 0 → (i.ctx s.sys).diffEntry (p l) = none)) →
      i.slotFree s rs →
      i.Issues s (.stq o) rs (fun _ _ => none) (fun _ => none))

/-- R315-R318: the atomics. Each non-helper lane whose guard holds asks for its operation, with its operands; the value returned goes to
v[D..] (x[D] on the control processor), and is 0 in a helper lane. -/
def Obligations.Atomics : Prop :=
  ∀ (s : State) (i : Iss), issuer s = some i → i.firstTime s →
    let at_ := fun (x : Instr) (sf : Bool) (d a : Nat) (c : BitVec 2) (ret : Bool) (g : BitVec 3) (size : Nat) (src even : List Nat)
        (results : Nat) (op : Target → Nat → AccOp) =>
      let addr := fun (l : Nat) => i.laneAddr a 0 l
      let rs := (lanesOf (i.real (i.act g))).filterMap (fun l => (i.target s.sys (addr l).ea size).map (fun t =>
        ({ lane := l, lanes := laneBit l, wait := if ret then laneBit l else 0, op := op t.1 l, ptr := (addr l).ea, target := t.1
           key := t.2, dest := if !ret then .none else if i.cp then .x d 1 else .v d results } : Req)))
      i.passes s { g := g, s := sf, cls := some c, mem := true, acqOk := ret, relOk := true, src := src
                   dst := if ret then (if i.cp then [d] else regRange d results) else [], a := pair i.cp a, afk := true, even := even } →
      (∀ l, i.on g l = true → i.g.helpers.getLsbD l = false → i.addrFail s.sys .atomic size size (addr l) = none ∧
        (i.det = true → (i.ctx s.sys).profile (addr l).ea = false) ∧
        (i.cp = false → i.g.adm ≠ 0 → (i.ctx s.sys).diffEntry (addr l).ea = none)) →
      i.slotFree s rs → i.relHolds s.sys rs = false →
      i.Issues s x rs
        (fun l r => if ret ∧ i.on g l ∧ i.g.helpers.getLsbD l ∧ d ≤ r ∧ r < d + results then some 0 else none) (fun _ => none)
    (∀ o : FormAtom,
      let d := o.d.toNat
      let w32 := fun (x : Instr) (k : AtomOp) =>
        at_ x o.s d o.a.toNat o.c (!o.n) o.g 4 [d] [o.a.toNat] 1 (fun _ l => .atomic k (!o.n) ((i.v l d).setWidth 64) 0)
      w32 (.atomAddB32 o) .addB32 ∧ w32 (.atomAddF32 o) .addF32 ∧ w32 (.atomAddBf16x2 o) .addBf16x2 ∧ w32 (.atomMinS32 o) .minS32 ∧
      w32 (.atomMaxS32 o) .maxS32 ∧ w32 (.atomMinZ32 o) .minZ32 ∧ w32 (.atomMaxZ32 o) .maxZ32 ∧ w32 (.atomAnd o) .and ∧
      w32 (.atomOr o) .or ∧ w32 (.atomXor o) .xor ∧ w32 (.atomIncw o) .incw ∧ w32 (.atomDecw o) .decw ∧
      w32 (.atomCaddF32 o) .caddF32 ∧ w32 (.atomCaddBf16x2 o) .caddBf16x2 ∧
      at_ (.atomAddB64 o) o.s d o.a.toNat o.c (!o.n) o.g 8 (pair i.cp d) [o.a.toNat, d] 2
        (fun _ l => .atomic .addB64 (!o.n) (i.v64 l d) 0)) ∧
    (∀ o : FormAtomRet,
      let d := o.d.toNat
      at_ (.atomXchg o) o.s d o.a.toNat o.c true o.g 4 [d] [o.a.toNat] 1 (fun _ l => .atomic .xchg true ((i.v l d).setWidth 64) 0) ∧
      at_ (.atomCas o) o.s d o.a.toNat o.c true o.g 4 [d, d + 1] [o.a.toNat] 1
        (fun _ l => .atomic .cas true ((i.v l d).setWidth 64) ((i.v l (d + 1)).setWidth 64)) ∧
      at_ (.atomCasB64 o) o.s d o.a.toNat o.c true o.g 8 (if i.cp then [d, d + 1] else regRange d 4) [o.a.toNat, d] 2
        (fun _ l => .atomic .casB64 true (i.v64 l d) (i.v64 l (if i.cp then d + 1 else d + 2))) ∧
      at_ (.atomCdecl o) o.s d o.a.toNat o.c true o.g 128 (if i.cp then [d, d + 1] else [d, d + 2, d + 3]) [o.a.toNat, d] 1
        (fun t l => .decl (i.v l d) (i.declBar s.sys t (if i.cp then i.v64 0 (d + 1) else i.v64 l (d + 2)))))

/-- R216: a forward-mode store into a differentiable region exchanges the element and stores the old value with its tag at the tape, lane by
lane, and TAPEP moves up by 8 for each. R219: a reverse-mode store takes the adjoint out of its cell into v[D], leaving 0, restores the
element from the tape entry of its lane, which it reads as a heap load, and TAPEP moves down. -/
def Obligations.InvertedStores : Prop :=
  ∀ (s : State) (i : Iss) (o : FormTM), issuer s = some i → i.firstTime s → i.cp = false →
    ∀ (x : Instr) (size : Nat), (x, size) ∈ [(.st8 o, 1), (.st16 o, 2), (.st32 o, 4), (.st64 o, 8), (.st128 o, 16)] →
      let d := o.d.toNat
      let ea := fun (l : Nat) => (i.laneAddr o.a.toNat (i.ofs o.o size) l).ea
      let words := (size + 3) / 4
      let entry := fun (l : Nat) => (i.ctx s.sys).diffEntry (ea l)
      let real := lanesOf (i.real (i.act o.g))
      let inv := real.filter (fun l => (entry l).isSome)
      let n := inv.length
      let p := i.g.regs.tapep.toNat
      let base := i.g.tapeb.toNat
      let plain := fun (l : Nat) => ((i.target s.sys (ea l) size).map (fun t =>
        ({ lane := l, lanes := laneBit l, wait := 0, op := .store (i.storeData d l size), ptr := ea l, target := t.1, key := t.2
           dest := .none } : Req))).toList
      let does := fun (rs : List Req) (tapep : Nat) => i.slotFree s rs → i.relHolds s.sys rs = false →
        ∃ t, exec x s = .next t ∧ { t with sys := s.sys } = s ∧ i.AllAt t (i.e.pc + 4) ∧ (∀ r ∈ rs, ∃ a ∈ t.sys.accesses, i.Answers r a) ∧
          (i.groupIn t).regs.tapep = BitVec.ofNat 32 tapep
      i.passes s { g := o.g, s := o.s, cls := some o.c, mem := true, immOk := true, relOk := true, src := regRange d words
                   a := [o.a.toNat, o.a.toNat + 1], afk := true, even := [o.a.toNat], bad := d % words != 0 } →
      (∀ l ∈ real, i.addrFail s.sys .store size size (i.laneAddr o.a.toNat (i.ofs o.o size) l) = none ∧
        ∀ f, entry l = some f → f.elemSize = size ∧ (i.cellTarget s.sys f (ea l)).isSome) →
      (i.g.adm = 1 → (n ≠ 0 → p + 8 * n ≤ i.g.tapel.toNat) → i.tapeFail s.sys .store p n = none →
        ¬ (n ≠ 0 ∧ p = 0 ∧ i.drainsInFlight s.sys = true) →
        does (real.flatMap (fun l =>
            if (entry l).isSome then
              let at_ := base + p + 8 * (inv.filter (fun m => m < l)).length
              match i.target s.sys (ea l) size, i.target s.sys at_ 8 with
              | some e, some q =>
                [{ lane := l, lanes := laneBit l, wait := 0, op := .exchange size (BitVec.ofNat 32 (numOf (i.storeData d l size)))
                   ptr := ea l, target := e.1, key := e.2, dest := .none },
                 { lane := l, lanes := laneBit l, wait := 0, op := .tape (BitVec.ofNat 32 (offsetOf (ea l))) 0, ptr := at_, target := q.1
                   key := q.2, dest := .none, linked := true }]
              | _, _ => []
            else plain l)) (p + 8 * n)) ∧
      (i.g.adm = 2 → 8 * n ≤ p → i.tapeFail s.sys .load (p - 8 * n) n = none → ∀ old : Nat → List Byte,
        (∀ l ∈ inv,
          let at_ := base + (p - 8 * (inv.filter (fun m => l ≤ m)).length)
          i.peek s at_ 8 = .ok (old l) ∧ field (old l) 4 4 = offsetOf (ea l) % 2 ^ 32 ∧
          (∀ f k, i.target s.sys at_ 8 = some (.home f, k) → s.sys.storesPending i.g.handle f 8 = false)) →
        does (real.flatMap (fun l =>
            match entry l with
            | some f =>
              let at_ := base + (p - 8 * (inv.filter (fun m => l ≤ m)).length)
              match i.cellTarget s.sys f (ea l), i.target s.sys (ea l) size with
              | some c, some e =>
                ((i.target s.sys at_ 8).map (fun q => ({ lane := l, lanes := laneBit l, wait := 0, op := .load 8, ptr := at_, target := q.1
                                                         key := q.2, dest := .none } : Req))).toList ++
                [{ lane := l, lanes := laneBit l, wait := laneBit l, op := .exchange 4 0, ptr := ea l, target := .home c.1, key := c.2
                   dest := .v d 1 },
                 { lane := l, lanes := laneBit l, wait := 0, op := .store ((old l).take size), ptr := ea l, target := e.1, key := e.2
                   dest := .none }]
              | _, _ => []
            | none => plain l)) (p - 8 * n))

/-! ### Control flow -/

/-- R302 and R303 with R105: the branches, calls and jumps. Each lane whose guard holds goes to the target, the others to the next word; a
helper lane goes with the lowest non-helper lane of its quad. CALL and CALLI write the next word's offset to v127 in the lanes that take
them. Where U asks for it, the non-helper lanes agree; a jump's targets are multiples of 4.
R304 with R110: RJOIN does nothing for an entry with an empty J and on the control processor; any other entry waits there, and goes on at
the next word when it holds all lanes of its J. R305: with EXIT the non-helper lanes whose guard holds leave the group, and with them the
helper lanes whose quad has no other lane; the rest go on. -/
def Obligations.ControlFlow : Prop :=
  (∀ (s : State) (i : Iss), issuer s = some i →
     let real := i.real i.e.mask
     let goes := fun (x : Instr) (g : BitVec 3) (link : Bool) (target : Nat → Word) =>
       let takes := fun (l : Nat) => i.guardAt g (i.g.leader l)
       let next := fun (l : Nat) => if takes l then target (i.g.leader l) else i.e.pc + 4
       ∃ t, exec x s = .next t ∧ i.Frame s t ∧
         i.Changes t (fun l r => if link ∧ i.e.mask.getLsbD l ∧ takes l ∧ r = 127 then some ((i.e.pc + 4).setWidth 64) else none)
           (fun _ => none) (fun _ _ => none) (fun _ => 0) ∧
         (if i.cp then (i.cpIn t).pc = next 0 else ∀ l, l < 32 → i.e.mask.getLsbD l = true → i.laneAt t l (next l))
     (∀ o : FormTB,
       let target := fun (_ : Nat) => i.e.pc + 4 * o.e.signExtend 32
       let agree := i.cp = true ∨ o.u = false ∨ ∀ l m, real.getLsbD l = true → real.getLsbD m = true → i.guardAt o.g l = i.guardAt o.g m
       (i.passes s { g := o.g, s := o.s } → agree → goes (.bra o) o.g false target) ∧
       (i.passes s { g := o.g, s := o.s, dst := [127] } → agree → goes (.call o) o.g true target)) ∧
     (∀ o : FormJump,
       let target := fun (l : Nat) => i.a l o.a.toNat
       let d : Desc := { g := o.g, s := o.s, a := [o.a.toNat], afk := true }
       (i.cp = true ∨ o.u = false ∨ ∀ l m, real.getLsbD l = true → real.getLsbD m = true → i.guardAt o.g l = true → i.guardAt o.g m = true →
         target l = target m) →
       (∀ l, real.getLsbD l = true → i.guardAt o.g l = true → (target l).toNat % 4 = 0) →
       (i.passes s d → goes (.jmpi o) o.g false target ∧ goes (.ret o) o.g false target) ∧
       (i.passes s { d with dst := [127] } → goes (.calli o) o.g true target)) ∧
     (∀ o : FormA, i.passes s { g := o.g, s := o.s, ks := [o.a.toNat] } →
       (∀ l, real.getLsbD l = true → i.guardAt o.g l = true → (i.k o.a.toNat).toNat % 4 = 0) →
       goes (.jmpk o) o.g false (fun _ => i.k o.a.toNat))) ∧
  (∀ (s : State) (i : Iss), issuer s = some i →
     (∀ o : FormS, i.passes s { g := 7, s := o.s, guardOk := false, modOk := false } →
       (i.cp = true ∨ i.e.j = 0 → i.DoesNothing s (.rjoin o)) ∧
       (i.cp = false → i.e.j ≠ 0 →
         ∃ t, exec (.rjoin o) s = .next t ∧ i.Frame s t ∧
           i.Changes t (fun _ _ => none) (fun _ => none) (fun _ _ => none) (fun _ => 0) ∧
           (∀ l, l < 32 → i.e.mask.getLsbD l = true →
             i.laneAt t l i.e.pc (fun e => e.st = .join o.s) ∨ i.laneAt t l (i.e.pc + 4)) ∧
           (i.e.mask = i.e.j → (∀ e ∈ i.g.frontier, ∀ b, e.st ≠ .join b) →
             ∀ l, l < 32 → i.e.mask.getLsbD l = true → i.laneAt t l (i.e.pc + 4)))) ∧
     (∀ o : FormG, i.passes s { g := o.g, s := o.s, agents := .groupOnly, drained := true } → i.cp = false →
       let gone := i.real (i.act o.g)
       let left := i.g.lanes &&& ~~~gone
       let keep := maskOf (fun l => left.getLsbD l &&
         (!i.g.helpers.getLsbD l || (List.range 4).any (fun j => (left &&& ~~~i.g.helpers).getLsbD (l / 4 * 4 + j))))
       ∃ t, exec (.exit o) s = .next t ∧ { t with sys := s.sys } = s ∧ { t.sys with groups := s.sys.groups } = s.sys ∧
         (∀ h, h ≠ i.g.handle → t.sys.group? h = s.sys.group? h) ∧
         (i.groupIn t).lanes = keep ∧
         { i.groupIn t with lanes := i.g.lanes, regs := i.g.regs, frontier := i.g.frontier, window := i.g.window
                            nextSeq := i.g.nextSeq } = i.g ∧
         i.Changes t (fun _ _ => none) (fun _ => none) (fun _ _ => none) (fun _ => 0) ∧
         (∀ e ∈ (i.groupIn t).frontier, ∀ l, e.mask.getLsbD l = true → keep.getLsbD l = true) ∧
         (∀ l, l < 32 → i.e.mask.getLsbD l = true → keep.getLsbD l = true → i.laneAt t l (i.e.pc + 4))))

/-- R275-R279: a hint word stands pending for the lanes of its entry, which go on at the next word, unless it is the fourth of its run or the
second of its kind; the boundary of the run stays before its first hint. R367: NOP does nothing; YIELD makes the group the newest.
R320 with R153-R156: a FENCE whose condition holds lets its lanes go on at once, and an acquire drops the L1 lines that its scope
invalidates and keeps no fill in flight of such a line; otherwise every lane of the entry goes on to the next word held by the fence. -/
def Obligations.HintsAndFences : Prop :=
  (∀ (s : State) (i : Iss), issuer s = some i →
     let h := i.e.hints
     let hint := fun (x : Instr) (h1 : Hints) =>
       ∃ t, exec x s = .next t ∧ i.Frame s t ∧
         i.Changes t (fun _ _ => none) (fun _ => none) (fun _ _ => none) (fun _ => 0) ∧
         (if i.cp then (i.cpIn t).pc = i.e.pc + 4 ∧ (i.cpIn t).hints = { h1 with start := h.boundary i.e.pc }
          else ∀ l, l < 32 → i.e.mask.getLsbD l = true →
           i.laneAt t l (i.e.pc + 4) (fun e => e.hints = { h1 with start := h.boundary i.e.pc }))
     (h.count < 3 →
       (∀ o, h.guard = none → hint (.guard o) { h with guard := some o }) ∧ (∀ o, h.imm = none → hint (.imm o) { h with imm := some o }) ∧
       (∀ o, h.mod = none → hint (.mod o) { h with mod := some o }) ∧
       (∀ o, h.delay = none → hint (.delay o) { h with delay := some o })) ∧
     (∀ o : FormG, i.passes s { g := o.g, s := o.s } →
       i.DoesNothing s (.nop o) ∧
       (i.cp = true ∨ i.act o.g = 0 → i.DoesNothing s (.yield o)) ∧
       (i.cp = false → i.act o.g ≠ 0 →
         i.DoesIn s { s with sys := { s.sys with nextId := s.sys.nextId + 1 }.modGroup i.g.handle (fun g => { g with age := s.sys.nextId }) }
           (.yield o) (fun _ _ => none) (fun _ => none) (fun _ _ => none) (fun _ => 0)))) ∧
  (∀ (s : State) (i : Iss) (o : FormFence), issuer s = some i →
     i.passes s { g := o.g, s := o.s, modOk := false, bad := o.m == 0 || o.c == 7 || 2 < o.k.toNat } →
     let sc := if i.cp && o.c.toNat ≤ 3 then 4 else o.c.toNat
     let lanes := i.act o.g
     let hold : FenceHold := { kind := o.k.toNat, scope := sc, classes := o.m, lanes := lanes, only := none }
     let ready := (o.k = 1 ∨ s.sys.released i.now i.agent lanes o.m sc = true) ∧ (o.k = 2 ∨ s.sys.acquired i.agent lanes o.m sc none = true)
     let none' := fun (s' : State) => i.DoesIn s s' (.fence o) (fun _ _ => none) (fun _ => none) (fun _ _ => none) (fun _ => 0)
     (lanes = 0 → i.DoesNothing s (.fence o)) ∧
     (lanes ≠ 0 → ready → o.k = 2 ∨ sc ≤ 2 → i.DoesNothing s (.fence o)) ∧
     (lanes ≠ 0 → ready → o.k ≠ 2 → 3 ≤ sc →
       none' { s with sys := { s.sys.modCore i.core (fun c => { c with l1 := c.l1.filter (fun x => x.fabric && sc ≤ 4) }) with
         accesses := s.sys.accesses.map (fun a =>
           if a.core = i.core && a.isFlight && a.isLoad && (!a.isFabric || 5 ≤ sc) then { a with mod := 2 } else a) } }) ∧
     (lanes ≠ 0 → ¬ ready →
       ∃ t, exec (.fence o) s = .next t ∧ i.Frame s t ∧
         i.Changes t (fun _ _ => none) (fun _ => none) (fun _ _ => none) (fun _ => 0) ∧
         (if i.cp then (i.cpIn t).pc = i.e.pc + 4 ∧ hold ∈ (i.cpIn t).holds
          else ∀ l, l < 32 → i.e.mask.getLsbD l = true → i.laneAt t l (i.e.pc + 4) (fun e => hold ∈ e.holds))))

/-! ### Synchronization -/

/-- R321-R323, R325, R326 and R328: the barrier instructions that ask the object. BINIT, BEXPECT, BINVAL and DARRIVE ask once for all lanes
whose guard holds; BARRIVE, BTEST and CHKTEST ask in each non-helper lane, and a helper lane takes 0. BARRIVE and DARRIVE issue after the
release of their lanes.
R324: BWAIT reads the object. Where its phase is not the one named, or it is invalidated, the waiting lanes take the phase, or all ones;
otherwise they wait on it, and the other lanes go on. R327 with R162: CHWP reads the write pointer of a channel, all ones when it is not open, and drops
from L1 the bytes where the chunks below it have landed. -/
def Obligations.BarrierWords : Prop :=
  (∀ (s : State) (i : Iss), issuer s = some i → i.firstTime s →
     let lanes := fun (g : BitVec 3) => i.real (i.act g)
     let once := fun (x : Instr) (g : BitVec 3) (a : Nat) (op : Nat → AccOp) =>
       (i.first? g = none → i.Issues s x [] (fun _ _ => none) (fun _ => none)) ∧
       (∀ l, i.first? g = some l →
         let p := (i.v64 l a).toNat
         i.barFail s.sys p = none →
         i.Issues s x [{ lane := l, lanes := lanes g, wait := 0, op := op l, ptr := p, target := .home (i.flatOf s.sys p 16), key := 0
                         dest := .none }] (fun _ _ => none) (fun _ => none))
     let each := fun (x : Instr) (g : BitVec 3) (d : Nat) (ptr : Nat → Nat) (op : Nat → AccOp) (n : Nat) =>
       i.Issues s x ((lanesOf (lanes g)).map (fun l =>
           { lane := l, lanes := laneBit l, wait := laneBit l, op := op l, ptr := ptr l, target := .home (i.flatOf s.sys (ptr l) n), key := 0
             dest := if i.cp then .x d 1 else .v d 1 }))
         (fun l r => if i.on g l ∧ i.g.helpers.getLsbD l ∧ r = d then some 0 else none) (fun _ => none)
     (∀ o : FormTF,
       let d := o.d.toNat
       let a := o.a.toNat
       (i.passes s (barDesc o true true false i) →
         once (.binit o) o.g a (fun l => .init ((i.v l d).setWidth 16)) ∧ once (.bexpect o) o.g a (fun l => .expect (i.v l d))) ∧
       ((∀ l, (lanes o.g).getLsbD l = true → i.barFail s.sys (i.v64 l a).toNat = none) →
         (i.passes s { barDesc o false false true i with drained := true } → s.sys.released i.now i.agent (i.act o.g) 7 4 = true →
           each (.barrive o) o.g d (fun l => (i.v64 l a).toNat) (fun _ => .arrive) 16) ∧
         (i.passes s (barDesc o false true true i) →
           each (.btest o) o.g d (fun l => (i.v64 l a).toNat) (fun l => .test ((i.v l d).setWidth 31)) 16)) ∧
       ((∀ l, (lanes o.g).getLsbD l = true → chkFail d a i s.sys l = none) → i.passes s (barDesc o false true true i) →
         each (.chktest o) o.g d (fun l => ((i.v64 l a).toNat + (i.v l d).toNat / 8) % 2 ^ 64)
           (fun l => .bit ((i.v l d).toNat % 8)) 1)) ∧
     (∀ o : FormA, i.passes s { g := o.g, s := o.s, modOk := false, mem := true, once := true, even := [o.a.toNat]
                                src := pair i.cp o.a.toNat } → once (.binval o) o.g o.a.toNat (fun _ => .invalidate)) ∧
     (∀ o : FormTF,
       let a := o.a.toNat
       let mreg := if i.cp then a + 1 else a + 2
       let base : Desc := { g := o.g, s := o.s, modOk := false, mem := true, once := true, drained := true, even := [a], bad := 2 < o.d.toNat
                            src := pair i.cp a ++ (if o.d ≠ 0 then [mreg] else []) }
       i.passes s { base with hz := some (i.hazard { base with src := pair i.cp a ++ [mreg] }
         (match i.first? o.g with | some l => laneBit l | none => 0)) } →
       (i.first? o.g = none → i.Issues s (.darrive o) [] (fun _ _ => none) (fun _ => none)) ∧
       (∀ l, i.first? o.g = some l →
         let p := (i.v64 l a).toNat
         let q := s.sys.part i.part
         let rs := ((i.target s.sys p 1088).map (fun t =>
           ({ lane := l, lanes := lanes o.g, wait := 0
              op := .domain o.d.toNat (if o.d ≠ 0 then (i.v l mreg).setWidth 12 else 0) (if q.joined then q.lchip else 0), ptr := p
              target := t.1, key := t.2, dest := .none } : Req))).toList
         i.domFail s.sys p = none → s.sys.released i.now i.agent (i.act o.g) 7 5 = true → i.slotFree s rs →
         i.Issues s (.darrive o) rs (fun _ _ => none) (fun _ => none)))) ∧
  (∀ (s : State) (i : Iss), issuer s = some i →
     (∀ o : FormTF, i.passes s (bwaitDesc o i) →
       (i.first? o.g = none → i.DoesNothing s (.bwait o)) ∧
       (∀ l, i.first? o.g = some l →
         let p := (i.v64 l o.a.toNat).toNat
         let f := i.flatOf s.sys p 16
         let b := readBytes s.mem f 16
         let word := BitVec.ofNat 32 (field b 0 4)
         let lanes := i.waiters o.g
         let same := word.getLsbD 31 = false ∧ word.setWidth 31 = (i.v l o.d.toNat).setWidth 31
         i.barFail s.sys p = none → s.sys.readError f 16 0 = none →
         (¬ same →
           ∃ t, exec (.bwait o) s = .next t ∧ { t with sys := s.sys } = s ∧ i.AllAt t (i.e.pc + 4) ∧
             i.Changes t (fun x r => if lanes.getLsbD x ∧ r = o.d.toNat then
               some ((if word.getLsbD 31 then 0xFFFFFFFF else word).setWidth 64) else none) (fun _ => none) (fun _ _ => none) (fun _ => 0)) ∧
         (same → s.sys.watchFree f = true → i.cp = true →
           exec (.bwait o) s = .next { s with sys := s.sys.modCp i.core (fun c =>
             { c with wait := some (f, (i.v l o.d.toNat).setWidth 31, o.d.toNat) }) }) ∧
         (same → s.sys.watchFree f = true → i.cp = false →
           ∃ t, exec (.bwait o) s = .next t ∧
             i.Frame s t ∧
             i.Changes t (fun _ _ => none) (fun _ => none) (fun _ _ => none) (fun _ => 0) ∧
             (∀ x, x < 32 → i.e.mask.getLsbD x = true →
               if lanes.getLsbD x then i.laneAt t x i.e.pc (fun e =>
                 e.st = .barrier f ((i.v l o.d.toNat).setWidth 31) o.d.toNat o.s i.g.nextSeq i.e.mask s.sys.clocks)
               else i.laneAt t x (i.e.pc + 4))))) ∧
     (∀ o : FormChwp, i.passes s { g := o.g, s := o.s, modOk := false, dst := [o.d.toNat] } →
       let ch := tget (s.sys.core i.core).channels o.a.toNat {}
       (i.first? o.g = none → i.DoesNothing s (.chwp o)) ∧
       (i.first? o.g ≠ none →
         i.DoesIn s { s with sys := match (if ch.isOpen then s.sys.cmd? ch.cmd else none) with
             | some c => s.sys.dropBytes i.core (c.lands s.sys (List.range ((ch.wp.toNat + 511) / 512)))
             | none => s.sys } (.chwp o)
           (fun l r => if i.on o.g l ∧ r = o.d.toNat then some ((if ch.isOpen then ch.wp else 0xFFFFFFFF).setWidth 64) else none)
           (fun _ => none) (fun _ _ => none) (fun _ => 0))))

/-! ### System words -/

/-- R283, R284, R368 and R122: SREAD writes the system register that its A field names to v[D] of every lane whose guard holds: each register
of a group in its lane, and a control processor's to x[D].
R369 with R212, R241, R283 and R284: SWRITE writes the register that its A field names: one held per group from the lowest lane whose
guard holds, FSTAT in each such lane. FRM takes no mode above 4, TAPEL and TAPEP take multiples of 8, and the control processor's registers
ignore what they do not take; nothing else changes. -/
def Obligations.SystemRegisters : Prop :=
  (∀ (s : State) (i : Iss) (o : FormTF), issuer s = some i → i.passes s (sysDesc o false i) →
     let reads := fun (val : Nat → DWord) => i.WritesV s (.sread o) o.g o.d.toNat val (fun _ => 0)
     let n := o.a.toNat
     let w := fun (x : Word) => reads (fun _ => x.setWidth 64)
     let rec' := fun (f : LaunchRec → Word) => ∀ u, i.launch = some u → w (f u.record)
     (i.cp = false →
       (n = 0x00 → reads (fun l => BitVec.ofNat 64 l)) ∧ (n = 0x01 → reads (fun l => BitVec.ofNat 64 (l / 4))) ∧
       (n = 0x02 → i.g.gix < 2 ^ 32 → reads (fun _ => BitVec.ofNat 64 i.g.gix)) ∧
       (n = 0x03 → w i.g.blockX) ∧ (n = 0x04 → w i.g.blockY) ∧ (n = 0x05 → w i.g.blockZ) ∧
       (n = 0x06 → rec' (fun r => r.gridX)) ∧ (n = 0x07 → rec' (fun r => r.gridY)) ∧ (n = 0x08 → rec' (fun r => r.gridZ)) ∧
       (n = 0x09 → w i.g.gangRank) ∧ (n = 0x0A → w i.g.gangSize) ∧ (n = 0x0B → rec' (fun r => r.launchId)) ∧
       (n = 0x0C → w (i.act o.g &&& ~~~i.g.helpers)) ∧ (n = 0x0D → reads (fun l => if i.g.helpers.getLsbD l then 1 else 0)) ∧
       (n = 0x0F → rec' (fun r => r.gpb.setWidth 32)) ∧ (n = 0x10 → w (i.g.regs.frm.setWidth 32)) ∧
       (n = 0x11 → reads (fun l => (i.fstat l).setWidth 64)) ∧
       (n = 0x12 → w (i.g.regs.mpb.setWidth 32)) ∧ (n = 0x13 → w ((i.g.regs.mpb >>> 32).setWidth 32)) ∧
       (n = 0x14 → w (i.g.tapeb.setWidth 32)) ∧ (n = 0x15 → w ((i.g.tapeb >>> 32).setWidth 32)) ∧ (n = 0x16 → w i.g.tapel) ∧
       (n = 0x17 → w i.g.regs.tapep) ∧ (n = 0x18 → w (i.g.adm.setWidth 32)) ∧
       (n = 0x19 → i.g.allot < 2 ^ 32 → reads (fun _ => BitVec.ofNat 64 i.g.allot)) ∧ (n = 0x1A → w i.g.scrBytes) ∧
       (n = 0x1B → rec' (fun r => if r.det then 1 else 0))) ∧
     (i.cp = true →
       let c := i.c
       let k := s.sys.core i.core
       (n = 0x10 → w (c.frm.setWidth 32)) ∧ (n = 0x11 → w (c.fstat.setWidth 32)) ∧
       (n = 0x20 → reads (fun _ => (c.tremcause ++ c.tcause).setWidth 64)) ∧ (n = 0x21 → w c.tpc) ∧
       (n = 0x22 → reads (fun _ => c.tentry ++ c.tmask)) ∧ (n = 0x23 → reads (fun _ => c.taddr)) ∧
       (n = 0x24 → reads (fun _ => c.tghandle)) ∧ (n = 0x25 → reads (fun _ => c.tprio.setWidth 64)) ∧
       (n = 0x26 → reads (fun _ => c.tealcnt)) ∧ (n = 0x27 → w c.tinsn) ∧ (n = 0x28 → reads (fun _ => c.cptvec)) ∧
       (n = 0x29 → reads (fun _ => BitVec.ofNat 64 (c.intrap.toNat + 256 * min k.trapq.length 255))) ∧
       (n = 0x2A → reads (fun _ => BitVec.ofNat 64 k.bintime)) ∧ (n = 0x2B → reads (fun _ => BitVec.ofNat 64 c.parkthr)) ∧
       (0x2C ≤ n → n ≤ 0x2F → reads (fun _ => 0)))) ∧
  (∀ (s : State) (i : Iss) (o : FormTF), issuer s = some i → i.passes s (sysDesc o true i) →
     let n := o.a.toNat
     let nothing := fun (s' : State) => i.DoesIn s s' (.swrite o) (fun _ _ => none) (fun _ => none) (fun _ _ => none) (fun _ => 0)
     (i.act o.g = 0 → i.DoesNothing s (.swrite o)) ∧
     (i.cp = false → i.act o.g ≠ 0 →
       let x := i.v ((lanesOf (i.act o.g)).headD 0) o.d.toNat
       let put := fun (f : Group → Group) => nothing { s with sys := s.sys.modGroup i.g.handle f }
       let mpb := i.g.regs.mpb
       (n = 0x10 → (x.toNat % 8 ≤ 4 → put (fun g => { g with regs := { g.regs with frm := x.setWidth 3 } })) ∧
         (4 < x.toNat % 8 → i.DoesNothing s (.swrite o))) ∧
       (n = 0x11 →
         ∃ t, exec (.swrite o) s = .next t ∧ { t with sys := s.sys } = s ∧ i.AllAt t (i.e.pc + 4) ∧
           (∀ l, l < 32 → i.fIn t l = if i.on o.g l then (i.v l o.d.toNat).setWidth 5 else i.fstat l) ∧
           (∀ l r, l < 32 → r < 128 → i.vIn t l r = i.held l r)) ∧
       (n = 0x12 → put (fun g => { g with regs := { g.regs with mpb := (mpb >>> 32).setWidth 32 ++ x } })) ∧
       (n = 0x13 → put (fun g => { g with regs := { g.regs with mpb := x ++ mpb.setWidth 32 } })) ∧
       (n = 0x14 → put (fun g => { g with tapeb := (i.g.tapeb >>> 32).setWidth 32 ++ x })) ∧
       (n = 0x15 → put (fun g => { g with tapeb := x ++ i.g.tapeb.setWidth 32 })) ∧
       (n = 0x16 → put (fun g => { g with tapel := x &&& ~~~7 })) ∧
       (n = 0x17 → put (fun g => { g with regs := { g.regs with tapep := x &&& ~~~7 } }))) ∧
     (i.cp = true → i.act o.g ≠ 0 →
       let x := i.v64 0 o.d.toNat
       let put := fun (f : Cp → Cp) => nothing { s with sys := s.sys.modCp i.core f }
       (n = 0x10 → x.toNat % 8 ≤ 4 → put (fun c => { c with frm := x.setWidth 3 })) ∧
       (n = 0x11 → put (fun c => { c with fstat := x.setWidth 5 })) ∧
       (n = 0x28 → put (fun c => { c with cptvec := x &&& ~~~3 })) ∧
       (n = 0x2A → 64 ≤ x.toNat → x.toNat ≤ 65535 →
         nothing { s with sys := s.sys.modCore i.core (fun k => { k with bintime := x.toNat }) }) ∧
       (n = 0x2B → 1024 ≤ x.toNat → x.toNat ≤ 16777216 → put (fun c => { c with parkthr := x.toNat })) ∧
       ((0x20 ≤ n ∧ n ≤ 0x27) ∨ n = 0x29 ∨ (0x2C ≤ n ∧ n ≤ 0x2F) ∨ (n = 0x10 ∧ 4 < x.toNat % 8) ∨
         (n = 0x2A ∧ ¬ (64 ≤ x.toNat ∧ x.toNat ≤ 65535)) ∨ (n = 0x2B ∧ ¬ (1024 ≤ x.toNat ∧ x.toNat ≤ 16777216)) →
         i.DoesNothing s (.swrite o))))

/-- R265: QREAD and QSUB write one quarantined register, once for the group; R220: ADMODE sets ADM when every lane of the group issues it;
R372: CPOST appends an entry to the mailbox of its core's control processor, once, while it holds fewer than 64. -/
def Obligations.QuarantineModeAndMail : Prop :=
  ∀ (s : State) (i : Iss), issuer s = some i → i.cp = false →
    let nothing := fun (s' : State) (x : Instr) => i.DoesIn s s' x (fun _ _ => none) (fun _ => none) (fun _ _ => none) (fun _ => 0)
    (∀ o : FormQ, i.passes s { g := o.g, s := o.s, agents := .groupOnly, bad := 7 < o.d.toNat || 7 < o.a.toNat } →
      (i.act o.g = 0 → i.DoesNothing s (.qread o) ∧ i.DoesNothing s (.qsub o)) ∧
      (i.act o.g ≠ 0 →
        let put := fun (x : Instr) (v : DWord) =>
          nothing { s with sys := s.sys.modGroup i.g.handle (fun g => { g with q := sset g.q o.d.toNat v }) } x
        let n := o.a.toNat
        put (.qsub o) (sget i.g.q o.d.toNat - sget i.g.q n) ∧
        (n = 0 → put (.qread o) (BitVec.ofNat 64 s.sys.clocks)) ∧ (n = 1 → put (.qread o) (BitVec.ofNat 64 s.gtime)) ∧
        (n = 2 → put (.qread o) (BitVec.ofNat 64 i.core)) ∧ (n = 3 → put (.qread o) (BitVec.ofNat 64 (coreCluster i.core))) ∧
        (n = 4 → put (.qread o) (BitVec.ofNat 64 (i.core / 64))) ∧ (n = 5 → put (.qread o) (BitVec.ofNat 64 i.g.slot)) ∧
        (n = 6 → put (.qread o) (s.sys.phys.setWidth 64)) ∧ (n = 7 → put (.qread o) (BitVec.ofNat 64 i.g.parks)))) ∧
    (∀ o : FormD, i.passes s { g := 7, s := o.s, agents := .groupOnly, bad := 2 < o.d.toNat, drained := true } →
      i.g.lanes &&& ~~~i.e.mask = 0 →
      (i.act 7 = 0 → i.DoesNothing s (.admode o)) ∧
      (i.act 7 ≠ 0 → nothing { s with sys := s.sys.modGroup i.g.handle (fun g => { g with adm := o.d.setWidth 2 }) } (.admode o))) ∧
    (∀ o : FormA,
      let a := o.a.toNat
      i.passes s { g := o.g, s := o.s, agents := .groupOnly, src := [a, a + 1], even := [a], once := true, drained := true } →
      (i.first? o.g = none → i.DoesNothing s (.cpost o)) ∧
      (∀ l, i.first? o.g = some l → (s.sys.core i.core).mailbox.length < 64 →
        nothing { s with sys := s.sys.modCore i.core (fun k => { k with mailbox := k.mailbox ++
          [{ handle := i.g.handle, lo := i.v l a, hi := i.v l (a + 1), mask := i.real (i.act o.g)
             launchId := match i.launch with | some u => u.record.launchId | none => 0 }] }) } (.cpost o)))

/-- R370 and R371 with R121: STRAP and BREAK trap the non-helper lanes whose guard holds at the next word, in one entry with the helper lanes
of their quads; the other lanes go on. No Error Address Log record is written and nothing else changes. BREAK on the control processor waits
in its own place of the trap queue. -/
def Obligations.ServiceCallsAndBreakpoints : Prop :=
  ∀ (s : State) (i : Iss), issuer s = some i →
    let stops := fun (x : Instr) (cause : Cause) (lanes : LaneMask) =>
      let whole := i.e.mask &&& maskOf (fun l => lanes.getLsbD (i.g.leader l))
      ∃ t, exec x s = .next t ∧ i.Frame s t ∧
        i.Changes t (fun _ _ => none) (fun _ => none) (fun _ _ => none) (fun _ => 0) ∧
        (∀ l, l < 32 → i.e.mask.getLsbD l = true →
          if whole.getLsbD l then i.laneAt t l (i.e.pc + 4) (fun e => e.mask = whole ∧ ∃ r, e.st = .trapped r ∧ r.cause = cause ∧
            r.pc = i.e.pc + 4 ∧ r.lanes = lanes ∧ r.whole = whole ∧ r.addr = 0 ∧ r.ealcnt = 0 ∧ r.insn = s.sys.insn ∧ r.taken = false)
          else i.laneAt t l (i.e.pc + 4))
    (∀ o : FormTF, i.cp = false →
      let lanes := i.real (i.act o.g)
      i.passes s { g := o.g, s := o.s, agents := .groupOnly, src := regRange o.d.toNat 6, drained := lanes != 0 } →
      (lanes = 0 → i.DoesNothing s (.strap o)) ∧ (lanes ≠ 0 → stops (.strap o) .strap lanes)) ∧
    (∀ o : FormA, i.passes s { g := o.g, s := o.s } →
      let lanes := i.real (i.act o.g)
      (lanes = 0 → i.DoesNothing s (.brk o)) ∧ (i.cp = false → lanes ≠ 0 → stops (.brk o) .brk lanes) ∧
      (i.cp = true → lanes ≠ 0 →
        ∃ t, exec (.brk o) s = .next t ∧ { t with sys := s.sys } = s ∧ { t.sys with cores := s.sys.cores } = s.sys ∧
          (∀ c, c ≠ i.core → t.sys.core c = s.sys.core c) ∧
          (t.sys.core i.core).trapq = (s.sys.core i.core).trapq ++ [.cp i.core] ∧ (i.cpIn t).pc = i.e.pc + 4 ∧
          (∃ r, (i.cpIn t).ownTrap = some r ∧ r.cause = .brk ∧ r.pc = i.e.pc + 4 ∧ r.lanes = 1 ∧ r.addr = 0 ∧ r.ealcnt = 0 ∧
            r.insn = s.sys.insn) ∧
          { i.cpIn t with pc := i.c.pc, ownTrap := i.c.ownTrap, hints := i.c.hints } = i.c))

/-- R89 and R99: GROW waits in the order of its quadrant, and changes nothing else until it is granted; SHRINK gives the highest registers
back.
R91: a thread goes into a filling bin of its launch and entry offset that has room and time left, or starts a free bin; the 32nd closes its
bin, and so does BINTIME.
R100: SPAWN places the threads of the non-helper lanes by rising lane and writes 0, or 1 where no bin takes the thread; it writes 2 in a
deterministic launch and 3 in a helper lane.
R96 with R73, R95, R132 and R137: LAUNCH and LAUNCHW place the record of each non-helper lane in the pending-launch store, with the parent's
LAUNCHID in it and its VF's heap window, and write 0; 2 for a record that R73 refuses, 3 in a helper lane. Where the store is full, or
others wait for it, LAUNCH writes 1, and LAUNCHW waits. -/
def Obligations.AllotmentAndThreads : Prop :=
  (∀ (s : State) (i : Iss) (o : FormD), issuer s = some i → i.cp = false →
     let n := 8 * o.d.toNat
     let base : Desc := { g := 7, s := o.s, agents := .groupOnly, drained := true }
     let up : Desc := { base with bad := o.d == 0 || 15 < o.d.toNat || 128 < i.g.allot + i.g.pendingGrow + n }
     let down : Desc := { base with bad := o.d == 0 || 15 < o.d.toNat || i.g.allot < n + 8 }
     (i.act 7 = 0 → (i.passes s up → i.DoesNothing s (.grow o)) ∧ (i.passes s { down with hz := some 0 } → i.DoesNothing s (.shrink o))) ∧
     (i.act 7 ≠ 0 → i.passes s up →
       ∃ t, exec (.grow o) s = .next t ∧
         i.Frame { s with sys := s.sys.modCore i.core (fun k => { k with growq := k.growq ++ [(i.g.quadrant, i.g.handle, lowest i.e.mask)] }) } t ∧
         i.Changes t (fun _ _ => none) (fun _ => none) (fun _ _ => none) (fun _ => 0) ∧
         (∀ l, l < 32 → i.e.mask.getLsbD l = true → i.laneAt t l i.e.pc (fun e => e.st = .grow n o.s))) ∧
     (i.act 7 ≠ 0 → i.passes s { down with src := regRange (i.g.allot - n) n, hz := some ((regRange (i.g.allot - n) n).foldl (fun (m : LaneMask) r => m ||| sget i.g.regs.pend r) 0) } →
       ∃ t, exec (.shrink o) s = .next t ∧ { t with sys := s.sys } = s ∧ i.AllAt t (i.e.pc + 4) ∧ (i.groupIn t).allot = i.g.allot - n ∧
         (∀ l r, l < 32 → r < i.g.allot - n → i.vIn t l r = i.held l r) ∧ (∀ r, r < 128 → i.kIn t r = i.k r) ∧
         { i.groupIn t with allot := i.g.allot, regs := i.g.regs, frontier := i.g.frontier, window := i.g.window, nextSeq := i.g.nextSeq } = i.g ∧
         { t.sys with groups := s.sys.groups } = s.sys ∧ (∀ h, h ≠ i.g.handle → t.sys.group? h = s.sys.group? h))) ∧
  ((∀ (c : Core) (now launch : Nat) (entry : Word) (args : List Word),
     let takes := fun (b : Bin) => b.st = .filling ∧ now < b.since + b.limit ∧ b.launch = launch ∧ b.entryOfs = entry ∧ b.threads.length < 32
     let timed := fun (b : Bin) => if b.st = .filling ∧ b.since + b.limit ≤ now then { b with st := .closed } else b
     (∀ c', c.spawn now launch entry args = some c' →
       { c' with bins := c.bins } = c ∧
       ∃ n b, (((n, b) ∈ c.bins ∧ takes b) ∨ (n < 16 ∧ (tget c.bins n {}).st = .free ∧ b.launch = launch ∧ b.entryOfs = entry ∧
           b.since = now ∧ b.limit = c.bintime ∧ b.threads = [])) ∧
         tget c'.bins n {} = { b with threads := b.threads ++ [args], st := if b.threads.length = 31 then .closed else .filling } ∧
         ∀ m, m ≠ n → tget c'.bins m {} = timed (tget c.bins m {})) ∧
     (c.spawn now launch entry args = none ↔ (∀ b ∈ c.bins, ¬ takes b.2) ∧ ∀ n, n < 16 → (tget c.bins n {}).st ≠ .free)) ∧
   (∀ (s : State) (i : Iss) (o : FormTF), issuer s = some i → i.cp = false →
     let a := o.a.toNat
     let real := lanesOf (i.real (i.act o.g))
     let put := fun (c : Core) (l : Nat) => c.spawn s.sys.clocks i.g.launch (i.v l a) ((regRange (a + 1) 4).map (i.v l))
     let upTo := fun (l : Nat) => (real.filter (fun m => m < l)).foldl (fun c m => (put c m).getD c) (s.sys.core i.core)
     i.passes s { g := o.g, s := o.s, src := regRange a 5, dst := [o.d.toNat], agents := .groupOnly, bad := 123 < a
                  drained := true } →
     (∀ l ∈ real, (i.v l a).toNat % 4 = 0) →
     ∃ t, exec (.spawn o) s = .next t ∧ { t with sys := s.sys } = s ∧ i.AllAt t (i.e.pc + 4) ∧
       t.sys.core i.core = (if i.det then s.sys.core i.core else upTo 32) ∧ (∀ c, c ≠ i.core → t.sys.core c = s.sys.core c) ∧
       { t.sys with groups := s.sys.groups, cores := s.sys.cores } = s.sys ∧ (∀ h, h ≠ i.g.handle → t.sys.group? h = s.sys.group? h) ∧
       i.Changes t (fun l r => if i.on o.g l ∧ r = o.d.toNat then
           some (if i.g.helpers.getLsbD l then 3 else if i.det then 2 else if (put (upTo l) l).isSome then 0 else 1) else none)
         (fun _ => none) (fun _ _ => none) (fun _ => 0))) ∧
  (∀ (s : State) (i : Iss) (o : FormTF) (u : Launch) (b : Nat → List Byte), issuer s = some i → i.cp = false → i.launch = some u →
     let a := o.a.toNat
     let d := o.d.toNat
     let ptr := fun (l : Nat) => (i.v64 l a).toNat
     let real := fun (l : Nat) => i.on o.g l = true ∧ i.g.helpers.getLsbD l = false
     let stored := (s.sys.launches.filter (fun x => x.part == i.part && x.inStore)).length
     let w := (s.sys.vf i.vf).heap
     let valid := fun (l : Nat) => (checkRecord s.sys i.part i.vf w false (i.reader s w) (ptr l) (recordOf (b l))).1
     let child := fun (l : Nat) => { recordOf (b l) with
       parentId := u.record.launchId, bytes := (b l).take 0x44 ++ bytesOf 4 u.record.launchId.toNat ++ (b l).drop 0x48 }
     let waits := ∃ x ∈ s.sys.storeWaits, x.part = i.part
     let status := fun (t : State) (ok : Option DWord) =>
       i.Changes t (fun l r => if i.on o.g l ∧ r = d then
           if i.g.helpers.getLsbD l then some 3 else match valid l with | .error _ => some 2 | .ok _ => ok
         else none) (fun _ => none) (fun _ _ => none) (fun _ => 0)
     let frame := fun (t : State) => { t with sys := s.sys } = s ∧ i.AllAt t (i.e.pc + 4) ∧
       { t.sys with groups := s.sys.groups, launches := s.sys.launches, launched := s.sys.launched, storeWaits := s.sys.storeWaits
                    parts := s.sys.parts, vfs := s.sys.vfs, nextId := s.sys.nextId, frames := s.sys.frames
                    corrected := s.sys.corrected, dies := s.sys.dies } = s.sys ∧ (∀ h, h ≠ i.g.handle → t.sys.group? h = s.sys.group? h)
     i.passes s { g := o.g, s := o.s, src := [a, a + 1], dst := [d], even := [a], agents := .groupOnly, drained := true } →
     (∀ l, real l → isHeapPtr (ptr l) = true ∧ ptr l % 128 = 0 ∧ u.heap.inside (offsetOf (ptr l)) 128 = true ∧
       i.reader s u.heap (offsetOf (ptr l)) 128 = .ok (b l)) →
     (stored + 32 ≤ 4096 → ¬ waits → ∀ x ∈ [Instr.deviceLaunch o, .launchw o],
       ∃ t, exec x s = .next t ∧ frame t ∧ status t (some 0) ∧
         ∀ l, real l → ∀ consts prio, valid l = .ok (consts, prio) →
           ∃ n ∈ t.sys.launches, n.record = child l ∧ n.consts = consts ∧ n.prio = prio ∧
             n.inStore = true ∧ n.part = i.part ∧ n.vf = i.vf ∧ n.heap = w ∧ n.placed = 0) ∧
     (4096 ≤ stored ∨ waits →
       (∃ t, exec (.deviceLaunch o) s = .next t ∧ frame t ∧ status t (some 1) ∧ t.sys.launches = s.sys.launches) ∧
       (∃ t, exec (.launchw o) s = .next t ∧ frame t ∧ status t none ∧ t.sys.launches = s.sys.launches ∧
         ∀ l, real l → ∀ consts prio, valid l = .ok (consts, prio) →
           ∃ x ∈ t.sys.storeWaits, x.lane = l ∧ x.group = i.g.handle ∧ x.reg = d ∧ x.hostCmd = none ∧
             x.record = child l ∧ x.consts = consts ∧ x.prio = prio ∧ x.part = i.part ∧ x.vf = i.vf)))

/-! ### The control processor's words -/

/-- R373 and R380-R385 with R388: the control processor serves the groups of its core. A status in x[D] says 0 done, 1 no such group, 2 not held
(or a matrix result outstanding), 3 a bad selector or no trap taken, 4 no park slot; every other register of the control processor stays. A
word whose guard fails does nothing.
R386: SVCPOST queues a request with six argument words of each named lane, from register B of the code word, under the next SVCSEQ of the
VF. R387: SVCTAKE stores the oldest matched reply in 16-byte pieces and retires its request; with none it writes 0. -/
def Obligations.ControlProcessorService : Prop :=
  (∀ (s : State) (i : Iss), issuer s = some i → i.cp = true →
     let sets := fun (s' : State) (x : Instr) (ws : List (Nat × DWord)) =>
       i.DoesIn s s' x (fun _ r => (ws.find? (fun w => w.1 == r)).map Prod.snd) (fun _ => none) (fun _ _ => none) (fun _ => 0)
     let held := fun (h : DWord) (n : Nat) =>
       (n = 1 ∧ s.sys.served i.core h = none) ∨
       (n = 2 ∧ ∃ g, s.sys.served i.core h = some g ∧ ¬ (g.held = true ∧ g.mmas = [] ∧ g.mmaj = none))
     let ready := fun (h : DWord) (g : Group) => s.sys.served i.core h = some g ∧ g.held = true ∧ g.mmas = [] ∧ g.mmaj = none
     (∀ o : FormDG, i.passes s { g := o.g, s := o.s, agents := .cpOnly, dst := regRange o.d.toNat 3, bad := 125 < o.d.toNat } →
       let d := o.d.toNat
       let core := s.sys.core i.core
       (i.act o.g = 0 → i.DoesNothing s (.cppop o)) ∧
       (i.act o.g ≠ 0 → core.mailbox = [] → sets s (.cppop o) [(d, 0), (d + 1, 0), (d + 2, 0)]) ∧
       (i.act o.g ≠ 0 → ∀ m r, core.mailbox = m :: r →
         sets { s with sys := (s.sys.modCore i.core (fun k => { k with mailbox := r })).dropLines i.core 4 } (.cppop o)
           [(d, BitVec.ofNat 64 m.handle), (d + 1, m.hi ++ m.lo), (d + 2, m.launchId ++ m.mask)])) ∧
     (∀ o : FormTF,
       let a := o.a.toNat
       let d := o.d.toNat
       let h := i.v64 0 a
       let base : Desc := { g := o.g, s := o.s, agents := .cpOnly }
       let sel := (i.v64 0 (a + 1)).toNat
       let kind := sel % 16
       let num := sel / 16 % 256
       let lane := sel / 65536 % 32
       let fine := sel / 4096 % 16 = 0 ∧ sel / 2 ^ 21 = 0
       (i.passes s { base with src := [a, a + 1], dst := [d, d + 1], bad := 126 < a || 126 < d } →
         (i.act o.g = 0 → i.DoesNothing s (.gread o)) ∧
         (i.act o.g ≠ 0 →
           (∀ n, held h n → sets s (.gread o) [(d, BitVec.ofNat 64 n)]) ∧
           (∀ g, ready h g →
             let gives := fun (x : DWord) => sets s (.gread o) [(d, 0), (d + 1, x)]
             (greadValue s.sys g (selectorOf (i.v64 0 (a + 1))) = none → sets s (.gread o) [(d, 3)]) ∧
             (fine → g.lanes.getLsbD lane = true → num < g.allot → kind = 0 → gives ((sget g.regs.v (lane * 128 + num)).setWidth 64)) ∧
             (fine → num < 128 → kind = 1 → gives ((sget g.regs.k num).setWidth 64)) ∧
             (fine → g.lanes.getLsbD lane = true → num < 63 → kind = 2 → gives (if (sget g.regs.p num).getLsbD lane then 1 else 0)) ∧
             (fine → ∀ e, g.ordered[num]? = some e →
               (kind = 4 → gives (BitVec.ofNat 64 (e.pc.toNat + (s.sys.prio g e.pc).toNat * 2 ^ 32 + e.st.code * 2 ^ 48))) ∧
               (kind = 5 → gives (e.j ++ e.mask))) ∧
             (fine → num < 8 → kind = 6 → gives (sget g.q num))))) ∧
       (i.passes s { base with src := [a, a + 1, d + 1], dst := [d], bad := 126 < a || 126 < d } →
         (i.act o.g = 0 → i.DoesNothing s (.gwrite o)) ∧
         (i.act o.g ≠ 0 →
           (∀ n, held h n → sets s (.gwrite o) [(d, BitVec.ofNat 64 n)]) ∧
           (∀ g, ready h g →
             let x := i.v64 0 (d + 1)
             (gwriteGroup g (selectorOf (i.v64 0 (a + 1))) x = none → sets s (.gwrite o) [(d, 3)]) ∧
             (kind ≠ 4 → ∀ n, gwriteGroup g (selectorOf (i.v64 0 (a + 1))) x = some n →
               sets { s with sys := s.sys.modGroup g.handle (fun _ => n) } (.gwrite o) [(d, 0)]) ∧
             (fine → kind = 4 → x.toNat % 4 = 0 → ∀ e, g.ordered[num]? = some e →
               let n := { g with frontier := g.others e ++ [{ e with pc := x.setWidth 32, hints := {} }], matrix := g.matrix.filter (fun l => !l.undone) }
               let y := s.sys.modGroup g.handle (fun _ => n)
               let left := s.sys.accesses.filter (fun y => !(y.who == .group g.handle && y.undone && !y.isFlight))
               sets { s with sys := { y with accesses := left } } (.gwrite o) [(d, 0)])))) ∧
       (i.passes s { base with src := [a, a + 1], dst := [d], bad := 126 < a } →
         (i.act o.g = 0 → i.DoesNothing s (.gresume o)) ∧
         (i.act o.g ≠ 0 →
           (∀ n, held h n → sets s (.gresume o) [(d, BitVec.ofNat 64 n)]) ∧
           (∀ g, ready h g →
             let m : LaneMask := (i.v64 0 (a + 1)).setWidth 32
             let taken := fun (e : Entry) => ∃ r, e.st = .trapped r ∧ r.taken = true ∧ e.mask &&& ~~~g.helpers &&& ~~~m = 0
             ((∀ e ∈ g.frontier, ¬ taken e) → g.gpark = false → sets s (.gresume o) [(d, 3)]) ∧
             ((∃ e ∈ g.frontier, taken e) ∨ g.gpark = true →
               ∃ t, exec (.gresume o) s = .next t ∧ { t with sys := s.sys } = s ∧ (i.cpIn t).pc = i.e.pc + 4 ∧ i.xIn t d = 0 ∧
                 (∀ r, r < 128 → r ≠ d → i.xIn t r = i.v64 0 r) ∧
                 ∃ n, t.sys.group? g.handle = some n ∧ n.gpark = false ∧
                   ∀ e ∈ g.frontier, taken e → ∀ l, e.mask.getLsbD l = true →
                     ∃ f ∈ n.frontier, f.mask.getLsbD l = true ∧ f.st = .ready ∧ f.pc = e.pc)))) ∧
       (i.passes s { base with src := [a], dst := [d] } →
         (i.act o.g = 0 → i.DoesNothing s (.gkill o) ∧ i.DoesNothing s (.gpark o)) ∧
         (i.act o.g ≠ 0 →
           (∀ n, held h n → sets s (.gkill o) [(d, BitVec.ofNat 64 n)]) ∧
           (∀ g, ready h g → sets { s with sys := s.sys.killGroup g.handle } (.gkill o) [(d, 0)]) ∧
           (s.sys.served i.core h = none → sets s (.gpark o) [(d, 1)]) ∧
           (∀ g, s.sys.served i.core h = some g →
             (g.offCore.isSome → sets { s with sys := s.sys.modGroup g.handle (fun x => { x with gpark := true }) } (.gpark o) [(d, 0)]) ∧
             (g.offCore = none → s.sys.freePark i.core = none → sets s (.gpark o) [(d, 4)]) ∧
             (g.offCore = none → (s.sys.freePark i.core).isSome →
               exec (.gpark o) s = .next { s with sys := s.sys.modCp i.core (fun c =>
                 { c with gparkWait := some (g.handle, d), pend := if o.s then [] else c.pend }) }))))) ∧
     (∀ o : FormG, i.passes s { g := o.g, s := o.s, agents := .cpOnly, bad := i.cp && !i.c.intrap } →
       (i.act o.g = 0 → i.DoesNothing s (.cpret o)) ∧
       (i.act o.g ≠ 0 →
         ∃ t, exec (.cpret o) s = .next t ∧ { t with sys := s.sys } = s ∧ { t.sys with cores := s.sys.cores } = s.sys ∧
           (∀ c, c ≠ i.core → t.sys.core c = s.sys.core c) ∧ { t.sys.core i.core with cp := i.c } = s.sys.core i.core ∧
           (i.cpIn t).intrap = false ∧ (i.cpIn t).pc = i.c.saved ∧
           { i.cpIn t with intrap := i.c.intrap, pend := i.c.pend, pc := i.c.pc, hints := i.c.hints, holds := i.c.holds,
                           delay := i.c.delay, nextSeq := i.c.nextSeq } = i.c ∧
           i.Changes t (fun _ _ => none) (fun _ => none) (fun _ _ => none) (fun _ => 0)))) ∧
  (∀ (s : State) (i : Iss) (o : FormTF), issuer s = some i → i.cp = true →
     let a := o.a.toNat
     let d := o.d.toNat
     let sets := fun (s' : State) (x : Instr) (ws : List (Nat × DWord)) =>
       i.DoesIn s s' x (fun _ r => (ws.find? (fun w => w.1 == r)).map Prod.snd) (fun _ => none) (fun _ _ => none) (fun _ => 0)
     let base : Desc := { g := o.g, s := o.s, agents := .cpOnly }
     (i.passes s { base with src := [a, a + 1], dst := [d], bad := 126 < a } →
       (i.act o.g = 0 → i.DoesNothing s (.svcpost o)) ∧
       (i.act o.g ≠ 0 → ∀ n, s.sys.heldGroup i.core (i.v64 0 a) = .error n → sets s (.svcpost o) [(d, BitVec.ofNat 64 n)]) ∧
       (i.act o.g ≠ 0 → ∀ g, s.sys.heldGroup i.core (i.v64 0 a) = .ok g →
         let x := (i.v64 0 (a + 1)).toNat
         let b := x / 2 ^ 16 % 128
         let m := BitVec.ofNat 32 (x / 2 ^ 32)
         let inTrap := ∃ e ∈ g.frontier, ∃ r, e.st = .trapped r ∧ r.taken = true ∧ m &&& ~~~e.mask = 0
         let fine := m ≠ 0 ∧ inTrap ∧ b + 5 < g.allot ∧ x / 2 ^ 23 % 2 ^ 9 = 0
         (¬ fine → sets s (.svcpost o) [(d, 3)]) ∧
         (fine → s.sys.svcOut g = true ∨ 64 ≤ i.c.svc.length → sets s (.svcpost o) [(d, 4)]) ∧
         (fine → s.sys.svcOut g = false → i.c.svc.length < 64 → ∀ u, s.sys.launch? g.launch = some u →
           let seq := (s.sys.vf u.vf).svcseq
           sets { s with sys := ((s.sys.modPart u.part (fun p => { p with svcq := p.svcq ++
               [{ vf := u.vf, core := i.core, seq := seq, launchId := u.record.launchId, code := BitVec.ofNat 16 x, handle := g.handle, mask := m,
                  args := (lanesOf m).map (fun l => (l, (List.range 6).map (fun j => sget g.regs.v (l * 128 + b + j)))) }] })).modVf u.vf
             (fun v => { v with svcseq := v.svcseq + 1 })).modCp i.core (fun c => { c with svc := c.svc ++
               [{ seq := seq, vf := u.vf, handle := g.handle, mask := m, base := b, code := BitVec.ofNat 16 x }] }) }
             (.svcpost o) [(d, 0)]))) ∧
     (i.passes s { base with src := [a], dst := [d, d + 1], bad := 126 < d } →
       (i.act o.g = 0 → i.DoesNothing s (.svctake o)) ∧
       (i.act o.g ≠ 0 → i.c.replies = [] → sets s (.svctake o) [(d, 0)]) ∧
       (i.act o.g ≠ 0 → i.firstTime s → ∀ r q, i.c.replies = r :: q →
         let p := (i.v64 0 a).toNat
         i.bufFail s.sys [0, 2, 3] .store p r.bytes.length 16 = none →
         ∃ t, exec (.svctake o) s = .next t ∧ { t with sys := s.sys } = s ∧ (i.cpIn t).pc = i.e.pc + 4 ∧
           (i.cpIn t).replies = q ∧ (i.cpIn t).svc = i.c.svc.filter (fun x => !(x.seq == r.seq && x.vf == r.vf)) ∧
           i.Changes t (fun _ n => if n = d then some (BitVec.ofNat 64 r.handle)
               else if n = d + 1 then some ((r.status &&& 1) ++ r.mask) else none) (fun _ => none) (fun _ _ => none) (fun _ => 0) ∧
           (∀ j, j < r.bytes.length / 16 → ∀ goesTo key, i.target s.sys (p + 16 * j) 16 = some (goesTo, key) →
             ∃ x ∈ t.sys.accesses, i.Answers { lane := 0, lanes := 1, wait := 0, op := .store (slice r.bytes (16 * j) 16), ptr := p + 16 * j,
                                               target := goesTo, key := key, dest := .none } x))))

/-- R174 and R374-R377 with R173, R230 and R237: COPY, CHOPEN, ROUTE, COMBINE and DIGEST read their record, start a command and write its
handle to x[D]; a record that breaks a rule completes INVALID. R184 and R185: CHOPEN opens its channel, and CHCLOSE closes it and stops its
command. R378 and R379: CMDSTAT and CMDCANCEL.
R192: SNAP with a descriptor that R190 and R191 accept asks the coordinator for a colour and waits for its answer in x[D] and x[D+1]; one
they refuse completes at once with status 3. R193: SNAPST writes the state of a colour, 0 in a deterministic launch. -/
def Obligations.EngineWords : Prop :=
  (∀ (s : State) (i : Iss), issuer s = some i → i.cp = true →
     let sets := fun (s' : State) (x : Instr) (ws : List (Nat × DWord)) =>
       i.DoesIn s s' x (fun _ r => (ws.find? (fun w => w.1 == r)).map Prod.snd) (fun _ => none) (fun _ _ => none) (fun _ => 0)
     (∀ (o : FormTF) (b : List Byte),
       let a := o.a.toNat
       let d := o.d.toNat
       let p := (i.v64 0 a).toNat
       let ctx := (i.newCmd s.sys .copy p b).1.ctx
       let handle := s.sys.nextId
       let starts := fun (x : Instr) (kind : CmdKind) (spaces : List Nat) (pieces : Nat) (two : Bool) (fine : Prop) (bar : Nat)
           (opens : Nat → Sys → Prop) =>
         i.passes s { g := o.g, s := o.s, src := if two then [a, a + 1] else [a], dst := [d], agents := .cpOnly,
                      bad := two && 126 < a } →
         (i.act o.g = 0 → i.DoesNothing s x) ∧
         (i.act o.g ≠ 0 → spaceOf p ∈ spaces →
           (i.ctx s.sys).failure s.sys 0 .load (64 * pieces) 64 { lane := 0, base := p, ea := p } = none → s.sys.openCmds i.core < 64 → s.sys.cpQuiet i.core = true →
           readRecord s (i.ctx s.sys) p pieces = .ok b → fine →
           ∀ at_, (bar = 0 ∨ ∃ f k, (i.engineCtx s.sys).place s.sys 0 bar 16 = .home f k ∧ (readBar s.mem f).inv = false ∧
             s.sys.watchFree f = true ∧ at_ = some f) → (bar = 0 → at_ = none) →
           ∃ t, exec x s = .next t ∧ { t with sys := s.sys } = s ∧ (i.cpIn t).pc = i.e.pc + 4 ∧
             i.Changes t (fun _ r => if r = d then some (BitVec.ofNat 64 handle) else none) (fun _ => none) (fun _ _ => none) (fun _ => 0) ∧
             { t.sys with cores := s.sys.cores, cmds := s.sys.cmds, nextId := s.sys.nextId, pins := s.sys.pins } = s.sys ∧
             (∃ c, t.sys.cmds = s.sys.cmds ++ [c] ∧ c.handle = handle ∧ c.kind = kind ∧ c.core = i.core ∧ c.part = i.part ∧ c.vf = i.vf ∧
               c.record = b ∧ c.ptr = BitVec.ofNat 64 p ∧ c.status = .running ∧ c.ecause = none ∧ c.bar = at_) ∧
             opens handle t.sys)
       let refuses := fun (x : Instr) (spaces : List Nat) (pieces : Nat) (two : Bool) (bad : Option (Nat × Cause)) =>
         i.passes s { g := o.g, s := o.s, src := if two then [a, a + 1] else [a], dst := [d], agents := .cpOnly,
                      bad := two && 126 < a } →
         i.act o.g ≠ 0 → spaceOf p ∈ spaces →
         (i.ctx s.sys).failure s.sys 0 .load (64 * pieces) 64 { lane := 0, base := p, ea := p } = none → s.sys.openCmds i.core < 64 → s.sys.cpQuiet i.core = true →
         readRecord s (i.ctx s.sys) p pieces = .ok b → s.sys.cmd? handle = none → ∀ n why, bad = some (n, why) →
         ∃ t, exec x s = .next t ∧ (i.cpIn t).pc = i.e.pc + 4 ∧ i.xIn t d = BitVec.ofNat 64 handle ∧
           (t.sys.part i.part).ealcnt = (s.sys.part i.part).ealcnt + 1 ∧
           (∃ r, (t.sys.part i.part).eal.head? = some r ∧ r.cause = BitVec.ofNat 8 why.code ∧ r.rkind = 2 ∧
             r.addr = BitVec.ofNat 64 p + BitVec.ofNat 64 n)
       let chan := (i.v64 0 (a + 1)).toNat % 4
       let sh := shapeOf b
       let r := routingOf b
       let q := s.sys.part i.part
       let routed := fun (route : Bool) => ∃ ex, (∀ z ∈ routingChecks s.sys ctx route b, z.1 = true) ∧
         readExperts s ctx r.extab r.e = .ok ex ∧ expertsFail q.joined r.extab ex r.e = none ∧
         (route = true → q.chip.toNat ∈ q.groupMembers r.cgroup)
       starts (.copy o) .copy [0, 2, 3] 2 false (sh.fails s ctx = none) sh.bar (fun _ _ => True) ∧
       refuses (.copy o) [0, 2, 3] 2 false (sh.fails s ctx) ∧
       starts (.chopen o) (.channel chan) [0, 2, 3] 2 true
         (sh.fails s ctx = none ∧ sh.channelFails = none ∧ (tget (s.sys.core i.core).channels chan {}).isOpen = false ∧
           s.sys.cmd? handle = none) sh.bar
         (fun h y => tget (y.core i.core).channels chan {} = { isOpen := true, cmd := h, wp := 0 }) ∧
       starts (.route o) .route [0, 2] 2 false (routed true) r.bar (fun _ _ => True) ∧
       starts (.combine o) .combine [0, 2] 2 false (routed false) r.bar (fun _ _ => True) ∧
       starts (.digest o) .digest [0, 2, 3] 1 false (∀ z ∈ digestChecks s.sys ctx b, z.1 = true) (field b 0x18 8) (fun _ _ => True)) ∧
     (∀ o : FormChclose, i.passes s { g := o.g, s := o.s, agents := .cpOnly } →
       let ch := tget (s.sys.core i.core).channels o.a.toNat {}
       (i.act o.g = 0 ∨ ch.isOpen = false → i.DoesNothing s (.chclose o)) ∧
       (i.act o.g ≠ 0 → ch.isOpen = true →
         let y := s.sys.modCore i.core (fun k => { k with channels := tset k.channels o.a.toNat { ch with isOpen := false } })
         sets { s with sys := y.stopCmd s.gtime ch.cmd } (.chclose o) [])) ∧
     (∀ o : FormTF, i.passes s { g := o.g, s := o.s, agents := .cpOnly, src := [o.a.toNat], dst := [o.d.toNat] } →
       let d := o.d.toNat
       let mine := s.sys.cpCmd i.core (i.v64 0 o.a.toNat)
       (i.act o.g = 0 → i.DoesNothing s (.cmdstat o) ∧ i.DoesNothing s (.cmdcancel o)) ∧
       (i.act o.g ≠ 0 →
         (mine = none → sets s (.cmdstat o) [(d, 0xFFFFFFFFFFFFFFFF)] ∧ sets s (.cmdcancel o) [(d, 2)]) ∧
         (∀ c, mine = some c →
           sets s (.cmdstat o) [(d, BitVec.ofNat 64 (c.status.code +
             (if c.status = .error then (match c.ecause with | some x => x.1.code | none => 0) else 0) * 2 ^ 8 +
             c.flags.toNat * 2 ^ 16 + min c.chunks.length (2 ^ 32 - 1) * 2 ^ 32))] ∧
           (c.status ≠ .running → c.status ≠ .faulted → sets s (.cmdcancel o) [(d, 1)]) ∧
           (c.status = .running ∨ c.status = .faulted →
             sets { s with sys := match c.kind with | .snap b => s.sys.askAbort s.gtime c.part b | _ => s.sys.stopCmd s.gtime c.handle }
               (.cmdcancel o) [(d, 0)]))))) ∧
  (∀ (s : State) (i : Iss) (o : FormTF), issuer s = some i →
     let a := o.a.toNat
     let d := o.d.toNat
     (∀ b rs, i.cp = true → i.passes s { g := o.g, s := o.s, src := [a], dst := [d, d + 1], agents := .cpOnly,
                                         bad := d % 2 == 1 } →
       let p := (i.v64 0 a).toNat
       (i.act o.g = 0 → i.DoesNothing s (.snap o)) ∧
       (i.act o.g ≠ 0 → spaceOf p = 0 → (i.ctx s.sys).failure s.sys 0 .load 64 64 { lane := 0, base := p, ea := p } = none →
         s.sys.openCmds i.core < 64 → s.sys.cpQuiet i.core = true → readRecord s (i.ctx s.sys) p 1 = .ok b →
         (snapValid s i.part i.vf (i.ctx s.sys).heap p b = .ok rs →
           let y := s.sys.modCp i.core (fun c => { c with snapWait := some d, pend := if o.s then [] else c.pend })
           let ask := { cp := some (i.core, d), host := none, reqcol := BitVec.ofNat 2 (field b 0 4 / 256), desc := b, regions := rs }
           exec (.snap o) s = .next { s with sys := y.askSnapshot s.gtime i.part ask }) ∧
         (∀ at_ why, snapValid s i.part i.vf (i.ctx s.sys).heap p b = .error (at_, why) →
           ∃ t, exec (.snap o) s = .next t ∧ (i.cpIn t).pc = i.e.pc + 4 ∧
             i.Changes t (fun _ r => if r = d then some 3 else if r = d + 1 then some (BitVec.ofNat 64 s.sys.nextId) else none)
               (fun _ => none) (fun _ _ => none) (fun _ => 0)))) ∧
     (i.passes s { g := o.g, s := o.s, src := [a], dst := [d] } →
       let code := fun (c : ColourState) => match c with | .free => 0 | .live => 1 | .localdone => 2 | .quiet => 3 | .aborting => 4
       i.WritesV s (.snapst o) o.g d (fun l =>
           if i.cp = false ∧ i.det = true then 0
           else code ((s.sys.part i.part).colour (if i.cp then (i.v64 0 a).getLsbD 0 else (i.v l a).getLsbD 0)).st) (fun _ => 0)))

/-! ### Matrix words -/

/-- R354 and R355 with R347: MMA hands the product of its fragments, summed into the accumulator that it found, to the matrix unit, and MMAJ
lends its registers and waits to join. Type I8 sums 32 products of signed bytes with wrapping; the other types sum chunk by chunk (R251). A
matrix word whose guard holds in no lane does nothing.
R357: MLOOP queues its command with the addresses of all its steps and its barrier, and its tiles are its block's. R359: OPFENCE goes on
when every MMAJ of the group has joined and every MLOOP of it has read its operands, and is held before. -/
def Obligations.MatrixProductsAndLoops : Prop :=
  (∀ (s : State) (i : Iss) (o : FormMma), issuer s = some i → i.cp = false →
     let t := o.t.toNat
     let a := o.a.toNat
     let d := o.d.toNat
     let put := fun (f : Group → Group) => ({ s with sys := s.sys.modGroup i.g.handle f } : State)
     let nothing := fun (s' : State) (x : Instr) => i.IssuesIn s s' x [] (fun _ _ => none)
     let whole := i.act o.g ≠ 0 ∧ i.g.lanes &&& ~~~i.e.mask = 0 ∧ i.matrixLine s.sys.insn = none
     let byte := fun (l r k : Nat) => ((i.v l (r + k / 4)).extractLsb' (8 * (k % 4)) 8).signExtend 32
     (i.passesMatrix s (mmaDesc o false i) →
       (i.act o.g = 0 → i.DoesNothing s (.mma o)) ∧
       (whole →
         ∃ ws, nothing (put (fun x => { x with mmas := x.mmas ++
             [{ seq := i.g.nextSeq, d := d, n := if isComplex t then 64 else 32, writes := ws }] })) (.mma o) ∧
           ∀ l c, i.g.lanes.getLsbD l = true → c < 32 →
             let row := fragK t (i.g.frag l a 8) (scalesOf t [i.g.scale l (a + 16), i.g.scale l (a + 17)] 0)
             let col := fragK t (i.g.frag c (a + 8) 8) (scalesOf t [i.g.scale c (a + 16), i.g.scale c (a + 17)] 16)
             (t < 6 → (l * 128 + d + c, accReal t (i.v l (d + c)) row col) ∈ ws) ∧
             (6 ≤ t → (l * 128 + d + c, (accComplex (i.v l (d + c)) (i.v l (d + 32 + c)) row col).1) ∈ ws ∧
               (l * 128 + d + 32 + c, (accComplex (i.v l (d + c)) (i.v l (d + 32 + c)) row col).2) ∈ ws) ∧
             (t = 4 → i.g.lanes.getLsbD c = true →
               (l * 128 + d + c, (List.range 32).foldl (fun x k => x + byte l a k * byte c (a + 8) k) (i.v l (d + c))) ∈ ws))) ∧
     (let gpb := match i.launch with | some l => l.record.gpb.toNat | none => 0
      i.passesMatrix s { mmaDesc o true i with
        bad := (mmaDesc o true i).bad || i.g.block.isNone || gpb ≤ i.g.gix / 4 * 4 + 3 } →
       (i.act o.g = 0 → i.DoesNothing s (.mmaj o)) ∧
       (whole → ∀ m f, i.readMpb s = .ok m → m.rsvd = false → m.bar ≠ 0 → i.mpbBar s.sys m.bar = .ok (some f) → i.g.mmaj = none →
         ∃ j, nothing (put (fun x => { x with mmaj := some j })) (.mmaj o) ∧
           j.jtag = BitVec.ofNat 8 m.jtag ∧ j.typ = o.t ∧ j.a = a ∧ j.d = d ∧ j.bar = BitVec.ofNat 64 m.bar ∧ j.barAddr = f ∧
           j.seq = i.g.nextSeq ∧ j.joined = false ∧ j.done = false ∧
           (∀ l r, l < 32 → r < 128 → (a ≤ r ∧ r < a + 12) ∨ (d ≤ r ∧ r < d + 64) → sget j.lent (l * 128 + r) = i.v l r)))) ∧
  (∀ (s : State) (i : Iss), issuer s = some i → i.cp = false →
     (∀ o : FormMloop,
       let t := o.t.toNat
       let tile := o.d.toNat
       let ts := if t = 6 ∨ t = 7 then [tile, tile + 1] else [tile]
       i.passesMatrix s { g := o.g, s := o.s, bad := 7 < t || (isComplex t && tile % 2 == 1) } →
       (i.act o.g = 0 → i.DoesNothing s (.mloop o)) ∧
       (i.act o.g ≠ 0 → i.g.lanes &&& ~~~i.e.mask = 0 → i.matrixLine s.sys.insn = none → ∀ m bar, i.readMpb s = .ok m → i.tileLost s.sys ts = false → m.rsvd = false →
         1 ≤ m.ksteps → m.ainc % 64 = 0 → m.binc % 64 = 0 → i.mpbBar s.sys m.bar = .ok bar →
         s.sys.tileBusy i.core ts = false → (s.sys.mloops.filter (fun x => x.core == i.core && x.quadrant == i.g.quadrant)).length < 4 →
         let size := if t = 2 then 1088 else if t = 3 then 1152 else 1024
         let step := fun (base : Nat) (inc : Int) (k : Nat) => (((base : Int) + (k : Int) * inc) % (2 ^ 64 : Int)).toNat
         let ptrs := fun (base : Nat) (inc : Int) => (List.range m.ksteps).map (step base inc)
         let flat := fun (base : Nat) (inc : Int) => (List.range m.ksteps).map (fun k =>
           (List.range (size / 64)).map (fun u => i.flatOf s.sys (step base inc k + 64 * u) 64))
         (∀ k, k < m.ksteps → ∀ p, p = step m.aaddr m.ainc k ∨ p = step m.baddr m.binc k →
           spaceOf p = 3 ∧ i.addrFail s.sys .load size 64 { lane := 0, base := p, ea := p } = none) →
         let y := i.own ts s.sys
         let c : Mloop := { id := s.sys.nextId, group := i.g.handle, gslot := i.g.slot, launch := i.g.launch, block := i.g.owner, core := i.core,
                            quadrant := i.g.quadrant, tile := tile, typ := o.t, aPtrs := ptrs m.aaddr m.ainc, bPtrs := ptrs m.baddr m.binc,
                            aSteps := flat m.aaddr m.ainc, bSteps := flat m.baddr m.binc, barPtr := m.bar, bar := bar, operands := [] }
         i.IssuesIn s { s with sys := { y with mloops := y.mloops ++ [c] } } (.mloop o) [] (fun _ _ => none))) ∧
     (∀ o : FormG, i.passesMatrix s { g := o.g, s := o.s } →
       let unjoined := ∃ m, i.g.mmaj = some m ∧ m.joined = false
       let unread := ∃ m ∈ s.sys.mloops, m.group = i.g.handle ∧ m.operands.length < m.aSteps.length
       (i.act o.g = 0 → i.DoesNothing s (.opfence o)) ∧
       (i.act o.g ≠ 0 → i.g.lanes &&& ~~~i.e.mask = 0 → i.matrixLine s.sys.insn = none →
         (¬ unjoined → ¬ unread → i.IssuesIn s s (.opfence o) [] (fun _ _ => none)) ∧
         (unjoined ∨ unread → exec (.opfence o) s = .next s))))

/-- R362 and R363 with R360: ADRAIN.R writes row l of its tile, rounded, to the registers of lane l; ADRAIN.M stores the tile's image at
DRAINP, row by row, and ADRAIN.U the sum of what stands there and ALPHA times the tile. F32 and I32 move the words of the tile as they are.
R364: AZERO clears its tile; ALOAD.R writes v[A..A+31] of lane l to row l, and zero for an absent lane; ALOAD.M asks for the bytes of the
tile at DRAINP, row r as a load of lane r. The tile becomes the issuing block's (R351). -/
def Obligations.TileReadsAndWrites : Prop :=
  (∀ (s : State) (i : Iss), issuer s = some i → i.cp = false → i.firstTime s → i.g.lanes &&& ~~~i.e.mask = 0 →
   i.matrixLine s.sys.insn = none →
     let fine := fun (m : Mpb) (tile f : Nat) (upd : Bool) (ts : List Nat) =>
       i.readMpb s = .ok m ∧ ts = (if m.cplx then [tile, tile + 1] else [tile]) ∧ i.tileLost s.sys ts = false ∧
       drainBad m tile f upd i.det = false ∧ s.sys.tileBusy i.core ts = false ∧ s.sys.tileHurt i.core ts = false
     (∀ o : FormDrainR,
       let f := o.f.toNat
       let a := o.a.toNat
       let tile := o.d.toNat
       i.passesMatrix s { g := o.g, s := o.s, dst := regRange a (drainRegs f false), mem := true, bad := f = 7 || a % 8 != 0 } →
       (i.act o.g = 0 → i.DoesNothing s (.adrainR o)) ∧
       (i.act o.g ≠ 0 → ∀ m ts n frees log, fine m tile f false ts →
         i.passesMatrix s { g := o.g, s := o.s, dst := regRange a (drainRegs f m.cplx), mem := true } →
         i.noise s m f false = .ok (n, frees, log) → i.slotFree s log →
         let row := fun (l : Nat) => (drainRow s.sys i.core tile l m f n none).1 ++ (drainRow s.sys i.core tile l m f n none).2
         i.IssuesIn s { s with sys := i.own ts s.sys } (.adrainR o) log (fun l r =>
           if i.g.lanes.getLsbD l ∧ a ≤ r ∧ r < a + drainRegs f m.cplx then
             if (f = 0 ∨ f = 6) ∧ m.cplx = false then some ((s.sys.tile i.core tile l (r - a)).setWidth 64)
             else some (BitVec.ofNat 64 (field (row l) (4 * (r - a)) 4))
           else none))) ∧
     (∀ o : FormDrain,
       let f := o.f.toNat
       let tile := o.d.toNat
       let c := i.ctx s.sys
       let drains := fun (x : Instr) (upd : Bool) =>
         i.passesMatrix s { g := o.g, s := o.s, mem := true, bad := f = 7 || (upd && (f = 5 || f = 6)) } →
         (i.act o.g = 0 → i.DoesNothing s x) ∧
         (i.act o.g ≠ 0 → ∀ m ts n frees log old ex, fine m tile f upd ts →
           let p := m.drainp
           let size := 32 * rowBytes m f
           let diff := upd && c.diffRun p size
           let rows := drainRows s.sys i.core tile m f n (if upd then some (old, ex) else none)
           let rs := log ++ (if upd then i.drainLoads s.sys c m f else []) ++ i.drainStores s.sys c m f rows (if diff then 3 else 0)
           (f = 3 ∨ f = 4 → (c.planeOf p f).isSome) →
           i.runFail s.sys .store p size (if f = 3 || f = 4 then 1 else fmtBytes (drainFmt f)) = none →
           i.noise s m f upd = .ok (n, frees, log) → (diff = true → s.sys.taped i.g.launch = false) →
           (upd = true → i.runQuiet s.sys p size = true ∧ i.readRun s p size = .ok old) →
           (upd = true → f = 3 ∨ f = 4 → ∀ e, c.planeOf p f = some e → i.runQuiet s.sys e 64 = true ∧ i.readRun s e 64 = .ok ex) →
           i.slotFree s rs →
           i.IssuesIn s { s with sys := i.own ts s.sys } x rs (fun _ _ => none) ∧
           (upd = false → f = 0 ∨ f = 6 → m.cplx = false → p % 128 = 0 → ∀ r goesTo key, r < 32 →
             i.target s.sys (p + 128 * r) 128 = some (goesTo, key) →
             ({ lane := r, lanes := laneBit r, wait := 0, ptr := p + 128 * r, target := goesTo, key := key, dest := .none,
                op := .store ((List.range 32).flatMap (fun k => bytesOf 4 (s.sys.tile i.core tile r k).toNat)) } : Req) ∈ rs))
       drains (.adrainM o) false ∧ drains (.adrainU o) true)) ∧
  (∀ (s : State) (i : Iss), issuer s = some i → i.cp = false → i.g.lanes &&& ~~~i.e.mask = 0 → i.matrixLine s.sys.insn = none →
     let sets := fun (x : Instr) (tile : Nat) (val : Nat → Nat → Word) =>
       i.tileLost s.sys [tile] = false → s.sys.tileBusy i.core [tile] = false → s.sys.tileStalls i.core tile = false →
       ∃ y, i.IssuesIn s { s with sys := i.own [tile] y } x [] (fun _ _ => none) ∧
         (∀ r c, r < 32 → c < 32 → y.tile i.core tile r c = val r c) ∧
         (∀ k t r c, r < 32 → c < 32 → t < 128 → (k ≠ i.core ∨ t ≠ tile) → y.tile k t r c = s.sys.tile k t r c)
     (∀ o : FormDG, i.passesMatrix s { g := o.g, s := o.s } →
       (i.act o.g = 0 → i.DoesNothing s (.azero o)) ∧ (i.act o.g ≠ 0 → sets (.azero o) o.d.toNat (fun _ _ => 0))) ∧
     (∀ o : FormTF, i.passesMatrix s { g := o.g, s := o.s, src := regRange o.a.toNat 32, bad := o.a.toNat % 32 != 0 } →
       (i.act o.g = 0 → i.DoesNothing s (.aloadR o)) ∧
       (i.act o.g ≠ 0 → sets (.aloadR o) o.d.toNat (fun r c => if i.g.lanes.getLsbD r then i.v r (o.a.toNat + c) else 0))) ∧
     (∀ o : FormDG, i.passesMatrix s { g := o.g, s := o.s, mem := true } →
       let tile := o.d.toNat
       (i.act o.g = 0 → i.DoesNothing s (.aloadM o)) ∧
       (i.act o.g ≠ 0 → i.firstTime s → ∀ m, i.readMpb s = .ok m →
         let ts := if m.cplx then [tile, tile + 1] else [tile]
         let size := if m.cplx then 256 else 128
         let p := m.drainp
         let id := s.sys.nextId
         let rs := i.tileLoads s.sys p size id
         i.tileLost s.sys ts = false → m.rsvd = false → (m.cplx = true → tile % 2 = 0) → i.runFail s.sys .load p (32 * size) 4 = none →
         s.sys.tileBusy i.core ts = false → i.slotFree s rs →
         let y := i.own ts s.sys
         let op := { id := id, core := i.core, tile := tile, group := i.g.handle, block := i.g.owner, seq := i.g.nextSeq, rows := [], complex := m.cplx }
         i.IssuesIn s { s with sys := { y with tileOps := y.tileOps ++ [op] } } (.aloadM o) rs (fun _ _ => none) ∧
         (m.cplx = false → p % 128 = 0 → ∀ r goesTo key, r < 32 → i.target s.sys (p + 128 * r) 128 = some (goesTo, key) →
           ∃ q ∈ rs, q.lane = r ∧ q.op = .load 128 ∧ q.ptr = p + 128 * r ∧ q.target = goesTo ∧ q.dest = .tile id (128 * r)))))

/-! ### Operations and events: power, clocks and links -/

/-- R23 and R63: power-on begins the eight steps with nothing but the memory's cells, the fused counter, the persistent configuration and the
identity of the package; step 2 completes only with firmware that passes its checks, step 3 sets GTIME to 0, steps 4 and 5 leave every HBM4E
and SRAM byte zero, step 6 loads the partition table from the persistent configuration, and step 7 waits for the first alignment where
another package is the reference. -/
def Obligations.PowerOnAndReset : Prop :=
  ∀ s : State,
    (s.sys.ev = some .powerOn → ∃ y, exec .powerOn s = .next { s with sys := y } ∧ y.resetStep = 0 ∧ y.poweredDown = false ∧
      y.parts = [] ∧ y.vfs = [] ∧ y.cores = [] ∧ y.groups = [] ∧ y.launches = [] ∧ y.cmds = [] ∧ y.hostCmds = [] ∧ y.accesses = [] ∧
      y.ports = [] ∧ y.remap = [] ∧ y.keys = [] ∧ y.ideKeys = [] ∧ y.phys = s.sys.phys ∧ y.aligned = false ∧ y.persistent = s.sys.persistent ∧
      (∀ v, s.sys.fw.pending = some v → y.fw.version = v ∧ y.fw.pending = none)) ∧
    (s.sys.ev = some .resetStepComplete → s.sys.poweredDown = false →
      let goes := fun (t : State) => exec .resetStepComplete s = .next t
      let n := s.sys.resetStep
      let up : Sys := { s.sys with resetStep := n + 1 }
      let fw := s.sys.fw
      (n = 0 ∨ n = 7 → goes { s with sys := up }) ∧
      (n = 5 → let load := fun (z : Sys) (e : Nat × List Byte) =>
          let q := (z.part e.1).ofBytes e.2
          if z.partOk e.1 q then z.putPart e.1 q else z
        goes { s with sys := s.sys.persistent.foldl load up }) ∧
      (n = 6 → (s.sys.reference = [] ∨ s.sys.isReference = true ∨ s.sys.firstAligned = true → goes { s with sys := up }) ∧
        (s.sys.reference ≠ [] → s.sys.isReference = false → s.sys.firstAligned = false → goes s)) ∧
      (8 ≤ n → goes s) ∧
      (n = 1 → (fw.digestOk = true → s.fuse ≤ fw.version → goes { s with fuse := fw.version, sys := up }) ∧
        (fw.digestOk = false ∨ fw.version < s.fuse → goes s)) ∧
      (n = 2 → goes { s with gtime := 0, boots := s.boots + 1, sys := up }) ∧
      (n = 3 ∨ n = 4 → ∃ t, goes t ∧ t.sys.resetStep = n + 1 ∧ t.gtime = s.gtime ∧ t.boots = s.boots ∧ t.fuse = s.fuse ∧
        ∀ a, readByte t.mem a = if (n = 3 ∧ isHbm a) ∨ (n = 4 ∧ isSram a) then 0 else readByte s.mem a))

/-- R19 and R20: the input voltage outside 48.0 V to 58.5 V powers the module down in order; the coolant outside its limits halves the cap in
force of every partition, and back within them restores it; over each window the dies of a partition that keeps to its cap in a module that
keeps to 3,400 W withhold no issue slot, those of one above its cap withhold more than before, and in a module above 3,400 W every partition's
withhold some, in proportion to its cap. Caps that sum to more than 3,400 W are scaled down. (That the half is taken of the cap after scaling is
the model's choice, assumption log 61; how many sixteenths are withheld is a free value.)
R19 and R62: a die above 100 °C withholds slots until it is below; a die that trips, or whose control structures fail parity, stops, Abten
records it, and its partition's work is terminated with THERMAL or ECC in the Error Address Log. R61 and R62: patrol scrub writes a corrected
word back and counts it, and logs an uncorrectable one and leaves it.
R24: each hour every die and then the module take new figures with GTIME in PEOLTIME. PEOL stays all ones until the 24th update, the
module's is the least of the dies', EMCOUNT never falls, HBMCTREND follows the errors counted, and an armed register whose PEOL lies below
PEOLWARN posts one notification and is disarmed. -/
def Obligations.PowerWearAndScrub : Prop :=
  (∀ s : State,
     let goesTo := fun (x : Instr) (y : Sys) => exec x s = .next { s with sys := y }
     let cap := fun (p : Nat) => let q := s.sys.part p
       if q.pcap = 0 then 3400 * q.dieList.length else 12 * q.pcap.toNat
     let valid := fun (p : Nat) => p < 12 ∧ (s.sys.part p).valid = true
     let sum := (((List.range 12).filter (fun p => (s.sys.part p).valid)).map cap).sum
     let scaled := fun (p : Nat) => if 12 * 3400 < sum then (cap p * 3400, sum) else (cap p, 12)
     let half := fun (c : Nat × Nat) => (c.1, 2 * c.2)
     let rest := fun (y : Sys) (p : Nat) => { y.part p with capInForce := (s.sys.part p).capInForce } = s.sys.part p
     (∀ mv, s.sys.ev = some (.inputVoltageFault mv) →
       (mv < 48000 ∨ 58500 < mv →
         goesTo .inputVoltageFault { s.sys with poweredDown := true, events := s.sys.events ++ [(.inputVoltage, mv)] }) ∧
       (48000 ≤ mv → mv ≤ 58500 → goesTo .inputVoltageFault s.sys)) ∧
     (∀ celsius ml,
       (s.sys.ev = some (.coolantFault celsius ml) → 45 < celsius ∨ ml < 2500 →
         ∃ y, goesTo .coolantFault y ∧ y.coolantFault = true ∧ { y with coolantFault := s.sys.coolantFault, parts := s.sys.parts } = s.sys ∧
           (∀ p, rest y p) ∧ ∀ p, valid p → (y.part p).capInForce = half (scaled p)) ∧
       (s.sys.ev = some (.coolantRestored celsius ml) → celsius ≤ 45 → 2500 ≤ ml →
         ∃ y, goesTo .coolantRestored y ∧ y.coolantFault = false ∧ { y with coolantFault := s.sys.coolantFault, parts := s.sys.parts } = s.sys ∧
           (∀ p, rest y p) ∧ ∀ p, valid p → (y.part p).capInForce = scaled p)) ∧
     (∀ draw, s.sys.ev = some (.powerCapWindow draw) →
       let limit := fun (p : Nat) => if s.sys.coolantFault then half (scaled p) else scaled p
       let above := fun (p : Nat) => (limit p).1 < tget draw p 0 * (limit p).2
       let total := draw.foldl (fun n d => n + d.2) 0
       let was := fun (p : Nat) => (s.sys.part p).dieList.foldl (fun m d => max m (s.sys.die d).capHeld.toNat) 0
       let most := (List.range 12).foldl (fun m p => if (s.sys.part p).valid then max m (cap p) else m) 1
       let dieOf := fun (p d : Nat) => valid p ∧ d ∈ (s.sys.part p).dieList ∧ ∀ q, valid q → d ∈ (s.sys.part q).dieList → q = p
       ∃ y, goesTo .powerCapWindow y ∧ { y with free := s.sys.free, parts := s.sys.parts, dies := s.sys.dies } = s.sys ∧ (∀ p, rest y p) ∧
         (∀ d, { y.die d with capHeld := (s.sys.die d).capHeld } = s.sys.die d) ∧
         (∀ p, valid p → (y.part p).capInForce = limit p) ∧
         (∀ p d, dieOf p d → ¬ above p → total ≤ 3400 → (y.die d).capHeld = 0) ∧
         (∀ p d, dieOf p d → above p → min 15 (was p + 1) ≤ (y.die d).capHeld.toNat) ∧
         (3400 < total → ∃ k, 1 ≤ k ∧ k ≤ 15 ∧ ∀ p d, dieOf p d →
           (k * cap p + most - 1) / most ≤ (y.die d).capHeld.toNat ∧
           (¬ above p → (y.die d).capHeld.toNat = (k * cap p + most - 1) / most)))) ∧
  (∀ s : State,
     let goesTo := fun (x : Instr) (y : Sys) => exec x s = .next { s with sys := y }
     let stops := fun (x : Instr) (d : Nat) (c : Cause) (k : MgmtEvent) => ∃ y, goesTo x y ∧ y.events = s.sys.events ++ [(k, d)] ∧
       (∀ j, y.die j = if j = d then { s.sys.die d with stopped := true } else s.sys.die j) ∧
       (s.sys.partOfDie d = none → { y with dies := s.sys.dies, events := s.sys.events } = s.sys) ∧
       (∀ p, s.sys.partOfDie d = some p →
         (s.sys.part p).ealcnt < (y.part p).ealcnt ∧
         ((∀ k ∈ s.sys.cmds, k.part = p → k.isOpen = false) → ∃ r, (y.part p).eal.head? = some r ∧
           r.cause = BitVec.ofNat 8 c.code ∧ r.rkind = 6 ∧ r.gtime = BitVec.ofNat 64 s.gtime) ∧
         (∀ l ∈ y.launches, l.part = p → l.finished = false → l.terminated = true) ∧
         (∀ w ∈ y.storeWaits, w.part ≠ p) ∧
         (∀ g ∈ y.groups, (∃ l ∈ s.sys.launches, l.uid = g.launch ∧ l.part = p ∧ l.finished = false) → g.killed = true) ∧
         (∀ k, s.sys.cmds.filter (fun x => x.handle == k.handle) = [k] → k.part = p →
           ∀ k' ∈ y.cmds, k'.handle = k.handle → k'.isOpen = false))
     (∀ d, d < 12 →
       (s.sys.ev = some (.junctionThrottle d) → ∃ y, goesTo .junctionThrottle y ∧ { y with free := s.sys.free, dies := s.sys.dies } = s.sys ∧
         1 ≤ (y.die d).heatHeld.toNat ∧
         ∀ k, y.die k = if k = d then { s.sys.die d with hot := true, heatHeld := (y.die d).heatHeld } else s.sys.die k) ∧
       (s.sys.ev = some (.junctionBelowThrottle d) → ∃ y, goesTo .junctionBelowThrottle y ∧ { y with dies := s.sys.dies } = s.sys ∧
         ∀ k, y.die k = if k = d then { s.sys.die d with hot := false } else s.sys.die k) ∧
       (s.sys.ev = some (.junctionTrip d) → stops .junctionTrip d .thermal .junctionTrip) ∧
       (s.sys.ev = some (.controlParityError d) → stops .controlParityError d .ecc .parity)) ∧
     (∀ f, s.sys.ev = some (.patrolScrub f) →
       let w := eccWord f
       (w ∈ s.sys.eccBad → ∀ p, s.sys.partOfFlat f = some p → ∃ y, goesTo .patrolScrub y ∧ y.eccBad = s.sys.eccBad ∧
         (y.part p).ealcnt = (s.sys.part p).ealcnt + 1 ∧
         ∃ r, (y.part p).eal.head? = some r ∧ r.cause = BitVec.ofNat 8 Cause.ecc.code ∧ r.rkind = 5) ∧
       (w ∉ s.sys.eccBad → w ∈ s.sys.eccCorrectable → ∃ y, goesTo .patrolScrub y ∧
         { y with dies := s.sys.dies } =
           { s.sys with eccCorrectable := s.sys.eccCorrectable.filter (fun x => x != w), corrected := s.sys.corrected + 1 } ∧
         ∀ k, y.die k = if isHbm w ∧ k = w / 2 ^ 36 then { s.sys.die k with corrected := (s.sys.die k).corrected + 1 } else s.sys.die k) ∧
       (w ∉ s.sys.eccBad → w ∉ s.sys.eccCorrectable → goesTo .patrolScrub s.sys))) ∧
  (∀ s : State, s.sys.ev = some .peolUpdate → 3600000000000 + (s.sys.wearOf 0xFFF).peoltime.toNat ≤ s.gtime → ∃ y,
     exec .peolUpdate s = .next { s with sys := y } ∧
     { y with free := s.sys.free, wear := s.sys.wear, vfs := s.sys.vfs, dies := s.sys.dies } = s.sys ∧
     (∀ d, y.die d = { s.sys.die d with corrected := if d < 12 then 0 else (s.sys.die d).corrected }) ∧
     (∀ v, { y.vf v with notifications := (s.sys.vf v).notifications } = s.sys.vf v) ∧
     ∀ n, n < 12 ∨ n = 0xFFF →
       let old := s.sys.wearOf n
       let new := y.wearOf n
       new.peoltime = BitVec.ofNat 64 s.gtime ∧ new.updates = old.updates + 1 ∧ new.peolwarn = old.peolwarn ∧
       old.emcount.toNat ≤ new.emcount.toNat ∧
       new.hbmctrend = BitVec.ofNat 32 (min 0xFFFFFFFF ((new.hours.map Prod.fst).sum * 10 ^ 12 / (new.hours.map Prod.snd).sum)) ∧
       (n < 12 → ∃ bits, new.hours = (((s.sys.die n).corrected, bits) :: old.hours).take 24) ∧
       (old.updates + 1 < 24 → new.peol = 0xFFFFFFFF) ∧
       (n = 0xFFF → 24 ≤ old.updates + 1 → (∀ d, d < 12 → new.peol.toNat ≤ (y.wearOf d).peol.toNat) ∧
         (new.peol = 0xFFFFFFFF ∨ ∃ d, d < 12 ∧ new.peol = (y.wearOf d).peol)) ∧
       (new.armed = true ↔ old.armed = true ∧ old.peolwarn.toNat ≤ new.peol.toNat) ∧
       (old.armed = true → new.peol.toNat < old.peolwarn.toNat → ∀ v ∈ s.sys.wearVfs n,
         ∃ x ∈ (y.vf v).notifications, x.kind = 2 ∧ x.data = BitVec.ofNat 64 n))

/-- R26 and R28-R31: a port whose lanes fail retrains at four or goes down; each flit slot carries a retry request, a retransmission, new
packets of a virtual channel with a credit under the next sequence number, or nothing, uses one counter value, and returns the credits owed, up
to 31 of a channel; a received slot with a bad CRC asks for a retry, one whose tag fails takes the link down and discards its keys, an unknown
type is counted, a good one's ACK and credits are taken, and a data flit in sequence delivers its packets; sixteen requests in a row retrain
the port; 2^47 slots under one key stop its direction until it is rekeyed, and each direction has its own keys.
R37 and R45 with R18: a port list is replaced as a whole; once per millisecond each port that is up exchanges stamps with its neighbour;
the four stamps of an exchange give the offset, half the difference of the two directions, which is slewed, or stepped over forward once when
this package is more than 1 ms behind and has accepted no launch; ALIGNED is set within 40 ns, and cleared with a TIMEWIDE notification after 100 ms without an
exchange. -/
def Obligations.LinksAndTime : Prop :=
  (∀ (s : State) (n : Nat), n < 18 →
     let q := s.sys.port n
     let puts := fun (x : Instr) (f : Port) => ∃ y, exec x s = .next { s with sys := y } ∧ { y with ports := s.sys.ports } = s.sys ∧
       ∀ k, y.port k = if k = n then f else s.sys.port k
     (∀ four, s.sys.ev = some (.laneFailure n four) →
       (q.lanes = 0 → exec .laneFailure s = .next s) ∧
       (q.lanes ≠ 0 → four = true → puts .laneFailure { q with lanes := 4 }) ∧
       (q.lanes ≠ 0 → four = false → ∃ y, exec .laneFailure s = .next { s with sys := y } ∧ (y.port n).lanes = 0 ∧ (y.port n).queue = [] ∧
         (y.port n).retryBuf = [] ∧ y.events = s.sys.events ++ [(.portDown, n)])) ∧
     (∀ k, s.sys.ev = some (.flitTransmit n) → q.up = true → keyInUse q.txKeys q.txKey q.txCounter = some k →
       ∃ p : Port, puts .flitTransmit p ∧ p.txCounter = q.txCounter + 1 ∧
       (∀ vc, vc < 3 → tget p.owed vc 0 = tget q.owed vc 0 - min 31 (tget q.owed vc 0)) ∧
       ∃ h us, p.sent = q.sent ++ [⟨h, us, k, q.txCounter⟩] ∧ h.ack = q.rxSeq - 1 ∧ h.keysel = q.txKey ∧ h.rsvd = 0 ∧
         h.creq.toNat = min 31 (tget q.owed 0 0) ∧ h.crsp.toNat = min 31 (tget q.owed 1 0) ∧ h.cctl.toNat = min 31 (tget q.owed 2 0) ∧
         (q.askRetry = true → h.ftype = 2 ∧ us = [] ∧ p.askRetry = false ∧ p.txSeq = q.txSeq) ∧
         (q.askRetry = false → ∀ m r, q.retryDue = m :: r → h.ftype = 1 ∧ h.seq = m ∧ p.retryDue = r ∧ p.txSeq = q.txSeq ∧
           (∀ f, q.retryBuf.find? (fun f => f.1 == m) = some f → us = f.2)) ∧
         (q.askRetry = false → q.retryDue = [] →
           (∀ x ∈ q.queue, q.credit x.vc = 0) ∨ 512 ≤ q.retryBuf.length → h.ftype = 0 ∧ us = [] ∧ p.txSeq = q.txSeq ∧ p.queue = q.queue) ∧
         (∀ x, q.askRetry = false → q.retryDue = [] → q.queue.find? (fun x => decide (0 < q.credit x.vc)) = some x → q.retryBuf.length < 512 →
           h.ftype = 1 ∧ h.seq = q.txSeq ∧ p.txSeq = q.txSeq + 1 ∧ us.length ≤ 13 ∧ p.retryBuf = q.retryBuf ++ [(q.txSeq, us)] ∧
           ∀ vc, p.credit vc = if vc = x.vc then q.credit vc - 1 else q.credit vc)) ∧
     (∀ a, s.sys.ev = some (.retryRequest n a) → q.up = true →
       let k := q.acknowledge a
       let p := { k with retryDue := k.retryBuf.map Prod.fst, retryCount := k.retryCount + 1 }
       (k.retryCount < 15 → puts .retryRequest p) ∧
       (15 ≤ k.retryCount → ∃ y, exec .retryRequest s = .next { s with sys := y } ∧ y.events = s.sys.events ++ [(.retrain, n)] ∧
         y.port n = { p with retryCount := 0 })) ∧
     (∀ x, s.sys.ev = some (.flitReceive n x) → q.up = true →
       let q1 := { q with rxCounter := q.rxCounter + 1 }
       let h := x.header
       let key := keyInUse q.rxKeys h.keysel q.rxCounter
       (x.crcGood = false → puts .flitReceive { q1 with corrupt := q.corrupt + 1, askRetry := true }) ∧
       (x.crcGood = true → (∀ k, key = some k → x.tagGood k q.rxCounter = false) →
         ∃ y, exec .flitReceive s = .next { s with sys := y } ∧ y.events = s.sys.events ++ [(.security, n)] ∧
         y.port n = { q1 with rxKeys := [], txKeys := [] } ∧ y.inbox = s.sys.inbox) ∧
       (∀ k, x.crcGood = true → key = some k → x.tagGood k q.rxCounter = true →
         let a := (q1.acknowledge h.ack).credited h
         (4 ≤ h.ftype.toNat → puts .flitReceive { q1 with corrupt := q.corrupt + 1 }) ∧
         (h.ftype = 0 ∨ h.ftype = 3 → puts .flitReceive a) ∧
         (h.ftype = 2 → ∃ y, exec .flitReceive s = .next { s with sys := y } ∧ (y.port n).retryDue = (y.port n).retryBuf.map Prod.fst ∧
           (y.port n).rxSeq = q.rxSeq ∧ y.inbox = s.sys.inbox) ∧
         (h.ftype = 1 → h.seq ≠ q.rxSeq → puts .flitReceive { a with askRetry := a.askRetry || !q.gapSeen, gapSeen := true }) ∧
         (h.ftype = 1 → h.seq = q.rxSeq →
           let ps := decodePackets 13 (x.units k q.rxCounter)
           ∃ y, exec .flitReceive s = .next { s with sys := y } ∧ (y.port n).rxSeq = q.rxSeq + 1 ∧ ((∀ p ∈ ps, p.malformed = false) →
             y.inbox = s.sys.inbox ++ ps ∧ ∀ f r, ps = f :: r → (y.port n).rxBuf = q.rxBuf ++ [(f.vc, ps)])))) ∧
     (s.sys.ev = some (.flitCounterLimit n) → puts .flitCounterLimit { q with
       txKeys := q.txKeys.filter (fun k => decide (q.txCounter < k.2.base + 2 ^ 47))
       rxKeys := q.rxKeys.filter (fun k => decide (q.rxCounter < k.2.base + 2 ^ 47)) }) ∧
     (∀ tx slot key salt, s.sys.ev = some (.linkRekey n tx slot key salt) → ∃ p : Port, puts .linkRekey p ∧ p.queue = q.queue ∧
       p.retryBuf = q.retryBuf ∧ p.txCounter = q.txCounter ∧ p.rxCounter = q.rxCounter ∧
       (tx = true → p.txKey = slot ∧ p.rxKeys = q.rxKeys ∧ p.txKeys.find? (fun k => k.1 == slot) = some (slot, ⟨key, salt, q.txCounter⟩) ∧
         ∀ k, k.1 ≠ slot → (k ∈ p.txKeys ↔ k ∈ q.txKeys)) ∧
       (tx = false → p.txKey = q.txKey ∧ p.txKeys = q.txKeys ∧ p.rxKeys.find? (fun k => k.1 == slot) = some (slot, ⟨key, salt, q.rxCounter⟩) ∧
         ∀ k, k.1 ≠ slot → (k ∈ p.rxKeys ↔ k ∈ q.rxKeys)) ∧
       (q.up = false → p.up = true → p.retryDue = q.retryBuf.map Prod.fst))) ∧
  (∀ s : State,
     (∀ phys ports direct, s.sys.ev = some (.portListWrite phys ports direct) → (∀ n ∈ ports, n < 18) →
       ∃ y, exec .portListWrite s = .next { s with sys := y } ∧ (∀ d, tget y.portLists d [] = if d = phys then ports else
         tget s.sys.portLists d []) ∧ (∀ d, d ∈ y.direct ↔ if d = phys then direct = true else d ∈ s.sys.direct) ∧
         (s.quiet → { y with portLists := s.sys.portLists, direct := s.sys.direct } = s.sys)) ∧
     (s.sys.ev = some .timexSend → ∃ y, exec .timexSend s = .next { s with sys := y } ∧ { y with ports := s.sys.ports } = s.sys ∧
       ∀ n, n < 18 →
         let q := s.sys.port n
         (q.up = false ∨ s.gtime < q.lastTimex + 1000000 → y.port n = q) ∧
         (q.up = true → q.lastTimex + 1000000 ≤ s.gtime → (y.port n).lastTimex = s.gtime ∧ ∃ ps, (y.port n).queue = q.queue ++ ps ∧
           (∀ p ∈ ps, p.typ = tTimex ∧ p.sphys = s.sys.phys ∧ p.payload = [BitVec.ofNat 128 (s.gtime % 2 ^ 64)]) ∧
           ps.map (fun p => p.op.toNat) = if s.sys.isReference then [0, 1] else [2])) ∧
     (∀ n k stamp p, s.sys.ev = some (.timex n k stamp) → n < 18 → s.sys.inbox.find? (fun p => p.typ == tTimex &&
         p.op.toNat == timexCode k && (p.payload.headD 0).toNat % 2 ^ 64 == stamp.toNat) = some p →
       ∃ t, exec .timex s = .next t ∧ t.mem = s.mem ∧ t.boots = s.boots ∧ s.gtime ≤ t.gtime ∧
         let was := fun (i : Nat) => (s.sys.port n).timexStamps.find? (fun x => x.1 == i)
         let now := fun (i : Nat) => tget (t.sys.port n).timexStamps i 0
         (k = .sync → now 1 = stamp ∧ now 2 = BitVec.ofNat 64 s.gtime ∧ t.gtime = s.gtime) ∧
         (k = .followUp → now 1 = stamp ∧ t.gtime = s.gtime) ∧
         (k = .delayRequest → t.gtime = s.gtime ∧ ∃ r, (t.sys.port n).queue = (s.sys.port n).queue ++ [r] ∧ r.op = 3 ∧
           r.payload = [BitVec.ofNat 128 (s.gtime % 2 ^ 64)]) ∧
         (k = .delayResponse → s.sys.isReference = false → ∀ a b c, was 1 = some (1, a) → was 2 = some (2, b) → was 3 = some (3, c) →
           let o := ((b.toNat : Int) - a.toNat - ((stamp.toNat : Int) - c.toNat)) / 2
           let steps := s.sys.firstAligned = false ∧ s.sys.launched = false ∧ o < -1000000
           t.sys.firstAligned = true ∧ t.sys.timeofs = BitVec.ofInt 32 o ∧
           (steps → t.gtime = s.gtime + o.natAbs ∧ t.sys.aligned = true ∧ t.sys.slew = 0) ∧
           (¬ steps → t.gtime = s.gtime ∧ t.sys.slew = -o ∧ (t.sys.aligned = true ↔ s.sys.aligned = true ∨ (-40 ≤ o ∧ o ≤ 40))))) ∧
     (s.sys.ev = some .timeWide →
       (s.sys.wide = false → s.sys.isReference = false → s.sys.lastExchange + 100000000 ≤ s.gtime →
         ∃ y, exec .timeWide s = .next { s with sys := y } ∧ y.aligned = false ∧ y.wide = true ∧
           { y with aligned := s.sys.aligned, wide := false, vfs := s.sys.vfs } = s.sys ∧
           ∀ v e, (v, e) ∈ s.sys.vfs → e.en = true →
             ∃ x ∈ (y.vf v).notifications, x.kind = 5 ∧ x.data = s.sys.timeofs.setWidth 64) ∧
       (s.sys.wide = true ∨ s.sys.isReference = true ∨ s.gtime < s.sys.lastExchange + 100000000 → exec .timeWide s = .next s)) ∧
     (∀ dom phys, s.sys.ev = some (.timeReferenceNamed dom phys) →
       ∃ y, exec .timeReferenceNamed s = .next { s with sys := y } ∧ (∀ d, tget y.reference d phys =
           if d = dom then phys else tget s.sys.reference d phys) ∧
         (phys = s.sys.phys.toNat → y.aligned = true ∧ y.wide = false) ∧
         { y with reference := s.sys.reference, aligned := s.sys.aligned, wide := s.sys.wide } = s.sys))

/-! ### Operations and events: packets of the fabric -/

/-- R34, R43, R194 and R202 with R47: what becomes of a packet of the request and response types before its meaning. A malformed one is
discarded and logged (CLASS for class 3, else REMOTE, with its OFFSET); one for a chip that is not here is discarded when it is a response,
and counted on the port it arrived on, answered NACK under a live tombstone, or logged and answered ERRRSP; a stale one is discarded; one
whose colour is not begun waits and triggers the colour; one whose log needs a page of staging waits for it (DEDUCED, assumption log 65); a
deterministic one is kept for its tick. -/
def Obligations.PacketArrival : Prop :=
  ∀ (s : State) (p : Packet) (x : Instr) (e : Event) (typ : BitVec 4),
    (x, e, typ) ∈ [(Instr.rdreq, Event.rdreq p, tRdreq), (.wrreq, .wrreq p, tWrreq), (.atreq, .atreq p, tAtreq),
      (.contrib, .contrib p, tContrib), (.rdrsp, .rdrsp p, tRdrsp), (.wrack, .wrack p, tWrack), (.atrsp, .atrsp p, tAtrsp),
      (.errrsp, .errrsp p, tErrrsp)] →
    s.sys.ev = some e →
    let goesTo := fun (z : Sys) => exec x s = .next { s with sys := z }
    (p.typ ≠ typ ∨ s.sys.isNext p = false → goesTo s.sys) ∧
    (p.typ = typ → s.sys.isNext p = true →
      (p.malformed = true → ∃ z, goesTo z ∧ (∀ n, s.sys.logPart p = some n →
        s.sys.newestRecord z n (if p.cls = 3 then .class else .remote) .port (p.offset.setWidth 64)) ∧
        (p.isRequest = true → p.det = false → ∃ u, z.answersWith p tErrrsp [u])) ∧
      (p.malformed = false → s.sys.hostPart p.dom.toNat p.dlog.toNat = none →
        let t := s.sys.tombstone s.gtime p.dom.toNat p.dlog.toNat
        (p.isResponse = true → ∃ z, goesTo z ∧ z.accesses = s.sys.accesses ∧ ∀ n,
          (z.port n).discarded = (s.sys.port n).discarded + if s.sys.arrivalPort p = some n then 1 else 0) ∧
        (p.isResponse = false → ∀ b, t = some b → ∃ z, goesTo z ∧ z.answersWith p tNack [BitVec.ofNat 128 (b.phys.toNat + b.gen.toNat * 2 ^ 16)]) ∧
        (p.isRequest = true → t = none → ∃ z, goesTo z ∧ (∃ u, z.answersWith p tErrrsp [u]) ∧
          ∀ n, s.sys.logPart p = some n → s.sys.newestRecord z n .remote .port (p.offset.setWidth 64))) ∧
      (∀ part, p.malformed = false → s.sys.hostPart p.dom.toNat p.dlog.toNat = some part →
        let y := s.sys.takePacket p
        let q := s.sys.part part
        (q.check p = .stale → p.isRequest = false → goesTo y) ∧
        (q.check p = .stale → p.isRequest = true → ∃ z, goesTo z ∧ z.inbox = y.inbox ∧
          ∀ n, s.sys.logPart p = some n → s.sys.newestRecord z n .remote .port (p.offset.setWidth 64)) ∧
        (q.check p = .wait → ∃ z, goesTo z ∧ { z with parts := s.sys.parts } = s.sys ∧
          ((q.colourA.check p.ca p.ea = .wait → q.colourA.trec = none → (z.part part).colourA.trec = some (s.gtime + 1000)) ∧
           (q.colourB.check p.cb p.eb = .wait → q.colourB.trec = none → (z.part part).colourB.trec = some (s.gtime + 1000)))) ∧
        (q.check p = .go → s.sys.logStalls part (s.took p part).sys = true → goesTo s.sys) ∧
        (q.check p = .go → s.sys.logStalls part (s.took p part).sys = false → p.det = true → ∀ u,
          s.sys.detJob part p.slog.toNat p.dseq.toNat = some u → ∃ z, goesTo z ∧ ∀ l, s.sys.launch? u = some l → ∃ k, z.launch? u = some k ∧
            k.ticks.received = l.ticks.received ++ [(p.slog.toNat, p)]) ∧
        (q.check p = .go → s.sys.logStalls part (s.took p part).sys = false → p.det = true →
          s.sys.detJob part p.slog.toNat p.dseq.toNat = none → goesTo s.sys)))

/-- R131, R33, R138, R211, R186 and R40: a request at its home. RDREQ answers RDRSP with the bytes of its span and grants a lease of 8 µs;
WRREQ writes its enabled bytes and answers WRACK; ATREQ answers ATRSP with the old value; CONTRIB adds and counts all that it combines, and
answers WRACK. A place outside the window, a key error and an ECC error are logged and answered ERRRSP, and change no memory.
R35, R36, R38 and R44: a response completes the accesses in flight of its tag to the chip that it comes from: RDRSP with the bytes of the
span, WRACK and ATRSP with a GWCT, ERRRSP with REMOTE and the cause it names; a NACK installs a newer place and sends the request again, up to
four times; a request unanswered for 1 ms fails with REMOTE; a tombstone ends when its time has come. -/
def Obligations.FabricTraffic : Prop :=
  (∀ (s : State) (p : Packet) (part : Nat),
     let t := s.took p part
     let sub := p.sub
     let ofs := p.offset.toNat
     let place := fun (o n : Nat) => t.sys.fabPlace part sub o n
     let goesTo := fun (x : Instr) (z : Sys) => exec x s = .next { s with sys := z }
     let refuses := fun (x : Instr) (c : Cause) => ∃ z, goesTo x z ∧ t.sys.newestRecord z part c .port (p.offset.setWidth 64) ∧
       ∃ u, z.answersWith p tErrrsp [u] ∧ u.toNat % 256 = c.code
     let does := fun (x : Instr) (r : Served) (typ : BitVec 4) (f n : Nat) =>
       (∀ c, r.err = some c → ∃ z, exec x s = .next { r.eff.apply s with sys := z } ∧
         r.eff.sys.newestRecord z part c .port (p.offset.setWidth 64)) ∧
       (r.err = none → ∃ z, exec x s = .next { r.eff.apply s with sys := z } ∧
         let g := (r.eff.sys.gwct s.gtime f n) % 2 ^ 64
         z.answersWith p typ [BitVec.ofNat 128 (if typ = tWrack then g else numOf (slice r.value 0 8) + g * 2 ^ 64)])
     let u := (p.payload.headD 0).toNat
     let op := p.op.toNat % 32
     (s.sys.ev = some (.rdreq p) → s.Arrives p tRdreq part →
       let n := (op + 1) * 4
       (place ofs n = none → refuses .rdreq .limit) ∧
       (∀ f k, place ofs n = some (f, k) →
         (∀ c, t.sys.readError f n k = some c → refuses .rdreq c) ∧
         (t.sys.readError f n k = none → ∃ z, goesTo .rdreq z ∧
           z.answersWith p tRdrsp (unitsOf ((n + 15) / 16) (readBytes s.mem f n)) ∧ s.gtime + 8000 ≤ tget z.leases (lineOf f) 0))) ∧
     (s.sys.ev = some (.wrreq p) → s.Arrives p tWrreq part →
       let runs := maskRuns u (bytesOfUnits (p.payload.drop 1))
       ((∃ r ∈ runs, place (ofs + r.1) r.2.length = none) → refuses .wrreq .limit) ∧
       (∀ fs : List (Nat × Nat), runs.map (fun r => place (ofs + r.1) r.2.length) = fs.map some →
         let ws := (fs.zip runs).map (fun w => (w.1.1, w.1.2, w.2.2))
         (∀ c, ws.findSome? (fun w => t.sys.writeError w.1 w.2.2.length w.2.1) = some c → refuses .wrreq c) ∧
         (ws.findSome? (fun w => t.sys.writeError w.1 w.2.2.length w.2.1) = none →
           t.sys.allStall (ws.map (fun w => (w.1, w.2.2.length))) = false →
           ∃ z g, exec .wrreq s = .next { s with mem := writeCells s.mem (ws.flatMap (fun w => cellsAt w.1 w.2.2)), sys := z } ∧
             s.gtime ≤ g ∧ z.answersWith p tWrack [BitVec.ofNat 128 (g % 2 ^ 64)]))) ∧
     (s.sys.ev = some (.atreq p) → s.Arrives p tAtreq part →
       let x : DWord := BitVec.ofNat 64 u
       let c : DWord := BitVec.ofNat 64 (u / 2 ^ 64)
       (p.op ≠ 0x1F → op ≠ 0x12 → ∀ o, atomOf op = some o →
         (place ofs o.size = none → refuses .atreq .limit) ∧
         (∀ f k, place ofs o.size = some (f, k) → t.sys.writeStalls f o.size = false →
           let a := portAccess part p (.atomic o true x c) f k
           (o.contributes = false → does .atreq (serveAtomic t a f o x c) tAtrsp f o.size) ∧
           (o.contributes = true → t.sys.contribFree (lineOf f) = true → does .atreq (serveCadd t a f o x 1) tAtrsp f 4))) ∧
       (p.op ≠ 0x1F → op = 0x12 → ∀ f k, place ofs 128 = some (f, k) →
         let a := portAccess part p (.decl (BitVec.ofNat 32 u) c) f k
         let v := (t.sys.fabVf part).getD 0
         does .atreq (serveDecl t a part v f (BitVec.ofNat 32 u) c) tAtrsp f 128) ∧
       (p.op = 0x1F → ∀ f k, place ofs 1088 = some (f, k) → t.sys.writeStalls f 1088 = false →
         let a := portAccess part p (.domain (u % 4) (BitVec.ofNat 12 (u / 2 ^ 16)) p.slog) f k
         does .atreq { serveDomain t a f (u % 4) (u / 2 ^ 16 % 2 ^ 12) p.slog.toNat with value := [] } tAtrsp f 1088)) ∧
     (s.sys.ev = some (.contrib p) → s.Arrives p tContrib part →
       let o : AtomOp := if p.op = 0x10 then .caddF32 else .caddBf16x2
       (place ofs 4 = none → refuses .contrib .limit) ∧
       (∀ f k, place ofs 4 = some (f, k) → t.sys.writeStalls f 4 = false → t.sys.contribFree (lineOf f) = true →
         let n := if p.len = 2 then ((List.range 8).map (fun i => (p.payload.getD 1 0).toNat / 2 ^ (16 * i + 12) % 16)).sum else 1
         does .contrib (serveCadd t (portAccess part p (.atomic o false (BitVec.ofNat 64 u) 0) f k) f o (BitVec.ofNat 64 u) n) tWrack f 4))) ∧
  (∀ (s : State) (p : Packet) (part : Nat),
     let as := s.sys.answered part p
     let u := (p.payload.headD 0).toNat
     let alone := fun (a : Access) => s.sys.accesses.filter (fun b => b.id == a.id) = [a]
     let ends := fun (x : Instr) (st : Access → Access → Prop) => ∃ z, exec x s = .next { s with sys := z } ∧
       ∀ a ∈ as, alone a → ∃ b ∈ z.accesses, b.id = a.id ∧ st a b
     (s.sys.ev = some (.rdrsp p) → s.Arrives p tRdrsp part → ends .rdrsp (fun a b =>
       let base := match a.packet with | some q => q.offset.toNat | none => 0
       b.st = .performed (slice (bytesOfUnits p.payload) (a.fofs - base) a.op.bytes) s.gtime)) ∧
     (s.sys.ev = some (.wrack p) → s.Arrives p tWrack part → ends .wrack (fun _ b => b.st = .performed [] (u % 2 ^ 64))) ∧
     (s.sys.ev = some (.atrsp p) → s.Arrives p tAtrsp part → ends .atrsp (fun _ b => b.st = .performed (bytesOf 8 u) (u / 2 ^ 64))) ∧
     (s.sys.ev = some (.errrsp p) → s.Arrives p tErrrsp part → ends .errrsp (fun a b => (s.sys.helperLoad a = true → ∃ n, b.st = .performed [] n) ∧
       (s.sys.helperLoad a = false → (∃ h, a.who = .group h) →
         ∃ n, b.st = .failed .remote (BitVec.ofNat 8 u) (BitVec.ofNat 8 (u / 256)) n))) ∧
     (s.sys.ev = some (.nack p) → s.Arrives p tNack part → ∃ z, exec .nack s = .next { s with sys := z } ∧
       let e := s.sys.remapOf p.dom.toNat p.slog.toNat
       let gen := BitVec.ofNat 16 (u / 2 ^ 16)
       let installed : RemapEntry := tget s.sys.remap (p.dom.toNat * 4096 + p.slog.toNat) {}
       (newerGen gen e.gen = true → newerGen gen installed.gen = true →
         z.remapOf p.dom.toNat p.slog.toNat = { e with phys := BitVec.ofNat 12 u, gen := gen }) ∧
       (newerGen gen e.gen = false → z.remapOf p.dom.toNat p.slog.toNat = e) ∧ z.remap = s.sys.remap ∧
       (∀ a r, as = a :: r → a.nacks < 4 → ∀ a' ∈ as, alone a' → ∃ b ∈ z.accesses, b.id = a'.id ∧ b.nacks = a'.nacks + 1 ∧ b.st = a'.st) ∧
       (∀ a r, as = a :: r → 4 ≤ a.nacks → ∀ a' ∈ as, alone a' → (∃ h, a'.who = .group h) → s.sys.helperLoad a' = false →
         ∃ b ∈ z.accesses, b.id = a'.id ∧ ∃ n, b.st = .failed .remote 0 0 n)) ∧
     (∀ h n, s.sys.ev = some (.slotTimeout h n) → h ≠ 0 → ∃ z, exec .slotTimeout s = .next { s with sys := z } ∧
       ∀ a ∈ s.sys.accesses, alone a → a.isFabric = true → a.isFlight = true → a.sentAt + 1000000 ≤ s.gtime → a.who = .group h →
         a.slot = some n → s.sys.helperLoad a = false → ∃ b ∈ z.accesses, b.id = a.id ∧ ∃ n, b.st = .failed .remote 0 0 n) ∧
     (∀ n a c, s.sys.ev = some (.slotTimeout 0 n) → s.sys.accesses.filter (fun b => b.id == n) = [a] → a.who = .cp c → a.isFabric = true →
       a.isFlight = true → a.sentAt + 1000000 ≤ s.gtime → ∃ z, exec .slotTimeout s = .next { s with sys := z } ∧ (∀ b ∈ z.accesses, b.id ≠ n) ∧
         ((s.sys.core c).cp.ownTrap = none → ∃ t, (z.core c).cp.ownTrap = some t ∧ t.cause = .remote ∧ t.pc = a.pc)) ∧
     (∀ dom l, s.sys.ev = some (.tombstoneExpiry dom l) → ∃ ts, exec .tombstoneExpiry s = .next { s with sys := { s.sys with tombstones := ts } } ∧
       ∀ t, t ∈ ts ↔ t ∈ s.sys.tombstones ∧ ¬ (t.dom = dom ∧ t.lchip = l ∧ t.expiry ≤ s.gtime)))

/-- R47: when a tick of a deterministic job has ended, its packets leave with their DSEQ, and the launch goes on to the next tick; a TICKEND is
kept for the job that it names, once, and then all that can be applied is. -/
def Obligations.DeterministicTicks : Prop :=
  ∀ s : State,
    (∀ u l, s.sys.ev = some (.tickRelease u) → s.sys.launch? u = some l → l.record.det = true → l.ticks.started = true →
      l.ticks.finalSent = false →
      let n := l.ticks.released
      let ps := (l.ticks.held.filter (fun h => decide (h.1 ≤ n))).map Prod.snd
      (s.sys.tickOf s.gtime ≤ n → exec .tickRelease s = .next s) ∧
      (n < s.sys.tickOf s.gtime → ∃ t, exec .tickRelease s = .next t ∧ t.gtime = s.gtime ∧ t.boots = s.boots ∧ t.fuse = s.fuse ∧
        (∀ k, t.sys.launch? u = some k → k.ticks.released = n + 1 ∧ ∀ h ∈ k.ticks.held, n < h.1) ∧
        (∀ p ∈ ps, ∃ r : Packet, r.typ = p.typ ∧ r.dlog = p.dlog ∧ r.dseq = p.dseq ∧ r.det = p.det ∧ r.payload = p.payload ∧ r.offset = p.offset ∧
          (t.sys.leaving r ∨ (r.dphys ≠ s.sys.phys ∧ (s.sys.egress r).1 = none))))) ∧
    (∀ p part l, s.sys.ev = some (.tickend p) → s.Arrives p tTickend part →
      let y := (s.took p part).sys
      let u := (p.payload.headD 0).toNat
      y.launches.find? (fun l => l.part == part && l.record.det && l.ticks.started && l.record.launchId.toNat == u / 2 ^ 96) = some l →
      let c := u / 2 ^ 64 % 2 ^ 32
      let w : State := { s with sys := y.modLaunch l.uid (fun k => { k with ticks := k.ticks.note p.slog.toNat (u % 2 ^ 64) c }) }
      exec .tickend s = .next ((tickSettle w l.uid).apply w))

/-! ### Operations and events: snapshots -/

/-- R194, R197, R198, R200 and R203: at its record point a FREE colour becomes LIVE under the number granted: its header bit is set, it holds a
record for every group in its scope, its granules are all pending, and its deadline runs. R195: the sweeper copies the next pending granule to
staging while there is room.
R204-R206 with R78: when the partition may have a Kite slot, Kite writes the oldest staged record of a LIVE colour, its header and its body padded to 64 bytes, to the sink that has room, and
then the end record once the sweep is over and every channel is closed; without room it asks for an abort; to an NVMe sink the filled blocks go in Writes
of up to 16, each counted until its completion (that a queue holds one less than its depth is PRESUMED, assumption log 66). R202 and R203: with the end record
written and every NVMe write complete the colour is LOCALDONE; an NVMe error or the deadline asks for an abort. -/
def Obligations.SnapshotRecording : Prop :=
  (∀ (s : State) (part : Nat),
     (∀ b, s.sys.ev = some (.recordPoint part b) →
       let c := s.sys.colour part b
       (c.st ≠ .free ∨ c.trec = none ∨ (∃ t, c.trec = some t ∧ s.gtime < t) → exec .recordPoint s = .next s) ∧
       (∀ t, c.st = .free → c.trec = some t → t ≤ s.gtime → c.desc.isSome ∨ c.sinks ≠ 0 → ∃ z, exec .recordPoint s = .next { s with sys := z } ∧
         let k := z.colour part b
         k.st = .live ∧ k.headerBit = true ∧ k.trec = none ∧ k.snapno = c.pendingNo ∧ k.captured = [] ∧ k.epoch = c.epoch ∧
         k.init = c.desc.isSome ∧ k.scope = s.sys.scopeOf part c.desc ∧ k.recv = c.recv ∧ k.closed = [] ∧ k.logs = [] ∧
         k.deadline = some (s.gtime + (s.sys.part part).snaptmo.toNat * 1000000) ∧
         let us := s.sys.scopeLaunches part c.desc
         let y := s.sys.withdrawScope us
         (∀ g ∈ y.groups, g.launch ∈ us → g.killed = false → ∃ r ∈ k.staging, ∃ a t v, r.image = .group g.withProducts a t v) ∧
         (∃ r ∈ k.staging, r.rkind = 6 ∧ ∃ f, r.image = .fabric f) ∧ z.groups = y.groups ∧ z.accesses = y.accesses ∧
         ((∀ g ∈ s.sys.groups, ∀ m, g.mmaj = some m → m.joined = true) → y = s.sys))) ∧
     (s.sys.ev = some (.sweepCapture part) →
       let q := s.sys.part part
       ∀ b g, (b = false ∧ q.colourA.nextGranule = some g) ∨ (b = true ∧ q.colourA.nextGranule = none ∧ q.colourB.nextGranule = some g) →
         let n := match g with | .heapPage _ _ => 65536 | _ => 16384
         (q.stagingBytes < q.staged + n → exec .sweepCapture s = .next s) ∧
         (q.staged + n ≤ q.stagingBytes → ∃ z, exec .sweepCapture s = .next { s with sys := z } ∧ { z with parts := s.sys.parts } = s.sys ∧
           (z.colour part b).captured = (q.colour b).captured ++ [g] ∧
           (z.colour part b).staging = (q.colour b).staging ++
             [{ granuleRec s part g with shared := q.colourA.pending g && q.colourB.pending g }])) ∧
     (s.sys.ev = some (.stagingFreed part) → ∃ z, exec .stagingFreed s = .next { s with sys := z } ∧ { z with parts := s.sys.parts } = s.sys ∧
       ∀ p, z.part p = if p = part then { s.sys.part part with unfreed := 0 } else s.sys.part p)) ∧
  (∀ (s : State) (part : Nat),
     let q := s.sys.part part
     (s.sys.ev = some (.kiteRecordWrite part) → s.sys.slotFor part 2 = false → exec .kiteRecordWrite s = .next s) ∧
     (∀ b, s.sys.ev = some (.kiteRecordWrite part) → s.sys.slotFor part 2 = true → b = false ∨ kiteStep s part false = none →
       let c := q.colour b
       let writes := fun (r : StreamRec) (i : Nat) (after : Colour → Prop) =>
         let header := streamHeader b false c.snapno q.chip c.written c.label r
         let bytes := header ++ padTo64 r.body
         q.sinkFor c bytes.length = some i →
         let k := tget q.sinks i {}
         let pos := tget c.sinkPos i 0
         (k.kind = 1 → ∀ f, s.sys.physFlat (s.sys.sinkVf part) (k.base.toNat + pos) = some f → isHost f = true) →
         ∃ z cells, exec .kiteRecordWrite s = .next { s with mem := writeCells s.mem cells, sys := z } ∧ after (z.colour part b) ∧
           (z.colour part b).written = c.written + 1 ∧ tget (z.colour part b).sinkPos i 0 = pos + bytes.length ∧
           (∃ x ∈ z.sunk, x.body = r ∧ x.snapno = c.snapno ∧ x.sink = k ∧ x.aborted = false ∧ x.header = header) ∧
           (k.kind ≠ 1 → cells = []) ∧
           (k.kind = 1 → ∀ f, s.sys.physFlat (s.sys.sinkVf part) (k.base.toNat + pos) = some f → cells = cellsAt f bytes)
       c.st = .live → c.abortAsked = false → c.unnamed = false →
       (∀ i, q.nvmeLeft c = some i →
         let k := tget q.sinks i {}
         let u := tget q.nvme i {}
         let done := tget c.blocks i 0
         u.inFlight.length + 1 < 2 ^ k.log2qd.toNat → ∃ t, exec .kiteRecordWrite s = .next t ∧
           (t.sys.colour part b).nvmePending = c.nvmePending + 1 ∧ tget (t.sys.colour part b).blocks i 0 = done + min 16 (c.blocksDue i - done) ∧
           (tget (t.sys.part part).nvme i {}).inFlight = u.inFlight ++ [(u.cid, b, c.snapno)] ∧
           (tget (t.sys.part part).nvme i {}).tail = (u.tail + 1) % 2 ^ k.log2qd.toNat) ∧
       (q.nvmeLeft c = none → ∀ r rest, c.staging = r :: rest →
         (∀ i, writes r i (fun k => k.staging = rest ∧ k.st = .live ∧ k.endWritten = c.endWritten)) ∧
         (q.sinkFor c (64 + (padTo64 r.body).length) = none → ∃ z, exec .kiteRecordWrite s = .next { s with sys := z } ∧
           (z.colour part b).abortAsked = true)) ∧
       (q.nvmeLeft c = none → c.staging = [] → c.endWritten = false → c.nextGranule = none → (∀ k ∈ c.chans, k ∈ c.closed) →
         ∀ i, writes { rkind := 7, ident := 0, body := bytesOf 8 c.written, image := .bytes } i (fun k => k.endWritten = true ∧ k.st = .live))) ∧
     (∀ b ok, s.sys.ev = some (.nvmeCompletion part b ok) →
       let c := s.sys.colour part b
       let none_ := fun (i : Nat) => ∀ w ∈ (tget q.nvme i {}).inFlight, w.2.1 ≠ b
       ((∀ i, i < 8 → none_ i) → exec .nvmeCompletion s = .next s) ∧
       (∀ i w, i < 8 → (∀ j, j < i → none_ j) → (tget q.nvme i {}).inFlight.find? (fun w => w.2.1 == b) = some w →
         let y := s.sys.modPart part (fun p => { p with nvme := tmod p.nvme i {} (fun u => { u with
           inFlight := u.inFlight.erase w, head := (u.head + 1) % 2 ^ (tget q.sinks i {}).log2qd.toNat }) })
         let y1 := y.modColour part b (fun c => { c with nvmePending := c.nvmePending - 1 })
         (w.2.2 ≠ c.snapno ∨ c.nvmePending = 0 → exec .nvmeCompletion s = .next { s with sys := y }) ∧
         (w.2.2 = c.snapno → c.nvmePending ≠ 0 → ok = true → exec .nvmeCompletion s = .next { s with sys := y1 }) ∧
         (w.2.2 = c.snapno → c.nvmePending ≠ 0 → ok = false →
           exec .nvmeCompletion s = .next { s with sys := y1.askAbort s.gtime part b }))) ∧
     (∀ b, s.sys.ev = some (.localComplete part b) →
       let c := s.sys.colour part b
       (c.st = .live → c.endWritten = true → c.nvmePending = 0 → q.nvmeLeft c = none → ∃ z, exec .localComplete s = .next { s with sys := z } ∧
         ((z.colour part b).st = .localdone ∨ (z.colour part b).st = .quiet) ∧
         (q.coordinator ≠ q.chip.toNat → (z.colour part b).st = .localdone) ∧
         (z.colour part b).recv = [] ∧ (z.colour part b).deadline = none ∧
         (∀ h k, c.snapCmd = some h → s.sys.cmds.filter (fun x => x.handle == h) = [k] → k.isOpen = true →
           ∀ k' ∈ z.cmds, k'.handle = h → k'.status = .done)) ∧
       (¬ (c.st = .live ∧ c.endWritten = true ∧ c.nvmePending = 0 ∧ q.nvmeLeft c = none) → exec .localComplete s = .next s)) ∧
     (∀ b, s.sys.ev = some (.snaptmoExpiry part b) →
       let c := s.sys.colour part b
       (∀ t, c.st = .live → c.deadline = some t → t ≤ s.gtime → 
         let y := s.sys.modColour part b (fun c => { c with deadline := none })
         exec .snaptmoExpiry s = .next { s with sys := y.askAbort s.gtime part b }) ∧
       (∀ t, c.deadline = some t → s.gtime < t → exec .snaptmoExpiry s = .next s)) ∧
     -- what asking for an abort does where the coordinator is this chip and the snapshot is its own
     (∀ b, let c := s.sys.colour part b
       q.coordinator = q.chip.toNat → (s.sys.coord part b).flag = true → (s.sys.coord part b).awaited = [q.chip.toNat] →
       c.st = .live ∨ c.st = .localdone →
       let z := s.sys.askAbort s.gtime part b
       (z.colour part b).st = .aborting ∧ (z.colour part b).staging = [] ∧ (z.colour part b).aborted = true ∧
         (z.colour part b).endWritten = false ∧ (z.colour part b).headerBit = c.headerBit))

/-- R189, R192, R194, R199 and R200-R203: what each message of the snapshot protocol does at the chip that receives it, and the reopen timer. -/
def Obligations.SnapshotMessages : Prop :=
  ∀ (s : State) (part : Nat) (m : SnapMsg),
    let b := m.colour
    let src := m.src.toNat
    let takes := fun (x : Instr) (e : Event) (code : Nat) (after : Sys → Sys → Prop) =>
      s.sys.ev = some e → ∀ p, s.sys.inbox.find? (fun p => p.typ == tMarker && !p.malformed && p.mkind == code &&
        s.sys.hostPart p.dom.toNat p.dlog.toNat == some part && snapMsgOf p == m) = some p → s.Arrives p tMarker part →
      ∃ z, exec x s = .next { s with sys := z } ∧ after (s.took p part).sys z
    takes .localdoneMsg (.localdoneMsg part m) 1 (fun _ z => src ∈ (z.coord part b).localdone) ∧
    takes .completeMsg (.completeMsg part m) 2 (fun y z =>
      let c := y.colour part b
      (c.st ≠ .localdone → z = y) ∧
      (c.st = .localdone → (z.colour part b).st = .quiet ∧ (z.colour part b).headerBit = false ∧
        ∀ v ∈ y.partVfs part, (y.vf v).en = true → ∃ n ∈ (z.vf v).notifications, n.kind = 3 ∧
          n.data = BitVec.ofNat 64 ((if b then 1 else 0) + c.snapno.toNat * 2 ^ 32))) ∧
    takes .freedMsg (.freedMsg part m) 3 (fun y z =>
      let k := y.coord part b
      src ∈ (z.coord part b).freed ∧ (k.reopenAt = none →
        ((z.coord part b).reopenAt = some (s.gtime + 200000) ↔ k.awaited ≠ [] ∧ ∀ x ∈ k.awaited, x ∈ (z.coord part b).freed))) ∧
    takes .reopenMsg (.reopenMsg part m) 4 (fun y z =>
      let c := y.colour part b
      (c.st ≠ .quiet → z = y) ∧
      (c.st = .quiet → (z.colour part b).st = .free ∧ (z.colour part b).epoch = !c.epoch ∧ (z.colour part b).sent = [] ∧
        (z.colour part b).headerBit = false)) ∧
    takes .reopenedMsg (.reopenedMsg part m) 5 (fun y z =>
      let k := y.coord part b
      (k.awaited ≠ [] → (∀ x ∈ k.awaited, x = src ∨ x ∈ k.reopened) → z.coord part b = {}) ∧
      ((∃ x ∈ k.awaited, x ≠ src ∧ x ∉ k.reopened) → src ∈ (z.coord part b).reopened ∧ (z.coord part b).flag = k.flag)) ∧
    takes .snapRequestMsg (.snapRequestMsg part m) 6 (fun y z =>
      let may := fun (c : Bool) => (m.reqcol = 0 ∨ m.reqcol = (if c then 2 else 1)) ∧ (y.coord part c).flag = false ∧
        (y.colour part c).st = .free ∧ y.remapRuns part = false
      (may false ∨ may true → (z.part part).grants = (y.part part).grants + 1 ∧
        (z.coord part (if m.reqcol = 2 ∨ (y.coord part false).flag ∨ (y.colour part false).st ≠ .free then true else false)).flag = true) ∧
      (¬ may false → ¬ may true → (z.part part).grants = (y.part part).grants)) ∧
    takes .grant (.grant part m) 7 (fun y z => ∀ r, (y.part part).reqFor b = some r →
      let k := z.colour part b
      k.trec = some (s.gtime + 1000) ∧ k.pendingNo = m.snapno ∧ k.desc = some r ∧ k.hostCmd = r.host ∧
      (z.part part).snapReqs = (y.part part).snapReqs.erase r ∧
      ∀ core d, r.cp = some (core, d) → d + 1 < 128 →
        let c := (z.core core).cp
        sget c.x d = BitVec.ofNat 64 ((if b then 1 else 0) + m.snapno.toNat * 2 ^ 32) ∧
        sget c.x (d + 1) = BitVec.ofNat 64 y.nextId ∧ c.pc = (y.core core).cp.pc + 4 ∧ c.snapWait = none ∧
        k.snapCmd = some y.nextId ∧ ∃ x ∈ z.cmds, x.handle = y.nextId ∧ x.kind = .snap b ∧ x.status = .running) ∧
    takes .refuse (.refuse part m) 8 (fun y z => ∀ r rest, (y.part part).snapReqs = r :: rest →
      (z.part part).snapReqs = rest ∧
      (∀ core d, r.cp = some (core, d) → d + 1 < 128 →
        let c := (z.core core).cp
        sget c.x d = 2 ∧ sget c.x (d + 1) = 0 ∧ c.pc = (y.core core).cp.pc + 4 ∧ c.snapWait = none) ∧
      (∀ u c, r.host = some u → y.hostCmds.filter (fun x => x.uid == u) = [c] → c.result = none →
        ∃ x ∈ z.hostCmds, x.uid = u ∧ x.result = some (.nocolour, 0))) ∧
    takes .abortMsg (.abortMsg part m) 9 (fun y z =>
      let q := y.part part
      let c := y.colour part b
      q.coordinator ≠ q.chip.toNat →
        (c.st = .live ∨ c.st = .localdone →
          (z.colour part b).st = .aborting ∧ (z.colour part b).staging = [] ∧ (z.colour part b).aborted = true) ∧
        (c.st = .free → c.snapno ≠ m.snapno → (z.colour part b).st = .quiet ∧ (z.colour part b).headerBit = false) ∧
        (c.st = .free → c.snapno = m.snapno → c.trec = none → z = y)) ∧
    takes .tombcount (.tombcount part m) 10 (fun y z => tget (z.colour part b).recv (chanKey m.src 0) 0 =
      tget (y.colour part b).recv (chanKey m.src 0) 0 + m.count.toNat) ∧
    (∀ p, s.sys.ev = some (.markerChannel p) → p.typ = tMarker → p.mkind = 0 → p.malformed = false →
      s.sys.hostPart p.dom.toNat p.dlog.toNat = some part → s.sys.isNext p = true → m = snapMsgOf p → (s.sys.part part).check p ≠ .stale →
      let c := s.sys.colour part b
      (c.st = .free → ∃ z, exec .markerChannel s = .next { s with sys := z } ∧ { z with parts := s.sys.parts } = s.sys ∧
        (c.trec = none → (z.colour part b).trec = some (s.gtime + 1000)) ∧
        (c.pendingNo = 0 ∨ c.trec = none → (z.colour part b).pendingNo = m.snapno)) ∧
      (s.Arrives p tMarker part → c.st = .live → ∃ z, exec .markerChannel s = .next { s with sys := z } ∧
        let k := chanKey p.slog (markerClass p)
        (k, m.count.toNat) ∈ (z.colour part b).markers ∧
        (c.markers.find? (fun x => x.1 == k) = none → tget c.recv k 0 = m.count.toNat → k ∈ (z.colour part b).closed))) ∧
    (∀ d t, s.sys.ev = some (.reopenTimer part d) → (s.sys.coord part d).reopenAt = some t →
      (s.gtime < t → exec .reopenTimer s = .next s) ∧
      (t ≤ s.gtime → ∃ z, exec .reopenTimer s = .next { s with sys := z } ∧ (z.coord part d).reopenAt = none ∧
        ((s.sys.part part).chip.toNat ∈ (s.sys.coord part d).awaited → (s.sys.colour part d).st = .quiet →
          (z.colour part d).st = .free ∧ (z.colour part d).epoch = !(s.sys.colour part d).epoch)))

/-! ### Operations and events: the management plane -/

/-- R66 with R51-R53: a WRITE_ENTRY is answered BADREQ outside its table or entry, DENIED where the requester may not write, and is otherwise
checked as one entry: it is REFUSED, and changes nothing, in each case that R53 lists; an accepted partition or binding entry holds the fields
written. READ_ENTRY answers the bytes of the entry, where the requester may read it.
R49: a logical device is bound to a host that holds none. R40: a remap entry is replaced as a whole. R53: a partition in which nothing is left
becomes empty. R54: a die that has left a partition has its stack, its SRAM, its accumulators and its frame tags cleared, and with the last such
die the partition is empty. -/
def Obligations.TablesAndBinding : Prop :=
  (∀ (s : State) (r : MgmtReq) (table i ofs : Nat),
     let y := s.sys
     let goesTo := fun (x : Instr) (z : Sys) => exec x s = .next { s with sys := z }
     let response := fun (req status : Nat) => bytesOf 4 (req + status * 2 ^ 8 + r.seq.toNat * 2 ^ 16) ++ List.replicate 12 0
     let replies := fun (req status : Nat) (b : List Byte) =>
       ({ y with answers := y.answers ++
         [{ peer := r.vf.toNat, code := req, status := status, seq := r.seq, bytes := response req status ++ b }] } : Sys)
     (∀ n, y.ev = some (.readEntry r table i ofs n) →
       (y.entryBytes table i = none → goesTo .readEntry (replies 2 3 [])) ∧
       (∀ b, y.entryBytes table i = some b →
         (n = 0 ∨ 64 < n ∨ b.length < ofs + n → goesTo .readEntry (replies 2 3 [])) ∧
         (1 ≤ n → n ≤ 64 → ofs + n ≤ b.length → y.mayRead r table i = false → goesTo .readEntry (replies 2 2 [])) ∧
         (1 ≤ n → n ≤ 64 → ofs + n ≤ b.length → y.mayRead r table i = true → goesTo .readEntry (replies 2 0 ((b.drop ofs).take n))))) ∧
     (∀ bs, y.ev = some (.writeEntry r table i ofs bs) →
       (y.entryBytes table i = none → goesTo .writeEntry (replies 1 3 [])) ∧
       (∀ b, y.entryBytes table i = some b →
         (bs = [] ∨ 64 < bs.length ∨ b.length < ofs + bs.length → goesTo .writeEntry (replies 1 3 [])) ∧
         (bs ≠ [] → bs.length ≤ 64 → ofs + bs.length ≤ b.length →
           (y.mayWrite r table i = false → goesTo .writeEntry (replies 1 2 [])) ∧
           (y.mayWrite r table i = true →
             let new := b.take ofs ++ bs ++ b.drop (ofs + bs.length)
             (table = 0 →
               let old := y.part i
               let q := old.ofBytes new
               let others := fun (f : Part → Prop) => ∃ p, p < 12 ∧ p ≠ i ∧ (y.part p).valid = true ∧ f (y.part p)
               let meets := fun (a n b m : Nat) => 0 < n ∧ 0 < m ∧ a < b + m ∧ b < a + n
               (others (fun o => o.dies &&& q.dies ≠ 0) → goesTo .writeEntry (replies 1 1 [])) ∧
               (others (fun o => meets q.keylo.toNat q.keyn.toNat o.keylo.toNat o.keyn.toNat) → goesTo .writeEntry (replies 1 1 [])) ∧
               ((∃ v ∈ y.vfs, v.2.part.toNat = i ∧ 0 < v.2.keyn.toNat ∧
                   ¬ (q.keylo.toNat ≤ v.2.keylo.toNat ∧ v.2.keylo.toNat + v.2.keyn.toNat ≤ q.keylo.toNat + q.keyn.toNat)) →
                 goesTo .writeEntry (replies 1 1 [])) ∧
               (q.pcap ≠ 0 → q.pcap.toNat < 150 * q.dieList.length ∨ 3400 < q.pcap.toNat → goesTo .writeEntry (replies 1 1 [])) ∧
               (old.st ≠ .empty → q.dies ≠ old.dies ∨ q.valid ≠ old.valid ∨ q.keylo ≠ old.keylo ∨ q.keyn ≠ old.keyn →
                 goesTo .writeEntry (replies 1 1 [])) ∧
               (q.valid = true → q.dies = 0 → goesTo .writeEntry (replies 1 1 [])) ∧
               (y.partOk i q = true → ∃ z, goesTo .writeEntry z ∧ z.answers = (replies 1 0 []).answers ∧
                 { z.part i with st := q.st, capInForce := q.capInForce, moved := q.moved } = q ∧ tget z.persistent i [] = new ∧
                 (q.joined = old.joined → q.dom = old.dom → q.lchip = old.lchip → (z.part i).moved = old.moved) ∧
                 (∀ p, p ≠ i → { z.part p with capInForce := (y.part p).capInForce } = y.part p) ∧
                 (∀ d, d < 12 → old.held_.getLsbD d = true → q.held_.getLsbD d = false →
                   (z.die d).scrubbing = some i ∧ (z.part i).st = .scrubbing) ∧
                 (∀ d, d < 12 → (z.die d).gated = (z.partOfDie d).isNone))) ∧
             (table = 1 →
               let v := (y.vf i).ofBindBytes new
               let q := y.part v.part.toNat
               (12 ≤ v.part.toNat → goesTo .writeEntry (replies 1 1 [])) ∧
               (0 < v.keyn.toNat →
                 ¬ (q.keylo.toNat ≤ v.keylo.toNat ∧ v.keylo.toNat + v.keyn.toNat ≤ q.keylo.toNat + q.keyn.toNat) →
                 goesTo .writeEntry (replies 1 1 [])) ∧
               (y.bindOk v = true → ∃ z, goesTo .writeEntry z ∧ z.vf i = v ∧ (∀ k, k ≠ i → z.vf k = y.vf k) ∧
                 { z with vfs := y.vfs, answers := y.answers } = y)) ∧
             (2 ≤ table →
               (∀ z, y.writeEntry table i ofs (ofs + bs.length) new = .ok z →
                 goesTo .writeEntry { z with answers := z.answers ++
                   [{ peer := r.vf.toNat, code := 1, status := 0, seq := r.seq, bytes := response 1 0 ++ [] }] }) ∧
               (∀ p v, y.writeEntry table i ofs (ofs + bs.length) new = .key p v → ∃ z, goesTo .writeEntry z ∧
                 y.newestRecord z p .key .mgmt (BitVec.ofNat 64 (entryOffset table i)) ∧ z.answers = (replies 1 1 []).answers))))))) ∧
  (∀ s : State,
     let y := s.sys
     let goesTo := fun (x : Instr) (z : Sys) => exec x s = .next { s with sys := z }
     (∀ ld host, y.ev = some (.ldBind ld host) →
       (ld < 16 → (∀ q ∈ y.lds, q.2 ≠ host) → ∃ z, goesTo .ldBind z ∧ { z with lds := y.lds } = y ∧ z.hostOf ld = host ∧
         ∀ k, k ≠ ld → z.hostOf k = y.hostOf k) ∧
       ((∃ q ∈ y.lds, q.2 = host) → goesTo .ldBind y)) ∧
     (∀ dom lchip w, y.ev = some (.remapEntryWrite dom lchip w) → dom < 256 → lchip < 4096 → ∃ z, goesTo .remapEntryWrite z ∧
       let e : RemapEntry := { phys := w.setWidth 12, valid := w.getLsbD 12, gen := (w >>> 16).setWidth 16 }
       tget z.remap (dom * 4096 + lchip) {} = e ∧
       -- a newer place that a NACK has named stands (R44)
       (newerGen (tget y.adopted (dom * 4096 + lchip) e).gen e.gen = false → z.remapOf dom lchip = e) ∧
       (∀ d c, c < 4096 → (d, c) ≠ (dom, lchip) → z.remapOf d c = y.remapOf d c) ∧
       (s.quiet → (y.remapOf dom lchip).valid = false ∨ w.getLsbD 12 = true → { z with remap := y.remap } = y)) ∧
     (∀ p, y.ev = some (.partitionEmpty p) →
       let st := (y.part p).st
       let left := (∃ l ∈ y.launches, l.part = p ∧ l.finished = false) ∨ (∃ w ∈ y.storeWaits, w.part = p) ∨
         (∃ v ∈ y.partVfs p, (y.vf v).rung = true) ∨ (∃ c ∈ y.hostCmds, c.vf ∈ y.partVfs p ∧ c.result = none) ∨ (∃ c ∈ y.cmds, c.part = p ∧ c.isOpen = true) ∨
         (y.part p).colourA.st ≠ .free ∨ (y.part p).colourB.st ≠ .free
       (left ∨ (st ≠ .active ∧ st ≠ .draining) → goesTo .partitionEmpty y) ∧
       (¬ left → st = .active ∨ st = .draining → ∃ z, goesTo .partitionEmpty z ∧ z.part p = { y.part p with st := .empty } ∧
         (∀ k, k ≠ p → z.part k = y.part k) ∧ z.groups = y.groups ∧ z.vfs = y.vfs)) ∧
     (∀ die p, y.ev = some (.partitionScrubDone die) → (y.die die).scrubbing = some p → ∃ t, exec .partitionScrubDone s = .next t ∧
       t.gtime = s.gtime ∧ t.boots = s.boots ∧ t.fuse = s.fuse ∧ (t.sys.die die).scrubbing = none ∧
       (∀ a, readByte t.mem a = if onDie die a = true then 0 else readByte s.mem a) ∧
       (∀ f, sget t.sys.frames f = if f / 2 ^ 20 = die then 0 else sget y.frames f) ∧
       (∀ w, sget t.sys.tiles w = if coreDie (w / 131072) = die then 0 else sget y.tiles w) ∧
       (∀ c, t.sys.core c = if coreDie c = die then { cp := { code := (y.core c).cp.code } } else y.core c) ∧
       (∀ w, onDie die w = true → w ∉ t.sys.eccBad ∧ w ∉ t.sys.eccCorrectable) ∧
       ((∀ d, d < 12 → d ≠ die → (y.die d).scrubbing ≠ some p) → (y.part p).st = .scrubbing → (t.sys.part p).st = .empty) ∧
       ((∃ d, d < 12 ∧ d ≠ die ∧ (y.die d).scrubbing = some p) → (t.sys.part p).st = (y.part p).st)))

/-- R60 and R58: FLUSH_KEY zeroes every frame tagged with the key, clears those tags and installs the new key; it is refused for key 0 and while a
VF whose range holds the key has a resident launch or an engine command. A key is installed only through an SPDM session. R63, R66 and R23:
firmware is delivered by the management link alone and takes effect at the next module reset, which begins the steps of R23 anew. -/
def Obligations.KeysAndFirmware : Prop :=
  ∀ (s : State) (r : MgmtReq),
    let y := s.sys
    let goesTo := fun (x : Instr) (z : Sys) => exec x s = .next { s with sys := z }
    let response := fun (req status : Nat) => bytesOf 4 (req + status * 2 ^ 8 + r.seq.toNat * 2 ^ 16) ++ List.replicate 12 0 ++ []
    let ans := fun (req status : Nat) =>
      y.answers ++ [{ peer := r.vf.toNat, code := req, status := status, seq := r.seq, bytes := response req status }]
    let replies := fun (req status : Nat) => ({ y with answers := ans req status } : Sys)
    let link := r.vf = 0xFF
    (∀ key, y.ev = some (.flushKey r key) →
      let mine := link ∨ ∃ v ∈ y.hostVfs r, (y.vf v).keyOk key = true
      (256 ≤ key → goesTo .flushKey (replies 3 3)) ∧
      (key < 256 → ¬ mine → goesTo .flushKey (replies 3 2)) ∧
      (key < 256 → mine →
        (key = 0 → goesTo .flushKey (replies 3 1)) ∧
        (∀ v e, (v, e) ∈ y.vfs → e.valid = true → e.keyOk key = true →
          (∃ l ∈ y.launches, l.vf = v ∧ l.finished = false ∧ l.placed ≠ 0) ∨ (∃ c ∈ y.cmds, c.vf = v ∧ c.isOpen = true) →
          goesTo .flushKey (replies 3 1)) ∧
        (y.flushRefused key = false → y.allStall (((y.framesOf key).flatMap framePieces).map (fun a => (a, 4096))) = false →
          ∃ t, exec .flushKey s = .next t ∧ t.gtime = s.gtime ∧ t.boots = s.boots ∧ t.fuse = s.fuse ∧ t.sys.answers = ans 3 0 ∧ key ∈ t.sys.keys ∧
            (∀ a, readByte t.mem a = if isHbm a = true ∧ frameOf a ∈ y.framesOf key then 0 else readByte s.mem a) ∧
            (∀ f, sget t.sys.frames f = if f ∈ y.framesOf key then 0 else sget y.frames f)))) ∧
    (∀ k, y.ev = some (.keyInstall k) →
      let session := ∃ n q, (n, q) ∈ y.spdm ∧ q.session = true
      (¬ session → goesTo .keyInstall y) ∧
      (session → ∀ i, k = .tenant i →
        (i ≠ 0 → i < 256 → i ∉ y.keys → goesTo .keyInstall { y with keys := i :: y.keys }) ∧ (i = 0 ∨ 256 ≤ i ∨ i ∈ y.keys → goesTo .keyInstall y)) ∧
      (session → ∀ n, k = .ide n → (n < 2 → ∃ z, goesTo .keyInstall z ∧ n ∈ z.ideKeys ∧ { z with ideKeys := y.ideKeys } = y) ∧
        (2 ≤ n → goesTo .keyInstall y))) ∧
    (∀ ofs bs, y.ev = some (.fwDeliver r ofs bs) →
      (¬ link → goesTo .fwDeliver (replies 5 2)) ∧
      (link → ofs = 0xFFFFFFFF → ∃ z, goesTo .fwDeliver z ∧ { z with answers := y.answers, fw := y.fw, free := y.free } = y ∧ z.fw.delivered = [] ∧
        z.fw.version = y.fw.version ∧
        ((z.answers = ans 5 0 ∧ ∃ v, z.fw.pending = some v ∧ s.fuse ≤ v) ∨ (z.answers = ans 5 4 ∧ z.fw.pending = y.fw.pending))) ∧
      (link → ofs < 0xFFFFFFFF → bs = [] ∨ 64 < bs.length → goesTo .fwDeliver (replies 5 3)) ∧
      (link → ofs < 0xFFFFFFFF → bs ≠ [] → bs.length ≤ 64 → ∃ z, goesTo .fwDeliver z ∧ z.answers = ans 5 0 ∧
        { z with answers := y.answers, fw := y.fw } = y ∧ z.fw.pending = y.fw.pending ∧ z.fw.version = y.fw.version ∧
        ∀ a, tget z.fw.delivered a 0 = if ofs ≤ a ∧ a < ofs + bs.length then bs.getD (a - ofs) 0 else tget y.fw.delivered a 0)) ∧
    (y.ev = some (.moduleReset r) →
      (¬ link → goesTo .moduleReset (replies 6 2)) ∧
      (link → ∃ z, goesTo .moduleReset z ∧ z.resetStep = 0 ∧ z.answers = ans 6 0 ∧ z.parts = [] ∧ z.vfs = [] ∧ z.launches = [] ∧ z.groups = [] ∧
        z.cores = [] ∧ z.keys = [] ∧ ∀ v, y.fw.pending = some v → z.fw.version = v))

/-- R64: the ten SPDM requests, on each of three transports. A request in its order (that of the DMTF standard, PRESUMED in log entry 10) is
answered and moves the session on; one out of order is answered with an error; nothing but the session and the answers changes. Measurement 3
is the SHA-512 digest of the partition table and the VF binding table as written (in the layout of log entry 61, the model's choice), DIGESTS
that of the certificate chain. -/
def Obligations.SpdmRequests : Prop :=
  ∀ (s : State) (n : Nat), n < 3 →
    let y := s.sys
    let k := y.spdmAt n
    let req := fun (x : Instr) (e : Event) (ready : Bool) (after : Spdm) (code : Nat) (body : List Byte → Prop) =>
      y.ev = some e →
      (ready = true → ∃ z b, exec x s = .next { s with sys := z } ∧ body b ∧ z.spdmAt n = after ∧ (∀ m, m ≠ n → z.spdmAt m = y.spdmAt m) ∧
        { z with answers := y.answers, spdm := y.spdm, free := y.free } = y ∧
        z.answers = y.answers ++ [{ peer := 0x100 + n, code := code, status := 0, seq := 0, bytes := b }]) ∧
      (ready = false → exec x s = .next { s with sys := { y with answers := y.answers ++
        [{ peer := 0x100 + n, code := 0x7F, status := 4, seq := 0, bytes := [] }] } })
    let long := fun (m : Nat) (b : List Byte) => b.length = m
    req .spdmGetVersion (.spdmGetVersion n) true { version := true } 0x04 (fun b => b = [0x00, 0x12, 0x00, 0x13]) ∧
    req .spdmGetCapabilities (.spdmGetCapabilities n) k.version { k with capabilities := true } 0x61 (long 12) ∧
    req .spdmNegotiateAlgorithms (.spdmNegotiateAlgorithms n) k.capabilities { k with algorithms := true } 0x63
      (fun b => b.length = 44 ∧ field b 8 4 = 0x40 ∧ field b 12 4 = 0x04 ∧ field b 32 2 = 0x2002 ∧ field b 34 2 = 0x10 ∧
        field b 36 2 = 0x2003 ∧ field b 38 2 = 0x02) ∧
    req .spdmGetDigests (.spdmGetDigests n) k.algorithms k 0x01 (fun b => b = sha512 certChain) ∧
    req .spdmGetCertificate (.spdmGetCertificate n) k.algorithms k 0x02 (fun b => b = certChain) ∧
    (∀ c, req .spdmChallenge (.spdmChallenge n c) k.algorithms k 0x03 (long 512)) ∧
    (∀ i, i = 0 ∨ (1 ≤ i ∧ i ≤ 4) ∨ i = 0xFF → req .spdmGetMeasurements (.spdmGetMeasurements n i) k.algorithms k 0x60 (fun b =>
      (i = 0 → b = [4]) ∧ (i = 3 → b = sha512 y.tablesWritten) ∧ (i = 0xFF → b.length = 256 ∧ (b.drop 128).take 64 = sha512 y.tablesWritten))) ∧
    (∀ i, ¬ (i = 0 ∨ (1 ≤ i ∧ i ≤ 4) ∨ i = 0xFF) → y.ev = some (.spdmGetMeasurements n i) →
      exec .spdmGetMeasurements s = .next { s with sys := { y with answers := y.answers ++
        [{ peer := 0x100 + n, code := 0x7F, status := 1, seq := 0, bytes := [] }] } }) ∧
    (∀ c, req .spdmKeyExchange (.spdmKeyExchange n c) k.algorithms { k with exchanged := true, session := false } 0x64 (long 608)) ∧
    req .spdmFinish (.spdmFinish n) k.exchanged { k with exchanged := false, session := true } 0x65 (fun b => b = []) ∧
    req .spdmEndSession (.spdmEndSession n) k.session { k with session := false } 0x6C (fun b => b = [])

/-! ### Operations and events: a host's registers, rings and memory accesses -/

/-- R67 and R69: writing EN runs the rings unless a ring register or index is invalid, which sets CFGERR; clearing it pauses them; STOP completes
every command read and not started with STOPPED, drains the partition, and sets STOPPED once nothing is left; KILL also ends the VF's launches and
engine commands.
R4, R67, R68, R76 and R141: what a 32-bit write to BAR0 of a VF leaves in its registers: ring registers and GTROOT are written only while EN is
0, ACCTHR takes 1 to 65,535, and read-only registers keep what they hold. A doorbell moves PIDX forward, or is ignored with CFGERR where it
would overfill the ring or move back. CIDX is the host's, and ACCESS notifications that it passes return their counters to 0.
R67, R68, R79 and R207: a host reads EN, the settings, indices and counts as they stand, and record number k of its partition's Error Address Log
at slot k mod 256 until 256 newer ones stand there. -/
def Obligations.HostControlAndRegisters : Prop :=
  (∀ (s : State) (n : Nat),
     let y := s.sys
     let v := y.vf n
     let goesTo := fun (x : Instr) (z : Sys) => exec x s = .next { s with sys := z }
     let only := fun (x : Instr) (w : Vf → Prop) => ∃ z, goesTo x z ∧ { z with vfs := y.vfs } = y ∧ (∀ k, k ≠ n → z.vf k = y.vf k) ∧ w (z.vf n)
     let good := fun (r : Ring) => r.base.toNat % 4096 = 0 ∧ 4 ≤ r.log2n.toNat ∧ r.log2n.toNat ≤ 12 ∧ (r.pidx - r.cidx).toNat ≤ 2 ^ r.log2n.toNat
     (y.ev = some (.vfEnable n) → only .vfEnable (fun w => w.en = true ∧ w.stopped = false ∧
       (w.run = true ↔ ∀ k, k < 6 → good (v.ring k)) ∧ (w.cfgerr = true ↔ w.run = false) ∧
       (∀ k, (w.ring k).halted = false ∧ (w.ring k).base = (v.ring k).base ∧ (w.ring k).pidx = (v.ring k).pidx ∧ (w.ring k).cidx = (v.ring k).cidx) ∧
       w.heap = v.heap ∧ w.stopping = v.stopping)) ∧
     (y.ev = some (.vfPause n) → only .vfPause (fun w => w = { v with en := false, run := false })) ∧
     (y.ev = some (.vfStop n) → ∃ z, goesTo .vfStop z ∧
       z.launches = y.launches ∧ z.cmds = y.cmds ∧ z.groups = y.groups ∧
       ((z.vf n).stopping = true ∨ ((z.vf n).stopped = true ∧ (z.vf n).en = false ∧ (z.vf n).run = false)) ∧
       (y.hostCmdsOf n = [] → (∀ l ∈ y.launches, l.vf = n → l.finished = true) → (∀ w ∈ y.storeWaits, w.vf ≠ n) →
         (∀ c ∈ y.cmds, c.vf = n → c.isOpen = false) → (v.ring 0).pidx = (v.ring 0).cidx →
         (z.vf n).stopped = true ∧ (z.vf n).en = false ∧ (z.vf n).run = false) ∧
       ((∃ l ∈ y.launches, l.vf = n ∧ l.finished = false) ∨ (∃ c ∈ y.cmds, c.vf = n ∧ c.isOpen = true) → (z.vf n).stopping = true) ∧
       (v.valid = true → (y.part v.part.toNat).st = .active ∨ (y.part v.part.toNat).st = .empty → (z.part v.part.toNat).st = .draining) ∧
       (∀ c ∈ y.hostCmds, y.hostCmds.filter (fun x => x.uid == c.uid) = [c] → c.vf = n → c.running = false → c.result = none →
         ∃ x ∈ z.hostCmds, x.uid = c.uid ∧ x.result = some (.stopped, 0))) ∧
     (y.ev = some (.vfKill n) → ∃ z, goesTo .vfKill z ∧
       (∀ l ∈ z.launches, l.vf = n → l.finished = false → l.terminated = true) ∧
       (∀ g ∈ z.groups, (∃ l ∈ y.launches, l.uid = g.launch ∧ l.vf = n ∧ l.finished = false) → g.killed = true) ∧
       (∀ c, y.cmds.filter (fun x => x.handle == c.handle) = [c] → c.vf = n → ∀ x ∈ z.cmds, x.handle = c.handle → x.isOpen = false) ∧
       (∀ w ∈ z.storeWaits, w.vf ≠ n) ∧
       ((z.vf n).stopping = true ∨ ((z.vf n).stopped = true ∧ (z.vf n).en = false ∧ (z.vf n).run = false)))) ∧
  (∀ (s : State) (n : Nat),
     let y := s.sys
     let v := y.vf n
     let goesTo := fun (x : Instr) (z : Sys) => exec x s = .next { s with sys := z }
     let only := fun (x : Instr) (w : Vf) => ∃ z, goesTo x z ∧ { z with vfs := y.vfs } = y ∧ z.vf n = w ∧ ∀ k, k ≠ n → z.vf k = y.vf k
     (∀ ofs w, y.ev = some (.registerWrite n ofs w) →
       let sets := fun (f : Vf) => only .registerWrite f
       let nothing := goesTo .registerWrite y
       let low := fun (x : DWord) => (x >>> 32 <<< 32) ||| w.setWidth 64
       let high := fun (x : DWord) => (w.setWidth 64 <<< 32) ||| (x.setWidth 32).setWidth 64
       let page := fun (x : DWord) => x &&& 0x0000FFFFFFFFF000
       (∀ k, k < 6 → ∀ r, r = v.ring k → ∀ q, (ofs = 0x100 + 32 * k ∧ q = { r with base := low r.base }) ∨
           (ofs = 0x104 + 32 * k ∧ q = { r with base := high r.base }) ∨ (ofs = 0x108 + 32 * k ∧ q = { r with log2n := w.setWidth 4 }) →
         (v.en = true → nothing) ∧ (v.en = false → ∃ f : Vf, sets f ∧ f.ring k = q ∧ (∀ j, j ≠ k → f.ring j = v.ring j) ∧
           { f with rings := v.rings } = v)) ∧
       (ofs = 0x0008 → (1 ≤ w.toNat → w.toNat ≤ 65535 → sets { v with accthr := w }) ∧ (w.toNat = 0 ∨ 65535 < w.toNat → nothing)) ∧
       (ofs = 0x1000 → (v.en = true → nothing) ∧ (v.en = false → sets { v with gtroot := page (low v.gtroot) })) ∧
       (ofs = 0x1004 → (v.en = true → nothing) ∧ (v.en = false → sets { v with gtroot := page (high v.gtroot) })) ∧
       (ofs = 0x1008 → sets { v with invaddr := low v.invaddr }) ∧ (ofs = 0x100C → sets { v with invaddr := high v.invaddr }) ∧
       (ofs = 0x1018 → sets { v with miglist := low v.miglist }) ∧ (ofs = 0x101C → sets { v with miglist := high v.miglist }) ∧
       (ofs = 0x1010 → v.invbusy = false → w.getLsbD 0 = true ∨ w.getLsbD 1 = true → sets { v with invbusy := true, invall := w.getLsbD 1, invat := v.invaddr }) ∧
       (ofs = 0x1010 → v.invbusy = true ∨ (w.getLsbD 0 = false ∧ w.getLsbD 1 = false) → nothing) ∧
       (ofs = 0x1020 → w.getLsbD 8 = false → w.getLsbD 9 = false → sets { v with mign := w.setWidth 8 }) ∧
       (ofs = 0x0004 ∨ ofs = 0x000C ∨ ofs = 0x0010 ∨ (0x0400 ≤ ofs ∧ ofs < 0x0420) ∨ ofs = 0x1014 ∨ ofs = 0x1024 ∨ 0x2000 ≤ ofs → nothing)) ∧
     (∀ (x : Instr) (k : Nat) (i : Word), (x = .commandDoorbell ∧ k = 0 ∧ y.ev = some (.commandDoorbell n i)) ∨
         (x = .replyDoorbell ∧ k = 5 ∧ y.ev = some (.replyDoorbell n i)) →
       let r := v.ring k
       let bad := 2 ^ r.log2n.toNat < (i - r.cidx).toNat ∨ (i - r.cidx).toNat < (r.pidx - r.cidx).toNat
       (v.en = false ∨ ¬ bad → ∃ f : Vf, only x f ∧ f.ring k = { r with pidx := i } ∧ (∀ j, j ≠ k → f.ring j = v.ring j) ∧
         { f with rings := v.rings } = v) ∧
       (v.en = true → bad → ∃ z, goesTo x z ∧ (z.vf n).cfgerr = true ∧ (z.vf n).ring k = r ∧
         (v.valid = true → ∃ a, y.newestRecord z v.part.toNat .badcmd .host a))) ∧
     (∀ k i, y.ev = some (.cidxWrite n k i) → 1 ≤ k → k ≤ 4 → ∃ f : Vf, only .cidxWrite f ∧ f.ring k = { v.ring k with cidx := i } ∧
       (∀ j, j ≠ k → f.ring j = v.ring j) ∧ (k ≠ 3 → { f with rings := v.rings } = v) ∧
       (k = 3 → ∀ q ∈ v.accessQueued, (BitVec.ofNat 32 q.2 - (v.ring 3).cidx).toNat < (i - (v.ring 3).cidx).toNat →
         q ∉ f.accessQueued ∧ sget f.counters (q.1 / 4096) = 0))) ∧
  (∀ (y : Sys) (n : Nat),
     let v := y.vf n
     let p := y.part v.part.toNat
     let reads := fun (ofs : Nat) (w : Word) => readReg y n ofs = w
     reads 0x0000 (if v.en then 1 else 0) ∧ reads 0x0008 v.accthr ∧ reads 0x000C v.ndrop ∧
     (∀ r, r < 6 → reads (0x110 + 32 * r) (v.ring r).pidx ∧ reads (0x114 + 32 * r) (v.ring r).cidx) ∧
     (v.valid = true → reads 0x0010 (BitVec.ofNat 32 p.ealcnt) ∧ reads 0x0404 p.colourA.snapno ∧ reads 0x0414 p.colourB.snapno) ∧
     (v.valid = true → ∀ k e, k < p.ealcnt → p.ealcnt ≤ k + 256 → p.eal[p.ealcnt - 1 - k]? = some e →
       let word := fun (o : Nat) (w : Word) => reads (0x2000 + 32 * (k % 256) + o) w
       word 0x00 (e.cause.setWidth 32 ||| e.remCause.setWidth 32 <<< 8 ||| e.remLog.setWidth 32 <<< 16) ∧ word 0x04 0 ∧
       word 0x08 (e.addr.setWidth 32) ∧ word 0x0C ((e.addr >>> 32).setWidth 32) ∧
       word 0x10 (e.rkind.setWidth 32 ||| e.core.setWidth 32 <<< 3 ||| e.gslot.setWidth 32 <<< 13) ∧ word 0x14 (e.vf.setWidth 32) ∧
       word 0x18 (e.gtime.setWidth 32) ∧ word 0x1C ((e.gtime >>> 32).setWidth 32)))

/-- R70: the next command entry is read, checked in the order BADOP, DENIED, INVALID, and taken; a slot that cannot be read stops the ring with
CFGERR. R77: a reply that matches a request outstanding goes to its control processor, any other is discarded with BADREPLY. R78: a service takes a
slot of its partition, and the windows of 10 µs at whose end work waited are counted (that a window begins at each multiple of 10 µs of GTIME is
the model's choice, assumption log 63).
R69, R72, R74, R75 and R77: the oldest completion, fault record, notification or service request is written to its ring, with the phase bit of
its pass; PIDX advances and the ring's interrupt is raised. A notification is dropped, and counted, while its ring takes none. -/
def Obligations.RingEntries : Prop :=
  (∀ (s : State) (n : Nat),
     let y := s.sys
     let v := y.vf n
     let goesTo := fun (x : Instr) (z : Sys) => exec x s = .next { s with sys := z }
     (y.ev = some (.commandFetch n) →
       let r := v.ring 0
       let a := r.slot 0 r.cidx
       let openCmds := (y.hostCmdsOf n).filter (fun c => c.result.isNone)
       let ready := v.runs = true ∧ r.halted = false ∧ r.pidx ≠ r.cidx ∧ (∀ c ∈ openCmds, c.running = true) ∧ y.slotFree n 0 = true ∧
         y.runHeld n a 64 = false
       (¬ ready → exec .commandFetch s = .next s) ∧
       (ready → (readPaged s n a 64).1 = none → ∃ z, goesTo .commandFetch z ∧ ((z.vf n).ring 0).halted = true ∧ (z.vf n).cfgerr = true ∧
         ((z.vf n).ring 0).cidx = r.cidx) ∧
       (ready → ∀ b w, readPaged s n a 64 = (some b, w) →
         let opc := field b 0 1
         let taken := fun (z : Sys) (p : HostCmd → Prop) => goesTo .commandFetch z ∧
           ∃ c, z.hostCmds = w.hostCmds ++ [c] ∧ c.vf = n ∧ c.cmdid = BitVec.ofNat 16 (field b 2 2) ∧ c.opc = BitVec.ofNat 8 opc ∧
             c.payload = slice b 8 56 ∧ c.running = false ∧ p c
         let fresh := ∀ c ∈ w.hostCmds, c.uid ≠ w.nextId
         let ends := fun (st : HostStatus) => fresh → ∃ z, taken z (fun c => c.result = some (st, 0)) ∧ ((z.vf n).ring 0).cidx = r.cidx + 1
         let ordered := (bit (field b 1 1) 0 = true ∧ openCmds ≠ []) ∨ 256 ≤ openCmds.length
         (v.stopping = true → ends .stopped) ∧
         (v.stopping = false → ordered → exec .commandFetch s = .next s) ∧
         (v.stopping = false → ¬ ordered →
           (opc = 0 ∨ 6 < opc → ends .badop) ∧
           (1 ≤ opc → opc < 6 → v.valid = false → ends .denied) ∧
           (1 ≤ opc → opc ≤ 6 → v.valid = true ∨ opc = 6 → entryReserved b = true → ends .invalid) ∧
           (1 ≤ opc → opc ≤ 6 → v.valid = true ∨ opc = 6 → entryReserved b = false →
             ∃ z, taken z (fun c => c.result = none) ∧
               ((z.vf n).ring 0).cidx = (if opc = 1 ∨ opc = 5 then r.cidx else r.cidx + 1) ∧
               (v.valid = true → (y.part v.part.toNat).st = .empty → (z.part v.part.toNat).st = .active))))) ∧
     (y.ev = some (.replyTake n) →
       let r := v.ring 5
       let a := r.slot 5 r.cidx
       v.run = true → r.halted = false → r.pidx ≠ r.cidx → y.slotFree n 0 = true → y.runHeld n a 544 = false →
       ((readPaged s n a 32).1 = none → ∃ z, goesTo .replyTake z ∧ ((z.vf n).ring 5).halted = true ∧ (z.vf n).cfgerr = true ∧ z.cores = y.cores) ∧
       ∀ h w1 b w, readPaged s n a 32 = (some h, w1) →
         readPaged { s with sys := w1 } n (a + 32) (16 * countLanes (BitVec.ofNat 32 (field h 16 4))) = (some b, w) →
         ∃ z, goesTo .replyTake z ∧ ((z.vf n).ring 5).cidx = r.cidx + 1 ∧
           (∀ core, w.replyCore n h = some core → field h 4 4 ≤ 1 → numOf (slice h 20 12) = 0 →
             ∃ q : SvcReply, (z.core core).cp.replies = (w.core core).cp.replies ++ [q] ∧ q.vf = n ∧ q.seq = BitVec.ofNat 32 (field h 0 4) ∧
               q.handle = field h 8 8 ∧ q.mask = BitVec.ofNat 32 (field h 16 4) ∧ q.bytes = h ++ b) ∧
           (w.replyCore n h = none ∨ 1 < field h 4 4 ∨ numOf (slice h 20 12) ≠ 0 → z.cores = w.cores ∧
             ((w.vf n).valid = true → w.newestRecord z (w.vf n).part.toNat .badreply .host (BitVec.ofNat 64 a)))) ∧
     (y.ev = some .serviceWindowEnd →
       let ended := s.gtime / 10000
       (ended ≤ y.lastWindow → exec .serviceWindowEnd s = .next s) ∧
       (y.lastWindow < ended → ∃ z, goesTo .serviceWindowEnd z ∧ { z with parts := y.parts, lastWindow := y.lastWindow } = y ∧
         z.lastWindow = ended ∧
         ∀ p, { z.part p with slotWindows := (y.part p).slotWindows, windowUsed := (y.part p).windowUsed } = y.part p ∧
           (p < 12 → (y.part p).valid = true → (∀ k, (z.part p).windowUsed.getD k 0 = 0) ∧ ∀ k, k < (y.part p).slotWindows.length →
             (z.part p).slotWindows.getD k 0 = (y.part p).slotWindows.getD k 0 + if y.workWaits p k then ended - y.lastWindow else 0)))) ∧
  (∀ (s : State) (n : Nat),
     let y := s.sys
     let v := y.vf n
     -- an entry goes to ring k of the VF, its phase in the word at `pw`
     let puts := fun (x : Instr) (k pw : Nat) (b : List Byte) (after : Sys → Prop) =>
       let r := v.ring k
       let a := r.slot k r.pidx
       let phase := r.pidx.toNat / 2 ^ r.log2n.toNat % 2 = 0
       let bytes := if phase then b.set (pw + 3) (b.getD (pw + 3) 0 ||| 0x80) else b
       v.runs = true → r.halted = false → (r.pidx - r.cidx).toNat < 2 ^ r.log2n.toNat → y.slotFree n (if k = 2 then 1 else 0) = true →
       y.runHeld n a b.length = false → pagedStalls s n a b.length = false →
       (∀ e w, writePaged s n a bytes .flag = (some e, w) → ∃ z, exec x s = .next { s with mem := writeCells s.mem e.cells, sys := z } ∧
         ((z.vf n).ring k).pidx = r.pidx + 1 ∧ (k - 1) ∈ (z.vf n).msix ∧ after z) ∧
       ((writePaged s n a bytes .flag).1 = none → ∃ z, exec x s = .next { s with sys := z } ∧ ((z.vf n).ring k).halted = true ∧
         ((z.vf n).ring k).pidx = r.pidx ∧ (z.vf n).cfgerr = true)
     (y.ev = some (.completionWrite n) → ∀ u rest c st x, v.completions = u :: rest → y.hostCmd? u = some c → c.result = some (st, x) →
       puts .completionWrite 1 0 (bytesOf 2 c.cmdid.toNat ++ bytesOf 2 c.opc.toNat ++ bytesOf 4 st.code ++ bytesOf 8 x.toNat)
         (fun z => (z.vf n).completions = rest ∧ ∀ d ∈ z.hostCmds, d.uid ≠ u)) ∧
     (y.ev = some (.faultRecordWrite n) → ∀ f rest, v.faults = f :: rest →
       puts .faultRecordWrite 2 0 (bytesOf 4 f.kind.toNat ++ bytesOf 4 n ++ bytesOf 8 f.vaddr.toNat ++ bytesOf 8 f.access.toNat ++
         bytesOf 8 f.cmdh ++ bytesOf 4 f.first.toNat ++ bytesOf 4 f.count.toNat ++ List.replicate 24 0) (fun z => (z.vf n).faults = rest)) ∧
     (y.ev = some (.notificationWrite n) → ∀ f rest, v.notifications = f :: rest →
       puts .notificationWrite 3 0 (bytesOf 4 f.kind.toNat ++ bytesOf 4 0 ++ bytesOf 8 f.data.toNat)
         (fun z => ∃ more, (z.vf n).notifications = rest ++ more) ∧
       (v.ringOpen 3 = false → ∃ z, exec .notificationWrite s = .next { s with sys := z } ∧ { z with vfs := y.vfs } = y ∧
         (z.vf n).notifications = rest ∧ (z.vf n).ndrop = (if v.ndrop = 0xFFFFFFFF then v.ndrop else v.ndrop + 1))) ∧
     (∀ part p rest, y.ev = some (.serviceRequestWrite part) → (y.part part).svcq = p :: rest → p.vf = n →
       let words := p.args.flatMap (fun a => bytesOf 4 a.1 ++ a.2.flatMap (fun w => bytesOf 4 w.toNat) ++ bytesOf 4 0)
       puts .serviceRequestWrite 4 4 (bytesOf 4 p.seq.toNat ++ bytesOf 4 (part + n * 2 ^ 8 + p.args.length * 2 ^ 16) ++
         bytesOf 4 p.launchId.toNat ++ bytesOf 4 p.code.toNat ++ bytesOf 8 p.handle ++ bytesOf 4 p.mask.toNat ++ List.replicate 36 0 ++ words)
         (fun z => (z.part part).svcq = rest)))

/-- R57 and R166: a CXL.mem write performs at its home, and its completion waits until GTIME has passed its GWCT; a read returns the bytes of the
heap window. A place outside the window is LIMIT, with a record. -/
def Obligations.CxlMemory : Prop :=
  ∀ s : State,
    let y := s.sys
    let goesTo := fun (x : Instr) (z : Sys) => exec x s = .next { s with sys := z }
    let fails := fun (x : Instr) (vf : Nat) (code : Nat) (a : Nat) (c : Cause) => ∃ z, goesTo x z ∧
      z.answers = y.answers ++ [{ peer := vf, code := code, status := c.code, seq := 0, bytes := [] }] ∧
      ((y.vf vf).valid = true → y.newestRecord z (y.vf vf).part.toNat c .host (BitVec.ofNat 64 a))
    (∀ vf a bs, y.ev = some (.cxlMemWrite vf a bs) → 1 ≤ bs.length → a % 64 + bs.length ≤ 64 → (y.vf vf).valid = true →
      let at_ := heapFlat (y.part (y.vf vf).part.toNat) (y.vf vf).heap a bs.length
      (at_ = none → fails .cxlMemWrite vf 0x200 a .limit) ∧
      (∀ f k, at_ = some (f, k) → y.writeStalls f bs.length = false →
        (∀ c, y.writeError f bs.length k = some c → fails .cxlMemWrite vf 0x200 a c) ∧
        (y.writeError f bs.length k = none → ∃ z w, exec .cxlMemWrite s = .next { s with mem := writeCells s.mem (cellsAt f bs), sys := z } ∧
          z.hostWrites = y.hostWrites ++ [w] ∧ w.vf = vf ∧ s.gtime ≤ w.gwct ∧ w.gwct = y.gwct s.gtime f bs.length ∧ z.answers = y.answers))) ∧
    (∀ u w, y.ev = some (.cxlMemWriteComplete u) → y.hostWrites.find? (fun w => w.id == u) = some w →
      (s.gtime ≤ w.gwct → goesTo .cxlMemWriteComplete y) ∧
      (w.gwct < s.gtime → goesTo .cxlMemWriteComplete { y with
        hostWrites := y.hostWrites.filter (fun x => x.id != u),
        answers := y.answers ++ [{ peer := w.vf, code := 0x200, status := 0, seq := 0, bytes := [] }] })) ∧
    (∀ vf a n, y.ev = some (.cxlMemRead vf a n) → 1 ≤ n → a % 64 + n ≤ 64 → (y.vf vf).valid = true →
      let at_ := heapFlat (y.part (y.vf vf).part.toNat) (y.vf vf).heap a n
      (at_ = none → fails .cxlMemRead vf 0x201 a .limit) ∧
      (∀ f k, at_ = some (f, k) →
        (∀ c, y.readError f n k = some c → fails .cxlMemRead vf 0x201 a c) ∧
        (y.readError f n k = none → ∃ z, goesTo .cxlMemRead z ∧
          { z with answers := y.answers, frames := y.frames, corrected := y.corrected, dies := y.dies } = y ∧
          z.answers = y.answers ++ [{ peer := vf, code := 0x201, status := 0, seq := 0, bytes := readBytes s.mem f n }])))

/-- R139-R143: a page walk is cached in its I/O die's TLBs, or leaves its fault with the command; INVPAGE and INVALL set INVBUSY, which clears
when no engine access under a covered translation is in flight, with those translations gone (and every nested translation of the VF: DEDUCED,
assumption log 32); MIGGO selects the first unpinned candidate or waits for one, MIGDONE
ends the selection. -/
def Obligations.PagingAndMigration : Prop :=
  ∀ (s : State) (n : Nat),
    let y := s.sys
    let v := y.vf n
    let goesTo := fun (x : Instr) (z : Sys) => exec x s = .next { s with sys := z }
    let only := fun (x : Instr) (w : Vf) => ∃ z, goesTo x z ∧ { z with vfs := y.vfs } = y ∧ z.vf n = w ∧ ∀ k, k ≠ n → z.vf k = y.vf k
    (∀ va write cmd, y.ev = some (.pageWalk n va write cmd) →
      (y.pageHeld n va = true → goesTo .pageWalk y) ∧
      (y.pageHeld n va = false → ∀ w, walk s (y.walkerOf n cmd) n va write = .ok w → ∃ z, goesTo .pageWalk z ∧
        { z with tlb := y.tlb, nested := y.nested, free := y.free } = y ∧ w.guest ∈ z.tlb ∧ z.nested = w.nested ∧
        (z.tlb.filter (fun x => x.iod == w.guest.iod)).length ≤ 2048 ∧ (∀ x ∈ z.tlb, x = w.guest ∨ x ∈ y.tlb) ∧
        ∀ x ∈ y.tlb, x.iod ≠ w.guest.iod → x ∈ z.tlb) ∧
      (y.pageHeld n va = false → ∀ k c, walk s (y.walkerOf n cmd) n va write = .error k → y.cmd? cmd = some c → c.vf = n → c.status = .running →
        ∃ z, goesTo .pageWalk z ∧ { z with walkFaults := y.walkFaults } = y ∧
          ∃ x ∈ z.walkFaults, x.cmd = cmd ∧ x.page = va / 4096 * 4096 ∧ x.write = write)) ∧
    (y.ev = some (.invpage n) → (v.invbusy = true → goesTo .invpage y) ∧
      (v.invbusy = false → only .invpage { v with invbusy := true, invall := false, invat := v.invaddr })) ∧
    (y.ev = some (.invall n) → (v.invbusy = true → goesTo .invall y) ∧ (v.invbusy = false → only .invall { v with invbusy := true, invall := true })) ∧
    (y.ev = some (.invalidationComplete n) →
      let covered := fun (t : GuestEntry) => t.vf = n ∧ (v.invall = true ∨ (t.page ≤ v.invat.toNat ∧ v.invat.toNat < t.page + t.size))
      (v.invbusy = false ∨ y.pagedFlight n v.invall v.invat.toNat = true → goesTo .invalidationComplete y) ∧
      (v.invbusy = true → y.pagedFlight n v.invall v.invat.toNat = false → ∃ z, goesTo .invalidationComplete z ∧
        { z with vfs := y.vfs, tlb := y.tlb, nested := y.nested } = y ∧ z.vf n = { v with invbusy := false, invall := false } ∧
        (∀ k, k ≠ n → z.vf k = y.vf k) ∧ (∀ t, t ∈ z.tlb ↔ t ∈ y.tlb ∧ ¬ covered t) ∧ ∀ h, h ∈ z.nested ↔ h ∈ y.nested ∧ h.vf ≠ n)) ∧
    (y.ev = some (.miggo n) →
      (v.migstat = .waiting ∨ v.migstat = .selected → goesTo .miggo y) ∧
      (v.migstat ≠ .waiting → v.migstat ≠ .selected →
        let m := v.mign.toNat
        (m = 0 ∨ 64 < m ∨ v.miglist.toNat % 8 ≠ 0 → only .miggo { v with migstat := .invalidList }) ∧
        (1 ≤ m → m ≤ 64 → v.miglist.toNat % 8 = 0 → 
          (readPaged s n (v.miglist.toNat % 2 ^ 48) (8 * m)).1 = none → ∃ z, goesTo .miggo z ∧ (z.vf n).migstat = .invalidList) ∧
        (1 ≤ m → m ≤ 64 → v.miglist.toNat % 8 = 0 → ∀ b w, readPaged s n (v.miglist.toNat % 2 ^ 48) (8 * m) = (some b, w) →
          let cs := (List.range m).map (fun j => candidateRange s n (field b (8 * j) 8 % 2 ^ 48))
          ∃ z, goesTo .miggo z ∧ (z.vf n).candidates = cs ∧
            ((∀ c ∈ cs, w.pinned n c = true) → (z.vf n).migstat = .waiting) ∧
            (∀ j, j < m → w.pinned n (cs.getD j (0, 0)) = false → (∀ k, k < j → w.pinned n (cs.getD k (0, 0)) = true) →
              (z.vf n).migstat = .selected ∧ (z.vf n).migsel.toNat = j)))) ∧
    (y.ev = some (.migdone n) → only .migdone { v with migstat := .idle, candidates := [] }) ∧
    (y.ev = some (.migrationSelect n) →
      (v.migstat ≠ .waiting → goesTo .migrationSelect y) ∧
      (v.migstat = .waiting → ∀ j, j < v.candidates.length → j < 256 → y.pinned n (v.candidates.getD j (0, 0)) = false →
        (∀ k, k < j → y.pinned n (v.candidates.getD k (0, 0)) = true) →
        only .migrationSelect { v with migsel := BitVec.ofNat 8 j, migstat := .selected }))

/-! ### Operations and events: host commands -/

/-- R71, R73, R183, R189, R225 and R42: what each host command does once it starts: LAUNCH stores its record or waits for room, FAULT_RESUME lets
a faulted command go on or ends it, MEMBER changes its group and counts its generation, REMAP changes the table entry and leaves a tombstone,
SNAP_REQ asks the coordinator, and QUERY writes its result. Each refusal has its status and, in a bound VF, its record. -/
def Obligations.HostCommands : Prop :=
  ∀ (s : State) (u : Nat) (c : HostCmd),
    let y := s.sys
    let v := y.vf c.vf
    let p := v.part.toNat
    let y1 := y.startHost u
    let goesTo := fun (x : Instr) (z : Sys) => exec x s = .next { s with sys := z }
    let ended := fun (z : Sys) (st : HostStatus) (r : DWord) =>
      (∃ k, z.hostCmd? u = some k ∧ k.result = some (st, r)) ∧ ∃ l, (z.vf c.vf).completions = l ++ [u]
    let refused := fun (x : Instr) (w : Sys) (st : HostStatus) (a r : DWord) => ∃ z, goesTo x z ∧ ended z st r ∧
      (v.valid = true → w.newestRecord z p (if st = .key then .key else .badcmd) .host a)
    -- the partition may have a slot of the host ring service (R78)
    let slot := y.slotFree c.vf 0 = true
    (∀ x e opc, (x, e, opc) ∈ [(Instr.hostLaunch, Event.hostLaunch u, 1), (.faultResume, .faultResume u, 2), (.member, .member u, 3),
        (.snapReq, .snapReq u, 5), (.query, .query u, 6)] → y.ev = some e → y.readyCmd u opc = some c → ¬ slot → exec x s = .next s) ∧
    (y.ev = some (.hostLaunch u) → y.readyCmd u 1 = some c → slot →
      let a := field c.payload 0 8
      let free := spaceOf a ≠ 1 ∨ y.runHeld c.vf (offsetOf a % 2 ^ 48) 128 = false
      (y.timeReady = false → exec .hostLaunch s = .next s) ∧
      (y.timeReady = true → free → a % 128 ≠ 0 → refused .hostLaunch y .invalid c.slotAddr 0) ∧
      (y.timeReady = true → free → a % 128 = 0 → ∀ w, hostRecord { s with sys := y1 } c.vf a v = (none, w) →
        refused .hostLaunch w .invalid c.slotAddr 0) ∧
      (y.timeReady = true → free → a % 128 = 0 → ∀ b w, hostRecord { s with sys := y1 } c.vf a v = (some b, w) →
        let r := recordOf b
        let id := r.launchId.setWidth 64
        let checked := checkRecord w p c.vf v.heap true (heapReader { s with sys := w } p v.heap) a r
        let w1 := Sys.afterReads p v.heap (w.logHostRead s.gtime p c.vf) checked.2 w
        (v.windowKeysOk v.heap = false → refused .hostLaunch w .key c.slotAddr id) ∧
        (v.windowKeysOk v.heap = true → ∀ e, checked.1 = .error e → refused .hostLaunch w1 .invalid (BitVec.ofNat 64 e) id) ∧
        (v.windowKeysOk v.heap = true → ∀ ks m, checked.1 = .ok (ks, m) →
          let room := w.storeRoom p = true ∧ ∀ q ∈ w.storeWaits, q.part ≠ p
          (room → ∃ z l, goesTo .hostLaunch z ∧ z.launches = w.launches ++ [l] ∧ z.storeWaits = w.storeWaits ∧ l.record = r ∧ l.part = p ∧
            l.vf = c.vf ∧ l.hostCmd = some u ∧ l.consts = ks ∧ l.prio = m ∧ l.placed = 0 ∧ l.inStore = true ∧ l.heap = v.heap) ∧
          (¬ room → ∃ z q, goesTo .hostLaunch z ∧ z.launches = w.launches ∧ z.storeWaits = w.storeWaits ++ [q] ∧ q.record = r ∧ q.part = p ∧
            q.vf = c.vf ∧ q.hostCmd = some u ∧ q.consts = ks ∧ q.prio = m)))) ∧
    (y.ev = some (.faultResume u) → y.readyCmd u 2 = some c → slot →
      (y.slotFree c.vf 1 = false → exec .faultResume s = .next s) ∧
      (y.slotFree c.vf 1 = true →
      let h := field c.payload 0 8
      (∀ k, y.cmds.filter (fun x => x.handle == h) = [k] → k.vf = c.vf → k.status = .faulted →
        (bit (field c.payload 8 4) 0 = false → ∃ z, goesTo .faultResume z ∧
          z.cmd? h = some { k with status := .running, skipped := [], resume := some u } ∧
          ∀ x, z.hostCmd? u = some x → x.running = true ∧ x.result = none) ∧
        (bit (field c.payload 8 4) 0 = true → ∃ z, goesTo .faultResume z ∧ ended z .ok 0 ∧ (∀ x ∈ z.cmds, x.handle = h → x.status = .aborted) ∧
          y.newestRecord z k.part .cmdabort .engine 0)) ∧
      (∀ k, y.cmd? h = some k → k.vf ≠ c.vf ∨ k.status ≠ .faulted → ∃ z, goesTo .faultResume z ∧ ended z .notfound 0 ∧ z.cmds = y.cmds) ∧
      (y.cmd? h = none → ∃ z, goesTo .faultResume z ∧ ended z .notfound 0 ∧ z.cmds = y.cmds))) ∧
    (y.ev = some (.member u) → y.readyCmd u 3 = some c → slot →
      let g := field c.payload 0 2
      let chip := field c.payload 4 4 % 4096
      let out := bit (field c.payload 4 4) 16
      let old : CollGroup := tget (y.part p).cgroups g {}
      let here := y.domainParts p
      let live := here.filter (fun q => out && (y.part q).joined)
      (y.remapping ≠ [] → exec .member s = .next s) ∧
      (y.remapping = [] → 64 ≤ g ∨ (chip ∈ old.members ↔ out = false) → refused .member y .invalid c.slotAddr 0) ∧
      (y.remapping = [] → g < 64 → (chip ∈ old.members ↔ out = true) →
        y.allStall ((live.flatMap (fun q => y.boundContribs q g)).map (fun e => (e.line * 128, 128))) = false →
        (∀ k ∈ y.cmds, k.resume ≠ some u) → ∃ t, exec .member s = .next t ∧ ended t.sys .ok ((old.gen + 1).setWidth 64) ∧
          (∀ q ∈ here, let new : CollGroup := tget (t.sys.part q).cgroups g {}
            new.gen = old.gen + 1 ∧ (∀ m, m ∈ new.members ↔ if out then m ∈ old.members ∧ m ≠ chip else m ∈ old.members ∨ m = chip) ∧
            ∀ j, j ≠ g → tget (t.sys.part q).cgroups j {} = (tget (y.part q).cgroups j {} : CollGroup)) ∧
          (out = false ∨ (y.part p).joined = false → t.mem = s.mem ∧ t.sys.cmds = y.cmds) ∧
          (out = true → (y.part p).joined = true → (∀ q ∈ here, ∀ k, y.cmds.filter (fun x => x.handle == k.handle) = [k] → k.routeOpen q g = true →
              ∀ x ∈ t.sys.cmds, x.handle = k.handle → x.isOpen = false) ∧
            ∀ a, (∀ q ∈ here, ∀ e ∈ y.boundContribs q g, a < e.line * 128 ∨ e.line * 128 + 128 ≤ a) →
              (∀ q ∈ here, ∀ e ∈ y.boundContribs q g, ∀ d, e.declared = some d → a < d.2 ∨ d.2 + 16 ≤ a) → readByte t.mem a = readByte s.mem a))) ∧
    (∀ dom g gen ms, y.ev = some (.memberElsewhere dom g gen ms) →
      let here := allParts.filter (fun q => (y.part q).valid && (y.part q).joined && (y.part q).dom.toNat == dom)
      y.allStall ((here.flatMap (fun q => y.boundContribs q g)).map (fun e => (e.line * 128, 128))) = false → ∃ t, exec .member s = .next t ∧
        ∀ q ∈ here, let new : CollGroup := tget (t.sys.part q).cgroups g {}
          new.gen = gen ∧ ∀ m, m ∈ new.members ↔ m ∈ ms) ∧
    (let dom := field c.payload 0 1
     let l := field c.payload 4 2
     let new : BitVec 12 := BitVec.ofNat 12 (field c.payload 8 2)
     let win := field c.payload 12 4
     let e := y.remapOf dom l
     let here := e.valid = true ∧ e.phys = y.phys
     let full := 64 ≤ (y.tombstones.filter (fun t => t.dom == dom && t.lchip != l)).length
     let ok := (y.part p).joined = true ∧ (y.part p).dom.toNat = dom
     (y.ev = some (.remap u) → y.readyCmd u 4 = some c → (∀ r ∈ y.remapping, r.1 ≠ u) →
      (¬ slot → exec .remap s = .next s) ∧
      (slot → ¬ ok → refused .remap y .denied c.slotAddr 0) ∧
      (slot → ok → win ≠ 0 → win < 10 ∨ 1000 < win → refused .remap y .invalid c.slotAddr 0) ∧
      (slot → ok → win = 0 ∨ (10 ≤ win ∧ win ≤ 1000) →
        (here → full → ∃ z, goesTo .remap z ∧ ended z .busy 0 ∧ z.remap = y.remap ∧ z.tombstones = y.tombstones) ∧
        (¬ (here ∧ full) → y.coloursClear dom = false ∨ y.remapping ≠ [] → exec .remap s = .next s) ∧
        (¬ (here ∧ full) → y.coloursClear dom = true → y.remapping = [] → goesTo .remap { y1 with remapping := [(u, dom)] }))) ∧
     (y.ev = some (.remap u) → (∃ r ∈ y.remapping, r.1 = u) → y.hostCmd? u = some c → c.result = none → ∃ z, goesTo .remap z ∧
       ended z .ok ((e.gen + 1).setWidth 64) ∧ z.remapping = [] ∧ z.remapOf dom l = { phys := new, valid := true, gen := e.gen + 1 } ∧
       (∀ d m, d * 4096 + m ≠ dom * 4096 + l → z.remapOf d m = y.remapOf d m) ∧
       (here → ({ dom := dom, lchip := l, phys := new, gen := e.gen + 1,
                  expiry := s.gtime + 1000 * (if win = 0 then 50 else win) } : Tombstone) ∈ z.tombstones) ∧
       (¬ here → z.tombstones = y.tombstones))) ∧
    (∀ dom l new gen win, y.ev = some (.remapElsewhere dom l new gen win) →
      let here := (y.remapOf dom l).valid = true ∧ (y.remapOf dom l).phys = y.phys
      let full := 64 ≤ (y.tombstones.filter (fun t => t.dom == dom && t.lchip != l)).length
      (y.coloursClear dom = true → ¬ (here ∧ full) → ∃ z, goesTo .remap z ∧ z.remapOf dom l = { phys := new, valid := true, gen := gen } ∧
        (here → ({ dom := dom, lchip := l, phys := new, gen := gen, expiry := s.gtime + 1000 * win } : Tombstone) ∈ z.tombstones))) ∧
    (y.ev = some (.snapReq u) → y.readyCmd u 5 = some c → slot →
      let a := field c.payload 0 8
      y.runHeld c.vf (a % 2 ^ 48) 64 = false →
      (a % 64 ≠ 0 → refused .snapReq y .invalid c.slotAddr 0) ∧
      (a % 64 = 0 → ∀ w, readPaged { s with sys := y1 } c.vf (a % 2 ^ 48) 64 = (none, w) → refused .snapReq w .invalid c.slotAddr 0) ∧
      (a % 64 = 0 → ∀ b w, readPaged { s with sys := y1 } c.vf (a % 2 ^ 48) 64 = (some b, w) →
        (∀ e k, snapValid { s with sys := w } p c.vf v.heap a b = .error (e, k) → refused .snapReq w .invalid (BitVec.ofNat 64 e) 0) ∧
        (∀ rs, snapValid { s with sys := w } p c.vf v.heap a b = .ok rs →
          let q := w.part p
          let rc : BitVec 2 := BitVec.ofNat 2 (bits (field b 0 4) 9 8)
          let r : SnapReq := { cp := none, host := some u, reqcol := rc, desc := b, regions := rs }
          (q.coordinator ≠ q.chip.toNat → ∃ z, goesTo .snapReq z ∧ (z.part p).snapReqs = q.snapReqs ++ [r]) ∧
          (q.coordinator = q.chip.toNat → q.snapReqs = [] →
            (∀ x, w.pickColour p rc = some x → ∃ z, goesTo .snapReq z ∧ (z.part p).snapReqs = [] ∧ (z.coord p x).flag = true ∧
              (z.colour p x).desc = some r ∧ (z.colour p x).hostCmd = some u ∧ (z.colour p x).trec = some (s.gtime + 1000)) ∧
            (w.pickColour p rc = none → ∃ z, goesTo .snapReq z ∧ (z.part p).snapReqs = [] ∧ ended z .nocolour 0))))) ∧
    (y.ev = some (.query u) → y.readyCmd u 6 = some c → slot →
      let sel := field c.payload 0 1
      let buf := field c.payload 8 8
      let fits := buf % 8 = 0 ∧ (spaceOf buf = 0 ∨ spaceOf buf = 1) ∧ offsetOf buf < 2 ^ 48
      (v.valid = false → sel ≠ 0 → sel ≠ 4 → refused .query y .denied c.slotAddr 0) ∧
      (v.valid = true → 5 < sel → refused .query y .invalid c.slotAddr 0) ∧
      (v.valid = true ∨ sel = 0 ∨ sel = 4 → queryBytes y1 c.vf sel (field c.payload 4 4) = none → refused .query y .invalid c.slotAddr 0) ∧
      (v.valid = true ∨ sel = 0 ∨ sel = 4 → ∀ b y2, queryBytes y1 c.vf sel (field c.payload 4 4) = some (b, y2) →
        (sel = 2 → b = y1.timeBytes) ∧ (sel = 3 → b = (y1.part p).bytes) ∧ (sel = 4 → b = v.bindBytes) ∧ (sel = 5 → b.length = 48) ∧
        (¬ fits → refused .query y .invalid (BitVec.ofNat 64 buf) 0) ∧
        (fits → y.runHeld c.vf (buf % 2 ^ 48) b.length = false → pagedStalls { s with sys := y2 } c.vf (buf % 2 ^ 48) b.length = false →
          (∀ e w, writePaged { s with sys := y2 } c.vf (buf % 2 ^ 48) b .data = (some e, w) → ∃ z,
            exec .query s = .next { s with mem := writeCells s.mem e.cells, sys := z } ∧ ended z .ok (BitVec.ofNat 64 b.length)) ∧
          (∀ w, writePaged { s with sys := y2 } c.vf (buf % 2 ^ 48) b .data = (none, w) →
            refused .query w .invalid (BitVec.ofNat 64 buf) 0))))

/-! ### Operations and events: launches, gangs, groups and bins -/

/-- R95 and R84 to R87: a freed entry of the pending-launch store goes to the request that has waited longest, and takes its heap window as it then
stands (R132). The launch at the head of the
queue places a gang whole on the first cluster, each block on the core of its rank, with the groups of R88. A group that every lane has left is
released once its MMAs and MMAJ are over, its block once it is the last and no MLOOP or ALOAD.M of the block remains, and the gang's windows once
every block is. A launch is finished when its blocks are released and no group or bin of it remains: it arrives at CBAR, once its accesses are
globally performed (R165), completes its command, and lets children go on.
R91, R94 and R89: a bin closes when BINTIME clocks have passed and then forms one group, thread i in lane i, with helper lanes to the end of its last quad. The
oldest GROW of a quadrant is granted once the pool has its registers. -/
def Obligations.LaunchesGangsAndBins : Prop :=
  (∀ s : State,
     let y := s.sys
     let goesTo := fun (x : Instr) (z : Sys) => exec x s = .next { s with sys := z }
     (∀ p pre w post, y.ev = some (.launchStoreGrant p) → y.storeWaits = pre ++ w :: post → w.part = p → (∀ x ∈ pre, x.part ≠ p) →
       (y.storeRoom p = false → goesTo .launchStoreGrant y) ∧
       (y.storeRoom p = true → ∃ z l, goesTo .launchStoreGrant z ∧ z.storeWaits = pre ++ post ∧ z.launches = y.launches ++ [l] ∧
         l.record = w.record ∧ l.part = p ∧ l.vf = w.vf ∧ l.heap = (y.vf w.vf).heap ∧ l.consts = w.consts ∧ l.prio = w.prio ∧ l.hostCmd = w.hostCmd ∧
         l.waitParent = w.parent ∧ l.inStore = true ∧ l.placed = 0 ∧
         (∀ u, w.hostCmd = some u → z.groups = y.groups) ∧
         (w.hostCmd = none → ∀ g, y.group? w.group = some g → ∃ g', z.group? w.group = some g' ∧
           sget g'.regs.v (w.lane * 128 + w.reg) = 0 ∧ g'.frontier = g.frontier))) ∧
     (∀ p, y.ev = some (.gangPlace p) →
       (y.queue p = [] → goesTo .gangPlace y) ∧
       (∀ l ∈ y.launches, y.launches.filter (fun x => x.uid == l.uid) = [l] → l.record.det = true →
         ∃ z, goesTo .gangPlace z ∧ ∀ x, z.launch? l.uid = some x →
           x.placed = l.placed ∨ x.placed = l.placed + min l.record.gangP.toNat (l.record.blocks - l.placed)) ∧
       (∀ l rest cl cls, y.queue p = l :: rest → y.launches.filter (fun x => x.uid == l.uid) = [l] → (y.part p).clusters = cl :: cls →
         let r := l.record
         let n := min r.gangP.toNat (r.blocks - l.placed)
         (∀ g ∈ y.groups, ∀ j, j < 4 → g.core ≠ clusterCore cl j) → (∀ b ∈ y.blocks, ∀ j, j < 4 → b.core ≠ clusterCore cl j) →
         (∀ j, j < 4 → fitsEmpty (y.part p) r ((n - j + 3) / 4) = true) →
         ∃ z, goesTo .gangPlace z ∧ y.groups <+: z.groups ∧ y.blocks <+: z.blocks ∧ z.blocks.length = y.blocks.length + n ∧
           z.groups.length = y.groups.length + n * r.gpb.toNat ∧
           (∃ x, z.launch? l.uid = some x ∧ x.placed = l.placed + n ∧ x.gangs = l.gangs + 1 ∧ x.inStore = decide (l.placed + n < r.blocks)) ∧
           (∀ k, k ≠ l.uid → z.launch? k = y.launch? k) ∧
           ∀ k, k < n → ∃ b ∈ z.blocks, b.launch = l.uid ∧ b.index = l.placed + k ∧ b.gang = l.placed ∧ b.rank = k ∧ b.gangSize = n ∧
             b.core = clusterCore cl (k % 4) ∧ b.scrBytes = r.scrBytes.toNat ∧ b.released = false ∧
             (∀ r ∈ b.scr, (y.part p).dsres.toNat * 16384 ≤ r.1 ∧ r.1 + r.2 ≤ 224 * 16384) ∧ (b.scr.map (fun r => r.2)).sum = r.scrBytes.toNat ∧
             ∀ m, m < r.gpb.toNat → ∃ g ∈ z.groups, g.block = some b.uid ∧ g.launch = l.uid ∧ g.gix = m ∧ g.quadrant = m % 4 ∧
               g.core = b.core ∧ g.slot / 16 = m % 4 ∧ g.allot = r.regs.toNat ∧ g.lanes = 0xFFFFFFFF ∧
               g.frontier = [{ pc := r.entry, mask := 0xFFFFFFFF, j := 0, st := .ready }] ∧
               g.blockX.toNat = b.index % r.gridX.toNat % 2 ^ 32 ∧ g.blockY.toNat = b.index / r.gridX.toNat % r.gridY.toNat ∧
               g.gangRank.toNat = k ∧ g.gangSize.toNat = n ∧ g.scrBytes = r.scrBytes ∧
               (∀ j, sget g.regs.k j = l.consts.getD j 0) ∧ (∀ j, sget g.regs.v j = 0) ∧ (∀ j, sget g.regs.p j = 0) ∧
               g.regs.frm = 0 ∧ g.regs.mpb = 0)) ∧
     (∀ h g, y.ev = some (.groupRelease h) → y.groups.filter (fun x => x.handle == h) = [g] →
       let isOver := g.lanes = 0 ∧ y.quietGroup h = true ∧ g.mmaj = none ∧ g.mmas = []
       let kept := fun (z : Sys) => z.blocks = y.blocks ∧ z.launches = y.launches ∧ z.tiles = y.tiles ∧ z.tileOwner = y.tileOwner
       let stays := fun (u : Nat) => y.tileWork u = true ∨ ∃ x ∈ y.groups, x.handle ≠ h ∧ (x.block = some u ∨ x.handle = u)
       (¬ isOver → goesTo .groupRelease y) ∧
       (isOver → ∃ z, goesTo .groupRelease z ∧ z.groups = y.groups.filter (fun x => x.handle != h) ∧
         { z with groups := y.groups, accesses := y.accesses, cores := y.cores, blocks := y.blocks, launches := y.launches, tiles := y.tiles,
                  accBad := y.accBad, tileOwner := y.tileOwner } = y ∧
         (g.block = none → (∀ x ∈ y.blocks, x.uid ≠ h) → z.blocks = y.blocks ∧ (stays h → kept z) ∧ (¬ stays h → ∀ t ∈ z.tileOwner, t.2 ≠ h)) ∧
         (∀ u b l, g.block = some u → y.blocks.filter (fun x => x.uid == u) = [b] → y.launches.filter (fun x => x.uid == b.launch) = [l] →
           (stays u → kept z) ∧
           (¬ stays u →
             (∃ k, z.launch? b.launch = some k ∧ k.releasedBlocks = l.releasedBlocks + 1) ∧ (∀ t ∈ z.tileOwner, t.2 ≠ u) ∧
             let peer := fun (x : Block) => x.launch = b.launch ∧ x.gang = b.gang
             ((∃ x ∈ y.blocks, peer x ∧ x.uid ≠ u ∧ x.released = false) → z.blocks.length = y.blocks.length ∧
               ∀ x ∈ z.blocks, x.uid = u → x.released = true) ∧
             ((∀ x ∈ y.blocks, peer x → x.uid ≠ u → x.released = true) → ∀ x, x ∈ z.blocks ↔ x ∈ y.blocks ∧ ¬ peer x))))) ∧
     (∀ u l, y.ev = some (.launchFinish u) → y.launches.filter (fun x => x.uid == u) = [l] →
       let isOver := l.finished = false ∧ (l.stopped = true ∨ l.releasedBlocks = l.record.blocks) ∧ (∀ g ∈ y.groups, g.launch ≠ u) ∧
         (∀ c ∈ y.cores, ∀ b ∈ c.2.bins, b.2.st ≠ .free → b.2.launch ≠ u) ∧
         (l.record.det = true → l.stopped = true ∨ l.serial = l.record.blocks) ∧
         (l.record.cbar ≠ 0 → l.release + y.margin ≤ s.gtime)
       let ended := fun (z : Sys) (term : Bool) =>
         (∀ x ∈ z.launches, x.waitParent ≠ some u) ∧
         (l.record.dgv = false → ∀ x ∈ z.launches, x.uid ≠ u) ∧
         (l.record.det = true → l.record.dgv = true → l.ticks.started = true → ∃ x, z.launch? u = some x ∧ x.finished = true) ∧
         ∀ k c, l.hostCmd = some k → y.hostCmds.filter (fun x => x.uid == k) = [c] → c.result = none →
           ∃ x ∈ z.hostCmds, x.uid = k ∧ x.result = some (if term then .terminated else .ok, l.record.launchId.setWidth 64)
       (¬ isOver → goesTo .launchFinish y) ∧
       (isOver → l.record.cbar = 0 → ∃ z, goesTo .launchFinish z ∧ ended z l.terminated ∧ z.groups = y.groups) ∧
       (isOver → l.record.cbar ≠ 0 → ∀ f, y.sramObject l.part l.vf l.record.cbar.toNat 16 = some f → y.writeStalls f 16 = false →
         let r := (readBar s.mem f).apply .arrive
         (y.readError f 16 0 = none → ∃ t, exec .launchFinish s = .next t ∧ readBar t.mem f = r.obj ∧ ended t.sys (l.terminated || r.isOver) ∧
           ∀ a, a < f ∨ f + 16 ≤ a → readByte t.mem a = readByte s.mem a) ∧
         (∀ e, y.readError f 16 0 = some e → ∃ z, goesTo .launchFinish z ∧ ended z true ∧ y.newestRecord z l.part e .host l.record.cbar)))) ∧
  (∀ s : State,
     let y := s.sys
     let goesTo := fun (x : Instr) (z : Sys) => exec x s = .next { s with sys := z }
     (∀ c n, y.ev = some (.binTimeout c n) →
       let b : Bin := tget (y.core c).bins n {}
       let due := b.st = .filling ∧ b.since + b.limit ≤ y.clocks
       (¬ due → goesTo .binTimeout y) ∧
       (due → ∃ z, goesTo .binTimeout z ∧ { z with cores := y.cores } = y ∧ (∀ k, k ≠ c → z.core k = y.core k) ∧
         z.core c = { y.core c with bins := tset (y.core c).bins n { b with st := .closed } })) ∧
     (∀ c n l, y.ev = some (.binGroupForm c n) →
       let b : Bin := tget (y.core c).bins n {}
       y.launch? b.launch = some l →
       (b.st ≠ .closed ∨ y.returnsTo s.mem c = true ∨ y.quadrantFor c l.record.regs.toNat = none → goesTo .binGroupForm y) ∧
       (∀ q slot, b.st = .closed → y.returnsTo s.mem c = false → y.quadrantFor c l.record.regs.toNat = some (q, slot) →
         b.threads.length ≤ 32 → (∀ t ∈ b.threads, t.length = 4) →
         ∃ z g, goesTo .binGroupForm z ∧ z.groups = y.groups ++ [g] ∧ (z.core c).bins = tdel (y.core c).bins n ∧
           g.launch = l.uid ∧ g.block = none ∧ g.core = c ∧ g.quadrant = q ∧ g.slot = slot ∧ g.allot = l.record.regs.toNat ∧
           (∀ i, i < 32 → (g.lanes.getLsbD i = true ↔ i / 4 < (b.threads.length + 3) / 4) ∧
             (g.helpers.getLsbD i = true ↔ b.threads.length ≤ i ∧ g.lanes.getLsbD i = true)) ∧
           g.frontier = [{ pc := b.entryOfs, mask := g.lanes, j := 0, st := .ready }] ∧
           (∀ i j, i < 32 → j < 128 → sget g.regs.v (i * 128 + j) = if j < 4 then (b.threads.getD i []).getD j 0 else 0) ∧
           (∀ j, sget g.regs.k j = l.consts.getD j 0) ∧ g.blockX = 0xFFFFFFFF ∧ g.blockY = 0xFFFFFFFF ∧ g.blockZ = 0xFFFFFFFF ∧
           g.gangRank = 0 ∧ g.gangSize = 0 ∧ g.scrBytes = 0)) ∧
     (∀ c q, y.ev = some (.growGrant c q) →
       (y.growReady c q = none → goesTo .growGrant y) ∧
       (∀ k h lane g e n sw, y.growReady c q = some (k, h, lane) → y.group? h = some g → g.entry? lane = some e → e.st = .grow n sw →
         ∃ z g', goesTo .growGrant z ∧ z.group? h = some g' ∧ g'.allot = g.allot + n ∧
           (∀ i j, j < 128 → sget g'.regs.v (i * 128 + j) = if j < g.allot then sget g.regs.v (i * 128 + j) else 0) ∧
           (∀ i, i < 32 → e.mask.getLsbD i = true → ∃ f ∈ g'.frontier, f.mask.getLsbD i = true ∧ f.pc = e.pc + 4) ∧
           (z.core c).growq = (y.core c).growq.filter (fun x => x != (k, h, lane)) ∧ (∀ x, x ≠ h → z.group? x = y.group? x))))

/-! ### Operations and events: waits that end, returns, traps and parking -/

/-- R109, R154 to R156 and R138: an entry in Results goes on once its last result has arrived; a fence holds its lanes while an access that it
covers is in flight; an L1 line whose lease is over is served no more. R115 and R116: once every older access has been answered, the group goes
back to the boundary before its oldest marked instruction and traps there with the cause and lanes of the error response; no other lane's
registers change.
R121 to R123: a trap joins the queue of its core once every older access of its group has been answered, traps that became ready earlier first,
then those of lower group slots and lower lanes; the control processor takes the
one at the head at a boundary where nothing of its own waits, with the registers 0x20 to 0x27 and INTRAP set, and goes to CPTVEC. A second trap
of its own stops it and ends the launches of its core. -/
def Obligations.ReturnsAndTraps : Prop :=
  (∀ s : State,
     let y := s.sys
     let goesTo := fun (x : Instr) (z : Sys) => exec x s = .next { s with sys := z }
     (∀ h lane g e, y.ev = some (.resultArrive h lane) → y.groups.filter (fun x => x.handle == h) = [g] → g.entry? lane = some e →
       (e.st ≠ .results ∨ e.mask &&& y.awaiting h ≠ 0 → goesTo .resultArrive y) ∧
       (e.st = .results → e.mask &&& y.awaiting h = 0 → ∃ z g', goesTo .resultArrive z ∧ z.groups.map (fun x => x.handle) = y.groups.map (fun x => x.handle) ∧
         { z with groups := y.groups } = y ∧ z.group? h = some g' ∧ g'.regs.v = g.regs.v ∧
         ∀ i, i < 32 → e.mask.getLsbD i = true → ∃ f ∈ g'.frontier, f.mask.getLsbD i = true ∧ f.pc = e.pc ∧ f.st = .ready)) ∧
     (∀ h lane g e, y.ev = some (.fenceComplete (.entry h lane)) → y.groups.filter (fun x => x.handle == h) = [g] → g.entry? lane = some e →
       e.st = .ready → ∃ z g', goesTo .fenceComplete z ∧ z.group? h = some g' ∧ g'.regs.v = g.regs.v ∧
         (∀ i, i < 32 → e.mask.getLsbD i = true → ∃ f ∈ g'.frontier, f.mask.getLsbD i = true ∧ f.pc = e.pc ∧
           ∀ a ∈ y.accesses, a.who = .group h → a.isFlight = true → a.undone = false → ∀ k ∈ e.holds, a.lanes &&& k.lanes ≠ 0 →
             a.covered k.classes k.scope = true → (k.only = none ∨ k.only = some a.seq) → (k.kind ≠ 1 ∨ a.op.returns = true) → k ∈ f.holds) ∧
         (g.frontier = [e] → (∀ a ∈ y.accesses, a.who = .group h → a.isFlight = false ∧ a.op.isRead = true) → ∀ f ∈ g'.frontier, f.holds = []) ∧
         ((∃ k ∈ e.holds, k.kind = 1 ∧ 5 ≤ k.scope ∧ ∀ a ∈ y.accesses, a.who ≠ .group h) → (z.core g.core).l1 = [])) ∧
     (∀ c, y.ev = some (.fenceComplete (.cp c)) → ∃ z, goesTo .fenceComplete z ∧ z.groups = y.groups ∧
       (z.core c).cp = { (y.core c).cp with holds := (z.core c).cp.holds } ∧
       ∀ k ∈ (y.core c).cp.holds, k ∈ (z.core c).cp.holds ∨
         ∀ a ∈ y.accesses, a.who = .cp c → a.isFlight = true → a.undone = false → a.lanes &&& k.lanes ≠ 0 → a.covered k.classes k.scope = true →
           (k.only = none ∨ k.only = some a.seq) → k.kind = 1 ∧ a.op.returns = false) ∧
     (∀ c line, y.ev = some (.leaseExpiry c line) → ∃ z, goesTo .leaseExpiry z ∧ { z with cores := y.cores, leases := y.leases } = y ∧
       (∀ k, k ≠ c → z.core k = y.core k) ∧
       (∀ x, x ∈ (z.core c).l1 ↔ x ∈ (y.core c).l1 ∧ (x.start / 128 ≠ line ∨ s.gtime < x.expiry)) ∧
       ∀ l, l ∈ z.leases ↔ l ∈ y.leases ∧ (l.1 ≠ line ∨ s.gtime < l.2)) ∧
     (∀ h g n w, y.ev = some (.checkpointReturn h) → y.groups.filter (fun x => x.handle == h) = [g] → y.oldestMarked g = some n →
       g.window.filter (fun x => x.seq == n) = [w] →
       let m := widen g.window n 33 w.mask
       let mine := fun (a : Access) => a.who = .group h ∧ a.undone = false
       ((∃ a ∈ y.accesses, mine a ∧ a.isFlight = true ∧ a.seq ≤ n) → goesTo .checkpointReturn y) ∧
       (m ≠ 0 → (∀ a ∈ y.accesses, mine a → a.seq ≤ n → a.isFlight = false) → (∀ a ∈ y.accesses, mine a → a.lane < 32) →
         (w.before.v.map (fun x => x.1)).Nodup → (w.before.fstat.map (fun x => x.1)).Nodup →
         ∃ z g' e t, goesTo .checkpointReturn z ∧ { z with groups := y.groups, accesses := y.accesses, tileOps := y.tileOps } = y ∧
           z.group? h = some g' ∧ e ∈ g'.frontier ∧ e.mask = m ∧ e.pc = w.pc ∧ e.j = w.j ∧ e.st = .trapped t ∧
           t.pc = w.pc ∧ t.whole = m ∧ t.seq = n ∧ t.queued = false ∧ t.taken = false ∧
           (∃ a ∈ y.accesses, mine a ∧ a.seq = n ∧ t.addr = a.ptr ∧ t.lanes &&& a.lanes = a.lanes ∧ ∃ k, a.st = .failed t.cause t.remCause k t.ealcnt) ∧
           (∀ c, (∀ a ∈ y.accesses, mine a → a.seq = n → ∀ k r o q, a.st = .failed k r o q → k = c) → t.cause = c) ∧
           (∀ l r, l < 32 → r < 128 → sget g'.regs.v (l * 128 + r) = sget (if m.getLsbD l then w.before.v else g.regs.v) (l * 128 + r)) ∧
           (∀ l r, l < 32 → (sget g'.regs.p r).getLsbD l = (sget (if m.getLsbD l then w.before.p else g.regs.p) r).getLsbD l) ∧
           (∀ l, l < 32 → sget g'.regs.fstat l = sget (if m.getLsbD l then w.before.fstat else g.regs.fstat) l) ∧
           (∀ f ∈ g'.frontier, f ≠ e → f.mask &&& m = 0) ∧
           ∀ a ∈ z.accesses, a.who = .group h → n ≤ a.seq → a.lanes &&& m ≠ 0 → a.undone = true))) ∧
  (∀ s : State,
     let y := s.sys
     let goesTo := fun (x : Instr) (z : Sys) => exec x s = .next { s with sys := z }
     (∀ h lane g e t, y.ev = some (.trapQueueJoin (.entry h lane)) → y.groups.filter (fun x => x.handle == h) = [g] → g.entry? lane = some e →
       e.st = .trapped t →
       let before := fun (x : Group) (z : Entry) (r : TrapRec) => let c := r.readyAt.getD 0; let d := t.readyAt.getD 0
         c < d ∨ (c = d ∧ (x.slot < g.slot ∨ (x.slot = g.slot ∧ lowest z.mask < lowest e.mask)))
       let ready := t.queued = false ∧ e.mask &&& y.returning g = 0 ∧
         (∀ a ∈ y.accesses, a.who = .group h → a.undone = false → a.seq < t.seq → a.isFlight = false) ∧
         ∀ x ∈ y.groups, x.core = g.core → ∀ z ∈ x.frontier, ∀ r, z.st = .trapped r → y.trapReady x z = true → ¬ before x z r
       (¬ ready → goesTo .trapQueueJoin y) ∧
       (ready → ∃ z g', goesTo .trapQueueJoin z ∧ { z with groups := y.groups, cores := y.cores } = y ∧ z.group? h = some g' ∧
         { g' with frontier := g.frontier } = g ∧ { e with st := .trapped { t with queued := true } } ∈ g'.frontier ∧
         (∀ k, k ≠ g.core → z.core k = y.core k) ∧
         z.core g.core = { y.core g.core with trapq := (y.core g.core).trapq ++ [.entry h (lowest e.mask)] })) ∧
     (∀ c, y.ev = some (.cpTrapEntry c) →
       let k := y.core c
       let p := k.cp
       let stands := fun (t : TrapRec) (h : Nat) (q : Cp) =>
         q.intrap = true ∧ q.pc = p.cptvec.setWidth 32 ∧ q.tcause.toNat = t.cause.code % 256 ∧ q.tremcause = (if t.cause = .remote then t.remCause else 0) ∧
         q.tpc = t.pc ∧ q.tmask = t.lanes ∧ q.tentry = t.whole ∧ q.taddr = t.addr ∧ q.tghandle = BitVec.ofNat 64 h ∧ q.tprio = t.prio ∧
         q.tealcnt = BitVec.ofNat 64 t.ealcnt ∧ q.tinsn = t.insn ∧ q.x = p.x ∧ q.p = p.p ∧ q.fstat = p.fstat
       let busy := p.holds ≠ [] ∨ p.wait ≠ none ∨ p.snapWait ≠ none ∨ p.gparkWait ≠ none ∨ p.hints.any = true ∨ p.stalled = true ∨
         ∃ a ∈ y.accesses, a.who = .cp c ∧ a.isFlight = true
       (p.running = false ∨ p.stopped = true → goesTo .cpTrapEntry y) ∧
       (p.running = true → p.stopped = false →
         (p.intrap = true → (∀ t, p.ownTrap = some t → t.taken = true) → goesTo .cpTrapEntry y) ∧
         (∀ t, p.intrap = true → p.ownTrap = some t → t.taken = false → ∃ z, goesTo .cpTrapEntry z ∧ (z.core c).cp.stopped = true ∧
           (∀ g ∈ y.groups, g.core = c → g.offCore = none → ∀ l ∈ z.launches, l.uid = g.launch → l.terminated = true ∧ l.stopped = true) ∧
           (t.cause = .brk → y.newestRecord z (y.partOfCore c) .brk .cp 0) ∧ (t.cause ≠ .brk → z.parts = y.parts)) ∧
         (p.intrap = false → k.trapq = [] → goesTo .cpTrapEntry y) ∧
         (∀ j r t, p.intrap = false → k.trapq = .cp j :: r → p.ownTrap = some t → ∃ z, goesTo .cpTrapEntry z ∧ z.groups = y.groups ∧
           stands t 0 (z.core c).cp ∧ (z.core c).cp.saved = t.pc ∧ (z.core c).cp.ownTrap = none ∧ (z.core c).trapq = r) ∧
         (∀ h lane r, p.intrap = false → k.trapq = .entry h lane :: r → busy → goesTo .cpTrapEntry y) ∧
         (∀ h lane r g e t, p.intrap = false → k.trapq = .entry h lane :: r → ¬ busy → y.groups.filter (fun x => x.handle == h) = [g] →
           g.entry? lane = some e → e.st = .trapped t → ∃ z g', goesTo .cpTrapEntry z ∧ stands t h (z.core c).cp ∧ (z.core c).cp.saved = p.pc ∧
             (z.core c).trapq = r ∧ z.group? h = some g' ∧ { g' with frontier := g.frontier } = g ∧
             { e with st := .trapped { t with taken := true } } ∈ g'.frontier))))

/-- R90, R117, R118 and R120: a group is parked off-core, where a park slot is free and no matrix operation of it is unfinished, for one of the
reasons of R117; it keeps its registers and its frontier, at boundaries, and PARKS adds 1; one that is pre-empted or that GPARK names goes back to its checkpoint, where no lane has a
trap that the control processor has or will take (R120). The oldest-parked group that can returns to its core
and quadrant, with the registers that it waits for, and an entry at BWAIT tests its phase again. The management plane pre-empts whole gangs. -/
def Obligations.Parking : Prop :=
  ∀ s : State,
    let y := s.sys
    let goesTo := fun (x : Instr) (z : Sys) => exec x s = .next { s with sys := z }
    (∀ h g, y.ev = some (.parkOffCore h) → y.groups.filter (fun x => x.handle == h) = [g] →
      let waits := y.longWait
      let since := fun (x : Group) => x.waitsSince.getD 0
      let due := g.preempt = true ∨ g.strapped = true ∨ (∃ d, (y.core g.core).cp.gparkWait = some (h, d)) ∨
        y.growVictim g.core g.quadrant = some h ∨
        (waits g = true ∧ ∀ x ∈ y.groups, x.core = g.core → x.offCore = none → waits x = true → since g ≤ since x)
      (¬ due ∨ y.freePark g.core = none ∨ g.offCore ≠ none ∨ g.killed = true ∨ g.mmas ≠ [] ∨ (∃ m, g.mmaj = some m ∧ m.joined = true) →
        goesTo .parkOffCore y) ∧
      (∀ slot, due → y.freePark g.core = some slot → g.offCore = none → g.killed = false → g.mmas = [] → g.mmaj = none →
        ∃ z g', goesTo .parkOffCore z ∧ z.group? h = some g' ∧ g'.offCore = some slot ∧ g'.parks = g.parks + 1 ∧ g'.age = y.nextId ∧ g'.preempt = false ∧
          (y.stopping g = false →
            g'.frontier = g.frontier.map (fun e => { e with pc := if e.hints.any then e.hints.start else e.pc, hints := {} }) ∧
            { g' with offCore := g.offCore, parks := g.parks, age := g.age, preempt := g.preempt, gpark := g.gpark, frontier := g.frontier } = g ∧
            z.accesses = y.accesses ∧ z.tileOps = y.tileOps) ∧
          (y.stopping g = true → g.settledLanes = 0 → (∀ w ∈ g.window, w.mask ≠ 0) → g.window.length ≤ 64 → g'.window = []) ∧
          { z with groups := y.groups, cores := y.cores, nextId := y.nextId, accesses := y.accesses, tileOps := y.tileOps } = y ∧
          (∀ x, x ≠ h → z.group? x = y.group? x) ∧ (z.core g.core).growq = (y.core g.core).growq ∧
          (∀ d, (y.core g.core).cp.gparkWait = some (h, d) → let p := (z.core g.core).cp
            p.gparkWait = none ∧ sget p.x d = 0 ∧ p.pc = (y.core g.core).cp.pc + 4 ∧ g'.gpark = true))) ∧
    (∀ h g, y.ev = some (.parkReturn h) → y.groups.filter (fun x => x.handle == h) = [g] →
      (y.canReturn s.mem g = false → goesTo .parkReturn y) ∧
      ((∃ x ∈ y.groups, x.core = g.core ∧ x.age < g.age ∧ y.canReturn s.mem x = true) → goesTo .parkReturn y) ∧
      (∀ slot, y.canReturn s.mem g = true → (∀ x ∈ y.groups, x.core = g.core → x.age < g.age → y.canReturn s.mem x = false) →
        y.freeGroupSlot g.core g.quadrant = some slot →
        ∃ z g', goesTo .parkReturn z ∧ { z with groups := y.groups, nextId := y.nextId, cores := y.cores } = y ∧ z.group? h = some g' ∧ g'.offCore = none ∧
          g'.slot = slot ∧ g'.core = g.core ∧ g'.quadrant = g.quadrant ∧ g'.age = y.nextId ∧ g'.regs.k = g.regs.k ∧ g'.regs.p = g.regs.p ∧
          ((∀ e ∈ g.frontier, e.st.isGrow = false ∧ e.st.isBarrier = false) →
            g' = { g with offCore := none, slot := slot, age := y.nextId, skipped := 0 }) ∧
          (∀ e n sw, g.frontier = [e] → e.st = .grow n sw → e.mask ≠ 0 → g'.allot = g.allot + n ∧
            ∀ l, l < 32 → e.mask.getLsbD l = true → ∃ f ∈ g'.frontier, f.mask.getLsbD l = true ∧ f.pc = e.pc + 4) ∧
          (∀ e f w r sw q k c, g.frontier = [e] → e.st = .barrier f w r sw q k c → r < 128 → e.mask ≠ 0 →
            let o := readBar s.mem f
            o.inv = true ∨ o.phase ≠ w.toNat → ∀ l, l < 32 → e.mask.getLsbD l = true →
              sget g'.regs.v (l * 128 + r) = (if o.inv then 0xFFFFFFFF else BitVec.ofNat 32 o.phase) ∧
              ∃ x ∈ g'.frontier, x.mask.getLsbD l = true ∧ x.pc = e.pc + 4))) ∧
    (∀ u gang, y.ev = some (.mgmtPreempt u gang) →
      ∃ z, goesTo .mgmtPreempt z ∧ { z with groups := y.groups } = y ∧ ∀ (j : Nat) (g : Group), y.groups[j]? = some g →
        let asked := g.offCore = none ∧ ∃ b ∈ y.blocks, g.block = some b.uid ∧ b.launch = u ∧ b.gang = gang
        (asked → z.groups[j]? = some { g with preempt := true }) ∧ (¬ asked → z.groups[j]? = some g))

/-! ### Operations and events: the home -/

/-- R145, R149, R316 and R325: an access in flight performs at its home once the earlier accesses that R149 puts before it have: a load returns
the bytes there, or those of an L1 line under a live lease; a store writes its bytes; an atomic reads and writes in one step and returns what it
read, and a CAS that fails writes nothing. An error answers it instead, and nothing is written;
a load of a helper lane then returns 0, without a record (R94). -/
def Obligations.HomeAccesses : Prop :=
  ∀ (s : State) (a : Access) (f : Nat),
    let y := s.sys
    y.ev = some (.homeAccess a.id) → y.accesses.filter (fun b => b.id == a.id) = [a] → a.target = .home f → a.isFlight = true →
    let goes := fun (t : State) => exec .homeAccess s = .next t
    let answers := fun (t : State) (v : List Byte) =>
      (∃ b g, t.sys.access? a.id = some b ∧ b.st = .performed v g ∧ s.gtime ≤ g ∧ { b with st := a.st, mod := a.mod } = a) ∧
      (∀ h g, a.who = .group h → a.undone = false → (∀ i o, a.dest ≠ .tile i o) → y.group? h = some g →
        ∃ g', t.sys.group? h = some g' ∧ { g' with frontier := g.frontier } = g.deliver a.seq (destWrites a v))
    let fails := fun (c : Cause) => ∃ t, goes t ∧ t.mem = s.mem ∧ (y.helperLoad a = true → answers t []) ∧ ∀ h, a.who = .group h →
      y.helperLoad a = false → y.newestRecord t.sys a.part c .group a.ptr ∧
      ∃ b k, t.sys.access? a.id = some b ∧ b.st = .failed c 0 0 k ∧ { b with st := a.st } = a
    let writes := fun (t : State) (n v : Nat) => ∀ b, readByte t.mem b =
      if f ≤ b ∧ b < f + n then (bytesOf n v).getD (b - f) 0 else readByte s.mem b
    (y.orderOk a = false → goes s) ∧
    (y.orderOk a = true → y.linkError a = none → y.owner a = none →
      (∀ n, a.op = .load n →
        (∀ v, y.l1Hit s.gtime a f n = some v → (y.l1Hurts a f n = true → fails .ecc) ∧
          (y.l1Hurts a f n = false → ∃ t, goes t ∧ t.mem = s.mem ∧ answers t v)) ∧
        (y.l1Hit s.gtime a f n = none → (∀ c, y.readError f n a.key = some c → fails c) ∧
          (y.readError f n a.key = none → ∃ t, goes t ∧ t.mem = s.mem ∧ answers t (readBytes s.mem f n)))) ∧
      (∀ d, a.op = .store d → (y.writeStalls f d.length = true → goes s) ∧
        (y.writeStalls f d.length = false → (∀ c, y.writeError f d.length a.key = some c → fails c) ∧
          (y.writeError f d.length a.key = none → ∃ t, goes t ∧ answers t [] ∧ ∀ b, readByte t.mem b =
            if f ≤ b ∧ b < f + d.length then d.getD (b - f) 0 else readByte s.mem b))) ∧
      (∀ k ret x c, a.op = .atomic k ret x c → k.contributes = false → a.abacus = none →
        let n := if k = .addB64 ∨ k = .casB64 then 8 else 4
        let m := 2 ^ (8 * n)
        let old := numOf (readBytes s.mem f n)
        let w := x.toNat % m
        (y.writeStalls f n = true → goes s) ∧
        (y.writeStalls f n = false → (∀ e, y.readError f n a.key = some e → fails e) ∧
          (y.readError f n a.key = none → ∃ t new, goes t ∧ answers t (bytesOf n old) ∧ writes t n new ∧
            (k = .addB32 ∨ k = .addB64 → new = (old + w) % m) ∧
            (k = .addF32 → new = (fadd fp32 .rne old w).bits) ∧
            (k = .addBf16x2 → new = (fadd bf16 .rne (old % 65536) (w % 65536)).bits +
              65536 * (fadd bf16 .rne (old / 65536) (w / 65536)).bits) ∧
            (k = .minS32 → new = if (BitVec.ofNat 32 w).slt (BitVec.ofNat 32 old) then w else old) ∧
            (k = .maxS32 → new = if (BitVec.ofNat 32 old).slt (BitVec.ofNat 32 w) then w else old) ∧
            (k = .minZ32 → new = min old w) ∧ (k = .maxZ32 → new = max old w) ∧ (k = .xchg → new = w) ∧
            (k = .and → new = old &&& w) ∧ (k = .or → new = old ||| w) ∧ (k = .xor → new = old ^^^ w) ∧
            (k = .cas ∨ k = .casB64 → new = if old = c.toNat % m then w else old) ∧
            (k = .incw → new = if w ≤ old then 0 else old + 1) ∧
            (k = .decw → new = if old = 0 ∨ w < old then w else old - 1)))) ∧
      (∀ n v, a.op = .exchange n v → a.abacus = none → y.writeStalls f n = false → y.readError f n a.key = none →
        ∃ t, goes t ∧ answers t (bytesOf n (numOf (readBytes s.mem f n))) ∧ writes t n (v.toNat % 2 ^ (8 * n))) ∧
      (∀ j, a.op = .bit j → y.readError f 1 a.key = none → ∃ t, goes t ∧ t.mem = s.mem ∧
        answers t (bytesOf 4 (if (readByte s.mem f).getLsbD j then 1 else 0))) ∧
      (∀ w, a.op = .test w → y.readError f 16 a.key = none → ∃ t, goes t ∧ t.mem = s.mem ∧
        let o := readBar s.mem f
        answers t (bytesOf 4 (if o.inv then 0xFFFFFFFF else o.phase))))

/-- R169, R170, R172 and R173: a barrier operation reads and writes the whole object in one step: an arrival, a landing and an expected count add
to theirs and complete the phase when both counts are met; BINIT rewrites the object unless it is in use; BINVAL invalidates it. An overflow
saturates, completes nothing and is answered with BAROVF. A completed phase wakes the entries that wait for it. -/
def Obligations.BarrierOperations : Prop :=
  ∀ (s : State) (a : Access) (f : Nat) (x : Instr) (e : Event) (op : AccOp),
    let y := s.sys
    (x, e) ∈ [(.barrierArrival, .barrierArrival a.id), (.barrierLanding, .barrierLanding a.id), (.barrierExpect, .barrierExpect a.id),
      (.barrierInit, .barrierInit a.id), (.barrierInvalidate, .barrierInvalidate a.id)] →
    (x = .barrierArrival → op = .arrive) → (x = .barrierLanding → ∃ n, op = .landing n) → (x = .barrierExpect → ∃ n, op = .expect n) →
    (x = .barrierInit → ∃ c, op = .init c) → (x = .barrierInvalidate → op = .invalidate) →
    y.ev = some e → y.accesses.filter (fun b => b.id == a.id) = [a] → a.target = .home f → a.op = op → a.isFlight = true →
    y.orderOk a = true → y.writeStalls f 16 = false → y.readError f 16 0 = none →
    let o := readBar s.mem f
    let goes := fun (t : State) => exec x s = .next t
    let leaves := fun (t : State) (r : BarObj) => readBar t.mem f = r ∧ ∀ b, b < f ∨ f + 16 ≤ b → readByte t.mem b = readByte s.mem b
    let value : Nat := if o.inv then 0xFFFFFFFF else o.phase
    let performs := fun (t : State) => ∃ b g, t.sys.access? a.id = some b ∧ b.st = .performed (bytesOf 4 value) g
    let fails := fun (t : State) (c : Cause) => ∀ h, a.who = .group h → ∃ b k, t.sys.access? a.id = some b ∧ b.st = .failed c 0 0 k
    let wakes := fun (t : State) (v : Word) => ∀ h g w r sw q k c i, y.groups.filter (fun z => z.handle == h) = [g] → g.offCore = none →
      a.who ≠ .group h → g.frontier = [i] → i.st = .barrier f w r sw q k c → r < 128 →
      ∃ g', t.sys.group? h = some g' ∧ ∀ l, l < 32 → i.mask.getLsbD l = true → sget g'.regs.v (l * 128 + r) = v ∧
        ∃ j ∈ g'.frontier, j.mask.getLsbD l = true ∧ j.pc = i.pc + 4
    let adds := fun (b : BarObj) (full : Bool) =>
      let isOver := full = true ∨ b.exparr < b.arrived ∨ (b.arrived = b.exparr ∧ b.expbytes < b.landed)
      let whole := b.arrived = b.exparr ∧ b.landed = b.expbytes ∧ (b.exparr ≠ 0 ∨ b.expbytes ≠ 0)
      (o.inv = true → ∃ t, goes t ∧ leaves t o ∧ performs t) ∧
      (o.inv = false → (isOver → ∃ t, goes t ∧ leaves t b ∧ fails t .barovf) ∧
        (¬ isOver → whole → ∃ t, goes t ∧ performs t ∧ wakes t (BitVec.ofNat 32 ((o.phase + 1) % 2 ^ 31)) ∧
          leaves t { b with phase := (o.phase + 1) % 2 ^ 31, arrived := 0, landed := 0, expbytes := 0 }) ∧
        (¬ isOver → ¬ whole → ∃ t, goes t ∧ performs t ∧ leaves t b))
    (op = .arrive → adds { o with arrived := min (o.arrived + 1) 65535 } (65535 < o.arrived + 1)) ∧
    (∀ n, op = .landing n → adds { o with landed := min (o.landed + n) (2 ^ 32 - 1) } (2 ^ 32 ≤ o.landed + n)) ∧
    (∀ n : Word, op = .expect n → adds { o with expbytes := min (o.expbytes + n.toNat) (2 ^ 32 - 1) } (2 ^ 32 ≤ o.expbytes + n.toNat)) ∧
    (∀ c, op = .init c →
      (y.hasWaiter f o.phase = true ∨ y.hasAttached f = true → ∃ t, goes t ∧ leaves t o ∧ fails t .barbusy) ∧
      (y.hasWaiter f o.phase = false → y.hasAttached f = false → ∃ t, goes t ∧ performs t ∧
        leaves t { phase := 0, inv := false, exparr := c.toNat, arrived := 0, expbytes := 0, landed := 0 })) ∧
    (op = .invalidate → (o.inv = true → ∃ t, goes t ∧ performs t ∧ leaves t o) ∧
      (o.inv = false → ∃ t, goes t ∧ performs t ∧ leaves t { o with inv := true, arrived := 0, expbytes := 0, landed := 0 } ∧
        wakes t 0xFFFFFFFF ∧ ∀ z ∈ t.sys.contribs, ∀ d, z.declared = some d → d.2 ≠ f))

/-- R163, R186, R187, R261 and R263: a contribution adds and is counted, and the count that was declared frees the entry and makes the ready arrival, at
once where no lease on the line outlives the moment, else when the GWCT of the contributions has come; CDECL answers with its status. A deterministic update applies when its key is the watermark, and one NACKed by a line in ticket order tries again
after 64 clocks. A block's serial phase puts its versions over memory and releases its private lines. -/
def Obligations.ContributionsAndOrder : Prop :=
  ∀ s : State,
    let y := s.sys
    let answers := fun (t : State) (a : Access) (v : List Byte) =>
      ∃ b g, t.sys.access? a.id = some b ∧ b.st = .performed v g ∧ s.gtime ≤ g
    let flies := fun (a : Access) (f : Nat) => y.accesses.filter (fun b => b.id == a.id) = [a] ∧ a.target = .home f ∧ a.isFlight = true ∧
      y.orderOk a = true
    -- no snapshot waits to capture what is written
    let still := ∀ p ∈ y.parts, p.2.colourA.st ≠ .live ∧ p.2.colourB.st ≠ .live
    (∀ d, y.ev = some (.readyArrival d.bar) → y.due.find? (fun x => x.bar == d.bar && decide (x.time ≤ s.gtime)) = some d →
      (y.writeStalls d.bar 16 = true → exec .caddHome s = .next s) ∧
      (y.writeStalls d.bar 16 = false → y.readError d.bar 16 0 = none → ∃ t, exec .caddHome s = .next t ∧ t.sys.due = y.due.erase d ∧
        readBar t.mem d.bar = ((readBar s.mem d.bar).apply .arrive).obj)) ∧
    (∀ a f k r x c, y.ev = some (.caddHome a.id) → flies a f → a.op = .atomic k r x c → k = .caddF32 ∨ k = .caddBf16x2 → a.abacus = none →
      (y.contribFree (f / 128) = false ∨ y.writeStalls f 4 = true → exec .caddHome s = .next s) ∧
      (y.contribFree (f / 128) = true → y.writeStalls f 4 = false → y.readError f 4 a.key = none → y.owner a = none →
        (∀ e, y.contribAt (f / 128) = some e → e.aborted = false) →
        let old := numOf (readBytes s.mem f 4)
        let w := x.toNat % 2 ^ 32
        let n := (match y.contribAt (f / 128) with | some e => e.count | none => 0) + 1
        let sum := if k = .caddF32 then (fadd fp32 .rne old w).bits else
          (fadd bf16 .rne (old % 65536) (w % 65536)).bits + 65536 * (fadd bf16 .rne (old / 65536) (w / 65536)).bits
        let declared := (y.contribAt (f / 128)).bind (fun e => e.declared)
        ((∀ d, declared = some d → n < d.1) → ∃ t e, exec .caddHome s = .next t ∧ answers t a (bytesOf 4 old) ∧
          t.sys.contribAt (f / 128) = some e ∧ e.count = n ∧ e.declared = declared ∧
          ∀ b, readByte t.mem b = if f ≤ b ∧ b < f + 4 then (bytesOf 4 sum).getD (b - f) 0 else readByte s.mem b) ∧
        let ready := max (match y.contribAt (f / 128) with | some e => e.gwct | none => 0) (y.gwct s.gtime f 4)
        (∀ d bar, declared = some (d, bar) → d ≤ n →
          (s.gtime < ready → ∃ t q, exec .caddHome s = .next t ∧ answers t a (bytesOf 4 old) ∧ t.sys.contribAt (f / 128) = none ∧
            t.sys.due = y.due ++ [{ bar := bar, ptr := q, time := ready }] ∧
            ∀ b, readByte t.mem b = if f ≤ b ∧ b < f + 4 then (bytesOf 4 sum).getD (b - f) 0 else readByte s.mem b) ∧
          (ready ≤ s.gtime → still → isSram bar = true → bar + 16 ≤ f ∨ f + 4 ≤ bar → y.readError bar 16 0 = none →
            ∃ t, exec .caddHome s = .next t ∧ answers t a (bytesOf 4 old) ∧ t.sys.contribAt (f / 128) = none ∧ t.sys.due = y.due ∧
              readBar t.mem bar = ((readBar s.mem bar).apply .arrive).obj ∧ numOf (readBytes t.mem f 4) = sum)))) ∧
    (∀ a f n bar, y.ev = some (.cdeclHome a.id) → flies a f → a.op = .decl n bar → a.abacus = none → y.readError f 128 a.key = none →
      let cnt := n.toNat % 65536
      let entry := (y.contribAt (f / 128)).filter (fun e => !e.aborted)
      let held := entry.any (fun e => e.declared.isSome)
      let place := (y.declBarrier a a.part a.vf bar.toNat).filter (fun b => !(readBar s.mem b).inv)
      let replies := fun (t : State) (st : Nat) => exec .cdeclHome s = .next t ∧ answers t a (bytesOf 4 st)
      let reserved := n.toNat / 2 ^ 22 % 512 ≠ 0
      (reserved ∨ (cnt = 0 ∧ bar ≠ 0) ∨ (cnt ≠ 0 ∧ place = none) → ∃ t, replies t 3 ∧ t.mem = s.mem ∧ t.sys.contribs = y.contribs) ∧
      (¬ reserved → cnt = 0 → bar = 0 → (held = true → ∃ t, replies t 2 ∧ t.mem = s.mem ∧ t.sys.contribs = y.contribs) ∧
        (held = false → ∃ t, replies t 4 ∧ t.mem = s.mem ∧ t.sys.contribAt (f / 128) = none)) ∧
      (¬ reserved → cnt ≠ 0 → ∀ b, place = some b →
        (held = true → ∃ t, replies t 2 ∧ t.mem = s.mem ∧ t.sys.contribs = y.contribs) ∧
        (held = false → y.contribFree (f / 128) = false → ∃ t, replies t 1 ∧ t.mem = s.mem ∧ t.sys.contribs = y.contribs) ∧
        (held = false → y.contribFree (f / 128) = true →
          let count := match entry with | some e => e.count | none => 0
          (count < cnt → ∃ t e, replies t 0 ∧ t.mem = s.mem ∧ t.sys.contribAt (f / 128) = some e ∧ e.declared = some (cnt, b) ∧ e.count = count) ∧
          let ready := match entry with | some e => e.gwct | none => 0
          (cnt ≤ count → s.gtime < ready → ∃ t, replies t 0 ∧ t.mem = s.mem ∧ t.sys.contribAt (f / 128) = none ∧
            t.sys.due = y.due ++ [{ bar := b, ptr := bar, time := ready }]) ∧
          (cnt ≤ count → ready ≤ s.gtime → y.writeStalls b 16 = false → y.readError b 16 0 = none → ∃ t, replies t 0 ∧
            t.sys.contribAt (f / 128) = none ∧ t.sys.due = y.due ∧ readBar t.mem b = ((readBar s.mem b).apply .arrive).obj)))) ∧
    (∀ a f k r x c, y.ev = some (.abacusApply a.id) → flies a f → a.op = .atomic k r x c → k.contributes = false → a.undone = false →
      (a.abacus = none ∨ y.mayApply a = false → exec .abacusApply s = .next s) ∧
      (a.abacus.isSome = true → y.mayApply a = true → y.linkError a = none → y.writeStalls f k.size = false → y.readError f k.size a.key = none →
        (∀ l b, y.owner a = some (l, b) → let z := l.ownTouch (f / 128) b
          z.2 = [] ∧ (z.1.ownPre s.mem (f / 128)).ownExhausted (y.part l.part) = false) →
        ∃ t, exec .abacusApply s = .next t ∧ answers t a (readBytes s.mem f k.size) ∧
          ((k ≠ .cas ∧ k ≠ .casB64) → numOf (readBytes t.mem f k.size) =
            k.new (numOf (readBytes s.mem f k.size)) (x.toNat % 2 ^ (8 * k.size)) (c.toNat % 2 ^ (8 * k.size)) % 2 ^ (8 * k.size)) ∧
          ∀ b, b < f ∨ f + k.size ≤ b → readByte t.mem b = readByte s.mem b)) ∧
    (∀ a t, y.ev = some (.abacusRetry a.id) → y.accesses.filter (fun b => b.id == a.id) = [a] → a.retryAt = some t → a.updating = true →
      (s.gtime < t → exec .abacusRetry s = .next s) ∧
      (t ≤ s.gtime → ∃ z b, exec .abacusRetry s = .next { s with sys := z } ∧ z.access? a.id = some b ∧ { b with retryAt := some t } = a ∧
        (y.watermark a.launch = a.abacus → b.retryAt = none) ∧
        (a.line ∈ y.ticketLines → y.watermark a.launch ≠ a.abacus → b.retryAt = some (s.gtime + 35)) ∧
        (a.line ∉ y.ticketLines → y.pendingUpdates a.line < 16 → b.retryAt = none))) ∧
    (∀ u l, y.ev = some (.serialPhase u) → y.launches.filter (fun x => x.uid == u) = [l] →
      let done := l.record.det = true ∧ l.serial < l.placed ∧ (∀ g ∈ y.groups, g.launch = u → g.blockIndex = l.serial → g.lanes = 0) ∧
        ∀ a ∈ y.accesses, a.launch = u → a.isFlight = true → a.undone = false → ∀ h g, a.who = .group h → y.group? h = some g →
          g.blockIndex ≠ l.serial
      let bytes := fun (o : OwnLine) => (tget o.versions l.serial [] : List (Nat × Byte))
      let stalls := y.allStall (l.own.flatMap (fun o => (bytes o).map (fun w => (o.line * 128 + w.1, 1))))
      (¬ done ∨ stalls = true → exec .serialPhase s = .next s) ∧
      (done → stalls = false → (∀ o ∈ l.own, ∀ w ∈ bytes o, w.1 < 128) →
        (l.own.map (fun o => o.line)).Nodup → (∀ o ∈ l.own, ((bytes o).map (fun w => w.1)).Nodup) →
        ∃ t x, exec .serialPhase s = .next t ∧ t.sys.launch? u = some x ∧ x.serial = l.serial + 1 ∧
          (∀ o ∈ x.own, o.owner ≠ some l.serial) ∧ x.own.map (fun o => (o.line, o.pre, o.versions)) = l.own.map (fun o => (o.line, o.pre, o.versions)) ∧
          (∀ o ∈ l.own, ∀ w ∈ bytes o, readByte t.mem (o.line * 128 + w.1) = w.2) ∧
          ∀ b, (∀ o ∈ l.own, ∀ w ∈ bytes o, b ≠ o.line * 128 + w.1) → readByte t.mem b = readByte s.mem b))

/-! ### Operations and events: chunks, digests, collectives and restore -/

/-- R180, R182 and R184: a chunk whose bytes are globally performed lands on BAR with its stream bytes, sets its bitmap bit and is counted; a chunk
answered with an error is neither counted nor marked; one that needs a page whose walk has faulted is skipped, and with nothing in flight the
command enters FAULTED. A channel's WP follows its chunks, which land in order. R377: a digest takes its message in order, writes its SHA-512,
and then makes one arrival. -/
def Obligations.ChunksAndDigests : Prop :=
  ∀ (s : State) (c : Cmd),
    let y := s.sys
    let h := shapeOf c.record
    y.cmds.filter (fun x => x.handle == c.handle) = [c] → c.status = .running → c.cancel = false → c.inval = false → c.bad = none → c.ecause = none →
    let mine := fun (i : Nat) (a : Access) => a ∈ y.accesses ∧ a.who = .engine c.handle ∧ a.seq = i
    let cmdIs := fun (z : Sys) (f : Cmd → Prop) => ∀ x ∈ z.cmds, x.handle = c.handle → f x
    -- a chunk whose stores have all been globally performed lands
    let lands := fun (x : Instr) (i : Nat) (also : State → Prop) =>
      (∃ a, mine i a ∧ a.op.isRead = false) → (∀ a, mine i a → a.isFlight = false ∧ a.isFailed = false) →
      allDone y s.gtime (y.engineAccs c.handle i) = true → h.sg = false → i < c.total → c.counted i = false →
      (∀ f, c.bar = some f → y.writeStalls f 16 = false ∧ y.readError f 16 0 = none ∧
        ((readBar s.mem f).apply (.landing (h.chunkBytes i))).isOver = false) →
      (h.bmen = false → ∃ t, exec x s = .next t ∧ also t ∧ cmdIs t.sys (fun k => k.chunks = c.chunks ++ [i]) ∧
        (∀ a ∈ t.sys.accesses, a.who = .engine c.handle → a.seq ≠ i) ∧ (c.bar = none → t.mem = s.mem) ∧
        ∀ f, c.bar = some f → readBar t.mem f = ((readBar s.mem f).apply (.landing (h.chunkBytes i))).obj) ∧
      (h.bmen = true → ∀ g k, c.ctx.place y 0 (h.bmap + i / 8) 1 = .home g k → y.writeStalls g 1 = false → y.readError g 1 0 = none →
        (∀ f, c.bar = some f → (g < f ∨ f + 16 ≤ g) ∧ y.allStall [(f, 16), (g, 1)] = false) → ∃ t, exec x s = .next t ∧ also t ∧ cmdIs t.sys (fun k => k.chunks = c.chunks ++ [i]) ∧
          readByte t.mem g = readByte s.mem g ||| BitVec.ofNat 8 (2 ^ (i % 8)) ∧
          (c.bar = none → ∀ b, b ≠ g → readByte t.mem b = readByte s.mem b) ∧
          ∀ f, c.bar = some f → readBar t.mem f = ((readBar s.mem f).apply (.landing (h.chunkBytes i))).obj)
    (∀ i, y.ev = some (.chunkLand c.handle i) → c.kind = .copy → (h.det = true → ∀ j, j < i → c.counted j = true) →
      lands .chunkLand i (fun t => cmdIs t.sys (fun k => c.skipped = [] → c.chunks.length + 1 = c.total →
        (∀ a ∈ y.accesses, a.who = .engine c.handle → a.seq = i) → k.status = .done)) ∧
      (h.sg = false → i < c.total → (∃ a, mine i a ∧ a.isFailed = true) → (∀ a, mine i a → a.isFlight = false) →
        ∃ z, exec .chunkLand s = .next { s with sys := z } ∧ cmdIs z (fun k => k.chunks = c.chunks) ∧
          ∀ a ∈ z.accesses, a.who = .engine c.handle → a.seq ≠ i) ∧
      (h.sg = false → i < c.total → c.counted i = false → (∀ a, ¬ mine i a) → c.pagesState y false (c.srcs i) = .faulted →
        let p := c.badPage y i
        (y.pageLost c.handle p = false → ∃ z, exec .chunkLand s = .next { s with sys := z } ∧
          cmdIs z (fun k => k.chunks = c.chunks ∧ k.skipped = c.skipped ++ [(i, p)])) ∧
        (y.pageLost c.handle p = true → ∃ z, exec .chunkLand s = .next { s with sys := z } ∧
          cmdIs z (fun k => k.chunks = c.chunks ∧ k.failedChunks = c.failedChunks ++ [i] ∧ k.ecause.map (fun e => e.1) = some .ecc)))) ∧
    (∀ n, y.ev = some (.channelChunkLand c.handle) → c.kind = .channel n →
      let ch : Channel := tget (y.core c.core).channels n {}
      let i := c.chunks.length
      lands .channelChunkLand i (fun t => ch.isOpen = true → ch.cmd = c.handle →
        (tget (t.sys.core c.core).channels n {} : Channel) = { ch with wp := BitVec.ofNat 32 (min (512 * (i + 1)) h.length) }) ∧
      (c.total ≤ i → c.skipped = [] → (∀ a ∈ y.accesses, a.who ≠ .engine c.handle) → i = c.total →
        ∃ z, exec .channelChunkLand s = .next { s with sys := z } ∧ cmdIs z (fun k => k.status = .done))) ∧
    (y.ev = some (.copyFaulted c.handle) → c.kind = .copy → c.allWalked y = true →
      (c.skipped = [] ∨ (∃ a ∈ y.accesses, a.who = .engine c.handle) ∨ (∃ i, i < c.total ∧ c.counted i = false) → exec .copyFaulted s = .next s) ∧
      (c.skipped ≠ [] → (∀ a ∈ y.accesses, a.who ≠ .engine c.handle) → (∀ i, i < c.total → c.counted i = true) →
        ∃ z rs, exec .copyFaulted s = .next { s with sys := z } ∧ (z.vf c.vf).faults = (y.vf c.vf).faults ++ rs ∧ z.pins = y.pins ∧
          cmdIs z (fun k => k.status = .faulted ∧ k.bar = c.bar) ∧
          (∀ w, y.faultsOf c.handle = [w] → (∀ k ∈ c.skipped, c.inPage k.1 w.page w.write ≠ []) →
            ∃ r m, rs = [r] ∧ r.kind = BitVec.ofNat 8 w.kind ∧ r.cmdh = c.handle ∧ r.access = (if w.write then 2 else 1) ∧
              r.count = BitVec.ofNat 32 c.skipped.length ∧ r.first = BitVec.ofNat 32 m ∧ (∃ k ∈ c.skipped, k.1 = m) ∧ (∀ k ∈ c.skipped, m ≤ k.1) ∧
              ∃ p ∈ c.inPage m w.page w.write, r.vaddr = BitVec.ofNat 64 p) ∧
          ∀ w ∈ y.faultPages c.handle, ∀ k ∈ c.skipped, c.needsPage (y.faultsOf c.handle) k.1 w = true →
            ∃ r m b, r ∈ rs ∧ r.cmdh = c.handle ∧ r.first = BitVec.ofNat 32 m ∧ m ≤ k.1 ∧ ∃ p ∈ c.inPage m w b, r.vaddr = BitVec.ofNat 64 p)) ∧
    (y.ev = some (.digestComplete c.handle) → c.kind = .digest → c.sg ≠ [] →
      (∀ a ∈ y.accesses, a.who = .engine c.handle → a.isFlight = false ∧ a.isFailed = false) → (∀ a, ¬ mine 0 a) →
      ((∃ a, mine 1 a) → ∃ z, exec .digestComplete s = .next { s with sys := z } ∧ cmdIs z (fun k =>
        k.progress = c.progress ++ (c.nextRun.filter (fun p => !c.profiled y p)).map (byteFrom (y.engineAccs c.handle 1)) ∧
        k.cursor = c.cursor + c.nextRun.length)) ∧
      ((∀ a, ¬ mine 1 a) → c.regionBytes ≤ c.cursor →
        let out := field c.record 0x10 8
        ((∀ a, ¬ mine 2 a) → (c.target y out 64 true).isSome = true → ∃ z, exec .digestComplete s = .next { s with sys := z } ∧
          ∃ a ∈ z.accesses, a.who = .engine c.handle ∧ a.op = .store (sha512 c.progress) ∧ a.ptr = BitVec.ofNat 64 out) ∧
        ((∃ a, mine 2 a) → allDone y s.gtime (y.engineAccs c.handle 2) = true →
          (c.bar = none → ∃ z, exec .digestComplete s = .next { s with sys := z } ∧ cmdIs z (fun k => k.status = .done)) ∧
          (∀ f, c.bar = some f → y.writeStalls f 16 = false → y.readError f 16 0 = none → ((readBar s.mem f).apply .arrive).isOver = false →
            ∃ t, exec .digestComplete s = .next t ∧ cmdIs t.sys (fun k => k.status = .done) ∧
              readBar t.mem f = ((readBar s.mem f).apply .arrive).obj))))

/-- R231 to R236: a ROUTE waits for one of eight places on its die, for the COUNT of every member, and for the DONE of every member; COUNTs that do
not agree, or a DONE with BAD, end it with REMOTE and no arrival; else it arrives once and is DONE. COUNTs are taken by their ROUTE or held,
and answered. A dropped or missing choice leaves no row. COMBINE arrives once its output is globally performed. R209: RESTORE is refused where a
record is missing or a target does not fit; else it renames each logical chip with its generation plus 1. -/
def Obligations.CollectivesAndRestore : Prop :=
  ∀ s : State,
    let y := s.sys
    (∀ c x ev, (x, ev, c.kind) ∈ ([(.routeWritesPerformed, .routeWritesPerformed c.handle, .route), (.combineDone, .combineDone c.handle, .combine)] :
        List (Instr × Event × CmdKind)) → y.ev = some ev → y.cmds.filter (fun k => k.handle == c.handle) = [c] → c.status = .running →
      c.inval = false → c.cancel = false → (∀ a ∈ y.accesses, a.who = .engine c.handle → a.isFlight = false ∧ a.isFailed = false) →
      let r := routingOf c.record
      let q := c.route
      let goes := fun (z : Sys) => exec x s = .next { s with sys := z }
      let cmdIs := fun (z : Sys) (f : Cmd → Prop) => ∀ k ∈ z.cmds, k.handle = c.handle → f k
      let becomes := fun (f : RouteState) => ∃ z, goes z ∧ cmdIs z (fun k => k.route = f ∧ k.status = .running)
      let fails := ∃ z, goes z ∧ cmdIs z (fun k => k.status = .error)
      let ends := fun (p : Nat) =>
        (c.bar = none → ∃ z, goes z ∧ cmdIs z (fun k => k.status = .done)) ∧
        (∀ f, c.bar = some f → y.writeStalls f 16 = false → y.readError f 16 0 = none →
          let b := (readBar s.mem f).apply .arrive
          (b.isOver = false → ∃ t, exec x s = .next t ∧ cmdIs t.sys (fun k => k.status = .done) ∧ readBar t.mem f = b.obj) ∧
          (b.isOver = true → ∃ t, exec x s = .next t ∧ cmdIs t.sys (fun k => k.status = .error ∧ k.ecause = some (.barovf, BitVec.ofNat 64 p))))
      (c.kind = .route →
        (q.phase = .waiting → (y.routesOn (coreDie c.core) < 8 → becomes { q with phase := .reading }) ∧
          (8 ≤ y.routesOn (coreDie c.core) → exec x s = .next s)) ∧
        (q.phase = .counting →
          ((∃ m ∈ q.members, q.countFrom m = none) → exec x s = .next s) ∧
          ((∀ m ∈ q.members, ∃ us, q.countFrom m = some us) →
            ((∀ m ∈ q.members, ∀ us, q.countFrom m = some us → ∀ u ∈ us, q.differs r u = false) → becomes { q with phase := .working }) ∧
            ((∃ m ∈ q.members, ∃ us, q.countFrom m = some us ∧ ∃ u ∈ us, q.differs r u = true) → fails))) ∧
        (q.phase = .working → q.item < r.t * r.k →
          let e := c.choice q.item
          let row := q.offsetOf e.toNat + ((List.range q.item).filter (fun j => c.choice j == e)).length
          let passes := fun (drop : Bool) => becomes { q with item := q.item + 1, loaded := false, invp := q.invp ++ [0xFFFFFFFF],
                                                              drops := if drop then q.drops ++ [q.item] else q.drops }
          (e = -1 → passes false) ∧ (e ≠ -1 → (c.expert e.toNat).2.1 ≤ row → passes true)) ∧
        (q.phase = .writing →
          let done := (y.rowWrites c.handle).all (fun a => a.doneAt y s.gtime 5) && allDone y s.gtime (y.engineAccs c.handle 3)
          (done = false → exec x s = .next s) ∧
          (done = true → (y.part c.part).joined = false → r.k < 16 → r.e < 2048 → r.cgroup < 65536 →
            becomes { q with phase := .ending, dones := q.dones ++ q.members.map (fun m => (m, c.ecause.isSome)) })) ∧
        (q.phase = .ending →
          ((∃ m ∈ q.members, ∀ d ∈ q.dones, d.1 ≠ m) → exec x s = .next s) ∧
          ((∀ m ∈ q.members, ∃ d ∈ q.dones, d.1 = m) →
            (c.ecause ≠ none ∨ (∃ m ∈ q.members, (m, true) ∈ q.dones) → fails) ∧
            (c.ecause = none → (∀ m ∈ q.members, (m, true) ∉ q.dones) → ends r.bar)))) ∧
      (c.kind = .combine →
        (q.phase = .working → q.item < r.t → q.item ∉ q.counted → (∃ w ∈ c.tokenRows q.item, c.rowBad y w = true) →
          ∃ z, goes z ∧ cmdIs z (fun k => k.route = { q with item := q.item + 1, loaded := false } ∧ k.ecause.isSome = true)) ∧
        (q.phase = .writing →
          (allDone y s.gtime (y.rowWrites c.handle) = false → exec x s = .next s) ∧
          (allDone y s.gtime (y.rowWrites c.handle) = true → (c.ecause ≠ none → fails) ∧ (c.ecause = none → ends r.bar))))) ∧
    (∀ p part, s.Arrives p tColl part →
      let u := p.payload.headD 0
      let w := (s.took p part).sys
      (y.ev = some (.collCount p) → p.op = 0 →
        (∀ c, y.routeFor part u = some c → ∃ z, exec .collCount s = .next { s with sys := z } ∧ z.answersWith p tWrack [0] ∧
          ∀ k ∈ z.cmds, k.handle = c.handle → ∃ l, k.route.counts = l ++ [(p.slog.toNat, p.payload)]) ∧
        (y.routeFor part u = none → (y.part part).held.length < 4096 → ∃ z, exec .collCount s = .next { s with sys := z } ∧
          z.answersWith p tWrack [0] ∧ (z.part part).held = (y.part part).held ++ [p] ∧ z.cmds = w.cmds) ∧
        (y.routeFor part u = none → 4096 ≤ (y.part part).held.length → exec .collCount s = .next s)) ∧
      (y.ev = some (.collDone p) → p.op = 1 → ∃ z, exec .collDone s = .next { s with sys := z } ∧ z.answersWith p tWrack [0] ∧
        (∀ c, y.routeFor part u = some c → ∀ k ∈ z.cmds, k.handle = c.handle → ∃ l, k.route.dones = l ++ [(p.slog.toNat, bit u.toNat 79)]) ∧
        (y.routeFor part u = none → z.cmds = y.cmds))) ∧
    (∀ r no ts, y.ev = some (.restore r no ts) →
      let parts := ts.map (fun t => t.part.toNat)
      let said := fun (st : Nat) => ({ y with answers := y.answers ++
        [{ peer := r.vf.toNat, code := 4, status := st, seq := r.seq
           bytes := bytesOf 4 (4 + st * 2 ^ 8 + r.seq.toNat * 2 ^ 16) ++ List.replicate 12 0 ++ [] }] } : Sys)
      let replies := fun (st : Nat) => exec .restore s = .next { s with sys := said st }
      let asks := ts ≠ [] ∧ ∀ p ∈ parts, p < 12
      let may := r.vf = 0xFF ∨ ∀ p ∈ parts, p ∈ y.hostParts r
      (¬ asks → replies 3) ∧ (asks → ¬ may → replies 2) ∧
      (asks → may → (∃ t ∈ ts, endsWell (recordsOf s no t) = false ∨ fabricOf (recordsOf s no t) = none) → replies 4) ∧
      (asks → may → ∀ t rs f, ts = [t] → rs = recordsOf s no t → endsWell rs = true → fabricOf rs = some f → f.chips = [t.lchip.toNat] →
        let p := t.part.toNat
        (y.fits p f = false → replies 1) ∧
        (y.fits p f = true → logsOf rs = [] → (∀ l ∈ f.launches, l.record.det = false) →
          ∃ e, exec .restore s = .next e ∧ (∃ a, e.sys.answers = y.answers ++ [a] ∧ a.code = 4 ∧ a.status = 0 ∧ a.seq = r.seq) ∧
            (e.sys.part p).st = .active ∧
            e.sys.launches.length = y.launches.length + f.launches.length ∧ e.sys.blocks.length = y.blocks.length + f.blocks.length ∧
            ((y.part p).joined = true → let d := (y.part p).dom.toNat
              e.sys.remapOf d t.lchip.toNat = { phys := y.phys, valid := true, gen := (y.remapOf d t.lchip.toNat).gen + 1 }))))

/-! ### Operations and events: the matrix unit -/

/-- R354, R356, R358 and R364: the result of an MMA is written to its registers; the four MMAJs of a tag join, and each writes its accumulator and
arrives once, with free values where its lent registers changed meanwhile or the types differ; an MLOOP reads its operands in its quadrant's
order and adds every step to its tile, which then holds the sums, and arrives; the tile of an ALOAD.M takes the bytes read. -/
def Obligations.MatrixEvents : Prop :=
  ∀ s : State,
    let y := s.sys
    let goesTo := fun (x : Instr) (z : Sys) => exec x s = .next { s with sys := z }
    let word := fun (z : Sys) (core tile r c : Nat) => sget z.tiles (core * 131072 + tile * 1024 + 32 * r + c)
    let arrives := fun (t : State) (bar : Option Nat) =>
      (bar = none → t.mem = s.mem) ∧ ∀ f, bar = some f → y.readError f 16 0 = none → readBar t.mem f = ((readBar s.mem f).apply .arrive).obj
    -- a group of the owner of some tiles is left, so that they stay owned
    let lives := fun (u : Nat) => ∃ x ∈ y.groups, x.block = some u ∨ x.handle = u
    (∀ h g, y.ev = some (.mmaResult h) → y.groups.filter (fun x => x.handle == h) = [g] →
      (g.mmas = [] → goesTo .mmaResult y) ∧
      (∀ m r, g.mmas = m :: r → (m.writes.map (fun w => w.1)).Nodup → ∃ z g', goesTo .mmaResult z ∧ { z with groups := y.groups } = y ∧
        z.group? h = some g' ∧ g'.mmas = r ∧ g'.frontier = g.frontier ∧
        (∀ w ∈ m.writes, g.lanes.getLsbD (w.1 / 128) = true → sget g'.regs.v w.1 = w.2) ∧
        ∀ j, (∀ w ∈ m.writes, w.1 ≠ j ∨ g.lanes.getLsbD (w.1 / 128) = false) → sget g'.regs.v j = sget g.regs.v j)) ∧
    (∀ h g b m, y.ev = some (.mmajJoin h) → y.groups.filter (fun x => x.handle == h) = [g] → g.block = some b → g.mmaj = some m →
      let set := y.joinSet g
      let ready := set.length = 4 ∧ ∀ x ∈ set, x.offCore = none ∧ ∃ k, x.mmaj = some k ∧ k.joined = false ∧ k.jtag = m.jtag
      (¬ ready → goesTo .mmajJoin y) ∧
      (ready → (y.groups.map (fun x => x.handle)).Nodup → ∃ z, goesTo .mmajJoin z ∧ { z with groups := y.groups } = y ∧
        (∀ x ∈ y.groups, x ∉ set → x ∈ z.groups) ∧
        ∀ x ∈ set, ∀ k, x.mmaj = some k → ∃ x' j, z.group? x.handle = some x' ∧ { x' with mmaj := x.mmaj } = x ∧ x'.mmaj = some j ∧ j.joined = true ∧
          { j with joined := false, corrupt := k.corrupt, writes := k.writes } = k ∧
          (j.corrupt = true ↔ ∃ v ∈ set, ∃ n, v.mmaj = some n ∧ n.typ ≠ m.typ) ∧
          j.writes = mmajWrites (set.filterMap (fun v => v.mmaj.map (fun n => (v, n)))) x k)) ∧
    (∀ h g m, y.ev = some (.mmajComplete h) → y.groups.filter (fun x => x.handle == h) = [g] → g.mmaj = some m →
      (m.joined = false ∨ y.writeStalls m.barAddr 16 = true → goesTo .mmajComplete y) ∧
      (m.joined = true → y.writeStalls m.barAddr 16 = false → (m.writes.map (fun w => w.1)).Nodup → (∀ e ∈ g.frontier, e.waitsAt m.barAddr = false) →
        let spoiled := m.corrupt = true ∨ g.lentNow m.a m.d ≠ m.lent ∨
          ∃ x ∈ y.joinedPeers g m, ∃ n, x.mmaj = some n ∧ x.quarterSpoiled n = true
        let undone := ∃ l ∈ g.matrix, l.seq = m.seq ∧ l.undone = true
        ∃ t g', exec .mmajComplete s = .next t ∧ t.sys.group? h = some g' ∧ g'.mmaj = none ∧ arrives t (some m.barAddr) ∧
          (¬ undone → ∀ w ∈ m.writes, g.lanes.getLsbD (w.1 / 128) = true → w.1 % 128 < g.allot →
            (¬ spoiled → sget g'.regs.v w.1 = w.2) ∧ (spoiled → ∃ n, sget g'.regs.v w.1 = (Config.freeWord n).setWidth 32)) ∧
          ∀ j, undone ∨ (∀ w ∈ m.writes, w.1 ≠ j) ∨ g.lanes.getLsbD (j / 128) = false ∨ g.allot ≤ j % 128 →
            sget g'.regs.v j = sget g.regs.v j)) ∧
    (∀ m, y.ev = some (.mloopOperandsRead m.id) → y.mloops.filter (fun x => x.id == m.id) = [m] →
      let waits := (∃ a ∈ y.accesses, a.who = .group m.group ∧ a.isFlight = true ∧ a.op.isRead = false ∧ a.id < m.id ∧
          (spaceOf a.ptr.toNat = 2 ∨ spaceOf a.ptr.toNat = 3)) ∨ y.mloopTurn m = false
      let k := m.operands.length
      (waits ∨ m.aSteps.length ≤ k → goesTo .mloopOperandsRead y) ∧
      (∀ a b, ¬ waits → m.aSteps[k]? = some a → m.bSteps[k]? = some b →
        let units := fun (l : List Nat) => l.flatMap (fun u => readBytes s.mem u 64)
        ((∀ u ∈ a ++ b, y.readError u 64 0 = none) → ∃ z, goesTo .mloopOperandsRead z ∧
          { z with mloops := y.mloops, frames := y.frames, corrected := y.corrected, dies := y.dies } = y ∧
          { m with operands := m.operands ++ [(units a, units b)] } ∈ z.mloops) ∧
        ((∃ u ∈ a ++ b, y.readError u 64 0 ≠ none) → ∃ z, goesTo .mloopOperandsRead z ∧ (lives m.block → z.tiles = y.tiles) ∧
          ∀ x ∈ z.mloops, x.id ≠ m.id))) ∧
    (∀ m, y.ev = some (.mloopComplete m.id) → y.mloops.filter (fun x => x.id == m.id) = [m] → m.operands.length = m.aSteps.length →
      let ops := m.operands
      let t := m.typ.toNat
      let stalls := y.tileStalls m.core m.tile = true ∨ ∃ f, m.bar = some f ∧ y.writeStalls f 16 = true
      let row := fun (r : Nat) => ops.flatMap (fun o => stepK t o.1 r)
      let col := fun (c : Nat) => ops.flatMap (fun o => stepK t o.2 c)
      let hurt := y.tileHurt m.core (if t = 6 ∨ t = 7 then [m.tile, m.tile + 1] else [m.tile])
      (stalls → goesTo .mloopComplete y) ∧
      (¬ stalls → hurt = true → ∃ z, goesTo .mloopComplete z ∧ (∀ x ∈ z.mloops, x.id ≠ m.id) ∧ (lives m.block → z.tiles = y.tiles)) ∧
      (¬ stalls → hurt = false → ∃ e, exec .mloopComplete s = .next e ∧ arrives e m.bar ∧ (∀ x ∈ e.sys.mloops, x.id ≠ m.id) ∧ (lives m.block →
        (∀ r c, r < 32 → c < 32 → let old := word y m.core m.tile r c
          (t < 6 → word e.sys m.core m.tile r c = accReal t old (row r) (col c)) ∧
          (t = 6 ∨ t = 7 → let p := accComplex old (word y m.core (m.tile + 1) r c) (row r) (col c)
            word e.sys m.core m.tile r c = p.1 ∧ word e.sys m.core (m.tile + 1) r c = p.2)) ∧
        ∀ j, j / 1024 ≠ m.core * 128 + m.tile → ((t = 6 ∨ t = 7) → j / 1024 ≠ m.core * 128 + m.tile + 1) → t < 8 → sget e.sys.tiles j = sget y.tiles j))) ∧
    (∀ o b, y.ev = some (.aloadMData o.id) → y.tileOps.filter (fun x => x.id == o.id) = [o] → b.length = (if o.complex then 8192 else 4096) →
      (∀ p ∈ o.rows, p.1 % 4 = 0 ∧ p.2.length % 4 = 0 ∧ p.2 = slice b p.1 p.2.length ∧ p.1 + p.2.length ≤ b.length) →
      (∀ w, 4 * w < b.length → ∃ p ∈ o.rows, p.1 ≤ 4 * w ∧ 4 * w < p.1 + p.2.length) →
      (o.rows.map (fun p => p.2.length)).sum = b.length →
      (y.tileStalls o.core o.tile = true → goesTo .aloadMData y) ∧
      (y.tileStalls o.core o.tile = false → ∃ z, goesTo .aloadMData z ∧ (∀ x ∈ z.tileOps, x.id ≠ o.id) ∧ (lives o.block → ∀ r c, r < 32 → c < 32 →
        (o.complex = false → word z o.core o.tile r c = BitVec.ofNat 32 (field b (4 * (32 * r + c)) 4)) ∧
        (o.complex = true → word z o.core o.tile r c = BitVec.ofNat 32 (field b (8 * (32 * r + c)) 4) ∧
          word z o.core (o.tile + 1) r c = BitVec.ofNat 32 (field b (8 * (32 * r + c) + 4) 4)))))

/-! ### The machine as a whole -/

/-- R269 to R282: every well-formed instruction that has a word is read back from that word's four bytes, with every operand at every value that its
encoding admits, and the bytes behind it are left. The word that an instruction is read from is the one word that encodes it: no bit of a word
that the maps define goes unread. -/
def Obligations.DecodeEncode : Prop :=
  (∀ (i : Instr) (w : Word) (rest : List Byte), i.wellFormed = true → encodeWord i = some w →
    encode i = [w.extractLsb' 0 8, w.extractLsb' 8 8, w.extractLsb' 16 8, w.extractLsb' 24 8] ∧ decode (encode i ++ rest) = .ok (i, rest)) ∧
  (∀ (i : Instr) (w : Word), decodeWord w = .ok i → encodeWord i = some w ∧ i.wellFormed = true)

/-- R269, R271, R275, R280, R281 and R282: words written out from the maps decode to the instructions that they stand for, and words that no map
defines are refused. -/
def Obligations.DecodedWords : Prop :=
  decodeWord 0x00040087 = .ok (.iadd { s := false, d := 1, a := 0, b := 8, m := false, g := 7 }) ∧
  decodeWord 0x7810403F = .ok (.digest { s := false, d := 4, a := 8, g := 7 }) ∧
  decodeWord 0x7810402F = .ok (.route { s := false, d := 4, a := 8, g := 7 }) ∧
  decodeWord 0xF8104037 = .ok (.combine { s := true, d := 4, a := 8, g := 7 }) ∧
  decodeWord 0x3614185F = .ok (.icmplt { s := false, p := 2, n := true, a := 3, b := 5, m := true, g := 7 }) ∧
  decodeWord 0x46080FF8 = .ok (.iaddi { s := false, d := 2, a := 1, i := 0xFF, g := 0 }) ∧
  decodeWord 0x561033FF = .ok (.ld32 { s := false, d := 4, a := 6, c := 1, o := 0x3F, g := 7 }) ∧
  decodeWord 0x6610305F = .ok (.atomCas { s := false, d := 4, a := 6, c := 0, g := 7 }) ∧
  decodeWord 0x68FFFFF9 = .ok (.call { s := false, u := false, e := 0xFFFFF, g := 1 }) ∧
  decodeWord 0x6E00401F = .ok (.barrive { s := false, d := 0, a := 8, g := 7 }) ∧
  decodeWord 0x720841C7 = .ok (.pred { s := false, d := 1, a := 2, b := 3, t := 8, g := 7 }) ∧
  decodeWord 0x7C00024F = .ok (.guard { n := true, p := 9 }) ∧ (∃ e, decodeWord 0xFFFFFFFF = .error e) ∧
  (∃ e, decodeWord 0x7E000007 = .error e) ∧ (∃ e, decodeWord 0x7810409F = .error e)

/-- The model's own promise: no step of any state stops. Every instruction and event that a turn can bring answers a next state; an error of a
program is a trap, a status or a record (R115, R121, R175), and an event that may not happen leaves the state as it is. -/
def Obligations.NoStepStops : Prop :=
  ∀ s : State, ∃ t, step s = .next t

/-- The memory keeps its canonical form in every step, from every state that has it. -/
def Obligations.MemoryStaysCanonical : Prop :=
  ∀ s t : State, s.wf → step s = .next t → t.wf

/-- R145, R153 and R308 in this model: an instruction word only asks for accesses. Whatever the word and the state, memory, the clock and the fused
counter stay as they are until an event performs them at their home. -/
def Obligations.WordsLeaveMemory : Prop :=
  ∀ (i : Instr) (s t : State), (encodeWord i).isSome = true → exec i s = .next t → { t with sys := s.sys } = s

/-- R18 and R63: GTIME never decreases within one boot, boots only count up, and the fused counter never decreases, in every step of every
state. -/
def Obligations.ClockAndFuseGoForward : Prop :=
  ∀ s t : State, step s = .next t → Forward s t

/-- R23, R51, R52, R67, R122, R132, R262 and R284: the values that the specification gives for reset. The memory has its canonical form; every HBM4E
and SRAM byte is zero; no partition and no VF is valid, nothing is resident, and the registers read as their tables say. -/
def Obligations.ResetValues : Prop :=
  let s := State.reset
  let y := s.sys
  s.wf ∧ s.gtime = 0 ∧ (∀ a, readByte s.mem a = 0) ∧ y.groups = [] ∧ y.launches = [] ∧ y.cmds = [] ∧ y.tileOwner = [] ∧
  (∀ p, (y.part p).valid = false ∧ (y.part p).dies = 0 ∧ (y.part p).pcap = 0 ∧ (y.part p).dsres = 64 ∧ (y.part p).ownunits = 16 ∧
    (y.part p).ealcnt = 0) ∧
  (∀ n, (y.vf n).valid = false ∧ (y.vf n).accthr = 256 ∧ (y.vf n).ndrop = 0 ∧ (y.vf n).en = false ∧ (y.vf n).run = false ∧
    (y.vf n).stopped = false ∧ (y.vf n).cfgerr = false) ∧
  (∀ c, let k := (y.core c).cp
    k.tcause = 0 ∧ k.tremcause = 0 ∧ k.tpc = 0 ∧ k.tmask = 0 ∧ k.tentry = 0 ∧ k.taddr = 0 ∧ k.tghandle = 0 ∧ k.tprio = 0 ∧ k.tealcnt = 0 ∧
    k.tinsn = 0 ∧ k.cptvec = 0 ∧ k.intrap = false ∧ k.parkthr = 65536 ∧ (y.core c).trapq = [] ∧ (y.core c).bintime = 2048) ∧
  (∀ n, (y.wearOf n).peol = 0xFFFFFFFF ∧ (y.wearOf n).peolwarn = 8760 ∧ (y.wearOf n).emcount = 0 ∧ (y.wearOf n).peoltime = 0) ∧
  y.ticklen = 1000 ∧ ∀ d l, (y.remapOf d l).valid = false

/-- R270, R106 and R282: a step takes the next turn after the time that the turn names has passed, and what that time makes due happens before
it (R78, R194). In a quadrant's turn, where no slot is withheld (R17), the entry that comes first in the order of R106 fetches the four bytes at its
PC through its launch's heap window; where they decode, the step is that instruction's meaning, and the other eligible groups have waited a slot
more; where the instruction is held at issue the next entry is tried; a word that no map defines raises ILLEGAL. A control processor's turn
executes the word at its PC, and an event's turn is that event. -/
def Obligations.StepRunsTheDecodedInstruction : Prop :=
  ∀ (s : State) (t : Turn) (rest : List Turn), s.sys.turns = t :: rest →
    let u := (elapse { s with sys := { s.sys with turns := rest } } t.ns).noted
    (∀ e, dueEvent u = some e → step s = exec e.row
      { u with sys := { u.sys with turns := { t with ns := 0 } :: rest, cur := none, ev := some e } }) ∧
    (dueEvent u = none →
    (t.act = .idle → step s = .next u) ∧
    (∀ m, t.act = .event m → let e := plainEvent m
      (e.wellFormed = true → mayHappen u e = true → step s = exec e.row { u with sys := { u.sys with cur := none, ev := some e } }) ∧
      (e.wellFormed = false ∨ mayHappen u e = false → step s = .next u)) ∧
    (∀ c, t.act = .cp c → (u.sys.core c).cp.delay = 0 → u.sys.cpReady c = true →
      let w : Word := BitVec.ofNat 32 (numOf (readBytes (u.sys.core c).cp.code (u.sys.core c).cp.pc.toNat 4))
      let at_ := u.issueAs (.cp c) w
      (∀ i, decodeWord w = .ok i → ∃ z y, exec i at_ = .next z ∧ step s = .next { z with sys := y } ∧ ((y.core c).cp.stalled = true ↔ z = at_) ∧
        ((∀ a ∈ z.sys.accesses, a.who = .cp c → a.isFailed = false) → { y with cores := z.sys.cores } = z.sys ∧
          (∀ k, k ≠ c → y.core k = z.sys.core k) ∧
          { y.core c with cp := { (y.core c).cp with stalled := (z.sys.core c).cp.stalled } } = z.sys.core c)) ∧
      (∀ e, decodeWord w = .error e → ∃ z, step s = .next { u with sys := z } ∧ ∃ r, (z.core c).cp.ownTrap = some r ∧ r.cause = .illegal)) ∧
    (∀ c q, t.act = .issue c q → u.sys.withholds c = true → step s = .next u) ∧
    (∀ c q h lane more, t.act = .issue c q → u.sys.withholds c = false →
      let v : State := { u with sys := u.sys.slotPasses c q }
      u.sys.candidates c q = .group h lane :: more → ∀ g e l f k b0 b1 b2 b3, v.sys.group? h = some g → g.entry? lane = some e →
        v.sys.launch? g.launch = some l → heapFlat (v.sys.part l.part) l.heap (offsetOf l.record.code.toNat + e.pc.toNat) 4 = some (f, k) →
        v.sys.readError f 4 k = none → readBytes v.mem f 4 = [b0, b1, b2, b3] →
        let w := wordOfBytes b0 b1 b2 b3
        let at_ := (beforeIssue v (.group h lane)).issueAs (.group h lane) w
        at_.sys.cur = some (.group h lane) ∧ at_.sys.insn = w ∧ at_.mem = v.mem ∧
        (∀ i d, decode [b0, b1, b2, b3] = .ok (i, d) → ∃ z, exec i at_ = .next z ∧
          (z ≠ at_ → step s = .next { z with sys := z.sys.passedOver (eligible v (.group h lane) more) }) ∧
          (z = at_ → step s = tryIssue v more)) ∧
        (∀ x, decode [b0, b1, b2, b3] = .error x → ∃ z r g', step s = .next { v with sys := z } ∧ z.group? h = some g' ∧
          ∃ j ∈ g'.frontier, j.mask = e.mask ∧ j.st = .trapped r ∧ r.cause = .illegal ∧ r.lanes = e.mask)))

/-- R115, R121, R268 and R282: a check that fails at issue stops the entry at its instruction, in state Trapped, with the cause, the lanes and the
address; a record is written, and no register changes. ILLEGAL comes before CLASS, CLASS before PRIVILEGE and HAZARD, and HAZARD before the
address checks. -/
def Obligations.IssueTraps : Prop :=
  ∀ (s : State) (i : Iss), issuer s = some i → i.cp = false → i.e.hints = {} →
    let traps := fun (x : Instr) (c : Cause) (lanes : LaneMask) (addr : DWord) => ∃ t r j, exec x s = .next t ∧ { t with sys := s.sys } = s ∧
      { i.groupIn t with frontier := i.g.frontier } = i.standing ∧ j ∈ (i.groupIn t).frontier ∧ j.mask = i.e.mask ∧ j.pc = i.e.pc ∧ j.st = .trapped r ∧
      r.cause = c ∧ r.lanes = lanes ∧ r.whole = i.e.mask ∧ r.addr = addr ∧ r.pc = i.e.pc ∧ r.queued = false ∧
      (∀ l, i.launch = some l → s.sys.newestRecord t.sys l.part c .group addr) ∧
      (∀ h, h ≠ i.g.handle → t.sys.group? h = s.sys.group? h) ∧ t.sys.accesses = s.sys.accesses
    -- registers that the allotment does not hold, and pending ones
    (∀ (o : FormTR) (x : Instr), x ∈ [.iadd o, .isub o, .imul o, .imulhs o, .imulhz o] → o.m = false →
      let regs := [o.d.toNat, o.a.toNat, o.b.toNat]
      let pending := regs.foldl (fun (m : LaneMask) r => m ||| sget i.g.regs.pend r) 0 &&& i.real (i.act o.g)
      ((∃ r ∈ regs, i.g.allot ≤ r) → traps x .illegal i.e.mask 0) ∧
      ((∀ r ∈ regs, r < i.g.allot) → pending ≠ 0 → traps x .hazard pending 0)) ∧
    -- an instruction of the control processor
    (∀ (o : FormTF) (x : Instr), x ∈ [.digest o, .route o, .combine o, .svctake o, .cmdstat o, .cmdcancel o] →
      o.a.toNat ≤ 126 → o.d.toNat ≤ 126 → traps x .privilege i.e.mask 0) ∧
    -- a load: its class, then its registers, then its addresses
    (∀ o : FormTM, let x : Instr := .ld32 o
      let legal := o.d.toNat < i.g.allot ∧ o.a.toNat + 1 < i.g.allot ∧ o.a.toNat % 2 = 0
      let pending := [o.d.toNat, o.a.toNat, o.a.toNat + 1].foldl (fun (m : LaneMask) r => m ||| sget i.g.regs.pend r) 0 &&& i.real (i.act o.g)
      let lanes := i.real (i.act o.g)
      let addr := fun (l : Nat) => i.laneAddr o.a.toNat (o.o.toInt * 4) l
      (i.g.allot ≤ o.d.toNat → traps x .illegal i.e.mask 0) ∧
      (legal → o.c = 3 → traps x .class i.e.mask 0) ∧
      (legal → o.c ≠ 3 → pending ≠ 0 → traps x .hazard pending 0) ∧
      (legal → o.c ≠ 3 → pending = 0 → (∀ m ∈ i.g.mmas, ∀ r ∈ [o.d.toNat, o.a.toNat, o.a.toNat + 1], ¬ (m.d ≤ r ∧ r < m.d + m.n)) →
        (s.sys.pruned i.now i.g).length < 16 → lanes ≠ 0 →
        (∀ l, lanes.getLsbD l = true → (addr l).base / 2 ^ 60 = 15 ∧ (addr l).ea / 2 ^ 60 = 15) → traps x .space lanes (BitVec.ofNat 64 (addr (lowest lanes)).ea)))
end

