-- ==== Sys2Proof/Laws/Tables.lean ====
section
/-!
SUPPORT. Reading after writing a sparse table, a table of entries and the byte memory, and the canonical form of the memory.
-/
namespace Sys2Proof.Machine

/-! ### Sparse tables -/

theorem sget_filter_ne {w : Nat} (l : Sparse w) (i k : Nat) :
    sget (l.filter (fun p => p.1 != i)) k = if k = i then 0 else sget l k := by
  induction l with
  | nil => simp [sget]
  | cons p r ih =>
    obtain ⟨j, x⟩ := p
    by_cases hj : j = i
    · subst hj
      simp only [List.filter_cons, bne_self_eq_false, Bool.false_eq_true, if_false, ih, sget]
      split <;> rfl
    · have hb : (j != i) = true := by simpa using hj
      simp only [List.filter_cons, hb, if_true, sget, ih]
      by_cases hk : k = j
      · subst hk
        simp [hj]
      · simp [hk]

theorem sget_sput {w : Nat} (l : Sparse w) (i : Nat) (x : BitVec w) (k : Nat) :
    sget (sput l i x) k = if k = i then x else sget l k := by
  induction l with
  | nil => simp [sput, sget]
  | cons p r ih =>
    obtain ⟨j, y⟩ := p
    by_cases h1 : i < j
    · simp [sput, h1, sget]
    · by_cases h2 : i = j
      · subst h2
        by_cases hk : k = i <;> simp [sput, sget, hk]
      · simp only [sput, h1, h2, if_false, sget, ih]
        by_cases hk : k = j
        · subst hk
          have : ¬ k = i := fun h => h2 h.symm
          simp [this]
        · simp [hk]

/-- Reading a sparse table after one write. -/
@[simp] theorem sget_sset {w : Nat} (l : Sparse w) (i : Nat) (x : BitVec w) (k : Nat) :
    sget (sset l i x) k = if k = i then x else sget l k := by
  unfold sset
  by_cases hx : x = 0
  · rw [if_pos hx, sget_filter_ne, hx]
  · rw [if_neg hx, sget_sput]

/-- Reading a sparse table after writes in order: the last write to the index, else what stood there. -/
theorem sget_foldl_sset {w : Nat} {α : Type} (f : α → Nat) (g : α → BitVec w) (ws : List α) (l : Sparse w) (k : Nat) :
    sget (ws.foldl (fun t x => sset t (f x) (g x)) l) k =
      ((ws.reverse.find? (fun x => f x == k)).map g).getD (sget l k) := by
  induction ws generalizing l with
  | nil => rfl
  | cons a r ih =>
    simp only [List.foldl_cons, ih, List.reverse_cons, List.find?_append]
    cases h : r.reverse.find? (fun x => f x == k) with
    | some x => simp
    | none =>
      by_cases hk : k = f a
      · simp [hk]
      · have : ¬ f a = k := fun h => hk h.symm
        simp [hk, this]

/-- An index that no write names keeps its value. -/
theorem sget_foldl_sset_of_not_mem {w : Nat} {α : Type} (f : α → Nat) (g : α → BitVec w) (ws : List α) (l : Sparse w) (k : Nat)
    (h : ∀ x ∈ ws, f x ≠ k) : sget (ws.foldl (fun t x => sset t (f x) (g x)) l) k = sget l k := by
  rw [sget_foldl_sset]
  have : ws.reverse.find? (fun x => f x == k) = none := by
    simp only [List.find?_eq_none, List.mem_reverse, beq_iff_eq]
    exact h
  rw [this]
  rfl

/-! ### Tables of entries -/

@[simp] theorem tget_tset {α : Type} (l : List (Nat × α)) (i : Nat) (x dflt : α) (k : Nat) :
    tget (tset l i x) k dflt = if k = i then x else tget l k dflt := by
  induction l with
  | nil => simp [tset, tget]
  | cons p r ih =>
    obtain ⟨j, y⟩ := p
    by_cases h1 : i < j
    · simp [tset, h1, tget]
    · by_cases h2 : i = j
      · subst h2
        by_cases hk : k = i <;> simp [tset, tget, hk]
      · simp only [tset, h1, h2, if_false, tget, ih]
        by_cases hk : k = j
        · subst hk
          have : ¬ k = i := fun h => h2 h.symm
          simp [this]
        · simp [hk]

@[simp] theorem tget_tmod {α : Type} (l : List (Nat × α)) (i : Nat) (dflt : α) (f : α → α) (k : Nat) :
    tget (tmod l i dflt f) k dflt = if k = i then f (tget l i dflt) else tget l k dflt := by
  simp [tmod]

theorem tset_tset {α : Type} (l : List (Nat × α)) (i : Nat) (x z : α) : tset (tset l i x) i z = tset l i z := by
  induction l with
  | nil => simp [tset]
  | cons p r ih =>
    obtain ⟨j, y⟩ := p
    by_cases h1 : i < j
    · simp [tset, h1]
    · by_cases h2 : i = j
      · subst h2
        simp [tset]
      · simp [tset, h1, h2, ih]

/-- Two changes of one entry are one. -/
theorem tmod_tmod {α : Type} (l : List (Nat × α)) (i : Nat) (dflt : α) (f g : α → α) :
    tmod (tmod l i dflt f) i dflt g = tmod l i dflt (fun x => g (f x)) := by
  simp [tmod, tset_tset]

/-! ### The byte memory -/

theorem writeCells_nil (m : List Host.Cell) : writeCells m [] = m := rfl

theorem writeCells_append (m ws vs : List Host.Cell) : writeCells m (ws ++ vs) = writeCells (writeCells m ws) vs := by
  simp [writeCells, ssets]

/-- A byte after writes in order. -/
theorem readByte_writeCells (m ws : List Host.Cell) (a : Nat) :
    readByte (writeCells m ws) a =
      ((ws.reverse.find? (fun c => c.1 == a)).map Prod.snd).getD (readByte m a) := by
  simp only [readByte, writeCells, ssets]
  exact sget_foldl_sset Prod.fst Prod.snd ws m a

/-- A byte that no write names keeps its value. -/
theorem readByte_writeCells_of_not_mem (m ws : List Host.Cell) (a : Nat) (h : ∀ c ∈ ws, c.1 ≠ a) :
    readByte (writeCells m ws) a = readByte m a := by
  simp only [readByte, writeCells, ssets]
  exact sget_foldl_sset_of_not_mem Prod.fst Prod.snd ws m a h

theorem mem_cellsAt {a : Nat} {b : List Byte} {c : Host.Cell} (h : c ∈ cellsAt a b) : a ≤ c.1 ∧ c.1 < a + b.length := by
  induction b generalizing a with
  | nil => simp [cellsAt] at h
  | cons x r ih =>
    simp only [cellsAt, List.mem_cons] at h
    rcases h with rfl | h
    · simp
    · have := ih h
      simp only [List.length_cons]
      omega

/-- A store of bytes leaves every byte outside them alone. -/
theorem readByte_store_outside (m : List Host.Cell) (a : Nat) (b : List Byte) (x : Nat) (h : x < a ∨ a + b.length ≤ x) :
    readByte (writeCells m (cellsAt a b)) x = readByte m x := by
  refine readByte_writeCells_of_not_mem _ _ _ (fun c hc => ?_)
  have := mem_cellsAt hc
  omega

/-- A stored byte reads back. -/
theorem readByte_store_inside (m : List Host.Cell) (a : Nat) (b : List Byte) (j : Nat) (h : j < b.length) :
    readByte (writeCells m (cellsAt a b)) (a + j) = b[j] := by
  induction b generalizing m a j with
  | nil => simp at h
  | cons x r ih =>
    have e : writeCells m (cellsAt a (x :: r)) = writeCells (writeByte m a x) (cellsAt (a + 1) r) := rfl
    rw [e]
    cases j with
    | zero =>
      rw [readByte_store_outside _ _ _ _ (by omega)]
      simp [readByte, writeByte]
    | succ n =>
      have := ih (writeByte m a x) (a + 1) n (by simpa using h)
      rw [show a + (n + 1) = a + 1 + n by omega, this]
      rfl

/-! ### The canonical form -/

theorem sparseWf_cons {w : Nat} (i : Nat) (x : BitVec w) (r : Sparse w) :
    sparseWf ((i, x) :: r) = true ↔ x ≠ 0 ∧ (∀ p ∈ r.head?, i < p.1) ∧ sparseWf r = true := by
  cases r with
  | nil => simp [sparseWf]
  | cons q r =>
    obtain ⟨j, y⟩ := q
    simp [sparseWf, and_assoc]

/-- In a well-formed table every index of the rest is above the first. -/
theorem sparseWf_lt {w : Nat} (r : Sparse w) (i : Nat) (x : BitVec w) (h : sparseWf ((i, x) :: r) = true) : ∀ p ∈ r, i < p.1 := by
  induction r generalizing i x with
  | nil => simp
  | cons q r ih =>
    obtain ⟨j, y⟩ := q
    rw [sparseWf_cons] at h
    have hij : i < j := h.2.1 (j, y) rfl
    intro p hp
    rcases List.mem_cons.1 hp with rfl | hp
    · exact hij
    · exact Nat.lt_trans hij (ih j y h.2.2 p hp)

theorem sparseWf_of_cons {w : Nat} (r : Sparse w) (i : Nat) (x : BitVec w) (hx : x ≠ 0) (h : ∀ p ∈ r, i < p.1)
    (hr : sparseWf r = true) : sparseWf ((i, x) :: r) = true := by
  rw [sparseWf_cons]
  refine ⟨hx, fun p hp => h p (List.mem_of_mem_head? hp), hr⟩

theorem sparseWf_filter {w : Nat} (l : Sparse w) (f : Nat × BitVec w → Bool) (h : sparseWf l = true) :
    sparseWf (l.filter f) = true := by
  induction l with
  | nil => rfl
  | cons p r ih =>
    obtain ⟨i, x⟩ := p
    have hr := (sparseWf_cons i x r).1 h
    simp only [List.filter_cons]
    split
    · exact sparseWf_of_cons _ _ _ hr.1 (fun q hq => sparseWf_lt r i x h q (List.mem_filter.1 hq |>.1)) (ih hr.2.2)
    · exact ih hr.2.2

theorem mem_sput {w : Nat} (l : Sparse w) (i : Nat) (x : BitVec w) (p : Nat × BitVec w) (h : p ∈ sput l i x) : p = (i, x) ∨ p ∈ l := by
  induction l with
  | nil => simpa [sput] using h
  | cons q r ih =>
    obtain ⟨j, y⟩ := q
    simp only [sput] at h
    split at h
    · simpa using h
    · split at h
      · rcases List.mem_cons.1 h with h | h
        · exact .inl h
        · exact .inr (List.mem_cons_of_mem _ h)
      · rcases List.mem_cons.1 h with h | h
        · exact .inr (by simp [h])
        · rcases ih h with h | h
          · exact .inl h
          · exact .inr (List.mem_cons_of_mem _ h)

theorem sparseWf_sput {w : Nat} (l : Sparse w) (i : Nat) (x : BitVec w) (hx : x ≠ 0) (h : sparseWf l = true) :
    sparseWf (sput l i x) = true := by
  induction l with
  | nil => simpa [sput, sparseWf] using hx
  | cons q r ih =>
    obtain ⟨j, y⟩ := q
    have hr := (sparseWf_cons j y r).1 h
    have hlt := sparseWf_lt r j y h
    simp only [sput]
    split
    · rename_i hij
      refine sparseWf_of_cons _ _ _ hx (fun p hp => ?_) h
      rcases List.mem_cons.1 hp with rfl | hp
      · exact hij
      · exact Nat.lt_trans hij (hlt p hp)
    · split
      · rename_i hij
        subst hij
        exact sparseWf_of_cons _ _ _ hx hlt hr.2.2
      · refine sparseWf_of_cons _ _ _ hr.1 (fun p hp => ?_) (ih hr.2.2)
        rcases mem_sput r i x p hp with rfl | hp
        · omega
        · exact hlt p hp

/-- A write keeps the canonical form. -/
theorem sparseWf_sset {w : Nat} (l : Sparse w) (i : Nat) (x : BitVec w) (h : sparseWf l = true) : sparseWf (sset l i x) = true := by
  unfold sset
  split
  · exact sparseWf_filter l _ h
  · exact sparseWf_sput l i x ‹_› h

/-- The one operation that writes memory keeps its canonical form. -/
theorem Memory.wf_writeCells (m ws : List Host.Cell) (h : Memory.wf m) : Memory.wf (writeCells m ws) := by
  unfold writeCells ssets
  induction ws generalizing m with
  | nil => exact h
  | cons c r ih => exact ih _ (sparseWf_sset m c.1 c.2 h)

end Sys2Proof.Machine
end

