-- ==== Sys2Proof/Laws/State.lean ====
section
/-!
SUPPORT. The fields of the state after each named update, true by rfl, and the tables' entries after an update.
-/
namespace Sys2Proof.Machine

theorem find_map_if {α : Type} (l : List α) (key : α → Nat) (h k : Nat) (f : α → α) (hf : ∀ g, key (f g) = key g) :
    (l.map (fun g => if key g = h then f g else g)).find? (fun g => key g == k) =
      if k = h then (l.find? (fun g => key g == k)).map f else l.find? (fun g => key g == k) := by
  induction l with
  | nil => simp
  | cons a r ih =>
    simp only [List.map_cons, List.find?_cons, ih]
    by_cases ha : key a = h
    · simp only [ha, if_true, hf]
      by_cases hk : k = h
      · subst hk
        simp
      · have : (h == k) = false := by simpa using fun e => hk e.symm
        simp [hk, this]
    · simp only [ha, if_false]
      by_cases hk : k = h
      · subst hk
        have : (key a == k) = false := by simpa using ha
        simp [this]
      · simp only [hk, if_false]

@[simp] theorem Eff.apply_gtime (e : Eff) (s : State) : (e.apply s).gtime = s.gtime := rfl
@[simp] theorem Eff.apply_boots (e : Eff) (s : State) : (e.apply s).boots = s.boots := rfl
@[simp] theorem Eff.apply_fuse (e : Eff) (s : State) : (e.apply s).fuse = s.fuse := rfl
@[simp] theorem Eff.apply_sys (e : Eff) (s : State) : (e.apply s).sys = e.sys := rfl
@[simp] theorem Eff.apply_mem (e : Eff) (s : State) : (e.apply s).mem = writeCells s.mem e.cells := rfl

@[simp] theorem Sys.modCore_cur (y : Sys) (c : Nat) (f : Core → Core) : (y.modCore c f).cur = y.cur := rfl
@[simp] theorem Sys.modCore_insn (y : Sys) (c : Nat) (f : Core → Core) : (y.modCore c f).insn = y.insn := rfl
@[simp] theorem Sys.modCore_ev (y : Sys) (c : Nat) (f : Core → Core) : (y.modCore c f).ev = y.ev := rfl
@[simp] theorem Sys.modCore_free (y : Sys) (c : Nat) (f : Core → Core) : (y.modCore c f).free = y.free := rfl
@[simp] theorem Sys.modCore_nextId (y : Sys) (c : Nat) (f : Core → Core) : (y.modCore c f).nextId = y.nextId := rfl
@[simp] theorem Sys.modCore_phys (y : Sys) (c : Nat) (f : Core → Core) : (y.modCore c f).phys = y.phys := rfl
@[simp] theorem Sys.modCore_dies (y : Sys) (c : Nat) (f : Core → Core) : (y.modCore c f).dies = y.dies := rfl
@[simp] theorem Sys.modCore_parts (y : Sys) (c : Nat) (f : Core → Core) : (y.modCore c f).parts = y.parts := rfl
@[simp] theorem Sys.modCore_vfs (y : Sys) (c : Nat) (f : Core → Core) : (y.modCore c f).vfs = y.vfs := rfl
@[simp] theorem Sys.modCore_keys (y : Sys) (c : Nat) (f : Core → Core) : (y.modCore c f).keys = y.keys := rfl
@[simp] theorem Sys.modCore_frames (y : Sys) (c : Nat) (f : Core → Core) : (y.modCore c f).frames = y.frames := rfl
@[simp] theorem Sys.modCore_eccBad (y : Sys) (c : Nat) (f : Core → Core) : (y.modCore c f).eccBad = y.eccBad := rfl
@[simp] theorem Sys.modCore_ports (y : Sys) (c : Nat) (f : Core → Core) : (y.modCore c f).ports = y.ports := rfl
@[simp] theorem Sys.modCore_remap (y : Sys) (c : Nat) (f : Core → Core) : (y.modCore c f).remap = y.remap := rfl
@[simp] theorem Sys.modCore_inbox (y : Sys) (c : Nat) (f : Core → Core) : (y.modCore c f).inbox = y.inbox := rfl
@[simp] theorem Sys.modCore_tombstones (y : Sys) (c : Nat) (f : Core → Core) : (y.modCore c f).tombstones = y.tombstones := rfl
@[simp] theorem Sys.modCore_groups (y : Sys) (c : Nat) (f : Core → Core) : (y.modCore c f).groups = y.groups := rfl
@[simp] theorem Sys.modCore_blocks (y : Sys) (c : Nat) (f : Core → Core) : (y.modCore c f).blocks = y.blocks := rfl
@[simp] theorem Sys.modCore_launches (y : Sys) (c : Nat) (f : Core → Core) : (y.modCore c f).launches = y.launches := rfl
@[simp] theorem Sys.modCore_storeWaits (y : Sys) (c : Nat) (f : Core → Core) : (y.modCore c f).storeWaits = y.storeWaits := rfl
@[simp] theorem Sys.modCore_accesses (y : Sys) (c : Nat) (f : Core → Core) : (y.modCore c f).accesses = y.accesses := rfl
@[simp] theorem Sys.modCore_cmds (y : Sys) (c : Nat) (f : Core → Core) : (y.modCore c f).cmds = y.cmds := rfl
@[simp] theorem Sys.modCore_hostCmds (y : Sys) (c : Nat) (f : Core → Core) : (y.modCore c f).hostCmds = y.hostCmds := rfl
@[simp] theorem Sys.modCore_contribs (y : Sys) (c : Nat) (f : Core → Core) : (y.modCore c f).contribs = y.contribs := rfl
@[simp] theorem Sys.modCore_tiles (y : Sys) (c : Nat) (f : Core → Core) : (y.modCore c f).tiles = y.tiles := rfl
@[simp] theorem Sys.modCore_tileOwner (y : Sys) (c : Nat) (f : Core → Core) : (y.modCore c f).tileOwner = y.tileOwner := rfl
@[simp] theorem Sys.modCore_mloops (y : Sys) (c : Nat) (f : Core → Core) : (y.modCore c f).mloops = y.mloops := rfl
@[simp] theorem Sys.modCore_tileOps (y : Sys) (c : Nat) (f : Core → Core) : (y.modCore c f).tileOps = y.tileOps := rfl

@[simp] theorem Sys.modCp_cur (y : Sys) (c : Nat) (f : Cp → Cp) : (y.modCp c f).cur = y.cur := rfl
@[simp] theorem Sys.modCp_insn (y : Sys) (c : Nat) (f : Cp → Cp) : (y.modCp c f).insn = y.insn := rfl
@[simp] theorem Sys.modCp_ev (y : Sys) (c : Nat) (f : Cp → Cp) : (y.modCp c f).ev = y.ev := rfl
@[simp] theorem Sys.modCp_free (y : Sys) (c : Nat) (f : Cp → Cp) : (y.modCp c f).free = y.free := rfl
@[simp] theorem Sys.modCp_nextId (y : Sys) (c : Nat) (f : Cp → Cp) : (y.modCp c f).nextId = y.nextId := rfl
@[simp] theorem Sys.modCp_phys (y : Sys) (c : Nat) (f : Cp → Cp) : (y.modCp c f).phys = y.phys := rfl
@[simp] theorem Sys.modCp_dies (y : Sys) (c : Nat) (f : Cp → Cp) : (y.modCp c f).dies = y.dies := rfl
@[simp] theorem Sys.modCp_parts (y : Sys) (c : Nat) (f : Cp → Cp) : (y.modCp c f).parts = y.parts := rfl
@[simp] theorem Sys.modCp_vfs (y : Sys) (c : Nat) (f : Cp → Cp) : (y.modCp c f).vfs = y.vfs := rfl
@[simp] theorem Sys.modCp_keys (y : Sys) (c : Nat) (f : Cp → Cp) : (y.modCp c f).keys = y.keys := rfl
@[simp] theorem Sys.modCp_frames (y : Sys) (c : Nat) (f : Cp → Cp) : (y.modCp c f).frames = y.frames := rfl
@[simp] theorem Sys.modCp_eccBad (y : Sys) (c : Nat) (f : Cp → Cp) : (y.modCp c f).eccBad = y.eccBad := rfl
@[simp] theorem Sys.modCp_ports (y : Sys) (c : Nat) (f : Cp → Cp) : (y.modCp c f).ports = y.ports := rfl
@[simp] theorem Sys.modCp_remap (y : Sys) (c : Nat) (f : Cp → Cp) : (y.modCp c f).remap = y.remap := rfl
@[simp] theorem Sys.modCp_inbox (y : Sys) (c : Nat) (f : Cp → Cp) : (y.modCp c f).inbox = y.inbox := rfl
@[simp] theorem Sys.modCp_tombstones (y : Sys) (c : Nat) (f : Cp → Cp) : (y.modCp c f).tombstones = y.tombstones := rfl
@[simp] theorem Sys.modCp_groups (y : Sys) (c : Nat) (f : Cp → Cp) : (y.modCp c f).groups = y.groups := rfl
@[simp] theorem Sys.modCp_blocks (y : Sys) (c : Nat) (f : Cp → Cp) : (y.modCp c f).blocks = y.blocks := rfl
@[simp] theorem Sys.modCp_launches (y : Sys) (c : Nat) (f : Cp → Cp) : (y.modCp c f).launches = y.launches := rfl
@[simp] theorem Sys.modCp_storeWaits (y : Sys) (c : Nat) (f : Cp → Cp) : (y.modCp c f).storeWaits = y.storeWaits := rfl
@[simp] theorem Sys.modCp_accesses (y : Sys) (c : Nat) (f : Cp → Cp) : (y.modCp c f).accesses = y.accesses := rfl
@[simp] theorem Sys.modCp_cmds (y : Sys) (c : Nat) (f : Cp → Cp) : (y.modCp c f).cmds = y.cmds := rfl
@[simp] theorem Sys.modCp_hostCmds (y : Sys) (c : Nat) (f : Cp → Cp) : (y.modCp c f).hostCmds = y.hostCmds := rfl
@[simp] theorem Sys.modCp_contribs (y : Sys) (c : Nat) (f : Cp → Cp) : (y.modCp c f).contribs = y.contribs := rfl
@[simp] theorem Sys.modCp_tiles (y : Sys) (c : Nat) (f : Cp → Cp) : (y.modCp c f).tiles = y.tiles := rfl
@[simp] theorem Sys.modCp_tileOwner (y : Sys) (c : Nat) (f : Cp → Cp) : (y.modCp c f).tileOwner = y.tileOwner := rfl
@[simp] theorem Sys.modCp_mloops (y : Sys) (c : Nat) (f : Cp → Cp) : (y.modCp c f).mloops = y.mloops := rfl
@[simp] theorem Sys.modCp_tileOps (y : Sys) (c : Nat) (f : Cp → Cp) : (y.modCp c f).tileOps = y.tileOps := rfl

@[simp] theorem Sys.modPart_cur (y : Sys) (p : Nat) (f : Part → Part) : (y.modPart p f).cur = y.cur := rfl
@[simp] theorem Sys.modPart_insn (y : Sys) (p : Nat) (f : Part → Part) : (y.modPart p f).insn = y.insn := rfl
@[simp] theorem Sys.modPart_ev (y : Sys) (p : Nat) (f : Part → Part) : (y.modPart p f).ev = y.ev := rfl
@[simp] theorem Sys.modPart_free (y : Sys) (p : Nat) (f : Part → Part) : (y.modPart p f).free = y.free := rfl
@[simp] theorem Sys.modPart_nextId (y : Sys) (p : Nat) (f : Part → Part) : (y.modPart p f).nextId = y.nextId := rfl
@[simp] theorem Sys.modPart_phys (y : Sys) (p : Nat) (f : Part → Part) : (y.modPart p f).phys = y.phys := rfl
@[simp] theorem Sys.modPart_dies (y : Sys) (p : Nat) (f : Part → Part) : (y.modPart p f).dies = y.dies := rfl
@[simp] theorem Sys.modPart_vfs (y : Sys) (p : Nat) (f : Part → Part) : (y.modPart p f).vfs = y.vfs := rfl
@[simp] theorem Sys.modPart_keys (y : Sys) (p : Nat) (f : Part → Part) : (y.modPart p f).keys = y.keys := rfl
@[simp] theorem Sys.modPart_frames (y : Sys) (p : Nat) (f : Part → Part) : (y.modPart p f).frames = y.frames := rfl
@[simp] theorem Sys.modPart_eccBad (y : Sys) (p : Nat) (f : Part → Part) : (y.modPart p f).eccBad = y.eccBad := rfl
@[simp] theorem Sys.modPart_ports (y : Sys) (p : Nat) (f : Part → Part) : (y.modPart p f).ports = y.ports := rfl
@[simp] theorem Sys.modPart_remap (y : Sys) (p : Nat) (f : Part → Part) : (y.modPart p f).remap = y.remap := rfl
@[simp] theorem Sys.modPart_inbox (y : Sys) (p : Nat) (f : Part → Part) : (y.modPart p f).inbox = y.inbox := rfl
@[simp] theorem Sys.modPart_tombstones (y : Sys) (p : Nat) (f : Part → Part) : (y.modPart p f).tombstones = y.tombstones := rfl
@[simp] theorem Sys.modPart_cores (y : Sys) (p : Nat) (f : Part → Part) : (y.modPart p f).cores = y.cores := rfl
@[simp] theorem Sys.modPart_groups (y : Sys) (p : Nat) (f : Part → Part) : (y.modPart p f).groups = y.groups := rfl
@[simp] theorem Sys.modPart_blocks (y : Sys) (p : Nat) (f : Part → Part) : (y.modPart p f).blocks = y.blocks := rfl
@[simp] theorem Sys.modPart_launches (y : Sys) (p : Nat) (f : Part → Part) : (y.modPart p f).launches = y.launches := rfl
@[simp] theorem Sys.modPart_storeWaits (y : Sys) (p : Nat) (f : Part → Part) : (y.modPart p f).storeWaits = y.storeWaits := rfl
@[simp] theorem Sys.modPart_accesses (y : Sys) (p : Nat) (f : Part → Part) : (y.modPart p f).accesses = y.accesses := rfl
@[simp] theorem Sys.modPart_cmds (y : Sys) (p : Nat) (f : Part → Part) : (y.modPart p f).cmds = y.cmds := rfl
@[simp] theorem Sys.modPart_hostCmds (y : Sys) (p : Nat) (f : Part → Part) : (y.modPart p f).hostCmds = y.hostCmds := rfl
@[simp] theorem Sys.modPart_contribs (y : Sys) (p : Nat) (f : Part → Part) : (y.modPart p f).contribs = y.contribs := rfl
@[simp] theorem Sys.modPart_tiles (y : Sys) (p : Nat) (f : Part → Part) : (y.modPart p f).tiles = y.tiles := rfl
@[simp] theorem Sys.modPart_tileOwner (y : Sys) (p : Nat) (f : Part → Part) : (y.modPart p f).tileOwner = y.tileOwner := rfl
@[simp] theorem Sys.modPart_mloops (y : Sys) (p : Nat) (f : Part → Part) : (y.modPart p f).mloops = y.mloops := rfl
@[simp] theorem Sys.modPart_tileOps (y : Sys) (p : Nat) (f : Part → Part) : (y.modPart p f).tileOps = y.tileOps := rfl

@[simp] theorem Sys.modVf_cur (y : Sys) (v : Nat) (f : Vf → Vf) : (y.modVf v f).cur = y.cur := rfl
@[simp] theorem Sys.modVf_insn (y : Sys) (v : Nat) (f : Vf → Vf) : (y.modVf v f).insn = y.insn := rfl
@[simp] theorem Sys.modVf_ev (y : Sys) (v : Nat) (f : Vf → Vf) : (y.modVf v f).ev = y.ev := rfl
@[simp] theorem Sys.modVf_free (y : Sys) (v : Nat) (f : Vf → Vf) : (y.modVf v f).free = y.free := rfl
@[simp] theorem Sys.modVf_nextId (y : Sys) (v : Nat) (f : Vf → Vf) : (y.modVf v f).nextId = y.nextId := rfl
@[simp] theorem Sys.modVf_phys (y : Sys) (v : Nat) (f : Vf → Vf) : (y.modVf v f).phys = y.phys := rfl
@[simp] theorem Sys.modVf_dies (y : Sys) (v : Nat) (f : Vf → Vf) : (y.modVf v f).dies = y.dies := rfl
@[simp] theorem Sys.modVf_parts (y : Sys) (v : Nat) (f : Vf → Vf) : (y.modVf v f).parts = y.parts := rfl
@[simp] theorem Sys.modVf_keys (y : Sys) (v : Nat) (f : Vf → Vf) : (y.modVf v f).keys = y.keys := rfl
@[simp] theorem Sys.modVf_frames (y : Sys) (v : Nat) (f : Vf → Vf) : (y.modVf v f).frames = y.frames := rfl
@[simp] theorem Sys.modVf_eccBad (y : Sys) (v : Nat) (f : Vf → Vf) : (y.modVf v f).eccBad = y.eccBad := rfl
@[simp] theorem Sys.modVf_ports (y : Sys) (v : Nat) (f : Vf → Vf) : (y.modVf v f).ports = y.ports := rfl
@[simp] theorem Sys.modVf_remap (y : Sys) (v : Nat) (f : Vf → Vf) : (y.modVf v f).remap = y.remap := rfl
@[simp] theorem Sys.modVf_inbox (y : Sys) (v : Nat) (f : Vf → Vf) : (y.modVf v f).inbox = y.inbox := rfl
@[simp] theorem Sys.modVf_tombstones (y : Sys) (v : Nat) (f : Vf → Vf) : (y.modVf v f).tombstones = y.tombstones := rfl
@[simp] theorem Sys.modVf_cores (y : Sys) (v : Nat) (f : Vf → Vf) : (y.modVf v f).cores = y.cores := rfl
@[simp] theorem Sys.modVf_groups (y : Sys) (v : Nat) (f : Vf → Vf) : (y.modVf v f).groups = y.groups := rfl
@[simp] theorem Sys.modVf_blocks (y : Sys) (v : Nat) (f : Vf → Vf) : (y.modVf v f).blocks = y.blocks := rfl
@[simp] theorem Sys.modVf_launches (y : Sys) (v : Nat) (f : Vf → Vf) : (y.modVf v f).launches = y.launches := rfl
@[simp] theorem Sys.modVf_storeWaits (y : Sys) (v : Nat) (f : Vf → Vf) : (y.modVf v f).storeWaits = y.storeWaits := rfl
@[simp] theorem Sys.modVf_accesses (y : Sys) (v : Nat) (f : Vf → Vf) : (y.modVf v f).accesses = y.accesses := rfl
@[simp] theorem Sys.modVf_cmds (y : Sys) (v : Nat) (f : Vf → Vf) : (y.modVf v f).cmds = y.cmds := rfl
@[simp] theorem Sys.modVf_hostCmds (y : Sys) (v : Nat) (f : Vf → Vf) : (y.modVf v f).hostCmds = y.hostCmds := rfl
@[simp] theorem Sys.modVf_contribs (y : Sys) (v : Nat) (f : Vf → Vf) : (y.modVf v f).contribs = y.contribs := rfl
@[simp] theorem Sys.modVf_tiles (y : Sys) (v : Nat) (f : Vf → Vf) : (y.modVf v f).tiles = y.tiles := rfl
@[simp] theorem Sys.modVf_tileOwner (y : Sys) (v : Nat) (f : Vf → Vf) : (y.modVf v f).tileOwner = y.tileOwner := rfl
@[simp] theorem Sys.modVf_mloops (y : Sys) (v : Nat) (f : Vf → Vf) : (y.modVf v f).mloops = y.mloops := rfl
@[simp] theorem Sys.modVf_tileOps (y : Sys) (v : Nat) (f : Vf → Vf) : (y.modVf v f).tileOps = y.tileOps := rfl

@[simp] theorem Sys.modDie_cur (y : Sys) (d : Nat) (f : Die → Die) : (y.modDie d f).cur = y.cur := rfl
@[simp] theorem Sys.modDie_insn (y : Sys) (d : Nat) (f : Die → Die) : (y.modDie d f).insn = y.insn := rfl
@[simp] theorem Sys.modDie_ev (y : Sys) (d : Nat) (f : Die → Die) : (y.modDie d f).ev = y.ev := rfl
@[simp] theorem Sys.modDie_free (y : Sys) (d : Nat) (f : Die → Die) : (y.modDie d f).free = y.free := rfl
@[simp] theorem Sys.modDie_nextId (y : Sys) (d : Nat) (f : Die → Die) : (y.modDie d f).nextId = y.nextId := rfl
@[simp] theorem Sys.modDie_phys (y : Sys) (d : Nat) (f : Die → Die) : (y.modDie d f).phys = y.phys := rfl
@[simp] theorem Sys.modDie_parts (y : Sys) (d : Nat) (f : Die → Die) : (y.modDie d f).parts = y.parts := rfl
@[simp] theorem Sys.modDie_vfs (y : Sys) (d : Nat) (f : Die → Die) : (y.modDie d f).vfs = y.vfs := rfl
@[simp] theorem Sys.modDie_keys (y : Sys) (d : Nat) (f : Die → Die) : (y.modDie d f).keys = y.keys := rfl
@[simp] theorem Sys.modDie_frames (y : Sys) (d : Nat) (f : Die → Die) : (y.modDie d f).frames = y.frames := rfl
@[simp] theorem Sys.modDie_eccBad (y : Sys) (d : Nat) (f : Die → Die) : (y.modDie d f).eccBad = y.eccBad := rfl
@[simp] theorem Sys.modDie_ports (y : Sys) (d : Nat) (f : Die → Die) : (y.modDie d f).ports = y.ports := rfl
@[simp] theorem Sys.modDie_remap (y : Sys) (d : Nat) (f : Die → Die) : (y.modDie d f).remap = y.remap := rfl
@[simp] theorem Sys.modDie_inbox (y : Sys) (d : Nat) (f : Die → Die) : (y.modDie d f).inbox = y.inbox := rfl
@[simp] theorem Sys.modDie_tombstones (y : Sys) (d : Nat) (f : Die → Die) : (y.modDie d f).tombstones = y.tombstones := rfl
@[simp] theorem Sys.modDie_cores (y : Sys) (d : Nat) (f : Die → Die) : (y.modDie d f).cores = y.cores := rfl
@[simp] theorem Sys.modDie_groups (y : Sys) (d : Nat) (f : Die → Die) : (y.modDie d f).groups = y.groups := rfl
@[simp] theorem Sys.modDie_blocks (y : Sys) (d : Nat) (f : Die → Die) : (y.modDie d f).blocks = y.blocks := rfl
@[simp] theorem Sys.modDie_launches (y : Sys) (d : Nat) (f : Die → Die) : (y.modDie d f).launches = y.launches := rfl
@[simp] theorem Sys.modDie_storeWaits (y : Sys) (d : Nat) (f : Die → Die) : (y.modDie d f).storeWaits = y.storeWaits := rfl
@[simp] theorem Sys.modDie_accesses (y : Sys) (d : Nat) (f : Die → Die) : (y.modDie d f).accesses = y.accesses := rfl
@[simp] theorem Sys.modDie_cmds (y : Sys) (d : Nat) (f : Die → Die) : (y.modDie d f).cmds = y.cmds := rfl
@[simp] theorem Sys.modDie_hostCmds (y : Sys) (d : Nat) (f : Die → Die) : (y.modDie d f).hostCmds = y.hostCmds := rfl
@[simp] theorem Sys.modDie_contribs (y : Sys) (d : Nat) (f : Die → Die) : (y.modDie d f).contribs = y.contribs := rfl
@[simp] theorem Sys.modDie_tiles (y : Sys) (d : Nat) (f : Die → Die) : (y.modDie d f).tiles = y.tiles := rfl
@[simp] theorem Sys.modDie_tileOwner (y : Sys) (d : Nat) (f : Die → Die) : (y.modDie d f).tileOwner = y.tileOwner := rfl
@[simp] theorem Sys.modDie_mloops (y : Sys) (d : Nat) (f : Die → Die) : (y.modDie d f).mloops = y.mloops := rfl
@[simp] theorem Sys.modDie_tileOps (y : Sys) (d : Nat) (f : Die → Die) : (y.modDie d f).tileOps = y.tileOps := rfl

@[simp] theorem Sys.modPort_cur (y : Sys) (n : Nat) (f : Port → Port) : (y.modPort n f).cur = y.cur := rfl
@[simp] theorem Sys.modPort_insn (y : Sys) (n : Nat) (f : Port → Port) : (y.modPort n f).insn = y.insn := rfl
@[simp] theorem Sys.modPort_ev (y : Sys) (n : Nat) (f : Port → Port) : (y.modPort n f).ev = y.ev := rfl
@[simp] theorem Sys.modPort_free (y : Sys) (n : Nat) (f : Port → Port) : (y.modPort n f).free = y.free := rfl
@[simp] theorem Sys.modPort_nextId (y : Sys) (n : Nat) (f : Port → Port) : (y.modPort n f).nextId = y.nextId := rfl
@[simp] theorem Sys.modPort_phys (y : Sys) (n : Nat) (f : Port → Port) : (y.modPort n f).phys = y.phys := rfl
@[simp] theorem Sys.modPort_dies (y : Sys) (n : Nat) (f : Port → Port) : (y.modPort n f).dies = y.dies := rfl
@[simp] theorem Sys.modPort_parts (y : Sys) (n : Nat) (f : Port → Port) : (y.modPort n f).parts = y.parts := rfl
@[simp] theorem Sys.modPort_vfs (y : Sys) (n : Nat) (f : Port → Port) : (y.modPort n f).vfs = y.vfs := rfl
@[simp] theorem Sys.modPort_keys (y : Sys) (n : Nat) (f : Port → Port) : (y.modPort n f).keys = y.keys := rfl
@[simp] theorem Sys.modPort_frames (y : Sys) (n : Nat) (f : Port → Port) : (y.modPort n f).frames = y.frames := rfl
@[simp] theorem Sys.modPort_eccBad (y : Sys) (n : Nat) (f : Port → Port) : (y.modPort n f).eccBad = y.eccBad := rfl
@[simp] theorem Sys.modPort_remap (y : Sys) (n : Nat) (f : Port → Port) : (y.modPort n f).remap = y.remap := rfl
@[simp] theorem Sys.modPort_inbox (y : Sys) (n : Nat) (f : Port → Port) : (y.modPort n f).inbox = y.inbox := rfl
@[simp] theorem Sys.modPort_tombstones (y : Sys) (n : Nat) (f : Port → Port) : (y.modPort n f).tombstones = y.tombstones := rfl
@[simp] theorem Sys.modPort_cores (y : Sys) (n : Nat) (f : Port → Port) : (y.modPort n f).cores = y.cores := rfl
@[simp] theorem Sys.modPort_groups (y : Sys) (n : Nat) (f : Port → Port) : (y.modPort n f).groups = y.groups := rfl
@[simp] theorem Sys.modPort_blocks (y : Sys) (n : Nat) (f : Port → Port) : (y.modPort n f).blocks = y.blocks := rfl
@[simp] theorem Sys.modPort_launches (y : Sys) (n : Nat) (f : Port → Port) : (y.modPort n f).launches = y.launches := rfl
@[simp] theorem Sys.modPort_storeWaits (y : Sys) (n : Nat) (f : Port → Port) : (y.modPort n f).storeWaits = y.storeWaits := rfl
@[simp] theorem Sys.modPort_accesses (y : Sys) (n : Nat) (f : Port → Port) : (y.modPort n f).accesses = y.accesses := rfl
@[simp] theorem Sys.modPort_cmds (y : Sys) (n : Nat) (f : Port → Port) : (y.modPort n f).cmds = y.cmds := rfl
@[simp] theorem Sys.modPort_hostCmds (y : Sys) (n : Nat) (f : Port → Port) : (y.modPort n f).hostCmds = y.hostCmds := rfl
@[simp] theorem Sys.modPort_contribs (y : Sys) (n : Nat) (f : Port → Port) : (y.modPort n f).contribs = y.contribs := rfl
@[simp] theorem Sys.modPort_tiles (y : Sys) (n : Nat) (f : Port → Port) : (y.modPort n f).tiles = y.tiles := rfl
@[simp] theorem Sys.modPort_tileOwner (y : Sys) (n : Nat) (f : Port → Port) : (y.modPort n f).tileOwner = y.tileOwner := rfl
@[simp] theorem Sys.modPort_mloops (y : Sys) (n : Nat) (f : Port → Port) : (y.modPort n f).mloops = y.mloops := rfl
@[simp] theorem Sys.modPort_tileOps (y : Sys) (n : Nat) (f : Port → Port) : (y.modPort n f).tileOps = y.tileOps := rfl

@[simp] theorem Sys.modGroup_cur (y : Sys) (h : Nat) (f : Group → Group) : (y.modGroup h f).cur = y.cur := rfl
@[simp] theorem Sys.modGroup_insn (y : Sys) (h : Nat) (f : Group → Group) : (y.modGroup h f).insn = y.insn := rfl
@[simp] theorem Sys.modGroup_ev (y : Sys) (h : Nat) (f : Group → Group) : (y.modGroup h f).ev = y.ev := rfl
@[simp] theorem Sys.modGroup_free (y : Sys) (h : Nat) (f : Group → Group) : (y.modGroup h f).free = y.free := rfl
@[simp] theorem Sys.modGroup_nextId (y : Sys) (h : Nat) (f : Group → Group) : (y.modGroup h f).nextId = y.nextId := rfl
@[simp] theorem Sys.modGroup_phys (y : Sys) (h : Nat) (f : Group → Group) : (y.modGroup h f).phys = y.phys := rfl
@[simp] theorem Sys.modGroup_dies (y : Sys) (h : Nat) (f : Group → Group) : (y.modGroup h f).dies = y.dies := rfl
@[simp] theorem Sys.modGroup_parts (y : Sys) (h : Nat) (f : Group → Group) : (y.modGroup h f).parts = y.parts := rfl
@[simp] theorem Sys.modGroup_vfs (y : Sys) (h : Nat) (f : Group → Group) : (y.modGroup h f).vfs = y.vfs := rfl
@[simp] theorem Sys.modGroup_keys (y : Sys) (h : Nat) (f : Group → Group) : (y.modGroup h f).keys = y.keys := rfl
@[simp] theorem Sys.modGroup_frames (y : Sys) (h : Nat) (f : Group → Group) : (y.modGroup h f).frames = y.frames := rfl
@[simp] theorem Sys.modGroup_eccBad (y : Sys) (h : Nat) (f : Group → Group) : (y.modGroup h f).eccBad = y.eccBad := rfl
@[simp] theorem Sys.modGroup_ports (y : Sys) (h : Nat) (f : Group → Group) : (y.modGroup h f).ports = y.ports := rfl
@[simp] theorem Sys.modGroup_remap (y : Sys) (h : Nat) (f : Group → Group) : (y.modGroup h f).remap = y.remap := rfl
@[simp] theorem Sys.modGroup_inbox (y : Sys) (h : Nat) (f : Group → Group) : (y.modGroup h f).inbox = y.inbox := rfl
@[simp] theorem Sys.modGroup_tombstones (y : Sys) (h : Nat) (f : Group → Group) : (y.modGroup h f).tombstones = y.tombstones := rfl
@[simp] theorem Sys.modGroup_cores (y : Sys) (h : Nat) (f : Group → Group) : (y.modGroup h f).cores = y.cores := rfl
@[simp] theorem Sys.modGroup_blocks (y : Sys) (h : Nat) (f : Group → Group) : (y.modGroup h f).blocks = y.blocks := rfl
@[simp] theorem Sys.modGroup_launches (y : Sys) (h : Nat) (f : Group → Group) : (y.modGroup h f).launches = y.launches := rfl
@[simp] theorem Sys.modGroup_storeWaits (y : Sys) (h : Nat) (f : Group → Group) : (y.modGroup h f).storeWaits = y.storeWaits := rfl
@[simp] theorem Sys.modGroup_accesses (y : Sys) (h : Nat) (f : Group → Group) : (y.modGroup h f).accesses = y.accesses := rfl
@[simp] theorem Sys.modGroup_cmds (y : Sys) (h : Nat) (f : Group → Group) : (y.modGroup h f).cmds = y.cmds := rfl
@[simp] theorem Sys.modGroup_hostCmds (y : Sys) (h : Nat) (f : Group → Group) : (y.modGroup h f).hostCmds = y.hostCmds := rfl
@[simp] theorem Sys.modGroup_contribs (y : Sys) (h : Nat) (f : Group → Group) : (y.modGroup h f).contribs = y.contribs := rfl
@[simp] theorem Sys.modGroup_tiles (y : Sys) (h : Nat) (f : Group → Group) : (y.modGroup h f).tiles = y.tiles := rfl
@[simp] theorem Sys.modGroup_tileOwner (y : Sys) (h : Nat) (f : Group → Group) : (y.modGroup h f).tileOwner = y.tileOwner := rfl
@[simp] theorem Sys.modGroup_mloops (y : Sys) (h : Nat) (f : Group → Group) : (y.modGroup h f).mloops = y.mloops := rfl
@[simp] theorem Sys.modGroup_tileOps (y : Sys) (h : Nat) (f : Group → Group) : (y.modGroup h f).tileOps = y.tileOps := rfl

@[simp] theorem Sys.modLaunch_cur (y : Sys) (u : Nat) (f : Launch → Launch) : (y.modLaunch u f).cur = y.cur := rfl
@[simp] theorem Sys.modLaunch_insn (y : Sys) (u : Nat) (f : Launch → Launch) : (y.modLaunch u f).insn = y.insn := rfl
@[simp] theorem Sys.modLaunch_ev (y : Sys) (u : Nat) (f : Launch → Launch) : (y.modLaunch u f).ev = y.ev := rfl
@[simp] theorem Sys.modLaunch_free (y : Sys) (u : Nat) (f : Launch → Launch) : (y.modLaunch u f).free = y.free := rfl
@[simp] theorem Sys.modLaunch_nextId (y : Sys) (u : Nat) (f : Launch → Launch) : (y.modLaunch u f).nextId = y.nextId := rfl
@[simp] theorem Sys.modLaunch_phys (y : Sys) (u : Nat) (f : Launch → Launch) : (y.modLaunch u f).phys = y.phys := rfl
@[simp] theorem Sys.modLaunch_dies (y : Sys) (u : Nat) (f : Launch → Launch) : (y.modLaunch u f).dies = y.dies := rfl
@[simp] theorem Sys.modLaunch_parts (y : Sys) (u : Nat) (f : Launch → Launch) : (y.modLaunch u f).parts = y.parts := rfl
@[simp] theorem Sys.modLaunch_vfs (y : Sys) (u : Nat) (f : Launch → Launch) : (y.modLaunch u f).vfs = y.vfs := rfl
@[simp] theorem Sys.modLaunch_keys (y : Sys) (u : Nat) (f : Launch → Launch) : (y.modLaunch u f).keys = y.keys := rfl
@[simp] theorem Sys.modLaunch_frames (y : Sys) (u : Nat) (f : Launch → Launch) : (y.modLaunch u f).frames = y.frames := rfl
@[simp] theorem Sys.modLaunch_eccBad (y : Sys) (u : Nat) (f : Launch → Launch) : (y.modLaunch u f).eccBad = y.eccBad := rfl
@[simp] theorem Sys.modLaunch_ports (y : Sys) (u : Nat) (f : Launch → Launch) : (y.modLaunch u f).ports = y.ports := rfl
@[simp] theorem Sys.modLaunch_remap (y : Sys) (u : Nat) (f : Launch → Launch) : (y.modLaunch u f).remap = y.remap := rfl
@[simp] theorem Sys.modLaunch_inbox (y : Sys) (u : Nat) (f : Launch → Launch) : (y.modLaunch u f).inbox = y.inbox := rfl
@[simp] theorem Sys.modLaunch_tombstones (y : Sys) (u : Nat) (f : Launch → Launch) : (y.modLaunch u f).tombstones = y.tombstones := rfl
@[simp] theorem Sys.modLaunch_cores (y : Sys) (u : Nat) (f : Launch → Launch) : (y.modLaunch u f).cores = y.cores := rfl
@[simp] theorem Sys.modLaunch_groups (y : Sys) (u : Nat) (f : Launch → Launch) : (y.modLaunch u f).groups = y.groups := rfl
@[simp] theorem Sys.modLaunch_blocks (y : Sys) (u : Nat) (f : Launch → Launch) : (y.modLaunch u f).blocks = y.blocks := rfl
@[simp] theorem Sys.modLaunch_storeWaits (y : Sys) (u : Nat) (f : Launch → Launch) : (y.modLaunch u f).storeWaits = y.storeWaits := rfl
@[simp] theorem Sys.modLaunch_accesses (y : Sys) (u : Nat) (f : Launch → Launch) : (y.modLaunch u f).accesses = y.accesses := rfl
@[simp] theorem Sys.modLaunch_cmds (y : Sys) (u : Nat) (f : Launch → Launch) : (y.modLaunch u f).cmds = y.cmds := rfl
@[simp] theorem Sys.modLaunch_hostCmds (y : Sys) (u : Nat) (f : Launch → Launch) : (y.modLaunch u f).hostCmds = y.hostCmds := rfl
@[simp] theorem Sys.modLaunch_contribs (y : Sys) (u : Nat) (f : Launch → Launch) : (y.modLaunch u f).contribs = y.contribs := rfl
@[simp] theorem Sys.modLaunch_tiles (y : Sys) (u : Nat) (f : Launch → Launch) : (y.modLaunch u f).tiles = y.tiles := rfl
@[simp] theorem Sys.modLaunch_tileOwner (y : Sys) (u : Nat) (f : Launch → Launch) : (y.modLaunch u f).tileOwner = y.tileOwner := rfl
@[simp] theorem Sys.modLaunch_mloops (y : Sys) (u : Nat) (f : Launch → Launch) : (y.modLaunch u f).mloops = y.mloops := rfl
@[simp] theorem Sys.modLaunch_tileOps (y : Sys) (u : Nat) (f : Launch → Launch) : (y.modLaunch u f).tileOps = y.tileOps := rfl

@[simp] theorem Sys.modBlock_cur (y : Sys) (u : Nat) (f : Block → Block) : (y.modBlock u f).cur = y.cur := rfl
@[simp] theorem Sys.modBlock_insn (y : Sys) (u : Nat) (f : Block → Block) : (y.modBlock u f).insn = y.insn := rfl
@[simp] theorem Sys.modBlock_ev (y : Sys) (u : Nat) (f : Block → Block) : (y.modBlock u f).ev = y.ev := rfl
@[simp] theorem Sys.modBlock_free (y : Sys) (u : Nat) (f : Block → Block) : (y.modBlock u f).free = y.free := rfl
@[simp] theorem Sys.modBlock_nextId (y : Sys) (u : Nat) (f : Block → Block) : (y.modBlock u f).nextId = y.nextId := rfl
@[simp] theorem Sys.modBlock_phys (y : Sys) (u : Nat) (f : Block → Block) : (y.modBlock u f).phys = y.phys := rfl
@[simp] theorem Sys.modBlock_dies (y : Sys) (u : Nat) (f : Block → Block) : (y.modBlock u f).dies = y.dies := rfl
@[simp] theorem Sys.modBlock_parts (y : Sys) (u : Nat) (f : Block → Block) : (y.modBlock u f).parts = y.parts := rfl
@[simp] theorem Sys.modBlock_vfs (y : Sys) (u : Nat) (f : Block → Block) : (y.modBlock u f).vfs = y.vfs := rfl
@[simp] theorem Sys.modBlock_keys (y : Sys) (u : Nat) (f : Block → Block) : (y.modBlock u f).keys = y.keys := rfl
@[simp] theorem Sys.modBlock_frames (y : Sys) (u : Nat) (f : Block → Block) : (y.modBlock u f).frames = y.frames := rfl
@[simp] theorem Sys.modBlock_eccBad (y : Sys) (u : Nat) (f : Block → Block) : (y.modBlock u f).eccBad = y.eccBad := rfl
@[simp] theorem Sys.modBlock_ports (y : Sys) (u : Nat) (f : Block → Block) : (y.modBlock u f).ports = y.ports := rfl
@[simp] theorem Sys.modBlock_remap (y : Sys) (u : Nat) (f : Block → Block) : (y.modBlock u f).remap = y.remap := rfl
@[simp] theorem Sys.modBlock_inbox (y : Sys) (u : Nat) (f : Block → Block) : (y.modBlock u f).inbox = y.inbox := rfl
@[simp] theorem Sys.modBlock_tombstones (y : Sys) (u : Nat) (f : Block → Block) : (y.modBlock u f).tombstones = y.tombstones := rfl
@[simp] theorem Sys.modBlock_cores (y : Sys) (u : Nat) (f : Block → Block) : (y.modBlock u f).cores = y.cores := rfl
@[simp] theorem Sys.modBlock_groups (y : Sys) (u : Nat) (f : Block → Block) : (y.modBlock u f).groups = y.groups := rfl
@[simp] theorem Sys.modBlock_launches (y : Sys) (u : Nat) (f : Block → Block) : (y.modBlock u f).launches = y.launches := rfl
@[simp] theorem Sys.modBlock_storeWaits (y : Sys) (u : Nat) (f : Block → Block) : (y.modBlock u f).storeWaits = y.storeWaits := rfl
@[simp] theorem Sys.modBlock_accesses (y : Sys) (u : Nat) (f : Block → Block) : (y.modBlock u f).accesses = y.accesses := rfl
@[simp] theorem Sys.modBlock_cmds (y : Sys) (u : Nat) (f : Block → Block) : (y.modBlock u f).cmds = y.cmds := rfl
@[simp] theorem Sys.modBlock_hostCmds (y : Sys) (u : Nat) (f : Block → Block) : (y.modBlock u f).hostCmds = y.hostCmds := rfl
@[simp] theorem Sys.modBlock_contribs (y : Sys) (u : Nat) (f : Block → Block) : (y.modBlock u f).contribs = y.contribs := rfl
@[simp] theorem Sys.modBlock_tiles (y : Sys) (u : Nat) (f : Block → Block) : (y.modBlock u f).tiles = y.tiles := rfl
@[simp] theorem Sys.modBlock_tileOwner (y : Sys) (u : Nat) (f : Block → Block) : (y.modBlock u f).tileOwner = y.tileOwner := rfl
@[simp] theorem Sys.modBlock_mloops (y : Sys) (u : Nat) (f : Block → Block) : (y.modBlock u f).mloops = y.mloops := rfl
@[simp] theorem Sys.modBlock_tileOps (y : Sys) (u : Nat) (f : Block → Block) : (y.modBlock u f).tileOps = y.tileOps := rfl

@[simp] theorem Sys.modCmd_cur (y : Sys) (h : Nat) (f : Cmd → Cmd) : (y.modCmd h f).cur = y.cur := rfl
@[simp] theorem Sys.modCmd_insn (y : Sys) (h : Nat) (f : Cmd → Cmd) : (y.modCmd h f).insn = y.insn := rfl
@[simp] theorem Sys.modCmd_ev (y : Sys) (h : Nat) (f : Cmd → Cmd) : (y.modCmd h f).ev = y.ev := rfl
@[simp] theorem Sys.modCmd_free (y : Sys) (h : Nat) (f : Cmd → Cmd) : (y.modCmd h f).free = y.free := rfl
@[simp] theorem Sys.modCmd_nextId (y : Sys) (h : Nat) (f : Cmd → Cmd) : (y.modCmd h f).nextId = y.nextId := rfl
@[simp] theorem Sys.modCmd_phys (y : Sys) (h : Nat) (f : Cmd → Cmd) : (y.modCmd h f).phys = y.phys := rfl
@[simp] theorem Sys.modCmd_dies (y : Sys) (h : Nat) (f : Cmd → Cmd) : (y.modCmd h f).dies = y.dies := rfl
@[simp] theorem Sys.modCmd_parts (y : Sys) (h : Nat) (f : Cmd → Cmd) : (y.modCmd h f).parts = y.parts := rfl
@[simp] theorem Sys.modCmd_vfs (y : Sys) (h : Nat) (f : Cmd → Cmd) : (y.modCmd h f).vfs = y.vfs := rfl
@[simp] theorem Sys.modCmd_keys (y : Sys) (h : Nat) (f : Cmd → Cmd) : (y.modCmd h f).keys = y.keys := rfl
@[simp] theorem Sys.modCmd_frames (y : Sys) (h : Nat) (f : Cmd → Cmd) : (y.modCmd h f).frames = y.frames := rfl
@[simp] theorem Sys.modCmd_eccBad (y : Sys) (h : Nat) (f : Cmd → Cmd) : (y.modCmd h f).eccBad = y.eccBad := rfl
@[simp] theorem Sys.modCmd_ports (y : Sys) (h : Nat) (f : Cmd → Cmd) : (y.modCmd h f).ports = y.ports := rfl
@[simp] theorem Sys.modCmd_remap (y : Sys) (h : Nat) (f : Cmd → Cmd) : (y.modCmd h f).remap = y.remap := rfl
@[simp] theorem Sys.modCmd_inbox (y : Sys) (h : Nat) (f : Cmd → Cmd) : (y.modCmd h f).inbox = y.inbox := rfl
@[simp] theorem Sys.modCmd_tombstones (y : Sys) (h : Nat) (f : Cmd → Cmd) : (y.modCmd h f).tombstones = y.tombstones := rfl
@[simp] theorem Sys.modCmd_cores (y : Sys) (h : Nat) (f : Cmd → Cmd) : (y.modCmd h f).cores = y.cores := rfl
@[simp] theorem Sys.modCmd_groups (y : Sys) (h : Nat) (f : Cmd → Cmd) : (y.modCmd h f).groups = y.groups := rfl
@[simp] theorem Sys.modCmd_blocks (y : Sys) (h : Nat) (f : Cmd → Cmd) : (y.modCmd h f).blocks = y.blocks := rfl
@[simp] theorem Sys.modCmd_launches (y : Sys) (h : Nat) (f : Cmd → Cmd) : (y.modCmd h f).launches = y.launches := rfl
@[simp] theorem Sys.modCmd_storeWaits (y : Sys) (h : Nat) (f : Cmd → Cmd) : (y.modCmd h f).storeWaits = y.storeWaits := rfl
@[simp] theorem Sys.modCmd_accesses (y : Sys) (h : Nat) (f : Cmd → Cmd) : (y.modCmd h f).accesses = y.accesses := rfl
@[simp] theorem Sys.modCmd_hostCmds (y : Sys) (h : Nat) (f : Cmd → Cmd) : (y.modCmd h f).hostCmds = y.hostCmds := rfl
@[simp] theorem Sys.modCmd_contribs (y : Sys) (h : Nat) (f : Cmd → Cmd) : (y.modCmd h f).contribs = y.contribs := rfl
@[simp] theorem Sys.modCmd_tiles (y : Sys) (h : Nat) (f : Cmd → Cmd) : (y.modCmd h f).tiles = y.tiles := rfl
@[simp] theorem Sys.modCmd_tileOwner (y : Sys) (h : Nat) (f : Cmd → Cmd) : (y.modCmd h f).tileOwner = y.tileOwner := rfl
@[simp] theorem Sys.modCmd_mloops (y : Sys) (h : Nat) (f : Cmd → Cmd) : (y.modCmd h f).mloops = y.mloops := rfl
@[simp] theorem Sys.modCmd_tileOps (y : Sys) (h : Nat) (f : Cmd → Cmd) : (y.modCmd h f).tileOps = y.tileOps := rfl

@[simp] theorem Sys.modAccess_cur (y : Sys) (i : Nat) (f : Access → Access) : (y.modAccess i f).cur = y.cur := rfl
@[simp] theorem Sys.modAccess_insn (y : Sys) (i : Nat) (f : Access → Access) : (y.modAccess i f).insn = y.insn := rfl
@[simp] theorem Sys.modAccess_ev (y : Sys) (i : Nat) (f : Access → Access) : (y.modAccess i f).ev = y.ev := rfl
@[simp] theorem Sys.modAccess_free (y : Sys) (i : Nat) (f : Access → Access) : (y.modAccess i f).free = y.free := rfl
@[simp] theorem Sys.modAccess_nextId (y : Sys) (i : Nat) (f : Access → Access) : (y.modAccess i f).nextId = y.nextId := rfl
@[simp] theorem Sys.modAccess_phys (y : Sys) (i : Nat) (f : Access → Access) : (y.modAccess i f).phys = y.phys := rfl
@[simp] theorem Sys.modAccess_dies (y : Sys) (i : Nat) (f : Access → Access) : (y.modAccess i f).dies = y.dies := rfl
@[simp] theorem Sys.modAccess_parts (y : Sys) (i : Nat) (f : Access → Access) : (y.modAccess i f).parts = y.parts := rfl
@[simp] theorem Sys.modAccess_vfs (y : Sys) (i : Nat) (f : Access → Access) : (y.modAccess i f).vfs = y.vfs := rfl
@[simp] theorem Sys.modAccess_keys (y : Sys) (i : Nat) (f : Access → Access) : (y.modAccess i f).keys = y.keys := rfl
@[simp] theorem Sys.modAccess_frames (y : Sys) (i : Nat) (f : Access → Access) : (y.modAccess i f).frames = y.frames := rfl
@[simp] theorem Sys.modAccess_eccBad (y : Sys) (i : Nat) (f : Access → Access) : (y.modAccess i f).eccBad = y.eccBad := rfl
@[simp] theorem Sys.modAccess_ports (y : Sys) (i : Nat) (f : Access → Access) : (y.modAccess i f).ports = y.ports := rfl
@[simp] theorem Sys.modAccess_remap (y : Sys) (i : Nat) (f : Access → Access) : (y.modAccess i f).remap = y.remap := rfl
@[simp] theorem Sys.modAccess_inbox (y : Sys) (i : Nat) (f : Access → Access) : (y.modAccess i f).inbox = y.inbox := rfl
@[simp] theorem Sys.modAccess_tombstones (y : Sys) (i : Nat) (f : Access → Access) : (y.modAccess i f).tombstones = y.tombstones := rfl
@[simp] theorem Sys.modAccess_cores (y : Sys) (i : Nat) (f : Access → Access) : (y.modAccess i f).cores = y.cores := rfl
@[simp] theorem Sys.modAccess_groups (y : Sys) (i : Nat) (f : Access → Access) : (y.modAccess i f).groups = y.groups := rfl
@[simp] theorem Sys.modAccess_blocks (y : Sys) (i : Nat) (f : Access → Access) : (y.modAccess i f).blocks = y.blocks := rfl
@[simp] theorem Sys.modAccess_launches (y : Sys) (i : Nat) (f : Access → Access) : (y.modAccess i f).launches = y.launches := rfl
@[simp] theorem Sys.modAccess_storeWaits (y : Sys) (i : Nat) (f : Access → Access) : (y.modAccess i f).storeWaits = y.storeWaits := rfl
@[simp] theorem Sys.modAccess_cmds (y : Sys) (i : Nat) (f : Access → Access) : (y.modAccess i f).cmds = y.cmds := rfl
@[simp] theorem Sys.modAccess_hostCmds (y : Sys) (i : Nat) (f : Access → Access) : (y.modAccess i f).hostCmds = y.hostCmds := rfl
@[simp] theorem Sys.modAccess_contribs (y : Sys) (i : Nat) (f : Access → Access) : (y.modAccess i f).contribs = y.contribs := rfl
@[simp] theorem Sys.modAccess_tiles (y : Sys) (i : Nat) (f : Access → Access) : (y.modAccess i f).tiles = y.tiles := rfl
@[simp] theorem Sys.modAccess_tileOwner (y : Sys) (i : Nat) (f : Access → Access) : (y.modAccess i f).tileOwner = y.tileOwner := rfl
@[simp] theorem Sys.modAccess_mloops (y : Sys) (i : Nat) (f : Access → Access) : (y.modAccess i f).mloops = y.mloops := rfl
@[simp] theorem Sys.modAccess_tileOps (y : Sys) (i : Nat) (f : Access → Access) : (y.modAccess i f).tileOps = y.tileOps := rfl

@[simp] theorem Sys.modHostCmd_cur (y : Sys) (u : Nat) (f : HostCmd → HostCmd) : (y.modHostCmd u f).cur = y.cur := rfl
@[simp] theorem Sys.modHostCmd_insn (y : Sys) (u : Nat) (f : HostCmd → HostCmd) : (y.modHostCmd u f).insn = y.insn := rfl
@[simp] theorem Sys.modHostCmd_ev (y : Sys) (u : Nat) (f : HostCmd → HostCmd) : (y.modHostCmd u f).ev = y.ev := rfl
@[simp] theorem Sys.modHostCmd_free (y : Sys) (u : Nat) (f : HostCmd → HostCmd) : (y.modHostCmd u f).free = y.free := rfl
@[simp] theorem Sys.modHostCmd_nextId (y : Sys) (u : Nat) (f : HostCmd → HostCmd) : (y.modHostCmd u f).nextId = y.nextId := rfl
@[simp] theorem Sys.modHostCmd_phys (y : Sys) (u : Nat) (f : HostCmd → HostCmd) : (y.modHostCmd u f).phys = y.phys := rfl
@[simp] theorem Sys.modHostCmd_dies (y : Sys) (u : Nat) (f : HostCmd → HostCmd) : (y.modHostCmd u f).dies = y.dies := rfl
@[simp] theorem Sys.modHostCmd_parts (y : Sys) (u : Nat) (f : HostCmd → HostCmd) : (y.modHostCmd u f).parts = y.parts := rfl
@[simp] theorem Sys.modHostCmd_vfs (y : Sys) (u : Nat) (f : HostCmd → HostCmd) : (y.modHostCmd u f).vfs = y.vfs := rfl
@[simp] theorem Sys.modHostCmd_keys (y : Sys) (u : Nat) (f : HostCmd → HostCmd) : (y.modHostCmd u f).keys = y.keys := rfl
@[simp] theorem Sys.modHostCmd_frames (y : Sys) (u : Nat) (f : HostCmd → HostCmd) : (y.modHostCmd u f).frames = y.frames := rfl
@[simp] theorem Sys.modHostCmd_eccBad (y : Sys) (u : Nat) (f : HostCmd → HostCmd) : (y.modHostCmd u f).eccBad = y.eccBad := rfl
@[simp] theorem Sys.modHostCmd_ports (y : Sys) (u : Nat) (f : HostCmd → HostCmd) : (y.modHostCmd u f).ports = y.ports := rfl
@[simp] theorem Sys.modHostCmd_remap (y : Sys) (u : Nat) (f : HostCmd → HostCmd) : (y.modHostCmd u f).remap = y.remap := rfl
@[simp] theorem Sys.modHostCmd_inbox (y : Sys) (u : Nat) (f : HostCmd → HostCmd) : (y.modHostCmd u f).inbox = y.inbox := rfl
@[simp] theorem Sys.modHostCmd_tombstones (y : Sys) (u : Nat) (f : HostCmd → HostCmd) : (y.modHostCmd u f).tombstones = y.tombstones := rfl
@[simp] theorem Sys.modHostCmd_cores (y : Sys) (u : Nat) (f : HostCmd → HostCmd) : (y.modHostCmd u f).cores = y.cores := rfl
@[simp] theorem Sys.modHostCmd_groups (y : Sys) (u : Nat) (f : HostCmd → HostCmd) : (y.modHostCmd u f).groups = y.groups := rfl
@[simp] theorem Sys.modHostCmd_blocks (y : Sys) (u : Nat) (f : HostCmd → HostCmd) : (y.modHostCmd u f).blocks = y.blocks := rfl
@[simp] theorem Sys.modHostCmd_launches (y : Sys) (u : Nat) (f : HostCmd → HostCmd) : (y.modHostCmd u f).launches = y.launches := rfl
@[simp] theorem Sys.modHostCmd_storeWaits (y : Sys) (u : Nat) (f : HostCmd → HostCmd) : (y.modHostCmd u f).storeWaits = y.storeWaits := rfl
@[simp] theorem Sys.modHostCmd_accesses (y : Sys) (u : Nat) (f : HostCmd → HostCmd) : (y.modHostCmd u f).accesses = y.accesses := rfl
@[simp] theorem Sys.modHostCmd_cmds (y : Sys) (u : Nat) (f : HostCmd → HostCmd) : (y.modHostCmd u f).cmds = y.cmds := rfl
@[simp] theorem Sys.modHostCmd_contribs (y : Sys) (u : Nat) (f : HostCmd → HostCmd) : (y.modHostCmd u f).contribs = y.contribs := rfl
@[simp] theorem Sys.modHostCmd_tiles (y : Sys) (u : Nat) (f : HostCmd → HostCmd) : (y.modHostCmd u f).tiles = y.tiles := rfl
@[simp] theorem Sys.modHostCmd_tileOwner (y : Sys) (u : Nat) (f : HostCmd → HostCmd) : (y.modHostCmd u f).tileOwner = y.tileOwner := rfl
@[simp] theorem Sys.modHostCmd_mloops (y : Sys) (u : Nat) (f : HostCmd → HostCmd) : (y.modHostCmd u f).mloops = y.mloops := rfl
@[simp] theorem Sys.modHostCmd_tileOps (y : Sys) (u : Nat) (f : HostCmd → HostCmd) : (y.modHostCmd u f).tileOps = y.tileOps := rfl

@[simp] theorem Sys.settle_cur (y : Sys) (h : Nat) : (y.settle h).cur = y.cur := rfl
@[simp] theorem Sys.settle_insn (y : Sys) (h : Nat) : (y.settle h).insn = y.insn := rfl
@[simp] theorem Sys.settle_ev (y : Sys) (h : Nat) : (y.settle h).ev = y.ev := rfl
@[simp] theorem Sys.settle_free (y : Sys) (h : Nat) : (y.settle h).free = y.free := rfl
@[simp] theorem Sys.settle_nextId (y : Sys) (h : Nat) : (y.settle h).nextId = y.nextId := rfl
@[simp] theorem Sys.settle_phys (y : Sys) (h : Nat) : (y.settle h).phys = y.phys := rfl
@[simp] theorem Sys.settle_dies (y : Sys) (h : Nat) : (y.settle h).dies = y.dies := rfl
@[simp] theorem Sys.settle_parts (y : Sys) (h : Nat) : (y.settle h).parts = y.parts := rfl
@[simp] theorem Sys.settle_vfs (y : Sys) (h : Nat) : (y.settle h).vfs = y.vfs := rfl
@[simp] theorem Sys.settle_keys (y : Sys) (h : Nat) : (y.settle h).keys = y.keys := rfl
@[simp] theorem Sys.settle_frames (y : Sys) (h : Nat) : (y.settle h).frames = y.frames := rfl
@[simp] theorem Sys.settle_eccBad (y : Sys) (h : Nat) : (y.settle h).eccBad = y.eccBad := rfl
@[simp] theorem Sys.settle_ports (y : Sys) (h : Nat) : (y.settle h).ports = y.ports := rfl
@[simp] theorem Sys.settle_remap (y : Sys) (h : Nat) : (y.settle h).remap = y.remap := rfl
@[simp] theorem Sys.settle_inbox (y : Sys) (h : Nat) : (y.settle h).inbox = y.inbox := rfl
@[simp] theorem Sys.settle_tombstones (y : Sys) (h : Nat) : (y.settle h).tombstones = y.tombstones := rfl
@[simp] theorem Sys.settle_cores (y : Sys) (h : Nat) : (y.settle h).cores = y.cores := rfl
@[simp] theorem Sys.settle_blocks (y : Sys) (h : Nat) : (y.settle h).blocks = y.blocks := rfl
@[simp] theorem Sys.settle_launches (y : Sys) (h : Nat) : (y.settle h).launches = y.launches := rfl
@[simp] theorem Sys.settle_storeWaits (y : Sys) (h : Nat) : (y.settle h).storeWaits = y.storeWaits := rfl
@[simp] theorem Sys.settle_accesses (y : Sys) (h : Nat) : (y.settle h).accesses = y.accesses := rfl
@[simp] theorem Sys.settle_cmds (y : Sys) (h : Nat) : (y.settle h).cmds = y.cmds := rfl
@[simp] theorem Sys.settle_hostCmds (y : Sys) (h : Nat) : (y.settle h).hostCmds = y.hostCmds := rfl
@[simp] theorem Sys.settle_contribs (y : Sys) (h : Nat) : (y.settle h).contribs = y.contribs := rfl
@[simp] theorem Sys.settle_tiles (y : Sys) (h : Nat) : (y.settle h).tiles = y.tiles := rfl
@[simp] theorem Sys.settle_tileOwner (y : Sys) (h : Nat) : (y.settle h).tileOwner = y.tileOwner := rfl
@[simp] theorem Sys.settle_mloops (y : Sys) (h : Nat) : (y.settle h).mloops = y.mloops := rfl
@[simp] theorem Sys.settle_tileOps (y : Sys) (h : Nat) : (y.settle h).tileOps = y.tileOps := rfl

@[simp] theorem Sys.modCore_core (y : Sys) (c d : Nat) (f : Core → Core) : (y.modCore c f).core d = if d = c then f (y.core c) else y.core d := by
  simp [Sys.modCore, Sys.core]

@[simp] theorem Sys.modPart_part (y : Sys) (c d : Nat) (f : Part → Part) : (y.modPart c f).part d = if d = c then f (y.part c) else y.part d := by
  simp [Sys.modPart, Sys.part]

@[simp] theorem Sys.modVf_vf (y : Sys) (c d : Nat) (f : Vf → Vf) : (y.modVf c f).vf d = if d = c then f (y.vf c) else y.vf d := by
  simp [Sys.modVf, Sys.vf]

@[simp] theorem Sys.modDie_die (y : Sys) (c d : Nat) (f : Die → Die) : (y.modDie c f).die d = if d = c then f (y.die c) else y.die d := by
  simp [Sys.modDie, Sys.die]

@[simp] theorem Sys.modPort_port (y : Sys) (c d : Nat) (f : Port → Port) : (y.modPort c f).port d = if d = c then f (y.port c) else y.port d := by
  simp [Sys.modPort, Sys.port]

@[simp] theorem Sys.modCp_core (y : Sys) (c d : Nat) (f : Cp → Cp) :
    (y.modCp c f).core d = if d = c then { y.core c with cp := f (y.core c).cp } else y.core d := by
  simp [Sys.modCp]

/-- A lookup after an update that keeps the handle. -/
theorem Sys.modGroup_find (y : Sys) (h k : Nat) (f : Group → Group) (hf : ∀ g, (f g).handle = g.handle) :
    (y.modGroup h f).group? k = if k = h then (y.group? k).map f else y.group? k := by
  unfold Sys.modGroup Sys.group?
  exact find_map_if y.groups Group.handle h k f hf

/-- A lookup after an update that keeps the uid. -/
theorem Sys.modLaunch_find (y : Sys) (h k : Nat) (f : Launch → Launch) (hf : ∀ g, (f g).uid = g.uid) :
    (y.modLaunch h f).launch? k = if k = h then (y.launch? k).map f else y.launch? k := by
  unfold Sys.modLaunch Sys.launch?
  exact find_map_if y.launches Launch.uid h k f hf

/-- A lookup after an update that keeps the uid. -/
theorem Sys.modBlock_find (y : Sys) (h k : Nat) (f : Block → Block) (hf : ∀ g, (f g).uid = g.uid) :
    (y.modBlock h f).block? k = if k = h then (y.block? k).map f else y.block? k := by
  unfold Sys.modBlock Sys.block?
  exact find_map_if y.blocks Block.uid h k f hf

/-- A lookup after an update that keeps the handle. -/
theorem Sys.modCmd_find (y : Sys) (h k : Nat) (f : Cmd → Cmd) (hf : ∀ g, (f g).handle = g.handle) :
    (y.modCmd h f).cmd? k = if k = h then (y.cmd? k).map f else y.cmd? k := by
  unfold Sys.modCmd Sys.cmd?
  exact find_map_if y.cmds Cmd.handle h k f hf

/-- A lookup after an update that keeps the id. -/
theorem Sys.modAccess_find (y : Sys) (h k : Nat) (f : Access → Access) (hf : ∀ g, (f g).id = g.id) :
    (y.modAccess h f).access? k = if k = h then (y.access? k).map f else y.access? k := by
  unfold Sys.modAccess Sys.access?
  exact find_map_if y.accesses Access.id h k f hf

/-- A lookup after an update that keeps the uid. -/
theorem Sys.modHostCmd_find (y : Sys) (h k : Nat) (f : HostCmd → HostCmd) (hf : ∀ g, (f g).uid = g.uid) :
    (y.modHostCmd h f).hostCmd? k = if k = h then (y.hostCmd? k).map f else y.hostCmd? k := by
  unfold Sys.modHostCmd Sys.hostCmd?
  exact find_map_if y.hostCmds HostCmd.uid h k f hf

/-! ### The other fields -/

@[simp] theorem Sys.modCore_turns (y : Sys) (c : Nat) (f : Core → Core) : (y.modCore c f).turns = y.turns := rfl
@[simp] theorem Sys.modCore_ns (y : Sys) (c : Nat) (f : Core → Core) : (y.modCore c f).ns = y.ns := rfl
@[simp] theorem Sys.modCore_resetStep (y : Sys) (c : Nat) (f : Core → Core) : (y.modCore c f).resetStep = y.resetStep := rfl
@[simp] theorem Sys.modCore_poweredDown (y : Sys) (c : Nat) (f : Core → Core) : (y.modCore c f).poweredDown = y.poweredDown := rfl
@[simp] theorem Sys.modCore_aligned (y : Sys) (c : Nat) (f : Core → Core) : (y.modCore c f).aligned = y.aligned := rfl
@[simp] theorem Sys.modCore_wide (y : Sys) (c : Nat) (f : Core → Core) : (y.modCore c f).wide = y.wide := rfl
@[simp] theorem Sys.modCore_timeofs (y : Sys) (c : Nat) (f : Core → Core) : (y.modCore c f).timeofs = y.timeofs := rfl
@[simp] theorem Sys.modCore_ticklen (y : Sys) (c : Nat) (f : Core → Core) : (y.modCore c f).ticklen = y.ticklen := rfl
@[simp] theorem Sys.modCore_firstAligned (y : Sys) (c : Nat) (f : Core → Core) : (y.modCore c f).firstAligned = y.firstAligned := rfl
@[simp] theorem Sys.modCore_slew (y : Sys) (c : Nat) (f : Core → Core) : (y.modCore c f).slew = y.slew := rfl
@[simp] theorem Sys.modCore_slewAcc (y : Sys) (c : Nat) (f : Core → Core) : (y.modCore c f).slewAcc = y.slewAcc := rfl
@[simp] theorem Sys.modCore_lastExchange (y : Sys) (c : Nat) (f : Core → Core) : (y.modCore c f).lastExchange = y.lastExchange := rfl
@[simp] theorem Sys.modCore_reference (y : Sys) (c : Nat) (f : Core → Core) : (y.modCore c f).reference = y.reference := rfl
@[simp] theorem Sys.modCore_launched (y : Sys) (c : Nat) (f : Core → Core) : (y.modCore c f).launched = y.launched := rfl
@[simp] theorem Sys.modCore_persistent (y : Sys) (c : Nat) (f : Core → Core) : (y.modCore c f).persistent = y.persistent := rfl
@[simp] theorem Sys.modCore_coolantFault (y : Sys) (c : Nat) (f : Core → Core) : (y.modCore c f).coolantFault = y.coolantFault := rfl
@[simp] theorem Sys.modCore_wear (y : Sys) (c : Nat) (f : Core → Core) : (y.modCore c f).wear = y.wear := rfl
@[simp] theorem Sys.modCore_lds (y : Sys) (c : Nat) (f : Core → Core) : (y.modCore c f).lds = y.lds := rfl
@[simp] theorem Sys.modCore_ideKeys (y : Sys) (c : Nat) (f : Core → Core) : (y.modCore c f).ideKeys = y.ideKeys := rfl
@[simp] theorem Sys.modCore_eccCorrectable (y : Sys) (c : Nat) (f : Core → Core) : (y.modCore c f).eccCorrectable = y.eccCorrectable := rfl
@[simp] theorem Sys.modCore_corrected (y : Sys) (c : Nat) (f : Core → Core) : (y.modCore c f).corrected = y.corrected := rfl
@[simp] theorem Sys.modCore_portLists (y : Sys) (c : Nat) (f : Core → Core) : (y.modCore c f).portLists = y.portLists := rfl
@[simp] theorem Sys.modCore_direct (y : Sys) (c : Nat) (f : Core → Core) : (y.modCore c f).direct = y.direct := rfl
@[simp] theorem Sys.modCore_heldO (y : Sys) (c : Nat) (f : Core → Core) : (y.modCore c f).heldO = y.heldO := rfl
@[simp] theorem Sys.modCore_adopted (y : Sys) (c : Nat) (f : Core → Core) : (y.modCore c f).adopted = y.adopted := rfl
@[simp] theorem Sys.modCore_fw (y : Sys) (c : Nat) (f : Core → Core) : (y.modCore c f).fw = y.fw := rfl
@[simp] theorem Sys.modCore_spdm (y : Sys) (c : Nat) (f : Core → Core) : (y.modCore c f).spdm = y.spdm := rfl
@[simp] theorem Sys.modCore_answers (y : Sys) (c : Nat) (f : Core → Core) : (y.modCore c f).answers = y.answers := rfl
@[simp] theorem Sys.modCore_hostWrites (y : Sys) (c : Nat) (f : Core → Core) : (y.modCore c f).hostWrites = y.hostWrites := rfl
@[simp] theorem Sys.modCore_cxl (y : Sys) (c : Nat) (f : Core → Core) : (y.modCore c f).cxl = y.cxl := rfl
@[simp] theorem Sys.modCore_posted (y : Sys) (c : Nat) (f : Core → Core) : (y.modCore c f).posted = y.posted := rfl
@[simp] theorem Sys.modCore_lastWindow (y : Sys) (c : Nat) (f : Core → Core) : (y.modCore c f).lastWindow = y.lastWindow := rfl
@[simp] theorem Sys.modCore_remapping (y : Sys) (c : Nat) (f : Core → Core) : (y.modCore c f).remapping = y.remapping := rfl
@[simp] theorem Sys.modCore_events (y : Sys) (c : Nat) (f : Core → Core) : (y.modCore c f).events = y.events := rfl
@[simp] theorem Sys.modCore_leases (y : Sys) (c : Nat) (f : Core → Core) : (y.modCore c f).leases = y.leases := rfl
@[simp] theorem Sys.modCore_due (y : Sys) (c : Nat) (f : Core → Core) : (y.modCore c f).due = y.due := rfl
@[simp] theorem Sys.modCore_domains (y : Sys) (c : Nat) (f : Core → Core) : (y.modCore c f).domains = y.domains := rfl
@[simp] theorem Sys.modCore_ticketLines (y : Sys) (c : Nat) (f : Core → Core) : (y.modCore c f).ticketLines = y.ticketLines := rfl
@[simp] theorem Sys.modCore_accBad (y : Sys) (c : Nat) (f : Core → Core) : (y.modCore c f).accBad = y.accBad := rfl
@[simp] theorem Sys.modCore_tlb (y : Sys) (c : Nat) (f : Core → Core) : (y.modCore c f).tlb = y.tlb := rfl
@[simp] theorem Sys.modCore_nested (y : Sys) (c : Nat) (f : Core → Core) : (y.modCore c f).nested = y.nested := rfl
@[simp] theorem Sys.modCore_walkFaults (y : Sys) (c : Nat) (f : Core → Core) : (y.modCore c f).walkFaults = y.walkFaults := rfl
@[simp] theorem Sys.modCore_pins (y : Sys) (c : Nat) (f : Core → Core) : (y.modCore c f).pins = y.pins := rfl
@[simp] theorem Sys.modCore_sunk (y : Sys) (c : Nat) (f : Core → Core) : (y.modCore c f).sunk = y.sunk := rfl

@[simp] theorem Sys.modCp_turns (y : Sys) (c : Nat) (f : Cp → Cp) : (y.modCp c f).turns = y.turns := rfl
@[simp] theorem Sys.modCp_ns (y : Sys) (c : Nat) (f : Cp → Cp) : (y.modCp c f).ns = y.ns := rfl
@[simp] theorem Sys.modCp_resetStep (y : Sys) (c : Nat) (f : Cp → Cp) : (y.modCp c f).resetStep = y.resetStep := rfl
@[simp] theorem Sys.modCp_poweredDown (y : Sys) (c : Nat) (f : Cp → Cp) : (y.modCp c f).poweredDown = y.poweredDown := rfl
@[simp] theorem Sys.modCp_aligned (y : Sys) (c : Nat) (f : Cp → Cp) : (y.modCp c f).aligned = y.aligned := rfl
@[simp] theorem Sys.modCp_wide (y : Sys) (c : Nat) (f : Cp → Cp) : (y.modCp c f).wide = y.wide := rfl
@[simp] theorem Sys.modCp_timeofs (y : Sys) (c : Nat) (f : Cp → Cp) : (y.modCp c f).timeofs = y.timeofs := rfl
@[simp] theorem Sys.modCp_ticklen (y : Sys) (c : Nat) (f : Cp → Cp) : (y.modCp c f).ticklen = y.ticklen := rfl
@[simp] theorem Sys.modCp_firstAligned (y : Sys) (c : Nat) (f : Cp → Cp) : (y.modCp c f).firstAligned = y.firstAligned := rfl
@[simp] theorem Sys.modCp_slew (y : Sys) (c : Nat) (f : Cp → Cp) : (y.modCp c f).slew = y.slew := rfl
@[simp] theorem Sys.modCp_slewAcc (y : Sys) (c : Nat) (f : Cp → Cp) : (y.modCp c f).slewAcc = y.slewAcc := rfl
@[simp] theorem Sys.modCp_lastExchange (y : Sys) (c : Nat) (f : Cp → Cp) : (y.modCp c f).lastExchange = y.lastExchange := rfl
@[simp] theorem Sys.modCp_reference (y : Sys) (c : Nat) (f : Cp → Cp) : (y.modCp c f).reference = y.reference := rfl
@[simp] theorem Sys.modCp_launched (y : Sys) (c : Nat) (f : Cp → Cp) : (y.modCp c f).launched = y.launched := rfl
@[simp] theorem Sys.modCp_persistent (y : Sys) (c : Nat) (f : Cp → Cp) : (y.modCp c f).persistent = y.persistent := rfl
@[simp] theorem Sys.modCp_coolantFault (y : Sys) (c : Nat) (f : Cp → Cp) : (y.modCp c f).coolantFault = y.coolantFault := rfl
@[simp] theorem Sys.modCp_wear (y : Sys) (c : Nat) (f : Cp → Cp) : (y.modCp c f).wear = y.wear := rfl
@[simp] theorem Sys.modCp_lds (y : Sys) (c : Nat) (f : Cp → Cp) : (y.modCp c f).lds = y.lds := rfl
@[simp] theorem Sys.modCp_ideKeys (y : Sys) (c : Nat) (f : Cp → Cp) : (y.modCp c f).ideKeys = y.ideKeys := rfl
@[simp] theorem Sys.modCp_eccCorrectable (y : Sys) (c : Nat) (f : Cp → Cp) : (y.modCp c f).eccCorrectable = y.eccCorrectable := rfl
@[simp] theorem Sys.modCp_corrected (y : Sys) (c : Nat) (f : Cp → Cp) : (y.modCp c f).corrected = y.corrected := rfl
@[simp] theorem Sys.modCp_portLists (y : Sys) (c : Nat) (f : Cp → Cp) : (y.modCp c f).portLists = y.portLists := rfl
@[simp] theorem Sys.modCp_direct (y : Sys) (c : Nat) (f : Cp → Cp) : (y.modCp c f).direct = y.direct := rfl
@[simp] theorem Sys.modCp_heldO (y : Sys) (c : Nat) (f : Cp → Cp) : (y.modCp c f).heldO = y.heldO := rfl
@[simp] theorem Sys.modCp_adopted (y : Sys) (c : Nat) (f : Cp → Cp) : (y.modCp c f).adopted = y.adopted := rfl
@[simp] theorem Sys.modCp_fw (y : Sys) (c : Nat) (f : Cp → Cp) : (y.modCp c f).fw = y.fw := rfl
@[simp] theorem Sys.modCp_spdm (y : Sys) (c : Nat) (f : Cp → Cp) : (y.modCp c f).spdm = y.spdm := rfl
@[simp] theorem Sys.modCp_answers (y : Sys) (c : Nat) (f : Cp → Cp) : (y.modCp c f).answers = y.answers := rfl
@[simp] theorem Sys.modCp_hostWrites (y : Sys) (c : Nat) (f : Cp → Cp) : (y.modCp c f).hostWrites = y.hostWrites := rfl
@[simp] theorem Sys.modCp_cxl (y : Sys) (c : Nat) (f : Cp → Cp) : (y.modCp c f).cxl = y.cxl := rfl
@[simp] theorem Sys.modCp_posted (y : Sys) (c : Nat) (f : Cp → Cp) : (y.modCp c f).posted = y.posted := rfl
@[simp] theorem Sys.modCp_lastWindow (y : Sys) (c : Nat) (f : Cp → Cp) : (y.modCp c f).lastWindow = y.lastWindow := rfl
@[simp] theorem Sys.modCp_remapping (y : Sys) (c : Nat) (f : Cp → Cp) : (y.modCp c f).remapping = y.remapping := rfl
@[simp] theorem Sys.modCp_events (y : Sys) (c : Nat) (f : Cp → Cp) : (y.modCp c f).events = y.events := rfl
@[simp] theorem Sys.modCp_leases (y : Sys) (c : Nat) (f : Cp → Cp) : (y.modCp c f).leases = y.leases := rfl
@[simp] theorem Sys.modCp_due (y : Sys) (c : Nat) (f : Cp → Cp) : (y.modCp c f).due = y.due := rfl
@[simp] theorem Sys.modCp_domains (y : Sys) (c : Nat) (f : Cp → Cp) : (y.modCp c f).domains = y.domains := rfl
@[simp] theorem Sys.modCp_ticketLines (y : Sys) (c : Nat) (f : Cp → Cp) : (y.modCp c f).ticketLines = y.ticketLines := rfl
@[simp] theorem Sys.modCp_accBad (y : Sys) (c : Nat) (f : Cp → Cp) : (y.modCp c f).accBad = y.accBad := rfl
@[simp] theorem Sys.modCp_tlb (y : Sys) (c : Nat) (f : Cp → Cp) : (y.modCp c f).tlb = y.tlb := rfl
@[simp] theorem Sys.modCp_nested (y : Sys) (c : Nat) (f : Cp → Cp) : (y.modCp c f).nested = y.nested := rfl
@[simp] theorem Sys.modCp_walkFaults (y : Sys) (c : Nat) (f : Cp → Cp) : (y.modCp c f).walkFaults = y.walkFaults := rfl
@[simp] theorem Sys.modCp_pins (y : Sys) (c : Nat) (f : Cp → Cp) : (y.modCp c f).pins = y.pins := rfl
@[simp] theorem Sys.modCp_sunk (y : Sys) (c : Nat) (f : Cp → Cp) : (y.modCp c f).sunk = y.sunk := rfl

@[simp] theorem Sys.modPart_turns (y : Sys) (p : Nat) (f : Part → Part) : (y.modPart p f).turns = y.turns := rfl
@[simp] theorem Sys.modPart_ns (y : Sys) (p : Nat) (f : Part → Part) : (y.modPart p f).ns = y.ns := rfl
@[simp] theorem Sys.modPart_resetStep (y : Sys) (p : Nat) (f : Part → Part) : (y.modPart p f).resetStep = y.resetStep := rfl
@[simp] theorem Sys.modPart_poweredDown (y : Sys) (p : Nat) (f : Part → Part) : (y.modPart p f).poweredDown = y.poweredDown := rfl
@[simp] theorem Sys.modPart_aligned (y : Sys) (p : Nat) (f : Part → Part) : (y.modPart p f).aligned = y.aligned := rfl
@[simp] theorem Sys.modPart_wide (y : Sys) (p : Nat) (f : Part → Part) : (y.modPart p f).wide = y.wide := rfl
@[simp] theorem Sys.modPart_timeofs (y : Sys) (p : Nat) (f : Part → Part) : (y.modPart p f).timeofs = y.timeofs := rfl
@[simp] theorem Sys.modPart_ticklen (y : Sys) (p : Nat) (f : Part → Part) : (y.modPart p f).ticklen = y.ticklen := rfl
@[simp] theorem Sys.modPart_firstAligned (y : Sys) (p : Nat) (f : Part → Part) : (y.modPart p f).firstAligned = y.firstAligned := rfl
@[simp] theorem Sys.modPart_slew (y : Sys) (p : Nat) (f : Part → Part) : (y.modPart p f).slew = y.slew := rfl
@[simp] theorem Sys.modPart_slewAcc (y : Sys) (p : Nat) (f : Part → Part) : (y.modPart p f).slewAcc = y.slewAcc := rfl
@[simp] theorem Sys.modPart_lastExchange (y : Sys) (p : Nat) (f : Part → Part) : (y.modPart p f).lastExchange = y.lastExchange := rfl
@[simp] theorem Sys.modPart_reference (y : Sys) (p : Nat) (f : Part → Part) : (y.modPart p f).reference = y.reference := rfl
@[simp] theorem Sys.modPart_launched (y : Sys) (p : Nat) (f : Part → Part) : (y.modPart p f).launched = y.launched := rfl
@[simp] theorem Sys.modPart_persistent (y : Sys) (p : Nat) (f : Part → Part) : (y.modPart p f).persistent = y.persistent := rfl
@[simp] theorem Sys.modPart_coolantFault (y : Sys) (p : Nat) (f : Part → Part) : (y.modPart p f).coolantFault = y.coolantFault := rfl
@[simp] theorem Sys.modPart_wear (y : Sys) (p : Nat) (f : Part → Part) : (y.modPart p f).wear = y.wear := rfl
@[simp] theorem Sys.modPart_lds (y : Sys) (p : Nat) (f : Part → Part) : (y.modPart p f).lds = y.lds := rfl
@[simp] theorem Sys.modPart_ideKeys (y : Sys) (p : Nat) (f : Part → Part) : (y.modPart p f).ideKeys = y.ideKeys := rfl
@[simp] theorem Sys.modPart_eccCorrectable (y : Sys) (p : Nat) (f : Part → Part) : (y.modPart p f).eccCorrectable = y.eccCorrectable := rfl
@[simp] theorem Sys.modPart_corrected (y : Sys) (p : Nat) (f : Part → Part) : (y.modPart p f).corrected = y.corrected := rfl
@[simp] theorem Sys.modPart_portLists (y : Sys) (p : Nat) (f : Part → Part) : (y.modPart p f).portLists = y.portLists := rfl
@[simp] theorem Sys.modPart_direct (y : Sys) (p : Nat) (f : Part → Part) : (y.modPart p f).direct = y.direct := rfl
@[simp] theorem Sys.modPart_heldO (y : Sys) (p : Nat) (f : Part → Part) : (y.modPart p f).heldO = y.heldO := rfl
@[simp] theorem Sys.modPart_adopted (y : Sys) (p : Nat) (f : Part → Part) : (y.modPart p f).adopted = y.adopted := rfl
@[simp] theorem Sys.modPart_fw (y : Sys) (p : Nat) (f : Part → Part) : (y.modPart p f).fw = y.fw := rfl
@[simp] theorem Sys.modPart_spdm (y : Sys) (p : Nat) (f : Part → Part) : (y.modPart p f).spdm = y.spdm := rfl
@[simp] theorem Sys.modPart_answers (y : Sys) (p : Nat) (f : Part → Part) : (y.modPart p f).answers = y.answers := rfl
@[simp] theorem Sys.modPart_hostWrites (y : Sys) (p : Nat) (f : Part → Part) : (y.modPart p f).hostWrites = y.hostWrites := rfl
@[simp] theorem Sys.modPart_cxl (y : Sys) (p : Nat) (f : Part → Part) : (y.modPart p f).cxl = y.cxl := rfl
@[simp] theorem Sys.modPart_posted (y : Sys) (p : Nat) (f : Part → Part) : (y.modPart p f).posted = y.posted := rfl
@[simp] theorem Sys.modPart_lastWindow (y : Sys) (p : Nat) (f : Part → Part) : (y.modPart p f).lastWindow = y.lastWindow := rfl
@[simp] theorem Sys.modPart_remapping (y : Sys) (p : Nat) (f : Part → Part) : (y.modPart p f).remapping = y.remapping := rfl
@[simp] theorem Sys.modPart_events (y : Sys) (p : Nat) (f : Part → Part) : (y.modPart p f).events = y.events := rfl
@[simp] theorem Sys.modPart_leases (y : Sys) (p : Nat) (f : Part → Part) : (y.modPart p f).leases = y.leases := rfl
@[simp] theorem Sys.modPart_due (y : Sys) (p : Nat) (f : Part → Part) : (y.modPart p f).due = y.due := rfl
@[simp] theorem Sys.modPart_domains (y : Sys) (p : Nat) (f : Part → Part) : (y.modPart p f).domains = y.domains := rfl
@[simp] theorem Sys.modPart_ticketLines (y : Sys) (p : Nat) (f : Part → Part) : (y.modPart p f).ticketLines = y.ticketLines := rfl
@[simp] theorem Sys.modPart_accBad (y : Sys) (p : Nat) (f : Part → Part) : (y.modPart p f).accBad = y.accBad := rfl
@[simp] theorem Sys.modPart_tlb (y : Sys) (p : Nat) (f : Part → Part) : (y.modPart p f).tlb = y.tlb := rfl
@[simp] theorem Sys.modPart_nested (y : Sys) (p : Nat) (f : Part → Part) : (y.modPart p f).nested = y.nested := rfl
@[simp] theorem Sys.modPart_walkFaults (y : Sys) (p : Nat) (f : Part → Part) : (y.modPart p f).walkFaults = y.walkFaults := rfl
@[simp] theorem Sys.modPart_pins (y : Sys) (p : Nat) (f : Part → Part) : (y.modPart p f).pins = y.pins := rfl
@[simp] theorem Sys.modPart_sunk (y : Sys) (p : Nat) (f : Part → Part) : (y.modPart p f).sunk = y.sunk := rfl

@[simp] theorem Sys.modVf_turns (y : Sys) (v : Nat) (f : Vf → Vf) : (y.modVf v f).turns = y.turns := rfl
@[simp] theorem Sys.modVf_ns (y : Sys) (v : Nat) (f : Vf → Vf) : (y.modVf v f).ns = y.ns := rfl
@[simp] theorem Sys.modVf_resetStep (y : Sys) (v : Nat) (f : Vf → Vf) : (y.modVf v f).resetStep = y.resetStep := rfl
@[simp] theorem Sys.modVf_poweredDown (y : Sys) (v : Nat) (f : Vf → Vf) : (y.modVf v f).poweredDown = y.poweredDown := rfl
@[simp] theorem Sys.modVf_aligned (y : Sys) (v : Nat) (f : Vf → Vf) : (y.modVf v f).aligned = y.aligned := rfl
@[simp] theorem Sys.modVf_wide (y : Sys) (v : Nat) (f : Vf → Vf) : (y.modVf v f).wide = y.wide := rfl
@[simp] theorem Sys.modVf_timeofs (y : Sys) (v : Nat) (f : Vf → Vf) : (y.modVf v f).timeofs = y.timeofs := rfl
@[simp] theorem Sys.modVf_ticklen (y : Sys) (v : Nat) (f : Vf → Vf) : (y.modVf v f).ticklen = y.ticklen := rfl
@[simp] theorem Sys.modVf_firstAligned (y : Sys) (v : Nat) (f : Vf → Vf) : (y.modVf v f).firstAligned = y.firstAligned := rfl
@[simp] theorem Sys.modVf_slew (y : Sys) (v : Nat) (f : Vf → Vf) : (y.modVf v f).slew = y.slew := rfl
@[simp] theorem Sys.modVf_slewAcc (y : Sys) (v : Nat) (f : Vf → Vf) : (y.modVf v f).slewAcc = y.slewAcc := rfl
@[simp] theorem Sys.modVf_lastExchange (y : Sys) (v : Nat) (f : Vf → Vf) : (y.modVf v f).lastExchange = y.lastExchange := rfl
@[simp] theorem Sys.modVf_reference (y : Sys) (v : Nat) (f : Vf → Vf) : (y.modVf v f).reference = y.reference := rfl
@[simp] theorem Sys.modVf_launched (y : Sys) (v : Nat) (f : Vf → Vf) : (y.modVf v f).launched = y.launched := rfl
@[simp] theorem Sys.modVf_persistent (y : Sys) (v : Nat) (f : Vf → Vf) : (y.modVf v f).persistent = y.persistent := rfl
@[simp] theorem Sys.modVf_coolantFault (y : Sys) (v : Nat) (f : Vf → Vf) : (y.modVf v f).coolantFault = y.coolantFault := rfl
@[simp] theorem Sys.modVf_wear (y : Sys) (v : Nat) (f : Vf → Vf) : (y.modVf v f).wear = y.wear := rfl
@[simp] theorem Sys.modVf_lds (y : Sys) (v : Nat) (f : Vf → Vf) : (y.modVf v f).lds = y.lds := rfl
@[simp] theorem Sys.modVf_ideKeys (y : Sys) (v : Nat) (f : Vf → Vf) : (y.modVf v f).ideKeys = y.ideKeys := rfl
@[simp] theorem Sys.modVf_eccCorrectable (y : Sys) (v : Nat) (f : Vf → Vf) : (y.modVf v f).eccCorrectable = y.eccCorrectable := rfl
@[simp] theorem Sys.modVf_corrected (y : Sys) (v : Nat) (f : Vf → Vf) : (y.modVf v f).corrected = y.corrected := rfl
@[simp] theorem Sys.modVf_portLists (y : Sys) (v : Nat) (f : Vf → Vf) : (y.modVf v f).portLists = y.portLists := rfl
@[simp] theorem Sys.modVf_direct (y : Sys) (v : Nat) (f : Vf → Vf) : (y.modVf v f).direct = y.direct := rfl
@[simp] theorem Sys.modVf_heldO (y : Sys) (v : Nat) (f : Vf → Vf) : (y.modVf v f).heldO = y.heldO := rfl
@[simp] theorem Sys.modVf_adopted (y : Sys) (v : Nat) (f : Vf → Vf) : (y.modVf v f).adopted = y.adopted := rfl
@[simp] theorem Sys.modVf_fw (y : Sys) (v : Nat) (f : Vf → Vf) : (y.modVf v f).fw = y.fw := rfl
@[simp] theorem Sys.modVf_spdm (y : Sys) (v : Nat) (f : Vf → Vf) : (y.modVf v f).spdm = y.spdm := rfl
@[simp] theorem Sys.modVf_answers (y : Sys) (v : Nat) (f : Vf → Vf) : (y.modVf v f).answers = y.answers := rfl
@[simp] theorem Sys.modVf_hostWrites (y : Sys) (v : Nat) (f : Vf → Vf) : (y.modVf v f).hostWrites = y.hostWrites := rfl
@[simp] theorem Sys.modVf_cxl (y : Sys) (v : Nat) (f : Vf → Vf) : (y.modVf v f).cxl = y.cxl := rfl
@[simp] theorem Sys.modVf_posted (y : Sys) (v : Nat) (f : Vf → Vf) : (y.modVf v f).posted = y.posted := rfl
@[simp] theorem Sys.modVf_lastWindow (y : Sys) (v : Nat) (f : Vf → Vf) : (y.modVf v f).lastWindow = y.lastWindow := rfl
@[simp] theorem Sys.modVf_remapping (y : Sys) (v : Nat) (f : Vf → Vf) : (y.modVf v f).remapping = y.remapping := rfl
@[simp] theorem Sys.modVf_events (y : Sys) (v : Nat) (f : Vf → Vf) : (y.modVf v f).events = y.events := rfl
@[simp] theorem Sys.modVf_leases (y : Sys) (v : Nat) (f : Vf → Vf) : (y.modVf v f).leases = y.leases := rfl
@[simp] theorem Sys.modVf_due (y : Sys) (v : Nat) (f : Vf → Vf) : (y.modVf v f).due = y.due := rfl
@[simp] theorem Sys.modVf_domains (y : Sys) (v : Nat) (f : Vf → Vf) : (y.modVf v f).domains = y.domains := rfl
@[simp] theorem Sys.modVf_ticketLines (y : Sys) (v : Nat) (f : Vf → Vf) : (y.modVf v f).ticketLines = y.ticketLines := rfl
@[simp] theorem Sys.modVf_accBad (y : Sys) (v : Nat) (f : Vf → Vf) : (y.modVf v f).accBad = y.accBad := rfl
@[simp] theorem Sys.modVf_tlb (y : Sys) (v : Nat) (f : Vf → Vf) : (y.modVf v f).tlb = y.tlb := rfl
@[simp] theorem Sys.modVf_nested (y : Sys) (v : Nat) (f : Vf → Vf) : (y.modVf v f).nested = y.nested := rfl
@[simp] theorem Sys.modVf_walkFaults (y : Sys) (v : Nat) (f : Vf → Vf) : (y.modVf v f).walkFaults = y.walkFaults := rfl
@[simp] theorem Sys.modVf_pins (y : Sys) (v : Nat) (f : Vf → Vf) : (y.modVf v f).pins = y.pins := rfl
@[simp] theorem Sys.modVf_sunk (y : Sys) (v : Nat) (f : Vf → Vf) : (y.modVf v f).sunk = y.sunk := rfl

@[simp] theorem Sys.modDie_turns (y : Sys) (d : Nat) (f : Die → Die) : (y.modDie d f).turns = y.turns := rfl
@[simp] theorem Sys.modDie_ns (y : Sys) (d : Nat) (f : Die → Die) : (y.modDie d f).ns = y.ns := rfl
@[simp] theorem Sys.modDie_resetStep (y : Sys) (d : Nat) (f : Die → Die) : (y.modDie d f).resetStep = y.resetStep := rfl
@[simp] theorem Sys.modDie_poweredDown (y : Sys) (d : Nat) (f : Die → Die) : (y.modDie d f).poweredDown = y.poweredDown := rfl
@[simp] theorem Sys.modDie_aligned (y : Sys) (d : Nat) (f : Die → Die) : (y.modDie d f).aligned = y.aligned := rfl
@[simp] theorem Sys.modDie_wide (y : Sys) (d : Nat) (f : Die → Die) : (y.modDie d f).wide = y.wide := rfl
@[simp] theorem Sys.modDie_timeofs (y : Sys) (d : Nat) (f : Die → Die) : (y.modDie d f).timeofs = y.timeofs := rfl
@[simp] theorem Sys.modDie_ticklen (y : Sys) (d : Nat) (f : Die → Die) : (y.modDie d f).ticklen = y.ticklen := rfl
@[simp] theorem Sys.modDie_firstAligned (y : Sys) (d : Nat) (f : Die → Die) : (y.modDie d f).firstAligned = y.firstAligned := rfl
@[simp] theorem Sys.modDie_slew (y : Sys) (d : Nat) (f : Die → Die) : (y.modDie d f).slew = y.slew := rfl
@[simp] theorem Sys.modDie_slewAcc (y : Sys) (d : Nat) (f : Die → Die) : (y.modDie d f).slewAcc = y.slewAcc := rfl
@[simp] theorem Sys.modDie_lastExchange (y : Sys) (d : Nat) (f : Die → Die) : (y.modDie d f).lastExchange = y.lastExchange := rfl
@[simp] theorem Sys.modDie_reference (y : Sys) (d : Nat) (f : Die → Die) : (y.modDie d f).reference = y.reference := rfl
@[simp] theorem Sys.modDie_launched (y : Sys) (d : Nat) (f : Die → Die) : (y.modDie d f).launched = y.launched := rfl
@[simp] theorem Sys.modDie_persistent (y : Sys) (d : Nat) (f : Die → Die) : (y.modDie d f).persistent = y.persistent := rfl
@[simp] theorem Sys.modDie_coolantFault (y : Sys) (d : Nat) (f : Die → Die) : (y.modDie d f).coolantFault = y.coolantFault := rfl
@[simp] theorem Sys.modDie_wear (y : Sys) (d : Nat) (f : Die → Die) : (y.modDie d f).wear = y.wear := rfl
@[simp] theorem Sys.modDie_lds (y : Sys) (d : Nat) (f : Die → Die) : (y.modDie d f).lds = y.lds := rfl
@[simp] theorem Sys.modDie_ideKeys (y : Sys) (d : Nat) (f : Die → Die) : (y.modDie d f).ideKeys = y.ideKeys := rfl
@[simp] theorem Sys.modDie_eccCorrectable (y : Sys) (d : Nat) (f : Die → Die) : (y.modDie d f).eccCorrectable = y.eccCorrectable := rfl
@[simp] theorem Sys.modDie_corrected (y : Sys) (d : Nat) (f : Die → Die) : (y.modDie d f).corrected = y.corrected := rfl
@[simp] theorem Sys.modDie_portLists (y : Sys) (d : Nat) (f : Die → Die) : (y.modDie d f).portLists = y.portLists := rfl
@[simp] theorem Sys.modDie_direct (y : Sys) (d : Nat) (f : Die → Die) : (y.modDie d f).direct = y.direct := rfl
@[simp] theorem Sys.modDie_heldO (y : Sys) (d : Nat) (f : Die → Die) : (y.modDie d f).heldO = y.heldO := rfl
@[simp] theorem Sys.modDie_adopted (y : Sys) (d : Nat) (f : Die → Die) : (y.modDie d f).adopted = y.adopted := rfl
@[simp] theorem Sys.modDie_fw (y : Sys) (d : Nat) (f : Die → Die) : (y.modDie d f).fw = y.fw := rfl
@[simp] theorem Sys.modDie_spdm (y : Sys) (d : Nat) (f : Die → Die) : (y.modDie d f).spdm = y.spdm := rfl
@[simp] theorem Sys.modDie_answers (y : Sys) (d : Nat) (f : Die → Die) : (y.modDie d f).answers = y.answers := rfl
@[simp] theorem Sys.modDie_hostWrites (y : Sys) (d : Nat) (f : Die → Die) : (y.modDie d f).hostWrites = y.hostWrites := rfl
@[simp] theorem Sys.modDie_cxl (y : Sys) (d : Nat) (f : Die → Die) : (y.modDie d f).cxl = y.cxl := rfl
@[simp] theorem Sys.modDie_posted (y : Sys) (d : Nat) (f : Die → Die) : (y.modDie d f).posted = y.posted := rfl
@[simp] theorem Sys.modDie_lastWindow (y : Sys) (d : Nat) (f : Die → Die) : (y.modDie d f).lastWindow = y.lastWindow := rfl
@[simp] theorem Sys.modDie_remapping (y : Sys) (d : Nat) (f : Die → Die) : (y.modDie d f).remapping = y.remapping := rfl
@[simp] theorem Sys.modDie_events (y : Sys) (d : Nat) (f : Die → Die) : (y.modDie d f).events = y.events := rfl
@[simp] theorem Sys.modDie_leases (y : Sys) (d : Nat) (f : Die → Die) : (y.modDie d f).leases = y.leases := rfl
@[simp] theorem Sys.modDie_due (y : Sys) (d : Nat) (f : Die → Die) : (y.modDie d f).due = y.due := rfl
@[simp] theorem Sys.modDie_domains (y : Sys) (d : Nat) (f : Die → Die) : (y.modDie d f).domains = y.domains := rfl
@[simp] theorem Sys.modDie_ticketLines (y : Sys) (d : Nat) (f : Die → Die) : (y.modDie d f).ticketLines = y.ticketLines := rfl
@[simp] theorem Sys.modDie_accBad (y : Sys) (d : Nat) (f : Die → Die) : (y.modDie d f).accBad = y.accBad := rfl
@[simp] theorem Sys.modDie_tlb (y : Sys) (d : Nat) (f : Die → Die) : (y.modDie d f).tlb = y.tlb := rfl
@[simp] theorem Sys.modDie_nested (y : Sys) (d : Nat) (f : Die → Die) : (y.modDie d f).nested = y.nested := rfl
@[simp] theorem Sys.modDie_walkFaults (y : Sys) (d : Nat) (f : Die → Die) : (y.modDie d f).walkFaults = y.walkFaults := rfl
@[simp] theorem Sys.modDie_pins (y : Sys) (d : Nat) (f : Die → Die) : (y.modDie d f).pins = y.pins := rfl
@[simp] theorem Sys.modDie_sunk (y : Sys) (d : Nat) (f : Die → Die) : (y.modDie d f).sunk = y.sunk := rfl

@[simp] theorem Sys.modPort_turns (y : Sys) (n : Nat) (f : Port → Port) : (y.modPort n f).turns = y.turns := rfl
@[simp] theorem Sys.modPort_ns (y : Sys) (n : Nat) (f : Port → Port) : (y.modPort n f).ns = y.ns := rfl
@[simp] theorem Sys.modPort_resetStep (y : Sys) (n : Nat) (f : Port → Port) : (y.modPort n f).resetStep = y.resetStep := rfl
@[simp] theorem Sys.modPort_poweredDown (y : Sys) (n : Nat) (f : Port → Port) : (y.modPort n f).poweredDown = y.poweredDown := rfl
@[simp] theorem Sys.modPort_aligned (y : Sys) (n : Nat) (f : Port → Port) : (y.modPort n f).aligned = y.aligned := rfl
@[simp] theorem Sys.modPort_wide (y : Sys) (n : Nat) (f : Port → Port) : (y.modPort n f).wide = y.wide := rfl
@[simp] theorem Sys.modPort_timeofs (y : Sys) (n : Nat) (f : Port → Port) : (y.modPort n f).timeofs = y.timeofs := rfl
@[simp] theorem Sys.modPort_ticklen (y : Sys) (n : Nat) (f : Port → Port) : (y.modPort n f).ticklen = y.ticklen := rfl
@[simp] theorem Sys.modPort_firstAligned (y : Sys) (n : Nat) (f : Port → Port) : (y.modPort n f).firstAligned = y.firstAligned := rfl
@[simp] theorem Sys.modPort_slew (y : Sys) (n : Nat) (f : Port → Port) : (y.modPort n f).slew = y.slew := rfl
@[simp] theorem Sys.modPort_slewAcc (y : Sys) (n : Nat) (f : Port → Port) : (y.modPort n f).slewAcc = y.slewAcc := rfl
@[simp] theorem Sys.modPort_lastExchange (y : Sys) (n : Nat) (f : Port → Port) : (y.modPort n f).lastExchange = y.lastExchange := rfl
@[simp] theorem Sys.modPort_reference (y : Sys) (n : Nat) (f : Port → Port) : (y.modPort n f).reference = y.reference := rfl
@[simp] theorem Sys.modPort_launched (y : Sys) (n : Nat) (f : Port → Port) : (y.modPort n f).launched = y.launched := rfl
@[simp] theorem Sys.modPort_persistent (y : Sys) (n : Nat) (f : Port → Port) : (y.modPort n f).persistent = y.persistent := rfl
@[simp] theorem Sys.modPort_coolantFault (y : Sys) (n : Nat) (f : Port → Port) : (y.modPort n f).coolantFault = y.coolantFault := rfl
@[simp] theorem Sys.modPort_wear (y : Sys) (n : Nat) (f : Port → Port) : (y.modPort n f).wear = y.wear := rfl
@[simp] theorem Sys.modPort_lds (y : Sys) (n : Nat) (f : Port → Port) : (y.modPort n f).lds = y.lds := rfl
@[simp] theorem Sys.modPort_ideKeys (y : Sys) (n : Nat) (f : Port → Port) : (y.modPort n f).ideKeys = y.ideKeys := rfl
@[simp] theorem Sys.modPort_eccCorrectable (y : Sys) (n : Nat) (f : Port → Port) : (y.modPort n f).eccCorrectable = y.eccCorrectable := rfl
@[simp] theorem Sys.modPort_corrected (y : Sys) (n : Nat) (f : Port → Port) : (y.modPort n f).corrected = y.corrected := rfl
@[simp] theorem Sys.modPort_portLists (y : Sys) (n : Nat) (f : Port → Port) : (y.modPort n f).portLists = y.portLists := rfl
@[simp] theorem Sys.modPort_direct (y : Sys) (n : Nat) (f : Port → Port) : (y.modPort n f).direct = y.direct := rfl
@[simp] theorem Sys.modPort_heldO (y : Sys) (n : Nat) (f : Port → Port) : (y.modPort n f).heldO = y.heldO := rfl
@[simp] theorem Sys.modPort_adopted (y : Sys) (n : Nat) (f : Port → Port) : (y.modPort n f).adopted = y.adopted := rfl
@[simp] theorem Sys.modPort_fw (y : Sys) (n : Nat) (f : Port → Port) : (y.modPort n f).fw = y.fw := rfl
@[simp] theorem Sys.modPort_spdm (y : Sys) (n : Nat) (f : Port → Port) : (y.modPort n f).spdm = y.spdm := rfl
@[simp] theorem Sys.modPort_answers (y : Sys) (n : Nat) (f : Port → Port) : (y.modPort n f).answers = y.answers := rfl
@[simp] theorem Sys.modPort_hostWrites (y : Sys) (n : Nat) (f : Port → Port) : (y.modPort n f).hostWrites = y.hostWrites := rfl
@[simp] theorem Sys.modPort_cxl (y : Sys) (n : Nat) (f : Port → Port) : (y.modPort n f).cxl = y.cxl := rfl
@[simp] theorem Sys.modPort_posted (y : Sys) (n : Nat) (f : Port → Port) : (y.modPort n f).posted = y.posted := rfl
@[simp] theorem Sys.modPort_lastWindow (y : Sys) (n : Nat) (f : Port → Port) : (y.modPort n f).lastWindow = y.lastWindow := rfl
@[simp] theorem Sys.modPort_remapping (y : Sys) (n : Nat) (f : Port → Port) : (y.modPort n f).remapping = y.remapping := rfl
@[simp] theorem Sys.modPort_events (y : Sys) (n : Nat) (f : Port → Port) : (y.modPort n f).events = y.events := rfl
@[simp] theorem Sys.modPort_leases (y : Sys) (n : Nat) (f : Port → Port) : (y.modPort n f).leases = y.leases := rfl
@[simp] theorem Sys.modPort_due (y : Sys) (n : Nat) (f : Port → Port) : (y.modPort n f).due = y.due := rfl
@[simp] theorem Sys.modPort_domains (y : Sys) (n : Nat) (f : Port → Port) : (y.modPort n f).domains = y.domains := rfl
@[simp] theorem Sys.modPort_ticketLines (y : Sys) (n : Nat) (f : Port → Port) : (y.modPort n f).ticketLines = y.ticketLines := rfl
@[simp] theorem Sys.modPort_accBad (y : Sys) (n : Nat) (f : Port → Port) : (y.modPort n f).accBad = y.accBad := rfl
@[simp] theorem Sys.modPort_tlb (y : Sys) (n : Nat) (f : Port → Port) : (y.modPort n f).tlb = y.tlb := rfl
@[simp] theorem Sys.modPort_nested (y : Sys) (n : Nat) (f : Port → Port) : (y.modPort n f).nested = y.nested := rfl
@[simp] theorem Sys.modPort_walkFaults (y : Sys) (n : Nat) (f : Port → Port) : (y.modPort n f).walkFaults = y.walkFaults := rfl
@[simp] theorem Sys.modPort_pins (y : Sys) (n : Nat) (f : Port → Port) : (y.modPort n f).pins = y.pins := rfl
@[simp] theorem Sys.modPort_sunk (y : Sys) (n : Nat) (f : Port → Port) : (y.modPort n f).sunk = y.sunk := rfl

@[simp] theorem Sys.modGroup_turns (y : Sys) (h : Nat) (f : Group → Group) : (y.modGroup h f).turns = y.turns := rfl
@[simp] theorem Sys.modGroup_ns (y : Sys) (h : Nat) (f : Group → Group) : (y.modGroup h f).ns = y.ns := rfl
@[simp] theorem Sys.modGroup_resetStep (y : Sys) (h : Nat) (f : Group → Group) : (y.modGroup h f).resetStep = y.resetStep := rfl
@[simp] theorem Sys.modGroup_poweredDown (y : Sys) (h : Nat) (f : Group → Group) : (y.modGroup h f).poweredDown = y.poweredDown := rfl
@[simp] theorem Sys.modGroup_aligned (y : Sys) (h : Nat) (f : Group → Group) : (y.modGroup h f).aligned = y.aligned := rfl
@[simp] theorem Sys.modGroup_wide (y : Sys) (h : Nat) (f : Group → Group) : (y.modGroup h f).wide = y.wide := rfl
@[simp] theorem Sys.modGroup_timeofs (y : Sys) (h : Nat) (f : Group → Group) : (y.modGroup h f).timeofs = y.timeofs := rfl
@[simp] theorem Sys.modGroup_ticklen (y : Sys) (h : Nat) (f : Group → Group) : (y.modGroup h f).ticklen = y.ticklen := rfl
@[simp] theorem Sys.modGroup_firstAligned (y : Sys) (h : Nat) (f : Group → Group) : (y.modGroup h f).firstAligned = y.firstAligned := rfl
@[simp] theorem Sys.modGroup_slew (y : Sys) (h : Nat) (f : Group → Group) : (y.modGroup h f).slew = y.slew := rfl
@[simp] theorem Sys.modGroup_slewAcc (y : Sys) (h : Nat) (f : Group → Group) : (y.modGroup h f).slewAcc = y.slewAcc := rfl
@[simp] theorem Sys.modGroup_lastExchange (y : Sys) (h : Nat) (f : Group → Group) : (y.modGroup h f).lastExchange = y.lastExchange := rfl
@[simp] theorem Sys.modGroup_reference (y : Sys) (h : Nat) (f : Group → Group) : (y.modGroup h f).reference = y.reference := rfl
@[simp] theorem Sys.modGroup_launched (y : Sys) (h : Nat) (f : Group → Group) : (y.modGroup h f).launched = y.launched := rfl
@[simp] theorem Sys.modGroup_persistent (y : Sys) (h : Nat) (f : Group → Group) : (y.modGroup h f).persistent = y.persistent := rfl
@[simp] theorem Sys.modGroup_coolantFault (y : Sys) (h : Nat) (f : Group → Group) : (y.modGroup h f).coolantFault = y.coolantFault := rfl
@[simp] theorem Sys.modGroup_wear (y : Sys) (h : Nat) (f : Group → Group) : (y.modGroup h f).wear = y.wear := rfl
@[simp] theorem Sys.modGroup_lds (y : Sys) (h : Nat) (f : Group → Group) : (y.modGroup h f).lds = y.lds := rfl
@[simp] theorem Sys.modGroup_ideKeys (y : Sys) (h : Nat) (f : Group → Group) : (y.modGroup h f).ideKeys = y.ideKeys := rfl
@[simp] theorem Sys.modGroup_eccCorrectable (y : Sys) (h : Nat) (f : Group → Group) : (y.modGroup h f).eccCorrectable = y.eccCorrectable := rfl
@[simp] theorem Sys.modGroup_corrected (y : Sys) (h : Nat) (f : Group → Group) : (y.modGroup h f).corrected = y.corrected := rfl
@[simp] theorem Sys.modGroup_portLists (y : Sys) (h : Nat) (f : Group → Group) : (y.modGroup h f).portLists = y.portLists := rfl
@[simp] theorem Sys.modGroup_direct (y : Sys) (h : Nat) (f : Group → Group) : (y.modGroup h f).direct = y.direct := rfl
@[simp] theorem Sys.modGroup_heldO (y : Sys) (h : Nat) (f : Group → Group) : (y.modGroup h f).heldO = y.heldO := rfl
@[simp] theorem Sys.modGroup_adopted (y : Sys) (h : Nat) (f : Group → Group) : (y.modGroup h f).adopted = y.adopted := rfl
@[simp] theorem Sys.modGroup_fw (y : Sys) (h : Nat) (f : Group → Group) : (y.modGroup h f).fw = y.fw := rfl
@[simp] theorem Sys.modGroup_spdm (y : Sys) (h : Nat) (f : Group → Group) : (y.modGroup h f).spdm = y.spdm := rfl
@[simp] theorem Sys.modGroup_answers (y : Sys) (h : Nat) (f : Group → Group) : (y.modGroup h f).answers = y.answers := rfl
@[simp] theorem Sys.modGroup_hostWrites (y : Sys) (h : Nat) (f : Group → Group) : (y.modGroup h f).hostWrites = y.hostWrites := rfl
@[simp] theorem Sys.modGroup_cxl (y : Sys) (h : Nat) (f : Group → Group) : (y.modGroup h f).cxl = y.cxl := rfl
@[simp] theorem Sys.modGroup_posted (y : Sys) (h : Nat) (f : Group → Group) : (y.modGroup h f).posted = y.posted := rfl
@[simp] theorem Sys.modGroup_lastWindow (y : Sys) (h : Nat) (f : Group → Group) : (y.modGroup h f).lastWindow = y.lastWindow := rfl
@[simp] theorem Sys.modGroup_remapping (y : Sys) (h : Nat) (f : Group → Group) : (y.modGroup h f).remapping = y.remapping := rfl
@[simp] theorem Sys.modGroup_events (y : Sys) (h : Nat) (f : Group → Group) : (y.modGroup h f).events = y.events := rfl
@[simp] theorem Sys.modGroup_leases (y : Sys) (h : Nat) (f : Group → Group) : (y.modGroup h f).leases = y.leases := rfl
@[simp] theorem Sys.modGroup_due (y : Sys) (h : Nat) (f : Group → Group) : (y.modGroup h f).due = y.due := rfl
@[simp] theorem Sys.modGroup_domains (y : Sys) (h : Nat) (f : Group → Group) : (y.modGroup h f).domains = y.domains := rfl
@[simp] theorem Sys.modGroup_ticketLines (y : Sys) (h : Nat) (f : Group → Group) : (y.modGroup h f).ticketLines = y.ticketLines := rfl
@[simp] theorem Sys.modGroup_accBad (y : Sys) (h : Nat) (f : Group → Group) : (y.modGroup h f).accBad = y.accBad := rfl
@[simp] theorem Sys.modGroup_tlb (y : Sys) (h : Nat) (f : Group → Group) : (y.modGroup h f).tlb = y.tlb := rfl
@[simp] theorem Sys.modGroup_nested (y : Sys) (h : Nat) (f : Group → Group) : (y.modGroup h f).nested = y.nested := rfl
@[simp] theorem Sys.modGroup_walkFaults (y : Sys) (h : Nat) (f : Group → Group) : (y.modGroup h f).walkFaults = y.walkFaults := rfl
@[simp] theorem Sys.modGroup_pins (y : Sys) (h : Nat) (f : Group → Group) : (y.modGroup h f).pins = y.pins := rfl
@[simp] theorem Sys.modGroup_sunk (y : Sys) (h : Nat) (f : Group → Group) : (y.modGroup h f).sunk = y.sunk := rfl

@[simp] theorem Sys.modLaunch_turns (y : Sys) (u : Nat) (f : Launch → Launch) : (y.modLaunch u f).turns = y.turns := rfl
@[simp] theorem Sys.modLaunch_ns (y : Sys) (u : Nat) (f : Launch → Launch) : (y.modLaunch u f).ns = y.ns := rfl
@[simp] theorem Sys.modLaunch_resetStep (y : Sys) (u : Nat) (f : Launch → Launch) : (y.modLaunch u f).resetStep = y.resetStep := rfl
@[simp] theorem Sys.modLaunch_poweredDown (y : Sys) (u : Nat) (f : Launch → Launch) : (y.modLaunch u f).poweredDown = y.poweredDown := rfl
@[simp] theorem Sys.modLaunch_aligned (y : Sys) (u : Nat) (f : Launch → Launch) : (y.modLaunch u f).aligned = y.aligned := rfl
@[simp] theorem Sys.modLaunch_wide (y : Sys) (u : Nat) (f : Launch → Launch) : (y.modLaunch u f).wide = y.wide := rfl
@[simp] theorem Sys.modLaunch_timeofs (y : Sys) (u : Nat) (f : Launch → Launch) : (y.modLaunch u f).timeofs = y.timeofs := rfl
@[simp] theorem Sys.modLaunch_ticklen (y : Sys) (u : Nat) (f : Launch → Launch) : (y.modLaunch u f).ticklen = y.ticklen := rfl
@[simp] theorem Sys.modLaunch_firstAligned (y : Sys) (u : Nat) (f : Launch → Launch) : (y.modLaunch u f).firstAligned = y.firstAligned := rfl
@[simp] theorem Sys.modLaunch_slew (y : Sys) (u : Nat) (f : Launch → Launch) : (y.modLaunch u f).slew = y.slew := rfl
@[simp] theorem Sys.modLaunch_slewAcc (y : Sys) (u : Nat) (f : Launch → Launch) : (y.modLaunch u f).slewAcc = y.slewAcc := rfl
@[simp] theorem Sys.modLaunch_lastExchange (y : Sys) (u : Nat) (f : Launch → Launch) : (y.modLaunch u f).lastExchange = y.lastExchange := rfl
@[simp] theorem Sys.modLaunch_reference (y : Sys) (u : Nat) (f : Launch → Launch) : (y.modLaunch u f).reference = y.reference := rfl
@[simp] theorem Sys.modLaunch_launched (y : Sys) (u : Nat) (f : Launch → Launch) : (y.modLaunch u f).launched = y.launched := rfl
@[simp] theorem Sys.modLaunch_persistent (y : Sys) (u : Nat) (f : Launch → Launch) : (y.modLaunch u f).persistent = y.persistent := rfl
@[simp] theorem Sys.modLaunch_coolantFault (y : Sys) (u : Nat) (f : Launch → Launch) : (y.modLaunch u f).coolantFault = y.coolantFault := rfl
@[simp] theorem Sys.modLaunch_wear (y : Sys) (u : Nat) (f : Launch → Launch) : (y.modLaunch u f).wear = y.wear := rfl
@[simp] theorem Sys.modLaunch_lds (y : Sys) (u : Nat) (f : Launch → Launch) : (y.modLaunch u f).lds = y.lds := rfl
@[simp] theorem Sys.modLaunch_ideKeys (y : Sys) (u : Nat) (f : Launch → Launch) : (y.modLaunch u f).ideKeys = y.ideKeys := rfl
@[simp] theorem Sys.modLaunch_eccCorrectable (y : Sys) (u : Nat) (f : Launch → Launch) : (y.modLaunch u f).eccCorrectable = y.eccCorrectable := rfl
@[simp] theorem Sys.modLaunch_corrected (y : Sys) (u : Nat) (f : Launch → Launch) : (y.modLaunch u f).corrected = y.corrected := rfl
@[simp] theorem Sys.modLaunch_portLists (y : Sys) (u : Nat) (f : Launch → Launch) : (y.modLaunch u f).portLists = y.portLists := rfl
@[simp] theorem Sys.modLaunch_direct (y : Sys) (u : Nat) (f : Launch → Launch) : (y.modLaunch u f).direct = y.direct := rfl
@[simp] theorem Sys.modLaunch_heldO (y : Sys) (u : Nat) (f : Launch → Launch) : (y.modLaunch u f).heldO = y.heldO := rfl
@[simp] theorem Sys.modLaunch_adopted (y : Sys) (u : Nat) (f : Launch → Launch) : (y.modLaunch u f).adopted = y.adopted := rfl
@[simp] theorem Sys.modLaunch_fw (y : Sys) (u : Nat) (f : Launch → Launch) : (y.modLaunch u f).fw = y.fw := rfl
@[simp] theorem Sys.modLaunch_spdm (y : Sys) (u : Nat) (f : Launch → Launch) : (y.modLaunch u f).spdm = y.spdm := rfl
@[simp] theorem Sys.modLaunch_answers (y : Sys) (u : Nat) (f : Launch → Launch) : (y.modLaunch u f).answers = y.answers := rfl
@[simp] theorem Sys.modLaunch_hostWrites (y : Sys) (u : Nat) (f : Launch → Launch) : (y.modLaunch u f).hostWrites = y.hostWrites := rfl
@[simp] theorem Sys.modLaunch_cxl (y : Sys) (u : Nat) (f : Launch → Launch) : (y.modLaunch u f).cxl = y.cxl := rfl
@[simp] theorem Sys.modLaunch_posted (y : Sys) (u : Nat) (f : Launch → Launch) : (y.modLaunch u f).posted = y.posted := rfl
@[simp] theorem Sys.modLaunch_lastWindow (y : Sys) (u : Nat) (f : Launch → Launch) : (y.modLaunch u f).lastWindow = y.lastWindow := rfl
@[simp] theorem Sys.modLaunch_remapping (y : Sys) (u : Nat) (f : Launch → Launch) : (y.modLaunch u f).remapping = y.remapping := rfl
@[simp] theorem Sys.modLaunch_events (y : Sys) (u : Nat) (f : Launch → Launch) : (y.modLaunch u f).events = y.events := rfl
@[simp] theorem Sys.modLaunch_leases (y : Sys) (u : Nat) (f : Launch → Launch) : (y.modLaunch u f).leases = y.leases := rfl
@[simp] theorem Sys.modLaunch_due (y : Sys) (u : Nat) (f : Launch → Launch) : (y.modLaunch u f).due = y.due := rfl
@[simp] theorem Sys.modLaunch_domains (y : Sys) (u : Nat) (f : Launch → Launch) : (y.modLaunch u f).domains = y.domains := rfl
@[simp] theorem Sys.modLaunch_ticketLines (y : Sys) (u : Nat) (f : Launch → Launch) : (y.modLaunch u f).ticketLines = y.ticketLines := rfl
@[simp] theorem Sys.modLaunch_accBad (y : Sys) (u : Nat) (f : Launch → Launch) : (y.modLaunch u f).accBad = y.accBad := rfl
@[simp] theorem Sys.modLaunch_tlb (y : Sys) (u : Nat) (f : Launch → Launch) : (y.modLaunch u f).tlb = y.tlb := rfl
@[simp] theorem Sys.modLaunch_nested (y : Sys) (u : Nat) (f : Launch → Launch) : (y.modLaunch u f).nested = y.nested := rfl
@[simp] theorem Sys.modLaunch_walkFaults (y : Sys) (u : Nat) (f : Launch → Launch) : (y.modLaunch u f).walkFaults = y.walkFaults := rfl
@[simp] theorem Sys.modLaunch_pins (y : Sys) (u : Nat) (f : Launch → Launch) : (y.modLaunch u f).pins = y.pins := rfl
@[simp] theorem Sys.modLaunch_sunk (y : Sys) (u : Nat) (f : Launch → Launch) : (y.modLaunch u f).sunk = y.sunk := rfl

@[simp] theorem Sys.modBlock_turns (y : Sys) (u : Nat) (f : Block → Block) : (y.modBlock u f).turns = y.turns := rfl
@[simp] theorem Sys.modBlock_ns (y : Sys) (u : Nat) (f : Block → Block) : (y.modBlock u f).ns = y.ns := rfl
@[simp] theorem Sys.modBlock_resetStep (y : Sys) (u : Nat) (f : Block → Block) : (y.modBlock u f).resetStep = y.resetStep := rfl
@[simp] theorem Sys.modBlock_poweredDown (y : Sys) (u : Nat) (f : Block → Block) : (y.modBlock u f).poweredDown = y.poweredDown := rfl
@[simp] theorem Sys.modBlock_aligned (y : Sys) (u : Nat) (f : Block → Block) : (y.modBlock u f).aligned = y.aligned := rfl
@[simp] theorem Sys.modBlock_wide (y : Sys) (u : Nat) (f : Block → Block) : (y.modBlock u f).wide = y.wide := rfl
@[simp] theorem Sys.modBlock_timeofs (y : Sys) (u : Nat) (f : Block → Block) : (y.modBlock u f).timeofs = y.timeofs := rfl
@[simp] theorem Sys.modBlock_ticklen (y : Sys) (u : Nat) (f : Block → Block) : (y.modBlock u f).ticklen = y.ticklen := rfl
@[simp] theorem Sys.modBlock_firstAligned (y : Sys) (u : Nat) (f : Block → Block) : (y.modBlock u f).firstAligned = y.firstAligned := rfl
@[simp] theorem Sys.modBlock_slew (y : Sys) (u : Nat) (f : Block → Block) : (y.modBlock u f).slew = y.slew := rfl
@[simp] theorem Sys.modBlock_slewAcc (y : Sys) (u : Nat) (f : Block → Block) : (y.modBlock u f).slewAcc = y.slewAcc := rfl
@[simp] theorem Sys.modBlock_lastExchange (y : Sys) (u : Nat) (f : Block → Block) : (y.modBlock u f).lastExchange = y.lastExchange := rfl
@[simp] theorem Sys.modBlock_reference (y : Sys) (u : Nat) (f : Block → Block) : (y.modBlock u f).reference = y.reference := rfl
@[simp] theorem Sys.modBlock_launched (y : Sys) (u : Nat) (f : Block → Block) : (y.modBlock u f).launched = y.launched := rfl
@[simp] theorem Sys.modBlock_persistent (y : Sys) (u : Nat) (f : Block → Block) : (y.modBlock u f).persistent = y.persistent := rfl
@[simp] theorem Sys.modBlock_coolantFault (y : Sys) (u : Nat) (f : Block → Block) : (y.modBlock u f).coolantFault = y.coolantFault := rfl
@[simp] theorem Sys.modBlock_wear (y : Sys) (u : Nat) (f : Block → Block) : (y.modBlock u f).wear = y.wear := rfl
@[simp] theorem Sys.modBlock_lds (y : Sys) (u : Nat) (f : Block → Block) : (y.modBlock u f).lds = y.lds := rfl
@[simp] theorem Sys.modBlock_ideKeys (y : Sys) (u : Nat) (f : Block → Block) : (y.modBlock u f).ideKeys = y.ideKeys := rfl
@[simp] theorem Sys.modBlock_eccCorrectable (y : Sys) (u : Nat) (f : Block → Block) : (y.modBlock u f).eccCorrectable = y.eccCorrectable := rfl
@[simp] theorem Sys.modBlock_corrected (y : Sys) (u : Nat) (f : Block → Block) : (y.modBlock u f).corrected = y.corrected := rfl
@[simp] theorem Sys.modBlock_portLists (y : Sys) (u : Nat) (f : Block → Block) : (y.modBlock u f).portLists = y.portLists := rfl
@[simp] theorem Sys.modBlock_direct (y : Sys) (u : Nat) (f : Block → Block) : (y.modBlock u f).direct = y.direct := rfl
@[simp] theorem Sys.modBlock_heldO (y : Sys) (u : Nat) (f : Block → Block) : (y.modBlock u f).heldO = y.heldO := rfl
@[simp] theorem Sys.modBlock_adopted (y : Sys) (u : Nat) (f : Block → Block) : (y.modBlock u f).adopted = y.adopted := rfl
@[simp] theorem Sys.modBlock_fw (y : Sys) (u : Nat) (f : Block → Block) : (y.modBlock u f).fw = y.fw := rfl
@[simp] theorem Sys.modBlock_spdm (y : Sys) (u : Nat) (f : Block → Block) : (y.modBlock u f).spdm = y.spdm := rfl
@[simp] theorem Sys.modBlock_answers (y : Sys) (u : Nat) (f : Block → Block) : (y.modBlock u f).answers = y.answers := rfl
@[simp] theorem Sys.modBlock_hostWrites (y : Sys) (u : Nat) (f : Block → Block) : (y.modBlock u f).hostWrites = y.hostWrites := rfl
@[simp] theorem Sys.modBlock_cxl (y : Sys) (u : Nat) (f : Block → Block) : (y.modBlock u f).cxl = y.cxl := rfl
@[simp] theorem Sys.modBlock_posted (y : Sys) (u : Nat) (f : Block → Block) : (y.modBlock u f).posted = y.posted := rfl
@[simp] theorem Sys.modBlock_lastWindow (y : Sys) (u : Nat) (f : Block → Block) : (y.modBlock u f).lastWindow = y.lastWindow := rfl
@[simp] theorem Sys.modBlock_remapping (y : Sys) (u : Nat) (f : Block → Block) : (y.modBlock u f).remapping = y.remapping := rfl
@[simp] theorem Sys.modBlock_events (y : Sys) (u : Nat) (f : Block → Block) : (y.modBlock u f).events = y.events := rfl
@[simp] theorem Sys.modBlock_leases (y : Sys) (u : Nat) (f : Block → Block) : (y.modBlock u f).leases = y.leases := rfl
@[simp] theorem Sys.modBlock_due (y : Sys) (u : Nat) (f : Block → Block) : (y.modBlock u f).due = y.due := rfl
@[simp] theorem Sys.modBlock_domains (y : Sys) (u : Nat) (f : Block → Block) : (y.modBlock u f).domains = y.domains := rfl
@[simp] theorem Sys.modBlock_ticketLines (y : Sys) (u : Nat) (f : Block → Block) : (y.modBlock u f).ticketLines = y.ticketLines := rfl
@[simp] theorem Sys.modBlock_accBad (y : Sys) (u : Nat) (f : Block → Block) : (y.modBlock u f).accBad = y.accBad := rfl
@[simp] theorem Sys.modBlock_tlb (y : Sys) (u : Nat) (f : Block → Block) : (y.modBlock u f).tlb = y.tlb := rfl
@[simp] theorem Sys.modBlock_nested (y : Sys) (u : Nat) (f : Block → Block) : (y.modBlock u f).nested = y.nested := rfl
@[simp] theorem Sys.modBlock_walkFaults (y : Sys) (u : Nat) (f : Block → Block) : (y.modBlock u f).walkFaults = y.walkFaults := rfl
@[simp] theorem Sys.modBlock_pins (y : Sys) (u : Nat) (f : Block → Block) : (y.modBlock u f).pins = y.pins := rfl
@[simp] theorem Sys.modBlock_sunk (y : Sys) (u : Nat) (f : Block → Block) : (y.modBlock u f).sunk = y.sunk := rfl

@[simp] theorem Sys.modCmd_turns (y : Sys) (h : Nat) (f : Cmd → Cmd) : (y.modCmd h f).turns = y.turns := rfl
@[simp] theorem Sys.modCmd_ns (y : Sys) (h : Nat) (f : Cmd → Cmd) : (y.modCmd h f).ns = y.ns := rfl
@[simp] theorem Sys.modCmd_resetStep (y : Sys) (h : Nat) (f : Cmd → Cmd) : (y.modCmd h f).resetStep = y.resetStep := rfl
@[simp] theorem Sys.modCmd_poweredDown (y : Sys) (h : Nat) (f : Cmd → Cmd) : (y.modCmd h f).poweredDown = y.poweredDown := rfl
@[simp] theorem Sys.modCmd_aligned (y : Sys) (h : Nat) (f : Cmd → Cmd) : (y.modCmd h f).aligned = y.aligned := rfl
@[simp] theorem Sys.modCmd_wide (y : Sys) (h : Nat) (f : Cmd → Cmd) : (y.modCmd h f).wide = y.wide := rfl
@[simp] theorem Sys.modCmd_timeofs (y : Sys) (h : Nat) (f : Cmd → Cmd) : (y.modCmd h f).timeofs = y.timeofs := rfl
@[simp] theorem Sys.modCmd_ticklen (y : Sys) (h : Nat) (f : Cmd → Cmd) : (y.modCmd h f).ticklen = y.ticklen := rfl
@[simp] theorem Sys.modCmd_firstAligned (y : Sys) (h : Nat) (f : Cmd → Cmd) : (y.modCmd h f).firstAligned = y.firstAligned := rfl
@[simp] theorem Sys.modCmd_slew (y : Sys) (h : Nat) (f : Cmd → Cmd) : (y.modCmd h f).slew = y.slew := rfl
@[simp] theorem Sys.modCmd_slewAcc (y : Sys) (h : Nat) (f : Cmd → Cmd) : (y.modCmd h f).slewAcc = y.slewAcc := rfl
@[simp] theorem Sys.modCmd_lastExchange (y : Sys) (h : Nat) (f : Cmd → Cmd) : (y.modCmd h f).lastExchange = y.lastExchange := rfl
@[simp] theorem Sys.modCmd_reference (y : Sys) (h : Nat) (f : Cmd → Cmd) : (y.modCmd h f).reference = y.reference := rfl
@[simp] theorem Sys.modCmd_launched (y : Sys) (h : Nat) (f : Cmd → Cmd) : (y.modCmd h f).launched = y.launched := rfl
@[simp] theorem Sys.modCmd_persistent (y : Sys) (h : Nat) (f : Cmd → Cmd) : (y.modCmd h f).persistent = y.persistent := rfl
@[simp] theorem Sys.modCmd_coolantFault (y : Sys) (h : Nat) (f : Cmd → Cmd) : (y.modCmd h f).coolantFault = y.coolantFault := rfl
@[simp] theorem Sys.modCmd_wear (y : Sys) (h : Nat) (f : Cmd → Cmd) : (y.modCmd h f).wear = y.wear := rfl
@[simp] theorem Sys.modCmd_lds (y : Sys) (h : Nat) (f : Cmd → Cmd) : (y.modCmd h f).lds = y.lds := rfl
@[simp] theorem Sys.modCmd_ideKeys (y : Sys) (h : Nat) (f : Cmd → Cmd) : (y.modCmd h f).ideKeys = y.ideKeys := rfl
@[simp] theorem Sys.modCmd_eccCorrectable (y : Sys) (h : Nat) (f : Cmd → Cmd) : (y.modCmd h f).eccCorrectable = y.eccCorrectable := rfl
@[simp] theorem Sys.modCmd_corrected (y : Sys) (h : Nat) (f : Cmd → Cmd) : (y.modCmd h f).corrected = y.corrected := rfl
@[simp] theorem Sys.modCmd_portLists (y : Sys) (h : Nat) (f : Cmd → Cmd) : (y.modCmd h f).portLists = y.portLists := rfl
@[simp] theorem Sys.modCmd_direct (y : Sys) (h : Nat) (f : Cmd → Cmd) : (y.modCmd h f).direct = y.direct := rfl
@[simp] theorem Sys.modCmd_heldO (y : Sys) (h : Nat) (f : Cmd → Cmd) : (y.modCmd h f).heldO = y.heldO := rfl
@[simp] theorem Sys.modCmd_adopted (y : Sys) (h : Nat) (f : Cmd → Cmd) : (y.modCmd h f).adopted = y.adopted := rfl
@[simp] theorem Sys.modCmd_fw (y : Sys) (h : Nat) (f : Cmd → Cmd) : (y.modCmd h f).fw = y.fw := rfl
@[simp] theorem Sys.modCmd_spdm (y : Sys) (h : Nat) (f : Cmd → Cmd) : (y.modCmd h f).spdm = y.spdm := rfl
@[simp] theorem Sys.modCmd_answers (y : Sys) (h : Nat) (f : Cmd → Cmd) : (y.modCmd h f).answers = y.answers := rfl
@[simp] theorem Sys.modCmd_hostWrites (y : Sys) (h : Nat) (f : Cmd → Cmd) : (y.modCmd h f).hostWrites = y.hostWrites := rfl
@[simp] theorem Sys.modCmd_cxl (y : Sys) (h : Nat) (f : Cmd → Cmd) : (y.modCmd h f).cxl = y.cxl := rfl
@[simp] theorem Sys.modCmd_posted (y : Sys) (h : Nat) (f : Cmd → Cmd) : (y.modCmd h f).posted = y.posted := rfl
@[simp] theorem Sys.modCmd_lastWindow (y : Sys) (h : Nat) (f : Cmd → Cmd) : (y.modCmd h f).lastWindow = y.lastWindow := rfl
@[simp] theorem Sys.modCmd_remapping (y : Sys) (h : Nat) (f : Cmd → Cmd) : (y.modCmd h f).remapping = y.remapping := rfl
@[simp] theorem Sys.modCmd_events (y : Sys) (h : Nat) (f : Cmd → Cmd) : (y.modCmd h f).events = y.events := rfl
@[simp] theorem Sys.modCmd_leases (y : Sys) (h : Nat) (f : Cmd → Cmd) : (y.modCmd h f).leases = y.leases := rfl
@[simp] theorem Sys.modCmd_due (y : Sys) (h : Nat) (f : Cmd → Cmd) : (y.modCmd h f).due = y.due := rfl
@[simp] theorem Sys.modCmd_domains (y : Sys) (h : Nat) (f : Cmd → Cmd) : (y.modCmd h f).domains = y.domains := rfl
@[simp] theorem Sys.modCmd_ticketLines (y : Sys) (h : Nat) (f : Cmd → Cmd) : (y.modCmd h f).ticketLines = y.ticketLines := rfl
@[simp] theorem Sys.modCmd_accBad (y : Sys) (h : Nat) (f : Cmd → Cmd) : (y.modCmd h f).accBad = y.accBad := rfl
@[simp] theorem Sys.modCmd_tlb (y : Sys) (h : Nat) (f : Cmd → Cmd) : (y.modCmd h f).tlb = y.tlb := rfl
@[simp] theorem Sys.modCmd_nested (y : Sys) (h : Nat) (f : Cmd → Cmd) : (y.modCmd h f).nested = y.nested := rfl
@[simp] theorem Sys.modCmd_walkFaults (y : Sys) (h : Nat) (f : Cmd → Cmd) : (y.modCmd h f).walkFaults = y.walkFaults := rfl
@[simp] theorem Sys.modCmd_pins (y : Sys) (h : Nat) (f : Cmd → Cmd) : (y.modCmd h f).pins = y.pins := rfl
@[simp] theorem Sys.modCmd_sunk (y : Sys) (h : Nat) (f : Cmd → Cmd) : (y.modCmd h f).sunk = y.sunk := rfl

@[simp] theorem Sys.modAccess_turns (y : Sys) (i : Nat) (f : Access → Access) : (y.modAccess i f).turns = y.turns := rfl
@[simp] theorem Sys.modAccess_ns (y : Sys) (i : Nat) (f : Access → Access) : (y.modAccess i f).ns = y.ns := rfl
@[simp] theorem Sys.modAccess_resetStep (y : Sys) (i : Nat) (f : Access → Access) : (y.modAccess i f).resetStep = y.resetStep := rfl
@[simp] theorem Sys.modAccess_poweredDown (y : Sys) (i : Nat) (f : Access → Access) : (y.modAccess i f).poweredDown = y.poweredDown := rfl
@[simp] theorem Sys.modAccess_aligned (y : Sys) (i : Nat) (f : Access → Access) : (y.modAccess i f).aligned = y.aligned := rfl
@[simp] theorem Sys.modAccess_wide (y : Sys) (i : Nat) (f : Access → Access) : (y.modAccess i f).wide = y.wide := rfl
@[simp] theorem Sys.modAccess_timeofs (y : Sys) (i : Nat) (f : Access → Access) : (y.modAccess i f).timeofs = y.timeofs := rfl
@[simp] theorem Sys.modAccess_ticklen (y : Sys) (i : Nat) (f : Access → Access) : (y.modAccess i f).ticklen = y.ticklen := rfl
@[simp] theorem Sys.modAccess_firstAligned (y : Sys) (i : Nat) (f : Access → Access) : (y.modAccess i f).firstAligned = y.firstAligned := rfl
@[simp] theorem Sys.modAccess_slew (y : Sys) (i : Nat) (f : Access → Access) : (y.modAccess i f).slew = y.slew := rfl
@[simp] theorem Sys.modAccess_slewAcc (y : Sys) (i : Nat) (f : Access → Access) : (y.modAccess i f).slewAcc = y.slewAcc := rfl
@[simp] theorem Sys.modAccess_lastExchange (y : Sys) (i : Nat) (f : Access → Access) : (y.modAccess i f).lastExchange = y.lastExchange := rfl
@[simp] theorem Sys.modAccess_reference (y : Sys) (i : Nat) (f : Access → Access) : (y.modAccess i f).reference = y.reference := rfl
@[simp] theorem Sys.modAccess_launched (y : Sys) (i : Nat) (f : Access → Access) : (y.modAccess i f).launched = y.launched := rfl
@[simp] theorem Sys.modAccess_persistent (y : Sys) (i : Nat) (f : Access → Access) : (y.modAccess i f).persistent = y.persistent := rfl
@[simp] theorem Sys.modAccess_coolantFault (y : Sys) (i : Nat) (f : Access → Access) : (y.modAccess i f).coolantFault = y.coolantFault := rfl
@[simp] theorem Sys.modAccess_wear (y : Sys) (i : Nat) (f : Access → Access) : (y.modAccess i f).wear = y.wear := rfl
@[simp] theorem Sys.modAccess_lds (y : Sys) (i : Nat) (f : Access → Access) : (y.modAccess i f).lds = y.lds := rfl
@[simp] theorem Sys.modAccess_ideKeys (y : Sys) (i : Nat) (f : Access → Access) : (y.modAccess i f).ideKeys = y.ideKeys := rfl
@[simp] theorem Sys.modAccess_eccCorrectable (y : Sys) (i : Nat) (f : Access → Access) : (y.modAccess i f).eccCorrectable = y.eccCorrectable := rfl
@[simp] theorem Sys.modAccess_corrected (y : Sys) (i : Nat) (f : Access → Access) : (y.modAccess i f).corrected = y.corrected := rfl
@[simp] theorem Sys.modAccess_portLists (y : Sys) (i : Nat) (f : Access → Access) : (y.modAccess i f).portLists = y.portLists := rfl
@[simp] theorem Sys.modAccess_direct (y : Sys) (i : Nat) (f : Access → Access) : (y.modAccess i f).direct = y.direct := rfl
@[simp] theorem Sys.modAccess_heldO (y : Sys) (i : Nat) (f : Access → Access) : (y.modAccess i f).heldO = y.heldO := rfl
@[simp] theorem Sys.modAccess_adopted (y : Sys) (i : Nat) (f : Access → Access) : (y.modAccess i f).adopted = y.adopted := rfl
@[simp] theorem Sys.modAccess_fw (y : Sys) (i : Nat) (f : Access → Access) : (y.modAccess i f).fw = y.fw := rfl
@[simp] theorem Sys.modAccess_spdm (y : Sys) (i : Nat) (f : Access → Access) : (y.modAccess i f).spdm = y.spdm := rfl
@[simp] theorem Sys.modAccess_answers (y : Sys) (i : Nat) (f : Access → Access) : (y.modAccess i f).answers = y.answers := rfl
@[simp] theorem Sys.modAccess_hostWrites (y : Sys) (i : Nat) (f : Access → Access) : (y.modAccess i f).hostWrites = y.hostWrites := rfl
@[simp] theorem Sys.modAccess_cxl (y : Sys) (i : Nat) (f : Access → Access) : (y.modAccess i f).cxl = y.cxl := rfl
@[simp] theorem Sys.modAccess_posted (y : Sys) (i : Nat) (f : Access → Access) : (y.modAccess i f).posted = y.posted := rfl
@[simp] theorem Sys.modAccess_lastWindow (y : Sys) (i : Nat) (f : Access → Access) : (y.modAccess i f).lastWindow = y.lastWindow := rfl
@[simp] theorem Sys.modAccess_remapping (y : Sys) (i : Nat) (f : Access → Access) : (y.modAccess i f).remapping = y.remapping := rfl
@[simp] theorem Sys.modAccess_events (y : Sys) (i : Nat) (f : Access → Access) : (y.modAccess i f).events = y.events := rfl
@[simp] theorem Sys.modAccess_leases (y : Sys) (i : Nat) (f : Access → Access) : (y.modAccess i f).leases = y.leases := rfl
@[simp] theorem Sys.modAccess_due (y : Sys) (i : Nat) (f : Access → Access) : (y.modAccess i f).due = y.due := rfl
@[simp] theorem Sys.modAccess_domains (y : Sys) (i : Nat) (f : Access → Access) : (y.modAccess i f).domains = y.domains := rfl
@[simp] theorem Sys.modAccess_ticketLines (y : Sys) (i : Nat) (f : Access → Access) : (y.modAccess i f).ticketLines = y.ticketLines := rfl
@[simp] theorem Sys.modAccess_accBad (y : Sys) (i : Nat) (f : Access → Access) : (y.modAccess i f).accBad = y.accBad := rfl
@[simp] theorem Sys.modAccess_tlb (y : Sys) (i : Nat) (f : Access → Access) : (y.modAccess i f).tlb = y.tlb := rfl
@[simp] theorem Sys.modAccess_nested (y : Sys) (i : Nat) (f : Access → Access) : (y.modAccess i f).nested = y.nested := rfl
@[simp] theorem Sys.modAccess_walkFaults (y : Sys) (i : Nat) (f : Access → Access) : (y.modAccess i f).walkFaults = y.walkFaults := rfl
@[simp] theorem Sys.modAccess_pins (y : Sys) (i : Nat) (f : Access → Access) : (y.modAccess i f).pins = y.pins := rfl
@[simp] theorem Sys.modAccess_sunk (y : Sys) (i : Nat) (f : Access → Access) : (y.modAccess i f).sunk = y.sunk := rfl

@[simp] theorem Sys.modHostCmd_turns (y : Sys) (u : Nat) (f : HostCmd → HostCmd) : (y.modHostCmd u f).turns = y.turns := rfl
@[simp] theorem Sys.modHostCmd_ns (y : Sys) (u : Nat) (f : HostCmd → HostCmd) : (y.modHostCmd u f).ns = y.ns := rfl
@[simp] theorem Sys.modHostCmd_resetStep (y : Sys) (u : Nat) (f : HostCmd → HostCmd) : (y.modHostCmd u f).resetStep = y.resetStep := rfl
@[simp] theorem Sys.modHostCmd_poweredDown (y : Sys) (u : Nat) (f : HostCmd → HostCmd) : (y.modHostCmd u f).poweredDown = y.poweredDown := rfl
@[simp] theorem Sys.modHostCmd_aligned (y : Sys) (u : Nat) (f : HostCmd → HostCmd) : (y.modHostCmd u f).aligned = y.aligned := rfl
@[simp] theorem Sys.modHostCmd_wide (y : Sys) (u : Nat) (f : HostCmd → HostCmd) : (y.modHostCmd u f).wide = y.wide := rfl
@[simp] theorem Sys.modHostCmd_timeofs (y : Sys) (u : Nat) (f : HostCmd → HostCmd) : (y.modHostCmd u f).timeofs = y.timeofs := rfl
@[simp] theorem Sys.modHostCmd_ticklen (y : Sys) (u : Nat) (f : HostCmd → HostCmd) : (y.modHostCmd u f).ticklen = y.ticklen := rfl
@[simp] theorem Sys.modHostCmd_firstAligned (y : Sys) (u : Nat) (f : HostCmd → HostCmd) : (y.modHostCmd u f).firstAligned = y.firstAligned := rfl
@[simp] theorem Sys.modHostCmd_slew (y : Sys) (u : Nat) (f : HostCmd → HostCmd) : (y.modHostCmd u f).slew = y.slew := rfl
@[simp] theorem Sys.modHostCmd_slewAcc (y : Sys) (u : Nat) (f : HostCmd → HostCmd) : (y.modHostCmd u f).slewAcc = y.slewAcc := rfl
@[simp] theorem Sys.modHostCmd_lastExchange (y : Sys) (u : Nat) (f : HostCmd → HostCmd) : (y.modHostCmd u f).lastExchange = y.lastExchange := rfl
@[simp] theorem Sys.modHostCmd_reference (y : Sys) (u : Nat) (f : HostCmd → HostCmd) : (y.modHostCmd u f).reference = y.reference := rfl
@[simp] theorem Sys.modHostCmd_launched (y : Sys) (u : Nat) (f : HostCmd → HostCmd) : (y.modHostCmd u f).launched = y.launched := rfl
@[simp] theorem Sys.modHostCmd_persistent (y : Sys) (u : Nat) (f : HostCmd → HostCmd) : (y.modHostCmd u f).persistent = y.persistent := rfl
@[simp] theorem Sys.modHostCmd_coolantFault (y : Sys) (u : Nat) (f : HostCmd → HostCmd) : (y.modHostCmd u f).coolantFault = y.coolantFault := rfl
@[simp] theorem Sys.modHostCmd_wear (y : Sys) (u : Nat) (f : HostCmd → HostCmd) : (y.modHostCmd u f).wear = y.wear := rfl
@[simp] theorem Sys.modHostCmd_lds (y : Sys) (u : Nat) (f : HostCmd → HostCmd) : (y.modHostCmd u f).lds = y.lds := rfl
@[simp] theorem Sys.modHostCmd_ideKeys (y : Sys) (u : Nat) (f : HostCmd → HostCmd) : (y.modHostCmd u f).ideKeys = y.ideKeys := rfl
@[simp] theorem Sys.modHostCmd_eccCorrectable (y : Sys) (u : Nat) (f : HostCmd → HostCmd) : (y.modHostCmd u f).eccCorrectable = y.eccCorrectable := rfl
@[simp] theorem Sys.modHostCmd_corrected (y : Sys) (u : Nat) (f : HostCmd → HostCmd) : (y.modHostCmd u f).corrected = y.corrected := rfl
@[simp] theorem Sys.modHostCmd_portLists (y : Sys) (u : Nat) (f : HostCmd → HostCmd) : (y.modHostCmd u f).portLists = y.portLists := rfl
@[simp] theorem Sys.modHostCmd_direct (y : Sys) (u : Nat) (f : HostCmd → HostCmd) : (y.modHostCmd u f).direct = y.direct := rfl
@[simp] theorem Sys.modHostCmd_heldO (y : Sys) (u : Nat) (f : HostCmd → HostCmd) : (y.modHostCmd u f).heldO = y.heldO := rfl
@[simp] theorem Sys.modHostCmd_adopted (y : Sys) (u : Nat) (f : HostCmd → HostCmd) : (y.modHostCmd u f).adopted = y.adopted := rfl
@[simp] theorem Sys.modHostCmd_fw (y : Sys) (u : Nat) (f : HostCmd → HostCmd) : (y.modHostCmd u f).fw = y.fw := rfl
@[simp] theorem Sys.modHostCmd_spdm (y : Sys) (u : Nat) (f : HostCmd → HostCmd) : (y.modHostCmd u f).spdm = y.spdm := rfl
@[simp] theorem Sys.modHostCmd_answers (y : Sys) (u : Nat) (f : HostCmd → HostCmd) : (y.modHostCmd u f).answers = y.answers := rfl
@[simp] theorem Sys.modHostCmd_hostWrites (y : Sys) (u : Nat) (f : HostCmd → HostCmd) : (y.modHostCmd u f).hostWrites = y.hostWrites := rfl
@[simp] theorem Sys.modHostCmd_cxl (y : Sys) (u : Nat) (f : HostCmd → HostCmd) : (y.modHostCmd u f).cxl = y.cxl := rfl
@[simp] theorem Sys.modHostCmd_posted (y : Sys) (u : Nat) (f : HostCmd → HostCmd) : (y.modHostCmd u f).posted = y.posted := rfl
@[simp] theorem Sys.modHostCmd_lastWindow (y : Sys) (u : Nat) (f : HostCmd → HostCmd) : (y.modHostCmd u f).lastWindow = y.lastWindow := rfl
@[simp] theorem Sys.modHostCmd_remapping (y : Sys) (u : Nat) (f : HostCmd → HostCmd) : (y.modHostCmd u f).remapping = y.remapping := rfl
@[simp] theorem Sys.modHostCmd_events (y : Sys) (u : Nat) (f : HostCmd → HostCmd) : (y.modHostCmd u f).events = y.events := rfl
@[simp] theorem Sys.modHostCmd_leases (y : Sys) (u : Nat) (f : HostCmd → HostCmd) : (y.modHostCmd u f).leases = y.leases := rfl
@[simp] theorem Sys.modHostCmd_due (y : Sys) (u : Nat) (f : HostCmd → HostCmd) : (y.modHostCmd u f).due = y.due := rfl
@[simp] theorem Sys.modHostCmd_domains (y : Sys) (u : Nat) (f : HostCmd → HostCmd) : (y.modHostCmd u f).domains = y.domains := rfl
@[simp] theorem Sys.modHostCmd_ticketLines (y : Sys) (u : Nat) (f : HostCmd → HostCmd) : (y.modHostCmd u f).ticketLines = y.ticketLines := rfl
@[simp] theorem Sys.modHostCmd_accBad (y : Sys) (u : Nat) (f : HostCmd → HostCmd) : (y.modHostCmd u f).accBad = y.accBad := rfl
@[simp] theorem Sys.modHostCmd_tlb (y : Sys) (u : Nat) (f : HostCmd → HostCmd) : (y.modHostCmd u f).tlb = y.tlb := rfl
@[simp] theorem Sys.modHostCmd_nested (y : Sys) (u : Nat) (f : HostCmd → HostCmd) : (y.modHostCmd u f).nested = y.nested := rfl
@[simp] theorem Sys.modHostCmd_walkFaults (y : Sys) (u : Nat) (f : HostCmd → HostCmd) : (y.modHostCmd u f).walkFaults = y.walkFaults := rfl
@[simp] theorem Sys.modHostCmd_pins (y : Sys) (u : Nat) (f : HostCmd → HostCmd) : (y.modHostCmd u f).pins = y.pins := rfl
@[simp] theorem Sys.modHostCmd_sunk (y : Sys) (u : Nat) (f : HostCmd → HostCmd) : (y.modHostCmd u f).sunk = y.sunk := rfl

@[simp] theorem Sys.settle_turns (y : Sys) (h : Nat) : (y.settle h).turns = y.turns := rfl
@[simp] theorem Sys.settle_ns (y : Sys) (h : Nat) : (y.settle h).ns = y.ns := rfl
@[simp] theorem Sys.settle_resetStep (y : Sys) (h : Nat) : (y.settle h).resetStep = y.resetStep := rfl
@[simp] theorem Sys.settle_poweredDown (y : Sys) (h : Nat) : (y.settle h).poweredDown = y.poweredDown := rfl
@[simp] theorem Sys.settle_aligned (y : Sys) (h : Nat) : (y.settle h).aligned = y.aligned := rfl
@[simp] theorem Sys.settle_wide (y : Sys) (h : Nat) : (y.settle h).wide = y.wide := rfl
@[simp] theorem Sys.settle_timeofs (y : Sys) (h : Nat) : (y.settle h).timeofs = y.timeofs := rfl
@[simp] theorem Sys.settle_ticklen (y : Sys) (h : Nat) : (y.settle h).ticklen = y.ticklen := rfl
@[simp] theorem Sys.settle_firstAligned (y : Sys) (h : Nat) : (y.settle h).firstAligned = y.firstAligned := rfl
@[simp] theorem Sys.settle_slew (y : Sys) (h : Nat) : (y.settle h).slew = y.slew := rfl
@[simp] theorem Sys.settle_slewAcc (y : Sys) (h : Nat) : (y.settle h).slewAcc = y.slewAcc := rfl
@[simp] theorem Sys.settle_lastExchange (y : Sys) (h : Nat) : (y.settle h).lastExchange = y.lastExchange := rfl
@[simp] theorem Sys.settle_reference (y : Sys) (h : Nat) : (y.settle h).reference = y.reference := rfl
@[simp] theorem Sys.settle_launched (y : Sys) (h : Nat) : (y.settle h).launched = y.launched := rfl
@[simp] theorem Sys.settle_persistent (y : Sys) (h : Nat) : (y.settle h).persistent = y.persistent := rfl
@[simp] theorem Sys.settle_coolantFault (y : Sys) (h : Nat) : (y.settle h).coolantFault = y.coolantFault := rfl
@[simp] theorem Sys.settle_wear (y : Sys) (h : Nat) : (y.settle h).wear = y.wear := rfl
@[simp] theorem Sys.settle_lds (y : Sys) (h : Nat) : (y.settle h).lds = y.lds := rfl
@[simp] theorem Sys.settle_ideKeys (y : Sys) (h : Nat) : (y.settle h).ideKeys = y.ideKeys := rfl
@[simp] theorem Sys.settle_eccCorrectable (y : Sys) (h : Nat) : (y.settle h).eccCorrectable = y.eccCorrectable := rfl
@[simp] theorem Sys.settle_corrected (y : Sys) (h : Nat) : (y.settle h).corrected = y.corrected := rfl
@[simp] theorem Sys.settle_portLists (y : Sys) (h : Nat) : (y.settle h).portLists = y.portLists := rfl
@[simp] theorem Sys.settle_direct (y : Sys) (h : Nat) : (y.settle h).direct = y.direct := rfl
@[simp] theorem Sys.settle_heldO (y : Sys) (h : Nat) : (y.settle h).heldO = y.heldO := rfl
@[simp] theorem Sys.settle_adopted (y : Sys) (h : Nat) : (y.settle h).adopted = y.adopted := rfl
@[simp] theorem Sys.settle_fw (y : Sys) (h : Nat) : (y.settle h).fw = y.fw := rfl
@[simp] theorem Sys.settle_spdm (y : Sys) (h : Nat) : (y.settle h).spdm = y.spdm := rfl
@[simp] theorem Sys.settle_answers (y : Sys) (h : Nat) : (y.settle h).answers = y.answers := rfl
@[simp] theorem Sys.settle_hostWrites (y : Sys) (h : Nat) : (y.settle h).hostWrites = y.hostWrites := rfl
@[simp] theorem Sys.settle_cxl (y : Sys) (h : Nat) : (y.settle h).cxl = y.cxl := rfl
@[simp] theorem Sys.settle_posted (y : Sys) (h : Nat) : (y.settle h).posted = y.posted := rfl
@[simp] theorem Sys.settle_lastWindow (y : Sys) (h : Nat) : (y.settle h).lastWindow = y.lastWindow := rfl
@[simp] theorem Sys.settle_remapping (y : Sys) (h : Nat) : (y.settle h).remapping = y.remapping := rfl
@[simp] theorem Sys.settle_events (y : Sys) (h : Nat) : (y.settle h).events = y.events := rfl
@[simp] theorem Sys.settle_leases (y : Sys) (h : Nat) : (y.settle h).leases = y.leases := rfl
@[simp] theorem Sys.settle_due (y : Sys) (h : Nat) : (y.settle h).due = y.due := rfl
@[simp] theorem Sys.settle_domains (y : Sys) (h : Nat) : (y.settle h).domains = y.domains := rfl
@[simp] theorem Sys.settle_ticketLines (y : Sys) (h : Nat) : (y.settle h).ticketLines = y.ticketLines := rfl
@[simp] theorem Sys.settle_accBad (y : Sys) (h : Nat) : (y.settle h).accBad = y.accBad := rfl
@[simp] theorem Sys.settle_tlb (y : Sys) (h : Nat) : (y.settle h).tlb = y.tlb := rfl
@[simp] theorem Sys.settle_nested (y : Sys) (h : Nat) : (y.settle h).nested = y.nested := rfl
@[simp] theorem Sys.settle_walkFaults (y : Sys) (h : Nat) : (y.settle h).walkFaults = y.walkFaults := rfl
@[simp] theorem Sys.settle_pins (y : Sys) (h : Nat) : (y.settle h).pins = y.pins := rfl
@[simp] theorem Sys.settle_sunk (y : Sys) (h : Nat) : (y.settle h).sunk = y.sunk := rfl

end Sys2Proof.Machine
end

