-- ==== Sys2Proof/Laws/Frontier.lean ====
section
/-!
SUPPORT. What settling a frontier and moving an entry can do: merges and releases keep every lane at the PC it has reached, and change
nothing of the group but its frontier and its pending marks (R105, R108-R110).
-/
namespace Sys2Proof.Machine

/-! ### Merging keeps lanes where they are -/

/-- The entry stands at no RJOIN. -/
def Entry.free (e : Entry) : Prop := ∀ s, e.st ≠ .join s

/-- `b` holds the lanes of `a` at its PC, and stands at no RJOIN if `a` does not. -/
structure Entry.Over (a b : Entry) : Prop where
  pc : b.pc = a.pc
  lanes : ∀ k, a.mask.getLsbD k = true → b.mask.getLsbD k = true
  free : a.free → b.free

theorem Entry.Over.refl (a : Entry) : a.Over a := ⟨rfl, fun _ h => h, fun h => h⟩

theorem Entry.Over.trans {a b c : Entry} (h : a.Over b) (k : b.Over c) : a.Over c :=
  ⟨k.pc.trans h.pc, fun l x => k.lanes l (h.lanes l x), fun x => k.free (h.free x)⟩

theorem Entry.merge_over_left (x e : Entry) : x.Over (x.merge e) :=
  ⟨rfl, fun k h => by simp [Entry.merge, h], fun h => h⟩

theorem Entry.merge_over_right {x e : Entry} (h : e.merges x = true) : e.Over (x.merge e) := by
  simp only [Entry.merges, Bool.and_eq_true, beq_iff_eq] at h
  refine ⟨h.1.symm, fun k hk => by simp [Entry.merge, hk], fun hf s hs => ?_⟩
  have hx : x.st = .join s := hs
  rw [hx] at h
  cases he : e.st with
  | join t => exact hf t he
  | _ => simp [he] at h

theorem insertEntry_over (b : LaneMask) (l : List Entry) (e z : Entry) (hz : z = e ∨ z ∈ l) :
    ∃ w ∈ insertEntry b e l, z.Over w := by
  induction l generalizing e z with
  | nil =>
    rcases hz with rfl | hz
    · exact ⟨z, by simp [insertEntry], .refl z⟩
    · simp at hz
  | cons x r ih =>
    simp only [insertEntry]
    split
    · rename_i h
      have hm : e.merges x = true := by simp only [Bool.and_eq_true] at h; exact h.2
      rcases hz with rfl | hz
      · obtain ⟨w, hw, ho⟩ := ih (x.merge z) (x.merge z) (.inl rfl)
        exact ⟨w, hw, (Entry.merge_over_right hm).trans ho⟩
      · rcases List.mem_cons.1 hz with rfl | hz
        · obtain ⟨w, hw, ho⟩ := ih (z.merge e) (z.merge e) (.inl rfl)
          exact ⟨w, hw, (Entry.merge_over_left z e).trans ho⟩
        · exact ih _ z (.inr hz)
    · rcases hz with rfl | hz
      · obtain ⟨w, hw, ho⟩ := ih z z (.inl rfl)
        exact ⟨w, List.mem_cons_of_mem _ hw, ho⟩
      · rcases List.mem_cons.1 hz with rfl | hz
        · exact ⟨z, List.mem_cons_self .., .refl z⟩
        · obtain ⟨w, hw, ho⟩ := ih e z (.inr hz)
          exact ⟨w, List.mem_cons_of_mem _ hw, ho⟩

theorem foldl_insertEntry_over (b : LaneMask) (f acc : List Entry) (z : Entry) (hz : z ∈ acc ∨ z ∈ f) :
    ∃ w ∈ f.foldl (fun acc e => insertEntry b e acc) acc, z.Over w := by
  induction f generalizing acc z with
  | nil => exact ⟨z, by simpa using hz, .refl z⟩
  | cons e r ih =>
    simp only [List.foldl_cons]
    have h1 : z = e ∨ z ∈ acc → ∃ w ∈ insertEntry b e acc, z.Over w := insertEntry_over b acc e z
    rcases hz with hz | hz
    · obtain ⟨w, hw, ho⟩ := h1 (.inr hz)
      obtain ⟨u, hu, hv⟩ := ih _ w (.inl hw)
      exact ⟨u, hu, ho.trans hv⟩
    · rcases List.mem_cons.1 hz with rfl | hz
      · obtain ⟨w, hw, ho⟩ := h1 (.inl rfl)
        obtain ⟨u, hu, hv⟩ := ih _ w (.inl hw)
        exact ⟨u, hu, ho.trans hv⟩
      · exact ih _ z (.inr hz)

theorem mergeAll_over (b : LaneMask) (f : List Entry) (z : Entry) (hz : z ∈ f) : ∃ w ∈ mergeAll b f, z.Over w :=
  foldl_insertEntry_over b f [] z (.inr hz)

theorem mem_releaseJoins (wait : LaneMask) (f : List Entry) (z : Entry) (hz : z ∈ f) (hf : z.free) : z ∈ releaseJoins wait f := by
  simp only [releaseJoins, List.mem_flatMap]
  refine ⟨z, hz, ?_⟩
  cases h : z.st with
  | join s => exact absurd h (hf s)
  | _ => simp

/-- Settling keeps every lane that stands at no RJOIN where it is. -/
theorem Group.settle_over (g : Group) (wait blocked : LaneMask) (z : Entry) (hz : z ∈ g.frontier) (hm : z.mask ≠ 0) (hf : z.free) :
    ∃ w ∈ (g.settle wait blocked).frontier, z.Over w := by
  have h0 : z ∈ g.frontier.filter (fun e => e.mask != 0) := List.mem_filter.2 ⟨hz, by simpa using hm⟩
  obtain ⟨w, hw, ho⟩ := mergeAll_over blocked _ z h0
  have h1 := mem_releaseJoins wait _ w hw (ho.free hf)
  obtain ⟨u, hu, hv⟩ := mergeAll_over blocked _ w h1
  exact ⟨u, hu, ho.trans hv⟩

/-! ### What settling leaves alone -/

theorem passS_rest (r : Regs) (m : LaneMask) : { passS r m with pend := r.pend, pendK := r.pendK } = r := rfl

theorem Group.settle_rest (g : Group) (wait blocked : LaneMask) :
    { g.settle wait blocked with regs := g.regs, frontier := g.frontier } = g := rfl

theorem Group.settle_regs (g : Group) (wait blocked : LaneMask) :
    { (g.settle wait blocked).regs with pend := g.regs.pend, pendK := g.regs.pendK } = g.regs := rfl

theorem Sys.settle_find (y : Sys) (h k : Nat) :
    (y.settle h).group? k = if k = h then (y.group? k).map (fun g => g.settle (g.waitMask (y.awaiting h)) (y.returning g)) else y.group? k :=
  Sys.modGroup_find y h k _ (fun _ => rfl)

/-! ### Only one group changes -/

/-- Nothing but the group of a handle differs. -/
structure OnlyGroup (h : Nat) (y z : Sys) : Prop where
  rest : { z with groups := y.groups } = y
  others : ∀ k, k ≠ h → z.group? k = y.group? k

theorem OnlyGroup.refl (h : Nat) (y : Sys) : OnlyGroup h y y := ⟨rfl, fun _ _ => rfl⟩

theorem OnlyGroup.trans {h : Nat} {x y z : Sys} (a : OnlyGroup h x y) (b : OnlyGroup h y z) : OnlyGroup h x z := by
  refine ⟨?_, fun k hk => (b.others k hk).trans (a.others k hk)⟩
  have e : { z with groups := x.groups } = { { z with groups := y.groups } with groups := x.groups } := rfl
  rw [e, b.rest, a.rest]

theorem onlyGroup_modGroup (y : Sys) (h : Nat) (f : Group → Group) (hf : ∀ g, (f g).handle = g.handle) :
    OnlyGroup h y (y.modGroup h f) :=
  ⟨rfl, fun k hk => by rw [Sys.modGroup_find y h k f hf, if_neg hk]⟩

theorem group?_modGroup {y : Sys} {h : Nat} {f : Group → Group} {g : Group} (hf : ∀ g, (f g).handle = g.handle)
    (hg : y.group? h = some g) : (y.modGroup h f).group? h = some (f g) := by
  rw [Sys.modGroup_find y h h f hf, if_pos rfl, hg]
  rfl

theorem onlyGroup_settle (y : Sys) (h : Nat) : OnlyGroup h y (y.settle h) := onlyGroup_modGroup y h _ (fun _ => rfl)

/-! ### Only one control processor changes -/

/-- Nothing but the control processor of a core differs. -/
structure OnlyCp (c : Nat) (y z : Sys) : Prop where
  rest : { z with cores := y.cores } = y
  others : ∀ d, d ≠ c → z.core d = y.core d
  core : { z.core c with cp := (y.core c).cp } = y.core c

theorem OnlyCp.refl (c : Nat) (y : Sys) : OnlyCp c y y := ⟨rfl, fun _ _ => rfl, rfl⟩

theorem OnlyCp.trans {c : Nat} {x y z : Sys} (a : OnlyCp c x y) (b : OnlyCp c y z) : OnlyCp c x z := by
  refine ⟨?_, fun k hk => (b.others k hk).trans (a.others k hk), ?_⟩
  · have e : { z with cores := x.cores } = { { z with cores := y.cores } with cores := x.cores } := rfl
    rw [e, b.rest, a.rest]
  · have e : { z.core c with cp := (x.core c).cp } = { { z.core c with cp := (y.core c).cp } with cp := (x.core c).cp } := rfl
    rw [e, b.core, a.core]

theorem onlyCp_modCp (y : Sys) (c : Nat) (f : Cp → Cp) : OnlyCp c y (y.modCp c f) := by
  refine ⟨rfl, fun d hd => ?_, ?_⟩
  · rw [Sys.modCp_core, if_neg hd]
  · rw [Sys.modCp_core, if_pos rfl]

/-! ### Moving an entry -/

theorem getLsbD_ne_zero {m : LaneMask} {k : Nat} (h : m.getLsbD k = true) : m ≠ 0 := by
  rintro rfl
  simp at h

/-- The entries that an S splits a Ready entry into hold its lanes at its PC. -/
theorem splitS_over (wait whole : LaneMask) (n : Entry) (k : Nat) (h : n.mask.getLsbD k = true) :
    ∃ w ∈ splitS wait whole n, w.mask.getLsbD k = true ∧ w.pc = n.pc ∧ (n.free → w.free) := by
  unfold splitS
  by_cases h1 : n.mask &&& wait = 0
  · simp only [h1, if_true]
    exact ⟨n, by simp, h, rfl, fun x => x⟩
  · by_cases h2 : n.mask &&& ~~~wait = 0
    · simp only [h1, if_false, h2, if_true]
      refine ⟨_, List.mem_singleton.2 rfl, h, rfl, fun _ s => by simp⟩
    · simp only [h1, h2, if_false]
      by_cases hk : wait.getLsbD k = true
      · refine ⟨_, List.mem_cons_of_mem _ (List.mem_singleton.2 rfl), by simp [h, hk], rfl, fun _ s => by simp⟩
      · refine ⟨_, List.mem_cons_self .., ?_, rfl, fun x => x⟩
        have h32 : k < 32 := by
          rcases Nat.lt_or_ge k 32 with h' | h'
          · exact h'
          · rw [BitVec.getLsbD_of_ge _ _ h'] at h
            exact absurd h (by simp)
        have hk' : wait.getLsbD k = false := by simpa using hk
        rw [BitVec.getLsbD_and, BitVec.getLsbD_not, h, hk']
        simp [h32]

/-- J of the parts of an issuing entry (R109). -/
def partsJ (i : Iss) (d : Desc) (parts : List (LaneMask × Word × EntryState × List FenceHold)) (y : Sys) : LaneMask :=
  if d.s then splitJ (i.g.waitMask (y.awaiting i.g.handle)) i.e.mask
    ((parts.filter (fun p => p.2.2.1.passes)).foldl (fun (m : LaneMask) p => m ||| p.1) 0) i.e.j
  else i.e.j

/-- The entries that a part of the issuing entry becomes. -/
def partEntries (i : Iss) (d : Desc) (parts : List (LaneMask × Word × EntryState × List FenceHold)) (y : Sys)
    (p : LaneMask × Word × EntryState × List FenceHold) : List Entry :=
  let n : Entry :=
  { pc := p.2.1, mask := p.1, j := partsJ i d parts y, st := p.2.2.1, hints := {}, holds := p.2.2.2, delay := i.e.hints.delaySlots }
  if d.s && n.st == .ready then splitS (i.g.waitMask (y.awaiting i.g.handle)) i.e.mask n else [n]

/-- The group with the parts placed, before it settles. -/
def partsGroup (i : Iss) (d : Desc) (parts : List (LaneMask × Word × EntryState × List FenceHold)) (y : Sys) (g : Group) : Group :=
  { g with
    regs := if d.s then passS g.regs i.e.mask else g.regs
    frontier := g.others i.e ++ (parts.filter (fun p => p.1 != 0)).flatMap (partEntries i d parts y) }

theorem place_eq (i : Iss) (d : Desc) (parts : List (LaneMask × Word × EntryState × List FenceHold)) (y : Sys) :
    i.place d parts y = (y.modGroup i.g.handle (partsGroup i d parts y)).settle i.g.handle := rfl

/-- Placing the parts of an entry: only the issuing group changes; of it only the frontier and the pending marks; and every lane of
a part that stands at no RJOIN is at the part's PC. -/
theorem place_group (i : Iss) (d : Desc) (parts : List (LaneMask × Word × EntryState × List FenceHold)) (y : Sys) (g : Group)
    (hg : y.group? i.g.handle = some g) :
    ∃ n, (i.place d parts y).group? i.g.handle = some n ∧ OnlyGroup i.g.handle y (i.place d parts y) ∧
      { n with regs := g.regs, frontier := g.frontier } = g ∧
      { n.regs with pend := g.regs.pend, pendK := g.regs.pendK } = g.regs ∧
      ∀ p ∈ parts, (∀ s, p.2.2.1 ≠ .join s) → ∀ l, p.1.getLsbD l = true → ∃ e ∈ n.frontier, e.mask.getLsbD l = true ∧ e.pc = p.2.1 := by
  rw [place_eq]
  have hh : ∀ g, (partsGroup i d parts y g).handle = g.handle := fun _ => rfl
  refine ⟨(partsGroup i d parts y g).settle
      ((partsGroup i d parts y g).waitMask ((y.modGroup i.g.handle (partsGroup i d parts y)).awaiting i.g.handle))
      ((y.modGroup i.g.handle (partsGroup i d parts y)).returning (partsGroup i d parts y g)), ?_,
    (onlyGroup_modGroup y _ _ hh).trans (onlyGroup_settle _ _), rfl, ?_, ?_⟩
  · rw [Sys.settle_find, if_pos rfl, Sys.modGroup_find _ _ _ _ hh, if_pos rfl, hg]
    rfl
  · unfold Group.settle partsGroup passS
    by_cases hs : d.s = true <;> simp [hs]
  · intro p hp hj l hl
    have hne : p.1 ≠ 0 := getLsbD_ne_zero hl
    obtain ⟨w, hw, h1, h2, h3⟩ : ∃ w ∈ partEntries i d parts y p, w.mask.getLsbD l = true ∧ w.pc = p.2.1 ∧ w.free := by
      unfold partEntries
      dsimp only
      split
      · obtain ⟨w, hw, a, b, c⟩ := splitS_over (i.g.waitMask (y.awaiting i.g.handle)) i.e.mask
          { pc := p.2.1, mask := p.1, j := partsJ i d parts y, st := p.2.2.1, hints := {}, holds := p.2.2.2, delay := i.e.hints.delaySlots } l hl
        exact ⟨w, hw, a, b, c hj⟩
      · exact ⟨_, List.mem_singleton.2 rfl, hl, rfl, hj⟩
    obtain ⟨u, hu, ho⟩ := Group.settle_over (partsGroup i d parts y g)
      ((partsGroup i d parts y g).waitMask ((y.modGroup i.g.handle (partsGroup i d parts y)).awaiting i.g.handle))
      ((y.modGroup i.g.handle (partsGroup i d parts y)).returning (partsGroup i d parts y g)) w
      (List.mem_append.2 (.inr (List.mem_flatMap.2 ⟨p, List.mem_filter.2 ⟨hp, by simpa using hne⟩, hw⟩))) (getLsbD_ne_zero h1) h3
    exact ⟨u, hu, ho.lanes l h1, ho.pc.trans h2⟩

end Sys2Proof.Machine
end

