-- ==== Sys2Proof/Laws/Operands.lean ====
section
/-!
SUPPORT. What an instruction word that only writes registers can do: who issues, the writes, and the move to the next word; then the
two shared meanings `laneWord` and `onceWord` as a whole.
-/
namespace Sys2Proof.Machine

/-! ### The issuer -/

theorem asSeen_eq (g : Group) : ∃ v, g.asSeen = { g with regs := { g.regs with v := v } } := by
  unfold Group.asSeen
  split
  · split
    · exact ⟨_, rfl⟩
    · exact ⟨g.regs.v, rfl⟩
  · exact ⟨g.regs.v, rfl⟩

/-- The issuing group stands in the state; the instruction sees other v registers at most (R111). -/
theorem issuer_of_group {s : State} {i : Iss} (h : issuer s = some i) (hc : i.cp = false) :
    s.sys.group? i.g.handle = some i.standing ∧ { i.g.regs with v := i.stood.v } = i.stood := by
  unfold issuer at h
  split at h
  · cases h
  · cases h
    cases hc
  · rename_i k lane _
    split at h
    · cases h
    · rename_i g hg
      split at h
      · cases h
      · cases h
        have hk : g.handle = k := by
          have := List.find?_some hg
          simpa using this
        rw [← hk] at hg
        obtain ⟨v, hv⟩ := asSeen_eq g
        simp only [Iss.standing, hv]
        exact ⟨hg, trivial⟩

theorem issuer_of_cp {s : State} {i : Iss} (h : issuer s = some i) (hc : i.cp = true) :
    i.c = (s.sys.core i.core).cp ∧ i.e.pc = i.c.pc ∧ i.e.mask = 1 ∧ i.g = blankGroup ∧ i.launch = none := by
  unfold issuer at h
  split at h
  · cases h
  · cases h
    exact ⟨rfl, rfl, rfl, rfl, rfl⟩
  · split at h
    · cases h
    · split at h
      · cases h
      · cases h
        cases hc

theorem issuer_now {s : State} {i : Iss} (h : issuer s = some i) : i.now = s.gtime := by
  unfold issuer at h
  split at h
  · cases h
  · cases h
    rfl
  · split at h
    · cases h
    · split at h
      · cases h
      · cases h
        rfl

theorem wordNext_eq {s : State} {i : Iss} (h : issuer s = some i) (f : Iss → State → Sys) :
    wordNext f s = .next { s with sys := f i s } := by
  simp [wordNext, h]

/-! ### The move to the next word -/

/-- A group's word falls through: only its group changes; of it only registers pending, frontier, window and number; every lane of
the entry is at the next word. -/
theorem fall_group (i : Iss) (d : Desc) (kw : List Nat) (holds : List FenceHold) (y : Sys) (g : Group) (hc : i.cp = false)
    (hg : y.group? i.g.handle = some g) :
    ∃ n, (i.fall d kw holds y).group? i.g.handle = some n ∧ OnlyGroup i.g.handle y (i.fall d kw holds y) ∧
      { n with regs := g.regs, frontier := g.frontier, window := g.window, nextSeq := g.nextSeq } = g ∧
      { n.regs with pend := g.regs.pend, pendK := g.regs.pendK } = g.regs ∧
      ∀ l, i.e.mask.getLsbD l = true → ∃ e ∈ n.frontier, e.mask.getLsbD l = true ∧ e.pc = i.e.pc + 4 := by
  have hf : i.fall d kw holds y = i.place d [(i.e.mask, i.e.pc + 4, .ready, holds)] (i.pushWindow d.mem kw y) := by
    simp [Iss.fall, hc]
  have hp : ∃ p, (i.pushWindow d.mem kw y).group? i.g.handle = some p ∧
      { p with window := g.window, nextSeq := g.nextSeq } = g ∧ OnlyGroup i.g.handle y (i.pushWindow d.mem kw y) := by
    unfold Iss.pushWindow
    exact ⟨_, group?_modGroup (fun _ => rfl) hg, rfl, onlyGroup_modGroup y _ _ (fun _ => rfl)⟩
  obtain ⟨p, h1, h2, h3⟩ := hp
  obtain ⟨n, a, b, c, e, f⟩ := place_group i d [(i.e.mask, i.e.pc + 4, .ready, holds)] (i.pushWindow d.mem kw y) p h1
  have hr : p.regs = g.regs := by have e := congrArg Group.regs h2; exact e
  have hfr : p.frontier = g.frontier := by have e := congrArg Group.frontier h2; exact e
  refine ⟨n, hf ▸ a, hf ▸ h3.trans b, ?_, hr ▸ e, fun l hl => f _ (List.mem_singleton.2 rfl) (by simp) l hl⟩
  have : { { n with regs := p.regs, frontier := p.frontier } with window := g.window, nextSeq := g.nextSeq } = g := by
    rw [c, h2]
  rw [← hr, ← hfr]
  exact this

/-- A control processor's word falls through. -/
theorem fall_cp (i : Iss) (d : Desc) (kw : List Nat) (holds : List FenceHold) (y : Sys) (hc : i.cp = true) :
    i.fall d kw holds y = i.placeCp d (i.e.pc + 4) holds y := by
  simp [Iss.fall, hc]

/-! ### The frame from what changed -/

theorem frame_of_own {s : State} {i : Iss} (hi : issuer s = some i) (hc : i.cp = false) {y : Sys} {n : Group}
    (hn : y.group? i.g.handle = some n) (ho : OnlyGroup i.g.handle s.sys y)
    (hr : { n with regs := i.stood, frontier := i.g.frontier, window := i.g.window, nextSeq := i.g.nextSeq } = i.standing) :
    i.Frame s { s with sys := y } := by
  have hgi : i.groupIn { s with sys := y } = n := by simp [Iss.groupIn, hn]
  have _ := hi
  refine ⟨rfl, fun _ => ho.rest, fun _ => ho.others, fun _ => ?_, ?_, ?_, ?_, ?_⟩
  · rw [hgi]
    exact congrArg (fun g : Group => { g with regs := i.g.regs }) hr
  iterate 4 (intro h; rw [hc] at h; cases h)

theorem frame_of_cp {s : State} {i : Iss} (hi : issuer s = some i) (hc : i.cp = true) {y : Sys} (ho : OnlyCp i.core s.sys y)
    (hr : { (y.core i.core).cp with x := i.c.x, p := i.c.p, fstat := i.c.fstat, pend := i.c.pend, pc := i.c.pc, hints := i.c.hints
                                    holds := i.c.holds, delay := i.c.delay, nextSeq := i.c.nextSeq } = i.c) :
    i.Frame s { s with sys := y } := by
  refine ⟨rfl, ?_, ?_, ?_, fun _ => ho.rest, fun _ => ho.others, fun _ => ?_, fun _ => hr⟩
  · intro h; rw [hc] at h; cases h
  · intro h; rw [hc] at h; cases h
  · intro h; rw [hc] at h; cases h
  · rw [(issuer_of_cp hi hc).1]
    exact ho.core

/-! ### What writes leave in the registers -/

/-- The last write to v[r] of a lane. -/
def Writes.vAt (w : Writes) (l r : Nat) : Option DWord := (w.v.reverse.find? (fun x => x.1 == l && x.2.1 == r)).map (fun x => x.2.2)

/-- The last write to k[r]. -/
def Writes.kAt (w : Writes) (r : Nat) : Option DWord := (w.k.reverse.find? (fun x => x.1 == r)).map Prod.snd

/-- The last write to a predicate of a lane. -/
def Writes.pAt (w : Writes) (l n : Nat) : Option Bool := (w.p.reverse.find? (fun x => x.1 == l && x.2.1 == n)).map (fun x => x.2.2)

/-- All flags of a lane. -/
def Writes.fAt (w : Writes) (l : Nat) : BitVec 5 := (w.f.filter (fun x => x.1 == l)).foldl (fun t x => t ||| x.2) 0

theorem find?_congr_mem {α : Type} {p q : α → Bool} {l : List α} (h : ∀ x ∈ l, p x = q x) : l.find? p = l.find? q := by
  induction l with
  | nil => rfl
  | cons a r ih =>
    simp only [List.find?_cons, h a (List.mem_cons_self ..)]
    rw [ih (fun x hx => h x (List.mem_cons_of_mem _ hx))]

theorem getLsbD_laneBit (l k : Nat) (hl : l < 32) : (laneBit l).getLsbD k = decide (k = l) := by
  unfold laneBit
  rw [BitVec.getLsbD_ofNat, Nat.testBit_two_pow]
  by_cases h : k = l
  · simp [h, hl]
  · have : ¬ l = k := fun e => h e.symm
    simp [h, this]

theorem getLsbD_setLane (m : LaneMask) (l k : Nat) (b : Bool) (hl : l < 32) :
    (setLane m l b).getLsbD k = if k = l then b else m.getLsbD k := by
  unfold setLane
  by_cases hb : b = true
  · simp only [hb, if_true, BitVec.getLsbD_or, getLsbD_laneBit _ _ hl]
    by_cases hk : k = l <;> simp [hk]
  · have hb' : b = false := by simpa using hb
    simp only [hb', Bool.false_eq_true, if_false, BitVec.getLsbD_and, BitVec.getLsbD_not, getLsbD_laneBit _ _ hl]
    by_cases hk : k = l
    · simp [hk]
    · by_cases h32 : k < 32
      · simp [hk, h32]
      · simp [hk, BitVec.getLsbD_of_ge m k (by omega)]

/-- Predicates after writes in order. -/
theorem getLsbD_pred_writes (ws : List (Nat × Nat × Bool)) (t : Sparse 32) (l n : Nat) (hn : n ≠ 63) (h : ∀ x ∈ ws, x.1 < 32) :
    (sget (ws.foldl (fun t x => if x.2.1 = 63 then t else sset t x.2.1 (setLane (sget t x.2.1) x.1 x.2.2)) t) n).getLsbD l =
      ((ws.reverse.find? (fun x => x.1 == l && x.2.1 == n)).map (fun x => x.2.2)).getD ((sget t n).getLsbD l) := by
  induction ws generalizing t with
  | nil => rfl
  | cons a r ih =>
    simp only [List.foldl_cons, List.reverse_cons, List.find?_append]
    rw [ih _ (fun x hx => h x (List.mem_cons_of_mem _ hx))]
    cases hf : r.reverse.find? (fun x => x.1 == l && x.2.1 == n) with
    | some x => simp
    | none =>
      simp only [Option.map_none, Option.getD_none, Option.none_or, List.find?_cons, List.find?_nil]
      by_cases h63 : a.2.1 = 63
      · have : (63 == n) = false := by simpa using fun e : 63 = n => hn e.symm
        simp [h63, this]
      · simp only [h63, if_false, sget_sset]
        by_cases hna : n = a.2.1
        · subst hna
          simp only [if_true, getLsbD_setLane _ _ _ _ (h a (List.mem_cons_self ..)), beq_self_eq_true, Bool.and_true]
          by_cases hl : l = a.1
          · simp [hl]
          · have : (a.1 == l) = false := by simpa using fun e => hl e.symm
            simp [hl, this]
        · have : (a.2.1 == n) = false := by simpa using fun e => hna e.symm
          simp [hna, this]

theorem foldl_or_init (ws : List (Nat × BitVec 5)) (a : BitVec 5) :
    ws.foldl (fun t x => t ||| x.2) a = a ||| ws.foldl (fun t x => t ||| x.2) 0 := by
  induction ws generalizing a with
  | nil => simp
  | cons x r ih =>
    simp only [List.foldl_cons]
    rw [ih (a ||| x.2), ih (0 ||| x.2)]
    simp [BitVec.or_assoc]

/-- Flags after writes. -/
theorem sget_flag_writes (ws : List (Nat × BitVec 5)) (t : Sparse 5) (l : Nat) :
    sget (ws.foldl (fun t x => sset t x.1 (sget t x.1 ||| x.2)) t) l =
      sget t l ||| (ws.filter (fun x => x.1 == l)).foldl (fun t x => t ||| x.2) 0 := by
  induction ws generalizing t with
  | nil => simp
  | cons a r ih =>
    simp only [List.foldl_cons, ih, sget_sset, List.filter_cons]
    by_cases h : l = a.1
    · subst h
      simp only [if_true, beq_self_eq_true, List.foldl_cons]
      rw [foldl_or_init _ (0 ||| a.2)]
      simp [BitVec.or_assoc]
    · have : (a.1 == l) = false := by simpa using fun e => h e.symm
      simp [h, this]

/-- A group's registers after writes whose registers and lanes exist. -/
theorem Regs.write_v (r : Regs) (w : Writes) (hv : ∀ x ∈ w.v, x.2.1 < 128) (l k : Nat) (hk : k < 128) :
    sget (r.write w).v (l * 128 + k) = ((w.vAt l k).map (BitVec.setWidth 32)).getD (sget r.v (l * 128 + k)) := by
  unfold Regs.write Writes.vAt
  simp only
  rw [sget_foldl_sset (fun x : Nat × Nat × DWord => x.1 * 128 + x.2.1) (fun x => x.2.2.setWidth 32), Option.map_map]
  rw [find?_congr_mem (q := fun x => x.1 == l && x.2.1 == k)]
  · rfl
  · intro x hx
    have := hv x (List.mem_reverse.1 hx)
    rw [Bool.eq_iff_iff]
    simp only [beq_iff_eq, Bool.and_eq_true]
    omega

theorem Regs.write_k (r : Regs) (w : Writes) (k : Nat) :
    sget (r.write w).k k = ((w.kAt k).map (BitVec.setWidth 32)).getD (sget r.k k) := by
  unfold Regs.write Writes.kAt
  simp only
  rw [sget_foldl_sset Prod.fst (fun x : Nat × DWord => x.2.setWidth 32), Option.map_map]
  rfl

theorem Regs.write_p (r : Regs) (w : Writes) (hp : ∀ x ∈ w.p, x.1 < 32) (l n : Nat) (hn : n ≠ 63) :
    (sget (r.write w).p n).getLsbD l = (w.pAt l n).getD ((sget r.p n).getLsbD l) := getLsbD_pred_writes w.p r.p l n hn hp

theorem Regs.write_f (r : Regs) (w : Writes) (l : Nat) : sget (r.write w).fstat l = sget r.fstat l ||| w.fAt l :=
  sget_flag_writes w.f r.fstat l

theorem Regs.write_rest (r : Regs) (w : Writes) :
    { r.write w with v := r.v, k := r.k, p := r.p, fstat := r.fstat, bad := r.bad } = r := rfl

/-- A write makes no register bad. -/
theorem Regs.write_bad (r : Regs) (w : Writes) : ∀ b ∈ (r.write w).bad, b ∈ r.bad := fun _ h => (List.mem_filter.1 h).1

/-- A control processor's x registers after writes. -/
theorem Cp.write_x (c : Cp) (w : Writes) (hw : ∀ x ∈ w.v, x.1 = 0) (r : Nat) :
    sget (c.write w).x r = ((w.kAt r).or (w.vAt 0 r)).getD (sget c.x r) := by
  unfold Cp.write Writes.vAt Writes.kAt
  simp only
  rw [sget_foldl_sset Prod.fst (fun x : Nat × DWord => x.2),
    sget_foldl_sset (fun x : Nat × Nat × DWord => x.2.1) (fun x => x.2.2)]
  rw [find?_congr_mem (p := fun x : Nat × Nat × DWord => x.2.1 == r) (q := fun x => x.1 == 0 && x.2.1 == r)]
  · cases (w.k.reverse.find? (fun x => x.1 == r)) <;> rfl
  · intro x hx
    have := hw x (List.mem_reverse.1 hx)
    simp [this]

theorem Cp.write_p (c : Cp) (w : Writes) (hp : ∀ x ∈ w.p, x.1 = 0) (n : Nat) (hn : n ≠ 63) :
    (sget (c.write w).p n).getLsbD 0 = (w.pAt 0 n).getD ((sget c.p n).getLsbD 0) := by
  have := getLsbD_pred_writes w.p c.p 0 n hn (fun x hx => by rw [hp x hx]; omega)
  have e : ∀ (ws : List (Nat × Nat × Bool)) (t : Sparse 32), (∀ x ∈ ws, x.1 = 0) →
      ws.foldl (fun t x => if x.2.1 = 63 then t else sset t x.2.1 (setLane (sget t x.2.1) 0 x.2.2)) t =
      ws.foldl (fun t x => if x.2.1 = 63 then t else sset t x.2.1 (setLane (sget t x.2.1) x.1 x.2.2)) t := by
    intro ws
    induction ws with
    | nil => intro t _; rfl
    | cons a r ih =>
      intro t h
      simp only [List.foldl_cons, h a (List.mem_cons_self ..)]
      exact ih _ (fun x hx => h x (List.mem_cons_of_mem _ hx))
  unfold Cp.write
  simp only
  rw [e w.p c.p hp]
  exact this

theorem foldl_flags (ws : List (Nat × BitVec 5)) (h : ∀ x ∈ ws, x.1 = 0) :
    ws.filter (fun x => x.1 == 0) = ws := by
  rw [List.filter_eq_self]
  intro x hx
  simp [h x hx]

theorem Cp.write_f (c : Cp) (w : Writes) (hf : ∀ x ∈ w.f, x.1 = 0) : (c.write w).fstat = c.fstat ||| w.fAt 0 := by
  unfold Cp.write Writes.fAt
  rw [foldl_flags w.f hf]
  exact foldl_or_init w.f c.fstat

/-- The writes name registers and lanes that exist. -/
structure Writes.Fit (w : Writes) (cp : Bool) : Prop where
  v : ∀ x ∈ w.v, x.2.1 < 128 ∧ (cp = true → x.1 = 0)
  p : ∀ x ∈ w.p, x.1 < 32 ∧ (cp = true → x.1 = 0)
  f : ∀ x ∈ w.f, cp = true → x.1 = 0

/-- Reading a predicate below 63. -/
theorem Iss.p_eq (i : Iss) (l n : Nat) (hn : n < 63) :
    i.p l n = if i.cp then (sget i.c.p n).getLsbD 0 else (sget i.g.regs.p n).getLsbD l := by
  have : (n == 63) = false := by simp; omega
  simp [Iss.p, this]

/-- The changes of a group's word from what its registers have become. -/
theorem changes_of_group {s : State} {i : Iss} (hi : issuer s = some i) (hc : i.cp = false) {t : State} {n : Group}
    (hn : t.sys.group? i.g.handle = some n) (w : Writes) (hw : w.Fit i.cp)
    (hr : { n.regs with pend := i.stood.pend, pendK := i.stood.pendK } = { i.stood.write w with pend := i.stood.pend, pendK := i.stood.pendK }) :
    i.Changes t w.vAt w.kAt w.pAt w.fAt := by
  have hst := (issuer_of_group hi hc).2
  have hsame : ∀ {α : Type} (π : Regs → α), (∀ r v, π { r with v := v } = π r) → π i.g.regs = π i.stood := by
    intro α π hπ
    rw [← hst]
    exact (hπ _ _).symm
  have hgi : i.groupIn t = n := by simp [Iss.groupIn, hn]
  have hregs : ∀ {α : Type} (π : Regs → α), (∀ r p q, π { r with pend := p, pendK := q } = π r) → π n.regs = π (i.stood.write w) := by
    intro α π hπ
    rw [← hπ n.regs i.stood.pend i.stood.pendK, hr]
    exact hπ _ _ _
  refine ⟨?_, ?_, ?_, ?_, ?_, ?_, ?_, ?_, ?_⟩
  · intro _ l r hl hr
    rw [Iss.vIn, hgi, Iss.held, hregs Regs.v (fun _ _ _ => rfl)]
    exact Regs.write_v _ w (fun x hx => (hw.v x hx).1) l r hr
  · intro _ r _
    have hk : i.k r = sget i.stood.k r := by rw [← hsame Regs.k (fun _ _ => rfl)]; simp [Iss.k, hc]
    rw [Iss.kIn, hgi, hk, hregs Regs.k (fun _ _ _ => rfl)]
    exact Regs.write_k _ w r
  · intro _ l m hl hm
    rw [Iss.p_eq i l m hm, hc, Iss.pIn, hgi, hregs Regs.p (fun _ _ _ => rfl), hsame Regs.p (fun _ _ => rfl)]
    exact Regs.write_p _ w (fun x hx => (hw.p x hx).1) l m (by omega)
  · intro _ l hl
    have hk : i.fstat l = sget i.stood.fstat l := by rw [← hsame Regs.fstat (fun _ _ => rfl)]; simp [Iss.fstat, hc]
    rw [Iss.fIn, hgi, hk, hregs Regs.fstat (fun _ _ _ => rfl)]
    exact Regs.write_f _ w l
  · intro _
    rw [hgi, hregs Regs.frm (fun _ _ _ => rfl), hregs Regs.mpb (fun _ _ _ => rfl), hregs Regs.tapep (fun _ _ _ => rfl),
      hsame Regs.frm (fun _ _ => rfl), hsame Regs.mpb (fun _ _ => rfl), hsame Regs.tapep (fun _ _ => rfl)]
    exact ⟨rfl, rfl, rfl⟩
  · intro _ b hb
    rw [hgi, hregs Regs.bad (fun _ _ _ => rfl)] at hb
    rw [hsame Regs.bad (fun _ _ => rfl)]
    exact Regs.write_bad _ w b hb
  iterate 3 (intro h; rw [hc] at h; cases h)

/-- The changes of a control processor's word from what its registers have become. -/
theorem changes_of_cp {s : State} {i : Iss} (hi : issuer s = some i) (hc : i.cp = true) {t : State} (w : Writes) (hw : w.Fit i.cp)
    (hx : (i.cpIn t).x = (i.c.write w).x) (hp : (i.cpIn t).p = (i.c.write w).p) (hf : (i.cpIn t).fstat = (i.c.write w).fstat) :
    i.Changes t w.vAt w.kAt w.pAt w.fAt := by
  have _ := hi
  refine ⟨?_, ?_, ?_, ?_, ?_, ?_, ?_, ?_, ?_⟩
  iterate 6 (intro h; rw [hc] at h; cases h)
  · intro _ r _
    have e : i.v64 0 r = sget i.c.x r := by simp [Iss.v64, hc]
    rw [Iss.xIn, e, hx]
    exact Cp.write_x i.c w (fun x hx => (hw.v x hx).2 hc) r
  · intro _ n hn
    rw [Iss.p_eq i 0 n hn, if_pos hc, hp]
    exact Cp.write_p i.c w (fun x hx => (hw.p x hx).2 hc) n (by omega)
  · intro _
    rw [hf]
    exact Cp.write_f i.c w (fun x hx => hw.f x hx hc)

/-! ### The two shared meanings -/

/-- After the commit of writes, an optional marking of pending registers, and the fall to the next word, the frame holds, the registers
have changed as the writes say, and every lane is at the next word. `mark` is the marking. -/
theorem commit_fall {s : State} {i : Iss} (hi : issuer s = some i) (d : Desc) (kw : List Nat) (w : Writes) (hw : w.Fit i.cp)
    (regs : List Nat) (lanes : LaneMask) :
    let y := i.commit w s.sys
    let t : State := { s with sys := i.fall d kw [] (if regs.isEmpty then y else i.defer regs lanes y) }
    i.Frame s t ∧ i.Changes t w.vAt w.kAt w.pAt w.fAt ∧ i.AllAt t (i.e.pc + 4) := by
  intro y t
  by_cases hc : i.cp = true
  · -- a control processor
    obtain ⟨he, hpc, hm, hg, hl⟩ := issuer_of_cp hi hc
    have ht : ∃ f : Cp → Cp, t.sys = s.sys.modCp i.core f ∧ ∀ c, ∃ q pc hints holds delay seq,
        f c = { c.write w with pend := q, pc := pc, hints := hints, holds := holds, delay := delay, nextSeq := seq } ∧
        pc = i.e.pc + 4 := by
      have hy : y = s.sys.modCp i.core (fun c => c.write w) := by simp [y, Iss.commit, hc]
      have comp : ∀ (a b : Cp → Cp), (s.sys.modCp i.core a).modCp i.core b = s.sys.modCp i.core (fun c => b (a c)) := by
        intro a b
        simp only [Sys.modCp, Sys.modCore]
        congr 1
        exact tmod_tmod s.sys.cores i.core {} _ _
      by_cases hr : regs.isEmpty = true
      · refine ⟨_, by simp only [t, hr, if_true, fall_cp i d kw [] _ hc, Iss.placeCp, hy]; exact comp _ _, fun c => ?_⟩
        exact ⟨_, _, _, _, _, _, rfl, rfl⟩
      · refine ⟨_, by
          simp only [t, hr, if_false, fall_cp i d kw [] _ hc, Iss.placeCp, hy, Iss.defer, hc, if_true, Bool.false_eq_true]
          rw [comp]
          exact comp _ _, fun c => ?_⟩
        exact ⟨_, _, _, _, _, _, rfl, rfl⟩
    obtain ⟨f, hf, hfc⟩ := ht
    obtain ⟨q, pc, hints, holds, delay, seq, hfe, hpc'⟩ := hfc i.c
    have hcp : i.cpIn t = f i.c := by
      simp only [Iss.cpIn, hf, Sys.modCp_core, if_true, he]
    have hcore : (t.sys.core i.core).cp = f i.c := hcp
    refine ⟨?_, ?_, ?_⟩
    · have ho : OnlyCp i.core s.sys t.sys := hf ▸ onlyCp_modCp _ _ _
      refine frame_of_cp hi hc ho ?_
      have e : (t.sys.core i.core).cp = f i.c := hcore
      rw [e, hfe]
      rfl
    · exact changes_of_cp hi hc w hw (by rw [hcp, hfe]) (by rw [hcp, hfe]) (by rw [hcp, hfe])
    · simp only [Iss.AllAt, hc, if_true, hcp, hfe]
      exact hpc'
  · -- a group
    have hc : i.cp = false := by simpa using hc
    have hg := (issuer_of_group hi hc).1
    have hy : y = s.sys.modGroup i.g.handle (fun g => { g with regs := g.regs.write w }) := by simp [y, Iss.commit, hc]
    have hy1 : y.group? i.g.handle = some { i.standing with regs := i.stood.write w } := by
      rw [hy]
      exact group?_modGroup (fun _ => rfl) hg
    have hyo : OnlyGroup i.g.handle s.sys y := by
      rw [hy]
      exact onlyGroup_modGroup _ _ _ (fun _ => rfl)
    obtain ⟨z, hz, g1, hz1, hzo, hz2, hz3⟩ : ∃ z, z = (if regs.isEmpty then y else i.defer regs lanes y) ∧ ∃ g1,
        z.group? i.g.handle = some g1 ∧ OnlyGroup i.g.handle s.sys z ∧ { g1 with regs := i.stood } = i.standing ∧
        { g1.regs with pend := i.stood.pend } = { i.stood.write w with pend := i.stood.pend } := by
      refine ⟨_, rfl, ?_⟩
      by_cases hr : regs.isEmpty = true
      · simp only [hr, if_true]
        exact ⟨_, hy1, hyo, rfl, rfl⟩
      · simp only [hr, if_false, Bool.false_eq_true]
        unfold Iss.defer
        simp only [hc, Bool.false_eq_true, if_false]
        exact ⟨_, group?_modGroup (fun _ => rfl) hy1, hyo.trans (onlyGroup_modGroup _ _ _ (fun _ => rfl)), rfl, rfl⟩
    obtain ⟨n, a, b, c, e, f⟩ := fall_group i d kw [] z g1 hc hz1
    have hts : t.sys = i.fall d kw [] z := by rw [hz]
    have ht : t = { s with sys := i.fall d kw [] z } := by rw [hz]
    have hgi : i.groupIn t = n := by
      have : t.sys.group? i.g.handle = some n := hts ▸ a
      simp [Iss.groupIn, this]
    refine ⟨?_, ?_, ?_⟩
    · rw [ht]
      refine frame_of_own hi hc a (hzo.trans b) ?_
      have h0 : { { n with regs := g1.regs, frontier := g1.frontier, window := g1.window, nextSeq := g1.nextSeq } with regs := i.stood } = i.standing := by
        rw [c, hz2]
      have h1 : g1.frontier = i.g.frontier := by have e := congrArg Group.frontier hz2; exact e
      have h2 : g1.window = i.g.window := by have e := congrArg Group.window hz2; exact e
      have h3 : g1.nextSeq = i.g.nextSeq := by have e := congrArg Group.nextSeq hz2; exact e
      rw [← h1, ← h2, ← h3]
      exact h0
    · refine changes_of_group hi hc (hts ▸ a) w hw ?_
      have h0 := congrArg (fun r : Regs => { r with pend := i.stood.pend, pendK := i.stood.pendK }) (e.trans rfl)
      have h1 := congrArg (fun r : Regs => { r with pendK := i.stood.pendK }) hz3
      exact h0.trans h1
    · simp only [Iss.AllAt, hc, Bool.false_eq_true, if_false, hgi]
      exact fun l _ hl => f l hl

end Sys2Proof.Machine
end

