-- ==== Sys2Proof/Laws/Words.lean ====
section
/-!
SUPPORT. The shared meanings `laneWord` and `onceWord` once their checks pass: what they write, by the shape of a lane's writes.
-/
namespace Sys2Proof.Machine

/-! ### Lanes -/

theorem mem_lanesOf (m : LaneMask) (l : Nat) : l ∈ lanesOf m ↔ m.getLsbD l = true := by
  unfold lanesOf allLanes
  rw [List.mem_filter, List.mem_range]
  constructor
  · exact fun h => h.2
  · intro h
    refine ⟨?_, h⟩
    rcases Nat.lt_or_ge l 32 with h' | h'
    · exact h'
    · rw [BitVec.getLsbD_of_ge _ _ h'] at h
      cases h

theorem lanesOf_lt {m : LaneMask} {l : Nat} (h : l ∈ lanesOf m) : l < 32 := by
  unfold lanesOf allLanes at h
  rw [List.mem_filter, List.mem_range] at h
  exact h.1

/-- The lanes of a control processor's masks are lane 0 alone. -/
theorem act_cp {s : State} {i : Iss} (hi : issuer s = some i) (hc : i.cp = true) (g : BitVec 3) {l : Nat}
    (h : (i.act g).getLsbD l = true) : l = 0 := by
  obtain ⟨_, _, hm, _⟩ := issuer_of_cp hi hc
  unfold Iss.act at h
  rw [BitVec.getLsbD_and, hm, Bool.and_eq_true] at h
  have := h.1
  rw [show (1 : LaneMask) = BitVec.ofNat 32 1 from rfl, BitVec.getLsbD_ofNat] at this
  simp only [Bool.and_eq_true, decide_eq_true_eq] at this
  have h1 := this.2
  rw [Nat.testBit_one_eq_true_iff_self_eq_zero] at h1
  exact h1

/-- One entry for each lane: the last one to a lane and register. -/
theorem find?_lane_writes {β : Type} (ls : List Nat) (d : Nat) (val : Nat → β) (l r : Nat) :
    ((ls.map (fun j => (j, d, val j))).reverse.find? (fun x => x.1 == l && x.2.1 == r)).map (fun x => x.2.2) =
      if l ∈ ls ∧ r = d then some (val l) else none := by
  by_cases h : l ∈ ls ∧ r = d
  · obtain ⟨hl, rfl⟩ := h
    cases hf : (ls.map (fun j => (j, r, val j))).reverse.find? (fun x => x.1 == l && x.2.1 == r) with
    | none =>
      rw [List.find?_eq_none] at hf
      exact absurd (by simp) (hf (l, r, val l) (List.mem_reverse.2 (List.mem_map.2 ⟨l, hl, rfl⟩)))
    | some x =>
      have hm := List.mem_reverse.1 (List.mem_of_find?_eq_some hf)
      have hp := List.find?_some hf
      obtain ⟨j, _, rfl⟩ := List.mem_map.1 hm
      simp only [beq_self_eq_true, Bool.and_true, beq_iff_eq] at hp
      subst hp
      simp [hl]
  · rw [if_neg h]
    have : (ls.map (fun j => (j, d, val j))).reverse.find? (fun x => x.1 == l && x.2.1 == r) = none := by
      rw [List.find?_eq_none]
      intro x hx hp
      obtain ⟨j, hj, rfl⟩ := List.mem_map.1 (List.mem_reverse.1 hx)
      simp only [Bool.and_eq_true, beq_iff_eq] at hp
      exact h ⟨hp.1 ▸ hj, hp.2.symm⟩
    rw [this]
    rfl

/-- One entry for each lane of a list without repeats: its flags. -/
theorem flags_lane_writes (ls : List Nat) (hn : ls.Nodup) (fl : Nat → BitVec 5) (l : Nat) :
    ((ls.map (fun j => (j, fl j))).filter (fun x => x.1 == l)).foldl (fun t x => t ||| x.2) 0 = if l ∈ ls then fl l else 0 := by
  induction ls with
  | nil => simp
  | cons a r ih =>
    have hnr := (List.nodup_cons.1 hn)
    simp only [List.map_cons, List.filter_cons]
    by_cases h : a = l
    · subst h
      simp only [beq_self_eq_true, if_true, List.foldl_cons]
      rw [foldl_or_init, ih hnr.2, if_neg hnr.1]
      simp
    · have hb : (a == l) = false := by simpa using h
      have hl : ¬ l = a := fun e => h e.symm
      simp only [hb, Bool.false_eq_true, if_false, ih hnr.2, List.mem_cons, hl, false_or]

theorem nodup_lanesOf (m : LaneMask) : (lanesOf m).Nodup := by
  unfold lanesOf allLanes
  exact List.Pairwise.filter _ List.nodup_range

/-! ### The writes of all lanes -/

/-- The writes of several lanes together. -/
def gather (ws : List Writes) : Writes :=
  { v := ws.flatMap Writes.v, k := ws.flatMap Writes.k, p := ws.flatMap Writes.p, f := ws.flatMap Writes.f }

theorem flatMap_map_single {α β : Type} (ls : List α) (f : α → List β) (g : α → β) (h : ∀ a ∈ ls, f a = [g a]) :
    ls.flatMap f = ls.map g := by
  induction ls with
  | nil => rfl
  | cons a r ih =>
    rw [List.flatMap_cons, List.map_cons, h a (List.mem_cons_self ..), ih (fun b hb => h b (List.mem_cons_of_mem _ hb))]
    rfl

theorem flatMap_nil {α β : Type} (ls : List α) (f : α → List β) (h : ∀ a ∈ ls, f a = []) : ls.flatMap f = [] := by
  simpa using h

/-- The lanes that a `laneWord` works on. -/
def Iss.lanesFor (i : Iss) (d : Desc) : LaneMask := if d.all then i.e.mask else i.act d.g

theorem Iss.Changes.congr {i : Iss} {t : State} {v v' : Nat → Nat → Option DWord} {k k' : Nat → Option DWord}
    {p p' : Nat → Nat → Option Bool} {f f' : Nat → BitVec 5} (h : i.Changes t v k p f) (hv : ∀ l r, v l r = v' l r)
    (hk : ∀ r, k r = k' r) (hp : ∀ l n, p l n = p' l n) (hf : ∀ l, f l = f' l) : i.Changes t v' k' p' f' := by
  have h1 : v = v' := funext fun l => funext fun r => hv l r
  have h2 : k = k' := funext hk
  have h3 : p = p' := funext fun l => funext fun r => hp l r
  have h4 : f = f' := funext hf
  rw [← h1, ← h2, ← h3, ← h4]
  exact h

theorem Writes.fit_nil {c : Bool} : ({} : Writes).Fit c := by
  refine ⟨?_, ?_, ?_⟩ <;> intro x h <;> cases h

/-- A word that writes nothing: committing no writes does not show. -/
theorem fall_commit_nil (i : Iss) (d : Desc) (kw : List Nat) (holds : List FenceHold) (y : Sys) :
    i.fall d kw holds (i.commit {} y) = i.fall d kw holds y := by
  by_cases hc : i.cp = true
  · simp only [fall_cp _ _ _ _ _ hc, Iss.placeCp, Iss.commit, hc, if_true, Sys.modCp, Sys.modCore, tmod_tmod]
    rfl
  · have : i.commit {} y = y := by
      unfold Iss.commit
      rw [if_neg hc]
      unfold Sys.modGroup
      have hm : y.groups.map (fun g => if g.handle = i.g.handle then { g with regs := g.regs.write {} } else g) = y.groups := by
        conv => rhs; rw [← List.map_id y.groups]
        apply List.map_congr_left
        intro g _
        have hw : g.regs.write {} = g.regs := by
          have hb : (g.regs.write {}).bad = g.regs.bad := by simp [Regs.write]
          have : ({ g.regs.write {} with bad := g.regs.bad } : Regs) = g.regs := rfl
          rw [← hb] at this
          exact this
        split
        · rw [hw]; rfl
        · rfl
      rw [hm]
    rw [this]

/-- `laneWord` past its checks. -/
theorem laneWord_go {s : State} {i : Iss} (hi : issuer s = some i) (d : Iss → Desc) (deferred : List Nat) (f : Iss → Nat → Writes)
    (hc : i.check s.sys (d i) = .go) (hw : (gather ((lanesOf (i.lanesFor (d i))).map (f i))).Fit i.cp) :
    ∃ t, laneWord d deferred f s = .next t ∧ i.Frame s t ∧
      i.Changes t (gather ((lanesOf (i.lanesFor (d i))).map (f i))).vAt (gather ((lanesOf (i.lanesFor (d i))).map (f i))).kAt
        (gather ((lanesOf (i.lanesFor (d i))).map (f i))).pAt (gather ((lanesOf (i.lanesFor (d i))).map (f i))).fAt ∧
      i.AllAt t (i.e.pc + 4) := by
  refine ⟨_, ?_, commit_fall hi (d i) [] _ hw deferred (i.lanesFor (d i))⟩
  unfold laneWord
  rw [wordNext_eq hi]
  simp only [hc]
  rfl

/-- `onceWord` past its checks, when a lane acts. -/
theorem onceWord_go {s : State} {i : Iss} (hi : issuer s = some i) (d : Iss → Desc) (f : Iss → Nat → Writes) (l : Nat)
    (hc : i.check s.sys (d i) = .go) (hl : i.first? (d i).g = some l) (hw : (f i l).Fit i.cp) :
    ∃ t, onceWord d f s = .next t ∧ i.Frame s t ∧ i.Changes t (f i l).vAt (f i l).kAt (f i l).pAt (f i l).fAt ∧
      i.AllAt t (i.e.pc + 4) := by
  refine ⟨_, ?_, commit_fall hi (d i) ((f i l).k.map Prod.fst) (f i l) hw [] 0⟩
  unfold onceWord
  rw [wordNext_eq hi]
  simp only [hc, hl]
  rfl

/-- `onceWord` past its checks, when no lane acts: it writes nothing. -/
theorem onceWord_none {s : State} {i : Iss} (hi : issuer s = some i) (d : Iss → Desc) (f : Iss → Nat → Writes)
    (hc : i.check s.sys (d i) = .go) (hl : i.first? (d i).g = none) :
    ∃ t, onceWord d f s = .next t ∧ i.Frame s t ∧ i.Changes t (fun _ _ => none) (fun _ => none) (fun _ _ => none) (fun _ => 0) ∧
      i.AllAt t (i.e.pc + 4) := by
  have h := commit_fall hi (d i) [] {} Writes.fit_nil [] 0
  have e : onceWord d f s = .next { s with sys := i.fall (d i) [] [] (i.commit {} s.sys) } := by
    unfold onceWord
    rw [wordNext_eq hi, fall_commit_nil]
    simp only [hc, hl]
  exact ⟨_, e, h⟩

/-! ### By the shape of a lane's writes -/

/-- Flags of a gathering: one entry per lane, or none at all. -/
theorem gather_fAt (m : LaneMask) (w : Nat → Writes) (fl : Nat → BitVec 5)
    (hf : (∀ l, (w l).f = [(l, fl l)]) ∨ (∀ l, (w l).f = [] ∧ fl l = 0)) (l : Nat) :
    (gather ((lanesOf m).map w)).fAt l = if m.getLsbD l then fl l else 0 := by
  unfold Writes.fAt gather
  simp only [List.flatMap_map]
  rcases hf with hf | hf
  · rw [flatMap_map_single _ _ (fun j => (j, fl j)) (fun j _ => hf j), flags_lane_writes _ (nodup_lanesOf m)]
    simp only [mem_lanesOf]
  · rw [flatMap_nil _ _ (fun j _ => (hf j).1)]
    simp [(hf l).2]

/-- A result in each lane. -/
theorem writesV_of {s : State} {i : Iss} (hi : issuer s = some i) {x : Instr} {d : Iss → Desc} {df : List Nat}
    {w : Iss → Nat → Writes} (hx : exec x s = laneWord d df w s) (hc : i.check s.sys (d i) = .go) (ha : (d i).all = false)
    {r : Nat} (hr : r < 128) (val : Nat → DWord) (fl : Nat → BitVec 5)
    (hv : ∀ l, (w i l).v = [(l, r, val l)]) (hk : ∀ l, (w i l).k = []) (hp : ∀ l, (w i l).p = [])
    (hf : (∀ l, (w i l).f = [(l, fl l)]) ∨ (∀ l, (w i l).f = [] ∧ fl l = 0)) : i.WritesV s x (d i).g r val fl := by
  have hl : i.lanesFor (d i) = i.act (d i).g := by simp [Iss.lanesFor, ha]
  have hcp : ∀ l, i.cp = true → (i.act (d i).g).getLsbD l = true → l = 0 := fun l h1 h2 => act_cp hi h1 _ h2
  have hgv : (gather ((lanesOf (i.act (d i).g)).map (w i))).v =
      (lanesOf (i.act (d i).g)).map (fun l => (l, r, val l)) := by
    simp only [gather, List.flatMap_map]
    exact flatMap_map_single _ _ _ (fun l _ => hv l)
  obtain ⟨t, h1, h2, h3, h4⟩ := laneWord_go hi d df w hc (by
    rw [hl]
    refine ⟨?_, ?_, ?_⟩
    · rw [hgv]
      intro y hy
      obtain ⟨l, h, rfl⟩ := List.mem_map.1 hy
      exact ⟨hr, fun hc => hcp l hc ((mem_lanesOf _ _).1 h)⟩
    · simp only [gather, List.flatMap_map, flatMap_nil _ _ (fun l _ => hp l)]
      intro y hy
      cases hy
    · intro y hy hc'
      simp only [gather, List.flatMap_map, List.mem_flatMap] at hy
      obtain ⟨l, h, hy⟩ := hy
      have h0 := hcp l hc' ((mem_lanesOf _ _).1 h)
      rcases hf with hf | hf
      · rw [hf l, List.mem_singleton] at hy
        rw [hy]
        exact h0
      · rw [(hf l).1] at hy
        cases hy)
  rw [hl] at h3
  refine ⟨t, hx.trans h1, h2, h3.congr ?_ ?_ ?_ ?_, h4⟩
  · intro l k
    unfold Writes.vAt
    rw [hgv, find?_lane_writes]
    exact ite_congr (propext (and_congr (mem_lanesOf _ _) Iff.rfl)) (fun _ => rfl) (fun _ => rfl)
  · intro k
    simp [Writes.kAt, gather, List.flatMap_map, flatMap_nil _ _ (fun l _ => hk l)]
  · intro l n
    simp [Writes.pAt, gather, List.flatMap_map, flatMap_nil _ _ (fun l _ => hp l)]
  · intro l
    exact gather_fAt _ _ fl hf l

/-- A predicate in each lane. -/
theorem writesP_of {s : State} {i : Iss} (hi : issuer s = some i) {x : Instr} {d : Iss → Desc} {df : List Nat}
    {w : Iss → Nat → Writes} (hx : exec x s = laneWord d df w s) (hc : i.check s.sys (d i) = .go) (ha : (d i).all = false)
    {r : Nat} (val : Nat → Bool) (fl : Nat → BitVec 5)
    (hv : ∀ l, (w i l).v = []) (hk : ∀ l, (w i l).k = []) (hp : ∀ l, (w i l).p = [(l, r, val l)])
    (hf : (∀ l, (w i l).f = [(l, fl l)]) ∨ (∀ l, (w i l).f = [] ∧ fl l = 0)) : i.WritesP s x (d i).g r val fl := by
  have hl : i.lanesFor (d i) = i.act (d i).g := by simp [Iss.lanesFor, ha]
  have hcp : ∀ l, i.cp = true → (i.act (d i).g).getLsbD l = true → l = 0 := fun l h1 h2 => act_cp hi h1 _ h2
  have hgp : (gather ((lanesOf (i.act (d i).g)).map (w i))).p = (lanesOf (i.act (d i).g)).map (fun l => (l, r, val l)) := by
    simp only [gather, List.flatMap_map]
    exact flatMap_map_single _ _ _ (fun l _ => hp l)
  obtain ⟨t, h1, h2, h3, h4⟩ := laneWord_go hi d df w hc (by
    rw [hl]
    refine ⟨?_, ?_, ?_⟩
    · simp only [gather, List.flatMap_map, flatMap_nil _ _ (fun l _ => hv l)]
      intro y hy
      cases hy
    · rw [hgp]
      intro y hy
      obtain ⟨l, h, rfl⟩ := List.mem_map.1 hy
      exact ⟨lanesOf_lt h, fun hc => hcp l hc ((mem_lanesOf _ _).1 h)⟩
    · intro y hy hc'
      simp only [gather, List.flatMap_map, List.mem_flatMap] at hy
      obtain ⟨l, h, hy⟩ := hy
      have h0 := hcp l hc' ((mem_lanesOf _ _).1 h)
      rcases hf with hf | hf
      · rw [hf l, List.mem_singleton] at hy
        rw [hy]
        exact h0
      · rw [(hf l).1] at hy
        cases hy)
  rw [hl] at h3
  refine ⟨t, hx.trans h1, h2, h3.congr ?_ ?_ ?_ ?_, h4⟩
  · intro l k
    simp [Writes.vAt, gather, List.flatMap_map, flatMap_nil _ _ (fun l _ => hv l)]
  · intro k
    simp [Writes.kAt, gather, List.flatMap_map, flatMap_nil _ _ (fun l _ => hk l)]
  · intro l n
    unfold Writes.pAt
    rw [hgp, find?_lane_writes]
    exact ite_congr (propext (and_congr (mem_lanesOf _ _) Iff.rfl)) (fun _ => rfl) (fun _ => rfl)
  · intro l
    exact gather_fAt _ _ fl hf l

/-- A uniform register, written once. -/
theorem writesK_of {s : State} {i : Iss} (hi : issuer s = some i) {x : Instr} {d : Iss → Desc} {w : Iss → Nat → Writes}
    (hx : exec x s = onceWord d w s) (hc : i.check s.sys (d i) = .go) {r : Nat} (val : Word)
    (hw : ∀ l, i.first? (d i).g = some l → w i l = { k := [(r, val.setWidth 64)] }) : i.WritesK s x (d i).g r val := by
  cases hl : i.first? (d i).g with
  | none =>
    obtain ⟨t, h1, h2, h3, h4⟩ := onceWord_none hi d w hc hl
    exact ⟨t, hx.trans h1, h2, h3.congr (fun _ _ => rfl) (fun r => by simp [hl]) (fun _ _ => rfl) (fun _ => rfl), h4⟩
  | some l =>
    have hwl := hw l hl
    obtain ⟨t, h1, h2, h3, h4⟩ := onceWord_go hi d w l hc hl (by
      rw [hwl]
      refine ⟨?_, ?_, ?_⟩ <;> intro y hy <;> cases hy)
    rw [hwl] at h3
    refine ⟨t, hx.trans h1, h2, h3.congr (fun _ _ => rfl) (fun q => ?_) (fun _ _ => rfl) (fun _ => rfl), h4⟩
    by_cases h : q = r
    · subst h
      simp [Writes.kAt, hl]
    · have : (r == q) = false := by simpa using fun e => h e.symm
      simp [Writes.kAt, h, this]

end Sys2Proof.Machine
end

