-- ==== Sys2Proof/Laws/Access.lean ====
section
/-!
SUPPORT. What issuing a memory instruction can do: the accesses that stand stay standing, each request becomes one, and sending what may
leave changes no group and no register.
-/
namespace Sys2Proof.Machine

/-! ### Accesses that stay -/

/-- The same access but for how far it is. -/
def Access.Same (a b : Access) : Prop :=
  { b with packet := a.packet, sent := a.sent, via := a.via, retryAt := a.retryAt, st := a.st } = a

theorem Access.Same.refl (a : Access) : a.Same a := rfl

theorem Access.Same.trans {a b c : Access} (h : a.Same b) (k : b.Same c) : a.Same c := by
  unfold Access.Same at *
  have e : { c with packet := a.packet, sent := a.sent, via := a.via, retryAt := a.retryAt, st := a.st } =
      { ({ c with packet := b.packet, sent := b.sent, via := b.via, retryAt := b.retryAt, st := b.st } : Access) with
        packet := a.packet, sent := a.sent, via := a.via, retryAt := a.retryAt, st := a.st } := rfl
  rw [e, k, h]

/-- Every access of `y` stands in `z`, groups keep their frontiers and tape pointers, and control processors their places. -/
structure Retains (y z : Sys) : Prop where
  acc : ∀ a ∈ y.accesses, ∃ b ∈ z.accesses, a.Same b
  grp : ∀ h g, y.group? h = some g → ∃ n, z.group? h = some n ∧ n.frontier = g.frontier ∧ n.regs.tapep = g.regs.tapep
  cp : ∀ c, (z.core c).cp.pc = (y.core c).cp.pc

theorem Retains.refl (y : Sys) : Retains y y :=
  ⟨fun a h => ⟨a, h, .refl a⟩, fun _ g h => ⟨g, h, rfl, rfl⟩, fun _ => rfl⟩

theorem Retains.trans {x y z : Sys} (h : Retains x y) (k : Retains y z) : Retains x z := by
  refine ⟨fun a ha => ?_, fun u g hg => ?_, fun c => (k.cp c).trans (h.cp c)⟩
  · obtain ⟨b, hb, e⟩ := h.acc a ha
    obtain ⟨c, hc, f⟩ := k.acc b hb
    exact ⟨c, hc, e.trans f⟩
  · obtain ⟨n, hn, e, f⟩ := h.grp u g hg
    obtain ⟨m, hm, e', f'⟩ := k.grp u n hn
    exact ⟨m, hm, e'.trans e, f'.trans f⟩

/-- Nothing of groups and cores changes, and accesses are mapped one by one. -/
theorem Retains.of_map {y z : Sys} (f : Access → Access) (ha : z.accesses = y.accesses.map f) (hs : ∀ a : Access, a.Same (f a))
    (hg : z.groups = y.groups) (hc : z.cores = y.cores) : Retains y z := by
  refine ⟨fun a h => ⟨f a, by rw [ha]; exact List.mem_map_of_mem h, hs a⟩, fun u g h => ⟨g, ?_, rfl, rfl⟩, fun c => ?_⟩
  · unfold Sys.group? at *
    rw [hg]
    exact h
  · unfold Sys.core
    rw [hc]

theorem Retains.of_eq {y z : Sys} (ha : z.accesses = y.accesses) (hg : z.groups = y.groups) (hc : z.cores = y.cores) : Retains y z :=
  .of_map id (by simp [ha]) (fun a => .refl a) hg hc

theorem Retains.foldl {α : Type} (f : Sys → α → Sys) (h : ∀ y a, Retains y (f y a)) (l : List α) (y : Sys) :
    Retains y (l.foldl f y) := by
  induction l generalizing y with
  | nil => exact .refl y
  | cons a r ih => exact (h y a).trans (ih _)

/-! ### Sending -/

theorem egress_retains (y : Sys) (p : Packet) : Retains y (y.egress p).2 := by
  unfold Sys.egress takeFree
  dsimp only
  split
  · exact .refl y
  · split <;> exact .of_eq rfl rfl rfl

theorem transmit_retains (y : Sys) (p : Packet) : Retains y (y.transmit p).2 := by
  unfold Sys.transmit
  split
  · exact .of_eq rfl rfl rfl
  · have h := egress_retains y p
    split
    · rename_i n y1 e
      rw [e] at h
      exact h.trans (.of_eq rfl rfl rfl)
    · rename_i y1 e
      rw [e] at h
      exact h

theorem dispatch_retains (y : Sys) (p : Packet) : Retains y (y.dispatch p).2 := by
  unfold Sys.dispatch
  split
  · exact .of_eq rfl rfl rfl
  · exact transmit_retains y p

theorem dispatchHeld_retains (y : Sys) : Retains y y.dispatchHeld := by
  unfold Sys.dispatchHeld
  refine Retains.trans (y := { y with heldO := [] }) (.of_eq rfl rfl rfl) (.foldl _ (fun z p => ?_) _ _)
  refine (dispatch_retains z p).trans (.of_map _ rfl (fun a => ?_) rfl rfl)
  split <;> rfl

theorem emit_retains (y : Sys) (part : Nat) (p : Packet) : Retains y (y.emit part p).2.2 := by
  unfold Sys.emit
  refine Retains.trans ?_ (dispatch_retains _ _)
  unfold Sys.countSent
  split <;> exact .of_eq rfl rfl rfl

theorem sendPacket_retains (y : Sys) (now part : Nat) (det : Option Nat) (p : Packet) :
    Retains y (y.sendPacket now part det p).2.2 := by
  unfold Sys.sendPacket
  split
  · exact .of_eq rfl rfl rfl
  · exact emit_retains _ _ _

theorem noteSent_retains (y : Sys) (part : Nat) (ids : List Nat) (via : Nat) (pk : Packet) : Retains y (y.noteSent part ids via pk) := by
  unfold Sys.noteSent
  refine .of_map _ rfl (fun a => ?_) rfl rfl
  split <;> rfl

theorem sendRequest_retains (y : Sys) (now id : Nat) : Retains y (y.sendRequest now id) := by
  unfold Sys.sendRequest
  split
  · exact .refl y
  · split
    · exact .refl y
    · dsimp only
      split
      · refine (transmit_retains _ _).trans (.of_map _ rfl (fun a => ?_) rfl rfl)
        split <;> rfl
      · exact (sendPacket_retains _ _ _ _ _).trans (noteSent_retains _ _ _ _ _)

theorem sendAll_retains (y : Sys) (now : Nat) : Retains y (y.sendAll now) :=
  (dispatchHeld_retains y).trans (.foldl _ (fun _ _ => sendRequest_retains _ _ _) _ _)

/-! ### Delivering -/

theorem modAccess_retains (y : Sys) (id : Nat) (f : Access → Access) (h : ∀ a : Access, a.Same (f a)) : Retains y (y.modAccess id f) := by
  refine .of_map _ rfl (fun a => ?_) rfl rfl
  split
  · exact h a
  · rfl

theorem modGroup_retains (y : Sys) (u : Nat) (f : Group → Group) (hh : ∀ g, (f g).handle = g.handle)
    (hf : ∀ g, (f g).frontier = g.frontier ∧ (f g).regs.tapep = g.regs.tapep) : Retains y (y.modGroup u f) := by
  refine ⟨fun a h => ⟨a, h, .refl a⟩, fun v g h => ?_, fun _ => rfl⟩
  rw [Sys.modGroup_find _ _ _ _ hh]
  by_cases e : v = u
  · simp only [e, if_true]
    rw [e] at h
    simp [h, hf]
  · simp only [e, if_false, h]
    exact ⟨g, rfl, rfl, rfl⟩

theorem modCp_retains (y : Sys) (c : Nat) (f : Cp → Cp) (hf : ∀ x, (f x).pc = x.pc) : Retains y (y.modCp c f) := by
  refine ⟨fun a h => ⟨a, h, .refl a⟩, fun v g h => ⟨g, h, rfl, rfl⟩, fun d => ?_⟩
  rw [Sys.modCp_core]
  split
  · rename_i e
    rw [e]
    exact hf _
  · rfl

theorem deliver_retains (y : Sys) (a : Access) (value : List Byte) : Retains y (y.deliver a value) := by
  unfold Sys.deliver
  split
  · split
    · exact .refl y
    · split
      · exact .of_eq rfl rfl rfl
      · exact modGroup_retains _ _ _ (fun _ => rfl) (fun _ => ⟨rfl, rfl⟩)
  · exact modCp_retains _ _ _ (fun _ => rfl)
  · exact .refl y

theorem Retains.ite {y a b : Sys} {c : Prop} [Decidable c] (ha : Retains y a) (hb : Retains y b) : Retains y (if c then a else b) := by
  split
  · exact ha
  · exact hb

theorem logEal_retains (y : Sys) (now p : Nat) (cause : Cause) (rem remLog : BitVec 8) (addr : DWord) (kind : RKind) (core slot vf : Nat) :
    Retains y (y.logEal now p cause rem remLog addr kind core slot vf) := by
  have hn : ∀ (z : Sys) (v m : Nat) (x : DWord), Retains z (z.notify v m x) := fun z v m x => .of_eq rfl rfl rfl
  have h1 : ∀ (f : Part → Part), Retains y (y.modPart p f) := fun f => .of_eq rfl rfl rfl
  unfold Sys.logEal
  cases kind with
  | engine => exact h1 _
  | host => exact h1 _
  | group => exact (h1 _).trans (hn _ _ _ _)
  | cp => exact (h1 _).trans (hn _ _ _ _)
  | port => exact (h1 _).trans (.foldl _ (fun z v => hn z v _ _) _ _)
  | scrub => exact (h1 _).trans (.foldl _ (fun z v => hn z v _ _) _ _)
  | mgmt => exact (h1 _).trans (.foldl _ (fun z v => hn z v _ _) _ _)

theorem logAccess_retains (y : Sys) (now : Nat) (a : Access) (c : Cause) (rem remLog : BitVec 8) :
    Retains y (y.logAccess now a c rem remLog).2 := by
  unfold Sys.logAccess
  dsimp only
  split <;> exact logEal_retains ..

theorem takeHit_retains (y : Sys) (now : Nat) (a : Access) (v : List Byte) : Retains y (y.takeHit now a v) := by
  have h1 : Retains y ((y.logAccess now a .ecc 0 0).2.modAccess a.id (fun x => { x with st := .failed .ecc 0 0 (y.logAccess now a .ecc 0 0).1 })) :=
    (logAccess_retains ..).trans (modAccess_retains _ _ _ (fun _ => rfl))
  have h2 : Retains y ((y.modAccess a.id (fun x => { x with st := .performed v now })).deliver a v) :=
    (modAccess_retains y a.id (fun x => { x with st := .performed v now }) (fun _ => rfl)).trans (deliver_retains _ _ _)
  exact h1.ite h2

theorem fabricHits_retains (y : Sys) (now : Nat) : Retains y (y.fabricHits now) := by
  unfold Sys.fabricHits
  refine .foldl _ (fun z a => ?_) _ _
  split
  · exact takeHit_retains ..
  · exact .refl z

/-! ### Requests -/

/-- The same access but for when it may be tried again. -/
def Access.Near (a b : Access) : Prop := { b with retryAt := a.retryAt } = a

theorem Access.Near.refl (a : Access) : a.Near a := rfl

theorem Access.Near.trans {a b c : Access} (h : a.Near b) (k : b.Near c) : a.Near c := by
  unfold Access.Near at *
  have e : { c with retryAt := a.retryAt } = { ({ c with retryAt := b.retryAt } : Access) with retryAt := a.retryAt } := rfl
  rw [e, k, h]

theorem Access.Near.same {a b : Access} (h : a.Near b) : a.Same b := by
  unfold Access.Near at h
  unfold Access.Same
  rw [← h]

theorem Iss.Answers.same {i : Iss} {r : Req} {a b : Access} (h : i.Answers r a) (k : a.Same b) : i.Answers r b := by
  unfold Access.Same at k
  rw [← k] at h
  exact h

/-- Accesses are added, each for a request, and those that stood stand as they were but for when they may be tried again. -/
structure Grows (i : Iss) (rs : List Req) (y z : Sys) : Prop where
  stay : ∀ a ∈ y.accesses, ∃ b ∈ z.accesses, a.Near b
  only : ∀ b ∈ z.accesses, (∃ a ∈ y.accesses, a.Near b) ∨ ∃ r ∈ rs, i.Answers r b
  asked : ∀ r ∈ rs, ∃ b ∈ z.accesses, i.Answers r b
  grp : ∀ h g, y.group? h = some g → ∃ n, z.group? h = some n ∧ { n with updates := g.updates } = g
  cp : z.cores = y.cores

/-- Besides accesses, only numbers, lines in ticket order and the issuer's count of updates change. -/
structure AddsOnly (i : Iss) (y z : Sys) : Prop where
  rest : { z with accesses := y.accesses, nextId := y.nextId, ticketLines := y.ticketLines, groups := y.groups } = y
  others : ∀ h, (i.cp = true ∨ h ≠ i.g.handle) → z.group? h = y.group? h
  same : i.cp = true → z.groups = y.groups

theorem Grows.nil (i : Iss) (y : Sys) : Grows i [] y y :=
  ⟨fun a h => ⟨a, h, .refl a⟩, fun b h => .inl ⟨b, h, .refl b⟩, fun _ h => by (cases h), fun _ g h => ⟨g, h, rfl⟩, rfl⟩

theorem Grows.append {i : Iss} {rs qs : List Req} {x y z : Sys} (h : Grows i rs x y) (k : Grows i qs y z) :
    Grows i (rs ++ qs) x z := by
  refine ⟨fun a ha => ?_, fun b hb => ?_, fun r hr => ?_, fun u g hg => ?_, k.cp.trans h.cp⟩
  · obtain ⟨b, hb, e⟩ := h.stay a ha
    obtain ⟨c, hc, f⟩ := k.stay b hb
    exact ⟨c, hc, e.trans f⟩
  · rcases k.only b hb with ⟨a, ha, e⟩ | ⟨r, hr, e⟩
    · rcases h.only a ha with ⟨c, hc, f⟩ | ⟨r, hr, f⟩
      · exact .inl ⟨c, hc, f.trans e⟩
      · exact .inr ⟨r, List.mem_append_left _ hr, f.same e.same⟩
    · exact .inr ⟨r, List.mem_append_right _ hr, e⟩
  · rcases List.mem_append.1 hr with hr | hr
    · obtain ⟨b, hb, e⟩ := h.asked r hr
      obtain ⟨c, hc, f⟩ := k.stay b hb
      exact ⟨c, hc, e.same f.same⟩
    · exact k.asked r hr
  · obtain ⟨n, hn, e⟩ := h.grp u g hg
    obtain ⟨m, hm, f⟩ := k.grp u n hn
    refine ⟨m, hm, ?_⟩
    have e' : { m with updates := g.updates } = { ({ m with updates := n.updates } : Group) with updates := g.updates } := rfl
    rw [e', f, e]

theorem AddsOnly.refl (i : Iss) (y : Sys) : AddsOnly i y y := ⟨rfl, fun _ _ => rfl, fun _ => rfl⟩

theorem AddsOnly.trans {i : Iss} {x y z : Sys} (h : AddsOnly i x y) (k : AddsOnly i y z) : AddsOnly i x z := by
  refine ⟨?_, fun u hu => (k.others u hu).trans (h.others u hu), fun hc => (k.same hc).trans (h.same hc)⟩
  have e : { z with accesses := x.accesses, nextId := x.nextId, ticketLines := x.ticketLines, groups := x.groups } =
      { ({ z with accesses := y.accesses, nextId := y.nextId, ticketLines := y.ticketLines, groups := y.groups } : Sys) with
        accesses := x.accesses, nextId := x.nextId, ticketLines := x.ticketLines, groups := x.groups } := rfl
  rw [e, k.rest, h.rest]

/-- Nothing of the issuer's agent is recorded for a re-execution. -/
def Iss.FirstIn (i : Iss) (y : Sys) : Prop := ∀ a ∈ y.accesses, a.undone = true → a.who ≠ i.agent

theorem Iss.FirstIn.recorded {i : Iss} {y : Sys} (h : i.FirstIn y) (r : Req) (op : AccOp) : y.recorded i r op = none := by
  unfold Sys.recorded
  split
  · rfl
  · rename_i hc
    rw [List.find?_eq_none]
    intro a ha
    simp only [Bool.and_eq_true, beq_iff_eq]
    rintro ⟨⟨⟨⟨⟨hu, hw⟩, _⟩, _⟩, _⟩, _⟩
    exact h a ha hu (by rw [hw]; simp [Iss.agent, hc])

theorem Iss.FirstIn.grows {i : Iss} {y z : Sys} {rs : List Req} (h : i.FirstIn y) (k : Grows i rs y z) : i.FirstIn z := by
  intro b hb hu
  rcases k.only b hb with ⟨a, ha, e⟩ | ⟨r, _, e⟩
  · unfold Access.Near at e
    have h1 : b.undone = a.undone := by rw [← e]
    have h2 : b.who = a.who := by rw [← e]
    rw [h2]
    exact h a ha (h1.symm.trans hu)
  · rw [e.2.2.1] at hu
    cases hu

/-- An update reaching its line changes lines in ticket order and when it may be tried again. -/
theorem abacusArrive_eq (y : Sys) (now id : Nat) :
    y.abacusArrive now id = y ∨
      ∃ (tl : List Nat) (f : Access → Access), y.abacusArrive now id = ({ y with ticketLines := tl } : Sys).modAccess id f ∧
        ∀ a : Access, a.Near (f a) := by
  unfold Sys.abacusArrive
  split
  · exact .inl rfl
  · split
    · exact .inl rfl
    · refine .inr ?_
      dsimp only
      split <;> (split <;> exact ⟨_, _, rfl, fun _ => rfl⟩)

/-- One access is added, and then accesses are mapped one by one. -/
theorem Grows.add {i : Iss} {r : Req} {y z : Sys} (a : Access) (f : Access → Access) (ha : i.Answers r a)
    (hf : ∀ x : Access, x.Near (f x)) (hz : z.accesses = (y.accesses ++ [a]).map f)
    (hg : ∀ h g, y.group? h = some g → ∃ n, z.group? h = some n ∧ { n with updates := g.updates } = g) (hc : z.cores = y.cores) :
    Grows i [r] y z := by
  refine ⟨fun x hx => ⟨f x, ?_, hf x⟩, fun b hb => ?_, fun q hq => ⟨f a, ?_, ?_⟩, hg, hc⟩
  · rw [hz]
    exact List.mem_map_of_mem (List.mem_append_left _ hx)
  · rw [hz] at hb
    obtain ⟨x, hx, rfl⟩ := List.mem_map.1 hb
    rcases List.mem_append.1 hx with hx | hx
    · exact .inl ⟨x, hx, hf x⟩
    · rw [List.mem_singleton.1 hx]
      exact .inr ⟨r, List.mem_singleton.2 rfl, ha.same (hf a).same⟩
  · rw [hz]
    exact List.mem_map_of_mem (List.mem_append_right _ (List.mem_singleton.2 rfl))
  · rw [List.mem_singleton.1 hq]
    exact ha.same (hf a).same

theorem group?_same {y z : Sys} (h : z.groups = y.groups) :
    ∀ u g, y.group? u = some g → ∃ n, z.group? u = some n ∧ { n with updates := g.updates } = g := by
  intro u g hg
  refine ⟨g, ?_, rfl⟩
  unfold Sys.group? at *
  rw [h]
  exact hg

theorem group?_updates (y : Sys) (v : Nat) (f : Group → Sparse 32) :
    ∀ u g, y.group? u = some g → ∃ n, (y.modGroup v (fun g => { g with updates := f g })).group? u = some n ∧
      { n with updates := g.updates } = g := by
  intro u g hg
  rw [Sys.modGroup_find y v u (fun g => { g with updates := f g }) (fun _ => rfl), hg]
  by_cases e : u = v
  · simp [e]
  · simp [e]

theorem logEal_groups (y : Sys) (now p : Nat) (cause : Cause) (rem remLog : BitVec 8) (addr : DWord) (k : RKind) (core slot vf : Nat)
    (hk : k = .group ∨ k = .cp) :
    (y.logEal now p cause rem remLog addr k core slot vf).groups = y.groups ∧
      (y.logEal now p cause rem remLog addr k core slot vf).cores = y.cores ∧
      (y.logEal now p cause rem remLog addr k core slot vf).accesses = y.accesses := by
  rcases hk with rfl | rfl <;> exact ⟨rfl, rfl, rfl⟩

theorem logGroup_groups (y : Sys) (now : Nat) (g : Group) (cause : Cause) (rem remLog : BitVec 8) (addr : DWord) :
    (y.logGroup now g cause rem remLog addr).groups = y.groups ∧ (y.logGroup now g cause rem remLog addr).cores = y.cores ∧
      (y.logGroup now g cause rem remLog addr).accesses = y.accesses := by
  unfold Sys.logGroup
  split
  · exact ⟨rfl, rfl, rfl⟩
  · exact logEal_groups _ _ _ _ _ _ _ _ _ _ _ (.inl rfl)

theorem logCp_groups (y : Sys) (now core : Nat) (cause : Cause) (rem remLog : BitVec 8) (addr : DWord) :
    (y.logCp now core cause rem remLog addr).groups = y.groups ∧ (y.logCp now core cause rem remLog addr).cores = y.cores ∧
      (y.logCp now core cause rem remLog addr).accesses = y.accesses := by
  unfold Sys.logCp
  split
  · exact ⟨rfl, rfl, rfl⟩
  · exact logEal_groups _ _ _ _ _ _ _ _ _ _ _ (.inr rfl)

theorem putAccess_spec (i : Iss) (r : Req) (a : Access) (y : Sys) (ha : i.Answers r a) :
    Grows i [r] y (i.putAccess a y) ∧ ((∃ f, r.target = .home f) → AddsOnly i y (i.putAccess a y)) := by
  have hs : ∀ z : Sys, z.groups = y.groups → z.cores = y.cores → z.accesses = y.accesses ++ [a] → Grows i [r] y z :=
    fun z h1 h2 h3 => .add a id ha (fun x => .refl x) (by simp [h3]) (group?_same h1) h2
  have ht : a.target = r.target := ha.2.2.2.2.2.2.2.1
  unfold Iss.putAccess
  split
  · rename_i c sub o he
    refine ⟨?_, fun ⟨f, h⟩ => ?_⟩
    · split
      · exact hs _ rfl rfl rfl
      · dsimp only
        have key : ∀ z : Sys, z.groups = y.groups ∧ z.cores = y.cores ∧ z.accesses = y.accesses → ∀ st : AccState,
            Grows i [r] y { z with accesses := z.accesses ++ [{ a with st := st }] } := fun z h st =>
          .add { a with st := st } id ha (fun x => .refl x) (by simp [h.2.2]) (group?_same h.1) h.2.1
        split
        · exact key y ⟨rfl, rfl, rfl⟩ _
        · split
          · exact key _ (logCp_groups ..) _
          · exact key _ (logGroup_groups ..) _
    · rw [ht, h] at he
      cases he
  · dsimp only
    split
    · rcases abacusArrive_eq { y with accesses := y.accesses ++ [a] } i.now a.id with h | ⟨tl, f, h, hf⟩
      · rw [h]
        exact ⟨hs _ rfl rfl rfl, fun _ => ⟨rfl, fun _ _ => rfl, fun _ => rfl⟩⟩
      · rw [h]
        refine ⟨.add a _ ha (fun x => ?_) rfl (group?_same rfl) rfl, fun _ => ⟨rfl, fun _ _ => rfl, fun _ => rfl⟩⟩
        split
        · exact hf x
        · exact .refl x
    · exact ⟨hs _ rfl rfl rfl, fun _ => ⟨rfl, fun _ _ => rfl, fun _ => rfl⟩⟩

/-- One request of which nothing is recorded: an access answers it, and what stood stands; at home, nothing else changes but numbers, lines
in ticket order and the count of updates. -/
theorem addReq_spec (i : Iss) (cls : BitVec 2) (slot : Option Nat) (pos prev : Nat) (r : Req) (y : Sys) (hn : i.FirstIn y)
    (hd : i.cp = true → i.det = false) :
    Grows i [r] y (i.addReq cls slot pos prev r y).2 ∧
      ((∃ f, r.target = .home f) → AddsOnly i y (i.addReq cls slot pos prev r y).2) := by
  unfold Iss.addReq
  simp only [hn.recorded, Sys.fresh]
  have ans : ∀ cur, i.Answers r (i.newAccess cls slot pos r (r.opAfter prev) y.nextId cur) := by
    intro cur
    refine ⟨rfl, rfl, rfl, rfl, rfl, rfl, rfl, rfl, rfl, rfl, ?_⟩
    unfold Iss.newAccess Req.opAfter
    by_cases h : r.linked = true
    · simp only [h, if_true]
      exact ⟨prev, rfl⟩
    · simp only [h]
      rfl
  by_cases hc : i.counts r = true
  · simp only [hc, if_true]
    have hcp : i.cp = false := by
      cases hcp : i.cp
      · rfl
      · simp [Iss.counts, hd hcp] at hc
    have g1 : ∀ (n : Nat) (f : Group → Sparse 32), Grows i [] y (({ y with nextId := n } : Sys).modGroup i.g.handle (fun g => { g with updates := f g })) :=
      fun n f => ⟨fun a h => ⟨a, h, .refl a⟩, fun b h => .inl ⟨b, h, .refl b⟩, fun _ h => (by cases h), group?_updates _ _ _, rfl⟩
    have g2 : ∀ (n : Nat) (f : Group → Sparse 32), AddsOnly i y (({ y with nextId := n } : Sys).modGroup i.g.handle (fun g => { g with updates := f g })) :=
      fun n f => ⟨rfl, fun h hh => by
        rw [Sys.modGroup_find { y with nextId := n } i.g.handle h (fun g => { g with updates := f g }) (fun _ => rfl)]
        rcases hh with hh | hh
        · rw [hcp] at hh; cases hh
        · rw [if_neg hh]; rfl, fun h => by rw [hcp] at h; cases h⟩
    generalize i.updateCount _ _ = cur
    obtain ⟨a, b⟩ := putAccess_spec i r _ (({ y with nextId := y.nextId + 1 } : Sys).modGroup i.g.handle
      (fun g => { g with updates := sset g.updates r.lane (BitVec.ofNat 32 (cur + 1)) })) (ans cur)
    exact ⟨(g1 (y.nextId + 1) (fun g => sset g.updates r.lane (BitVec.ofNat 32 (cur + 1)))).append a, fun h =>
      (g2 (y.nextId + 1) (fun g => sset g.updates r.lane (BitVec.ofNat 32 (cur + 1)))).trans (b h)⟩
  · simp only [hc]
    obtain ⟨a, b⟩ := putAccess_spec i r _ { y with nextId := y.nextId + 1 } (ans _)
    have g1 : Grows i [] y { y with nextId := y.nextId + 1 } :=
      ⟨fun a h => ⟨a, h, .refl a⟩, fun b h => .inl ⟨b, h, .refl b⟩, fun _ h => (by cases h), group?_same rfl, rfl⟩
    have g2 : AddsOnly i y { y with nextId := y.nextId + 1 } := ⟨rfl, fun _ _ => rfl, fun _ => rfl⟩
    exact ⟨g1.append a, fun h => g2.trans (b h)⟩

/-- The requests of an instruction in order. -/
theorem addReqs_spec (i : Iss) (cls : BitVec 2) (slot : Option Nat) (rs : List Req) (y : Sys) (hn : i.FirstIn y)
    (hd : i.cp = true → i.det = false) :
    Grows i rs y (i.addReqs cls slot rs y) ∧ ((∀ r ∈ rs, ∃ f, r.target = .home f) → AddsOnly i y (i.addReqs cls slot rs y)) := by
  unfold Iss.addReqs
  generalize hp : reqPos rs = pos
  generalize 0 = prev
  clear hp
  induction rs generalizing y prev with
  | nil => exact ⟨.nil i y, fun _ => .refl i y⟩
  | cons r q ih =>
    obtain ⟨a, b⟩ := addReq_spec i cls slot (pos r) prev r y hn hd
    obtain ⟨c, d⟩ := ih (i.addReq cls slot (pos r) prev r y).2 (hn.grows a) (i.addReq cls slot (pos r) prev r y).1
    exact ⟨a.append c, fun h => (b (h r (List.mem_cons_self ..))).trans (d (fun x hx => h x (List.mem_cons_of_mem _ hx)))⟩

/-! ### A memory word -/

/-- The domain barriers known once an instruction's requests are made. -/
def domainsAfter (l : List Target) (rs : List Req) : List Target :=
  rs.foldl (fun l r => match r.op with | .domain .. => if l.contains r.target then l else l ++ [r.target] | _ => l) l

theorem knowDomains_eq (y : Sys) (rs : List Req) : y.knowDomains rs = { y with domains := domainsAfter y.domains rs } := by
  induction rs generalizing y with
  | nil => rfl
  | cons r t ih =>
    have h : y.knowDomains (r :: t) = (match r.op with | .domain .. => y.knowDomain r.target | _ => y : Sys).knowDomains t := rfl
    rw [h, ih]
    unfold domainsAfter
    simp only [List.foldl_cons]
    cases r.op with
    | domain a b c =>
      dsimp only
      unfold Sys.knowDomain
      split <;> rfl
    | _ => rfl

/-- The package that a memory word starts from: what nothing can ask about again is forgotten. -/
def Plan.start (p : Plan) (i : Iss) (s : State) : Sys :=
  { s.sys.forget i.now with free := s.sys.free + p.frees, domains := domainsAfter s.sys.domains p.reqs }

/-- The package after a memory word's registers have been written and marked, before its accesses are added. -/
def Plan.before (p : Plan) (i : Iss) (s : State) : Sys :=
  let y := i.commit p.writes (p.start i s)
  let y1 := if p.deferred.isEmpty then y else i.defer p.deferred p.deferredLanes y
  let y2 := if p.deferredK.isEmpty then y1 else i.deferK p.deferredK y1
  match p.tapep with
  | some t => y2.modGroup i.g.handle (fun g => { g with regs := { g.regs with tapep := t } })
  | none => y2

/-- The issuer's registers but for its pending marks are `q`, and nothing else of the package differs from `x`. -/
def Iss.RegsAre (i : Iss) (x : Sys) (q : Regs) (y : Sys) : Prop :=
  ∃ g, y.group? i.g.handle = some g ∧ OnlyGroup i.g.handle x y ∧ { g with regs := i.stood } = i.standing ∧
    { g.regs with pend := i.stood.pend, pendK := i.stood.pendK } = q

theorem Iss.RegsAre.mod {i : Iss} {x y : Sys} {q r : Regs} (h : i.RegsAre x q y) (f : Regs → Regs)
    (hf : ∀ g : Regs, { g with pend := i.stood.pend, pendK := i.stood.pendK } = q →
      { f g with pend := i.stood.pend, pendK := i.stood.pendK } = r) :
    i.RegsAre x r (y.modGroup i.g.handle (fun g => { g with regs := f g.regs })) := by
  obtain ⟨g, h1, h2, h3, h4⟩ := h
  exact ⟨_, group?_modGroup (fun _ => rfl) h1, h2.trans (onlyGroup_modGroup _ _ _ (fun _ => rfl)), h3, hf _ h4⟩

theorem before_group {s : State} {i : Iss} (hi : issuer s = some i) (hc : i.cp = false) (p : Plan) :
    i.RegsAre (p.start i s)
      { i.stood.write p.writes with pend := i.stood.pend, pendK := i.stood.pendK, tapep := p.tapep.getD i.stood.tapep }
      (p.before i s) := by
  have h0 : i.RegsAre (p.start i s) i.stood (p.start i s) :=
    ⟨i.standing, (issuer_of_group hi hc).1, .refl _ _, rfl, rfl⟩
  unfold Plan.before Iss.commit Iss.defer Iss.deferK
  simp only [hc, Bool.false_eq_true, if_false]
  have h1 := h0.mod (r := { i.stood.write p.writes with pend := i.stood.pend, pendK := i.stood.pendK }) (fun r => r.write p.writes) (by
    intro g hg
    rw [← hg]
    rfl)
  generalize Sys.modGroup _ _ _ = y1 at h1 ⊢
  have h2 := h1.mod (r := { i.stood.write p.writes with pend := i.stood.pend, pendK := i.stood.pendK })
    (fun r => { r with pend := p.deferred.foldl (fun t r => sset t r (sget t r ||| p.deferredLanes)) r.pend }) (fun g hg => hg)
  have h2' : i.RegsAre (p.start i s) { i.stood.write p.writes with pend := i.stood.pend, pendK := i.stood.pendK }
      (if p.deferred.isEmpty = true then y1 else (y1.modGroup i.g.handle (fun g =>
        { g with regs := { g.regs with pend := p.deferred.foldl (fun t r => sset t r (sget t r ||| p.deferredLanes)) g.regs.pend } }))) := by
    split
    · exact h1
    · exact h2
  generalize (if p.deferred.isEmpty = true then y1 else _) = y2 at h2' ⊢
  have h3 := h2'.mod (r := { i.stood.write p.writes with pend := i.stood.pend, pendK := i.stood.pendK })
    (fun r => { r with pendK := p.deferredK.foldl (fun t r => sset t r i.e.mask) r.pendK }) (fun g hg => hg)
  have h3' : i.RegsAre (p.start i s) { i.stood.write p.writes with pend := i.stood.pend, pendK := i.stood.pendK }
      (if p.deferredK.isEmpty = true then y2 else (y2.modGroup i.g.handle (fun g =>
        { g with regs := { g.regs with pendK := p.deferredK.foldl (fun t r => sset t r i.e.mask) g.regs.pendK } }))) := by
    split
    · exact h2'
    · exact h3
  generalize (if p.deferredK.isEmpty = true then y2 else _) = y3 at h3' ⊢
  cases ht : p.tapep with
  | none => exact h3'
  | some t => exact h3'.mod (fun r => { r with tapep := t }) (fun g hg => congrArg (fun r : Regs => { r with tapep := t }) hg)

/-- The same for a control processor: its x registers, predicates and flags are as written. -/
theorem before_cp {s : State} {i : Iss} (hi : issuer s = some i) (hc : i.cp = true) (p : Plan) (ht : p.tapep = none) :
    ∃ q : Cp → Sparse 32, p.before i s = (p.start i s).modCp i.core
      (fun c => { c.write p.writes with pend := q c }) := by
  have _ := hi
  have comp : ∀ (y : Sys) (a b : Cp → Cp), (y.modCp i.core a).modCp i.core b = y.modCp i.core (fun c => b (a c)) := by
    intro y a b
    simp only [Sys.modCp, Sys.modCore]
    congr 1
    exact tmod_tmod y.cores i.core {} _ _
  unfold Plan.before Iss.commit Iss.deferK Iss.defer
  simp only [hc, if_true, ht]
  split <;> split
  · exact ⟨fun c => c.pend, rfl⟩
  · rw [comp]
    exact ⟨_, rfl⟩
  · rw [comp]
    exact ⟨_, rfl⟩
  · rw [comp, comp]
    exact ⟨_, rfl⟩

theorem fall_accesses (i : Iss) (d : Desc) (kw : List Nat) (holds : List FenceHold) (y : Sys) :
    (i.fall d kw holds y).accesses = y.accesses := by
  unfold Iss.fall
  split
  · rfl
  · rfl

theorem fall_heldO (i : Iss) (d : Desc) (kw : List Nat) (holds : List FenceHold) (y : Sys) :
    (i.fall d kw holds y).heldO = y.heldO := by
  unfold Iss.fall
  split <;> rfl

theorem det_cp {s : State} {i : Iss} (hi : issuer s = some i) (hc : i.cp = true) : i.det = false := by
  unfold Iss.det
  rw [(issuer_of_cp hi hc).2.2.2.2]

/-- Where every access of the fabric has left, sending does nothing. -/
theorem send_nothing {y : Sys} (now : Nat) (h0 : y.heldO = []) (h : ∀ a ∈ y.accesses, a.isFabric = true → a.isFlight = true → a.sent = true) :
    (y.fabricHits now).sendAll now = y := by
  have e : y.accesses.filter (fun a => a.isFabric && !a.sent && a.isFlight) = [] := by
    rw [List.filter_eq_nil_iff]
    intro a ha hb
    simp only [Bool.and_eq_true, Bool.not_eq_true'] at hb
    have := h a ha hb.1.1 hb.2
    rw [hb.1.2] at this
    cases this
  have f : y.fabricHits now = y := by
    unfold Sys.fabricHits
    rw [e]
    rfl
  rw [f]
  unfold Sys.sendAll Sys.dispatchHeld
  rw [e, h0]
  simp only [List.foldl_nil]
  have h1 : ∀ l, y.heldO = l → ({ y with heldO := l } : Sys) = y := fun l h => by rw [← h]
  exact h1 _ h0

theorem before_accesses {s : State} {i : Iss} (hi : issuer s = some i) (p : Plan) (ht : i.cp = true → p.tapep = none) :
    (p.before i s).accesses = (s.sys.forget i.now).accesses := by
  cases hc : i.cp with
  | true =>
    obtain ⟨q, hq⟩ := before_cp hi hc p (ht hc)
    rw [hq]
    rfl
  | false =>
    obtain ⟨g, _, h2, _, _⟩ := before_group hi hc p
    have := congrArg Sys.accesses h2.rest
    exact this

theorem before_heldO {s : State} {i : Iss} (hi : issuer s = some i) (p : Plan) (ht : i.cp = true → p.tapep = none) :
    (p.before i s).heldO = s.sys.heldO := by
  cases hc : i.cp with
  | true =>
    obtain ⟨q, hq⟩ := before_cp hi hc p (ht hc)
    rw [hq]
    rfl
  | false =>
    obtain ⟨g, _, h2, _, _⟩ := before_group hi hc p
    have := congrArg Sys.heldO h2.rest
    exact this

theorem forget_sub (y : Sys) (now : Nat) : ∀ a ∈ (y.forget now).accesses, a ∈ y.accesses := by
  intro a h
  exact (List.mem_filter.1 h).1

theorem before_first {s : State} {i : Iss} (hi : issuer s = some i) (p : Plan) (ht : i.cp = true → p.tapep = none)
    (hf : i.firstTime s) : i.FirstIn (p.before i s) := by
  intro a ha
  rw [before_accesses hi p ht] at ha
  exact hf a (forget_sub _ _ a ha)

/-- The package after a memory word, before what may leave is sent. -/
def Plan.placed (p : Plan) (i : Iss) (s : State) (d : Desc) (cls : BitVec 2) (slot : Option Nat) : Sys :=
  i.fall d (p.deferredK ++ (if p.tapep.isSome then [130] else [])) (p.holds ++ i.acqHold s.sys p.reqs)
    (i.addReqs cls slot p.reqs (p.before i s))

theorem slotFree_some {s : State} {i : Iss} {rs : List Req} (h : i.slotFree s rs) :
    ((if i.needsSlot s.sys rs then s.sys.freeSlot i.g else some 0) : Option Nat).isNone = false := by
  split
  · rename_i hn
    unfold Iss.needsSlot at hn
    rw [Bool.and_eq_true, List.any_eq_true] at hn
    obtain ⟨hc, r, hr, hn⟩ := hn
    rcases h with h | h | h
    · rw [h] at hc
      cases hc
    · obtain ⟨f, hf⟩ := h r hr
      simp [Req.fline, hf] at hn
    · simpa using h
  · rfl

/-- The state that a memory word past its checks and its own decision answers. -/
theorem memWord_eq {s : State} {i : Iss} (hi : issuer s = some i) (d : Iss → Desc) (cls : BitVec 2) (dec : Iss → State → Decision)
    (p : Plan) (hc : i.check s.sys (d i) = .go) (hd : dec i s = .go p) (hs : i.slotFree s p.reqs)
    (hr : i.relHolds s.sys p.reqs = false) :
    ∃ slot, memWord d cls dec s = .next { s with sys := ((p.placed i s (d i) cls slot).fabricHits i.now).sendAll i.now } := by
  have h0 := slotFree_some hs
  refine ⟨if i.needsSlot s.sys p.reqs then s.sys.freeSlot i.g else some 0, ?_⟩
  unfold memWord
  rw [wordNext_eq hi]
  simp only [hc, hd, h0, hr, Bool.or_false, Bool.false_eq_true, if_false, knowDomains_eq]
  rfl

/-- A memory word past its checks and its own decision: the move to the next word, the accesses that stand, and TAPEP. -/
theorem memWord_go {s : State} {i : Iss} (hi : issuer s = some i) (d : Iss → Desc) (cls : BitVec 2) (dec : Iss → State → Decision)
    (p : Plan) (hc : i.check s.sys (d i) = .go) (hd : dec i s = .go p) (hf : i.firstTime s) (hs : i.slotFree s p.reqs)
    (hr : i.relHolds s.sys p.reqs = false) (ht : i.cp = true → p.tapep = none) :
    ∃ t, memWord d cls dec s = .next t ∧ { t with sys := s.sys } = s ∧ i.AllAt t (i.e.pc + 4) ∧
      (∀ r ∈ p.reqs, ∃ a ∈ t.sys.accesses, i.Answers r a) ∧
      (i.cp = false → (i.groupIn t).regs.tapep = p.tapep.getD i.g.regs.tapep) := by
  obtain ⟨slot, e⟩ := memWord_eq hi d cls dec p hc hd hs hr
  refine ⟨_, e, rfl, ?_⟩
  have hg := (addReqs_spec i cls slot p.reqs (p.before i s) (before_first hi p ht hf) (fun h => det_cp hi h)).1
  have hk : Retains (p.placed i s (d i) cls slot) (((p.placed i s (d i) cls slot).fabricHits i.now).sendAll i.now) :=
    (fabricHits_retains _ _).trans (sendAll_retains _ _)
  have hacc : ∀ r ∈ p.reqs, ∃ a ∈ (((p.placed i s (d i) cls slot).fabricHits i.now).sendAll i.now).accesses, i.Answers r a := by
    intro r hr
    obtain ⟨a, ha, ho⟩ := hg.asked r hr
    obtain ⟨b, hb, hab⟩ := hk.acc a (by unfold Plan.placed; rw [fall_accesses]; exact ha)
    exact ⟨b, hb, ho.same hab⟩
  cases hcp : i.cp with
  | true =>
    refine ⟨?_, hacc, fun h => by cases h⟩
    unfold Iss.AllAt
    simp only [hcp, if_true, Iss.cpIn]
    rw [hk.cp]
    unfold Plan.placed
    rw [fall_cp _ _ _ _ _ hcp]
    unfold Iss.placeCp
    rw [Sys.modCp_core, if_pos rfl]
  | false =>
    obtain ⟨g, h1, _, _, h4⟩ := before_group hi hcp p
    obtain ⟨g', h1', h2'⟩ := hg.grp _ g h1
    obtain ⟨n, a, b, c, e', f⟩ := fall_group i (d i) (p.deferredK ++ (if p.tapep.isSome then [130] else []))
      (p.holds ++ i.acqHold s.sys p.reqs) (i.addReqs cls slot p.reqs (p.before i s)) g' hcp h1'
    obtain ⟨m, hm, hm1, hm2⟩ := hk.grp _ n a
    have hgi : ∀ y : Sys, y.group? i.g.handle = some m → i.groupIn { s with sys := y } = m := fun y hy => by simp [Iss.groupIn, hy]
    refine ⟨?_, hacc, fun _ => ?_⟩
    · unfold Iss.AllAt
      simp only [hcp, Bool.false_eq_true, if_false]
      intro l _ hl
      rw [hgi _ hm, hm1]
      exact f l hl
    · rw [hgi _ hm, hm2]
      have t1 : n.regs.tapep = g'.regs.tapep := by have := congrArg Regs.tapep e'; exact this
      have t2 : g'.regs.tapep = g.regs.tapep := by have := congrArg (fun g : Group => g.regs.tapep) h2'; exact this
      have t0 : i.g.regs.tapep = i.stood.tapep := by have := congrArg Regs.tapep (issuer_of_group hi hcp).2; exact this
      have t3 : g.regs.tapep = p.tapep.getD i.g.regs.tapep := by rw [t0]; have := congrArg Regs.tapep h4; exact this
      rw [t1, t2, t3]

/-- A control processor moved to the next word. -/
def Iss.placedCp (i : Iss) (d : Desc) (holds : List FenceHold) (c : Cp) : Cp :=
  { c with pc := i.e.pc + 4, hints := {}, holds := c.holds ++ holds, delay := i.e.hints.delaySlots, nextSeq := c.nextSeq + 1
           pend := if d.s then [] else c.pend }

/-- The same at home with nothing of the fabric waiting to be sent: the registers change as written, and nothing else does but the accesses
asked for. -/
theorem memWord_frame {s : State} {i : Iss} (hi : issuer s = some i) (d : Iss → Desc) (cls : BitVec 2) (dec : Iss → State → Decision)
    (p : Plan) (hc : i.check s.sys (d i) = .go) (hd : dec i s = .go p) (hf : i.firstTime s) (hs : i.slotFree s p.reqs)
    (hr : i.relHolds s.sys p.reqs = false) (ht : p.tapep = none) (hw : p.writes.Fit i.cp) (hqt : s.quiet)
    (hh : ∀ r ∈ p.reqs, ∃ f, r.target = .home f) :
    ∃ t, memWord d cls dec s = .next t ∧ i.Frame s (i.lessAccesses s t) ∧
      i.Changes t p.writes.vAt p.writes.kAt p.writes.pAt p.writes.fAt ∧
      (∀ a ∈ s.sys.accesses, a.isFlight = true → ∃ b ∈ t.sys.accesses, { b with retryAt := a.retryAt } = a) ∧
      (∀ b ∈ t.sys.accesses, (∃ a ∈ s.sys.accesses, { b with retryAt := a.retryAt } = a) ∨ (∃ r ∈ p.reqs, i.Answers r b)) := by
  obtain ⟨slot, e⟩ := memWord_eq hi d cls dec p hc hd hs hr
  have hft := before_first hi p (fun _ => ht) hf
  obtain ⟨hg, ho⟩ := addReqs_spec i cls slot p.reqs (p.before i s) hft (fun h => det_cp hi h)
  have ho := ho hh
  have hacc : (p.placed i s (d i) cls slot).accesses = (i.addReqs cls slot p.reqs (p.before i s)).accesses := fall_accesses ..
  have hfrom : ∀ b ∈ (p.placed i s (d i) cls slot).accesses,
      (∃ a ∈ s.sys.accesses, { b with retryAt := a.retryAt } = a) ∨ (∃ r ∈ p.reqs, i.Answers r b) := by
    intro b hb
    rw [hacc] at hb
    rcases hg.only b hb with ⟨a, ha, h⟩ | h
    · rw [before_accesses hi p (fun _ => ht)] at ha
      exact .inl ⟨a, forget_sub _ _ a ha, h⟩
    · exact .inr h
  have hheld : (p.placed i s (d i) cls slot).heldO = s.sys.heldO := by
    have e2 := congrArg Sys.heldO ho.rest
    exact (fall_heldO ..).trans (e2.trans (before_heldO hi p (fun _ => ht)))
  have hsend : ((p.placed i s (d i) cls slot).fabricHits i.now).sendAll i.now = p.placed i s (d i) cls slot := by
    refine send_nothing _ (hheld.trans hqt.1) (fun b hb h1 h2 => ?_)
    rcases hfrom b hb with ⟨a, ha, h⟩ | ⟨r, hr, h⟩
    · have := hqt.2 a ha (by rw [← h]; exact h1) (by rw [← h]; exact h2)
      rw [← h] at this
      exact this
    · obtain ⟨f, hf⟩ := hh r hr
      have : b.target = .home f := h.2.2.2.2.2.2.2.1.trans hf
      unfold Access.isFabric at h1
      rw [this] at h1
      cases h1
  refine ⟨_, e, ?_⟩
  rw [hsend]
  have hfc : i.Frame s (i.lessAccesses s { s with sys := p.placed i s (d i) cls slot }) ∧
      i.Changes { s with sys := p.placed i s (d i) cls slot } p.writes.vAt p.writes.kAt p.writes.pAt p.writes.fAt := by
    cases hcp : i.cp with
    | false =>
      obtain ⟨g, h1, h2, h3, h4⟩ := before_group hi hcp p
      obtain ⟨g', h1', h2'⟩ := hg.grp _ g h1
      obtain ⟨n, a, b, c, e', _⟩ := fall_group i (d i) (p.deferredK ++ (if p.tapep.isSome then [130] else []))
        (p.holds ++ i.acqHold s.sys p.reqs) (i.addReqs cls slot p.reqs (p.before i s)) g' hcp h1'
      refine ⟨?_, changes_of_group hi hcp a p.writes hw ?_⟩
      · unfold Iss.lessAccesses
        simp only [hcp, Bool.false_eq_true, if_false]
        refine frame_of_own hi hcp (group?_modGroup (fun _ => rfl) a) ⟨?_, fun k hk => ?_⟩ ?_
        · have q : ∀ x y : Sys, x = y →
              ({ x with groups := s.sys.groups, accesses := s.sys.accesses, nextId := s.sys.nextId, free := s.sys.free,
                        ticketLines := s.sys.ticketLines, domains := s.sys.domains } : Sys) =
              { y with groups := s.sys.groups, accesses := s.sys.accesses, nextId := s.sys.nextId, free := s.sys.free,
                       ticketLines := s.sys.ticketLines, domains := s.sys.domains } := fun x y h => by rw [h]
          have e1 := q _ _ b.rest
          have e2 := q _ _ ho.rest
          have e3 := q _ _ h2.rest
          exact e1.trans (e2.trans e3)
        · have e1 := (onlyGroup_modGroup (p.placed i s (d i) cls slot) i.g.handle (fun g => { g with updates := i.g.updates, matrix := i.g.matrix })
            (fun _ => rfl)).others k hk
          refine Eq.trans e1 ?_
          exact (b.others k hk).trans ((ho.others k (.inr hk)).trans (h2.others k hk))
        · have q : ∀ x y : Group, x = y →
              ({ x with updates := i.g.updates, matrix := i.g.matrix, regs := i.stood, frontier := i.g.frontier, window := i.g.window, nextSeq := i.g.nextSeq } : Group) =
              { y with updates := i.g.updates, matrix := i.g.matrix, regs := i.stood, frontier := i.g.frontier, window := i.g.window, nextSeq := i.g.nextSeq } :=
            fun x y h => by rw [h]
          have e1 := q _ _ c
          have e2 := q _ _ h2'
          have e3 := q _ _ h3
          exact e1.trans (e2.trans e3)
      · have q : ∀ x y : Regs, x = y → ({ x with pend := i.stood.pend, pendK := i.stood.pendK } : Regs) =
            { y with pend := i.stood.pend, pendK := i.stood.pendK } := fun x y h => by rw [h]
        have hrg : g'.regs = g.regs := by have := congrArg Group.regs h2'; exact this
        have e1 := q _ _ e'
        have e2 := q _ _ hrg
        refine e1.trans (e2.trans (h4.trans ?_))
        rw [ht]
        rfl
    | true =>
      obtain ⟨f, hq⟩ := before_cp hi hcp p ht
      have hcore : ∀ k, (i.addReqs cls slot p.reqs (p.before i s)).core k = (p.before i s).core k := by
        intro k
        unfold Sys.core
        rw [hg.cp]
      have hpl : p.placed i s (d i) cls slot = _ := fall_cp _ _ _ _ _ hcp
      have hpc : ∀ k, (p.placed i s (d i) cls slot).core k = if k = i.core then
          { s.sys.core i.core with cp := (i.placedCp (d i) (p.holds ++ i.acqHold s.sys p.reqs) { (s.sys.core i.core).cp.write p.writes with
            pend := f (s.sys.core i.core).cp }) } else s.sys.core k := by
        intro k
        rw [hpl]
        unfold Iss.placeCp
        rw [Sys.modCp_core, hcore, hcore, hq, Sys.modCp_core, Sys.modCp_core, if_pos rfl]
        by_cases hk : k = i.core
        · rw [if_pos hk, if_pos hk]
          rfl
        · rw [if_neg hk, if_neg hk, if_neg hk]
          rfl
      have hcpin : i.cpIn { s with sys := p.placed i s (d i) cls slot } =
          i.placedCp (d i) (p.holds ++ i.acqHold s.sys p.reqs) { i.c.write p.writes with pend := f i.c } := by
        unfold Iss.cpIn
        rw [hpc, if_pos rfl, (issuer_of_cp hi hcp).1]
      refine ⟨?_, changes_of_cp hi hcp p.writes hw (by rw [hcpin]; rfl) (by rw [hcpin]; rfl) (by rw [hcpin]; rfl)⟩
      unfold Iss.lessAccesses
      simp only [hcp, if_true]
      refine frame_of_cp hi hcp ⟨?_, fun k hk => ?_, ?_⟩ ?_
      · have q : ∀ x y : Sys, x = y →
            ({ x with cores := s.sys.cores, groups := s.sys.groups, accesses := s.sys.accesses, nextId := s.sys.nextId
                      free := s.sys.free, ticketLines := s.sys.ticketLines, domains := s.sys.domains } : Sys) =
            { y with cores := s.sys.cores, groups := s.sys.groups, accesses := s.sys.accesses, nextId := s.sys.nextId
                     free := s.sys.free, ticketLines := s.sys.ticketLines, domains := s.sys.domains } := fun x y h => by rw [h]
        have e1 := q _ _ hpl
        have e2 := q _ _ ho.rest
        have e3 := q _ _ hq
        have e0 : (p.placed i s (d i) cls slot).groups = s.sys.groups := by
          have hb : (p.before i s).groups = s.sys.groups := by
            rw [hq]
            rfl
          rw [hpl]
          exact (ho.same hcp).trans hb
        have e4 := e1.trans (e2.trans e3)
        have e5 : ({ p.placed i s (d i) cls slot with
            cores := s.sys.cores, groups := (p.placed i s (d i) cls slot).groups, accesses := s.sys.accesses, nextId := s.sys.nextId
            free := s.sys.free, ticketLines := s.sys.ticketLines, domains := s.sys.domains } : Sys) = s.sys := by
          rw [e0]
          exact e4
        exact e5
      · exact (hpc k).trans (if_neg hk)
      · have := (hpc i.core).trans (if_pos rfl)
        have e1 := congrArg (fun c : Core => { c with cp := (s.sys.core i.core).cp }) this
        exact e1
      · have e1 : (({ p.placed i s (d i) cls slot with
            accesses := s.sys.accesses, nextId := s.sys.nextId, free := s.sys.free, ticketLines := s.sys.ticketLines, domains := s.sys.domains } : Sys).core i.core).cp = i.placedCp (d i) (p.holds ++ i.acqHold s.sys p.reqs)
            { i.c.write p.writes with pend := f i.c } := hcpin
        rw [e1]
        rfl
  refine ⟨hfc.1, hfc.2, ?_, hfrom⟩
  · intro a ha hfl
    have : a ∈ (p.before i s).accesses := by
      rw [before_accesses hi p (fun _ => ht)]
      refine List.mem_filter.2 ⟨ha, ?_⟩
      unfold Access.isFlight at hfl
      cases hst : a.st <;> simp_all
    obtain ⟨b, hb, h⟩ := hg.stay a this
    exact ⟨b, by rw [hacc]; exact hb, h⟩

/-- A memory word past its checks and its own decision, in the terms of `Iss.Issues`. -/
theorem issues_of {s : State} {i : Iss} (hi : issuer s = some i) {x : Instr} (d : Iss → Desc) (cls : BitVec 2)
    (dec : Iss → State → Decision) (p : Plan) (rs : List Req) (v : Nat → Nat → Option DWord) (k : Nat → Option DWord)
    (hx : exec x s = memWord d cls dec s) (hc : i.check s.sys (d i) = .go) (hd : dec i s = .go p) (hf : i.firstTime s)
    (hm : ∀ r, r ∈ p.reqs ↔ r ∈ rs) (hs : i.slotFree s rs) (hr : i.relHolds s.sys p.reqs = false) (ht : p.tapep = none)
    (hw : p.writes.Fit i.cp) (hv : ∀ l r, p.writes.vAt l r = v l r) (hk : ∀ r, p.writes.kAt r = k r) (hp : p.writes.p = [])
    (hfl : p.writes.f = []) : i.Issues s x rs v k := by
  have hs' : i.slotFree s p.reqs := by
    rcases hs with h | h | h
    · exact .inl h
    · exact .inr (.inl (fun r hr => h r ((hm r).1 hr)))
    · exact .inr (.inr h)
  obtain ⟨t, h1, h2, h3, h4, _⟩ := memWord_go hi d cls dec p hc hd hf hs' hr (fun _ => ht)
  refine ⟨t, hx.trans h1, h2, h3, fun r hr => h4 r ((hm r).2 hr), fun hq hh => ?_⟩
  obtain ⟨t', g1, g2, g3, g4, g5⟩ := memWord_frame hi d cls dec p hc hd hf hs' hr ht hw hq (fun r hr => hh r ((hm r).1 hr))
  have e : t' = t := by
    have := g1.symm.trans h1
    cases this
    rfl
  subst e
  refine ⟨g2, g3.congr hv hk (fun l n => by simp [Writes.pAt, hp]) (fun l => by simp [Writes.fAt, hfl]), g4, fun b hb => ?_⟩
  rcases g5 b hb with h | ⟨r, hr, h⟩
  · exact .inl h
  · exact .inr ⟨r, (hm r).1 hr, h⟩

end Sys2Proof.Machine
end

