-- ==== Sys2Proof/Laws/Encoding.lean ====
section
/-!
SUPPORT. Packing the fields of a word and reading them back, form by form: `unpack_pack` gives the fields, `major_pack` the major
code, the `fn` lemmas the minor code, and `fixed_pack` the fixed fields.
-/
namespace Sys2Proof

theorem FormTR.unpack_pack (op : BitVec 6) (o : FormTR) : FormTR.unpack (o.pack op) = o := by
  change FormTR.mk (BitVec.getLsbD (w := 1+6+7+7+7+1+3) _ 31) (BitVec.extractLsb' (n := 1+6+7+7+7+1+3) 18 7 _) (BitVec.extractLsb' (n := 1+6+7+7+7+1+3) 11 7 _) (BitVec.extractLsb' (n := 1+6+7+7+7+1+3) 4 7 _) (BitVec.getLsbD (w := 1+6+7+7+7+1+3) _ 3) (BitVec.extractLsb' (n := 1+6+7+7+7+1+3) 0 3 _) = _
  unfold FormTR.pack
  obtain ⟨_, _, _, _, _, _⟩ := o
  simp only [FormTR.mk.injEq]
  refine ⟨?_, ?_, ?_, ?_, ?_, ?_⟩ <;> first | (apply BitVec.eq_of_getLsbD_eq; intro j hj; simp only [BitVec.getLsbD_extractLsb', BitVec.getLsbD_append]; grind) | (simp only [BitVec.getLsbD_append]; simp)

theorem FormTR.major_pack (op : BitVec 6) (o : FormTR) : majorOf (o.pack op) = op := by
  change BitVec.extractLsb' (n := 1+6+7+7+7+1+3) 25 6 _ = op
  unfold FormTR.pack
  apply BitVec.eq_of_getLsbD_eq; intro j hj; simp only [BitVec.getLsbD_extractLsb', BitVec.getLsbD_append]; grind

theorem FormCmp.unpack_pack (op : BitVec 6) (o : FormCmp) : FormCmp.unpack (o.pack op) = o := by
  change FormCmp.mk (BitVec.getLsbD (w := 1+6+6+1+7+7+1+3) _ 31) (BitVec.extractLsb' (n := 1+6+6+1+7+7+1+3) 19 6 _) (BitVec.getLsbD (w := 1+6+6+1+7+7+1+3) _ 18) (BitVec.extractLsb' (n := 1+6+6+1+7+7+1+3) 11 7 _) (BitVec.extractLsb' (n := 1+6+6+1+7+7+1+3) 4 7 _) (BitVec.getLsbD (w := 1+6+6+1+7+7+1+3) _ 3) (BitVec.extractLsb' (n := 1+6+6+1+7+7+1+3) 0 3 _) = _
  unfold FormCmp.pack
  obtain ⟨_, _, _, _, _, _, _⟩ := o
  simp only [FormCmp.mk.injEq]
  refine ⟨?_, ?_, ?_, ?_, ?_, ?_, ?_⟩ <;> first | (apply BitVec.eq_of_getLsbD_eq; intro j hj; simp only [BitVec.getLsbD_extractLsb', BitVec.getLsbD_append]; grind) | (simp only [BitVec.getLsbD_append]; simp)

theorem FormCmp.major_pack (op : BitVec 6) (o : FormCmp) : majorOf (o.pack op) = op := by
  change BitVec.extractLsb' (n := 1+6+6+1+7+7+1+3) 25 6 _ = op
  unfold FormCmp.pack
  apply BitVec.eq_of_getLsbD_eq; intro j hj; simp only [BitVec.getLsbD_extractLsb', BitVec.getLsbD_append]; grind

theorem FormTI.unpack_pack (op : BitVec 6) (o : FormTI) : FormTI.unpack (o.pack op) = o := by
  change FormTI.mk (BitVec.getLsbD (w := 1+6+7+7+8+3) _ 31) (BitVec.extractLsb' (n := 1+6+7+7+8+3) 18 7 _) (BitVec.extractLsb' (n := 1+6+7+7+8+3) 11 7 _) (BitVec.extractLsb' (n := 1+6+7+7+8+3) 3 8 _) (BitVec.extractLsb' (n := 1+6+7+7+8+3) 0 3 _) = _
  unfold FormTI.pack
  obtain ⟨_, _, _, _, _⟩ := o
  simp only [FormTI.mk.injEq]
  refine ⟨?_, ?_, ?_, ?_, ?_⟩ <;> first | (apply BitVec.eq_of_getLsbD_eq; intro j hj; simp only [BitVec.getLsbD_extractLsb', BitVec.getLsbD_append]; grind) | (simp only [BitVec.getLsbD_append]; simp)

theorem FormTI.major_pack (op : BitVec 6) (o : FormTI) : majorOf (o.pack op) = op := by
  change BitVec.extractLsb' (n := 1+6+7+7+8+3) 25 6 _ = op
  unfold FormTI.pack
  apply BitVec.eq_of_getLsbD_eq; intro j hj; simp only [BitVec.getLsbD_extractLsb', BitVec.getLsbD_append]; grind

theorem FormShfi.unpack_pack (op : BitVec 6) (o : FormShfi) : FormShfi.unpack (o.pack op) = o := by
  change FormShfi.mk (BitVec.getLsbD (w := 1+6+7+7+2+1+5+3) _ 31) (BitVec.extractLsb' (n := 1+6+7+7+2+1+5+3) 18 7 _) (BitVec.extractLsb' (n := 1+6+7+7+2+1+5+3) 11 7 _) (BitVec.extractLsb' (n := 1+6+7+7+2+1+5+3) 9 2 _) (BitVec.extractLsb' (n := 1+6+7+7+2+1+5+3) 3 5 _) (BitVec.extractLsb' (n := 1+6+7+7+2+1+5+3) 0 3 _) = _
  unfold FormShfi.pack
  obtain ⟨_, _, _, _, _, _⟩ := o
  simp only [FormShfi.mk.injEq]
  refine ⟨?_, ?_, ?_, ?_, ?_, ?_⟩ <;> first | (apply BitVec.eq_of_getLsbD_eq; intro j hj; simp only [BitVec.getLsbD_extractLsb', BitVec.getLsbD_append]; grind) | (simp only [BitVec.getLsbD_append]; simp)

theorem FormShfi.major_pack (op : BitVec 6) (o : FormShfi) : majorOf (o.pack op) = op := by
  change BitVec.extractLsb' (n := 1+6+7+7+2+1+5+3) 25 6 _ = op
  unfold FormShfi.pack
  apply BitVec.eq_of_getLsbD_eq; intro j hj; simp only [BitVec.getLsbD_extractLsb', BitVec.getLsbD_append]; grind

theorem FormShfi.fixed_pack (op : BitVec 6) (o : FormShfi) : FormShfi.fixedOk (o.pack op) = true := by
  have h0 : BitVec.extractLsb' (n := 1+6+7+7+2+1+5+3) 8 1 (o.pack op) = 0 := by
    unfold FormShfi.pack
    apply BitVec.eq_of_getLsbD_eq; intro j hj; simp only [BitVec.getLsbD_extractLsb', BitVec.getLsbD_append]; grind
  change ((BitVec.extractLsb' (n := 1+6+7+7+2+1+5+3) 8 1 (o.pack op) == 0)) = true
  rw [h0]
  rfl

theorem FormMovi.unpack_pack (op : BitVec 6) (o : FormMovi) : FormMovi.unpack (o.pack op) = o := by
  change FormMovi.mk (BitVec.getLsbD (w := 1+6+7+7+8+3) _ 31) (BitVec.extractLsb' (n := 1+6+7+7+8+3) 18 7 _) (BitVec.extractLsb' (n := 1+6+7+7+8+3) 3 8 _) (BitVec.extractLsb' (n := 1+6+7+7+8+3) 0 3 _) = _
  unfold FormMovi.pack
  obtain ⟨_, _, _, _⟩ := o
  simp only [FormMovi.mk.injEq]
  refine ⟨?_, ?_, ?_, ?_⟩ <;> first | (apply BitVec.eq_of_getLsbD_eq; intro j hj; simp only [BitVec.getLsbD_extractLsb', BitVec.getLsbD_append]; grind) | (simp only [BitVec.getLsbD_append]; simp)

theorem FormMovi.major_pack (op : BitVec 6) (o : FormMovi) : majorOf (o.pack op) = op := by
  change BitVec.extractLsb' (n := 1+6+7+7+8+3) 25 6 _ = op
  unfold FormMovi.pack
  apply BitVec.eq_of_getLsbD_eq; intro j hj; simp only [BitVec.getLsbD_extractLsb', BitVec.getLsbD_append]; grind

theorem FormMovi.fixed_pack (op : BitVec 6) (o : FormMovi) : FormMovi.fixedOk (o.pack op) = true := by
  have h0 : BitVec.extractLsb' (n := 1+6+7+7+8+3) 11 7 (o.pack op) = 0 := by
    unfold FormMovi.pack
    apply BitVec.eq_of_getLsbD_eq; intro j hj; simp only [BitVec.getLsbD_extractLsb', BitVec.getLsbD_append]; grind
  change ((BitVec.extractLsb' (n := 1+6+7+7+8+3) 11 7 (o.pack op) == 0)) = true
  rw [h0]
  rfl

theorem FormTM.unpack_pack (op : BitVec 6) (o : FormTM) : FormTM.unpack (o.pack op) = o := by
  change FormTM.mk (BitVec.getLsbD (w := 1+6+7+7+2+6+3) _ 31) (BitVec.extractLsb' (n := 1+6+7+7+2+6+3) 18 7 _) (BitVec.extractLsb' (n := 1+6+7+7+2+6+3) 11 7 _) (BitVec.extractLsb' (n := 1+6+7+7+2+6+3) 9 2 _) (BitVec.extractLsb' (n := 1+6+7+7+2+6+3) 3 6 _) (BitVec.extractLsb' (n := 1+6+7+7+2+6+3) 0 3 _) = _
  unfold FormTM.pack
  obtain ⟨_, _, _, _, _, _⟩ := o
  simp only [FormTM.mk.injEq]
  refine ⟨?_, ?_, ?_, ?_, ?_, ?_⟩ <;> first | (apply BitVec.eq_of_getLsbD_eq; intro j hj; simp only [BitVec.getLsbD_extractLsb', BitVec.getLsbD_append]; grind) | (simp only [BitVec.getLsbD_append]; simp)

theorem FormTM.major_pack (op : BitVec 6) (o : FormTM) : majorOf (o.pack op) = op := by
  change BitVec.extractLsb' (n := 1+6+7+7+2+6+3) 25 6 _ = op
  unfold FormTM.pack
  apply BitVec.eq_of_getLsbD_eq; intro j hj; simp only [BitVec.getLsbD_extractLsb', BitVec.getLsbD_append]; grind

theorem FormAtom.unpack_pack (op : BitVec 6) (fn : BitVec 5) (o : FormAtom) : FormAtom.unpack (o.pack op fn) = o := by
  change FormAtom.mk (BitVec.getLsbD (w := 1+6+7+7+2+1+5+3) _ 31) (BitVec.extractLsb' (n := 1+6+7+7+2+1+5+3) 18 7 _) (BitVec.extractLsb' (n := 1+6+7+7+2+1+5+3) 11 7 _) (BitVec.extractLsb' (n := 1+6+7+7+2+1+5+3) 9 2 _) (BitVec.getLsbD (w := 1+6+7+7+2+1+5+3) _ 8) (BitVec.extractLsb' (n := 1+6+7+7+2+1+5+3) 0 3 _) = _
  unfold FormAtom.pack
  obtain ⟨_, _, _, _, _, _⟩ := o
  simp only [FormAtom.mk.injEq]
  refine ⟨?_, ?_, ?_, ?_, ?_, ?_⟩ <;> first | (apply BitVec.eq_of_getLsbD_eq; intro j hj; simp only [BitVec.getLsbD_extractLsb', BitVec.getLsbD_append]; grind) | (simp only [BitVec.getLsbD_append]; simp)

theorem FormAtom.major_pack (op : BitVec 6) (fn : BitVec 5) (o : FormAtom) : majorOf (o.pack op fn) = op := by
  change BitVec.extractLsb' (n := 1+6+7+7+2+1+5+3) 25 6 _ = op
  unfold FormAtom.pack
  apply BitVec.eq_of_getLsbD_eq; intro j hj; simp only [BitVec.getLsbD_extractLsb', BitVec.getLsbD_append]; grind

theorem FormAtom.fn_3_5_pack (op : BitVec 6) (fn : BitVec 5) (o : FormAtom) : BitVec.extractLsb' 3 5 (o.pack op fn) = fn := by
  change BitVec.extractLsb' (n := 1+6+7+7+2+1+5+3) 3 5 _ = _
  unfold FormAtom.pack
  apply BitVec.eq_of_getLsbD_eq; intro j hj; simp only [BitVec.getLsbD_extractLsb', BitVec.getLsbD_append]; grind

theorem FormAtomRet.unpack_pack (op : BitVec 6) (fn : BitVec 5) (o : FormAtomRet) : FormAtomRet.unpack (o.pack op fn) = o := by
  change FormAtomRet.mk (BitVec.getLsbD (w := 1+6+7+7+2+1+5+3) _ 31) (BitVec.extractLsb' (n := 1+6+7+7+2+1+5+3) 18 7 _) (BitVec.extractLsb' (n := 1+6+7+7+2+1+5+3) 11 7 _) (BitVec.extractLsb' (n := 1+6+7+7+2+1+5+3) 9 2 _) (BitVec.extractLsb' (n := 1+6+7+7+2+1+5+3) 0 3 _) = _
  unfold FormAtomRet.pack
  obtain ⟨_, _, _, _, _⟩ := o
  simp only [FormAtomRet.mk.injEq]
  refine ⟨?_, ?_, ?_, ?_, ?_⟩ <;> first | (apply BitVec.eq_of_getLsbD_eq; intro j hj; simp only [BitVec.getLsbD_extractLsb', BitVec.getLsbD_append]; grind) | (simp only [BitVec.getLsbD_append]; simp)

theorem FormAtomRet.major_pack (op : BitVec 6) (fn : BitVec 5) (o : FormAtomRet) : majorOf (o.pack op fn) = op := by
  change BitVec.extractLsb' (n := 1+6+7+7+2+1+5+3) 25 6 _ = op
  unfold FormAtomRet.pack
  apply BitVec.eq_of_getLsbD_eq; intro j hj; simp only [BitVec.getLsbD_extractLsb', BitVec.getLsbD_append]; grind

theorem FormAtomRet.fixed_pack (op : BitVec 6) (fn : BitVec 5) (o : FormAtomRet) : FormAtomRet.fixedOk (o.pack op fn) = true := by
  have h0 : BitVec.extractLsb' (n := 1+6+7+7+2+1+5+3) 8 1 (o.pack op fn) = 0 := by
    unfold FormAtomRet.pack
    apply BitVec.eq_of_getLsbD_eq; intro j hj; simp only [BitVec.getLsbD_extractLsb', BitVec.getLsbD_append]; grind
  change ((BitVec.extractLsb' (n := 1+6+7+7+2+1+5+3) 8 1 (o.pack op fn) == 0)) = true
  rw [h0]
  rfl

theorem FormAtomRet.fn_3_5_pack (op : BitVec 6) (fn : BitVec 5) (o : FormAtomRet) : BitVec.extractLsb' 3 5 (o.pack op fn) = fn := by
  change BitVec.extractLsb' (n := 1+6+7+7+2+1+5+3) 3 5 _ = _
  unfold FormAtomRet.pack
  apply BitVec.eq_of_getLsbD_eq; intro j hj; simp only [BitVec.getLsbD_extractLsb', BitVec.getLsbD_append]; grind

theorem FormAtomRet.bit8_pack (op : BitVec 6) (fn : BitVec 5) (o : FormAtomRet) : (o.pack op fn).getLsbD 8 = false := by
  change BitVec.getLsbD (w := 1+6+7+7+2+1+5+3) _ 8 = false
  unfold FormAtomRet.pack
  simp only [BitVec.getLsbD_append]; simp

theorem FormTB.unpack_pack (op : BitVec 6) (fn : BitVec 1) (o : FormTB) : FormTB.unpack (o.pack op fn) = o := by
  change FormTB.mk (BitVec.getLsbD (w := 1+6+1+1+20+3) _ 31) (BitVec.getLsbD (w := 1+6+1+1+20+3) _ 24) (BitVec.extractLsb' (n := 1+6+1+1+20+3) 3 20 _) (BitVec.extractLsb' (n := 1+6+1+1+20+3) 0 3 _) = _
  unfold FormTB.pack
  obtain ⟨_, _, _, _⟩ := o
  simp only [FormTB.mk.injEq]
  refine ⟨?_, ?_, ?_, ?_⟩ <;> first | (apply BitVec.eq_of_getLsbD_eq; intro j hj; simp only [BitVec.getLsbD_extractLsb', BitVec.getLsbD_append]; grind) | (simp only [BitVec.getLsbD_append]; simp)

theorem FormTB.major_pack (op : BitVec 6) (fn : BitVec 1) (o : FormTB) : majorOf (o.pack op fn) = op := by
  change BitVec.extractLsb' (n := 1+6+1+1+20+3) 25 6 _ = op
  unfold FormTB.pack
  apply BitVec.eq_of_getLsbD_eq; intro j hj; simp only [BitVec.getLsbD_extractLsb', BitVec.getLsbD_append]; grind

theorem FormTB.bit23_pack (op : BitVec 6) (fn : BitVec 1) (o : FormTB) : (o.pack op fn).getLsbD 23 = fn.getLsbD 0 := by
  change BitVec.getLsbD (w := 1+6+1+1+20+3) _ 23 = _
  unfold FormTB.pack
  simp only [BitVec.getLsbD_append]; simp

theorem FormJump.unpack_pack (op : BitVec 6) (fn : BitVec 8) (o : FormJump) : FormJump.unpack (o.pack op fn) = o := by
  change FormJump.mk (BitVec.getLsbD (w := 1+6+6+1+7+8+3) _ 31) (BitVec.getLsbD (w := 1+6+6+1+7+8+3) _ 18) (BitVec.extractLsb' (n := 1+6+6+1+7+8+3) 11 7 _) (BitVec.extractLsb' (n := 1+6+6+1+7+8+3) 0 3 _) = _
  unfold FormJump.pack
  obtain ⟨_, _, _, _⟩ := o
  simp only [FormJump.mk.injEq]
  refine ⟨?_, ?_, ?_, ?_⟩ <;> first | (apply BitVec.eq_of_getLsbD_eq; intro j hj; simp only [BitVec.getLsbD_extractLsb', BitVec.getLsbD_append]; grind) | (simp only [BitVec.getLsbD_append]; simp)

theorem FormJump.major_pack (op : BitVec 6) (fn : BitVec 8) (o : FormJump) : majorOf (o.pack op fn) = op := by
  change BitVec.extractLsb' (n := 1+6+6+1+7+8+3) 25 6 _ = op
  unfold FormJump.pack
  apply BitVec.eq_of_getLsbD_eq; intro j hj; simp only [BitVec.getLsbD_extractLsb', BitVec.getLsbD_append]; grind

theorem FormJump.fixed_pack (op : BitVec 6) (fn : BitVec 8) (o : FormJump) : FormJump.fixedOk (o.pack op fn) = true := by
  have h0 : BitVec.extractLsb' (n := 1+6+6+1+7+8+3) 19 6 (o.pack op fn) = 0 := by
    unfold FormJump.pack
    apply BitVec.eq_of_getLsbD_eq; intro j hj; simp only [BitVec.getLsbD_extractLsb', BitVec.getLsbD_append]; grind
  change ((BitVec.extractLsb' (n := 1+6+6+1+7+8+3) 19 6 (o.pack op fn) == 0)) = true
  rw [h0]
  rfl

theorem FormJump.fn8_pack (op : BitVec 6) (fn : BitVec 8) (o : FormJump) : fn8Of (o.pack op fn) = fn := by
  change BitVec.extractLsb' (n := 1+6+6+1+7+8+3) 3 8 _ = _
  unfold FormJump.pack
  apply BitVec.eq_of_getLsbD_eq; intro j hj; simp only [BitVec.getLsbD_extractLsb', BitVec.getLsbD_append]; grind

theorem FormS.unpack_pack (op : BitVec 6) (fn : BitVec 8) (o : FormS) : FormS.unpack (o.pack op fn) = o := by
  change FormS.mk (BitVec.getLsbD (w := 1+6+14+8+3) _ 31) = _
  unfold FormS.pack
  obtain ⟨_⟩ := o
  simp only [FormS.mk.injEq]
  first | (apply BitVec.eq_of_getLsbD_eq; intro j hj; simp only [BitVec.getLsbD_extractLsb', BitVec.getLsbD_append]; grind) | (simp only [BitVec.getLsbD_append]; simp)

theorem FormS.major_pack (op : BitVec 6) (fn : BitVec 8) (o : FormS) : majorOf (o.pack op fn) = op := by
  change BitVec.extractLsb' (n := 1+6+14+8+3) 25 6 _ = op
  unfold FormS.pack
  apply BitVec.eq_of_getLsbD_eq; intro j hj; simp only [BitVec.getLsbD_extractLsb', BitVec.getLsbD_append]; grind

theorem FormS.fixed_pack (op : BitVec 6) (fn : BitVec 8) (o : FormS) : FormS.fixedOk (o.pack op fn) = true := by
  have h0 : BitVec.extractLsb' (n := 1+6+14+8+3) 11 14 (o.pack op fn) = 0 := by
    unfold FormS.pack
    apply BitVec.eq_of_getLsbD_eq; intro j hj; simp only [BitVec.getLsbD_extractLsb', BitVec.getLsbD_append]; grind
  have h1 : BitVec.extractLsb' (n := 1+6+14+8+3) 0 3 (o.pack op fn) = 7 := by
    unfold FormS.pack
    apply BitVec.eq_of_getLsbD_eq; intro j hj; simp only [BitVec.getLsbD_extractLsb', BitVec.getLsbD_append]; grind
  change ((BitVec.extractLsb' (n := 1+6+14+8+3) 11 14 (o.pack op fn) == 0) && (BitVec.extractLsb' (n := 1+6+14+8+3) 0 3 (o.pack op fn) == 7)) = true
  rw [h0, h1]
  rfl

theorem FormS.fn8_pack (op : BitVec 6) (fn : BitVec 8) (o : FormS) : fn8Of (o.pack op fn) = fn := by
  change BitVec.extractLsb' (n := 1+6+14+8+3) 3 8 _ = _
  unfold FormS.pack
  apply BitVec.eq_of_getLsbD_eq; intro j hj; simp only [BitVec.getLsbD_extractLsb', BitVec.getLsbD_append]; grind

theorem FormA.unpack_pack (op : BitVec 6) (fn : BitVec 8) (o : FormA) : FormA.unpack (o.pack op fn) = o := by
  change FormA.mk (BitVec.getLsbD (w := 1+6+7+7+8+3) _ 31) (BitVec.extractLsb' (n := 1+6+7+7+8+3) 11 7 _) (BitVec.extractLsb' (n := 1+6+7+7+8+3) 0 3 _) = _
  unfold FormA.pack
  obtain ⟨_, _, _⟩ := o
  simp only [FormA.mk.injEq]
  refine ⟨?_, ?_, ?_⟩ <;> first | (apply BitVec.eq_of_getLsbD_eq; intro j hj; simp only [BitVec.getLsbD_extractLsb', BitVec.getLsbD_append]; grind) | (simp only [BitVec.getLsbD_append]; simp)

theorem FormA.major_pack (op : BitVec 6) (fn : BitVec 8) (o : FormA) : majorOf (o.pack op fn) = op := by
  change BitVec.extractLsb' (n := 1+6+7+7+8+3) 25 6 _ = op
  unfold FormA.pack
  apply BitVec.eq_of_getLsbD_eq; intro j hj; simp only [BitVec.getLsbD_extractLsb', BitVec.getLsbD_append]; grind

theorem FormA.fixed_pack (op : BitVec 6) (fn : BitVec 8) (o : FormA) : FormA.fixedOk (o.pack op fn) = true := by
  have h0 : BitVec.extractLsb' (n := 1+6+7+7+8+3) 18 7 (o.pack op fn) = 0 := by
    unfold FormA.pack
    apply BitVec.eq_of_getLsbD_eq; intro j hj; simp only [BitVec.getLsbD_extractLsb', BitVec.getLsbD_append]; grind
  change ((BitVec.extractLsb' (n := 1+6+7+7+8+3) 18 7 (o.pack op fn) == 0)) = true
  rw [h0]
  rfl

theorem FormA.fn8_pack (op : BitVec 6) (fn : BitVec 8) (o : FormA) : fn8Of (o.pack op fn) = fn := by
  change BitVec.extractLsb' (n := 1+6+7+7+8+3) 3 8 _ = _
  unfold FormA.pack
  apply BitVec.eq_of_getLsbD_eq; intro j hj; simp only [BitVec.getLsbD_extractLsb', BitVec.getLsbD_append]; grind

theorem FormG.unpack_pack (op : BitVec 6) (fn : BitVec 8) (o : FormG) : FormG.unpack (o.pack op fn) = o := by
  change FormG.mk (BitVec.getLsbD (w := 1+6+14+8+3) _ 31) (BitVec.extractLsb' (n := 1+6+14+8+3) 0 3 _) = _
  unfold FormG.pack
  obtain ⟨_, _⟩ := o
  simp only [FormG.mk.injEq]
  refine ⟨?_, ?_⟩ <;> first | (apply BitVec.eq_of_getLsbD_eq; intro j hj; simp only [BitVec.getLsbD_extractLsb', BitVec.getLsbD_append]; grind) | (simp only [BitVec.getLsbD_append]; simp)

theorem FormG.major_pack (op : BitVec 6) (fn : BitVec 8) (o : FormG) : majorOf (o.pack op fn) = op := by
  change BitVec.extractLsb' (n := 1+6+14+8+3) 25 6 _ = op
  unfold FormG.pack
  apply BitVec.eq_of_getLsbD_eq; intro j hj; simp only [BitVec.getLsbD_extractLsb', BitVec.getLsbD_append]; grind

theorem FormG.fixed_pack (op : BitVec 6) (fn : BitVec 8) (o : FormG) : FormG.fixedOk (o.pack op fn) = true := by
  have h0 : BitVec.extractLsb' (n := 1+6+14+8+3) 11 14 (o.pack op fn) = 0 := by
    unfold FormG.pack
    apply BitVec.eq_of_getLsbD_eq; intro j hj; simp only [BitVec.getLsbD_extractLsb', BitVec.getLsbD_append]; grind
  change ((BitVec.extractLsb' (n := 1+6+14+8+3) 11 14 (o.pack op fn) == 0)) = true
  rw [h0]
  rfl

theorem FormG.fn_3_5_pack (op : BitVec 6) (fn : BitVec 8) (o : FormG) : BitVec.extractLsb' 3 5 (o.pack op fn) = fn.extractLsb' 0 5 := by
  change BitVec.extractLsb' (n := 1+6+14+8+3) 3 5 _ = _
  unfold FormG.pack
  apply BitVec.eq_of_getLsbD_eq; intro j hj; simp only [BitVec.getLsbD_extractLsb', BitVec.getLsbD_append]; grind

theorem FormG.fn8_pack (op : BitVec 6) (fn : BitVec 8) (o : FormG) : fn8Of (o.pack op fn) = fn := by
  change BitVec.extractLsb' (n := 1+6+14+8+3) 3 8 _ = _
  unfold FormG.pack
  apply BitVec.eq_of_getLsbD_eq; intro j hj; simp only [BitVec.getLsbD_extractLsb', BitVec.getLsbD_append]; grind

theorem FormG.fn_8_3_pack (op : BitVec 6) (fn : BitVec 8) (o : FormG) : BitVec.extractLsb' 8 3 (o.pack op fn) = fn.extractLsb' 5 3 := by
  change BitVec.extractLsb' (n := 1+6+14+8+3) 8 3 _ = _
  unfold FormG.pack
  apply BitVec.eq_of_getLsbD_eq; intro j hj; simp only [BitVec.getLsbD_extractLsb', BitVec.getLsbD_append]; grind

theorem FormTF.unpack_pack (op : BitVec 6) (fn : BitVec 8) (o : FormTF) : FormTF.unpack (o.pack op fn) = o := by
  change FormTF.mk (BitVec.getLsbD (w := 1+6+7+7+8+3) _ 31) (BitVec.extractLsb' (n := 1+6+7+7+8+3) 18 7 _) (BitVec.extractLsb' (n := 1+6+7+7+8+3) 11 7 _) (BitVec.extractLsb' (n := 1+6+7+7+8+3) 0 3 _) = _
  unfold FormTF.pack
  obtain ⟨_, _, _, _⟩ := o
  simp only [FormTF.mk.injEq]
  refine ⟨?_, ?_, ?_, ?_⟩ <;> first | (apply BitVec.eq_of_getLsbD_eq; intro j hj; simp only [BitVec.getLsbD_extractLsb', BitVec.getLsbD_append]; grind) | (simp only [BitVec.getLsbD_append]; simp)

theorem FormTF.major_pack (op : BitVec 6) (fn : BitVec 8) (o : FormTF) : majorOf (o.pack op fn) = op := by
  change BitVec.extractLsb' (n := 1+6+7+7+8+3) 25 6 _ = op
  unfold FormTF.pack
  apply BitVec.eq_of_getLsbD_eq; intro j hj; simp only [BitVec.getLsbD_extractLsb', BitVec.getLsbD_append]; grind

theorem FormTF.fn_3_5_pack (op : BitVec 6) (fn : BitVec 8) (o : FormTF) : BitVec.extractLsb' 3 5 (o.pack op fn) = fn.extractLsb' 0 5 := by
  change BitVec.extractLsb' (n := 1+6+7+7+8+3) 3 5 _ = _
  unfold FormTF.pack
  apply BitVec.eq_of_getLsbD_eq; intro j hj; simp only [BitVec.getLsbD_extractLsb', BitVec.getLsbD_append]; grind

theorem FormTF.fn8_pack (op : BitVec 6) (fn : BitVec 8) (o : FormTF) : fn8Of (o.pack op fn) = fn := by
  change BitVec.extractLsb' (n := 1+6+7+7+8+3) 3 8 _ = _
  unfold FormTF.pack
  apply BitVec.eq_of_getLsbD_eq; intro j hj; simp only [BitVec.getLsbD_extractLsb', BitVec.getLsbD_append]; grind

theorem FormTF.fn_8_3_pack (op : BitVec 6) (fn : BitVec 8) (o : FormTF) : BitVec.extractLsb' 8 3 (o.pack op fn) = fn.extractLsb' 5 3 := by
  change BitVec.extractLsb' (n := 1+6+7+7+8+3) 8 3 _ = _
  unfold FormTF.pack
  apply BitVec.eq_of_getLsbD_eq; intro j hj; simp only [BitVec.getLsbD_extractLsb', BitVec.getLsbD_append]; grind

theorem FormQ.unpack_pack (op : BitVec 6) (fn : BitVec 8) (o : FormQ) : FormQ.unpack (o.pack op fn) = o := by
  change FormQ.mk (BitVec.getLsbD (w := 1+6+4+3+4+3+8+3) _ 31) (BitVec.extractLsb' (n := 1+6+4+3+4+3+8+3) 18 3 _) (BitVec.extractLsb' (n := 1+6+4+3+4+3+8+3) 11 3 _) (BitVec.extractLsb' (n := 1+6+4+3+4+3+8+3) 0 3 _) = _
  unfold FormQ.pack
  obtain ⟨_, _, _, _⟩ := o
  simp only [FormQ.mk.injEq]
  refine ⟨?_, ?_, ?_, ?_⟩ <;> first | (apply BitVec.eq_of_getLsbD_eq; intro j hj; simp only [BitVec.getLsbD_extractLsb', BitVec.getLsbD_append]; grind) | (simp only [BitVec.getLsbD_append]; simp)

theorem FormQ.major_pack (op : BitVec 6) (fn : BitVec 8) (o : FormQ) : majorOf (o.pack op fn) = op := by
  change BitVec.extractLsb' (n := 1+6+4+3+4+3+8+3) 25 6 _ = op
  unfold FormQ.pack
  apply BitVec.eq_of_getLsbD_eq; intro j hj; simp only [BitVec.getLsbD_extractLsb', BitVec.getLsbD_append]; grind

theorem FormQ.fixed_pack (op : BitVec 6) (fn : BitVec 8) (o : FormQ) : FormQ.fixedOk (o.pack op fn) = true := by
  have h0 : BitVec.extractLsb' (n := 1+6+4+3+4+3+8+3) 21 4 (o.pack op fn) = 0 := by
    unfold FormQ.pack
    apply BitVec.eq_of_getLsbD_eq; intro j hj; simp only [BitVec.getLsbD_extractLsb', BitVec.getLsbD_append]; grind
  have h1 : BitVec.extractLsb' (n := 1+6+4+3+4+3+8+3) 14 4 (o.pack op fn) = 0 := by
    unfold FormQ.pack
    apply BitVec.eq_of_getLsbD_eq; intro j hj; simp only [BitVec.getLsbD_extractLsb', BitVec.getLsbD_append]; grind
  change ((BitVec.extractLsb' (n := 1+6+4+3+4+3+8+3) 21 4 (o.pack op fn) == 0) && (BitVec.extractLsb' (n := 1+6+4+3+4+3+8+3) 14 4 (o.pack op fn) == 0)) = true
  rw [h0, h1]
  rfl

theorem FormQ.fn8_pack (op : BitVec 6) (fn : BitVec 8) (o : FormQ) : fn8Of (o.pack op fn) = fn := by
  change BitVec.extractLsb' (n := 1+6+4+3+4+3+8+3) 3 8 _ = _
  unfold FormQ.pack
  apply BitVec.eq_of_getLsbD_eq; intro j hj; simp only [BitVec.getLsbD_extractLsb', BitVec.getLsbD_append]; grind

theorem FormStq.unpack_pack (op : BitVec 6) (fn : BitVec 8) (o : FormStq) : FormStq.unpack (o.pack op fn) = o := by
  change FormStq.mk (BitVec.getLsbD (w := 1+6+4+3+7+8+3) _ 31) (BitVec.extractLsb' (n := 1+6+4+3+7+8+3) 18 3 _) (BitVec.extractLsb' (n := 1+6+4+3+7+8+3) 11 7 _) (BitVec.extractLsb' (n := 1+6+4+3+7+8+3) 0 3 _) = _
  unfold FormStq.pack
  obtain ⟨_, _, _, _⟩ := o
  simp only [FormStq.mk.injEq]
  refine ⟨?_, ?_, ?_, ?_⟩ <;> first | (apply BitVec.eq_of_getLsbD_eq; intro j hj; simp only [BitVec.getLsbD_extractLsb', BitVec.getLsbD_append]; grind) | (simp only [BitVec.getLsbD_append]; simp)

theorem FormStq.major_pack (op : BitVec 6) (fn : BitVec 8) (o : FormStq) : majorOf (o.pack op fn) = op := by
  change BitVec.extractLsb' (n := 1+6+4+3+7+8+3) 25 6 _ = op
  unfold FormStq.pack
  apply BitVec.eq_of_getLsbD_eq; intro j hj; simp only [BitVec.getLsbD_extractLsb', BitVec.getLsbD_append]; grind

theorem FormStq.fixed_pack (op : BitVec 6) (fn : BitVec 8) (o : FormStq) : FormStq.fixedOk (o.pack op fn) = true := by
  have h0 : BitVec.extractLsb' (n := 1+6+4+3+7+8+3) 21 4 (o.pack op fn) = 0 := by
    unfold FormStq.pack
    apply BitVec.eq_of_getLsbD_eq; intro j hj; simp only [BitVec.getLsbD_extractLsb', BitVec.getLsbD_append]; grind
  change ((BitVec.extractLsb' (n := 1+6+4+3+7+8+3) 21 4 (o.pack op fn) == 0)) = true
  rw [h0]
  rfl

theorem FormStq.fn8_pack (op : BitVec 6) (fn : BitVec 8) (o : FormStq) : fn8Of (o.pack op fn) = fn := by
  change BitVec.extractLsb' (n := 1+6+4+3+7+8+3) 3 8 _ = _
  unfold FormStq.pack
  apply BitVec.eq_of_getLsbD_eq; intro j hj; simp only [BitVec.getLsbD_extractLsb', BitVec.getLsbD_append]; grind

theorem FormD.unpack_pack (op : BitVec 6) (fn : BitVec 8) (o : FormD) : FormD.unpack (o.pack op fn) = o := by
  change FormD.mk (BitVec.getLsbD (w := 1+6+7+7+8+3) _ 31) (BitVec.extractLsb' (n := 1+6+7+7+8+3) 18 7 _) = _
  unfold FormD.pack
  obtain ⟨_, _⟩ := o
  simp only [FormD.mk.injEq]
  refine ⟨?_, ?_⟩ <;> first | (apply BitVec.eq_of_getLsbD_eq; intro j hj; simp only [BitVec.getLsbD_extractLsb', BitVec.getLsbD_append]; grind) | (simp only [BitVec.getLsbD_append]; simp)

theorem FormD.major_pack (op : BitVec 6) (fn : BitVec 8) (o : FormD) : majorOf (o.pack op fn) = op := by
  change BitVec.extractLsb' (n := 1+6+7+7+8+3) 25 6 _ = op
  unfold FormD.pack
  apply BitVec.eq_of_getLsbD_eq; intro j hj; simp only [BitVec.getLsbD_extractLsb', BitVec.getLsbD_append]; grind

theorem FormD.fixed_pack (op : BitVec 6) (fn : BitVec 8) (o : FormD) : FormD.fixedOk (o.pack op fn) = true := by
  have h0 : BitVec.extractLsb' (n := 1+6+7+7+8+3) 11 7 (o.pack op fn) = 0 := by
    unfold FormD.pack
    apply BitVec.eq_of_getLsbD_eq; intro j hj; simp only [BitVec.getLsbD_extractLsb', BitVec.getLsbD_append]; grind
  have h1 : BitVec.extractLsb' (n := 1+6+7+7+8+3) 0 3 (o.pack op fn) = 7 := by
    unfold FormD.pack
    apply BitVec.eq_of_getLsbD_eq; intro j hj; simp only [BitVec.getLsbD_extractLsb', BitVec.getLsbD_append]; grind
  change ((BitVec.extractLsb' (n := 1+6+7+7+8+3) 11 7 (o.pack op fn) == 0) && (BitVec.extractLsb' (n := 1+6+7+7+8+3) 0 3 (o.pack op fn) == 7)) = true
  rw [h0, h1]
  rfl

theorem FormD.fn8_pack (op : BitVec 6) (fn : BitVec 8) (o : FormD) : fn8Of (o.pack op fn) = fn := by
  change BitVec.extractLsb' (n := 1+6+7+7+8+3) 3 8 _ = _
  unfold FormD.pack
  apply BitVec.eq_of_getLsbD_eq; intro j hj; simp only [BitVec.getLsbD_extractLsb', BitVec.getLsbD_append]; grind

theorem FormFence.unpack_pack (op : BitVec 6) (fn : BitVec 8) (o : FormFence) : FormFence.unpack (o.pack op fn) = o := by
  change FormFence.mk (BitVec.getLsbD (w := 1+6+1+3+3+7+8+3) _ 31) (BitVec.extractLsb' (n := 1+6+1+3+3+7+8+3) 21 3 _) (BitVec.extractLsb' (n := 1+6+1+3+3+7+8+3) 18 3 _) (BitVec.extractLsb' (n := 1+6+1+3+3+7+8+3) 11 7 _) (BitVec.extractLsb' (n := 1+6+1+3+3+7+8+3) 0 3 _) = _
  unfold FormFence.pack
  obtain ⟨_, _, _, _, _⟩ := o
  simp only [FormFence.mk.injEq]
  refine ⟨?_, ?_, ?_, ?_, ?_⟩ <;> first | (apply BitVec.eq_of_getLsbD_eq; intro j hj; simp only [BitVec.getLsbD_extractLsb', BitVec.getLsbD_append]; grind) | (simp only [BitVec.getLsbD_append]; simp)

theorem FormFence.major_pack (op : BitVec 6) (fn : BitVec 8) (o : FormFence) : majorOf (o.pack op fn) = op := by
  change BitVec.extractLsb' (n := 1+6+1+3+3+7+8+3) 25 6 _ = op
  unfold FormFence.pack
  apply BitVec.eq_of_getLsbD_eq; intro j hj; simp only [BitVec.getLsbD_extractLsb', BitVec.getLsbD_append]; grind

theorem FormFence.fixed_pack (op : BitVec 6) (fn : BitVec 8) (o : FormFence) : FormFence.fixedOk (o.pack op fn) = true := by
  have h0 : BitVec.extractLsb' (n := 1+6+1+3+3+7+8+3) 24 1 (o.pack op fn) = 0 := by
    unfold FormFence.pack
    apply BitVec.eq_of_getLsbD_eq; intro j hj; simp only [BitVec.getLsbD_extractLsb', BitVec.getLsbD_append]; grind
  change ((BitVec.extractLsb' (n := 1+6+1+3+3+7+8+3) 24 1 (o.pack op fn) == 0)) = true
  rw [h0]
  rfl

theorem FormFence.fn8_pack (op : BitVec 6) (fn : BitVec 8) (o : FormFence) : fn8Of (o.pack op fn) = fn := by
  change BitVec.extractLsb' (n := 1+6+1+3+3+7+8+3) 3 8 _ = _
  unfold FormFence.pack
  apply BitVec.eq_of_getLsbD_eq; intro j hj; simp only [BitVec.getLsbD_extractLsb', BitVec.getLsbD_append]; grind

theorem FormChwp.unpack_pack (op : BitVec 6) (fn : BitVec 8) (o : FormChwp) : FormChwp.unpack (o.pack op fn) = o := by
  change FormChwp.mk (BitVec.getLsbD (w := 1+6+7+5+2+8+3) _ 31) (BitVec.extractLsb' (n := 1+6+7+5+2+8+3) 18 7 _) (BitVec.extractLsb' (n := 1+6+7+5+2+8+3) 11 2 _) (BitVec.extractLsb' (n := 1+6+7+5+2+8+3) 0 3 _) = _
  unfold FormChwp.pack
  obtain ⟨_, _, _, _⟩ := o
  simp only [FormChwp.mk.injEq]
  refine ⟨?_, ?_, ?_, ?_⟩ <;> first | (apply BitVec.eq_of_getLsbD_eq; intro j hj; simp only [BitVec.getLsbD_extractLsb', BitVec.getLsbD_append]; grind) | (simp only [BitVec.getLsbD_append]; simp)

theorem FormChwp.major_pack (op : BitVec 6) (fn : BitVec 8) (o : FormChwp) : majorOf (o.pack op fn) = op := by
  change BitVec.extractLsb' (n := 1+6+7+5+2+8+3) 25 6 _ = op
  unfold FormChwp.pack
  apply BitVec.eq_of_getLsbD_eq; intro j hj; simp only [BitVec.getLsbD_extractLsb', BitVec.getLsbD_append]; grind

theorem FormChwp.fixed_pack (op : BitVec 6) (fn : BitVec 8) (o : FormChwp) : FormChwp.fixedOk (o.pack op fn) = true := by
  have h0 : BitVec.extractLsb' (n := 1+6+7+5+2+8+3) 13 5 (o.pack op fn) = 0 := by
    unfold FormChwp.pack
    apply BitVec.eq_of_getLsbD_eq; intro j hj; simp only [BitVec.getLsbD_extractLsb', BitVec.getLsbD_append]; grind
  change ((BitVec.extractLsb' (n := 1+6+7+5+2+8+3) 13 5 (o.pack op fn) == 0)) = true
  rw [h0]
  rfl

theorem FormChwp.fn8_pack (op : BitVec 6) (fn : BitVec 8) (o : FormChwp) : fn8Of (o.pack op fn) = fn := by
  change BitVec.extractLsb' (n := 1+6+7+5+2+8+3) 3 8 _ = _
  unfold FormChwp.pack
  apply BitVec.eq_of_getLsbD_eq; intro j hj; simp only [BitVec.getLsbD_extractLsb', BitVec.getLsbD_append]; grind

theorem FormP2v.unpack_pack (op : BitVec 6) (fn : BitVec 8) (o : FormP2v) : FormP2v.unpack (o.pack op fn) = o := by
  change FormP2v.mk (BitVec.getLsbD (w := 1+6+7+1+6+8+3) _ 31) (BitVec.extractLsb' (n := 1+6+7+1+6+8+3) 18 7 _) (BitVec.extractLsb' (n := 1+6+7+1+6+8+3) 11 6 _) (BitVec.extractLsb' (n := 1+6+7+1+6+8+3) 0 3 _) = _
  unfold FormP2v.pack
  obtain ⟨_, _, _, _⟩ := o
  simp only [FormP2v.mk.injEq]
  refine ⟨?_, ?_, ?_, ?_⟩ <;> first | (apply BitVec.eq_of_getLsbD_eq; intro j hj; simp only [BitVec.getLsbD_extractLsb', BitVec.getLsbD_append]; grind) | (simp only [BitVec.getLsbD_append]; simp)

theorem FormP2v.major_pack (op : BitVec 6) (fn : BitVec 8) (o : FormP2v) : majorOf (o.pack op fn) = op := by
  change BitVec.extractLsb' (n := 1+6+7+1+6+8+3) 25 6 _ = op
  unfold FormP2v.pack
  apply BitVec.eq_of_getLsbD_eq; intro j hj; simp only [BitVec.getLsbD_extractLsb', BitVec.getLsbD_append]; grind

theorem FormP2v.fixed_pack (op : BitVec 6) (fn : BitVec 8) (o : FormP2v) : FormP2v.fixedOk (o.pack op fn) = true := by
  have h0 : BitVec.extractLsb' (n := 1+6+7+1+6+8+3) 17 1 (o.pack op fn) = 0 := by
    unfold FormP2v.pack
    apply BitVec.eq_of_getLsbD_eq; intro j hj; simp only [BitVec.getLsbD_extractLsb', BitVec.getLsbD_append]; grind
  change ((BitVec.extractLsb' (n := 1+6+7+1+6+8+3) 17 1 (o.pack op fn) == 0)) = true
  rw [h0]
  rfl

theorem FormP2v.fn8_pack (op : BitVec 6) (fn : BitVec 8) (o : FormP2v) : fn8Of (o.pack op fn) = fn := by
  change BitVec.extractLsb' (n := 1+6+7+1+6+8+3) 3 8 _ = _
  unfold FormP2v.pack
  apply BitVec.eq_of_getLsbD_eq; intro j hj; simp only [BitVec.getLsbD_extractLsb', BitVec.getLsbD_append]; grind

theorem FormV2p.unpack_pack (op : BitVec 6) (fn : BitVec 8) (o : FormV2p) : FormV2p.unpack (o.pack op fn) = o := by
  change FormV2p.mk (BitVec.getLsbD (w := 1+6+1+6+7+8+3) _ 31) (BitVec.extractLsb' (n := 1+6+1+6+7+8+3) 18 6 _) (BitVec.extractLsb' (n := 1+6+1+6+7+8+3) 11 7 _) (BitVec.extractLsb' (n := 1+6+1+6+7+8+3) 0 3 _) = _
  unfold FormV2p.pack
  obtain ⟨_, _, _, _⟩ := o
  simp only [FormV2p.mk.injEq]
  refine ⟨?_, ?_, ?_, ?_⟩ <;> first | (apply BitVec.eq_of_getLsbD_eq; intro j hj; simp only [BitVec.getLsbD_extractLsb', BitVec.getLsbD_append]; grind) | (simp only [BitVec.getLsbD_append]; simp)

theorem FormV2p.major_pack (op : BitVec 6) (fn : BitVec 8) (o : FormV2p) : majorOf (o.pack op fn) = op := by
  change BitVec.extractLsb' (n := 1+6+1+6+7+8+3) 25 6 _ = op
  unfold FormV2p.pack
  apply BitVec.eq_of_getLsbD_eq; intro j hj; simp only [BitVec.getLsbD_extractLsb', BitVec.getLsbD_append]; grind

theorem FormV2p.fixed_pack (op : BitVec 6) (fn : BitVec 8) (o : FormV2p) : FormV2p.fixedOk (o.pack op fn) = true := by
  have h0 : BitVec.extractLsb' (n := 1+6+1+6+7+8+3) 24 1 (o.pack op fn) = 0 := by
    unfold FormV2p.pack
    apply BitVec.eq_of_getLsbD_eq; intro j hj; simp only [BitVec.getLsbD_extractLsb', BitVec.getLsbD_append]; grind
  change ((BitVec.extractLsb' (n := 1+6+1+6+7+8+3) 24 1 (o.pack op fn) == 0)) = true
  rw [h0]
  rfl

theorem FormV2p.fn8_pack (op : BitVec 6) (fn : BitVec 8) (o : FormV2p) : fn8Of (o.pack op fn) = fn := by
  change BitVec.extractLsb' (n := 1+6+1+6+7+8+3) 3 8 _ = _
  unfold FormV2p.pack
  apply BitVec.eq_of_getLsbD_eq; intro j hj; simp only [BitVec.getLsbD_extractLsb', BitVec.getLsbD_append]; grind

theorem FormPred.unpack_pack (op : BitVec 6) (o : FormPred) : FormPred.unpack (o.pack op) = o := by
  change FormPred.mk (BitVec.getLsbD (w := 1+6+6+6+6+4+3) _ 31) (BitVec.extractLsb' (n := 1+6+6+6+6+4+3) 19 6 _) (BitVec.extractLsb' (n := 1+6+6+6+6+4+3) 13 6 _) (BitVec.extractLsb' (n := 1+6+6+6+6+4+3) 7 6 _) (BitVec.extractLsb' (n := 1+6+6+6+6+4+3) 3 4 _) (BitVec.extractLsb' (n := 1+6+6+6+6+4+3) 0 3 _) = _
  unfold FormPred.pack
  obtain ⟨_, _, _, _, _, _⟩ := o
  simp only [FormPred.mk.injEq]
  refine ⟨?_, ?_, ?_, ?_, ?_, ?_⟩ <;> first | (apply BitVec.eq_of_getLsbD_eq; intro j hj; simp only [BitVec.getLsbD_extractLsb', BitVec.getLsbD_append]; grind) | (simp only [BitVec.getLsbD_append]; simp)

theorem FormPred.major_pack (op : BitVec 6) (o : FormPred) : majorOf (o.pack op) = op := by
  change BitVec.extractLsb' (n := 1+6+6+6+6+4+3) 25 6 _ = op
  unfold FormPred.pack
  apply BitVec.eq_of_getLsbD_eq; intro j hj; simp only [BitVec.getLsbD_extractLsb', BitVec.getLsbD_append]; grind

theorem FormMma.unpack_pack (op : BitVec 6) (fn : BitVec 3) (o : FormMma) : FormMma.unpack (o.pack op fn) = o := by
  change FormMma.mk (BitVec.getLsbD (w := 1+6+7+7+3+5+3) _ 31) (BitVec.extractLsb' (n := 1+6+7+7+3+5+3) 18 7 _) (BitVec.extractLsb' (n := 1+6+7+7+3+5+3) 11 7 _) (BitVec.extractLsb' (n := 1+6+7+7+3+5+3) 3 5 _) (BitVec.extractLsb' (n := 1+6+7+7+3+5+3) 0 3 _) = _
  unfold FormMma.pack
  obtain ⟨_, _, _, _, _⟩ := o
  simp only [FormMma.mk.injEq]
  refine ⟨?_, ?_, ?_, ?_, ?_⟩ <;> first | (apply BitVec.eq_of_getLsbD_eq; intro j hj; simp only [BitVec.getLsbD_extractLsb', BitVec.getLsbD_append]; grind) | (simp only [BitVec.getLsbD_append]; simp)

theorem FormMma.major_pack (op : BitVec 6) (fn : BitVec 3) (o : FormMma) : majorOf (o.pack op fn) = op := by
  change BitVec.extractLsb' (n := 1+6+7+7+3+5+3) 25 6 _ = op
  unfold FormMma.pack
  apply BitVec.eq_of_getLsbD_eq; intro j hj; simp only [BitVec.getLsbD_extractLsb', BitVec.getLsbD_append]; grind

theorem FormMma.fn_8_3_pack (op : BitVec 6) (fn : BitVec 3) (o : FormMma) : BitVec.extractLsb' 8 3 (o.pack op fn) = fn := by
  change BitVec.extractLsb' (n := 1+6+7+7+3+5+3) 8 3 _ = _
  unfold FormMma.pack
  apply BitVec.eq_of_getLsbD_eq; intro j hj; simp only [BitVec.getLsbD_extractLsb', BitVec.getLsbD_append]; grind

theorem FormMloop.unpack_pack (op : BitVec 6) (fn : BitVec 3) (o : FormMloop) : FormMloop.unpack (o.pack op fn) = o := by
  change FormMloop.mk (BitVec.getLsbD (w := 1+6+7+7+3+5+3) _ 31) (BitVec.extractLsb' (n := 1+6+7+7+3+5+3) 18 7 _) (BitVec.extractLsb' (n := 1+6+7+7+3+5+3) 3 5 _) (BitVec.extractLsb' (n := 1+6+7+7+3+5+3) 0 3 _) = _
  unfold FormMloop.pack
  obtain ⟨_, _, _, _⟩ := o
  simp only [FormMloop.mk.injEq]
  refine ⟨?_, ?_, ?_, ?_⟩ <;> first | (apply BitVec.eq_of_getLsbD_eq; intro j hj; simp only [BitVec.getLsbD_extractLsb', BitVec.getLsbD_append]; grind) | (simp only [BitVec.getLsbD_append]; simp)

theorem FormMloop.major_pack (op : BitVec 6) (fn : BitVec 3) (o : FormMloop) : majorOf (o.pack op fn) = op := by
  change BitVec.extractLsb' (n := 1+6+7+7+3+5+3) 25 6 _ = op
  unfold FormMloop.pack
  apply BitVec.eq_of_getLsbD_eq; intro j hj; simp only [BitVec.getLsbD_extractLsb', BitVec.getLsbD_append]; grind

theorem FormMloop.fixed_pack (op : BitVec 6) (fn : BitVec 3) (o : FormMloop) : FormMloop.fixedOk (o.pack op fn) = true := by
  have h0 : BitVec.extractLsb' (n := 1+6+7+7+3+5+3) 11 7 (o.pack op fn) = 0 := by
    unfold FormMloop.pack
    apply BitVec.eq_of_getLsbD_eq; intro j hj; simp only [BitVec.getLsbD_extractLsb', BitVec.getLsbD_append]; grind
  change ((BitVec.extractLsb' (n := 1+6+7+7+3+5+3) 11 7 (o.pack op fn) == 0)) = true
  rw [h0]
  rfl

theorem FormMloop.fn_8_3_pack (op : BitVec 6) (fn : BitVec 3) (o : FormMloop) : BitVec.extractLsb' 8 3 (o.pack op fn) = fn := by
  change BitVec.extractLsb' (n := 1+6+7+7+3+5+3) 8 3 _ = _
  unfold FormMloop.pack
  apply BitVec.eq_of_getLsbD_eq; intro j hj; simp only [BitVec.getLsbD_extractLsb', BitVec.getLsbD_append]; grind

theorem FormDrainR.unpack_pack (op : BitVec 6) (fn : BitVec 5) (o : FormDrainR) : FormDrainR.unpack (o.pack op fn) = o := by
  change FormDrainR.mk (BitVec.getLsbD (w := 1+6+7+7+5+3+3) _ 31) (BitVec.extractLsb' (n := 1+6+7+7+5+3+3) 18 7 _) (BitVec.extractLsb' (n := 1+6+7+7+5+3+3) 11 7 _) (BitVec.extractLsb' (n := 1+6+7+7+5+3+3) 3 3 _) (BitVec.extractLsb' (n := 1+6+7+7+5+3+3) 0 3 _) = _
  unfold FormDrainR.pack
  obtain ⟨_, _, _, _, _⟩ := o
  simp only [FormDrainR.mk.injEq]
  refine ⟨?_, ?_, ?_, ?_, ?_⟩ <;> first | (apply BitVec.eq_of_getLsbD_eq; intro j hj; simp only [BitVec.getLsbD_extractLsb', BitVec.getLsbD_append]; grind) | (simp only [BitVec.getLsbD_append]; simp)

theorem FormDrainR.major_pack (op : BitVec 6) (fn : BitVec 5) (o : FormDrainR) : majorOf (o.pack op fn) = op := by
  change BitVec.extractLsb' (n := 1+6+7+7+5+3+3) 25 6 _ = op
  unfold FormDrainR.pack
  apply BitVec.eq_of_getLsbD_eq; intro j hj; simp only [BitVec.getLsbD_extractLsb', BitVec.getLsbD_append]; grind

theorem FormDrainR.fn_6_2_pack (op : BitVec 6) (fn : BitVec 5) (o : FormDrainR) : BitVec.extractLsb' 6 2 (o.pack op fn) = fn.extractLsb' 0 2 := by
  change BitVec.extractLsb' (n := 1+6+7+7+5+3+3) 6 2 _ = _
  unfold FormDrainR.pack
  apply BitVec.eq_of_getLsbD_eq; intro j hj; simp only [BitVec.getLsbD_extractLsb', BitVec.getLsbD_append]; grind

theorem FormDrainR.fn_8_3_pack (op : BitVec 6) (fn : BitVec 5) (o : FormDrainR) : BitVec.extractLsb' 8 3 (o.pack op fn) = fn.extractLsb' 2 3 := by
  change BitVec.extractLsb' (n := 1+6+7+7+5+3+3) 8 3 _ = _
  unfold FormDrainR.pack
  apply BitVec.eq_of_getLsbD_eq; intro j hj; simp only [BitVec.getLsbD_extractLsb', BitVec.getLsbD_append]; grind

theorem FormDrain.unpack_pack (op : BitVec 6) (fn : BitVec 5) (o : FormDrain) : FormDrain.unpack (o.pack op fn) = o := by
  change FormDrain.mk (BitVec.getLsbD (w := 1+6+7+7+5+3+3) _ 31) (BitVec.extractLsb' (n := 1+6+7+7+5+3+3) 18 7 _) (BitVec.extractLsb' (n := 1+6+7+7+5+3+3) 3 3 _) (BitVec.extractLsb' (n := 1+6+7+7+5+3+3) 0 3 _) = _
  unfold FormDrain.pack
  obtain ⟨_, _, _, _⟩ := o
  simp only [FormDrain.mk.injEq]
  refine ⟨?_, ?_, ?_, ?_⟩ <;> first | (apply BitVec.eq_of_getLsbD_eq; intro j hj; simp only [BitVec.getLsbD_extractLsb', BitVec.getLsbD_append]; grind) | (simp only [BitVec.getLsbD_append]; simp)

theorem FormDrain.major_pack (op : BitVec 6) (fn : BitVec 5) (o : FormDrain) : majorOf (o.pack op fn) = op := by
  change BitVec.extractLsb' (n := 1+6+7+7+5+3+3) 25 6 _ = op
  unfold FormDrain.pack
  apply BitVec.eq_of_getLsbD_eq; intro j hj; simp only [BitVec.getLsbD_extractLsb', BitVec.getLsbD_append]; grind

theorem FormDrain.fixed_pack (op : BitVec 6) (fn : BitVec 5) (o : FormDrain) : FormDrain.fixedOk (o.pack op fn) = true := by
  have h0 : BitVec.extractLsb' (n := 1+6+7+7+5+3+3) 11 7 (o.pack op fn) = 0 := by
    unfold FormDrain.pack
    apply BitVec.eq_of_getLsbD_eq; intro j hj; simp only [BitVec.getLsbD_extractLsb', BitVec.getLsbD_append]; grind
  change ((BitVec.extractLsb' (n := 1+6+7+7+5+3+3) 11 7 (o.pack op fn) == 0)) = true
  rw [h0]
  rfl

theorem FormDrain.fn_6_2_pack (op : BitVec 6) (fn : BitVec 5) (o : FormDrain) : BitVec.extractLsb' 6 2 (o.pack op fn) = fn.extractLsb' 0 2 := by
  change BitVec.extractLsb' (n := 1+6+7+7+5+3+3) 6 2 _ = _
  unfold FormDrain.pack
  apply BitVec.eq_of_getLsbD_eq; intro j hj; simp only [BitVec.getLsbD_extractLsb', BitVec.getLsbD_append]; grind

theorem FormDrain.fn_8_3_pack (op : BitVec 6) (fn : BitVec 5) (o : FormDrain) : BitVec.extractLsb' 8 3 (o.pack op fn) = fn.extractLsb' 2 3 := by
  change BitVec.extractLsb' (n := 1+6+7+7+5+3+3) 8 3 _ = _
  unfold FormDrain.pack
  apply BitVec.eq_of_getLsbD_eq; intro j hj; simp only [BitVec.getLsbD_extractLsb', BitVec.getLsbD_append]; grind

theorem FormDG.unpack_pack (op : BitVec 6) (fn : BitVec 8) (o : FormDG) : FormDG.unpack (o.pack op fn) = o := by
  change FormDG.mk (BitVec.getLsbD (w := 1+6+7+7+8+3) _ 31) (BitVec.extractLsb' (n := 1+6+7+7+8+3) 18 7 _) (BitVec.extractLsb' (n := 1+6+7+7+8+3) 0 3 _) = _
  unfold FormDG.pack
  obtain ⟨_, _, _⟩ := o
  simp only [FormDG.mk.injEq]
  refine ⟨?_, ?_, ?_⟩ <;> first | (apply BitVec.eq_of_getLsbD_eq; intro j hj; simp only [BitVec.getLsbD_extractLsb', BitVec.getLsbD_append]; grind) | (simp only [BitVec.getLsbD_append]; simp)

theorem FormDG.major_pack (op : BitVec 6) (fn : BitVec 8) (o : FormDG) : majorOf (o.pack op fn) = op := by
  change BitVec.extractLsb' (n := 1+6+7+7+8+3) 25 6 _ = op
  unfold FormDG.pack
  apply BitVec.eq_of_getLsbD_eq; intro j hj; simp only [BitVec.getLsbD_extractLsb', BitVec.getLsbD_append]; grind

theorem FormDG.fixed_pack (op : BitVec 6) (fn : BitVec 8) (o : FormDG) : FormDG.fixedOk (o.pack op fn) = true := by
  have h0 : BitVec.extractLsb' (n := 1+6+7+7+8+3) 11 7 (o.pack op fn) = 0 := by
    unfold FormDG.pack
    apply BitVec.eq_of_getLsbD_eq; intro j hj; simp only [BitVec.getLsbD_extractLsb', BitVec.getLsbD_append]; grind
  change ((BitVec.extractLsb' (n := 1+6+7+7+8+3) 11 7 (o.pack op fn) == 0)) = true
  rw [h0]
  rfl

theorem FormDG.fn_3_5_pack (op : BitVec 6) (fn : BitVec 8) (o : FormDG) : BitVec.extractLsb' 3 5 (o.pack op fn) = fn.extractLsb' 0 5 := by
  change BitVec.extractLsb' (n := 1+6+7+7+8+3) 3 5 _ = _
  unfold FormDG.pack
  apply BitVec.eq_of_getLsbD_eq; intro j hj; simp only [BitVec.getLsbD_extractLsb', BitVec.getLsbD_append]; grind

theorem FormDG.fn8_pack (op : BitVec 6) (fn : BitVec 8) (o : FormDG) : fn8Of (o.pack op fn) = fn := by
  change BitVec.extractLsb' (n := 1+6+7+7+8+3) 3 8 _ = _
  unfold FormDG.pack
  apply BitVec.eq_of_getLsbD_eq; intro j hj; simp only [BitVec.getLsbD_extractLsb', BitVec.getLsbD_append]; grind

theorem FormDG.fn_8_3_pack (op : BitVec 6) (fn : BitVec 8) (o : FormDG) : BitVec.extractLsb' 8 3 (o.pack op fn) = fn.extractLsb' 5 3 := by
  change BitVec.extractLsb' (n := 1+6+7+7+8+3) 8 3 _ = _
  unfold FormDG.pack
  apply BitVec.eq_of_getLsbD_eq; intro j hj; simp only [BitVec.getLsbD_extractLsb', BitVec.getLsbD_append]; grind

theorem FormChclose.unpack_pack (op : BitVec 6) (fn : BitVec 8) (o : FormChclose) : FormChclose.unpack (o.pack op fn) = o := by
  change FormChclose.mk (BitVec.getLsbD (w := 1+6+12+2+8+3) _ 31) (BitVec.extractLsb' (n := 1+6+12+2+8+3) 11 2 _) (BitVec.extractLsb' (n := 1+6+12+2+8+3) 0 3 _) = _
  unfold FormChclose.pack
  obtain ⟨_, _, _⟩ := o
  simp only [FormChclose.mk.injEq]
  refine ⟨?_, ?_, ?_⟩ <;> first | (apply BitVec.eq_of_getLsbD_eq; intro j hj; simp only [BitVec.getLsbD_extractLsb', BitVec.getLsbD_append]; grind) | (simp only [BitVec.getLsbD_append]; simp)

theorem FormChclose.major_pack (op : BitVec 6) (fn : BitVec 8) (o : FormChclose) : majorOf (o.pack op fn) = op := by
  change BitVec.extractLsb' (n := 1+6+12+2+8+3) 25 6 _ = op
  unfold FormChclose.pack
  apply BitVec.eq_of_getLsbD_eq; intro j hj; simp only [BitVec.getLsbD_extractLsb', BitVec.getLsbD_append]; grind

theorem FormChclose.fixed_pack (op : BitVec 6) (fn : BitVec 8) (o : FormChclose) : FormChclose.fixedOk (o.pack op fn) = true := by
  have h0 : BitVec.extractLsb' (n := 1+6+12+2+8+3) 13 12 (o.pack op fn) = 0 := by
    unfold FormChclose.pack
    apply BitVec.eq_of_getLsbD_eq; intro j hj; simp only [BitVec.getLsbD_extractLsb', BitVec.getLsbD_append]; grind
  change ((BitVec.extractLsb' (n := 1+6+12+2+8+3) 13 12 (o.pack op fn) == 0)) = true
  rw [h0]
  rfl

theorem FormChclose.fn8_pack (op : BitVec 6) (fn : BitVec 8) (o : FormChclose) : fn8Of (o.pack op fn) = fn := by
  change BitVec.extractLsb' (n := 1+6+12+2+8+3) 3 8 _ = _
  unfold FormChclose.pack
  apply BitVec.eq_of_getLsbD_eq; intro j hj; simp only [BitVec.getLsbD_extractLsb', BitVec.getLsbD_append]; grind

theorem FormGuard.unpack_pack (op : BitVec 6) (fn : BitVec 4) (o : FormGuard) : FormGuard.unpack (o.pack op fn) = o := by
  change FormGuard.mk (BitVec.getLsbD (w := 1+6+4+11+1+6+3) _ 9) (BitVec.extractLsb' (n := 1+6+4+11+1+6+3) 3 6 _) = _
  unfold FormGuard.pack
  obtain ⟨_, _⟩ := o
  simp only [FormGuard.mk.injEq]
  refine ⟨?_, ?_⟩ <;> first | (apply BitVec.eq_of_getLsbD_eq; intro j hj; simp only [BitVec.getLsbD_extractLsb', BitVec.getLsbD_append]; grind) | (simp only [BitVec.getLsbD_append]; simp)

theorem FormGuard.major_pack (op : BitVec 6) (fn : BitVec 4) (o : FormGuard) : majorOf (o.pack op fn) = op := by
  change BitVec.extractLsb' (n := 1+6+4+11+1+6+3) 25 6 _ = op
  unfold FormGuard.pack
  apply BitVec.eq_of_getLsbD_eq; intro j hj; simp only [BitVec.getLsbD_extractLsb', BitVec.getLsbD_append]; grind

theorem FormGuard.fixed_pack (op : BitVec 6) (fn : BitVec 4) (o : FormGuard) : FormGuard.fixedOk (o.pack op fn) = true := by
  have h0 : BitVec.extractLsb' (n := 1+6+4+11+1+6+3) 31 1 (o.pack op fn) = 0 := by
    unfold FormGuard.pack
    apply BitVec.eq_of_getLsbD_eq; intro j hj; simp only [BitVec.getLsbD_extractLsb', BitVec.getLsbD_append]; grind
  have h1 : BitVec.extractLsb' (n := 1+6+4+11+1+6+3) 10 11 (o.pack op fn) = 0 := by
    unfold FormGuard.pack
    apply BitVec.eq_of_getLsbD_eq; intro j hj; simp only [BitVec.getLsbD_extractLsb', BitVec.getLsbD_append]; grind
  have h2 : BitVec.extractLsb' (n := 1+6+4+11+1+6+3) 0 3 (o.pack op fn) = 7 := by
    unfold FormGuard.pack
    apply BitVec.eq_of_getLsbD_eq; intro j hj; simp only [BitVec.getLsbD_extractLsb', BitVec.getLsbD_append]; grind
  change ((BitVec.extractLsb' (n := 1+6+4+11+1+6+3) 31 1 (o.pack op fn) == 0) && (BitVec.extractLsb' (n := 1+6+4+11+1+6+3) 10 11 (o.pack op fn) == 0) && (BitVec.extractLsb' (n := 1+6+4+11+1+6+3) 0 3 (o.pack op fn) == 7)) = true
  rw [h0, h1, h2]
  rfl

theorem FormGuard.fn_21_4_pack (op : BitVec 6) (fn : BitVec 4) (o : FormGuard) : BitVec.extractLsb' 21 4 (o.pack op fn) = fn := by
  change BitVec.extractLsb' (n := 1+6+4+11+1+6+3) 21 4 _ = _
  unfold FormGuard.pack
  apply BitVec.eq_of_getLsbD_eq; intro j hj; simp only [BitVec.getLsbD_extractLsb', BitVec.getLsbD_append]; grind

theorem FormGuard.bit31_pack (op : BitVec 6) (fn : BitVec 4) (o : FormGuard) : (o.pack op fn).getLsbD 31 = false := by
  change BitVec.getLsbD (w := 1+6+4+11+1+6+3) _ 31 = false
  unfold FormGuard.pack
  simp only [BitVec.getLsbD_append]; simp

theorem FormImm.unpack_pack (op : BitVec 6) (fn : BitVec 4) (o : FormImm) : FormImm.unpack (o.pack op fn) = o := by
  change FormImm.mk (BitVec.extractLsb' (n := 1+6+4+2+16+3) 3 16 _) = _
  unfold FormImm.pack
  obtain ⟨_⟩ := o
  simp only [FormImm.mk.injEq]
  first | (apply BitVec.eq_of_getLsbD_eq; intro j hj; simp only [BitVec.getLsbD_extractLsb', BitVec.getLsbD_append]; grind) | (simp only [BitVec.getLsbD_append]; simp)

theorem FormImm.major_pack (op : BitVec 6) (fn : BitVec 4) (o : FormImm) : majorOf (o.pack op fn) = op := by
  change BitVec.extractLsb' (n := 1+6+4+2+16+3) 25 6 _ = op
  unfold FormImm.pack
  apply BitVec.eq_of_getLsbD_eq; intro j hj; simp only [BitVec.getLsbD_extractLsb', BitVec.getLsbD_append]; grind

theorem FormImm.fixed_pack (op : BitVec 6) (fn : BitVec 4) (o : FormImm) : FormImm.fixedOk (o.pack op fn) = true := by
  have h0 : BitVec.extractLsb' (n := 1+6+4+2+16+3) 31 1 (o.pack op fn) = 0 := by
    unfold FormImm.pack
    apply BitVec.eq_of_getLsbD_eq; intro j hj; simp only [BitVec.getLsbD_extractLsb', BitVec.getLsbD_append]; grind
  have h1 : BitVec.extractLsb' (n := 1+6+4+2+16+3) 19 2 (o.pack op fn) = 0 := by
    unfold FormImm.pack
    apply BitVec.eq_of_getLsbD_eq; intro j hj; simp only [BitVec.getLsbD_extractLsb', BitVec.getLsbD_append]; grind
  have h2 : BitVec.extractLsb' (n := 1+6+4+2+16+3) 0 3 (o.pack op fn) = 7 := by
    unfold FormImm.pack
    apply BitVec.eq_of_getLsbD_eq; intro j hj; simp only [BitVec.getLsbD_extractLsb', BitVec.getLsbD_append]; grind
  change ((BitVec.extractLsb' (n := 1+6+4+2+16+3) 31 1 (o.pack op fn) == 0) && (BitVec.extractLsb' (n := 1+6+4+2+16+3) 19 2 (o.pack op fn) == 0) && (BitVec.extractLsb' (n := 1+6+4+2+16+3) 0 3 (o.pack op fn) == 7)) = true
  rw [h0, h1, h2]
  rfl

theorem FormImm.fn_21_4_pack (op : BitVec 6) (fn : BitVec 4) (o : FormImm) : BitVec.extractLsb' 21 4 (o.pack op fn) = fn := by
  change BitVec.extractLsb' (n := 1+6+4+2+16+3) 21 4 _ = _
  unfold FormImm.pack
  apply BitVec.eq_of_getLsbD_eq; intro j hj; simp only [BitVec.getLsbD_extractLsb', BitVec.getLsbD_append]; grind

theorem FormImm.bit31_pack (op : BitVec 6) (fn : BitVec 4) (o : FormImm) : (o.pack op fn).getLsbD 31 = false := by
  change BitVec.getLsbD (w := 1+6+4+2+16+3) _ 31 = false
  unfold FormImm.pack
  simp only [BitVec.getLsbD_append]; simp

theorem FormMod.unpack_pack (op : BitVec 6) (fn : BitVec 4) (o : FormMod) : FormMod.unpack (o.pack op fn) = o := by
  change FormMod.mk (BitVec.getLsbD (w := 1+6+4+9+1+1+1+2+1+3+3) _ 11) (BitVec.getLsbD (w := 1+6+4+9+1+1+1+2+1+3+3) _ 10) (BitVec.getLsbD (w := 1+6+4+9+1+1+1+2+1+3+3) _ 9) (BitVec.extractLsb' (n := 1+6+4+9+1+1+1+2+1+3+3) 7 2 _) (BitVec.getLsbD (w := 1+6+4+9+1+1+1+2+1+3+3) _ 6) (BitVec.extractLsb' (n := 1+6+4+9+1+1+1+2+1+3+3) 3 3 _) = _
  unfold FormMod.pack
  obtain ⟨_, _, _, _, _, _⟩ := o
  simp only [FormMod.mk.injEq]
  refine ⟨?_, ?_, ?_, ?_, ?_, ?_⟩ <;> first | (apply BitVec.eq_of_getLsbD_eq; intro j hj; simp only [BitVec.getLsbD_extractLsb', BitVec.getLsbD_append]; grind) | (simp only [BitVec.getLsbD_append]; simp)

theorem FormMod.major_pack (op : BitVec 6) (fn : BitVec 4) (o : FormMod) : majorOf (o.pack op fn) = op := by
  change BitVec.extractLsb' (n := 1+6+4+9+1+1+1+2+1+3+3) 25 6 _ = op
  unfold FormMod.pack
  apply BitVec.eq_of_getLsbD_eq; intro j hj; simp only [BitVec.getLsbD_extractLsb', BitVec.getLsbD_append]; grind

theorem FormMod.fixed_pack (op : BitVec 6) (fn : BitVec 4) (o : FormMod) : FormMod.fixedOk (o.pack op fn) = true := by
  have h0 : BitVec.extractLsb' (n := 1+6+4+9+1+1+1+2+1+3+3) 31 1 (o.pack op fn) = 0 := by
    unfold FormMod.pack
    apply BitVec.eq_of_getLsbD_eq; intro j hj; simp only [BitVec.getLsbD_extractLsb', BitVec.getLsbD_append]; grind
  have h1 : BitVec.extractLsb' (n := 1+6+4+9+1+1+1+2+1+3+3) 12 9 (o.pack op fn) = 0 := by
    unfold FormMod.pack
    apply BitVec.eq_of_getLsbD_eq; intro j hj; simp only [BitVec.getLsbD_extractLsb', BitVec.getLsbD_append]; grind
  have h2 : BitVec.extractLsb' (n := 1+6+4+9+1+1+1+2+1+3+3) 0 3 (o.pack op fn) = 7 := by
    unfold FormMod.pack
    apply BitVec.eq_of_getLsbD_eq; intro j hj; simp only [BitVec.getLsbD_extractLsb', BitVec.getLsbD_append]; grind
  change ((BitVec.extractLsb' (n := 1+6+4+9+1+1+1+2+1+3+3) 31 1 (o.pack op fn) == 0) && (BitVec.extractLsb' (n := 1+6+4+9+1+1+1+2+1+3+3) 12 9 (o.pack op fn) == 0) && (BitVec.extractLsb' (n := 1+6+4+9+1+1+1+2+1+3+3) 0 3 (o.pack op fn) == 7)) = true
  rw [h0, h1, h2]
  rfl

theorem FormMod.fn_21_4_pack (op : BitVec 6) (fn : BitVec 4) (o : FormMod) : BitVec.extractLsb' 21 4 (o.pack op fn) = fn := by
  change BitVec.extractLsb' (n := 1+6+4+9+1+1+1+2+1+3+3) 21 4 _ = _
  unfold FormMod.pack
  apply BitVec.eq_of_getLsbD_eq; intro j hj; simp only [BitVec.getLsbD_extractLsb', BitVec.getLsbD_append]; grind

theorem FormMod.bit31_pack (op : BitVec 6) (fn : BitVec 4) (o : FormMod) : (o.pack op fn).getLsbD 31 = false := by
  change BitVec.getLsbD (w := 1+6+4+9+1+1+1+2+1+3+3) _ 31 = false
  unfold FormMod.pack
  simp only [BitVec.getLsbD_append]; simp

theorem FormDelay.unpack_pack (op : BitVec 6) (fn : BitVec 4) (o : FormDelay) : FormDelay.unpack (o.pack op fn) = o := by
  change FormDelay.mk (BitVec.extractLsb' (n := 1+6+4+10+8+3) 3 8 _) = _
  unfold FormDelay.pack
  obtain ⟨_⟩ := o
  simp only [FormDelay.mk.injEq]
  first | (apply BitVec.eq_of_getLsbD_eq; intro j hj; simp only [BitVec.getLsbD_extractLsb', BitVec.getLsbD_append]; grind) | (simp only [BitVec.getLsbD_append]; simp)

theorem FormDelay.major_pack (op : BitVec 6) (fn : BitVec 4) (o : FormDelay) : majorOf (o.pack op fn) = op := by
  change BitVec.extractLsb' (n := 1+6+4+10+8+3) 25 6 _ = op
  unfold FormDelay.pack
  apply BitVec.eq_of_getLsbD_eq; intro j hj; simp only [BitVec.getLsbD_extractLsb', BitVec.getLsbD_append]; grind

theorem FormDelay.fixed_pack (op : BitVec 6) (fn : BitVec 4) (o : FormDelay) : FormDelay.fixedOk (o.pack op fn) = true := by
  have h0 : BitVec.extractLsb' (n := 1+6+4+10+8+3) 31 1 (o.pack op fn) = 0 := by
    unfold FormDelay.pack
    apply BitVec.eq_of_getLsbD_eq; intro j hj; simp only [BitVec.getLsbD_extractLsb', BitVec.getLsbD_append]; grind
  have h1 : BitVec.extractLsb' (n := 1+6+4+10+8+3) 11 10 (o.pack op fn) = 0 := by
    unfold FormDelay.pack
    apply BitVec.eq_of_getLsbD_eq; intro j hj; simp only [BitVec.getLsbD_extractLsb', BitVec.getLsbD_append]; grind
  have h2 : BitVec.extractLsb' (n := 1+6+4+10+8+3) 0 3 (o.pack op fn) = 7 := by
    unfold FormDelay.pack
    apply BitVec.eq_of_getLsbD_eq; intro j hj; simp only [BitVec.getLsbD_extractLsb', BitVec.getLsbD_append]; grind
  change ((BitVec.extractLsb' (n := 1+6+4+10+8+3) 31 1 (o.pack op fn) == 0) && (BitVec.extractLsb' (n := 1+6+4+10+8+3) 11 10 (o.pack op fn) == 0) && (BitVec.extractLsb' (n := 1+6+4+10+8+3) 0 3 (o.pack op fn) == 7)) = true
  rw [h0, h1, h2]
  rfl

theorem FormDelay.fn_21_4_pack (op : BitVec 6) (fn : BitVec 4) (o : FormDelay) : BitVec.extractLsb' 21 4 (o.pack op fn) = fn := by
  change BitVec.extractLsb' (n := 1+6+4+10+8+3) 21 4 _ = _
  unfold FormDelay.pack
  apply BitVec.eq_of_getLsbD_eq; intro j hj; simp only [BitVec.getLsbD_extractLsb', BitVec.getLsbD_append]; grind

theorem FormDelay.bit31_pack (op : BitVec 6) (fn : BitVec 4) (o : FormDelay) : (o.pack op fn).getLsbD 31 = false := by
  change BitVec.getLsbD (w := 1+6+4+10+8+3) _ 31 = false
  unfold FormDelay.pack
  simp only [BitVec.getLsbD_append]; simp

end Sys2Proof
end

