-- ==== Sys2Proof/Laws/Flits.lean ====
section
/-!
SUPPORT. Bytes and flits: the lengths and fields of byte strings, and what a flit slot without byte errors delivers.
-/
namespace Sys2Proof.Machine

theorem bytesOf_length (n x : Nat) : (bytesOf n x).length = n := by
  induction n generalizing x with
  | zero => rfl
  | succ n ih => simp [bytesOf, ih]

theorem numOf_bytesOf (n x : Nat) (h : x < 256 ^ n) : numOf (bytesOf n x) = x := by
  induction n generalizing x with
  | zero => simp [numOf, bytesOf] at *; omega
  | succ n ih =>
    have : x / 256 < 256 ^ n := by rw [Nat.div_lt_iff_lt_mul (by omega)]; rw [Nat.pow_succ] at h; omega
    simp [bytesOf, numOf, ih _ this]; omega

theorem slice_length (l : List Byte) (o n : Nat) : (slice l o n).length = n := by simp [slice] <;> omega

theorem slice_mid (a b c : List Byte) (n : Nat) (h : b.length = n) : slice (a ++ (b ++ c)) a.length n = b := by
  subst h; simp [slice]

theorem corrected_clean (x : RxSlot) (h : x.errors = []) (hl : x.bytes.length = 256) : x.corrected = x.bytes := by
  have : slice x.bytes 0 256 = x.bytes := by simp [slice, hl, List.take_of_length_le]
  simp [RxSlot.corrected, RxSlot.delivered, h, this]

theorem aesRounds_length (ks : List (List Byte)) (s : List Byte) (h : ∀ k ∈ ks, k.length = 16) (hs : s.length = 16) :
    (aesRounds ks s).length = 16 := by
  induction ks generalizing s with
  | nil => simpa [aesRounds]
  | cons k r ih =>
    cases r with
    | nil => simp [aesRounds, xorBytes, aesShift, h k]
    | cons k' r => simp only [aesRounds]; apply ih <;> simp_all [xorBytes, aesMix]

end Sys2Proof.Machine
end

