-- ==== Sys2Proof/Laws/PerInstr.lean ====
section
/-!
SUPPORT. Per instruction: decoding the encoded word of a well-formed instruction gives it back (R269-R282).
-/
namespace Sys2Proof.Laws.Encoding

/-- The word of a well-formed instruction decodes to it. -/
def Statement (i : Instr) : Prop := ∀ w, i.wellFormed = true → encodeWord i = some w → decodeWord w = .ok i

/-- A word that the maps read as a well-formed instruction decodes to it. -/
theorem of_read {i : Instr} {w : Word} (he : encodeWord i = some w) (hr : readWord w = .ok i) : Statement i := by
  intro w' hw h
  obtain rfl : w = w' := Option.some.inj (he.symm.trans h)
  simp only [decodeWord, hr, hw, if_true]

/-- An operation or event of the machine has no word. -/
theorem of_none {i : Instr} (he : encodeWord i = none) : Statement i := by
  intro w _ h
  rw [he] at h
  cases h

theorem iadd (o : FormTR) : Statement (.iadd o) := by
  refine of_read rfl ?_
  have h := congrArg (fun x => (Except.ok (Instr.iadd x) : Except DecodeError Instr)) (FormTR.unpack_pack (0x0 : BitVec 6) o)
  refine Eq.trans ?_ h
  simp only [readWord, FormTR.major_pack]
  rfl

theorem isub (o : FormTR) : Statement (.isub o) := by
  refine of_read rfl ?_
  have h := congrArg (fun x => (Except.ok (Instr.isub x) : Except DecodeError Instr)) (FormTR.unpack_pack (0x1 : BitVec 6) o)
  refine Eq.trans ?_ h
  simp only [readWord, FormTR.major_pack]
  rfl

theorem imul (o : FormTR) : Statement (.imul o) := by
  refine of_read rfl ?_
  have h := congrArg (fun x => (Except.ok (Instr.imul x) : Except DecodeError Instr)) (FormTR.unpack_pack (0x2 : BitVec 6) o)
  refine Eq.trans ?_ h
  simp only [readWord, FormTR.major_pack]
  rfl

theorem imulhs (o : FormTR) : Statement (.imulhs o) := by
  refine of_read rfl ?_
  have h := congrArg (fun x => (Except.ok (Instr.imulhs x) : Except DecodeError Instr)) (FormTR.unpack_pack (0x3 : BitVec 6) o)
  refine Eq.trans ?_ h
  simp only [readWord, FormTR.major_pack]
  rfl

theorem imulhz (o : FormTR) : Statement (.imulhz o) := by
  refine of_read rfl ?_
  have h := congrArg (fun x => (Except.ok (Instr.imulhz x) : Except DecodeError Instr)) (FormTR.unpack_pack (0x4 : BitVec 6) o)
  refine Eq.trans ?_ h
  simp only [readWord, FormTR.major_pack]
  rfl

theorem imins (o : FormTR) : Statement (.imins o) := by
  refine of_read rfl ?_
  have h := congrArg (fun x => (Except.ok (Instr.imins x) : Except DecodeError Instr)) (FormTR.unpack_pack (0x5 : BitVec 6) o)
  refine Eq.trans ?_ h
  simp only [readWord, FormTR.major_pack]
  rfl

theorem imaxs (o : FormTR) : Statement (.imaxs o) := by
  refine of_read rfl ?_
  have h := congrArg (fun x => (Except.ok (Instr.imaxs x) : Except DecodeError Instr)) (FormTR.unpack_pack (0x6 : BitVec 6) o)
  refine Eq.trans ?_ h
  simp only [readWord, FormTR.major_pack]
  rfl

theorem iminz (o : FormTR) : Statement (.iminz o) := by
  refine of_read rfl ?_
  have h := congrArg (fun x => (Except.ok (Instr.iminz x) : Except DecodeError Instr)) (FormTR.unpack_pack (0x7 : BitVec 6) o)
  refine Eq.trans ?_ h
  simp only [readWord, FormTR.major_pack]
  rfl

theorem imaxz (o : FormTR) : Statement (.imaxz o) := by
  refine of_read rfl ?_
  have h := congrArg (fun x => (Except.ok (Instr.imaxz x) : Except DecodeError Instr)) (FormTR.unpack_pack (0x8 : BitVec 6) o)
  refine Eq.trans ?_ h
  simp only [readWord, FormTR.major_pack]
  rfl

theorem and (o : FormTR) : Statement (.and o) := by
  refine of_read rfl ?_
  have h := congrArg (fun x => (Except.ok (Instr.and x) : Except DecodeError Instr)) (FormTR.unpack_pack (0x9 : BitVec 6) o)
  refine Eq.trans ?_ h
  simp only [readWord, FormTR.major_pack]
  rfl

theorem or (o : FormTR) : Statement (.or o) := by
  refine of_read rfl ?_
  have h := congrArg (fun x => (Except.ok (Instr.or x) : Except DecodeError Instr)) (FormTR.unpack_pack (0xa : BitVec 6) o)
  refine Eq.trans ?_ h
  simp only [readWord, FormTR.major_pack]
  rfl

theorem xor (o : FormTR) : Statement (.xor o) := by
  refine of_read rfl ?_
  have h := congrArg (fun x => (Except.ok (Instr.xor x) : Except DecodeError Instr)) (FormTR.unpack_pack (0xb : BitVec 6) o)
  refine Eq.trans ?_ h
  simp only [readWord, FormTR.major_pack]
  rfl

theorem shl (o : FormTR) : Statement (.shl o) := by
  refine of_read rfl ?_
  have h := congrArg (fun x => (Except.ok (Instr.shl x) : Except DecodeError Instr)) (FormTR.unpack_pack (0xc : BitVec 6) o)
  refine Eq.trans ?_ h
  simp only [readWord, FormTR.major_pack]
  rfl

theorem shr (o : FormTR) : Statement (.shr o) := by
  refine of_read rfl ?_
  have h := congrArg (fun x => (Except.ok (Instr.shr x) : Except DecodeError Instr)) (FormTR.unpack_pack (0xd : BitVec 6) o)
  refine Eq.trans ?_ h
  simp only [readWord, FormTR.major_pack]
  rfl

theorem sar (o : FormTR) : Statement (.sar o) := by
  refine of_read rfl ?_
  have h := congrArg (fun x => (Except.ok (Instr.sar x) : Except DecodeError Instr)) (FormTR.unpack_pack (0xe : BitVec 6) o)
  refine Eq.trans ?_ h
  simp only [readWord, FormTR.major_pack]
  rfl

theorem imad (o : FormTR) : Statement (.imad o) := by
  refine of_read rfl ?_
  have h := congrArg (fun x => (Except.ok (Instr.imad x) : Except DecodeError Instr)) (FormTR.unpack_pack (0xf : BitVec 6) o)
  refine Eq.trans ?_ h
  simp only [readWord, FormTR.major_pack]
  rfl

theorem fadd (o : FormTR) : Statement (.fadd o) := by
  refine of_read rfl ?_
  have h := congrArg (fun x => (Except.ok (Instr.fadd x) : Except DecodeError Instr)) (FormTR.unpack_pack (0x10 : BitVec 6) o)
  refine Eq.trans ?_ h
  simp only [readWord, FormTR.major_pack]
  rfl

theorem fsub (o : FormTR) : Statement (.fsub o) := by
  refine of_read rfl ?_
  have h := congrArg (fun x => (Except.ok (Instr.fsub x) : Except DecodeError Instr)) (FormTR.unpack_pack (0x11 : BitVec 6) o)
  refine Eq.trans ?_ h
  simp only [readWord, FormTR.major_pack]
  rfl

theorem fmul (o : FormTR) : Statement (.fmul o) := by
  refine of_read rfl ?_
  have h := congrArg (fun x => (Except.ok (Instr.fmul x) : Except DecodeError Instr)) (FormTR.unpack_pack (0x12 : BitVec 6) o)
  refine Eq.trans ?_ h
  simp only [readWord, FormTR.major_pack]
  rfl

theorem ffma (o : FormTR) : Statement (.ffma o) := by
  refine of_read rfl ?_
  have h := congrArg (fun x => (Except.ok (Instr.ffma x) : Except DecodeError Instr)) (FormTR.unpack_pack (0x13 : BitVec 6) o)
  refine Eq.trans ?_ h
  simp only [readWord, FormTR.major_pack]
  rfl

theorem fmin (o : FormTR) : Statement (.fmin o) := by
  refine of_read rfl ?_
  have h := congrArg (fun x => (Except.ok (Instr.fmin x) : Except DecodeError Instr)) (FormTR.unpack_pack (0x14 : BitVec 6) o)
  refine Eq.trans ?_ h
  simp only [readWord, FormTR.major_pack]
  rfl

theorem fmax (o : FormTR) : Statement (.fmax o) := by
  refine of_read rfl ?_
  have h := congrArg (fun x => (Except.ok (Instr.fmax x) : Except DecodeError Instr)) (FormTR.unpack_pack (0x15 : BitVec 6) o)
  refine Eq.trans ?_ h
  simp only [readWord, FormTR.major_pack]
  rfl

theorem sel (o : FormTR) : Statement (.sel o) := by
  refine of_read rfl ?_
  have h := congrArg (fun x => (Except.ok (Instr.sel x) : Except DecodeError Instr)) (FormTR.unpack_pack (0x16 : BitVec 6) o)
  refine Eq.trans ?_ h
  simp only [readWord, FormTR.major_pack]
  rfl

theorem bmul2 (o : FormTR) : Statement (.bmul2 o) := by
  refine of_read rfl ?_
  have h := congrArg (fun x => (Except.ok (Instr.bmul2 x) : Except DecodeError Instr)) (FormTR.unpack_pack (0x17 : BitVec 6) o)
  refine Eq.trans ?_ h
  simp only [readWord, FormTR.major_pack]
  rfl

theorem bfma2 (o : FormTR) : Statement (.bfma2 o) := by
  refine of_read rfl ?_
  have h := congrArg (fun x => (Except.ok (Instr.bfma2 x) : Except DecodeError Instr)) (FormTR.unpack_pack (0x18 : BitVec 6) o)
  refine Eq.trans ?_ h
  simp only [readWord, FormTR.major_pack]
  rfl

theorem icmpeq (o : FormCmp) : Statement (.icmpeq o) := by
  refine of_read rfl ?_
  have h := congrArg (fun x => (Except.ok (Instr.icmpeq x) : Except DecodeError Instr)) (FormCmp.unpack_pack (0x19 : BitVec 6) o)
  refine Eq.trans ?_ h
  simp only [readWord, FormCmp.major_pack]
  rfl

theorem icmpne (o : FormCmp) : Statement (.icmpne o) := by
  refine of_read rfl ?_
  have h := congrArg (fun x => (Except.ok (Instr.icmpne x) : Except DecodeError Instr)) (FormCmp.unpack_pack (0x1a : BitVec 6) o)
  refine Eq.trans ?_ h
  simp only [readWord, FormCmp.major_pack]
  rfl

theorem icmplt (o : FormCmp) : Statement (.icmplt o) := by
  refine of_read rfl ?_
  have h := congrArg (fun x => (Except.ok (Instr.icmplt x) : Except DecodeError Instr)) (FormCmp.unpack_pack (0x1b : BitVec 6) o)
  refine Eq.trans ?_ h
  simp only [readWord, FormCmp.major_pack]
  rfl

theorem icmple (o : FormCmp) : Statement (.icmple o) := by
  refine of_read rfl ?_
  have h := congrArg (fun x => (Except.ok (Instr.icmple x) : Except DecodeError Instr)) (FormCmp.unpack_pack (0x1c : BitVec 6) o)
  refine Eq.trans ?_ h
  simp only [readWord, FormCmp.major_pack]
  rfl

theorem icmpltz (o : FormCmp) : Statement (.icmpltz o) := by
  refine of_read rfl ?_
  have h := congrArg (fun x => (Except.ok (Instr.icmpltz x) : Except DecodeError Instr)) (FormCmp.unpack_pack (0x1d : BitVec 6) o)
  refine Eq.trans ?_ h
  simp only [readWord, FormCmp.major_pack]
  rfl

theorem iadd64 (o : FormTR) : Statement (.iadd64 o) := by
  refine of_read rfl ?_
  have h := congrArg (fun x => (Except.ok (Instr.iadd64 x) : Except DecodeError Instr)) (FormTR.unpack_pack (0x1e : BitVec 6) o)
  refine Eq.trans ?_ h
  simp only [readWord, FormTR.major_pack]
  rfl

theorem fcmpeq (o : FormCmp) : Statement (.fcmpeq o) := by
  refine of_read rfl ?_
  have h := congrArg (fun x => (Except.ok (Instr.fcmpeq x) : Except DecodeError Instr)) (FormCmp.unpack_pack (0x1f : BitVec 6) o)
  refine Eq.trans ?_ h
  simp only [readWord, FormCmp.major_pack]
  rfl

theorem fcmplt (o : FormCmp) : Statement (.fcmplt o) := by
  refine of_read rfl ?_
  have h := congrArg (fun x => (Except.ok (Instr.fcmplt x) : Except DecodeError Instr)) (FormCmp.unpack_pack (0x20 : BitVec 6) o)
  refine Eq.trans ?_ h
  simp only [readWord, FormCmp.major_pack]
  rfl

theorem fcmple (o : FormCmp) : Statement (.fcmple o) := by
  refine of_read rfl ?_
  have h := congrArg (fun x => (Except.ok (Instr.fcmple x) : Except DecodeError Instr)) (FormCmp.unpack_pack (0x21 : BitVec 6) o)
  refine Eq.trans ?_ h
  simp only [readWord, FormCmp.major_pack]
  rfl

theorem fcmpun (o : FormCmp) : Statement (.fcmpun o) := by
  refine of_read rfl ?_
  have h := congrArg (fun x => (Except.ok (Instr.fcmpun x) : Except DecodeError Instr)) (FormCmp.unpack_pack (0x22 : BitVec 6) o)
  refine Eq.trans ?_ h
  simp only [readWord, FormCmp.major_pack]
  rfl

theorem iaddi (o : FormTI) : Statement (.iaddi o) := by
  refine of_read rfl ?_
  have h := congrArg (fun x => (Except.ok (Instr.iaddi x) : Except DecodeError Instr)) (FormTI.unpack_pack (0x23 : BitVec 6) o)
  refine Eq.trans ?_ h
  simp only [readWord, FormTI.major_pack]
  rfl

theorem andi (o : FormTI) : Statement (.andi o) := by
  refine of_read rfl ?_
  have h := congrArg (fun x => (Except.ok (Instr.andi x) : Except DecodeError Instr)) (FormTI.unpack_pack (0x24 : BitVec 6) o)
  refine Eq.trans ?_ h
  simp only [readWord, FormTI.major_pack]
  rfl

theorem ori (o : FormTI) : Statement (.ori o) := by
  refine of_read rfl ?_
  have h := congrArg (fun x => (Except.ok (Instr.ori x) : Except DecodeError Instr)) (FormTI.unpack_pack (0x25 : BitVec 6) o)
  refine Eq.trans ?_ h
  simp only [readWord, FormTI.major_pack]
  rfl

theorem xori (o : FormTI) : Statement (.xori o) := by
  refine of_read rfl ?_
  have h := congrArg (fun x => (Except.ok (Instr.xori x) : Except DecodeError Instr)) (FormTI.unpack_pack (0x26 : BitVec 6) o)
  refine Eq.trans ?_ h
  simp only [readWord, FormTI.major_pack]
  rfl

theorem shfi (o : FormShfi) : Statement (.shfi o) := by
  refine of_read rfl ?_
  have h := congrArg (fun x => (Except.ok (Instr.shfi x) : Except DecodeError Instr)) (FormShfi.unpack_pack (0x27 : BitVec 6) o)
  refine Eq.trans ?_ h
  simp only [readWord, FormShfi.major_pack]
  change (if FormShfi.fixedOk _ then _ else _) = _
  rw [FormShfi.fixed_pack]
  rfl

theorem movi (o : FormMovi) : Statement (.movi o) := by
  refine of_read rfl ?_
  have h := congrArg (fun x => (Except.ok (Instr.movi x) : Except DecodeError Instr)) (FormMovi.unpack_pack (0x28 : BitVec 6) o)
  refine Eq.trans ?_ h
  simp only [readWord, FormMovi.major_pack]
  change (if FormMovi.fixedOk _ then _ else _) = _
  rw [FormMovi.fixed_pack]
  rfl

theorem ld8 (o : FormTM) : Statement (.ld8 o) := by
  refine of_read rfl ?_
  have h := congrArg (fun x => (Except.ok (Instr.ld8 x) : Except DecodeError Instr)) (FormTM.unpack_pack (0x29 : BitVec 6) o)
  refine Eq.trans ?_ h
  simp only [readWord, FormTM.major_pack]
  rfl

theorem ld16 (o : FormTM) : Statement (.ld16 o) := by
  refine of_read rfl ?_
  have h := congrArg (fun x => (Except.ok (Instr.ld16 x) : Except DecodeError Instr)) (FormTM.unpack_pack (0x2a : BitVec 6) o)
  refine Eq.trans ?_ h
  simp only [readWord, FormTM.major_pack]
  rfl

theorem ld32 (o : FormTM) : Statement (.ld32 o) := by
  refine of_read rfl ?_
  have h := congrArg (fun x => (Except.ok (Instr.ld32 x) : Except DecodeError Instr)) (FormTM.unpack_pack (0x2b : BitVec 6) o)
  refine Eq.trans ?_ h
  simp only [readWord, FormTM.major_pack]
  rfl

theorem ld64 (o : FormTM) : Statement (.ld64 o) := by
  refine of_read rfl ?_
  have h := congrArg (fun x => (Except.ok (Instr.ld64 x) : Except DecodeError Instr)) (FormTM.unpack_pack (0x2c : BitVec 6) o)
  refine Eq.trans ?_ h
  simp only [readWord, FormTM.major_pack]
  rfl

theorem ld128 (o : FormTM) : Statement (.ld128 o) := by
  refine of_read rfl ?_
  have h := congrArg (fun x => (Except.ok (Instr.ld128 x) : Except DecodeError Instr)) (FormTM.unpack_pack (0x2d : BitVec 6) o)
  refine Eq.trans ?_ h
  simp only [readWord, FormTM.major_pack]
  rfl

theorem st8 (o : FormTM) : Statement (.st8 o) := by
  refine of_read rfl ?_
  have h := congrArg (fun x => (Except.ok (Instr.st8 x) : Except DecodeError Instr)) (FormTM.unpack_pack (0x2e : BitVec 6) o)
  refine Eq.trans ?_ h
  simp only [readWord, FormTM.major_pack]
  rfl

theorem st16 (o : FormTM) : Statement (.st16 o) := by
  refine of_read rfl ?_
  have h := congrArg (fun x => (Except.ok (Instr.st16 x) : Except DecodeError Instr)) (FormTM.unpack_pack (0x2f : BitVec 6) o)
  refine Eq.trans ?_ h
  simp only [readWord, FormTM.major_pack]
  rfl

theorem st32 (o : FormTM) : Statement (.st32 o) := by
  refine of_read rfl ?_
  have h := congrArg (fun x => (Except.ok (Instr.st32 x) : Except DecodeError Instr)) (FormTM.unpack_pack (0x30 : BitVec 6) o)
  refine Eq.trans ?_ h
  simp only [readWord, FormTM.major_pack]
  rfl

theorem st64 (o : FormTM) : Statement (.st64 o) := by
  refine of_read rfl ?_
  have h := congrArg (fun x => (Except.ok (Instr.st64 x) : Except DecodeError Instr)) (FormTM.unpack_pack (0x31 : BitVec 6) o)
  refine Eq.trans ?_ h
  simp only [readWord, FormTM.major_pack]
  rfl

theorem st128 (o : FormTM) : Statement (.st128 o) := by
  refine of_read rfl ?_
  have h := congrArg (fun x => (Except.ok (Instr.st128 x) : Except DecodeError Instr)) (FormTM.unpack_pack (0x32 : BitVec 6) o)
  refine Eq.trans ?_ h
  simp only [readWord, FormTM.major_pack]
  rfl

theorem atomAddB32 (o : FormAtom) : Statement (.atomAddB32 o) := by
  refine of_read rfl ?_
  have h := congrArg (fun x => (Except.ok (Instr.atomAddB32 x) : Except DecodeError Instr)) (FormAtom.unpack_pack (0x33 : BitVec 6) (0x0 : BitVec 5) o)
  refine Eq.trans ?_ h
  simp only [readWord, FormAtom.major_pack, FormAtom.fn_3_5_pack]
  rfl

theorem atomAddF32 (o : FormAtom) : Statement (.atomAddF32 o) := by
  refine of_read rfl ?_
  have h := congrArg (fun x => (Except.ok (Instr.atomAddF32 x) : Except DecodeError Instr)) (FormAtom.unpack_pack (0x33 : BitVec 6) (0x1 : BitVec 5) o)
  refine Eq.trans ?_ h
  simp only [readWord, FormAtom.major_pack, FormAtom.fn_3_5_pack]
  rfl

theorem atomAddBf16x2 (o : FormAtom) : Statement (.atomAddBf16x2 o) := by
  refine of_read rfl ?_
  have h := congrArg (fun x => (Except.ok (Instr.atomAddBf16x2 x) : Except DecodeError Instr)) (FormAtom.unpack_pack (0x33 : BitVec 6) (0x2 : BitVec 5) o)
  refine Eq.trans ?_ h
  simp only [readWord, FormAtom.major_pack, FormAtom.fn_3_5_pack]
  rfl

theorem atomMinS32 (o : FormAtom) : Statement (.atomMinS32 o) := by
  refine of_read rfl ?_
  have h := congrArg (fun x => (Except.ok (Instr.atomMinS32 x) : Except DecodeError Instr)) (FormAtom.unpack_pack (0x33 : BitVec 6) (0x3 : BitVec 5) o)
  refine Eq.trans ?_ h
  simp only [readWord, FormAtom.major_pack, FormAtom.fn_3_5_pack]
  rfl

theorem atomMaxS32 (o : FormAtom) : Statement (.atomMaxS32 o) := by
  refine of_read rfl ?_
  have h := congrArg (fun x => (Except.ok (Instr.atomMaxS32 x) : Except DecodeError Instr)) (FormAtom.unpack_pack (0x33 : BitVec 6) (0x4 : BitVec 5) o)
  refine Eq.trans ?_ h
  simp only [readWord, FormAtom.major_pack, FormAtom.fn_3_5_pack]
  rfl

theorem atomMinZ32 (o : FormAtom) : Statement (.atomMinZ32 o) := by
  refine of_read rfl ?_
  have h := congrArg (fun x => (Except.ok (Instr.atomMinZ32 x) : Except DecodeError Instr)) (FormAtom.unpack_pack (0x33 : BitVec 6) (0x5 : BitVec 5) o)
  refine Eq.trans ?_ h
  simp only [readWord, FormAtom.major_pack, FormAtom.fn_3_5_pack]
  rfl

theorem atomMaxZ32 (o : FormAtom) : Statement (.atomMaxZ32 o) := by
  refine of_read rfl ?_
  have h := congrArg (fun x => (Except.ok (Instr.atomMaxZ32 x) : Except DecodeError Instr)) (FormAtom.unpack_pack (0x33 : BitVec 6) (0x6 : BitVec 5) o)
  refine Eq.trans ?_ h
  simp only [readWord, FormAtom.major_pack, FormAtom.fn_3_5_pack]
  rfl

theorem atomAnd (o : FormAtom) : Statement (.atomAnd o) := by
  refine of_read rfl ?_
  have h := congrArg (fun x => (Except.ok (Instr.atomAnd x) : Except DecodeError Instr)) (FormAtom.unpack_pack (0x33 : BitVec 6) (0x7 : BitVec 5) o)
  refine Eq.trans ?_ h
  simp only [readWord, FormAtom.major_pack, FormAtom.fn_3_5_pack]
  rfl

theorem atomOr (o : FormAtom) : Statement (.atomOr o) := by
  refine of_read rfl ?_
  have h := congrArg (fun x => (Except.ok (Instr.atomOr x) : Except DecodeError Instr)) (FormAtom.unpack_pack (0x33 : BitVec 6) (0x8 : BitVec 5) o)
  refine Eq.trans ?_ h
  simp only [readWord, FormAtom.major_pack, FormAtom.fn_3_5_pack]
  rfl

theorem atomXor (o : FormAtom) : Statement (.atomXor o) := by
  refine of_read rfl ?_
  have h := congrArg (fun x => (Except.ok (Instr.atomXor x) : Except DecodeError Instr)) (FormAtom.unpack_pack (0x33 : BitVec 6) (0x9 : BitVec 5) o)
  refine Eq.trans ?_ h
  simp only [readWord, FormAtom.major_pack, FormAtom.fn_3_5_pack]
  rfl

theorem atomXchg (o : FormAtomRet) : Statement (.atomXchg o) := by
  refine of_read rfl ?_
  have h := congrArg (fun x => (Except.ok (Instr.atomXchg x) : Except DecodeError Instr)) (FormAtomRet.unpack_pack (0x33 : BitVec 6) (0xa : BitVec 5) o)
  refine Eq.trans ?_ h
  simp only [readWord, FormAtomRet.major_pack, FormAtomRet.fn_3_5_pack]
  change (if BitVec.getLsbD _ 8 then _ else _) = _
  rw [FormAtomRet.bit8_pack]
  rfl

theorem atomCas (o : FormAtomRet) : Statement (.atomCas o) := by
  refine of_read rfl ?_
  have h := congrArg (fun x => (Except.ok (Instr.atomCas x) : Except DecodeError Instr)) (FormAtomRet.unpack_pack (0x33 : BitVec 6) (0xb : BitVec 5) o)
  refine Eq.trans ?_ h
  simp only [readWord, FormAtomRet.major_pack, FormAtomRet.fn_3_5_pack]
  change (if BitVec.getLsbD _ 8 then _ else _) = _
  rw [FormAtomRet.bit8_pack]
  rfl

theorem atomIncw (o : FormAtom) : Statement (.atomIncw o) := by
  refine of_read rfl ?_
  have h := congrArg (fun x => (Except.ok (Instr.atomIncw x) : Except DecodeError Instr)) (FormAtom.unpack_pack (0x33 : BitVec 6) (0xc : BitVec 5) o)
  refine Eq.trans ?_ h
  simp only [readWord, FormAtom.major_pack, FormAtom.fn_3_5_pack]
  rfl

theorem atomDecw (o : FormAtom) : Statement (.atomDecw o) := by
  refine of_read rfl ?_
  have h := congrArg (fun x => (Except.ok (Instr.atomDecw x) : Except DecodeError Instr)) (FormAtom.unpack_pack (0x33 : BitVec 6) (0xd : BitVec 5) o)
  refine Eq.trans ?_ h
  simp only [readWord, FormAtom.major_pack, FormAtom.fn_3_5_pack]
  rfl

theorem atomAddB64 (o : FormAtom) : Statement (.atomAddB64 o) := by
  refine of_read rfl ?_
  have h := congrArg (fun x => (Except.ok (Instr.atomAddB64 x) : Except DecodeError Instr)) (FormAtom.unpack_pack (0x33 : BitVec 6) (0xe : BitVec 5) o)
  refine Eq.trans ?_ h
  simp only [readWord, FormAtom.major_pack, FormAtom.fn_3_5_pack]
  rfl

theorem atomCasB64 (o : FormAtomRet) : Statement (.atomCasB64 o) := by
  refine of_read rfl ?_
  have h := congrArg (fun x => (Except.ok (Instr.atomCasB64 x) : Except DecodeError Instr)) (FormAtomRet.unpack_pack (0x33 : BitVec 6) (0xf : BitVec 5) o)
  refine Eq.trans ?_ h
  simp only [readWord, FormAtomRet.major_pack, FormAtomRet.fn_3_5_pack]
  change (if BitVec.getLsbD _ 8 then _ else _) = _
  rw [FormAtomRet.bit8_pack]
  rfl

theorem atomCaddF32 (o : FormAtom) : Statement (.atomCaddF32 o) := by
  refine of_read rfl ?_
  have h := congrArg (fun x => (Except.ok (Instr.atomCaddF32 x) : Except DecodeError Instr)) (FormAtom.unpack_pack (0x33 : BitVec 6) (0x10 : BitVec 5) o)
  refine Eq.trans ?_ h
  simp only [readWord, FormAtom.major_pack, FormAtom.fn_3_5_pack]
  rfl

theorem atomCaddBf16x2 (o : FormAtom) : Statement (.atomCaddBf16x2 o) := by
  refine of_read rfl ?_
  have h := congrArg (fun x => (Except.ok (Instr.atomCaddBf16x2 x) : Except DecodeError Instr)) (FormAtom.unpack_pack (0x33 : BitVec 6) (0x11 : BitVec 5) o)
  refine Eq.trans ?_ h
  simp only [readWord, FormAtom.major_pack, FormAtom.fn_3_5_pack]
  rfl

theorem atomCdecl (o : FormAtomRet) : Statement (.atomCdecl o) := by
  refine of_read rfl ?_
  have h := congrArg (fun x => (Except.ok (Instr.atomCdecl x) : Except DecodeError Instr)) (FormAtomRet.unpack_pack (0x33 : BitVec 6) (0x12 : BitVec 5) o)
  refine Eq.trans ?_ h
  simp only [readWord, FormAtomRet.major_pack, FormAtomRet.fn_3_5_pack]
  change (if BitVec.getLsbD _ 8 then _ else _) = _
  rw [FormAtomRet.bit8_pack]
  rfl

theorem bra (o : FormTB) : Statement (.bra o) := by
  refine of_read rfl ?_
  have h := congrArg (fun x => (Except.ok (Instr.bra x) : Except DecodeError Instr)) (FormTB.unpack_pack (0x34 : BitVec 6) (0x0 : BitVec 1) o)
  refine Eq.trans ?_ h
  simp only [readWord, FormTB.major_pack, FormTB.bit23_pack]
  rfl

theorem call (o : FormTB) : Statement (.call o) := by
  refine of_read rfl ?_
  have h := congrArg (fun x => (Except.ok (Instr.call x) : Except DecodeError Instr)) (FormTB.unpack_pack (0x34 : BitVec 6) (0x1 : BitVec 1) o)
  refine Eq.trans ?_ h
  simp only [readWord, FormTB.major_pack, FormTB.bit23_pack]
  rfl

theorem jmpi (o : FormJump) : Statement (.jmpi o) := by
  refine of_read rfl ?_
  have h := congrArg (fun x => (Except.ok (Instr.jmpi x) : Except DecodeError Instr)) (FormJump.unpack_pack (0x35 : BitVec 6) (0x0 : BitVec 8) o)
  refine Eq.trans ?_ h
  simp only [readWord, FormJump.major_pack, FormJump.fn8_pack]
  change (if FormJump.fixedOk _ then _ else _) = _
  rw [FormJump.fixed_pack]
  rfl

theorem calli (o : FormJump) : Statement (.calli o) := by
  refine of_read rfl ?_
  have h := congrArg (fun x => (Except.ok (Instr.calli x) : Except DecodeError Instr)) (FormJump.unpack_pack (0x35 : BitVec 6) (0x1 : BitVec 8) o)
  refine Eq.trans ?_ h
  simp only [readWord, FormJump.major_pack, FormJump.fn8_pack]
  change (if FormJump.fixedOk _ then _ else _) = _
  rw [FormJump.fixed_pack]
  rfl

theorem ret (o : FormJump) : Statement (.ret o) := by
  refine of_read rfl ?_
  have h := congrArg (fun x => (Except.ok (Instr.ret x) : Except DecodeError Instr)) (FormJump.unpack_pack (0x35 : BitVec 6) (0x2 : BitVec 8) o)
  refine Eq.trans ?_ h
  simp only [readWord, FormJump.major_pack, FormJump.fn8_pack]
  change (if FormJump.fixedOk _ then _ else _) = _
  rw [FormJump.fixed_pack]
  rfl

theorem rjoin (o : FormS) : Statement (.rjoin o) := by
  refine of_read rfl ?_
  have h := congrArg (fun x => (Except.ok (Instr.rjoin x) : Except DecodeError Instr)) (FormS.unpack_pack (0x35 : BitVec 6) (0x3 : BitVec 8) o)
  refine Eq.trans ?_ h
  simp only [readWord, FormS.major_pack, FormS.fn8_pack]
  change (if FormS.fixedOk _ then _ else _) = _
  rw [FormS.fixed_pack]
  rfl

theorem jmpk (o : FormA) : Statement (.jmpk o) := by
  refine of_read rfl ?_
  have h := congrArg (fun x => (Except.ok (Instr.jmpk x) : Except DecodeError Instr)) (FormA.unpack_pack (0x35 : BitVec 6) (0x4 : BitVec 8) o)
  refine Eq.trans ?_ h
  simp only [readWord, FormA.major_pack, FormA.fn8_pack]
  change (if FormA.fixedOk _ then _ else _) = _
  rw [FormA.fixed_pack]
  rfl

theorem exit (o : FormG) : Statement (.exit o) := by
  refine of_read rfl ?_
  have h := congrArg (fun x => (Except.ok (Instr.exit x) : Except DecodeError Instr)) (FormG.unpack_pack (0x35 : BitVec 6) (0x5 : BitVec 8) o)
  refine Eq.trans ?_ h
  simp only [readWord, FormG.major_pack, FormG.fn8_pack]
  change (if FormG.fixedOk _ then _ else _) = _
  rw [FormG.fixed_pack]
  rfl

theorem nop (o : FormG) : Statement (.nop o) := by
  refine of_read rfl ?_
  have h := congrArg (fun x => (Except.ok (Instr.nop x) : Except DecodeError Instr)) (FormG.unpack_pack (0x36 : BitVec 6) (0x0 : BitVec 8) o)
  refine Eq.trans ?_ h
  simp only [readWord, FormG.major_pack, FormG.fn8_pack]
  change (if FormG.fixedOk _ then _ else _) = _
  rw [FormG.fixed_pack]
  rfl

theorem sread (o : FormTF) : Statement (.sread o) := by
  refine of_read rfl ?_
  have h := congrArg (fun x => (Except.ok (Instr.sread x) : Except DecodeError Instr)) (FormTF.unpack_pack (0x36 : BitVec 6) (0x1 : BitVec 8) o)
  refine Eq.trans ?_ h
  simp only [readWord, FormTF.major_pack, FormTF.fn8_pack]
  rfl

theorem swrite (o : FormTF) : Statement (.swrite o) := by
  refine of_read rfl ?_
  have h := congrArg (fun x => (Except.ok (Instr.swrite x) : Except DecodeError Instr)) (FormTF.unpack_pack (0x36 : BitVec 6) (0x2 : BitVec 8) o)
  refine Eq.trans ?_ h
  simp only [readWord, FormTF.major_pack, FormTF.fn8_pack]
  rfl

theorem qread (o : FormQ) : Statement (.qread o) := by
  refine of_read rfl ?_
  have h := congrArg (fun x => (Except.ok (Instr.qread x) : Except DecodeError Instr)) (FormQ.unpack_pack (0x36 : BitVec 6) (0x3 : BitVec 8) o)
  refine Eq.trans ?_ h
  simp only [readWord, FormQ.major_pack, FormQ.fn8_pack]
  change (if FormQ.fixedOk _ then _ else _) = _
  rw [FormQ.fixed_pack]
  rfl

theorem qsub (o : FormQ) : Statement (.qsub o) := by
  refine of_read rfl ?_
  have h := congrArg (fun x => (Except.ok (Instr.qsub x) : Except DecodeError Instr)) (FormQ.unpack_pack (0x36 : BitVec 6) (0x4 : BitVec 8) o)
  refine Eq.trans ?_ h
  simp only [readWord, FormQ.major_pack, FormQ.fn8_pack]
  change (if FormQ.fixedOk _ then _ else _) = _
  rw [FormQ.fixed_pack]
  rfl

theorem stq (o : FormStq) : Statement (.stq o) := by
  refine of_read rfl ?_
  have h := congrArg (fun x => (Except.ok (Instr.stq x) : Except DecodeError Instr)) (FormStq.unpack_pack (0x36 : BitVec 6) (0x5 : BitVec 8) o)
  refine Eq.trans ?_ h
  simp only [readWord, FormStq.major_pack, FormStq.fn8_pack]
  change (if FormStq.fixedOk _ then _ else _) = _
  rw [FormStq.fixed_pack]
  rfl

theorem strap (o : FormTF) : Statement (.strap o) := by
  refine of_read rfl ?_
  have h := congrArg (fun x => (Except.ok (Instr.strap x) : Except DecodeError Instr)) (FormTF.unpack_pack (0x36 : BitVec 6) (0x6 : BitVec 8) o)
  refine Eq.trans ?_ h
  simp only [readWord, FormTF.major_pack, FormTF.fn8_pack]
  rfl

theorem brk (o : FormA) : Statement (.brk o) := by
  refine of_read rfl ?_
  have h := congrArg (fun x => (Except.ok (Instr.brk x) : Except DecodeError Instr)) (FormA.unpack_pack (0x36 : BitVec 6) (0x7 : BitVec 8) o)
  refine Eq.trans ?_ h
  simp only [readWord, FormA.major_pack, FormA.fn8_pack]
  change (if FormA.fixedOk _ then _ else _) = _
  rw [FormA.fixed_pack]
  rfl

theorem grow (o : FormD) : Statement (.grow o) := by
  refine of_read rfl ?_
  have h := congrArg (fun x => (Except.ok (Instr.grow x) : Except DecodeError Instr)) (FormD.unpack_pack (0x36 : BitVec 6) (0x8 : BitVec 8) o)
  refine Eq.trans ?_ h
  simp only [readWord, FormD.major_pack, FormD.fn8_pack]
  change (if FormD.fixedOk _ then _ else _) = _
  rw [FormD.fixed_pack]
  rfl

theorem shrink (o : FormD) : Statement (.shrink o) := by
  refine of_read rfl ?_
  have h := congrArg (fun x => (Except.ok (Instr.shrink x) : Except DecodeError Instr)) (FormD.unpack_pack (0x36 : BitVec 6) (0x9 : BitVec 8) o)
  refine Eq.trans ?_ h
  simp only [readWord, FormD.major_pack, FormD.fn8_pack]
  change (if FormD.fixedOk _ then _ else _) = _
  rw [FormD.fixed_pack]
  rfl

theorem yield (o : FormG) : Statement (.yield o) := by
  refine of_read rfl ?_
  have h := congrArg (fun x => (Except.ok (Instr.yield x) : Except DecodeError Instr)) (FormG.unpack_pack (0x36 : BitVec 6) (0xa : BitVec 8) o)
  refine Eq.trans ?_ h
  simp only [readWord, FormG.major_pack, FormG.fn8_pack]
  change (if FormG.fixedOk _ then _ else _) = _
  rw [FormG.fixed_pack]
  rfl

theorem spawn (o : FormTF) : Statement (.spawn o) := by
  refine of_read rfl ?_
  have h := congrArg (fun x => (Except.ok (Instr.spawn x) : Except DecodeError Instr)) (FormTF.unpack_pack (0x36 : BitVec 6) (0xb : BitVec 8) o)
  refine Eq.trans ?_ h
  simp only [readWord, FormTF.major_pack, FormTF.fn8_pack]
  rfl

theorem deviceLaunch (o : FormTF) : Statement (.deviceLaunch o) := by
  refine of_read rfl ?_
  have h := congrArg (fun x => (Except.ok (Instr.deviceLaunch x) : Except DecodeError Instr)) (FormTF.unpack_pack (0x36 : BitVec 6) (0xc : BitVec 8) o)
  refine Eq.trans ?_ h
  simp only [readWord, FormTF.major_pack, FormTF.fn8_pack]
  rfl

theorem launchw (o : FormTF) : Statement (.launchw o) := by
  refine of_read rfl ?_
  have h := congrArg (fun x => (Except.ok (Instr.launchw x) : Except DecodeError Instr)) (FormTF.unpack_pack (0x36 : BitVec 6) (0xd : BitVec 8) o)
  refine Eq.trans ?_ h
  simp only [readWord, FormTF.major_pack, FormTF.fn8_pack]
  rfl

theorem admode (o : FormD) : Statement (.admode o) := by
  refine of_read rfl ?_
  have h := congrArg (fun x => (Except.ok (Instr.admode x) : Except DecodeError Instr)) (FormD.unpack_pack (0x36 : BitVec 6) (0xe : BitVec 8) o)
  refine Eq.trans ?_ h
  simp only [readWord, FormD.major_pack, FormD.fn8_pack]
  change (if FormD.fixedOk _ then _ else _) = _
  rw [FormD.fixed_pack]
  rfl

theorem cpost (o : FormA) : Statement (.cpost o) := by
  refine of_read rfl ?_
  have h := congrArg (fun x => (Except.ok (Instr.cpost x) : Except DecodeError Instr)) (FormA.unpack_pack (0x36 : BitVec 6) (0xf : BitVec 8) o)
  refine Eq.trans ?_ h
  simp only [readWord, FormA.major_pack, FormA.fn8_pack]
  change (if FormA.fixedOk _ then _ else _) = _
  rw [FormA.fixed_pack]
  rfl

theorem fence (o : FormFence) : Statement (.fence o) := by
  refine of_read rfl ?_
  have h := congrArg (fun x => (Except.ok (Instr.fence x) : Except DecodeError Instr)) (FormFence.unpack_pack (0x37 : BitVec 6) (0x0 : BitVec 8) o)
  refine Eq.trans ?_ h
  simp only [readWord, FormFence.major_pack, FormFence.fn8_pack]
  change (if FormFence.fixedOk _ then _ else _) = _
  rw [FormFence.fixed_pack]
  rfl

theorem binit (o : FormTF) : Statement (.binit o) := by
  refine of_read rfl ?_
  have h := congrArg (fun x => (Except.ok (Instr.binit x) : Except DecodeError Instr)) (FormTF.unpack_pack (0x37 : BitVec 6) (0x1 : BitVec 8) o)
  refine Eq.trans ?_ h
  simp only [readWord, FormTF.major_pack, FormTF.fn8_pack]
  rfl

theorem bexpect (o : FormTF) : Statement (.bexpect o) := by
  refine of_read rfl ?_
  have h := congrArg (fun x => (Except.ok (Instr.bexpect x) : Except DecodeError Instr)) (FormTF.unpack_pack (0x37 : BitVec 6) (0x2 : BitVec 8) o)
  refine Eq.trans ?_ h
  simp only [readWord, FormTF.major_pack, FormTF.fn8_pack]
  rfl

theorem barrive (o : FormTF) : Statement (.barrive o) := by
  refine of_read rfl ?_
  have h := congrArg (fun x => (Except.ok (Instr.barrive x) : Except DecodeError Instr)) (FormTF.unpack_pack (0x37 : BitVec 6) (0x3 : BitVec 8) o)
  refine Eq.trans ?_ h
  simp only [readWord, FormTF.major_pack, FormTF.fn8_pack]
  rfl

theorem bwait (o : FormTF) : Statement (.bwait o) := by
  refine of_read rfl ?_
  have h := congrArg (fun x => (Except.ok (Instr.bwait x) : Except DecodeError Instr)) (FormTF.unpack_pack (0x37 : BitVec 6) (0x4 : BitVec 8) o)
  refine Eq.trans ?_ h
  simp only [readWord, FormTF.major_pack, FormTF.fn8_pack]
  rfl

theorem btest (o : FormTF) : Statement (.btest o) := by
  refine of_read rfl ?_
  have h := congrArg (fun x => (Except.ok (Instr.btest x) : Except DecodeError Instr)) (FormTF.unpack_pack (0x37 : BitVec 6) (0x5 : BitVec 8) o)
  refine Eq.trans ?_ h
  simp only [readWord, FormTF.major_pack, FormTF.fn8_pack]
  rfl

theorem binval (o : FormA) : Statement (.binval o) := by
  refine of_read rfl ?_
  have h := congrArg (fun x => (Except.ok (Instr.binval x) : Except DecodeError Instr)) (FormA.unpack_pack (0x37 : BitVec 6) (0x6 : BitVec 8) o)
  refine Eq.trans ?_ h
  simp only [readWord, FormA.major_pack, FormA.fn8_pack]
  change (if FormA.fixedOk _ then _ else _) = _
  rw [FormA.fixed_pack]
  rfl

theorem chktest (o : FormTF) : Statement (.chktest o) := by
  refine of_read rfl ?_
  have h := congrArg (fun x => (Except.ok (Instr.chktest x) : Except DecodeError Instr)) (FormTF.unpack_pack (0x37 : BitVec 6) (0x7 : BitVec 8) o)
  refine Eq.trans ?_ h
  simp only [readWord, FormTF.major_pack, FormTF.fn8_pack]
  rfl

theorem chwp (o : FormChwp) : Statement (.chwp o) := by
  refine of_read rfl ?_
  have h := congrArg (fun x => (Except.ok (Instr.chwp x) : Except DecodeError Instr)) (FormChwp.unpack_pack (0x37 : BitVec 6) (0x8 : BitVec 8) o)
  refine Eq.trans ?_ h
  simp only [readWord, FormChwp.major_pack, FormChwp.fn8_pack]
  change (if FormChwp.fixedOk _ then _ else _) = _
  rw [FormChwp.fixed_pack]
  rfl

theorem darrive (o : FormTF) : Statement (.darrive o) := by
  refine of_read rfl ?_
  have h := congrArg (fun x => (Except.ok (Instr.darrive x) : Except DecodeError Instr)) (FormTF.unpack_pack (0x37 : BitVec 6) (0x9 : BitVec 8) o)
  refine Eq.trans ?_ h
  simp only [readWord, FormTF.major_pack, FormTF.fn8_pack]
  rfl

theorem mov (o : FormTF) : Statement (.mov o) := by
  refine of_read rfl ?_
  have h := congrArg (fun x => (Except.ok (Instr.mov x) : Except DecodeError Instr)) (FormTF.unpack_pack (0x38 : BitVec 6) (0x0 : BitVec 8) o)
  refine Eq.trans ?_ h
  simp only [readWord, FormTF.major_pack, FormTF.fn8_pack]
  rfl

theorem not (o : FormTF) : Statement (.not o) := by
  refine of_read rfl ?_
  have h := congrArg (fun x => (Except.ok (Instr.not x) : Except DecodeError Instr)) (FormTF.unpack_pack (0x38 : BitVec 6) (0x1 : BitVec 8) o)
  refine Eq.trans ?_ h
  simp only [readWord, FormTF.major_pack, FormTF.fn8_pack]
  rfl

theorem neg (o : FormTF) : Statement (.neg o) := by
  refine of_read rfl ?_
  have h := congrArg (fun x => (Except.ok (Instr.neg x) : Except DecodeError Instr)) (FormTF.unpack_pack (0x38 : BitVec 6) (0x2 : BitVec 8) o)
  refine Eq.trans ?_ h
  simp only [readWord, FormTF.major_pack, FormTF.fn8_pack]
  rfl

theorem iabs (o : FormTF) : Statement (.iabs o) := by
  refine of_read rfl ?_
  have h := congrArg (fun x => (Except.ok (Instr.iabs x) : Except DecodeError Instr)) (FormTF.unpack_pack (0x38 : BitVec 6) (0x3 : BitVec 8) o)
  refine Eq.trans ?_ h
  simp only [readWord, FormTF.major_pack, FormTF.fn8_pack]
  rfl

theorem popc (o : FormTF) : Statement (.popc o) := by
  refine of_read rfl ?_
  have h := congrArg (fun x => (Except.ok (Instr.popc x) : Except DecodeError Instr)) (FormTF.unpack_pack (0x38 : BitVec 6) (0x4 : BitVec 8) o)
  refine Eq.trans ?_ h
  simp only [readWord, FormTF.major_pack, FormTF.fn8_pack]
  rfl

theorem clz (o : FormTF) : Statement (.clz o) := by
  refine of_read rfl ?_
  have h := congrArg (fun x => (Except.ok (Instr.clz x) : Except DecodeError Instr)) (FormTF.unpack_pack (0x38 : BitVec 6) (0x5 : BitVec 8) o)
  refine Eq.trans ?_ h
  simp only [readWord, FormTF.major_pack, FormTF.fn8_pack]
  rfl

theorem ctz (o : FormTF) : Statement (.ctz o) := by
  refine of_read rfl ?_
  have h := congrArg (fun x => (Except.ok (Instr.ctz x) : Except DecodeError Instr)) (FormTF.unpack_pack (0x38 : BitVec 6) (0x6 : BitVec 8) o)
  refine Eq.trans ?_ h
  simp only [readWord, FormTF.major_pack, FormTF.fn8_pack]
  rfl

theorem brev (o : FormTF) : Statement (.brev o) := by
  refine of_read rfl ?_
  have h := congrArg (fun x => (Except.ok (Instr.brev x) : Except DecodeError Instr)) (FormTF.unpack_pack (0x38 : BitVec 6) (0x7 : BitVec 8) o)
  refine Eq.trans ?_ h
  simp only [readWord, FormTF.major_pack, FormTF.fn8_pack]
  rfl

theorem sext8 (o : FormTF) : Statement (.sext8 o) := by
  refine of_read rfl ?_
  have h := congrArg (fun x => (Except.ok (Instr.sext8 x) : Except DecodeError Instr)) (FormTF.unpack_pack (0x38 : BitVec 6) (0x8 : BitVec 8) o)
  refine Eq.trans ?_ h
  simp only [readWord, FormTF.major_pack, FormTF.fn8_pack]
  rfl

theorem sext16 (o : FormTF) : Statement (.sext16 o) := by
  refine of_read rfl ?_
  have h := congrArg (fun x => (Except.ok (Instr.sext16 x) : Except DecodeError Instr)) (FormTF.unpack_pack (0x38 : BitVec 6) (0x9 : BitVec 8) o)
  refine Eq.trans ?_ h
  simp only [readWord, FormTF.major_pack, FormTF.fn8_pack]
  rfl

theorem zext8 (o : FormTF) : Statement (.zext8 o) := by
  refine of_read rfl ?_
  have h := congrArg (fun x => (Except.ok (Instr.zext8 x) : Except DecodeError Instr)) (FormTF.unpack_pack (0x38 : BitVec 6) (0xa : BitVec 8) o)
  refine Eq.trans ?_ h
  simp only [readWord, FormTF.major_pack, FormTF.fn8_pack]
  rfl

theorem zext16 (o : FormTF) : Statement (.zext16 o) := by
  refine of_read rfl ?_
  have h := congrArg (fun x => (Except.ok (Instr.zext16 x) : Except DecodeError Instr)) (FormTF.unpack_pack (0x38 : BitVec 6) (0xb : BitVec 8) o)
  refine Eq.trans ?_ h
  simp only [readWord, FormTF.major_pack, FormTF.fn8_pack]
  rfl

theorem movk (o : FormTF) : Statement (.movk o) := by
  refine of_read rfl ?_
  have h := congrArg (fun x => (Except.ok (Instr.movk x) : Except DecodeError Instr)) (FormTF.unpack_pack (0x38 : BitVec 6) (0xc : BitVec 8) o)
  refine Eq.trans ?_ h
  simp only [readWord, FormTF.major_pack, FormTF.fn8_pack]
  rfl

theorem p2v (o : FormP2v) : Statement (.p2v o) := by
  refine of_read rfl ?_
  have h := congrArg (fun x => (Except.ok (Instr.p2v x) : Except DecodeError Instr)) (FormP2v.unpack_pack (0x38 : BitVec 6) (0xd : BitVec 8) o)
  refine Eq.trans ?_ h
  simp only [readWord, FormP2v.major_pack, FormP2v.fn8_pack]
  change (if FormP2v.fixedOk _ then _ else _) = _
  rw [FormP2v.fixed_pack]
  rfl

theorem v2p (o : FormV2p) : Statement (.v2p o) := by
  refine of_read rfl ?_
  have h := congrArg (fun x => (Except.ok (Instr.v2p x) : Except DecodeError Instr)) (FormV2p.unpack_pack (0x38 : BitVec 6) (0xe : BitVec 8) o)
  refine Eq.trans ?_ h
  simp only [readWord, FormV2p.major_pack, FormV2p.fn8_pack]
  change (if FormV2p.fixedOk _ then _ else _) = _
  rw [FormV2p.fixed_pack]
  rfl

theorem i2fS (o : FormTF) : Statement (.i2fS o) := by
  refine of_read rfl ?_
  have h := congrArg (fun x => (Except.ok (Instr.i2fS x) : Except DecodeError Instr)) (FormTF.unpack_pack (0x38 : BitVec 6) (0xf : BitVec 8) o)
  refine Eq.trans ?_ h
  simp only [readWord, FormTF.major_pack, FormTF.fn8_pack]
  rfl

theorem i2fZ (o : FormTF) : Statement (.i2fZ o) := by
  refine of_read rfl ?_
  have h := congrArg (fun x => (Except.ok (Instr.i2fZ x) : Except DecodeError Instr)) (FormTF.unpack_pack (0x38 : BitVec 6) (0x10 : BitVec 8) o)
  refine Eq.trans ?_ h
  simp only [readWord, FormTF.major_pack, FormTF.fn8_pack]
  rfl

theorem f2iS (o : FormTF) : Statement (.f2iS o) := by
  refine of_read rfl ?_
  have h := congrArg (fun x => (Except.ok (Instr.f2iS x) : Except DecodeError Instr)) (FormTF.unpack_pack (0x38 : BitVec 6) (0x11 : BitVec 8) o)
  refine Eq.trans ?_ h
  simp only [readWord, FormTF.major_pack, FormTF.fn8_pack]
  rfl

theorem f2iZ (o : FormTF) : Statement (.f2iZ o) := by
  refine of_read rfl ?_
  have h := congrArg (fun x => (Except.ok (Instr.f2iZ x) : Except DecodeError Instr)) (FormTF.unpack_pack (0x38 : BitVec 6) (0x12 : BitVec 8) o)
  refine Eq.trans ?_ h
  simp only [readWord, FormTF.major_pack, FormTF.fn8_pack]
  rfl

theorem fneg (o : FormTF) : Statement (.fneg o) := by
  refine of_read rfl ?_
  have h := congrArg (fun x => (Except.ok (Instr.fneg x) : Except DecodeError Instr)) (FormTF.unpack_pack (0x38 : BitVec 6) (0x13 : BitVec 8) o)
  refine Eq.trans ?_ h
  simp only [readWord, FormTF.major_pack, FormTF.fn8_pack]
  rfl

theorem fabs (o : FormTF) : Statement (.fabs o) := by
  refine of_read rfl ?_
  have h := congrArg (fun x => (Except.ok (Instr.fabs x) : Except DecodeError Instr)) (FormTF.unpack_pack (0x38 : BitVec 6) (0x14 : BitVec 8) o)
  refine Eq.trans ?_ h
  simp only [readWord, FormTF.major_pack, FormTF.fn8_pack]
  rfl

theorem fsat (o : FormTF) : Statement (.fsat o) := by
  refine of_read rfl ?_
  have h := congrArg (fun x => (Except.ok (Instr.fsat x) : Except DecodeError Instr)) (FormTF.unpack_pack (0x38 : BitVec 6) (0x15 : BitVec 8) o)
  refine Eq.trans ?_ h
  simp only [readWord, FormTF.major_pack, FormTF.fn8_pack]
  rfl

theorem frnd (o : FormTF) : Statement (.frnd o) := by
  refine of_read rfl ?_
  have h := congrArg (fun x => (Except.ok (Instr.frnd x) : Except DecodeError Instr)) (FormTF.unpack_pack (0x38 : BitVec 6) (0x16 : BitVec 8) o)
  refine Eq.trans ?_ h
  simp only [readWord, FormTF.major_pack, FormTF.fn8_pack]
  rfl

theorem fclass (o : FormTF) : Statement (.fclass o) := by
  refine of_read rfl ?_
  have h := congrArg (fun x => (Except.ok (Instr.fclass x) : Except DecodeError Instr)) (FormTF.unpack_pack (0x38 : BitVec 6) (0x17 : BitVec 8) o)
  refine Eq.trans ?_ h
  simp only [readWord, FormTF.major_pack, FormTF.fn8_pack]
  rfl

theorem frcp (o : FormTF) : Statement (.frcp o) := by
  refine of_read rfl ?_
  have h := congrArg (fun x => (Except.ok (Instr.frcp x) : Except DecodeError Instr)) (FormTF.unpack_pack (0x38 : BitVec 6) (0x18 : BitVec 8) o)
  refine Eq.trans ?_ h
  simp only [readWord, FormTF.major_pack, FormTF.fn8_pack]
  rfl

theorem frsq (o : FormTF) : Statement (.frsq o) := by
  refine of_read rfl ?_
  have h := congrArg (fun x => (Except.ok (Instr.frsq x) : Except DecodeError Instr)) (FormTF.unpack_pack (0x38 : BitVec 6) (0x19 : BitVec 8) o)
  refine Eq.trans ?_ h
  simp only [readWord, FormTF.major_pack, FormTF.fn8_pack]
  rfl

theorem fsqrt (o : FormTF) : Statement (.fsqrt o) := by
  refine of_read rfl ?_
  have h := congrArg (fun x => (Except.ok (Instr.fsqrt x) : Except DecodeError Instr)) (FormTF.unpack_pack (0x38 : BitVec 6) (0x1a : BitVec 8) o)
  refine Eq.trans ?_ h
  simp only [readWord, FormTF.major_pack, FormTF.fn8_pack]
  rfl

theorem fex2 (o : FormTF) : Statement (.fex2 o) := by
  refine of_read rfl ?_
  have h := congrArg (fun x => (Except.ok (Instr.fex2 x) : Except DecodeError Instr)) (FormTF.unpack_pack (0x38 : BitVec 6) (0x1b : BitVec 8) o)
  refine Eq.trans ?_ h
  simp only [readWord, FormTF.major_pack, FormTF.fn8_pack]
  rfl

theorem flg2 (o : FormTF) : Statement (.flg2 o) := by
  refine of_read rfl ?_
  have h := congrArg (fun x => (Except.ok (Instr.flg2 x) : Except DecodeError Instr)) (FormTF.unpack_pack (0x38 : BitVec 6) (0x1c : BitVec 8) o)
  refine Eq.trans ?_ h
  simp only [readWord, FormTF.major_pack, FormTF.fn8_pack]
  rfl

theorem fsin (o : FormTF) : Statement (.fsin o) := by
  refine of_read rfl ?_
  have h := congrArg (fun x => (Except.ok (Instr.fsin x) : Except DecodeError Instr)) (FormTF.unpack_pack (0x38 : BitVec 6) (0x1d : BitVec 8) o)
  refine Eq.trans ?_ h
  simp only [readWord, FormTF.major_pack, FormTF.fn8_pack]
  rfl

theorem fcos (o : FormTF) : Statement (.fcos o) := by
  refine of_read rfl ?_
  have h := congrArg (fun x => (Except.ok (Instr.fcos x) : Except DecodeError Instr)) (FormTF.unpack_pack (0x38 : BitVec 6) (0x1e : BitVec 8) o)
  refine Eq.trans ?_ h
  simp only [readWord, FormTF.major_pack, FormTF.fn8_pack]
  rfl

theorem ftanh (o : FormTF) : Statement (.ftanh o) := by
  refine of_read rfl ?_
  have h := congrArg (fun x => (Except.ok (Instr.ftanh x) : Except DecodeError Instr)) (FormTF.unpack_pack (0x38 : BitVec 6) (0x1f : BitVec 8) o)
  refine Eq.trans ?_ h
  simp only [readWord, FormTF.major_pack, FormTF.fn8_pack]
  rfl

theorem fsigm (o : FormTF) : Statement (.fsigm o) := by
  refine of_read rfl ?_
  have h := congrArg (fun x => (Except.ok (Instr.fsigm x) : Except DecodeError Instr)) (FormTF.unpack_pack (0x38 : BitVec 6) (0x20 : BitVec 8) o)
  refine Eq.trans ?_ h
  simp only [readWord, FormTF.major_pack, FormTF.fn8_pack]
  rfl

theorem f2bf (o : FormTF) : Statement (.f2bf o) := by
  refine of_read rfl ?_
  have h := congrArg (fun x => (Except.ok (Instr.f2bf x) : Except DecodeError Instr)) (FormTF.unpack_pack (0x38 : BitVec 6) (0x21 : BitVec 8) o)
  refine Eq.trans ?_ h
  simp only [readWord, FormTF.major_pack, FormTF.fn8_pack]
  rfl

theorem bf2f (o : FormTF) : Statement (.bf2f o) := by
  refine of_read rfl ?_
  have h := congrArg (fun x => (Except.ok (Instr.bf2f x) : Except DecodeError Instr)) (FormTF.unpack_pack (0x38 : BitVec 6) (0x22 : BitVec 8) o)
  refine Eq.trans ?_ h
  simp only [readWord, FormTF.major_pack, FormTF.fn8_pack]
  rfl

theorem bf2fh (o : FormTF) : Statement (.bf2fh o) := by
  refine of_read rfl ?_
  have h := congrArg (fun x => (Except.ok (Instr.bf2fh x) : Except DecodeError Instr)) (FormTF.unpack_pack (0x38 : BitVec 6) (0x23 : BitVec 8) o)
  refine Eq.trans ?_ h
  simp only [readWord, FormTF.major_pack, FormTF.fn8_pack]
  rfl

theorem f2h (o : FormTF) : Statement (.f2h o) := by
  refine of_read rfl ?_
  have h := congrArg (fun x => (Except.ok (Instr.f2h x) : Except DecodeError Instr)) (FormTF.unpack_pack (0x38 : BitVec 6) (0x24 : BitVec 8) o)
  refine Eq.trans ?_ h
  simp only [readWord, FormTF.major_pack, FormTF.fn8_pack]
  rfl

theorem h2f (o : FormTF) : Statement (.h2f o) := by
  refine of_read rfl ?_
  have h := congrArg (fun x => (Except.ok (Instr.h2f x) : Except DecodeError Instr)) (FormTF.unpack_pack (0x38 : BitVec 6) (0x25 : BitVec 8) o)
  refine Eq.trans ?_ h
  simp only [readWord, FormTF.major_pack, FormTF.fn8_pack]
  rfl

theorem pkbf2 (o : FormTF) : Statement (.pkbf2 o) := by
  refine of_read rfl ?_
  have h := congrArg (fun x => (Except.ok (Instr.pkbf2 x) : Except DecodeError Instr)) (FormTF.unpack_pack (0x38 : BitVec 6) (0x26 : BitVec 8) o)
  refine Eq.trans ?_ h
  simp only [readWord, FormTF.major_pack, FormTF.fn8_pack]
  rfl

theorem unpbf2 (o : FormTF) : Statement (.unpbf2 o) := by
  refine of_read rfl ?_
  have h := congrArg (fun x => (Except.ok (Instr.unpbf2 x) : Except DecodeError Instr)) (FormTF.unpack_pack (0x38 : BitVec 6) (0x27 : BitVec 8) o)
  refine Eq.trans ?_ h
  simp only [readWord, FormTF.major_pack, FormTF.fn8_pack]
  rfl

theorem txbenc8 (o : FormTF) : Statement (.txbenc8 o) := by
  refine of_read rfl ?_
  have h := congrArg (fun x => (Except.ok (Instr.txbenc8 x) : Except DecodeError Instr)) (FormTF.unpack_pack (0x38 : BitVec 6) (0x28 : BitVec 8) o)
  refine Eq.trans ?_ h
  simp only [readWord, FormTF.major_pack, FormTF.fn8_pack]
  rfl

theorem txbdec8 (o : FormTF) : Statement (.txbdec8 o) := by
  refine of_read rfl ?_
  have h := congrArg (fun x => (Except.ok (Instr.txbdec8 x) : Except DecodeError Instr)) (FormTF.unpack_pack (0x38 : BitVec 6) (0x29 : BitVec 8) o)
  refine Eq.trans ?_ h
  simp only [readWord, FormTF.major_pack, FormTF.fn8_pack]
  rfl

theorem txbenc4 (o : FormTF) : Statement (.txbenc4 o) := by
  refine of_read rfl ?_
  have h := congrArg (fun x => (Except.ok (Instr.txbenc4 x) : Except DecodeError Instr)) (FormTF.unpack_pack (0x38 : BitVec 6) (0x2a : BitVec 8) o)
  refine Eq.trans ?_ h
  simp only [readWord, FormTF.major_pack, FormTF.fn8_pack]
  rfl

theorem txbdec4 (o : FormTF) : Statement (.txbdec4 o) := by
  refine of_read rfl ?_
  have h := congrArg (fun x => (Except.ok (Instr.txbdec4 x) : Except DecodeError Instr)) (FormTF.unpack_pack (0x38 : BitVec 6) (0x2b : BitVec 8) o)
  refine Eq.trans ?_ h
  simp only [readWord, FormTF.major_pack, FormTF.fn8_pack]
  rfl

theorem f2i8s (o : FormTF) : Statement (.f2i8s o) := by
  refine of_read rfl ?_
  have h := congrArg (fun x => (Except.ok (Instr.f2i8s x) : Except DecodeError Instr)) (FormTF.unpack_pack (0x38 : BitVec 6) (0x2c : BitVec 8) o)
  refine Eq.trans ?_ h
  simp only [readWord, FormTF.major_pack, FormTF.fn8_pack]
  rfl

theorem pred (o : FormPred) : Statement (.pred o) := by
  refine of_read rfl ?_
  have h := congrArg (fun x => (Except.ok (Instr.pred x) : Except DecodeError Instr)) (FormPred.unpack_pack (0x39 : BitVec 6) o)
  refine Eq.trans ?_ h
  simp only [readWord, FormPred.major_pack]
  rfl

theorem qxh (o : FormTF) : Statement (.qxh o) := by
  refine of_read rfl ?_
  have h := congrArg (fun x => (Except.ok (Instr.qxh x) : Except DecodeError Instr)) (FormTF.unpack_pack (0x3a : BitVec 6) (0x0 : BitVec 8) o)
  refine Eq.trans ?_ h
  simp only [readWord, FormTF.major_pack, FormTF.fn8_pack]
  rfl

theorem qxv (o : FormTF) : Statement (.qxv o) := by
  refine of_read rfl ?_
  have h := congrArg (fun x => (Except.ok (Instr.qxv x) : Except DecodeError Instr)) (FormTF.unpack_pack (0x3a : BitVec 6) (0x1 : BitVec 8) o)
  refine Eq.trans ?_ h
  simp only [readWord, FormTF.major_pack, FormTF.fn8_pack]
  rfl

theorem qxd (o : FormTF) : Statement (.qxd o) := by
  refine of_read rfl ?_
  have h := congrArg (fun x => (Except.ok (Instr.qxd x) : Except DecodeError Instr)) (FormTF.unpack_pack (0x3a : BitVec 6) (0x2 : BitVec 8) o)
  refine Eq.trans ?_ h
  simp only [readWord, FormTF.major_pack, FormTF.fn8_pack]
  rfl

theorem qbc0 (o : FormTF) : Statement (.qbc0 o) := by
  refine of_read rfl ?_
  have h := congrArg (fun x => (Except.ok (Instr.qbc0 x) : Except DecodeError Instr)) (FormTF.unpack_pack (0x3a : BitVec 6) (0x3 : BitVec 8) o)
  refine Eq.trans ?_ h
  simp only [readWord, FormTF.major_pack, FormTF.fn8_pack]
  rfl

theorem qbc1 (o : FormTF) : Statement (.qbc1 o) := by
  refine of_read rfl ?_
  have h := congrArg (fun x => (Except.ok (Instr.qbc1 x) : Except DecodeError Instr)) (FormTF.unpack_pack (0x3a : BitVec 6) (0x4 : BitVec 8) o)
  refine Eq.trans ?_ h
  simp only [readWord, FormTF.major_pack, FormTF.fn8_pack]
  rfl

theorem qbc2 (o : FormTF) : Statement (.qbc2 o) := by
  refine of_read rfl ?_
  have h := congrArg (fun x => (Except.ok (Instr.qbc2 x) : Except DecodeError Instr)) (FormTF.unpack_pack (0x3a : BitVec 6) (0x5 : BitVec 8) o)
  refine Eq.trans ?_ h
  simp only [readWord, FormTF.major_pack, FormTF.fn8_pack]
  rfl

theorem qbc3 (o : FormTF) : Statement (.qbc3 o) := by
  refine of_read rfl ?_
  have h := congrArg (fun x => (Except.ok (Instr.qbc3 x) : Except DecodeError Instr)) (FormTF.unpack_pack (0x3a : BitVec 6) (0x6 : BitVec 8) o)
  refine Eq.trans ?_ h
  simp only [readWord, FormTF.major_pack, FormTF.fn8_pack]
  rfl

theorem gshf (o : FormTF) : Statement (.gshf o) := by
  refine of_read rfl ?_
  have h := congrArg (fun x => (Except.ok (Instr.gshf x) : Except DecodeError Instr)) (FormTF.unpack_pack (0x3a : BitVec 6) (0x7 : BitVec 8) o)
  refine Eq.trans ?_ h
  simp only [readWord, FormTF.major_pack, FormTF.fn8_pack]
  rfl

theorem gbal (o : FormTF) : Statement (.gbal o) := by
  refine of_read rfl ?_
  have h := congrArg (fun x => (Except.ok (Instr.gbal x) : Except DecodeError Instr)) (FormTF.unpack_pack (0x3a : BitVec 6) (0x8 : BitVec 8) o)
  refine Eq.trans ?_ h
  simp only [readWord, FormTF.major_pack, FormTF.fn8_pack]
  rfl

theorem gradd (o : FormTF) : Statement (.gradd o) := by
  refine of_read rfl ?_
  have h := congrArg (fun x => (Except.ok (Instr.gradd x) : Except DecodeError Instr)) (FormTF.unpack_pack (0x3a : BitVec 6) (0x9 : BitVec 8) o)
  refine Eq.trans ?_ h
  simp only [readWord, FormTF.major_pack, FormTF.fn8_pack]
  rfl

theorem grfadd (o : FormTF) : Statement (.grfadd o) := by
  refine of_read rfl ?_
  have h := congrArg (fun x => (Except.ok (Instr.grfadd x) : Except DecodeError Instr)) (FormTF.unpack_pack (0x3a : BitVec 6) (0xa : BitVec 8) o)
  refine Eq.trans ?_ h
  simp only [readWord, FormTF.major_pack, FormTF.fn8_pack]
  rfl

theorem grmin (o : FormTF) : Statement (.grmin o) := by
  refine of_read rfl ?_
  have h := congrArg (fun x => (Except.ok (Instr.grmin x) : Except DecodeError Instr)) (FormTF.unpack_pack (0x3a : BitVec 6) (0xb : BitVec 8) o)
  refine Eq.trans ?_ h
  simp only [readWord, FormTF.major_pack, FormTF.fn8_pack]
  rfl

theorem grmax (o : FormTF) : Statement (.grmax o) := by
  refine of_read rfl ?_
  have h := congrArg (fun x => (Except.ok (Instr.grmax x) : Except DecodeError Instr)) (FormTF.unpack_pack (0x3a : BitVec 6) (0xc : BitVec 8) o)
  refine Eq.trans ?_ h
  simp only [readWord, FormTF.major_pack, FormTF.fn8_pack]
  rfl

theorem gscan (o : FormTF) : Statement (.gscan o) := by
  refine of_read rfl ?_
  have h := congrArg (fun x => (Except.ok (Instr.gscan x) : Except DecodeError Instr)) (FormTF.unpack_pack (0x3a : BitVec 6) (0xd : BitVec 8) o)
  refine Eq.trans ?_ h
  simp only [readWord, FormTF.major_pack, FormTF.fn8_pack]
  rfl

theorem gfirst (o : FormTF) : Statement (.gfirst o) := by
  refine of_read rfl ?_
  have h := congrArg (fun x => (Except.ok (Instr.gfirst x) : Except DecodeError Instr)) (FormTF.unpack_pack (0x3a : BitVec 6) (0xe : BitVec 8) o)
  refine Eq.trans ?_ h
  simp only [readWord, FormTF.major_pack, FormTF.fn8_pack]
  rfl

theorem mma (o : FormMma) : Statement (.mma o) := by
  refine of_read rfl ?_
  have h := congrArg (fun x => (Except.ok (Instr.mma x) : Except DecodeError Instr)) (FormMma.unpack_pack (0x3b : BitVec 6) (0x0 : BitVec 3) o)
  refine Eq.trans ?_ h
  simp only [readWord, FormMma.major_pack]
  change readMatrix _ = _
  simp only [readMatrix, FormMma.fn_8_3_pack]
  rfl

theorem mmaj (o : FormMma) : Statement (.mmaj o) := by
  refine of_read rfl ?_
  have h := congrArg (fun x => (Except.ok (Instr.mmaj x) : Except DecodeError Instr)) (FormMma.unpack_pack (0x3b : BitVec 6) (0x1 : BitVec 3) o)
  refine Eq.trans ?_ h
  simp only [readWord, FormMma.major_pack]
  change readMatrix _ = _
  simp only [readMatrix, FormMma.fn_8_3_pack]
  rfl

theorem mloop (o : FormMloop) : Statement (.mloop o) := by
  refine of_read rfl ?_
  have h := congrArg (fun x => (Except.ok (Instr.mloop x) : Except DecodeError Instr)) (FormMloop.unpack_pack (0x3b : BitVec 6) (0x2 : BitVec 3) o)
  refine Eq.trans ?_ h
  simp only [readWord, FormMloop.major_pack]
  change readMatrix _ = _
  simp only [readMatrix, FormMloop.fn_8_3_pack]
  change (if FormMloop.fixedOk _ then _ else _) = _
  rw [FormMloop.fixed_pack]
  rfl

theorem adrainR (o : FormDrainR) : Statement (.adrainR o) := by
  refine of_read rfl ?_
  have h := congrArg (fun x => (Except.ok (Instr.adrainR x) : Except DecodeError Instr)) (FormDrainR.unpack_pack (0x3b : BitVec 6) (0xc : BitVec 5) o)
  refine Eq.trans ?_ h
  simp only [readWord, FormDrainR.major_pack]
  change readMatrix _ = _
  simp only [readMatrix, FormDrainR.fn_8_3_pack, FormDrainR.fn_6_2_pack]
  rfl

theorem adrainM (o : FormDrain) : Statement (.adrainM o) := by
  refine of_read rfl ?_
  have h := congrArg (fun x => (Except.ok (Instr.adrainM x) : Except DecodeError Instr)) (FormDrain.unpack_pack (0x3b : BitVec 6) (0xd : BitVec 5) o)
  refine Eq.trans ?_ h
  simp only [readWord, FormDrain.major_pack]
  change readMatrix _ = _
  simp only [readMatrix, FormDrain.fn_8_3_pack, FormDrain.fn_6_2_pack]
  change (if FormDrain.fixedOk _ then _ else _) = _
  rw [FormDrain.fixed_pack]
  rfl

theorem adrainU (o : FormDrain) : Statement (.adrainU o) := by
  refine of_read rfl ?_
  have h := congrArg (fun x => (Except.ok (Instr.adrainU x) : Except DecodeError Instr)) (FormDrain.unpack_pack (0x3b : BitVec 6) (0xe : BitVec 5) o)
  refine Eq.trans ?_ h
  simp only [readWord, FormDrain.major_pack]
  change readMatrix _ = _
  simp only [readMatrix, FormDrain.fn_8_3_pack, FormDrain.fn_6_2_pack]
  change (if FormDrain.fixedOk _ then _ else _) = _
  rw [FormDrain.fixed_pack]
  rfl

theorem azero (o : FormDG) : Statement (.azero o) := by
  refine of_read rfl ?_
  have h := congrArg (fun x => (Except.ok (Instr.azero x) : Except DecodeError Instr)) (FormDG.unpack_pack (0x3b : BitVec 6) (0x80 : BitVec 8) o)
  refine Eq.trans ?_ h
  simp only [readWord, FormDG.major_pack]
  change readMatrix _ = _
  simp only [readMatrix, FormDG.fn_8_3_pack, FormDG.fn_3_5_pack]
  change (if FormDG.fixedOk _ then _ else _) = _
  rw [FormDG.fixed_pack]
  rfl

theorem aloadR (o : FormTF) : Statement (.aloadR o) := by
  refine of_read rfl ?_
  have h := congrArg (fun x => (Except.ok (Instr.aloadR x) : Except DecodeError Instr)) (FormTF.unpack_pack (0x3b : BitVec 6) (0xa0 : BitVec 8) o)
  refine Eq.trans ?_ h
  simp only [readWord, FormTF.major_pack]
  change readMatrix _ = _
  simp only [readMatrix, FormTF.fn_8_3_pack, FormTF.fn_3_5_pack]
  rfl

theorem aloadM (o : FormDG) : Statement (.aloadM o) := by
  refine of_read rfl ?_
  have h := congrArg (fun x => (Except.ok (Instr.aloadM x) : Except DecodeError Instr)) (FormDG.unpack_pack (0x3b : BitVec 6) (0xa1 : BitVec 8) o)
  refine Eq.trans ?_ h
  simp only [readWord, FormDG.major_pack]
  change readMatrix _ = _
  simp only [readMatrix, FormDG.fn_8_3_pack, FormDG.fn_3_5_pack]
  change (if FormDG.fixedOk _ then _ else _) = _
  rw [FormDG.fixed_pack]
  rfl

theorem opfence (o : FormG) : Statement (.opfence o) := by
  refine of_read rfl ?_
  have h := congrArg (fun x => (Except.ok (Instr.opfence x) : Except DecodeError Instr)) (FormG.unpack_pack (0x3b : BitVec 6) (0xc0 : BitVec 8) o)
  refine Eq.trans ?_ h
  simp only [readWord, FormG.major_pack]
  change readMatrix _ = _
  simp only [readMatrix, FormG.fn_8_3_pack, FormG.fn_3_5_pack]
  change (if FormG.fixedOk _ then _ else _) = _
  rw [FormG.fixed_pack]
  rfl

theorem copy (o : FormTF) : Statement (.copy o) := by
  refine of_read rfl ?_
  have h := congrArg (fun x => (Except.ok (Instr.copy x) : Except DecodeError Instr)) (FormTF.unpack_pack (0x3c : BitVec 6) (0x0 : BitVec 8) o)
  refine Eq.trans ?_ h
  simp only [readWord, FormTF.major_pack, FormTF.fn8_pack]
  rfl

theorem chopen (o : FormTF) : Statement (.chopen o) := by
  refine of_read rfl ?_
  have h := congrArg (fun x => (Except.ok (Instr.chopen x) : Except DecodeError Instr)) (FormTF.unpack_pack (0x3c : BitVec 6) (0x1 : BitVec 8) o)
  refine Eq.trans ?_ h
  simp only [readWord, FormTF.major_pack, FormTF.fn8_pack]
  rfl

theorem chclose (o : FormChclose) : Statement (.chclose o) := by
  refine of_read rfl ?_
  have h := congrArg (fun x => (Except.ok (Instr.chclose x) : Except DecodeError Instr)) (FormChclose.unpack_pack (0x3c : BitVec 6) (0x2 : BitVec 8) o)
  refine Eq.trans ?_ h
  simp only [readWord, FormChclose.major_pack, FormChclose.fn8_pack]
  change (if FormChclose.fixedOk _ then _ else _) = _
  rw [FormChclose.fixed_pack]
  rfl

theorem snap (o : FormTF) : Statement (.snap o) := by
  refine of_read rfl ?_
  have h := congrArg (fun x => (Except.ok (Instr.snap x) : Except DecodeError Instr)) (FormTF.unpack_pack (0x3c : BitVec 6) (0x3 : BitVec 8) o)
  refine Eq.trans ?_ h
  simp only [readWord, FormTF.major_pack, FormTF.fn8_pack]
  rfl

theorem snapst (o : FormTF) : Statement (.snapst o) := by
  refine of_read rfl ?_
  have h := congrArg (fun x => (Except.ok (Instr.snapst x) : Except DecodeError Instr)) (FormTF.unpack_pack (0x3c : BitVec 6) (0x4 : BitVec 8) o)
  refine Eq.trans ?_ h
  simp only [readWord, FormTF.major_pack, FormTF.fn8_pack]
  rfl

theorem route (o : FormTF) : Statement (.route o) := by
  refine of_read rfl ?_
  have h := congrArg (fun x => (Except.ok (Instr.route x) : Except DecodeError Instr)) (FormTF.unpack_pack (0x3c : BitVec 6) (0x5 : BitVec 8) o)
  refine Eq.trans ?_ h
  simp only [readWord, FormTF.major_pack, FormTF.fn8_pack]
  rfl

theorem combine (o : FormTF) : Statement (.combine o) := by
  refine of_read rfl ?_
  have h := congrArg (fun x => (Except.ok (Instr.combine x) : Except DecodeError Instr)) (FormTF.unpack_pack (0x3c : BitVec 6) (0x6 : BitVec 8) o)
  refine Eq.trans ?_ h
  simp only [readWord, FormTF.major_pack, FormTF.fn8_pack]
  rfl

theorem digest (o : FormTF) : Statement (.digest o) := by
  refine of_read rfl ?_
  have h := congrArg (fun x => (Except.ok (Instr.digest x) : Except DecodeError Instr)) (FormTF.unpack_pack (0x3c : BitVec 6) (0x7 : BitVec 8) o)
  refine Eq.trans ?_ h
  simp only [readWord, FormTF.major_pack, FormTF.fn8_pack]
  rfl

theorem cppop (o : FormDG) : Statement (.cppop o) := by
  refine of_read rfl ?_
  have h := congrArg (fun x => (Except.ok (Instr.cppop x) : Except DecodeError Instr)) (FormDG.unpack_pack (0x3c : BitVec 6) (0x8 : BitVec 8) o)
  refine Eq.trans ?_ h
  simp only [readWord, FormDG.major_pack, FormDG.fn8_pack]
  change (if FormDG.fixedOk _ then _ else _) = _
  rw [FormDG.fixed_pack]
  rfl

theorem gread (o : FormTF) : Statement (.gread o) := by
  refine of_read rfl ?_
  have h := congrArg (fun x => (Except.ok (Instr.gread x) : Except DecodeError Instr)) (FormTF.unpack_pack (0x3c : BitVec 6) (0x9 : BitVec 8) o)
  refine Eq.trans ?_ h
  simp only [readWord, FormTF.major_pack, FormTF.fn8_pack]
  rfl

theorem gwrite (o : FormTF) : Statement (.gwrite o) := by
  refine of_read rfl ?_
  have h := congrArg (fun x => (Except.ok (Instr.gwrite x) : Except DecodeError Instr)) (FormTF.unpack_pack (0x3c : BitVec 6) (0xa : BitVec 8) o)
  refine Eq.trans ?_ h
  simp only [readWord, FormTF.major_pack, FormTF.fn8_pack]
  rfl

theorem gresume (o : FormTF) : Statement (.gresume o) := by
  refine of_read rfl ?_
  have h := congrArg (fun x => (Except.ok (Instr.gresume x) : Except DecodeError Instr)) (FormTF.unpack_pack (0x3c : BitVec 6) (0xb : BitVec 8) o)
  refine Eq.trans ?_ h
  simp only [readWord, FormTF.major_pack, FormTF.fn8_pack]
  rfl

theorem gkill (o : FormTF) : Statement (.gkill o) := by
  refine of_read rfl ?_
  have h := congrArg (fun x => (Except.ok (Instr.gkill x) : Except DecodeError Instr)) (FormTF.unpack_pack (0x3c : BitVec 6) (0xc : BitVec 8) o)
  refine Eq.trans ?_ h
  simp only [readWord, FormTF.major_pack, FormTF.fn8_pack]
  rfl

theorem gpark (o : FormTF) : Statement (.gpark o) := by
  refine of_read rfl ?_
  have h := congrArg (fun x => (Except.ok (Instr.gpark x) : Except DecodeError Instr)) (FormTF.unpack_pack (0x3c : BitVec 6) (0xd : BitVec 8) o)
  refine Eq.trans ?_ h
  simp only [readWord, FormTF.major_pack, FormTF.fn8_pack]
  rfl

theorem svcpost (o : FormTF) : Statement (.svcpost o) := by
  refine of_read rfl ?_
  have h := congrArg (fun x => (Except.ok (Instr.svcpost x) : Except DecodeError Instr)) (FormTF.unpack_pack (0x3c : BitVec 6) (0xe : BitVec 8) o)
  refine Eq.trans ?_ h
  simp only [readWord, FormTF.major_pack, FormTF.fn8_pack]
  rfl

theorem svctake (o : FormTF) : Statement (.svctake o) := by
  refine of_read rfl ?_
  have h := congrArg (fun x => (Except.ok (Instr.svctake x) : Except DecodeError Instr)) (FormTF.unpack_pack (0x3c : BitVec 6) (0xf : BitVec 8) o)
  refine Eq.trans ?_ h
  simp only [readWord, FormTF.major_pack, FormTF.fn8_pack]
  rfl

theorem cpret (o : FormG) : Statement (.cpret o) := by
  refine of_read rfl ?_
  have h := congrArg (fun x => (Except.ok (Instr.cpret x) : Except DecodeError Instr)) (FormG.unpack_pack (0x3c : BitVec 6) (0x10 : BitVec 8) o)
  refine Eq.trans ?_ h
  simp only [readWord, FormG.major_pack, FormG.fn8_pack]
  change (if FormG.fixedOk _ then _ else _) = _
  rw [FormG.fixed_pack]
  rfl

theorem cmdstat (o : FormTF) : Statement (.cmdstat o) := by
  refine of_read rfl ?_
  have h := congrArg (fun x => (Except.ok (Instr.cmdstat x) : Except DecodeError Instr)) (FormTF.unpack_pack (0x3c : BitVec 6) (0x11 : BitVec 8) o)
  refine Eq.trans ?_ h
  simp only [readWord, FormTF.major_pack, FormTF.fn8_pack]
  rfl

theorem cmdcancel (o : FormTF) : Statement (.cmdcancel o) := by
  refine of_read rfl ?_
  have h := congrArg (fun x => (Except.ok (Instr.cmdcancel x) : Except DecodeError Instr)) (FormTF.unpack_pack (0x3c : BitVec 6) (0x12 : BitVec 8) o)
  refine Eq.trans ?_ h
  simp only [readWord, FormTF.major_pack, FormTF.fn8_pack]
  rfl

theorem kmov (o : FormTF) : Statement (.kmov o) := by
  refine of_read rfl ?_
  have h := congrArg (fun x => (Except.ok (Instr.kmov x) : Except DecodeError Instr)) (FormTF.unpack_pack (0x3d : BitVec 6) (0x0 : BitVec 8) o)
  refine Eq.trans ?_ h
  simp only [readWord, FormTF.major_pack, FormTF.fn8_pack]
  rfl

theorem kmovv (o : FormTF) : Statement (.kmovv o) := by
  refine of_read rfl ?_
  have h := congrArg (fun x => (Except.ok (Instr.kmovv x) : Except DecodeError Instr)) (FormTF.unpack_pack (0x3d : BitVec 6) (0x1 : BitVec 8) o)
  refine Eq.trans ?_ h
  simp only [readWord, FormTF.major_pack, FormTF.fn8_pack]
  rfl

theorem kadd (o : FormTF) : Statement (.kadd o) := by
  refine of_read rfl ?_
  have h := congrArg (fun x => (Except.ok (Instr.kadd x) : Except DecodeError Instr)) (FormTF.unpack_pack (0x3d : BitVec 6) (0x2 : BitVec 8) o)
  refine Eq.trans ?_ h
  simp only [readWord, FormTF.major_pack, FormTF.fn8_pack]
  rfl

theorem ksub (o : FormTF) : Statement (.ksub o) := by
  refine of_read rfl ?_
  have h := congrArg (fun x => (Except.ok (Instr.ksub x) : Except DecodeError Instr)) (FormTF.unpack_pack (0x3d : BitVec 6) (0x3 : BitVec 8) o)
  refine Eq.trans ?_ h
  simp only [readWord, FormTF.major_pack, FormTF.fn8_pack]
  rfl

theorem kmul (o : FormTF) : Statement (.kmul o) := by
  refine of_read rfl ?_
  have h := congrArg (fun x => (Except.ok (Instr.kmul x) : Except DecodeError Instr)) (FormTF.unpack_pack (0x3d : BitVec 6) (0x4 : BitVec 8) o)
  refine Eq.trans ?_ h
  simp only [readWord, FormTF.major_pack, FormTF.fn8_pack]
  rfl

theorem kand (o : FormTF) : Statement (.kand o) := by
  refine of_read rfl ?_
  have h := congrArg (fun x => (Except.ok (Instr.kand x) : Except DecodeError Instr)) (FormTF.unpack_pack (0x3d : BitVec 6) (0x5 : BitVec 8) o)
  refine Eq.trans ?_ h
  simp only [readWord, FormTF.major_pack, FormTF.fn8_pack]
  rfl

theorem kor (o : FormTF) : Statement (.kor o) := by
  refine of_read rfl ?_
  have h := congrArg (fun x => (Except.ok (Instr.kor x) : Except DecodeError Instr)) (FormTF.unpack_pack (0x3d : BitVec 6) (0x6 : BitVec 8) o)
  refine Eq.trans ?_ h
  simp only [readWord, FormTF.major_pack, FormTF.fn8_pack]
  rfl

theorem kxor (o : FormTF) : Statement (.kxor o) := by
  refine of_read rfl ?_
  have h := congrArg (fun x => (Except.ok (Instr.kxor x) : Except DecodeError Instr)) (FormTF.unpack_pack (0x3d : BitVec 6) (0x7 : BitVec 8) o)
  refine Eq.trans ?_ h
  simp only [readWord, FormTF.major_pack, FormTF.fn8_pack]
  rfl

theorem kshl (o : FormTF) : Statement (.kshl o) := by
  refine of_read rfl ?_
  have h := congrArg (fun x => (Except.ok (Instr.kshl x) : Except DecodeError Instr)) (FormTF.unpack_pack (0x3d : BitVec 6) (0x8 : BitVec 8) o)
  refine Eq.trans ?_ h
  simp only [readWord, FormTF.major_pack, FormTF.fn8_pack]
  rfl

theorem kshr (o : FormTF) : Statement (.kshr o) := by
  refine of_read rfl ?_
  have h := congrArg (fun x => (Except.ok (Instr.kshr x) : Except DecodeError Instr)) (FormTF.unpack_pack (0x3d : BitVec 6) (0x9 : BitVec 8) o)
  refine Eq.trans ?_ h
  simp only [readWord, FormTF.major_pack, FormTF.fn8_pack]
  rfl

theorem kadd64 (o : FormTF) : Statement (.kadd64 o) := by
  refine of_read rfl ?_
  have h := congrArg (fun x => (Except.ok (Instr.kadd64 x) : Except DecodeError Instr)) (FormTF.unpack_pack (0x3d : BitVec 6) (0xa : BitVec 8) o)
  refine Eq.trans ?_ h
  simp only [readWord, FormTF.major_pack, FormTF.fn8_pack]
  rfl

theorem kld32 (o : FormTF) : Statement (.kld32 o) := by
  refine of_read rfl ?_
  have h := congrArg (fun x => (Except.ok (Instr.kld32 x) : Except DecodeError Instr)) (FormTF.unpack_pack (0x3d : BitVec 6) (0xb : BitVec 8) o)
  refine Eq.trans ?_ h
  simp only [readWord, FormTF.major_pack, FormTF.fn8_pack]
  rfl

theorem kld64 (o : FormTF) : Statement (.kld64 o) := by
  refine of_read rfl ?_
  have h := congrArg (fun x => (Except.ok (Instr.kld64 x) : Except DecodeError Instr)) (FormTF.unpack_pack (0x3d : BitVec 6) (0xc : BitVec 8) o)
  refine Eq.trans ?_ h
  simp only [readWord, FormTF.major_pack, FormTF.fn8_pack]
  rfl

theorem kst32 (o : FormTF) : Statement (.kst32 o) := by
  refine of_read rfl ?_
  have h := congrArg (fun x => (Except.ok (Instr.kst32 x) : Except DecodeError Instr)) (FormTF.unpack_pack (0x3d : BitVec 6) (0xd : BitVec 8) o)
  refine Eq.trans ?_ h
  simp only [readWord, FormTF.major_pack, FormTF.fn8_pack]
  rfl

theorem kbal (o : FormTF) : Statement (.kbal o) := by
  refine of_read rfl ?_
  have h := congrArg (fun x => (Except.ok (Instr.kbal x) : Except DecodeError Instr)) (FormTF.unpack_pack (0x3d : BitVec 6) (0xe : BitVec 8) o)
  refine Eq.trans ?_ h
  simp only [readWord, FormTF.major_pack, FormTF.fn8_pack]
  rfl

theorem guard (o : FormGuard) : Statement (.guard o) := by
  refine of_read rfl ?_
  have h := congrArg (fun x => (Except.ok (Instr.guard x) : Except DecodeError Instr)) (FormGuard.unpack_pack (0x3e : BitVec 6) (0x0 : BitVec 4) o)
  refine Eq.trans ?_ h
  simp only [readWord, FormGuard.major_pack]
  change readHint _ = _
  simp only [readHint, FormGuard.bit31_pack, FormGuard.fn_21_4_pack]
  change (if FormGuard.fixedOk _ then _ else _) = _
  rw [FormGuard.fixed_pack]
  rfl

theorem imm (o : FormImm) : Statement (.imm o) := by
  refine of_read rfl ?_
  have h := congrArg (fun x => (Except.ok (Instr.imm x) : Except DecodeError Instr)) (FormImm.unpack_pack (0x3e : BitVec 6) (0x1 : BitVec 4) o)
  refine Eq.trans ?_ h
  simp only [readWord, FormImm.major_pack]
  change readHint _ = _
  simp only [readHint, FormImm.bit31_pack, FormImm.fn_21_4_pack]
  change (if FormImm.fixedOk _ then _ else _) = _
  rw [FormImm.fixed_pack]
  rfl

theorem mod (o : FormMod) : Statement (.mod o) := by
  refine of_read rfl ?_
  have h := congrArg (fun x => (Except.ok (Instr.mod x) : Except DecodeError Instr)) (FormMod.unpack_pack (0x3e : BitVec 6) (0x2 : BitVec 4) o)
  refine Eq.trans ?_ h
  simp only [readWord, FormMod.major_pack]
  change readHint _ = _
  simp only [readHint, FormMod.bit31_pack, FormMod.fn_21_4_pack]
  change (if FormMod.fixedOk _ then _ else _) = _
  rw [FormMod.fixed_pack]
  rfl

theorem delay (o : FormDelay) : Statement (.delay o) := by
  refine of_read rfl ?_
  have h := congrArg (fun x => (Except.ok (Instr.delay x) : Except DecodeError Instr)) (FormDelay.unpack_pack (0x3e : BitVec 6) (0x3 : BitVec 4) o)
  refine Eq.trans ?_ h
  simp only [readWord, FormDelay.major_pack]
  change readHint _ = _
  simp only [readHint, FormDelay.bit31_pack, FormDelay.fn_21_4_pack]
  change (if FormDelay.fixedOk _ then _ else _) = _
  rw [FormDelay.fixed_pack]
  rfl

theorem powerOn : Statement .powerOn := of_none rfl

theorem resetStepComplete : Statement .resetStepComplete := of_none rfl

theorem inputVoltageFault : Statement .inputVoltageFault := of_none rfl

theorem powerCapWindow : Statement .powerCapWindow := of_none rfl

theorem coolantFault : Statement .coolantFault := of_none rfl

theorem junctionThrottle : Statement .junctionThrottle := of_none rfl

theorem junctionTrip : Statement .junctionTrip := of_none rfl

theorem controlParityError : Statement .controlParityError := of_none rfl

theorem peolUpdate : Statement .peolUpdate := of_none rfl

theorem patrolScrub : Statement .patrolScrub := of_none rfl

theorem timexSend : Statement .timexSend := of_none rfl

theorem timex : Statement .timex := of_none rfl

theorem timeWide : Statement .timeWide := of_none rfl

theorem laneFailure : Statement .laneFailure := of_none rfl

theorem flitTransmit : Statement .flitTransmit := of_none rfl

theorem flitReceive : Statement .flitReceive := of_none rfl

theorem retryRequest : Statement .retryRequest := of_none rfl

theorem flitCounterLimit : Statement .flitCounterLimit := of_none rfl

theorem linkRekey : Statement .linkRekey := of_none rfl

theorem rdreq : Statement .rdreq := of_none rfl

theorem wrreq : Statement .wrreq := of_none rfl

theorem atreq : Statement .atreq := of_none rfl

theorem contrib : Statement .contrib := of_none rfl

theorem rdrsp : Statement .rdrsp := of_none rfl

theorem wrack : Statement .wrack := of_none rfl

theorem atrsp : Statement .atrsp := of_none rfl

theorem errrsp : Statement .errrsp := of_none rfl

theorem nack : Statement .nack := of_none rfl

theorem slotTimeout : Statement .slotTimeout := of_none rfl

theorem tombstoneExpiry : Statement .tombstoneExpiry := of_none rfl

theorem tickRelease : Statement .tickRelease := of_none rfl

theorem tickend : Statement .tickend := of_none rfl

theorem collCount : Statement .collCount := of_none rfl

theorem collDone : Statement .collDone := of_none rfl

theorem markerChannel : Statement .markerChannel := of_none rfl

theorem localdoneMsg : Statement .localdoneMsg := of_none rfl

theorem completeMsg : Statement .completeMsg := of_none rfl

theorem freedMsg : Statement .freedMsg := of_none rfl

theorem reopenMsg : Statement .reopenMsg := of_none rfl

theorem reopenedMsg : Statement .reopenedMsg := of_none rfl

theorem snapRequestMsg : Statement .snapRequestMsg := of_none rfl

theorem grant : Statement .grant := of_none rfl

theorem refuse : Statement .refuse := of_none rfl

theorem abortMsg : Statement .abortMsg := of_none rfl

theorem tombcount : Statement .tombcount := of_none rfl

theorem ldBind : Statement .ldBind := of_none rfl

theorem writeEntry : Statement .writeEntry := of_none rfl

theorem readEntry : Statement .readEntry := of_none rfl

theorem flushKey : Statement .flushKey := of_none rfl

theorem restore : Statement .restore := of_none rfl

theorem fwDeliver : Statement .fwDeliver := of_none rfl

theorem moduleReset : Statement .moduleReset := of_none rfl

theorem spdmGetVersion : Statement .spdmGetVersion := of_none rfl

theorem spdmGetCapabilities : Statement .spdmGetCapabilities := of_none rfl

theorem spdmNegotiateAlgorithms : Statement .spdmNegotiateAlgorithms := of_none rfl

theorem spdmGetDigests : Statement .spdmGetDigests := of_none rfl

theorem spdmGetCertificate : Statement .spdmGetCertificate := of_none rfl

theorem spdmChallenge : Statement .spdmChallenge := of_none rfl

theorem spdmGetMeasurements : Statement .spdmGetMeasurements := of_none rfl

theorem spdmKeyExchange : Statement .spdmKeyExchange := of_none rfl

theorem spdmFinish : Statement .spdmFinish := of_none rfl

theorem spdmEndSession : Statement .spdmEndSession := of_none rfl

theorem partitionEmpty : Statement .partitionEmpty := of_none rfl

theorem partitionScrubDone : Statement .partitionScrubDone := of_none rfl

theorem cxlMemWrite : Statement .cxlMemWrite := of_none rfl

theorem cxlMemWriteComplete : Statement .cxlMemWriteComplete := of_none rfl

theorem cxlMemRead : Statement .cxlMemRead := of_none rfl

theorem registerWrite : Statement .registerWrite := of_none rfl

theorem vfEnable : Statement .vfEnable := of_none rfl

theorem vfPause : Statement .vfPause := of_none rfl

theorem vfStop : Statement .vfStop := of_none rfl

theorem vfKill : Statement .vfKill := of_none rfl

theorem commandDoorbell : Statement .commandDoorbell := of_none rfl

theorem replyDoorbell : Statement .replyDoorbell := of_none rfl

theorem cidxWrite : Statement .cidxWrite := of_none rfl

theorem commandFetch : Statement .commandFetch := of_none rfl

theorem hostLaunch : Statement .hostLaunch := of_none rfl

theorem faultResume : Statement .faultResume := of_none rfl

theorem member : Statement .member := of_none rfl

theorem remap : Statement .remap := of_none rfl

theorem snapReq : Statement .snapReq := of_none rfl

theorem query : Statement .query := of_none rfl

theorem completionWrite : Statement .completionWrite := of_none rfl

theorem faultRecordWrite : Statement .faultRecordWrite := of_none rfl

theorem notificationWrite : Statement .notificationWrite := of_none rfl

theorem serviceRequestWrite : Statement .serviceRequestWrite := of_none rfl

theorem replyTake : Statement .replyTake := of_none rfl

theorem invpage : Statement .invpage := of_none rfl

theorem invall : Statement .invall := of_none rfl

theorem invalidationComplete : Statement .invalidationComplete := of_none rfl

theorem miggo : Statement .miggo := of_none rfl

theorem migdone : Statement .migdone := of_none rfl

theorem migrationSelect : Statement .migrationSelect := of_none rfl

theorem pageWalk : Statement .pageWalk := of_none rfl

theorem launchStoreGrant : Statement .launchStoreGrant := of_none rfl

theorem gangPlace : Statement .gangPlace := of_none rfl

theorem groupRelease : Statement .groupRelease := of_none rfl

theorem launchFinish : Statement .launchFinish := of_none rfl

theorem binTimeout : Statement .binTimeout := of_none rfl

theorem binGroupForm : Statement .binGroupForm := of_none rfl

theorem growGrant : Statement .growGrant := of_none rfl

theorem parkOffCore : Statement .parkOffCore := of_none rfl

theorem parkReturn : Statement .parkReturn := of_none rfl

theorem mgmtPreempt : Statement .mgmtPreempt := of_none rfl

theorem resultArrive : Statement .resultArrive := of_none rfl

theorem checkpointReturn : Statement .checkpointReturn := of_none rfl

theorem trapQueueJoin : Statement .trapQueueJoin := of_none rfl

theorem cpTrapEntry : Statement .cpTrapEntry := of_none rfl

theorem homeAccess : Statement .homeAccess := of_none rfl

theorem fenceComplete : Statement .fenceComplete := of_none rfl

theorem leaseExpiry : Statement .leaseExpiry := of_none rfl

theorem barrierArrival : Statement .barrierArrival := of_none rfl

theorem barrierLanding : Statement .barrierLanding := of_none rfl

theorem barrierExpect : Statement .barrierExpect := of_none rfl

theorem barrierInit : Statement .barrierInit := of_none rfl

theorem barrierInvalidate : Statement .barrierInvalidate := of_none rfl

theorem chunkLand : Statement .chunkLand := of_none rfl

theorem channelChunkLand : Statement .channelChunkLand := of_none rfl

theorem copyFaulted : Statement .copyFaulted := of_none rfl

theorem caddHome : Statement .caddHome := of_none rfl

theorem cdeclHome : Statement .cdeclHome := of_none rfl

theorem recordPoint : Statement .recordPoint := of_none rfl

theorem sweepCapture : Statement .sweepCapture := of_none rfl

theorem stagingFreed : Statement .stagingFreed := of_none rfl

theorem localComplete : Statement .localComplete := of_none rfl

theorem kiteRecordWrite : Statement .kiteRecordWrite := of_none rfl

theorem nvmeCompletion : Statement .nvmeCompletion := of_none rfl

theorem snaptmoExpiry : Statement .snaptmoExpiry := of_none rfl

theorem reopenTimer : Statement .reopenTimer := of_none rfl

theorem routeWritesPerformed : Statement .routeWritesPerformed := of_none rfl

theorem combineDone : Statement .combineDone := of_none rfl

theorem serialPhase : Statement .serialPhase := of_none rfl

theorem abacusApply : Statement .abacusApply := of_none rfl

theorem abacusRetry : Statement .abacusRetry := of_none rfl

theorem mmaResult : Statement .mmaResult := of_none rfl

theorem mmajJoin : Statement .mmajJoin := of_none rfl

theorem mmajComplete : Statement .mmajComplete := of_none rfl

theorem mloopComplete : Statement .mloopComplete := of_none rfl

theorem aloadMData : Statement .aloadMData := of_none rfl

theorem coolantRestored : Statement .coolantRestored := of_none rfl

theorem junctionBelowThrottle : Statement .junctionBelowThrottle := of_none rfl

theorem serviceWindowEnd : Statement .serviceWindowEnd := of_none rfl

theorem digestComplete : Statement .digestComplete := of_none rfl

theorem mloopOperandsRead : Statement .mloopOperandsRead := of_none rfl

theorem keyInstall : Statement .keyInstall := of_none rfl

theorem remapEntryWrite : Statement .remapEntryWrite := of_none rfl

theorem portListWrite : Statement .portListWrite := of_none rfl

theorem timeReferenceNamed : Statement .timeReferenceNamed := of_none rfl

end Sys2Proof.Laws.Encoding
end

