-- ==== Sys2Proof/Laws/Steps.lean ====
section
/-!
SUPPORT. What an outcome can do to the memory: an event writes cells and keeps the canonical form, an instruction word changes only the
rest of the state, and time passing changes neither.
-/
namespace Sys2Proof.Machine

/-- The memory after reset has its canonical form. -/
theorem State.reset_wf : State.reset.wf := rfl

/-- An effect keeps the memory's canonical form. -/
theorem Eff.apply_wf (e : Eff) (s : State) (h : s.wf) : (e.apply s).wf := Memory.wf_writeCells _ _ h

/-- An event's outcome is a next state, which keeps the memory's canonical form. -/
theorem eventNext_wf {f : State → Eff} {s t : State} (h : s.wf) (e : eventNext f s = .next t) : t.wf := by
  cases e
  exact Eff.apply_wf _ _ h

/-- An event leaves the clock, the boots and the fused counter. -/
theorem eventNext_rest {f : State → Eff} {s t : State} (e : eventNext f s = .next t) : { t with mem := s.mem, sys := s.sys } = s := by
  cases e
  rfl

/-- An event always answers a next state. -/
theorem eventNext_next (f : State → Eff) (s : State) : eventNext f s = .next ((f s).apply s) := rfl

/-- An instruction word changes only the rest of the state. -/
theorem wordNext_rest {f : Iss → State → Sys} {s t : State} (e : wordNext f s = .next t) : { t with sys := s.sys } = s := by
  unfold wordNext at e
  split at e
  · cases e
  · cases e
    rfl

/-- Time passing leaves the memory. -/
theorem elapse_mem (s : State) (n : Nat) : (elapse s n).mem = s.mem := by
  unfold elapse
  split <;> rfl

/-- Time does not run back. -/
theorem elapse_time (s : State) (n : Nat) : s.gtime ≤ (elapse s n).gtime := by
  unfold elapse
  split <;> simp

end Sys2Proof.Machine
end

