-- ==== Sys2Proof/Tests/Slice0.lean ====
section
/-!
SUPPORT. The model's own tests: ill-formed terms that the checks refuse, words written out from the maps of chapter 15, one step on a
small state for the instructions and events, and, for every statement with hypotheses, a state and operands that meet them (`witness_...`).
The expected values come from the rules and the worked examples that each comment names.
-/
namespace Sys2Proof.Tests
open Sys2Proof Sys2Proof.Machine

set_option maxRecDepth 100000

/-! ### Small states -/

/-- One group of 32 lanes, handle 3, on core 0, quadrant 0, of launch 1 and block 2, at PC 0; heap window of 1 MiB under key 1. -/
def placed : State := State.reset.withFetchWord 32 0

/-- The group issues, changed as told; the package changed as told. -/
def grp (f : Group → Group) (w : Sys → Sys := id) : State :=
  { placed with sys := w { placed.sys with groups := placed.sys.groups.map f, cur := some (.group 3 0), turns := [] } }

/-- The control processor of core 0 issues, changed as told. -/
def cpu (f : Cp → Cp) (w : Sys → Sys := id) : State :=
  { placed with sys := w ({ placed.sys with cur := some (.cp 0), turns := [] }.modCp 0 (fun c => f { c with running := true })) }

/-- An event is happening in a state. -/
def at_ (e : Event) (s : State) : State := s.atEvent e

/-- Registers v of lanes, k registers and x registers set. -/
def setV (vs : List (Nat × Nat × Word)) (g : Group) : Group :=
  { g with regs := { g.regs with v := vs.foldl (fun t x => sset t (x.1 * 128 + x.2.1) x.2.2) g.regs.v } }
def setK (ks : List (Nat × Word)) (g : Group) : Group := { g with regs := { g.regs with k := ks.foldl (fun t x => sset t x.1 x.2) g.regs.k } }
def setP (ps : List (Nat × Word)) (g : Group) : Group := { g with regs := { g.regs with p := ps.foldl (fun t x => sset t x.1 x.2) g.regs.p } }
def setX (xs : List (Nat × DWord)) (c : Cp) : Cp := { c with x := xs.foldl (fun t x => sset t x.1 x.2) c.x }
def hinted (h : Hints) (g : Group) : Group := { g with frontier := g.frontier.map (fun e => { e with hints := h }) }

/-- The next state, or the same one. -/
def ran (x : Instr) (s : State) : State := match exec x s with | .next t => t | _ => s
/-- The instruction answers a next state, which is another one. -/
def moved (x : Instr) (s : State) : Bool := match exec x s with | .next t => decide (t ≠ s) | _ => false

/-- The group, and what it holds. -/
def g0 (s : State) : Group := (s.sys.group? 3).getD blankGroup
def v (s : State) (l r : Nat) : Word := sget (g0 s).regs.v (l * 128 + r)
def k (s : State) (r : Nat) : Word := sget (g0 s).regs.k r
def p (s : State) (n : Nat) : Word := sget (g0 s).regs.p n
def flags (s : State) (l : Nat) : BitVec 5 := sget (g0 s).regs.fstat l
def pcs (s : State) : List (Word × LaneMask) := (g0 s).frontier.map (fun e => (e.pc, e.mask))
def cp (s : State) : Cp := (s.sys.core 0).cp
def x (s : State) (r : Nat) : DWord := sget (cp s).x r

/-- The cause of the trap in which the first entry stands, and its lanes. -/
def trap (s : State) : Option (Cause × LaneMask) :=
  (g0 s).frontier.findSome? (fun e => match e.st with | .trapped r => some (r.cause, r.lanes) | _ => none)

/-- The issuer passes the checks that come before the addresses. -/
def passes (s : State) (d : Desc) : Bool := match issuer s with | some i => decide (i.check s.sys d = .go) | none => false
/-- Something holds of the issuer. -/
def iss (s : State) (f : Iss → Bool) : Bool := match issuer s with | some i => f i | none => false

/-- A word that no map defines. -/
def undefinedWord (w : Word) : Bool := match decodeWord w with | .ok _ => false | .error _ => true
def reads (w : Word) (i : Instr) : Bool := match decodeWord w with | .ok j => decide (j = i ∧ encodeWord i = some w) | .error _ => false
/-- v1 and v2 of lane 0, and v3. -/
def two (a b : Word) (c : Word := 0) : State := grp (setV [(0, 1, a), (0, 2, b), (0, 3, c)])

/-! ### Terms that are not well formed: one for each check -/

def bad (i : Instr) : Bool := !i.wellFormed
theorem illFormed_fences :
    bad (.fence { s := false, k := 0, c := 7, m := 1, g := 7 }) ∧ bad (.fence { s := false, k := 3, c := 0, m := 1, g := 7 }) ∧
    bad (.fence { s := false, k := 0, c := 0, m := 0, g := 7 }) := by decide
theorem illFormed_system :
    bad (.grow { s := false, d := 0 }) ∧ bad (.grow { s := false, d := 16 }) ∧ bad (.shrink { s := false, d := 0 }) ∧
    bad (.shrink { s := false, d := 16 }) ∧ bad (.admode { s := false, d := 3 }) ∧ bad (.darrive { s := false, d := 3, a := 0, g := 7 }) ∧
    bad (.stq { s := false, d := 0, a := 1, g := 7 }) ∧ bad (.spawn { s := false, d := 0, a := 124, g := 7 }) ∧
    bad (.deviceLaunch { s := false, d := 0, a := 1, g := 7 }) ∧ bad (.launchw { s := false, d := 0, a := 1, g := 7 }) ∧
    bad (.cpost { s := false, a := 1, g := 7 }) ∧ bad (.gbal { s := false, d := 0, a := 64, g := 7 }) ∧
    bad (.kbal { s := false, d := 0, a := 64, g := 7 }) ∧ bad (.snap { s := false, d := 1, a := 0, g := 7 }) := by decide
theorem illFormed_matrix :
    bad (.mma { s := false, d := 32, a := 0, t := 8, g := 7 }) ∧ bad (.mma { s := false, d := 32, a := 4, t := 0, g := 7 }) ∧
    bad (.mma { s := false, d := 16, a := 0, t := 0, g := 7 }) ∧ bad (.mma { s := false, d := 0, a := 0, t := 0, g := 7 }) ∧
    bad (.mmaj { s := false, d := 64, a := 0, t := 6, g := 7 }) ∧ bad (.mmaj { s := false, d := 0, a := 0, t := 0, g := 7 }) ∧
    bad (.mmaj { s := false, d := 32, a := 16, t := 2, g := 7 }) ∧ bad (.mmaj { s := false, d := 32, a := 16, t := 3, g := 7 }) ∧
    bad (.mmaj { s := false, d := 64, a := 4, t := 0, g := 7 }) ∧ bad (.mmaj { s := false, d := 65, a := 0, t := 0, g := 7 }) ∧
    bad (.mloop { s := false, d := 0, t := 8, g := 7 }) ∧ bad (.mloop { s := false, d := 1, t := 6, g := 7 }) ∧
    bad (.adrainR { s := false, d := 0, a := 0, f := 7, g := 7 }) ∧ bad (.adrainR { s := false, d := 0, a := 4, f := 0, g := 7 }) ∧
    bad (.adrainM { s := false, d := 0, f := 7, g := 7 }) ∧ bad (.adrainU { s := false, d := 0, f := 5, g := 7 }) ∧
    bad (.aloadR { s := false, d := 0, a := 16, g := 7 }) := by decide
theorem illFormed_events :
    [Event.junctionTrip 12, .partitionScrubDone 12, .laneFailure 18 true, .flitCounterLimit 18, .ldBind 16 0, .spdmGetVersion 3, .spdmFinish 3,
     .partitionEmpty 12, .sweepCapture 12, .recordPoint 12 true, .vfEnable 256, .commandFetch 256, .cidxWrite 0 5 0, .cidxWrite 0 0 0,
     .faultRecordWrite 256, .invpage 256, .migrationSelect 256, .binTimeout 768 0, .binGroupForm 0 16, .growGrant 0 4, .cpTrapEntry 768,
     .keyInstall (.tenant 0), .keyInstall (.tenant 256), .keyInstall (.ide 2), .remapEntryWrite 0 4096 0, .portListWrite 4096 [] true,
     .portListWrite 0 [18] false, .timeReferenceNamed 256 0, .tombstoneExpiry 0 4096].all (fun e => !e.wellFormed) = true := by decide

/-! ### Words written out from the maps: the printed examples of chapters 5, 10-12 and 14-20 -/

/-- Words in the order of their codes, with D = 3, A = 1 and G = 7 (R301, R306, R335, R343). -/
def inOrder (base : Nat) (is : List (FormTF → Instr)) : Bool :=
  (is.mapIdx (fun j f => reads (BitVec.ofNat 32 (base + 8 * j)) (f { s := false, d := 3, a := 1, g := 7 }))).all id
def tr (f : FormTR → Instr) : Instr := f { s := false, d := 3, a := 1, b := 2, m := false, g := 7 }
def cmp (n : Bool) (f : FormCmp → Instr) : Instr := f { s := false, p := 2, n := n, a := 1, b := 2, m := false, g := 7 }

theorem reads_integer : (([.iadd, .isub, .imul, .imulhs, .imulhz, .imins, .imaxs, .iminz, .imaxz, .and, .or, .xor, .shl, .shr, .sar, .imad,
      .fadd, .fsub, .fmul, .ffma, .fmin, .fmax, .sel, .bmul2, .bfma2] : List (FormTR → Instr)).mapIdx
      (fun j f => reads (BitVec.ofNat 32 (0x000C0827 + 0x02000000 * j)) (tr f))).all id = true := by decide
theorem reads_compares : (([.icmpeq, .icmpne, .icmplt, .icmple, .icmpltz] : List (FormCmp → Instr)).mapIdx
      (fun j f => reads (BitVec.ofNat 32 (0x32100827 + 0x02000000 * j)) (cmp false f))).all id = true ∧
    reads 0x36140827 (cmp true .icmplt) ∧ reads 0x3E100827 (cmp false .fcmpeq) ∧ reads 0x40100827 (cmp false .fcmplt) ∧
    reads 0x42100827 (cmp false .fcmple) ∧ reads 0x44100827 (cmp false .fcmpun) ∧
    reads 0x72282147 (.pred { s := false, d := 5, a := 1, b := 2, t := 8, g := 7 }) := by decide
theorem reads_immediates :
    reads 0x3C101067 (.iadd64 { s := false, d := 4, a := 2, b := 6, m := false, g := 7 }) ∧
    reads 0x460C0FFF (.iaddi { s := false, d := 3, a := 1, i := 0xFF, g := 7 }) ∧
    reads 0x480C087F (.andi { s := false, d := 3, a := 1, i := 0x0F, g := 7 }) ∧
    reads 0x4A0C0C07 (.ori { s := false, d := 3, a := 1, i := 0x80, g := 7 }) ∧
    reads 0x4C0C080F (.xori { s := false, d := 3, a := 1, i := 1, g := 7 }) ∧
    reads 0x4E0C0C27 (.shfi { s := false, d := 3, a := 1, k := 2, n := 4, g := 7 }) ∧
    reads 0x500C03FF (.movi { s := false, d := 3, i := 0x7F, g := 7 }) := by decide
theorem reads_functions : inOrder 0x700C0807 [.mov, .not, .neg, .iabs, .popc, .clz, .ctz, .brev, .sext8, .sext16, .zext8, .zext16, .movk,
      fun o => .p2v { s := o.s, d := o.d, a := 1, g := o.g }, fun o => .v2p { s := o.s, d := 3, a := o.a, g := o.g }, .i2fS, .i2fZ, .f2iS, .f2iZ,
      .fneg, .fabs, .fsat, .frnd, .fclass, .frcp, .frsq, .fsqrt, .fex2, .flg2, .fsin, .fcos, .ftanh, .fsigm, .f2bf, .bf2f, .bf2fh, .f2h, .h2f] =
      true ∧
    reads 0x700C1137 (.pkbf2 { s := false, d := 3, a := 2, g := 7 }) ∧ reads 0x7010093F (.unpbf2 { s := false, d := 4, a := 1, g := 7 }) ∧
    reads 0x700C1147 (.txbenc8 { s := false, d := 3, a := 2, g := 7 }) ∧ reads 0x700C1157 (.txbenc4 { s := false, d := 3, a := 2, g := 7 }) ∧
    reads 0x700C0967 (.f2i8s { s := false, d := 3, a := 1, g := 7 }) := by decide
theorem reads_lanes : inOrder 0x740C0807 [.qxh, .qxv, .qxd, .qbc0, .qbc1, .qbc2, .qbc3, .gshf, .gbal, .gradd, .grfadd, .grmin, .grmax, .gscan,
      .gfirst] = true := by decide
theorem reads_memory : (([.ld8, .ld16, .ld32, .ld64, .ld128, .st8, .st16, .st32, .st64, .st128] : List (FormTM → Instr)).mapIdx
      (fun j f => reads (BitVec.ofNat 32 (0x52101007 + 0x02000000 * j)) (f { s := false, d := 4, a := 2, c := 0, o := 0, g := 7 }))).all id = true ∧
    reads 0xD6101217 (.ld32 { s := true, d := 4, a := 2, c := 1, o := 2, g := 7 }) ∧
    reads 0x582035F7 (.ld64 { s := false, d := 8, a := 6, c := 2, o := 0x3E, g := 7 }) := by decide
theorem reads_atomics :
    reads 0x66101007 (.atomAddB32 { s := false, d := 4, a := 2, c := 0, n := false, g := 7 }) ∧
    reads 0x6610100F (.atomAddF32 { s := false, d := 4, a := 2, c := 0, n := false, g := 7 }) ∧
    reads 0x6610105F (.atomCas { s := false, d := 4, a := 2, c := 0, g := 7 }) ∧
    reads 0x66101067 (.atomIncw { s := false, d := 4, a := 2, c := 0, n := false, g := 7 }) ∧
    reads 0x6610107F (.atomCasB64 { s := false, d := 4, a := 2, c := 0, g := 7 }) ∧
    reads 0x66101097 (.atomCdecl { s := false, d := 4, a := 2, c := 0, g := 7 }) ∧
    reads 0x6610110F (.atomAddF32 { s := false, d := 4, a := 2, c := 0, n := true, g := 7 }) ∧
    reads 0x66101187 (.atomCaddF32 { s := false, d := 4, a := 2, c := 0, n := true, g := 7 }) ∧
    reads 0x66101387 (.atomCaddF32 { s := false, d := 4, a := 2, c := 1, n := true, g := 7 }) := by decide
theorem reads_control :
    reads 0x68000087 (.bra { s := false, u := false, e := 16, g := 7 }) ∧ reads 0x69000087 (.bra { s := false, u := true, e := 16, g := 7 }) ∧
    reads 0x68800087 (.call { s := false, u := false, e := 16, g := 7 }) ∧ reads 0x687FFFF3 (.bra { s := false, u := false, e := 0xFFFFE, g := 3 }) ∧
    reads 0x6A00A007 (.jmpi { s := false, u := false, a := 20, g := 7 }) ∧ reads 0x6A04A007 (.jmpi { s := false, u := true, a := 20, g := 7 }) ∧
    reads 0x6A00A00F (.calli { s := false, u := false, a := 20, g := 7 }) ∧ reads 0x6A03F817 (.ret { s := false, u := false, a := 127, g := 7 }) ∧
    reads 0x6A002027 (.jmpk { s := false, a := 4, g := 7 }) ∧ reads 0x6A00002F (.exit { s := false, g := 7 }) ∧
    reads 0x6A00001F (.rjoin { s := false }) := by decide
theorem reads_sync :
    reads 0x6E300007 (.fence { s := false, m := 1, c := 4, k := 0, g := 7 }) ∧ reads 0x6E541007 (.fence { s := false, m := 2, c := 5, k := 2, g := 7 }) ∧
    reads 0x6EF40807 (.fence { s := false, m := 7, c := 5, k := 1, g := 7 }) ∧
    ([Instr.binit, .bexpect].mapIdx (fun j f => reads (BitVec.ofNat 32 (0x6E14100F + 8 * j)) (f { s := false, d := 5, a := 2, g := 7 }))).all id ∧
    reads 0xEE14101F (.barrive { s := true, d := 5, a := 2, g := 7 }) ∧ reads 0x6E141027 (.bwait { s := false, d := 5, a := 2, g := 7 }) ∧
    reads 0x6E14102F (.btest { s := false, d := 5, a := 2, g := 7 }) ∧ reads 0x6E001037 (.binval { s := false, a := 2, g := 7 }) ∧
    reads 0x6E14103F (.chktest { s := false, d := 5, a := 2, g := 7 }) ∧ reads 0x6E140847 (.chwp { s := false, d := 5, a := 1, g := 7 }) ∧
    reads 0x6E04504F (.darrive { s := false, d := 1, a := 10, g := 7 }) := by decide
theorem reads_system :
    reads 0x6C000007 (.nop { s := false, g := 7 }) ∧ reads 0x6C000057 (.yield { s := false, g := 7 }) ∧
    reads 0x6C14880F (.sread { s := false, d := 5, a := 0x11, g := 7 }) ∧ reads 0x6C088017 (.swrite { s := false, d := 2, a := 0x10, g := 7 }) ∧
    reads 0x6C201837 (.strap { s := false, d := 8, a := 3, g := 7 }) ∧ reads 0x6C00083F (.brk { s := false, a := 1, g := 7 }) ∧
    reads 0x6C00307F (.cpost { s := false, a := 6, g := 7 }) ∧ reads 0x6C080047 (.grow { s := false, d := 2 }) ∧
    reads 0x6C04004F (.shrink { s := false, d := 1 }) ∧ reads 0x6C14405F (.spawn { s := false, d := 5, a := 8, g := 7 }) ∧
    reads 0x6C185067 (.deviceLaunch { s := false, d := 6, a := 10, g := 7 }) ∧ reads 0x6C18506F (.launchw { s := false, d := 6, a := 10, g := 7 }) ∧
    reads 0x6C040077 (.admode { s := false, d := 1 }) ∧ reads 0x6C08081F (.qread { s := false, d := 2, a := 1, g := 7 }) ∧
    reads 0x6C080827 (.qsub { s := false, d := 2, a := 1, g := 7 }) ∧ reads 0x6C08502F (.stq { s := false, d := 2, a := 10, g := 7 }) := by decide
theorem reads_engine : (([.copy, .chopen] : List (FormTF → Instr)).mapIdx
      (fun j f => reads (BitVec.ofNat 32 (0x78104007 + 8 * j)) (f { s := false, d := 4, a := 8, g := 7 }))).all id = true ∧
    reads 0x78000817 (.chclose { s := false, a := 1, g := 7 }) ∧ reads 0x7810401F (.snap { s := false, d := 4, a := 8, g := 7 }) ∧
    reads 0x78101027 (.snapst { s := false, d := 4, a := 2, g := 7 }) ∧
    (([.route, .combine, .digest] : List (FormTF → Instr)).mapIdx
      (fun j f => reads (BitVec.ofNat 32 (0x7810402F + 8 * j)) (f { s := false, d := 4, a := 8, g := 7 }))).all id = true ∧
    reads 0x78100047 (.cppop { s := false, d := 4, g := 7 }) ∧
    (([.gread, .gwrite, .gresume, .gkill, .gpark, .svcpost, .svctake] : List (FormTF → Instr)).mapIdx
      (fun j f => reads (BitVec.ofNat 32 (0x7810404F + 8 * j)) (f { s := false, d := 4, a := 8, g := 7 }))).all id = true ∧
    reads 0x78000087 (.cpret { s := false, g := 7 }) ∧ reads 0x7810408F (.cmdstat { s := false, d := 4, a := 8, g := 7 }) ∧
    reads 0x78104097 (.cmdcancel { s := false, d := 4, a := 8, g := 7 }) := by decide
theorem reads_uniform : inOrder 0x7A0C0807 [.kmov, .kmovv, .kadd, .ksub, .kmul, .kand, .kor, .kxor, .kshl, .kshr, .kadd64, .kld32, .kld64, .kst32,
      .kbal] = true ∧ reads 0xFA10105F (.kld32 { s := true, d := 4, a := 2, g := 7 }) ∧
    reads 0x7A10106F (.kst32 { s := false, d := 4, a := 2, g := 7 }) := by decide
theorem reads_matrix :
    reads 0x76800007 (.mma { s := false, d := 32, a := 0, t := 0, g := 7 }) ∧ reads 0x77000107 (.mmaj { s := false, d := 64, a := 0, t := 0, g := 7 }) ∧
    reads 0x76140217 (.mloop { s := false, d := 5, t := 2, g := 7 }) ∧ reads 0x7614430F (.adrainR { s := false, d := 5, a := 8, f := 1, g := 7 }) ∧
    reads 0x76140347 (.adrainM { s := false, d := 5, f := 0, g := 7 }) ∧ reads 0x7614038F (.adrainU { s := false, d := 5, f := 1, g := 7 }) ∧
    reads 0x76140407 (.azero { s := false, d := 5, g := 7 }) ∧ reads 0x76150507 (.aloadR { s := false, d := 5, a := 32, g := 7 }) ∧
    reads 0x7614050F (.aloadM { s := false, d := 5, g := 7 }) ∧ reads 0x76000607 (.opfence { s := false, g := 7 }) := by decide
theorem reads_hints :
    reads 0x7C00024F (.guard { n := true, p := 9 }) ∧ reads 0x7C20000F (.imm { i := 1 }) ∧
    reads 0x7C40000F (.mod { l := false, q := false, k := false, e := 0, t := false, r := 1 }) ∧ reads 0x7C60002F (.delay { n := 5 }) := by decide
theorem refuses_undefined : [0xFFFFFFFF, 0x7E000007, 0x7C800007, 0x7C000006, 0x6A000037, 0x6C000087, 0x6E000057, 0x7000096F, 0x7400007F, 0x7800009F,
      0x7A00007F, 0x76000707, 0x661010A7, 0x66101157, 0x6A040027, 0x5004080F].all (fun w => undefinedWord (BitVec.ofNat 32 w)) = true := by decide
/-- Words of the opcode table, and the first step after they are placed. -/
theorem table_word : decodeTableWord 32 0x000C0827 = some (tr .iadd) ∧ pcs (ran (tr .iadd) (grp id)) = [(4, 0xFFFFFFFF)] := by decide

/-! ### Integer, predicate, immediate and uniform words (R293 to R306) -/

def o3 : FormTR := { s := false, d := 3, a := 1, b := 2, m := false, g := 7 }
def f3 : FormTF := { s := false, d := 3, a := 1, g := 7 }
/-- A group with a MOD hint that asks for SAT. -/
def sat (s : State) : State :=
  { s with sys := s.sys.modGroup 3 (hinted { mod := some { l := false, q := false, k := false, e := 0, t := true, r := 0 } }) }
def gives (i : FormTR → Instr) (s : State) : Word := v (ran (i o3) s) 0 3
def fn (i : FormTF → Instr) (a : Word) : Word := v (ran (i f3) (two a 0)) 0 3

/-- The table of values that R293 and R294 fix. -/
theorem test_integer_table :
    gives .iadd (two 0x7FFFFFFF 1) = 0x80000000 ∧ gives .iadd (sat (two 0x7FFFFFFF 1)) = 0x7FFFFFFF ∧
    gives .isub (sat (two 0x80000000 1)) = 0x80000000 ∧ gives .imul (two 0x10000 0x10000) = 0 ∧
    gives .imul (sat (two 0x10000 0x10000)) = 0x7FFFFFFF ∧ gives .imulhs (two 0xFFFFFFFF 2) = 0xFFFFFFFF ∧
    gives .imulhz (two 0xFFFFFFFF 2) = 1 ∧ gives .sar (two 0x80000010 4) = 0xF8000001 ∧ gives .sar (two 0x80000010 40) = 0xFFFFFFFF ∧
    gives .shr (two 0x80000010 40) = 0 ∧ gives .shl (two 1 32) = 0 ∧ gives .shl (two 1 31) = 0x80000000 := by decide
theorem test_integer_choice :
    gives .imins (two 0xFFFFFFFF 1) = 0xFFFFFFFF ∧ gives .imaxs (two 0xFFFFFFFF 1) = 1 ∧ gives .iminz (two 0xFFFFFFFF 1) = 1 ∧
    gives .imaxz (two 0xFFFFFFFF 1) = 0xFFFFFFFF ∧ gives .and (two 12 10) = 8 ∧ gives .or (two 12 10) = 14 ∧ gives .xor (two 12 10) = 6 ∧
    gives .imad (two 3 5 7) = 22 ∧ gives .imad (sat (two 0x10000 0x10000 7)) = 0x7FFFFFFF ∧ gives .isub (two 3 5) = 0xFFFFFFFE := by decide
/-- SEL: a lane whose guard fails takes b; M reads k. -/
theorem test_sel : v (ran (.sel { o3 with g := 4 }) (two 5 6)) 0 3 = 6 ∧
    v (ran (.sel { o3 with m := true, g := 4 }) (grp (fun g => setK [(2, 9)] (setV [(0, 1, 5)] g)))) 0 3 = 9 ∧ gives .sel (two 5 6) = 5 ∧
    trap (ran (.sel o3) (sat (two 5 6))) = some (.illegal, 0xFFFFFFFF) := by decide
/-- A lane whose guard fails keeps its register, and the PC moves on. -/
theorem test_guard : v (ran (.iadd { o3 with g := 2 }) (grp (fun g => setP [(2, 2)] (setV [(0, 1, 5), (0, 3, 9), (1, 1, 5)] g)))) 0 3 = 9 ∧
    v (ran (.iadd { o3 with g := 2 }) (grp (fun g => setP [(2, 2)] (setV [(0, 1, 5), (0, 3, 9), (1, 1, 5)] g)))) 1 3 = 5 ∧
    pcs (ran (.iadd { o3 with g := 2 }) (grp id)) = [(4, 0xFFFFFFFF)] := by decide
/-- On the control processor a 32-bit result is zero-extended (R272); IADD64 and IADDI use 64 bits. -/
theorem test_integer_cp : x (ran (.isub o3) (cpu (setX [(1, 3), (2, 5)]))) 3 = 0xFFFFFFFE ∧
    x (ran (.iadd64 o3) (cpu (setX [(1, 3), (2, 0xFFFFFFFFFFFFFFFB)]))) 3 = 0xFFFFFFFFFFFFFFFE ∧
    x (ran (.iaddi { s := false, d := 3, a := 1, i := 0xFF, g := 7 }) (cpu (setX [(1, 0)]))) 3 = 0xFFFFFFFFFFFFFFFF ∧
    x (ran (.movi { s := false, d := 3, i := 0xFF, g := 7 }) (cpu id)) 3 = 0xFF := by decide
theorem test_iadd64 : let t := ran (.iadd64 { s := false, d := 4, a := 2, b := 6, m := false, g := 7 }) (grp (setV [(0, 2, 0xFFFFFFFF), (0, 6, 1)]));
    v t 0 4 = 0 ∧ v t 0 5 = 1 := by decide
/-- R296: ANDI #0xFF gives the mask 0xFFFF_FFFF; R297: 0x8000_0001 rotated by 1 gives 3. -/
theorem test_immediates : v (ran (.andi { s := false, d := 3, a := 1, i := 0xFF, g := 7 }) (two 0x12345678 0)) 0 3 = 0x12345678 ∧
    v (ran (.ori { s := false, d := 3, a := 1, i := 0x80, g := 7 }) (two 1 0)) 0 3 = 0x81 ∧
    v (ran (.xori { s := false, d := 3, a := 1, i := 0xFF, g := 7 }) (two 1 0)) 0 3 = 0xFE ∧
    v (ran (.iaddi { s := false, d := 3, a := 1, i := 0xFF, g := 7 }) (two 0 0)) 0 3 = 0xFFFFFFFF ∧
    v (ran (.shfi { s := false, d := 3, a := 1, k := 3, n := 1, g := 7 }) (two 0x80000001 0)) 0 3 = 3 ∧
    v (ran (.movi { s := false, d := 3, i := 0xFF, g := 7 }) (two 0 0)) 0 3 = 0xFF := by decide
/-- R278: an IMM hint widens the immediate to 24 bits. -/
theorem test_imm_hint : v (ran (.iaddi { s := false, d := 3, a := 1, i := 0xFE, g := 7 }) (grp (fun g => hinted { imm := some { i := 0x7FFF } } g))) 0 3 =
    0x7FFFFE ∧ v (ran (.movi { s := false, d := 3, i := 0x34, g := 7 }) (grp (fun g => hinted { imm := some { i := 0x8012 } } g))) 0 3 = 0x801234 := by
  decide
theorem test_compares :
    p (ran (cmp false .icmplt) (two 0xFFFFFFFF 1)) 2 = 1 ∧ p (ran (cmp false .icmpltz) (two 0xFFFFFFFF 1)) 2 = 0 ∧
    p (ran (cmp false .icmpeq) (two 4 4)) 2 = 0xFFFFFFFF ∧ p (ran (cmp false .icmpne) (two 4 4)) 2 = 0 ∧
    p (ran (cmp false .icmple) (two 4 4)) 2 = 0xFFFFFFFF ∧ p (ran (cmp true .icmpeq) (two 4 4)) 2 = 0 := by decide
theorem test_pred : p (ran (.pred { s := false, d := 5, a := 1, b := 2, t := 8, g := 7 }) (grp (setP [(1, 3), (2, 5)]))) 5 = 1 ∧
    p (ran (.pred { s := false, d := 5, a := 1, b := 2, t := 2, g := 7 }) (grp (setP [(1, 3), (2, 5)]))) 5 = 4 ∧
    p (ran (.pred { s := false, d := 63, a := 1, b := 2, t := 15, g := 7 }) (grp id)) 63 = 0 ∧
    p (ran (.v2p { s := false, d := 5, a := 1, g := 7 }) (two 7 0)) 5 = 1 ∧
    v (ran (.p2v { s := false, d := 3, a := 5, g := 7 }) (grp (setP [(5, 2)]))) 1 3 = 1 := by decide
/-- R301's own examples: NEG and IABS of 0x8000_0000, CTZ of 0x100. -/
theorem test_functions : fn .neg 0x80000000 = 0x80000000 ∧ fn .iabs 0x80000000 = 0x80000000 ∧
    v (ran (.neg f3) (sat (two 0x80000000 0))) 0 3 = 0x7FFFFFFF ∧ v (ran (.iabs f3) (sat (two 0x80000000 0))) 0 3 = 0x7FFFFFFF ∧
    fn .ctz 0x100 = 8 ∧ fn .ctz 0 = 32 ∧ fn .clz 1 = 31 ∧ fn .clz 0 = 32 ∧ fn .popc 0xF0F = 8 ∧ fn .brev 1 = 0x80000000 ∧
    fn .sext8 0x180 = 0xFFFFFF80 ∧ fn .sext16 0x18000 = 0xFFFF8000 ∧ fn .zext8 0x180 = 0x80 ∧ fn .zext16 0x18000 = 0x8000 ∧
    fn .not 0 = 0xFFFFFFFF ∧ fn .mov 5 = 5 ∧ v (ran (.movk f3) (grp (setK [(1, 7)]))) 31 3 = 7 := by decide
def kk (i : FormTF → Instr) (d a : Word) : Word := k (ran (i f3) (grp (setK [(3, d), (1, a)]))) 3
theorem test_uniform : kk .kmov 1 9 = 9 ∧ kk .kadd 0xFFFFFFFF 2 = 1 ∧ kk .ksub 1 2 = 0xFFFFFFFF ∧ kk .kmul 0x10000 0x10001 = 0x10000 ∧
    kk .kand 12 10 = 8 ∧ kk .kor 12 10 = 14 ∧ kk .kxor 12 10 = 6 ∧ kk .kshl 1 32 = 0 ∧ kk .kshr 0x80000000 31 = 1 ∧
    k (ran (.kmovv f3) (grp (setV [(0, 1, 5)]))) 3 = 5 ∧ k (ran (.kbal f3) (grp (setP [(1, 0xF0)]))) 3 = 0xF0 ∧
    k (ran (.kadd64 { f3 with d := 4, a := 2 }) (grp (setK [(4, 0xFFFFFFFF), (2, 1)]))) 5 = 1 ∧
    k (ran (.kmov { f3 with g := 0 }) (grp (setK [(1, 9)]))) 3 = 0 := by decide

def pairs64 : Desc := { g := 7, s := false, dst := [4, 5], src := [6, 7], a := [2, 3], afk := true, even := [4, 2, 6], satOk := true }
theorem witness_IntegerResults : passes (two 1 2) { descTR o3 false with satOk := true } ∧ passes (two 1 2) { descTR o3 true with satOk := true } ∧
    passes (two 1 2) (descTR o3 false) ∧ passes (two 1 2) pairs64 ∧ passes (two 1 2) { descTI false 3 1 7 with satOk := true } ∧
    passes (cpu id) { descTI false 127 127 7 with satOk := true } ∧ passes (two 1 2) (descTI false 3 1 7) ∧
    passes (two 1 2) { descTI false 127 1 7 with bad := false } ∧ passes (two 1 2) { g := 7, s := false, dst := [127], immOk := true } := by decide
theorem witness_PredicateResults : passes (two 1 2) (descCmp { s := false, p := 63, n := true, a := 1, b := 2, m := false, g := 7 }) ∧
    passes (two 1 2) { g := 7, s := false, modOk := false } ∧ passes (two 1 2) { g := 7, s := false, a := [127], afk := true } ∧
    iss (sat (two 1 2)) (fun i => i.e.hints.mod.isSome) := by decide
theorem witness_SelectResult : passes (two 1 2) { descTR { o3 with g := 4 } false with all := true } ∧ iss (sat (two 1 2)) (fun i => i.sat) ∧
    iss (two 1 2) (fun i => i.e.hints.guard.isNone) := by decide
theorem witness_IntegerFunctions : passes (two 1 2) { descTF f3 with satOk := true } ∧ passes (two 1 2) (descTF f3) ∧
    passes (two 1 2) { g := 7, s := false, dst := [3], ks := [127] } ∧ passes (two 1 2) { g := 7, s := false, dst := [127] } := by decide
theorem witness_UniformResults : passes (two 1 2) { g := 7, s := false, kd := [3], ks := [1] } ∧ passes (two 1 2) { g := 7, s := false, kd := [3], ks := [1, 3] } ∧
    passes (two 1 2) { g := 7, s := false, kd := [3], src := [1], once := true } ∧ passes (two 1 2) { g := 7, s := false, kd := [3], bad := 64 ≤ 63 } ∧
    passes (two 1 2) { g := 7, s := false, kd := [4, 5], ks := [2, 3], even := [4, 2] } ∧ passes (cpu id) { g := 7, s := false, kd := [127], ks := [1], even := [127, 1] } ∧
    iss (sat (two 1 2)) (fun i => i.mod.t) ∧ trap (ran (.kadd64 f3) (grp id)) = some (.illegal, 0xFFFFFFFF) ∧
    trap (ran (.kbal { f3 with a := 64 }) (grp id)) = some (.illegal, 0xFFFFFFFF) ∧ trap (ran (.kld32 f3) (sat (grp id))) = some (.illegal, 0xFFFFFFFF) := by decide

/-! ### Floating-point and lane words (R239 to R250, R330 to R346) -/

/-- A MOD hint with a rounding code. -/
def rounding (r : BitVec 3) (s : State) : State :=
  { s with sys := s.sys.modGroup 3 (hinted { mod := some { l := false, q := false, k := false, e := 0, t := false, r := r } }) }
/-- What lane 0 has in v3 and FSTAT after a word over v1, v2 and v3. -/
def fl (i : FormTR → Instr) (s : State) : Word × BitVec 5 := let t := ran (i o3) s; (v t 0 3, flags t 0)
def fx (i : FormTF → Instr) (s : State) : Word × BitVec 5 := let t := ran (i f3) s; (v t 0 3, flags t 0)

/-- R333's table: a = b = 1 + 2^-12 and v3 = -1.0. -/
theorem test_ffma : fl .ffma (two 0x3F800800 0x3F800800 0xBF800000) = (0x3A000400, 0) ∧
    fl .fmul (two 0x3F800800 0x3F800800) = (0x3F801000, flagNX) ∧ fl .fadd (two 0x3F801000 0xBF800000) = (0x3A000000, 0) ∧
    (fl .fmul (rounding 3 (two 0x3F800800 0x3F800800))).1 = 0x3F801001 ∧ (fl .fadd (two 0x3F801001 0xBF800000)).1 = 0x3A000800 ∧
    fl .ffma (two 0 0x7F800000 0x7FC00001) = (0x7FC00000, flagNV) := by decide
theorem test_fsub : fl .fsub (two 0x40400000 0x3F800000) = (0x40000000, 0) ∧ fl .fmin (two 0x80000000 0) = (0x80000000, 0) ∧
    fl .fmax (two 0x3F800000 0x7F800001) = (0x3F800000, flagNV) ∧ (fl .fadd (sat (two 0x40000000 0x3F800000))).1 = 0x3F800000 := by decide
/-- Each half of BMUL2 and BFMA2 alone: 2 × 3 and 1 × 1.5; then plus 1 and plus 0. -/
theorem test_halves : fl .bmul2 (two 0x3F804000 0x3FC04040) = (0x3FC040C0, 0) ∧ fl .bfma2 (two 0x3F804000 0x3FC04040 0x00003F80) = (0x3FC040E0, 0) := by
  decide
theorem test_fcompare : p (ran (cmp false .fcmpeq) (two 0x80000000 0)) 2 = 0xFFFFFFFF ∧ p (ran (cmp false .fcmplt) (two 0x3F800000 0x40000000)) 2 = 1 ∧
    flags (ran (cmp false .fcmplt) (two 0x7FC00000 0)) 0 = flagNV ∧ p (ran (cmp false .fcmple) (two 0x40000000 0x3F800000)) 2 = 0xFFFFFFFE ∧
    p (ran (cmp false .fcmpun) (two 0x7FC00000 0)) 2 = 1 ∧ flags (ran (cmp false .fcmpun) (two 0x7FC00000 0)) 0 = 0 ∧
    flags (ran (cmp false .fcmpeq) (two 0x7F800001 0)) 0 = flagNV := by decide
/-- R335's examples: F2I8S of -200.5 and 2.5. -/
theorem test_f2i : fx .f2i8s (two 0xC3488000 0) = (0xFFFFFF80, flagNV) ∧ fx .f2i8s (two 0x40200000 0) = (2, flagNX) ∧
    (fx .f2i8s (rounding 4 (two 0x40200000 0))).1 = 3 ∧ fx .f2iS (two 0xC0000000 0) = (0xFFFFFFFE, 0) ∧ fx .f2iZ (two 0xBE800000 0) = (0, flagNX) ∧
    fx .f2iZ (two 0x7FC00000 0) = (0, flagNV) := by decide
theorem test_i2f : fx .i2fS (two 0xFFFFFFFF 0) = (0xBF800000, 0) ∧ fx .i2fZ (two 0xFFFFFFFF 0) = (0x4F800000, flagNX) ∧
    fx .fneg (two 0x3F800000 0) = (0xBF800000, 0) ∧ fx .fabs (two 0xFFC00000 0) = (0x7FC00000, 0) ∧ fx .fsat (two 0x40000000 0) = (0x3F800000, 0) ∧
    fx .frnd (two 0x40200000 0) = (0x40000000, flagNX) ∧ fx .fclass (two 0x80000001 0) = (4, 0) ∧ fx .fclass (two 0x7F800001 0) = (0x100, 0) := by decide
/-- R338's example: F2H of 65,520. -/
theorem test_f2h : fx .f2h (two 0x477FF000 0) = (0x7C00, flagOF ||| flagNX) ∧ (fx .f2h (rounding 1 (two 0x477FF000 0))).1 = 0x7BFF ∧
    fx .h2f (two 0x7BFF 0) = (0x477FE000, 0) ∧ fx .f2bf (two 0x3F808000 0) = (0x3F80, flagNX) ∧ fx .bf2f (two 0x12343F80 0) = (0x3F800000, 0) ∧
    fx .bf2fh (two 0x3F801234 0) = (0x3F800000, 0) := by decide
theorem test_pack : v (ran (.pkbf2 { f3 with a := 2 }) (two 0 0x3F800000 0x40000000)) 0 3 = 0x40003F80 ∧
    (let t := ran (.unpbf2 { f3 with d := 4 }) (two 0x40003F80 0); v t 0 4 = 0x3F800000 ∧ v t 0 5 = 0x40000000) := by decide
/-- R337's example: the root of 2; and the special cases of R250. -/
theorem test_root : fx .fsqrt (two 0x40000000 0) = (0x3FB504F3, flagNX) ∧ fx .frcp (two 0x40800000 0) = (0x3E800000, 0) ∧
    fx .frcp (two 0x80000000 0) = (0xFF800000, flagDZ) ∧ fx .frsq (two 0x40800000 0) = (0x3F000000, 0) ∧
    fx .frsq (two 0xBF800000 0) = (0x7FC00000, flagNV) := by decide
theorem test_special : fx .fex2 (two 0x40400000 0) = (0x41000000, 0) ∧ fx .flg2 (two 0x41000000 0) = (0x40400000, 0) ∧
    fx .flg2 (two 0 0) = (0xFF800000, flagDZ) ∧ fx .fsin (two 0x80000000 0) = (0x80000000, 0) ∧ fx .fcos (two 0 0) = (0x3F800000, 0) ∧
    fx .ftanh (two 0x7F800000 0) = (0x3F800000, 0) ∧ fx .fsigm (two 0 0) = (0x3F000000, 0) ∧ fx .fsin (two 0x7F800000 0) = (0x7FC00000, flagNV) := by
  decide
/-- A deferred result is pending without S, and not with it (R107, R337). -/
theorem test_deferred : (sget (g0 (ran (.fsqrt f3) (two 0x40000000 0))).regs.pend 3) = 0xFFFFFFFF ∧
    (sget (g0 (ran (.fsqrt { f3 with s := true }) (two 0x40000000 0))).regs.pend 3) = 0 := by decide
/-- R341's example. -/
theorem test_txbenc8 : let t := ran (.txbenc8 { s := true, d := 4, a := 2, g := 7 }) (grp (setV [(0, 2, 0x42C80000), (1, 2, 0x40400000)]));
    v t 0 4 = 0x81B2 ∧ v t 1 4 = 0x8518 ∧ v t 2 4 = 0 := by decide
theorem test_txbdec8 : let t := ran (.txbdec8 { s := true, d := 5, a := 4, g := 7 }) (grp (setV [(0, 4, 0x81B2), (1, 4, 0x8518)]));
    v t 0 5 = 0x42C80000 ∧ v t 1 5 = 0x40400000 ∧ v t 2 5 = 0 := by decide
/-- TXBENC4, and back: 3.0 in lane 5 alone. -/
theorem test_txb4 : let t := ran (.txbenc4 { s := true, d := 4, a := 2, g := 7 }) (grp (setV [(5, 2, 0x40400000)]));
    let u := ran (.txbdec4 { s := true, d := 5, a := 4, g := 7 }) t; v u 5 5 = 0x40400000 ∧ v u 6 5 = 0 := by decide
/-- Lane l holds l + 1 in v1 and 5 in v3. -/
def ramp : State := grp (setV ((List.range 32).flatMap (fun l => [(l, 1, BitVec.ofNat 32 (l + 1)), (l, 3, 5)])))
theorem test_quads : [Instr.qxh f3, .qxv f3, .qxd f3, .qbc0 f3, .qbc1 f3, .qbc2 f3, .qbc3 f3].map (fun i => v (ran i ramp) 6 3) =
    [8, 5, 6, 5, 6, 7, 8] := by decide
/-- R344's example with 1 in every lane, R345's with four lanes, and the other exchanges. -/
theorem test_lanes : let one := grp (setV ((List.range 32).map (fun l => (l, 1, 1))));
    v (ran (.gscan f3) one) 9 3 = 9 ∧ v (ran (.gradd f3) one) 0 3 = 32 ∧ v (ran (.gshf f3) ramp) 9 3 = 6 ∧ v (ran (.gfirst f3) ramp) 9 3 = 1 ∧
    v (ran (.grmin f3) ramp) 9 3 = 1 ∧ v (ran (.grmax f3) ramp) 9 3 = 32 ∧ v (ran (.gbal f3) (grp (setP [(1, 5)]))) 9 3 = 5 ∧
    v (ran (.grmin { f3 with g := 0 }) ramp) 9 3 = 5 := by decide
theorem test_grfadd :
    let s := grp (fun g => setP [(1, 0xF)] (setV [(0, 1, 0x4B800000), (1, 1, 0x3F800000), (2, 1, 0x3F800000), (3, 1, 0x3F800000)] g));
    let t := ran (.grfadd { f3 with g := 1 }) s; v t 0 3 = 0x4B800001 ∧ flags t 0 = flagNX ∧ v t 4 3 = 0 := by decide

theorem witness_FloatArithmetic : passes (two 1 2) { descTR o3 false with rounds := true, satOk := true } ∧
    passes (two 1 2) { descTR o3 true with rounds := true, satOk := true } ∧ passes (two 1 2) { descTR o3 false with satOk := true } ∧
    passes (two 1 2) (descCmp { s := false, p := 2, n := false, a := 1, b := 2, m := false, g := 7 }) ∧
    passes (rounding 4 (two 1 2)) { descTR o3 false with rounds := true, satOk := true } := by decide
theorem witness_FloatFunctionResults : passes (two 1 2) { descTF f3 with rounds := true, satOk := true } ∧
    passes (two 1 2) { descTF f3 with rounds := true } ∧ passes (two 1 2) (descTF f3) ∧
    passes (two 1 2) { descTF f3 with a := [2, 3], even := [2], rounds := true, satOk := true } ∧
    passes (two 1 2) { descTF f3 with dst := [4, 5], even := [4] } ∧ passes (two 1 2) { descTF f3 with satOk := true } ∧
    iss (two 1 2) (fun i => !f3.s && !i.cp && i.on 7 31 && i.g.frontier.all (fun e => match e.st with | .join _ => false | _ => true)) := by decide
theorem witness_BlockFunctions : iss (two 1 2) (fun i => !i.cp &&
      decide (i.check (two 1 2).sys { g := 7, s := false, agents := .groupOnly, src := [2, 3], dst := [3], even := [2], rounds := true, all := true
                                      hz := some (i.pendIn [3] i.e.mask ||| i.pendIn [2] (i.real (i.act 7)) |||
                                        i.pendIn [3] (i.e.mask &&& 1)) } = .go ∧
        i.check (two 1 2).sys { g := 7, s := false, agents := .groupOnly, src := [1], dst := [3]
                                hz := some (i.pendIn [1, 3] (i.act 7) ||| i.pendIn [1] (i.e.mask &&& 3)) } = .go)) := by decide
theorem witness_RoundingIsExactOnFormat : (0 : Nat) < 2 ^ 16 ∧ (decodeF bf16 0xFFFF).isNan ∧ (decodeF fp32 0xFF7FFFFF).isNan = false ∧
    (decodeF bf16 0).isNan = false ∧ (decodeF fp16 0x0001).isNan = false ∧ (decodeF fp32 0xFFFFFFFF).isNan ∧ Rnd.rna ∈ [Rnd.rne, .rz, .rdn, .rup, .rna] := by
  decide
theorem witness_LaneExchangesAndSums : let d : Desc := { descTF f3 with agents := .groupOnly };
    iss ramp (fun i => !i.cp && decide (
      i.check ramp.sys { d with hz := some (i.laneHazard 7 3 1 (i.act 7) (fun l => if i.g.lanes.getLsbD (l ^^^ 3) then some (l ^^^ 3) else none)) } = .go ∧
      i.check ramp.sys { d with src := [3], hz := some (i.laneHazard 7 3 1 (i.act 7) (fun _ => some 5)) } = .go ∧
      i.check ramp.sys { g := 7, s := false, dst := [3], agents := .groupOnly, bad := 64 ≤ 63 } = .go ∧
      i.check ramp.sys { d with hz := some ((i.act 7 &&& sget i.g.regs.pend 3) ||| (i.act 7 &&& maskOf (fun l =>
        (List.range 32).any (fun j => readsAll (i.act 7) l j && (sget i.g.regs.pend 1).getLsbD j)))) } = .go)) ∧
    ([1, 2] : List Nat).length = 2 ^ 1 ∧ ([3, 4] : List Nat).length = 2 ^ 1 := by decide

/-! ### Memory words and atomics (R307 to R318, R216, R219, R265) -/

/-- Lane 0 alone passes guard p1; v2 and v3 hold a pointer, v4 to v7 data, and k2 and k3 the pointer too. -/
def mem (ptr : DWord) (f : Group → Group := id) (w : Sys → Sys := id) : State :=
  grp (fun g => f (setK [(2, ptr.setWidth 32), (3, (ptr >>> 32).setWidth 32), (4, 0x55)] (setP [(1, 1)]
    (setV [(0, 2, ptr.setWidth 32), (0, 3, (ptr >>> 32).setWidth 32), (0, 4, 0x44332211), (0, 5, 0x88776655), (0, 6, 6), (0, 7, 7)] g)))) w
def tm (o : BitVec 6 := 0) : FormTM := { s := false, d := 4, a := 2, c := 0, o := o, g := 1 }
def ta : FormAtom := { s := false, d := 4, a := 2, c := 0, n := true, g := 1 }
def tr' : FormAtomRet := { s := false, d := 4, a := 2, c := 0, g := 1 }
def ft : FormTF := { s := false, d := 4, a := 2, g := 1 }
/-- The operations asked for, the places, and where their values go. -/
def asks (s : State) : List (AccOp × Target × Dest) := s.sys.accesses.map (fun a => (a.op, a.target, a.dest))
/-- The causes of the traps of the instruction. -/
def stops (i : Instr) (s : State) : Option (Cause × LaneMask) := trap (ran i s)
/-- The two formats of a differentiable FP32 region at 0x1000, with cells at 0x3000, and of a profile region at 0x4000. -/
def regions (s : State) : State :=
  { s with sys := { s.sys with launches := s.sys.launches.map (fun u => { u with heap := { u.heap with formats :=
    [(0, { start := 0x1000, stop := 0x2000, aux := 0x3000, fmt := 0, d := true, key := 1 }),
     (1, { start := 0x4000, stop := 0x5000, p := true, key := 1 })] } }) } }
/-- The inverting modes, with the tape at 0x8000. -/
def inverting (m : BitVec 2) (tapep : Word) (g : Group) : Group :=
  { g with adm := m, tapeb := 0x8000, tapel := 0x100, regs := { g.regs with tapep := tapep } }

theorem test_loads : asks (ran (.ld32 (tm 2)) (mem 0x100)) = [(.load 4, .home 0x108, .v 4 1)] ∧
    asks (ran (.ld8 (tm 3)) (mem 0x100)) = [(.load 1, .home 0x103, .v 4 1)] ∧ asks (ran (.ld16 (tm 63)) (mem 0x100)) = [(.load 2, .home 0xFE, .v 4 1)] ∧
    asks (ran (.ld64 (tm 1)) (mem 0x100)) = [(.load 8, .home 0x108, .v 4 2)] ∧ asks (ran (.ld128 (tm 1)) (mem 0x100)) = [(.load 16, .home 0x110, .v 4 4)] ∧
    sget (g0 (ran (.ld64 (tm 1)) (mem 0x100))).regs.pend 5 = 1 := by decide
/-- What the loads do not allow, in R268's order. -/
theorem test_load_traps : stops (.ld32 (tm 0)) (mem 0x102) = some (.align, 1) ∧ stops (.ld32 (tm 0)) (mem 0x100000) = some (.limit, 1) ∧
    stops (.ld32 (tm 0)) (mem 0x8000000000000000) = some (.space, 1) ∧ stops (.ld64 { tm with d := 5 }) (mem 0x100) = some (.illegal, 0xFFFFFFFF) ∧
    stops (.st32 (tm 0)) (mem 0x7000000000000000) = some (.space, 1) := by decide
theorem test_stores : asks (ran (.st32 (tm 0)) (mem 0x100)) = [(.store [0x11, 0x22, 0x33, 0x44], .home 0x100, .none)] ∧
    asks (ran (.st8 (tm 0)) (mem 0x101)) = [(.store [0x11], .home 0x101, .none)] ∧
    asks (ran (.st16 (tm 0)) (mem 0x102)) = [(.store [0x11, 0x22], .home 0x102, .none)] ∧
    asks (ran (.st64 (tm 0)) (mem 0x100)) = [(.store [0x11, 0x22, 0x33, 0x44, 0x55, 0x66, 0x77, 0x88], .home 0x100, .none)] ∧
    (asks (ran (.st128 (tm 0)) (mem 0x100))).map (fun a => a.2.1) = [.home 0x100] := by decide
theorem test_launch_constants : v (ran (.ld32 (tm 0)) (mem 0x7000000000000000)) 0 4 = 0 ∧ asks (ran (.ld32 (tm 0)) (mem 0x7000000000000000)) = [] := by decide
theorem test_uniform_accesses : asks (ran (.kld32 ft) (mem 0x100)) = [(.load 4, .home 0x100, .k 4 1)] ∧
    asks (ran (.kld64 ft) (mem 0x100)) = [(.load 8, .home 0x100, .k 4 2)] ∧
    asks (ran (.kst32 ft) (mem 0x100)) = [(.store [0x55, 0, 0, 0], .home 0x100, .none)] ∧ asks (ran (.kld32 { ft with g := 2 }) (mem 0x100)) = [] := by decide
/-- R317's operations reach the place with their operands. -/
theorem test_atomics : ([(.atomAddB32 ta, .addB32), (.atomAddF32 ta, .addF32), (.atomAddBf16x2 ta, .addBf16x2), (.atomMinS32 ta, .minS32),
      (.atomMaxS32 ta, .maxS32), (.atomMinZ32 ta, .minZ32), (.atomMaxZ32 ta, .maxZ32), (.atomAnd ta, .and), (.atomOr ta, .or), (.atomXor ta, .xor),
      (.atomIncw ta, .incw), (.atomDecw ta, .decw), (.atomCaddF32 ta, .caddF32), (.atomCaddBf16x2 ta, .caddBf16x2)] :
        List (Instr × AtomOp)).all (fun x => asks (ran x.1 (mem 0x100)) = [(.atomic x.2 false 0x44332211 0, .home 0x100, .none)]) = true := by decide
theorem test_atomics_returning :
    asks (ran (.atomAddB64 { ta with n := false }) (mem 0x100)) = [(.atomic .addB64 true 0x8877665544332211 0, .home 0x100, .v 4 2)] ∧
    asks (ran (.atomXchg tr') (mem 0x100)) = [(.atomic .xchg true 0x44332211 0, .home 0x100, .v 4 1)] ∧
    asks (ran (.atomCas tr') (mem 0x100)) = [(.atomic .cas true 0x44332211 0x88776655, .home 0x100, .v 4 1)] ∧
    asks (ran (.atomCasB64 tr') (mem 0x100)) = [(.atomic .casB64 true 0x8877665544332211 0x0000000700000006, .home 0x100, .v 4 2)] ∧
    asks (ran (.atomCdecl tr') (mem 0x100 (setV [(0, 6, 0), (0, 7, 0)]))) = [(.decl 0x44332211 0, .home 0x100, .v 4 1)] := by decide
/-- R216: the exchange, and the tape entry with the tag 0x1004; the tape moves up by 8. -/
theorem test_forward_store : let t := ran (.st32 (tm 1)) (regions (mem 0x1000 (inverting 1 0x10)));
    (asks t).map (fun a => (a.1, a.2.1)) = [(.exchange 4 0x44332211, .home 0x1004), (.tape 0x1004 4, .home 0x8010)] ∧
      (g0 t).regs.tapep = 0x18 := by decide
/-- R219: nothing to take back is TAPEUND, a full tape TAPEOVF; R218: a reverse-mode load adds to the cell. -/
theorem test_reverse : stops (.st32 (tm 1)) (regions (mem 0x1000 (inverting 2 0))) = some (.tapeund, 1) ∧
    stops (.st32 (tm 1)) (regions (mem 0x1000 (inverting 1 0x100))) = some (.tapeovf, 1) ∧
    asks (ran (.ld32 (tm 1)) (regions (mem 0x1000 (inverting 2 0)))) = [(.atomic .addF32 false 0x44332211 0, .home 0x3004, .none)] := by decide
/-- R265: STQ writes a quarantined register to a profile region, and nowhere else. -/
theorem test_stq : asks (ran (.stq { s := false, d := 2, a := 2, g := 1 }) (regions (mem 0x4000 (fun g => { g with q := sset g.q 2 9 })))) =
      [(.store [9, 0, 0, 0, 0, 0, 0, 0], .home 0x4000, .none)] ∧
    stops (.stq { s := false, d := 2, a := 2, g := 1 }) (regions (mem 0x100)) = some (.quar, 1) := by decide

/-- Nothing was asked for before, lane 0 alone is active, the checks of a form pass, and the lanes' addresses stand. -/
def memGo (s : State) (d : Desc) (k : AccKind) (ea size align : Nat) : Bool :=
  iss s (fun i => decide (i.check s.sys d = .go ∧ i.addrFail s.sys k size align { lane := 0, base := ea, ea := ea } = none ∧
    (s.sys.freeSlot i.g).isSome ∧ (∀ a ∈ s.sys.accesses, a.undone = true → a.who ≠ i.agent) ∧ i.act 1 = 1 ∧ i.g.helpers = 0 ∧
    i.first? 1 = some 0 ∧ i.relHolds s.sys [] = false))
def ldDesc (words : Nat) : Desc :=
  { g := 1, s := false, cls := some 0, mem := true, immOk := true, leaseOk := true, acqOk := true, dst := regRange 4 words, a := [2, 3]
    afk := true, even := [2], bad := 4 % words != 0 }
theorem witness_Loads : memGo (mem 0x100) (ldDesc 1) .load 0x100 4 4 ∧ memGo (mem 0x100) (ldDesc 4) .load 0x110 16 16 ∧
    iss (mem 0x100) (fun i => decide (i.det = false ∧ i.cp = false ∧ i.g.adm = 0)) := by decide
def stDesc (words : Nat) : Desc :=
  { g := 1, s := false, cls := some 0, mem := true, immOk := true, relOk := true, src := regRange 4 words, a := [2, 3], afk := true, even := [2]
    bad := 4 % words != 0 }
theorem witness_Stores : memGo (mem 0x100) (stDesc 1) .store 0x100 4 4 ∧ memGo (mem 0x100) (stDesc 4) .store 0x100 16 16 := by decide
theorem witness_UniformAccessesAndQuarantine :
    memGo (mem 0x100) { g := 1, s := false, mem := true, cls := some 0, leaseOk := true, acqOk := true, ks := [2, 3], kd := [4], even := [2] } .load
      0x100 4 4 ∧
    memGo (mem 0x100) { g := 1, s := false, mem := true, cls := some 0, leaseOk := true, acqOk := true, ks := [2, 3], kd := [4, 5], even := [2, 4] }
      .load 0x100 8 8 ∧
    memGo (mem 0x100) { g := 1, s := false, mem := true, cls := some 0, relOk := true, ks := [2, 3, 4], even := [2] } .store 0x100 4 4 ∧
    iss (mem 0x100) (fun i => (i.first? 2).isNone) ∧
    memGo (regions (mem 0x4000)) { g := 1, s := false, src := [2, 3], even := [2], agents := .groupOnly, mem := true, drained := true }
      .store 0x4000 8 8 ∧ iss (regions (mem 0x4000)) (fun i => (i.ctx (regions (mem 0x4000)).sys).profile 0x4000) := by decide
def atDesc (ret : Bool) (src dst even : List Nat) : Desc :=
  { g := 1, s := false, cls := some 0, mem := true, acqOk := ret, relOk := true, src := src, dst := dst, a := [2, 3], afk := true, even := even }
theorem witness_Atomics : memGo (mem 0x100) (atDesc false [4] [] [2]) .atomic 0x100 4 4 ∧ memGo (mem 0x100) (atDesc true [4] [4] [2]) .atomic 0x100 4 4 ∧
    memGo (mem 0x100) (atDesc true [4, 5] [4, 5] [2, 4]) .atomic 0x100 8 8 ∧ memGo (mem 0x100) (atDesc true [4, 5, 6, 7] [4, 5] [2, 4]) .atomic 0x100 8 8 ∧
    memGo (mem 0x100) (atDesc true [4, 6, 7] [4] [2, 4]) .atomic 0x100 128 128 := by decide
theorem witness_InvertedStores : memGo (regions (mem 0x1004 (inverting 1 0x10))) (stDesc 1) .store 0x1004 4 4 ∧
    iss (regions (mem 0x1004 (inverting 1 0x10))) (fun i => let s := regions (mem 0x1004 (inverting 1 0x10)); decide (i.tapeFail s.sys .store 0x10 1 = none ∧
      i.drainsInFlight s.sys = false) && (match (i.ctx s.sys).diffEntry 0x1004 with
        | some f => decide (f.elemSize = 4) && (i.cellTarget s.sys f 0x1004).isSome | none => false)) ∧
    (let s : State := { regions (mem 0x1004 (inverting 2 0x10)) with
        mem := writeCells (regions (mem 0x1004 (inverting 2 0x10))).mem (cellsAt 0x8008 (bytesOf 4 9 ++ bytesOf 4 0x1004)) };
      iss s (fun i => decide (i.tapeFail s.sys .load 8 1 = none) && (match i.peek s 0x8008 8 with
        | .ok b => decide (b = bytesOf 4 9 ++ bytesOf 4 0x1004 ∧ field b 4 4 = 0x1004) | .error _ => false)) = true ∧
      (asks (ran (.st32 (tm 0)) s)).map (fun a => (a.1, a.2.1)) =
        [(.load 8, .home 0x8008), (.exchange 4 0, .home 0x3004), (.store [9, 0, 0, 0], .home 0x1004)]) := by decide

/-! ### Control flow, hints and fences (R275 to R279, R302 to R305, R320, R367) -/

def bra (e : BitVec 20) (g : BitVec 3 := 7) (u : Bool := false) : FormTB := { s := false, u := u, e := e, g := g }
def jmp (a : BitVec 7 := 1) (u : Bool := false) : FormJump := { s := false, u := u, a := a, g := 7 }
def fg (g : BitVec 3 := 7) : FormG := { s := false, g := g }
def h1 : Hints := { guard := some { n := false, p := 3 } }

theorem test_branches : pcs (ran (.bra (bra 4)) (grp id)) = [(16, 0xFFFFFFFF)] ∧ pcs (ran (.bra (bra 0xFFFFF)) (grp id)) = [(0xFFFFFFFC, 0xFFFFFFFF)] ∧
    pcs (ran (.bra (bra 4 1)) (grp (setP [(1, 0xF)]))) = [(16, 0xF), (4, 0xFFFFFFF0)] ∧
    trap (ran (.bra (bra 4 1 true)) (grp (setP [(1, 0xF)]))) = some (.uniform, 0xFFFFFFFF) := by decide
theorem test_calls : let t := ran (.call (bra 4)) (grp id); pcs t = [(16, 0xFFFFFFFF)] ∧ v t 31 127 = 4 ∧
    v (ran (.calli (jmp 1)) (grp (setV ((List.range 32).map (fun l => (l, 1, 8)))))) 0 127 = 4 ∧
    pcs (ran (.calli (jmp 1)) (grp (setV ((List.range 32).map (fun l => (l, 1, 8)))))) = [(8, 0xFFFFFFFF)] := by decide
theorem test_jumps : pcs (ran (.jmpk { s := false, a := 4, g := 7 }) (grp (setK [(4, 0x20)]))) = [(0x20, 0xFFFFFFFF)] ∧
    pcs (ran (.ret (jmp 127)) (grp (setV [(0, 127, 8)]))) = [(8, 1), (0, 0xFFFFFFFE)] ∧
    trap (ran (.jmpi (jmp 1)) (grp (setV [(3, 1, 6)]))) = some (.align, 8) ∧ (cp (ran (.jmpi (jmp 1)) (cpu (setX [(1, 0x40)])))).pc = 0x40 := by decide
theorem test_exit : (g0 (ran (.exit (fg 1)) (grp (setP [(1, 0xF)])))).lanes = 0xFFFFFFF0 ∧ pcs (ran (.exit (fg 1)) (grp (setP [(1, 0xF)]))) =
    [(4, 0xFFFFFFF0)] := by decide
/-- RJOIN: an entry with an empty J goes on; two of three entries that share their J wait for the third (R110). -/
theorem test_rjoin : pcs (ran (.rjoin { s := false }) (grp id)) = [(4, 0xFFFFFFFF)] ∧
    (g0 (ran (.rjoin { s := false }) (grp (fun g => { g with frontier := g.frontier.map (fun e => { e with mask := 0xF, j := 0xFF }) })))).frontier.map
      (fun e => (e.pc, e.st)) = [(0, .join false)] ∧
    pcs (ran (.rjoin { s := false }) (grp (fun g => { g with frontier := g.frontier.map (fun e => { e with j := 0xFFFFFFFF }) }))) = [(4, 0xFFFFFFFF)] := by
  decide
/-- Each hint, the fourth of a run, and two of one kind (R276). -/
theorem test_hints : (g0 (ran (.guard { n := false, p := 3 }) (grp id))).frontier.map (fun e => (e.pc, e.hints)) = [(4, h1)] ∧
    (g0 (ran (.imm { i := 9 }) (grp (hinted h1)))).frontier.map (fun e => e.hints) = [{ h1 with imm := some { i := 9 } }] ∧
    trap (ran (.guard { n := false, p := 3 }) (grp (hinted h1))) = some (.illegal, 0xFFFFFFFF) ∧
    trap (ran (.delay { n := 3 }) (grp (hinted { h1 with imm := some { i := 1 }, mod := some { l := false, q := false, k := false, e := 0, t := false, r := 0 } }))) =
      some (.illegal, 0xFFFFFFFF) ∧
    (g0 (ran (.nop (fg 7)) (grp (hinted { delay := some { n := 3 } })))).frontier.map (fun e => (e.pc, e.delay)) = [(4, 3)] ∧
    (g0 (ran (.mod { l := false, q := false, k := false, e := 0, t := false, r := 2 }) (grp id))).frontier.map (fun e => e.hints.mod) =
      [some { l := false, q := false, k := false, e := 0, t := false, r := 2 }] := by decide
theorem test_nop_yield : pcs (ran (.nop (fg 7)) (grp id)) = [(4, 0xFFFFFFFF)] ∧ (g0 (ran (.yield (fg 7)) (grp id))).age = (grp id).sys.nextId ∧
    (g0 (grp id)).age < (grp id).sys.nextId := by decide
def fen (k : BitVec 7) (c : BitVec 3) : FormFence := { s := false, k := k, c := c, m := 1, g := 7 }
/-- A fence with nothing to wait for lets its entry go on; a store in flight holds a release (R153). -/
theorem test_fence : pcs (ran (.fence (fen 0 4)) (grp id)) = [(4, 0xFFFFFFFF)] ∧
    (g0 (ran (.fence (fen 2 4)) (ran (.st32 (tm 0)) (mem 0x100)))).frontier.map (fun e => (e.pc, e.holds.length)) = [(8, 1)] ∧
    (g0 (ran (.fence (fen 1 4)) (ran (.st32 (tm 0)) (mem 0x100)))).frontier.map (fun e => (e.pc, e.holds.length)) = [(8, 0)] := by decide

theorem witness_ControlFlow : passes (grp id) { g := 7, s := false } ∧ passes (grp id) { g := 7, s := false, dst := [127] } ∧
    passes (cpu id) { g := 7, s := false, dst := [127] } ∧ passes (grp id) { g := 7, s := false, a := [1], afk := true } ∧
    passes (grp id) { g := 7, s := false, a := [1], afk := true, dst := [127] } ∧ passes (grp id) { g := 7, s := false, ks := [4] } ∧
    iss (grp id) (fun i => i.guardAt 7 0 == i.guardAt 7 31 && i.a 0 1 == i.a 31 1 && (i.a 31 1).toNat % 4 == 0 && (i.k 4).toNat % 4 == 0) ∧
    passes (grp id) { g := 7, s := false, guardOk := false, modOk := false } ∧ iss (grp id) (fun i => i.e.j == 0) ∧
    iss (grp (fun g => { g with frontier := g.frontier.map (fun e => { e with j := 0xFFFFFFFF }) })) (fun i => i.e.mask == i.e.j && i.e.j != 0) ∧
    passes (grp id) { g := 7, s := false, agents := .groupOnly, drained := true } := by decide
theorem witness_HintsAndFences : iss (grp id) (fun i => i.e.hints.count < 3 && i.e.hints.guard.isNone && i.e.hints.imm.isNone && i.e.hints.mod.isNone &&
      i.e.hints.delay.isNone) ∧ passes (grp id) { g := 7, s := false } ∧ iss (grp id) (fun i => i.act 7 != 0) ∧
    iss (grp id) (fun i => i.act 0 == 0) ∧ passes (grp id) { g := 7, s := false, modOk := false, bad := (1 : BitVec 3) == 0 || (4 : BitVec 3) == 7 } ∧
    iss (grp id) (fun i => let y := (grp id).sys; y.released i.now i.agent (i.act 7) 1 4 && y.acquired i.agent (i.act 7) 1 4 none &&
      y.released i.now i.agent (i.act 7) 1 2 && y.acquired i.agent (i.act 7) 7 6 none) ∧
    iss (ran (.st32 (tm 0)) (mem 0x100)) (fun i => !(ran (.st32 (tm 0)) (mem 0x100)).sys.released i.now i.agent (i.act 7) 1 4) := by decide

/-! ### Barriers and system words (R321 to R328, R367 to R372, R89 to R100) -/

/-- The group's block has a scratchpad window of one bank; the word of an object stands at its start. -/
def scr (ptr : DWord) (word : Word) (f : Group → Group := id) : State :=
  let s := mem ptr (fun g => f { g with scrBytes := 0x4000 }) (fun y => { y with blocks := y.blocks.map (fun b => { b with scrBytes := 0x4000, scr := [(0x100000, 0x4000)] }) })
  { s with mem := writeCells s.mem (cellsAt (flatSram 0 0x100000) (bytesOf 4 word.toNat)) }
def bar : DWord := 0x3000000000000000
def barFlat : Nat := flatSram 0 0x100000
theorem test_barrier_words : (asks (ran (.binit ft) (scr bar 0))).map (fun a => (a.1, a.2.1)) = [(.init 0x2211, .home barFlat)] ∧
    (asks (ran (.bexpect ft) (scr bar 0))).map (fun a => a.1) = [.expect 0x44332211] ∧
    (asks (ran (.barrive ft) (scr bar 0))) = [(.arrive, .home barFlat, .v 4 1)] ∧
    (asks (ran (.btest ft) (scr bar 0))) = [(.test 0x44332211, .home barFlat, .v 4 1)] ∧
    (asks (ran (.binval { s := false, a := 2, g := 1 }) (scr bar 0))).map (fun a => a.1) = [.invalidate] ∧
    (asks (ran (.chktest ft) (scr bar 0 (setV [(0, 4, 9)])))) = [(.bit 1, .home (barFlat + 1), .v 4 1)] ∧
    stops (.binit ft) (mem bar) = some (.spbound, 1) ∧ stops (.binit ft) (mem 0x100) = some (.space, 1) := by decide
/-- BWAIT: another phase than the one named answers at once; the same phase waits (R324). -/
theorem test_bwait : v (ran (.bwait ft) (scr bar 5)) 0 4 = 5 ∧ v (ran (.bwait ft) (scr bar 0x80000005)) 0 4 = 0xFFFFFFFF ∧
    (g0 (ran (.bwait ft) (scr bar 0x44332211))).frontier.map (fun e => match e.st with | .barrier a ph r _ _ _ _ => (a, ph, r) | _ => (0, 0, 0)) =
      [(barFlat, 0x44332211, 4), (0, 0, 0)] := by decide
theorem test_darrive_chwp : (asks (ran (.darrive { s := false, d := 0, a := 2, g := 1 }) (mem 0x140))).map (fun a => (a.1, a.2.1)) =
      [(.domain 0 0 0, .home 0x140)] ∧ v (ran (.chwp { s := false, d := 3, a := 0, g := 7 }) (grp id)) 0 3 = 0xFFFFFFFF := by decide
def sys (a : BitVec 7) : FormTF := { s := false, d := 3, a := a, g := 7 }
theorem test_sread : v (ran (.sread (sys 0)) (grp id)) 9 3 = 9 ∧ v (ran (.sread (sys 1)) (grp id)) 9 3 = 2 ∧ v (ran (.sread (sys 0x19)) (grp id)) 0 3 = 128 ∧
    v (ran (.sread (sys 0x0C)) (grp id)) 0 3 = 0xFFFFFFFF ∧ x (ran (.sread (sys 0x2B)) (cpu id)) 3 = 65536 ∧ stops (.sread (sys 0x0E)) (grp id) =
      some (.illegal, 0xFFFFFFFF) ∧ stops (.sread (sys 0x20)) (grp id) = some (.privilege, 0xFFFFFFFF) := by decide
theorem test_swrite : (g0 (ran (.swrite (sys 0x10)) (two 0 0 3))).regs.frm = 3 ∧ (g0 (ran (.swrite (sys 0x10)) (two 0 0 5))).regs.frm = 0 ∧
    flags (ran (.swrite (sys 0x11)) (two 0 0 31)) 0 = 31 ∧ (g0 (ran (.swrite (sys 0x16)) (two 0 0 0x107))).tapel = 0x100 ∧
    (cp (ran (.swrite (sys 0x2B)) (cpu (setX [(3, 1024)])))).parkthr = 1024 ∧ (cp (ran (.swrite (sys 0x2B)) (cpu (setX [(3, 1023)])))).parkthr = 65536 := by
  decide
theorem test_quarantine : sget (g0 (ran (.qsub { s := false, d := 2, a := 1, g := 7 }) (grp (fun g => { g with q := [(1, 3), (2, 5)] })))).q 2 = 2 ∧
    sget (g0 (ran (.qread { s := false, d := 2, a := 5, g := 7 }) (grp id))).q 2 = 0 ∧ (g0 (ran (.admode { s := false, d := 2 }) (grp id))).adm = 2 := by
  decide
theorem test_cpost : ((ran (.cpost { s := false, a := 2, g := 1 }) (mem 7)).sys.core 0).mailbox.map (fun m => (m.lo, m.hi, m.mask)) = [(7, 0, 1)] := by decide
theorem test_strap : trap (ran (.strap { s := false, d := 8, a := 3, g := 1 }) (mem 0)) = some (.strap, 1) ∧
    pcs (ran (.strap { s := false, d := 8, a := 3, g := 1 }) (mem 0)) = [(4, 1), (4, 0xFFFFFFFE)] ∧
    trap (ran (.brk { s := false, a := 1, g := 7 }) (grp id)) = some (.brk, 0xFFFFFFFF) ∧
    ((ran (.brk { s := false, a := 1, g := 7 }) (cpu id)).sys.core 0).trapq = [.cp 0] := by decide
/-- A GUARD hint on p9, whose lanes are given, is pending for the group; its allotment is 64. -/
def guarded (p9 : LaneMask) (g : Group) : Group :=
  { g with allot := 64, frontier := g.frontier.map (fun e => { e with hints := { e.hints with guard := some { n := false, p := 9 } } })
           regs := { g.regs with p := sset g.regs.p 9 p9 } }
/-- GROW whose GUARD hint holds in no lane does nothing; a MOD hint of zeros changes nothing (R277, R279). -/
theorem test_grow_guard : pcs (ran (.grow { s := false, d := 1 }) (grp (guarded 0))) = [(4, 0xFFFFFFFF)] ∧
    (g0 (ran (.grow { s := false, d := 1 }) (grp (guarded 2)))).frontier.map (fun e => e.st) = [.grow 8 false] ∧
    stops (.nop { s := false, g := 7 }) (grp (fun g => { g with frontier := g.frontier.map (fun e => { e with hints := { e.hints with
      mod := some { l := false, q := false, k := false, e := 0, t := false, r := 0 } } }) })) = none := by decide
theorem test_grow : (g0 (ran (.shrink { s := false, d := 2 }) (grp id))).allot = 112 ∧
    (g0 (ran (.grow { s := false, d := 1 }) (grp (fun g => { g with allot := 64 })))).frontier.map (fun e => e.st) = [.grow 8 false] ∧
    stops (.grow { s := false, d := 1 }) (grp id) = some (.illegal, 0xFFFFFFFF) := by decide
theorem test_spawn : let t := ran (.spawn { s := false, d := 9, a := 4, g := 1 }) (mem 0 (setV [(0, 4, 0x40)]));
    v t 0 9 = 0 ∧ ((t.sys.core 0).bins.map (fun b => (b.2.st, b.2.entryOfs, b.2.threads))) = [(.filling, 0x40, [[0x88776655, 6, 7, 0]])] := by decide
/-- A record of zeros is refused (R73); a store that is full answers 1 to LAUNCH (R95). -/
theorem test_launch : v (ran (.deviceLaunch ft) (mem 0x180)) 0 4 = 2 ∧ v (ran (.launchw ft) (mem 0x180)) 0 4 = 2 := by decide

/-- A state with numbers of so many bytes in memory. -/
def wr (xs : List (Nat × Nat × Nat)) (s : State) : State := { s with mem := xs.foldl (fun m x => writeCells m (cellsAt x.1 (bytesOf x.2.1 x.2.2))) s.mem }
/-- A launch record (R73): code at heap offset 0, a priority map of one entry, one block of one group with 8 registers, LAUNCHID 77. -/
def record (a : Nat) : List (Nat × Nat × Nat) :=
  [(0x20, 4, 0), (0x28, 4, 0xFFFFFFFF), (a + 12, 4, 0x20), (a + 0x10, 4, 1), (a + 0x14, 4, 1), (a + 0x18, 4, 1), (a + 0x1C, 1, 1), (a + 0x1E, 1, 1),
   (a + 0x1F, 1, 1), (a + 0x20, 1, 8), (a + 0x40, 4, 77)]
/-- A full pending-launch store. -/
def full (s : State) : State :=
  { s with sys := { s.sys with launches := s.sys.launches ++ List.replicate 4096 { placedLaunch 9 with inStore := true } } }
theorem test_launch_record : (let t := ran (.deviceLaunch ft) (wr (record 0x180) (mem 0x180));
      v t 0 4 = 0 ∧ t.sys.launches.map (fun u => (u.inStore, u.record.launchId)) = [(false, 0), (true, 77)]) ∧
    v (ran (.launchw ft) (wr (record 0x180) (mem 0x180))) 0 4 = 0 := by decide

theorem witness_BarrierWords : iss (scr bar 0) (fun i => let y := (scr bar 0).sys; let d := barDesc ft;
      decide (i.check y (d true true false i) = .go ∧ i.first? 1 = some 0 ∧ i.barFail y bar.toNat = none ∧ i.real (i.act 1) = 1 ∧
        i.check y { d false false true i with drained := true } = .go ∧ y.released i.now i.agent (i.act 1) 7 4 = true ∧
        i.check y (d false true true i) = .go ∧ i.first? 2 = none ∧ i.check y (bwaitDesc ft i) = .go ∧ y.readError barFlat 16 0 = none ∧
        y.watchFree barFlat = true ∧ (∀ a ∈ y.accesses, a.undone = true → a.who ≠ i.agent)) &&
      decide (i.check y { g := 1, s := false, modOk := false, mem := true, once := true, even := [2], src := [2, 3] } = .go)) ∧
    iss (scr bar 0 (setV [(0, 4, 9)])) (fun i => decide (chkFail 4 2 i (scr bar 0).sys 0 = none)) ∧
    iss (mem 0x140) (fun i => let y := (mem 0x140).sys; decide (i.domFail y 0x140 = none ∧ y.released i.now i.agent (i.act 1) 7 5 = true ∧
      i.check y { g := 1, s := false, modOk := false, mem := true, once := true, drained := true, even := [2], src := [2, 3] } = .go)) ∧
    passes (grp id) { g := 7, s := false, modOk := false, dst := [3] } := by decide
theorem witness_SystemRegisters : [0x00, 0x01, 0x02, 0x03, 0x06, 0x09, 0x0B, 0x0C, 0x0D, 0x0F, 0x10, 0x11, 0x12, 0x13, 0x14, 0x15, 0x16, 0x17, 0x18, 0x19,
      0x1A, 0x1B].all (fun n => iss (grp id) (fun i => decide (i.check (grp id).sys (sysDesc (sys n) false i) = .go ∧ i.launch.isSome ∧ i.g.gix < 2 ^ 32 ∧
        i.g.allot < 2 ^ 32))) = true ∧
    [0x10, 0x11, 0x20, 0x21, 0x27, 0x28, 0x29, 0x2A, 0x2B, 0x2C, 0x2F].all (fun n => iss (cpu id) (fun i => decide (
      i.check (cpu id).sys (sysDesc (sys n) false i) = .go ∧ i.check (cpu id).sys (sysDesc (sys n) true i) = .go ∧ i.act 7 ≠ 0))) = true ∧
    [0x10, 0x11, 0x12, 0x13, 0x14, 0x15, 0x16, 0x17].all (fun n => iss (grp id) (fun i => decide (
      i.check (grp id).sys (sysDesc (sys n) true i) = .go ∧ i.act 7 ≠ 0))) = true ∧ iss (grp id) (fun i => i.act 0 == 0) := by decide
theorem witness_QuarantineModeAndMail : passes (grp id) { g := 7, s := false, agents := .groupOnly, bad := 7 < 7 || 7 < 7 } ∧
    iss (grp id) (fun i => i.act 7 != 0 && i.act 0 == 0 && i.g.lanes &&& ~~~i.e.mask == 0) ∧
    passes (grp (guarded 0)) { g := 7, s := false, agents := .groupOnly, drained := true } ∧
    iss (grp (guarded 0)) (fun i => i.act 7 == 0 && i.g.lanes &&& ~~~i.e.mask == 0) ∧
    passes (grp id) { g := 7, s := false, agents := .groupOnly, bad := 2 < 2, drained := true } ∧
    passes (mem 7) { g := 1, s := false, agents := .groupOnly, src := [2, 3], even := [2], once := true, drained := true } ∧
    ((mem 7).sys.core 0).mailbox.length < 64 ∧ iss (mem 7) (fun i => decide (i.first? 1 = some 0 ∧ i.first? 2 = none)) := by decide
theorem witness_ServiceCallsAndBreakpoints :
    passes (mem 0) { g := 1, s := false, agents := .groupOnly, src := regRange 8 6, drained := true } ∧
    passes (grp id) { g := 0, s := false, agents := .groupOnly, src := regRange 8 6, drained := false } ∧
    passes (mem 0) { g := 1, s := false } ∧ passes (cpu id) { g := 7, s := false } ∧
    iss (mem 0) (fun i => i.real (i.act 1) == 1 && i.real (i.act 2) == 0) ∧ iss (cpu id) (fun i => i.real (i.act 7) != 0) := by decide
theorem witness_AllotmentAndThreads :
    passes (grp (fun g => { g with allot := 64 })) { g := 7, s := false, agents := .groupOnly, drained := true, bad := 128 < 128 } ∧
    passes (grp id) { g := 7, s := false, agents := .groupOnly, drained := true, bad := 128 < 120 + 8, hz := some 0 } ∧
    passes (grp (guarded 0)) { g := 7, s := false, agents := .groupOnly, drained := true, hz := some 0 } ∧ iss (grp (guarded 0)) (fun i => i.act 7 == 0) ∧
    iss (grp id) (fun i => i.act 7 != 0) ∧
    ((({} : Core).spawn 0 1 4 [5]).map (fun c => c.bins.length)) = some 1 ∧
    passes (mem 0x180) { g := 1, s := false, src := regRange 4 5, dst := [9], agents := .groupOnly, drained := true } ∧
    passes (mem 0x180) { g := 1, s := false, src := [2, 3], dst := [4], even := [2], agents := .groupOnly, drained := true } ∧
    iss (wr (record 0x180) (mem 0x180)) (fun i => i.launch.isSome && isHeapPtr 0x180 && placedHeap.inside 0x180 128 &&
      (match i.reader (wr (record 0x180) (mem 0x180)) placedHeap 0x180 128 with
       | .ok b => (match (checkRecord (mem 0x180).sys 0 0 placedHeap false (i.reader (wr (record 0x180) (mem 0x180)) placedHeap) 0x180 (recordOf b)).1 with
         | .ok _ => true | .error _ => false)
       | .error _ => false)) := by decide
theorem witness_AllotmentAndThreads_full :
    4096 ≤ ((full (mem 0)).sys.launches.filter (fun x => x.part == 0 && x.inStore)).length := by decide
theorem witness_AllotmentAndThreads_bins :
    (((List.range 16).foldl (fun (c : Core) n => (c.spawn 0 1 (BitVec.ofNat 32 (4 * n)) []).getD c) {}).spawn 0 1 0x100 []) = none := by decide

/-! ### The control processor's service words (R373, R380 to R388) -/

/-- A trap of the group's lanes that has been taken. -/
def taken : TrapRec := { cause := .strap, remCause := 0, pc := 4, lanes := 1, whole := 1, addr := 0, prio := 0, ealcnt := 0, insn := 0, seq := 0
                         queued := false, taken := true }
/-- The control processor of core 0 serves group 3, which is held in a trap; x1 and x2 hold the handle and an argument. -/
def serves (sel : DWord) (f : Group → Group := id) (c : Cp → Cp := id) : State :=
  cpu (fun q => c (setX [(1, 3), (2, sel), (6, 0x55)] q)) (fun y => { y with groups := y.groups.map (fun g =>
    f { g with frontier := g.frontier.map (fun e => { e with st := .trapped taken }) }) })
def tf : FormTF := { s := false, d := 5, a := 1, g := 7 }
theorem test_gread : x (ran (.gread tf) (serves 0x10030 (setV [(1, 3, 9)]))) 6 = 9 ∧ x (ran (.gread tf) (serves 0x51 (setK [(5, 8)]))) 6 = 8 ∧
    x (ran (.gread tf) (serves 0xF)) 5 = 3 ∧ x (ran (.gread tf) (cpu (setX [(1, 3)]))) 5 = 2 ∧ x (ran (.gread tf) (cpu (setX [(1, 99)]))) 5 = 1 ∧
    x (ran (.gread tf) (serves 4)) 6 = 0x0005000000000000 ∧ x (ran (.gread tf) (serves 5)) 6 = 0xFFFFFFFF := by decide
theorem test_gwrite : v (ran (.gwrite tf) (serves 0x10030)) 1 3 = 0x55 ∧ x (ran (.gwrite tf) (serves 0x10030)) 5 = 0 ∧
    pcs (ran (.gwrite tf) (serves 4 id (setX [(6, 0x40)]))) = [(0x40, 0xFFFFFFFF)] ∧ x (ran (.gwrite tf) (serves 4)) 5 = 3 := by decide
theorem test_gresume : (g0 (ran (.gresume tf) (serves 0xFFFFFFFF))).frontier.map (fun e => e.st) = [.ready] ∧
    x (ran (.gresume tf) (serves 0xF)) 5 = 3 := by decide
theorem test_gkill_gpark : ((ran (.gkill tf) (serves 0)).sys.served 0 3).isNone ∧ x (ran (.gkill tf) (serves 0)) 5 = 0 ∧
    (cp (ran (.gpark tf) (serves 0))).gparkWait = some (3, 5) := by decide
theorem test_cppop : let s := cpu id (fun y => y.modCore 0 (fun c => { c with mailbox := [{ handle := 3, lo := 1, hi := 2, mask := 4, launchId := 5 }] }));
    let t := ran (.cppop { s := false, d := 5, g := 7 }) s; x t 5 = 3 ∧ x t 6 = 0x200000001 ∧ x t 7 = 0x500000004 ∧
      x (ran (.cppop { s := false, d := 5, g := 7 }) (cpu (setX [(5, 9)]))) 5 = 0 := by decide
theorem test_cpret : (cp (ran (.cpret (fg 7)) (cpu (fun c => { c with intrap := true, saved := 0x80 })))).pc = 0x80 ∧
    ((ran (.cpret (fg 7)) (cpu id)).sys.core 0).trapq = [.cp 0] := by decide
/-- SVCPOST with B = 4, code 9 and lane 0; a bad argument is 3 (R386). -/
theorem test_svcpost : let t := ran (.svcpost tf) (serves 0x100040009 (setV [(0, 4, 7)]));
    x t 5 = 0 ∧ (t.sys.part 0).svcq.map (fun q => (q.code, q.args)) = [(9, [(0, [7, 0, 0, 0, 0, 0])])] ∧ x (ran (.svcpost tf) (serves 0)) 5 = 3 := by decide
def reply : SvcReply := { seq := 0, vf := 0, status := 1, handle := 3, mask := 1, bytes := List.replicate 16 9 }
theorem test_svctake : let t := ran (.svctake tf) (cpu (fun c => setX [(1, 0x200)] { c with replies := [reply] }));
    x t 5 = 3 ∧ x t 6 = 0x100000001 ∧ asks t = [(.store (List.replicate 16 9), .home 0x200, .none)] ∧ x (ran (.svctake tf) (cpu id)) 5 = 0 := by decide

theorem witness_ControlProcessorService : let base : Desc := { g := 7, s := false, agents := .cpOnly };
    passes (cpu id) { base with dst := regRange 5 3, bad := 125 < 125 } ∧ passes (serves 0) { base with src := [1, 2], dst := [5, 6], bad := 126 < 126 } ∧
    passes (serves 0) { base with src := [1, 2, 6], dst := [5], bad := 126 < 126 } ∧ passes (serves 0) { base with src := [1, 2], dst := [5] } ∧
    passes (serves 0) { base with src := [1], dst := [5] } ∧ passes (cpu (fun c => { c with intrap := true })) { base with bad := !true } ∧
    passes (serves 0) { base with src := [1], dst := [5, 6], bad := 126 < 126 } ∧
    ((serves 0).sys.served 0 3).isSome ∧ ((serves 0).sys.served 0 4).isNone ∧ ((cpu id).sys.served 0 3).map Group.held = some false ∧
    ((serves 0).sys.served 0 3).map Group.held = some true ∧ ((serves 0).sys.freePark 0).isSome ∧
    ((match (serves 0).sys.heldGroup 0 3 with
      | .ok g => decide ((serves 0).sys.svcOut g = false ∧ ((serves 0).sys.launch? g.launch).isSome) | _ => false) : Bool) ∧
    iss (cpu (fun c => { c with replies := [reply] })) (fun i => decide (i.bufFail (cpu id).sys [0, 2, 3] .store 0x200 16 16 = none)) ∧
    iss (cpu id) (fun i => i.cp && i.act 7 != 0 && i.act 0 == 0) := by decide

/-! ### Engine and snapshot words (R173 to R185, R190 to R193, R230, R237, R374 to R379) -/

/-- The VF has one bank of distributed SRAM on each slice from bank 0 on. -/
def sram (y : Sys) : Sys := y.modVf 0 (fun w => { w with dsvalid := true, dsn := 1 })
/-- The control processor with x8 a pointer and x9 a channel. -/
def eng (xs : List (Nat × Nat × Nat)) (p : DWord := 0x400) (f : Sys → Sys := id) : State := wr xs (cpu (setX [(8, p), (9, 1)]) (fun y => f (sram y)))
def te : FormTF := { s := false, d := 4, a := 8, g := 7 }
/-- R176: 4-byte elements, one dimension of 64, from 0x1000 to 0x2000. -/
def shapeRec : List (Nat × Nat × Nat) := [(0x400, 8, 0x1000), (0x408, 8, 0x2000), (0x410, 1, 4), (0x411, 1, 1), (0x418, 4, 64)]
/-- R228: T = 2, K = 1, E = 1, rows of 16 bytes; the expert's entry holds chip 0 and a capacity of 2. -/
def routeRec : List (Nat × Nat × Nat) :=
  [(0x400, 4, 2), (0x404, 4, 0x10001), (0x410, 8, 0x1000), (0x420, 8, 0x1100), (0x428, 4, 16), (0x42C, 4, 16), (0x430, 8, 0x1200), (0x438, 8, 0x1300),
   (0x440, 8, 0x1400), (0x448, 8, 0x1500), (0x450, 8, 0x1600), (0x458, 8, 0x2000000000000000), (0x1204, 4, 2), (0x1208, 8, 0x3000),
   (0x1210, 8, 0x4000)]
def combineRec : List (Nat × Nat × Nat) :=
  [(0x400, 4, 2), (0x404, 4, 0x10001), (0x408, 4, 0x110000), (0x410, 8, 0x1000), (0x418, 8, 0x1080), (0x430, 8, 0x1200), (0x448, 8, 0x1500),
   (0x458, 8, 0x2000000000000000), (0x460, 8, 0x1700), (0x468, 4, 16), (0x46C, 4, 4), (0x1204, 4, 2), (0x1208, 8, 0x3000), (0x1210, 8, 0x4000)]
def digestRec : List (Nat × Nat × Nat) := [(0x400, 8, 0x1000), (0x408, 2, 1), (0x410, 8, 0x2000)]
def kinds (s : State) : List (CmdKind × CmdStatus) := s.sys.cmds.map (fun c => (c.kind, c.status))
theorem test_copy : kinds (ran (.copy te) (eng shapeRec)) = [(.copy, .running)] ∧ x (ran (.copy te) (eng shapeRec)) 4 = 4 ∧
    kinds (ran (.copy te) (eng [])) = [(.copy, .invalid)] := by decide
theorem test_chopen : let t := ran (.chopen te) (eng shapeRec);
    kinds t = [(.channel 1, .running)] ∧ (tget (t.sys.core 0).channels 1 {}).isOpen ∧
    (let u := ran (.chclose { s := false, a := 1, g := 7 }) { t with sys := { t.sys with cur := some (.cp 0) } };
      (tget (u.sys.core 0).channels 1 {}).isOpen = false) := by decide
theorem test_route : kinds (ran (.route te) (eng routeRec)) = [(.route, .running)] ∧ kinds (ran (.route te) (eng [])) = [(.route, .invalid)] ∧
    kinds (ran (.combine te) (eng combineRec)) = [(.combine, .running)] ∧ kinds (ran (.digest te) (eng digestRec)) = [(.digest, .running)] := by decide
theorem test_cmdstat : let t := ran (.copy te) (eng shapeRec);
    x (ran (.cmdstat { te with d := 10, a := 4 }) t) 10 = 0 ∧ x (ran (.cmdcancel { te with d := 10, a := 4 }) t) 10 = 0 ∧
    x (ran (.cmdstat te) (eng [])) 4 = 0xFFFFFFFFFFFFFFFF ∧ x (ran (.cmdcancel te) (eng [])) 4 = 2 := by decide
/-- R190: sink 0, colour 0, no regions. -/
def snapRec : List (Nat × Nat × Nat) := [(0x400, 4, 0x10000)]
def withSink (y : Sys) : Sys := y.modPart 0 (fun q => { q with sinks := [(0, { kind := 1, base := 0x8000, len := 0x10000 })] })
theorem test_snap : x (ran (.snap te) (eng snapRec 0x400 withSink)) 4 = 0x100000000 ∧ x (ran (.snap te) (eng snapRec)) 4 = 3 ∧
    x (ran (.snapst { te with a := 0 }) (eng [])) 4 = 0 := by decide

theorem witness_EngineWords : let base : Desc := { g := 7, s := false, src := [8], dst := [4], agents := .cpOnly };
    passes (eng []) base ∧ passes (eng []) { base with src := [8, 9], bad := true && 126 < 8 } ∧
    passes (eng []) { g := 7, s := false, agents := .cpOnly } ∧ passes (eng []) { base with dst := [4, 5], bad := 4 % 2 == 1 } ∧
    passes (eng []) { g := 7, s := false, src := [8], dst := [4] } ∧
    iss (eng shapeRec) (fun i => let s := eng shapeRec; decide (i.act 7 ≠ 0 ∧ i.act 0 = 0 ∧ s.sys.openCmds 0 < 64 ∧ s.sys.cpQuiet 0 = true ∧ s.sys.cmd? s.sys.nextId = none ∧
      (i.ctx s.sys).failure s.sys 0 .load 128 64 { lane := 0, base := 0x400, ea := 0x400 } = none) &&
      (match readRecord s (i.ctx s.sys) 0x400 2 with
       | .ok b => let h := shapeOf b; decide (h.fails s (i.newCmd s.sys .copy 0x400 b).1.ctx = none ∧ h.channelFails = none ∧ h.bar = 0)
       | .error _ => false)) ∧
    iss (eng []) (fun i => match readRecord (eng []) (i.ctx (eng []).sys) 0x400 2 with
      | .ok b => ((shapeOf b).fails (eng []) (i.newCmd (eng []).sys .copy 0x400 b).1.ctx).isSome | .error _ => false) := by decide
def routedIn (route : Bool) (s : State) : Bool :=
  iss s (fun i => match readRecord s (i.ctx s.sys) 0x400 2 with
    | .ok b => let c := (i.newCmd s.sys .copy 0x400 b).1.ctx; let r := routingOf b;
      (routingChecks s.sys c route b).all (fun z => z.1) && decide (0 ∈ (s.sys.part 0).groupMembers r.cgroup) &&
      (match readExperts s c r.extab r.e with | .ok ex => (expertsFail false r.extab ex r.e).isNone | .error _ => false) &&
      (match (i.engineCtx s.sys).place s.sys 0 r.bar 16 with | .home f _ => !(readBar s.mem f).inv && s.sys.watchFree f | _ => false)
    | .error _ => false)
theorem witness_EngineWords_routing : routedIn true (eng routeRec) ∧ routedIn false (eng combineRec) ∧
    iss (eng digestRec) (fun i => let s := eng digestRec; match readRecord s (i.ctx s.sys) 0x400 1 with
      | .ok b => (digestChecks s.sys (i.newCmd s.sys .copy 0x400 b).1.ctx b).all (fun z => z.1) && field b 0x18 8 == 0 | .error _ => false) ∧
    iss (eng snapRec 0x400 withSink) (fun i => let s := eng snapRec 0x400 withSink; match readRecord s (i.ctx s.sys) 0x400 1 with
      | .ok b => (match snapValid s 0 0 (i.ctx s.sys).heap 0x400 b with | .ok _ => true | .error _ => false) | .error _ => false) ∧
    iss (eng []) (fun i => match readRecord (eng []) (i.ctx (eng []).sys) 0x400 1 with
      | .ok b => (match snapValid (eng []) 0 0 (i.ctx (eng []).sys).heap 0x400 b with | .ok _ => false | .error _ => true) | .error _ => false) ∧
    ((ran (.copy te) (eng shapeRec)).sys.cpCmd 0 4).isSome ∧ ((eng []).sys.cpCmd 0 4).isNone ∧
    (tget ((eng []).sys.core 0).channels 1 {}).isOpen = false ∧ (tget ((ran (.chopen te) (eng shapeRec)).sys.core 0).channels 1 {}).isOpen := by decide

/-! ### Matrix words (R347 to R364) -/

/-- The whole group, with MPB at 0x40 of the scratchpad window: barrier at its start, operands at 0x400 and 0x800, one step, the drain
format given, and the drain pointer 0x1000 of heap. -/
def mx (fmt : Nat) (f : Group → Group := id) : State :=
  let s := scr bar 0 (fun g => setP [(1, 0xFFFFFFFF)] (f { g with regs := { g.regs with mpb := bar + 0x40 } }))
  wr [(barFlat + 0x40, 8, bar.toNat), (barFlat + 0x48, 8, bar.toNat + 0x400), (barFlat + 0x50, 8, bar.toNat + 0x800),
      (barFlat + 0x58, 4, 1 + fmt * 2 ^ 24), (barFlat + 0x68, 8, 0x1000)]
    { s with sys := { s.sys with launches := s.sys.launches.map (fun u => { u with record := { u.record with gpb := 4 } }) } }
def mma (t : BitVec 5) (d a : BitVec 7) : FormMma := { s := false, d := d, a := a, t := t, g := 7 }
/-- I8 (R354): 2 × 3 + 1 × 255 (−1) in row 0 and column 0, on an accumulator of 10. -/
theorem test_mma : ((g0 (ran (.mma (mma 4 32 8)) (mx 0 (setV [(0, 8, 0x0102), (0, 16, 0xFF03), (0, 32, 10)])))).mmas.map
      (fun m => (m.d, m.n, m.writes.head?))) = [(32, 32, some (32, 15))] ∧
    stops (.mma (mma 4 33 8)) (mx 0) = some (.illegal, 0xFFFFFFFF) := by decide
theorem test_mmaj : (g0 (ran (.mmaj (mma 4 64 8)) (mx 0))).mmaj.map (fun m => (m.a, m.d, m.barAddr, m.joined)) = some (8, 64, barFlat, false) ∧
    stops (.mmaj (mma 6 64 8)) (mx 0) = some (.illegal, 0xFFFFFFFF) := by decide
theorem test_mloop : (ran (.mloop { s := false, d := 5, t := 0, g := 7 }) (mx 0)).sys.mloops.map (fun m => (m.tile, m.aSteps, m.bSteps, m.bar)) =
      [(5, [(List.range 16).map (fun j => barFlat + 0x400 + 64 * j)], [(List.range 16).map (fun j => barFlat + 0x800 + 64 * j)], some barFlat)] ∧
    pcs (ran (.opfence (fg 7)) (mx 0)) = [(4, 0xFFFFFFFF)] ∧
    pcs (ran (.opfence (fg 7)) (mx 0 (fun g => { g with mmaj := (g0 (ran (.mmaj (mma 4 64 8)) (mx 0))).mmaj }))) = [(0, 0xFFFFFFFF)] := by decide
/-- The tile 5 of core 0 with a word in row 1 and column 2. -/
def tiled (s : State) : State := { s with sys := { s.sys with tiles := [(tileWord 0 5 34, 0x3F800000)] } }
theorem test_tile_words : v (ran (.adrainR { s := false, d := 5, a := 8, f := 0, g := 7 }) (tiled (mx 0))) 1 10 = 0x3F800000 ∧
    (ran (.azero { s := false, d := 5, g := 7 }) (tiled (mx 0))).sys.tile 0 5 1 2 = 0 ∧
    (ran (.aloadR { s := false, d := 5, a := 32, g := 7 }) (tiled (mx 0 (setV [(2, 35, 7)])))).sys.tile 0 5 2 3 = 7 := by decide
/-- With CPLX a drain to registers writes twice as many, and checks them all (R362). -/
theorem test_drain_pair : let s := fun (c : Nat) => wr [(barFlat + 0x5A, 1, c)] (mx 0 (fun g => { g with regs := { g.regs with pend := [(48, 8)] } }));
    stops (.adrainR { s := false, d := 4, a := 8, f := 0, g := 7 }) (s 0x80) = some (.hazard, 8) ∧
    stops (.adrainR { s := false, d := 4, a := 8, f := 0, g := 7 }) (s 0) = none := by decide
theorem test_tile_memory : ((asks (ran (.adrainM { s := false, d := 5, f := 0, g := 7 }) (tiled (mx 0)))).map (fun a => a.2.1)).take 2 =
      [.home 0x1000, .home 0x1080] ∧
    ((asks (ran (.aloadM { s := false, d := 5, g := 7 }) (mx 0))).map (fun a => (a.1, a.2.1))).take 2 = [(.load 128, .home 0x1000), (.load 128, .home 0x1080)] ∧
    ((asks (ran (.adrainU { s := false, d := 5, f := 0, g := 7 }) (wr [(0x1088, 4, 0x40000000)] (tiled (mx 0))))).map (fun a => a.2.1)).take 1 =
      [.home 0x1000] := by decide

def passesM (s : State) (f : Iss → Desc) : Bool := iss s (fun i => let d := f i;
  decide (i.check s.sys { d with agents := .groupOnly, mem := d.mem && i.act d.g != 0
                                 hz := some (if i.act d.g != 0 then i.hazard { d with agents := .groupOnly } i.e.mask else 0) } = .go))
def goodMpb (s : State) (tile f : Nat) (upd : Bool) : Bool :=
  iss s (fun i => decide (i.act 7 ≠ 0 ∧ i.g.lanes &&& ~~~i.e.mask = 0 ∧ i.tileLost s.sys [tile] = false ∧ s.sys.tileBusy 0 [tile] = false ∧
    i.matrixLine s.sys.insn = none ∧ s.sys.tileHurt 0 [tile] = false ∧ s.sys.accesses = [] ∧ s.sys.mloops = [] ∧
    s.sys.tileStalls 0 tile = false) && (match i.readMpb s with
    | .ok m => !m.rsvd && !m.cplx && decide (1 ≤ m.ksteps) && m.ainc % 64 == 0 && m.binc % 64 == 0 && !drainBad m tile f upd i.det &&
        (match i.mpbBar s.sys m.bar with | .ok (some f) => f == barFlat | _ => false) &&
        (match i.noise s m f upd with | .ok (_, _, log) => log.isEmpty | .error _ => false)
    | .error _ => false))
theorem witness_MatrixProductsAndLoops : passesM (mx 0) (mmaDesc (mma 4 32 8) false) ∧ passesM (mx 0) (mmaDesc (mma 6 64 8) false) ∧
    passesM (mx 0) (fun i => { mmaDesc (mma 4 64 8) true i with bad := (mmaDesc (mma 4 64 8) true i).bad || i.g.block.isNone || 4 ≤ i.g.gix / 4 * 4 + 3 }) ∧
    passesM (mx 0) (fun _ => { g := 7, s := false, bad := 7 < 7 || (isComplex 7 && 4 % 2 == 1) }) ∧ passesM (mx 0) (fun _ => { g := 7, s := false }) ∧
    goodMpb (mx 0) 5 0 false ∧ iss (mx 0) (fun i => i.g.mmaj.isNone && i.act 0 == 0 &&
      decide (i.addrFail (mx 0).sys .load 1024 64 { lane := 0, base := bar.toNat + 0x400, ea := bar.toNat + 0x400 } = none)) := by decide
theorem witness_TileReadsAndWrites :
    passesM (mx 0) (fun _ => { g := 7, s := false, dst := regRange 8 (drainRegs 0 false), mem := true, bad := 8 % 8 != 0 }) ∧
    passesM (mx 0) (fun _ => { g := 7, s := false, mem := true, bad := false }) ∧
    passesM (mx 0) (fun _ => { g := 7, s := false, src := regRange 32 32, bad := 32 % 32 != 0 }) ∧ goodMpb (mx 0) 5 0 false ∧ goodMpb (mx 0) 5 0 true ∧
    goodMpb (mx 1) 5 1 false ∧
    iss (mx 0) (fun i => let y := (mx 0).sys; decide (8 + drainRegs 0 false ≤ i.g.allot ∧ i.runFail y .store 0x1000 4096 4 = none ∧
      i.runFail y .load 0x1000 4096 4 = none ∧ i.runQuiet y 0x1000 4096 = true ∧ (y.freeSlot i.g).isSome ∧ y.taped i.g.launch = false)) := by decide
theorem witness_TileReadsAndWrites_pair : let s := wr [(barFlat + 0x5A, 1, 0x80)] (mx 0);
    passesM s (fun _ => { g := 7, s := false, dst := regRange 8 (drainRegs 0 true), mem := true }) ∧
    iss s (fun i => decide (i.tileLost s.sys [4, 5] = false ∧ s.sys.tileBusy 0 [4, 5] = false ∧ s.sys.tileHurt 0 [4, 5] = false) && (match i.readMpb s with
      | .ok m => m.cplx && !drainBad m 4 0 false i.det && (match i.noise s m 0 false with | .ok _ => true | .error _ => false)
      | .error _ => false)) := by decide
theorem witness_TileReadsAndWrites_update : iss (mx 0) (fun i => match i.readRun (mx 0) 0x1000 4096 with | .ok _ => true | .error _ => false) := by decide

/-! ### Operations and events: power, links and time (R18 to R31, R45, R61, R62) -/

/-- What an event leaves of a state. -/
def ev (e : Event) (s : State) : State := ran e.row (at_ e s)
/-- The placed state with its package changed. -/
def pk (f : Sys → Sys) : State := { placed with sys := f placed.sys }
def later (t : Nat) (s : State) : State := { s with gtime := t }

theorem test_power_on : (ev .powerOn placed).sys.resetStep = 0 ∧ (ev .powerOn placed).sys.groups = [] ∧ (ev .powerOn placed).mem = placed.mem := by decide
theorem test_reset_steps : let s := fun n => ev .resetStepComplete (later 77 (pk (fun y => { y with resetStep := n })));
    (s 2).gtime = 0 ∧ (s 2).boots = 1 ∧ (s 0).sys.resetStep = 1 ∧ (s 8).sys.resetStep = 8 ∧
    (ev .resetStepComplete (pk (fun y => { y with resetStep := 1, fw := { y.fw with version := 5 } }))).fuse = 5 ∧
    (ev .resetStepComplete (pk (fun y => { y with resetStep := 1, fw := { y.fw with digestOk := false } }))).sys.resetStep = 1 := by decide
theorem test_voltage : (ev (.inputVoltageFault 47999) placed).sys.poweredDown ∧ (ev (.inputVoltageFault 48000) placed).sys.poweredDown = false ∧
    (ev (.inputVoltageFault 58501) placed).sys.poweredDown ∧ (ev (.inputVoltageFault 58500) placed).sys.poweredDown = false := by decide
/-- One die without a cap of its own: 3400 ÷ 12 W, and half of it with hot coolant (R19, R20). -/
theorem test_coolant : let s := ev (.coolantFault 46 2500) placed;
    (s.sys.part 0).capInForce = (3400, 24) ∧ s.sys.coolantFault ∧ ((ev (.coolantRestored 45 2500) s).sys.part 0).capInForce = (3400, 12) ∧
    (ev (.powerCapWindow [(0, 283)]) placed).sys.capHeld 0 = 0 ∧ placed.sys.overCap 0 [(0, 283)] = false ∧ placed.sys.overCap 0 [(0, 284)] := by decide
theorem test_junction : ((ev (.junctionThrottle 0) placed).sys.die 0).hot ∧ ((ev (.junctionBelowThrottle 0) placed).sys.die 0).hot = false ∧
    (let t := ev (.junctionTrip 0) placed; (t.sys.die 0).stopped ∧ t.sys.groups.all (fun g => g.killed) ∧ (t.sys.part 0).eal.length = 1 ∧
      t.sys.events = [(.junctionTrip, 0)]) ∧ (ev (.controlParityError 3) placed).sys.events = [(.parity, 3)] := by decide
theorem test_patrol : let s := pk (fun y => { y with eccCorrectable := [0x40], eccBad := [0x80] });
    (ev (.patrolScrub 0x47) s).sys.eccCorrectable = [] ∧ (ev (.patrolScrub 0x47) s).sys.corrected = 1 ∧
    ((ev (.patrolScrub 0xBF) s).sys.part 0).ealcnt = 1 ∧ (ev (.patrolScrub 0xBF) s).sys.eccBad = [0x80] := by decide
theorem test_wear : ((ev .peolUpdate (later 3600000000000 placed)).sys.wearOf 0xFFF).updates = 1 ∧
    ((ev .peolUpdate (later 3600000000000 placed)).sys.wearOf 3).peol = 0xFFFFFFFF := by decide

theorem witness_PowerOnAndReset : (at_ .powerOn placed).sys.ev = some .powerOn ∧
    (let s := at_ .resetStepComplete (pk (fun y => { y with resetStep := 4 })); s.sys.ev = some .resetStepComplete ∧ s.sys.poweredDown = false ∧
      s.sys.resetStep = 4 ∧ s.sys.fw.digestOk ∧ s.fuse ≤ s.sys.fw.version) := by decide
theorem witness_PowerWearAndScrub : (placed.sys.part 0).valid ∧ (placed.sys.partOfDie 0) = some 0 ∧ (placed.sys.partOfDie 3) = none ∧ placed.sys.cmds = [] ∧
    (3600000000000 + (placed.sys.wearOf 0xFFF).peoltime.toNat ≤ (later 3600000000000 placed).gtime) ∧ placed.sys.partOfFlat 0x80 = some 0 ∧
    eccWord 0xBF = 0x80 ∧ (at_ (.patrolScrub 0xBF) placed).sys.ev = some (.patrolScrub 0xBF) := by decide

/-- Port 2 changed. -/
def port (f : Port → Port) : State := pk (fun y => y.modPort 2 f)
def header (t : BitVec 4) (seq : BitVec 12) : LinkHeader := { ftype := t, seq := seq, ack := 0xFFF, creq := 0, crsp := 0, cctl := 0, keysel := false, rsvd := 0 }
def linkKey : LinkKey := { key := 0, salt := 0, base := 0 }
def keyedPort (p : Port) : Port := { p with rxKeys := [(false, linkKey)], txKeys := [(false, linkKey)] }
/-- A slot whose header and tag stand before a good CRC; its transaction area is zeros. -/
def slotOf (t : BitVec 4) (seq : BitVec 12) (tag : List Byte) (errors : List (Nat × Byte) := []) : RxSlot :=
  let b := bytesOf 8 (header t seq).num ++ List.replicate 208 0 ++ slice tag 0 16
  { bytes := b ++ bytesOf 8 (crc64 b).toNat ++ List.replicate 16 0, errors := errors }
/-- A read request of chip 5 to chip 1 of domain 7 (R33). -/
def pkt : Packet :=
  { blankPacket with typ := tRdreq, cls := 0, dlog := 1, slog := 5, sphys := 9, dom := 7, offset := 0x100 }
theorem test_lanes_of_port : ((ev (.laneFailure 2 true) placed).sys.port 2).lanes = 4 ∧ ((ev (.laneFailure 2 false) placed).sys.port 2).lanes = 0 ∧
    ((ev (.linkRekey 2 false true 9 1) (port keyedPort)).sys.port 2).rxKeys = [(false, linkKey), (true, ⟨9, 1, 0⟩)] ∧
    ((ev (.flitCounterLimit 2) (port (fun p => { keyedPort p with txCounter := 2 ^ 47 }))).sys.port 2).txKeys = [] ∧
    ((ev (.flitCounterLimit 2) (port (fun p => { keyedPort p with txCounter := 2 ^ 47 - 1 }))).sys.port 2).txKeys = [(false, linkKey)] := by decide
theorem test_transmit : let t := (ev (.flitTransmit 2) (port (fun p => { keyedPort p with queue := [pkt] }))).sys.port 2;
    t.txSeq = 1 ∧ t.queue = [] ∧ t.sent.map (fun x => (x.header.ftype, x.header.seq, x.units.length)) = [(1, 0, (encodePacket pkt).length)] ∧
    t.credit pkt.vc = 30 ∧ ((ev (.flitTransmit 2) (port (fun p => { keyedPort p with askRetry := true }))).sys.port 2).sent.map (fun x => x.header.ftype) = [2] ∧
    ((ev (.flitTransmit 2) (port keyedPort)).sys.port 2).sent.map (fun x => x.header.ftype) = [0] ∧ ((ev (.flitTransmit 2) placed).sys.port 2).sent = [] := by
  decide
/-- Nine byte errors spoil a flit, eight are corrected; packets of an accepted flit wait in the buffer of their channel. -/
theorem test_receive : let bad := (List.range 9).map (fun j => (40 + j, (0xA5 : Byte)));
    (slotOf 1 0 [] bad).crcGood = false ∧ (slotOf 1 0 [] (bad.take 8)).corrected = (slotOf 1 0 []).corrected ∧
    ((ev (.flitReceive 2 (slotOf 1 0 [] bad)) (port keyedPort)).sys.port 2).corrupt = 1 ∧
    ((ev (.flitReceive 2 (slotOf 1 0 [] bad)) (port keyedPort)).sys.port 2).askRetry ∧
    (let y := (port keyedPort).sys.deliverFlit 0 2 (encodePacket pkt); y.inbox = [pkt] ∧ (y.port 2).rxBuf = [(pkt.vc, [pkt])]) := by decide
/-- The layout of R28: FTYPE, SEQ, ACK, three credits, KEYSEL. -/
theorem test_link_header : ({ ftype := 1, seq := 2, ack := 3, creq := 4, crsp := 5, cctl := 6, keysel := true, rsvd := 0 } : LinkHeader).num =
      1 + 2 * 16 + 3 * 65536 + 4 * 2 ^ 28 + 5 * 2 ^ 33 + 6 * 2 ^ 38 + 2 ^ 43 ∧ headerOf (header 1 0xABC).num = header 1 0xABC := by decide
/-- The check value of CRC-64 of ECMA-182; the S-box and MixColumns examples of FIPS 197; SHA-512 of "abc" in FIPS 180-4. -/
theorem test_standards : crc64 [0x31, 0x32, 0x33, 0x34, 0x35, 0x36, 0x37, 0x38, 0x39] = 0x6C40DF5F0B497347 ∧ aesSub 0x53 = 0xED ∧
    (aesMix ([0xDB, 0x13, 0x53, 0x45] ++ List.replicate 12 0)).take 4 = [0x8E, 0x4D, 0xA1, 0xBC] ∧
    (sha512 [0x61, 0x62, 0x63]).take 4 = [0xDD, 0xAF, 0x35, 0xA1] := by decide +kernel
theorem test_retry : ((ev (.retryRequest 2 0) (port (fun p => { keyedPort p with retryBuf := [(0, []), (1, [])] }))).sys.port 2).retryDue = [1] ∧
    (ev (.retryRequest 2 0xFFF) (port (fun p => { keyedPort p with retryCount := 15 }))).sys.events = [(.retrain, 2)] := by decide
theorem test_port_list : tget (ev (.portListWrite 9 [2, 3] true) placed).sys.portLists 9 [] = [2, 3] ∧
    (ev (.timeReferenceNamed 7 0) placed).sys.aligned ∧ tget (ev (.timeReferenceNamed 7 5) placed).sys.reference 7 0 = 5 := by decide
/-- The stamps 100, 300, 320 of an exchange and the response 140: the clock is (300 - 100 - (140 - 320)) ÷ 2 = 190 ahead (R45). -/
def exchange : State :=
  later 500 (pk (fun y => { (y.modPort 2 (fun p => { p with timexStamps := [(1, 100), (2, 300), (3, 320)] })) with
    reference := [(7, 1)], firstAligned := true, inbox := [{ blankPacket with typ := tTimex, op := 3, len := 1, payload := [140] }] }))
theorem test_timex : (ev (.timex 2 .delayResponse 140) exchange).sys.slew = -190 ∧ (ev (.timex 2 .delayResponse 140) exchange).sys.aligned = false ∧
    ((ev .timexSend (later 1000000 (port keyedPort))).sys.port 2).lastTimex = 1000000 ∧
    (ev .timeWide (later 100000000 (pk (fun y => { y with reference := [(7, 1)] })))).sys.wide := by decide
theorem witness_LinksAndTime : ((port keyedPort).sys.port 2).up ∧ keyInUse (keyedPort {}).txKeys false 0 = some linkKey ∧
    keyInUse (keyedPort {}).rxKeys false 0 = some linkKey ∧ (∀ n ∈ [0, 1, 2, 3, 5], (slotOf (BitVec.ofNat 4 n) 0 []).header = header (BitVec.ofNat 4 n) 0 ∧
      (slotOf (BitVec.ofNat 4 n) 0 []).crcGood) ∧ (∀ n ∈ [2, 3, 17], n < 18) ∧ exchange.sys.isReference = false ∧
    (exchange.sys.inbox.find? (fun p => p.typ == tTimex && p.op.toNat == timexCode .delayResponse && (p.payload.headD 0).toNat % 2 ^ 64 == 140)).isSome ∧
    (exchange.sys.port 2).timexStamps.find? (fun x => x.1 == 1) = some (1, 100) ∧
    (let s := pk (fun y => { y with reference := [(7, 1)] }); s.sys.wide = false ∧ s.sys.isReference = false ∧ s.sys.lastExchange + 100000000 ≤ 100000000) := by
  decide

theorem keys_length : ∀ k ∈ linkKey.rounds, k.length = 16 := by decide +kernel
theorem tag_length (n : Nat) (h c : List Byte) : (gcmTag linkKey.rounds (linkKey.iv n) h c).length = 16 := by
  have hk := keys_length
  have h0 : ∀ b : List Byte, b.length = 16 → (aesBlock linkKey.rounds b).length = 16 := by
    intro b hb
    refine aesRounds_length _ _ (fun k hk' => hk k (List.mem_of_mem_tail hk')) ?_
    have hne : linkKey.rounds.head?.getD [] ∈ linkKey.rounds := by
      cases h' : linkKey.rounds with
      | nil => exact absurd (congrArg List.length h') (by decide)
      | cons a r => simp
    simp [xorBytes, hk _ hne, hb]
  simp [gcmTag, xorBytes, h0, gcmCounter, LinkKey.iv, bytesOf_length]

theorem good_slot (x : RxSlot) (h : DWord) (tag c : List Byte) (he : x.errors = [])
    (hb : x.bytes = bytesOf 8 h.toNat ++ (List.replicate 208 0 ++ (tag ++ (c ++ List.replicate 16 0)))) (ht : tag.length = 16)
    (hc : c = bytesOf 8 (crc64 (x.bytes.take 232)).toNat) (k : LinkKey) (n : Nat)
    (hg : tag = gcmTag k.rounds (k.iv n) (bytesOf 8 h.toNat) (List.replicate 208 0)) : x.crcGood = true ∧ x.tagGood k n = true := by
  have hl : c.length = 8 := by rw [hc, bytesOf_length]
  have hx : x.corrected = x.bytes := corrected_clean x he (by simp [hb, bytesOf_length, ht, hl])
  have h1 : slice x.bytes 0 8 = bytesOf 8 h.toNat := by
    rw [hb]; exact slice_mid [] _ _ 8 (bytesOf_length _ _)
  have h2 : slice x.bytes 8 208 = List.replicate 208 0 := by
    have := slice_mid (bytesOf 8 h.toNat) (List.replicate 208 0) (tag ++ (c ++ List.replicate 16 0)) 208 (by simp)
    rwa [← hb, bytesOf_length] at this
  have h3 : slice x.bytes 216 16 = tag := by
    have := slice_mid (bytesOf 8 h.toNat ++ List.replicate 208 0) tag (c ++ List.replicate 16 0) 16 ht
    rwa [List.append_assoc, ← hb, List.length_append, bytesOf_length, List.length_replicate] at this
  have h4 : slice x.bytes 232 8 = c := by
    have := slice_mid (bytesOf 8 h.toNat ++ List.replicate 208 0 ++ tag) c (List.replicate 16 0) 8 hl
    rw [List.append_assoc, List.append_assoc, ← hb] at this
    simpa only [List.length_append, bytesOf_length, List.length_replicate, ht] using this
  constructor
  · rw [RxSlot.crcGood, hx, h4, hc, numOf_bytesOf _ _ (BitVec.isLt _)]; exact beq_self_eq_true _
  · rw [RxSlot.tagGood, hx, h1, h2, h3, hg]; exact beq_self_eq_true _

theorem slotOf_bytes (t : BitVec 4) (n : BitVec 12) (tag : List Byte) (h : tag.length = 16) :
    (slotOf t n tag).bytes = bytesOf 8 (header t n).num ++ (List.replicate 208 0 ++ (tag ++
      (bytesOf 8 (crc64 ((slotOf t n tag).bytes.take 232)).toNat ++ List.replicate 16 0))) := by
  have hs : slice tag 0 16 = tag := by simp [slice, h, List.take_of_length_le]
  have hb : (slotOf t n tag).bytes.take 232 = bytesOf 8 (header t n).num ++ List.replicate 208 0 ++ tag := by
    simp only [slotOf, hs, List.append_assoc]
    rw [← List.append_assoc, ← List.append_assoc, List.take_left']
    · simp only [List.append_assoc]
    · simp [bytesOf_length, h]
  rw [hb]; simp only [slotOf, hs, List.append_assoc]
/-- A flit slot whose CRC and tag are good. -/
theorem witness_LinksAndTime_tag (t : BitVec 4) (n : BitVec 12) : let x := slotOf t n (gcmTag linkKey.rounds (linkKey.iv 0)
    (bytesOf 8 (header t n).num) (List.replicate 208 0)); x.crcGood = true ∧ x.tagGood linkKey 0 = true := by
  intro x
  have hn : (BitVec.ofNat 64 (header t n).num).toNat = (header t n).num := by
    simp [header, LinkHeader.num]; omega
  exact good_slot x (BitVec.ofNat 64 (header t n).num) _ _ rfl (by rw [hn]; exact slotOf_bytes t n _ (tag_length ..)) (tag_length ..) rfl
    _ _ (by rw [hn])

/-! ### Packets and ticks (R33 to R47) -/

/-- Partition 0 is logical chip 1 of domain 7, its heap is its fabric window, and packets have been received. -/
def joined (ps : List Packet) (f : Sys → Sys := id) : State :=
  pk (fun y => f { ((y.modPart 0 (fun q => { q with joined := true, dom := 7, lchip := 1 })).modVf 0 (fun w => { w with
    heap := { w.heap with fab := true } })) with inbox := ps, portLists := [(9, [2])] })
def answers (s : State) : List (BitVec 4 × List PUnit) := (s.sys.port 2).queue.map (fun p => (p.typ, p.payload))
def wreq : Packet := { pkt with typ := tWrreq, len := 2, payload := [0x3, 0x2211] }
def areq : Packet := { pkt with typ := tAtreq, len := 1, payload := [5] }
def creq : Packet := { pkt with typ := tContrib, op := 0x10, len := 1, payload := [0x3F800000] }
theorem test_rdreq : answers (ev (.rdreq pkt) (wr [(0x100, 4, 0x99)] (joined [pkt]))) = [(tRdrsp, [0x99])] ∧
    ((ev (.rdreq { pkt with rsvd := true }) (joined [{ pkt with rsvd := true }])).sys.part 0).ealcnt = 1 ∧
    (answers (ev (.rdreq { pkt with dlog := 3 }) (joined [{ pkt with dlog := 3 }]))).map Prod.fst = [tErrrsp] ∧
    (answers (ev (.rdreq { pkt with offset := 0x100000 }) (joined [{ pkt with offset := 0x100000 }]))).map Prod.fst = [tErrrsp] := by decide
theorem test_wrreq : let t := ev (.wrreq wreq) (joined [wreq]); readBytes t.mem 0x100 2 = [0x11, 0x22] ∧ (answers t).map Prod.fst = [tWrack] ∧
    readBytes (ev (.atreq areq) (wr [(0x100, 4, 3)] (joined [areq]))).mem 0x100 4 = [8, 0, 0, 0] ∧
    (answers (ev (.atreq areq) (wr [(0x100, 4, 3)] (joined [areq])))).map (fun a => (a.1, a.2.map (fun u => u.toNat % 2 ^ 64))) = [(tAtrsp, [3])] ∧
    readBytes (ev (.contrib creq) (joined [creq])).mem 0x100 4 = [0, 0, 0x80, 0x3F] := by decide
/-- A load over the fabric in flight, with the tag of slot 0 and element 0, and its answers. -/
def flying (p : Packet) (f : Access → Access := id) : State :=
  joined [p] (fun y => { y with accesses := [f { portAccess 0 pkt (.load 4) 0 0 with
    id := 50, who := .group 3, target := .fabric 5 0 0x100, dest := .v 4 1, wait := 1, packet := some { pkt with slog := 1, dlog := 5 }, sent := true
    slot := some 0, st := .inFlight }] })
def rsp (t : BitVec 4) (u : PUnit) : Packet := { pkt with typ := t, len := 1, payload := [u] }
def ended (s : State) : List AccState := s.sys.accesses.map (fun a => a.st)
theorem test_responses : ended (later 5 (ev (.rdrsp (rsp tRdrsp 0x44332211)) (flying (rsp tRdrsp 0x44332211)))) = [.performed [0x11, 0x22, 0x33, 0x44] 0] ∧
    ended (ev (.wrack (rsp tWrack 9)) (flying (rsp tWrack 9) (fun a => { a with op := .store [1, 2, 3, 4], dest := .none, wait := 0 }))) = [.performed [] 9] ∧
    ended (ev (.atrsp (rsp tAtrsp 7)) (flying (rsp tAtrsp 7) (fun a => { a with op := .atomic .addB32 true 1 0 }))) = [.performed [7, 0, 0, 0, 0, 0, 0, 0] 0] ∧
    (ended (ev (.errrsp (rsp tErrrsp 10)) (flying (rsp tErrrsp 10)))).map (fun st => match st with | .failed c r _ _ => some (c, r) | _ => none) =
      [some (.remote, 10)] := by decide
theorem test_nack : let t := ev (.nack (rsp tNack 0x10004)) (flying (rsp tNack 0x10004));
    (t.sys.remapOf 7 5).phys = 4 ∧ (t.sys.remapOf 7 5).gen = 1 ∧ t.sys.accesses.map (fun a => (a.nacks, a.st)) = [(1, .inFlight)] := by decide
theorem test_timeouts : (ended (ev (.slotTimeout 3 0) (later 1000000 (flying pkt)))).map (fun st => match st with | .failed c _ _ _ => some c | _ => none) =
      [some .remote] ∧ ended (ev (.slotTimeout 3 0) (later 999999 (flying pkt))) = [.inFlight] ∧
    (let t := ev (.slotTimeout 0 50) (later 1000000 (flying pkt (fun a => { a with who := .cp 0, slot := none })));
      t.sys.accesses = [] ∧ (cp t).ownTrap.map (fun r => r.cause) = some .remote) ∧
    (ev (.tombstoneExpiry 7 1) (later 9 (pk (fun y => { y with tombstones := [{ dom := 7, lchip := 1, phys := 0, gen := 0, expiry := 9 }] })))).sys.tombstones =
      [] := by decide
/-- A deterministic job of chips 1 and 5 whose launch has started. -/
def job (t : TickState) (ps : List Packet := []) : State :=
  joined ps (fun y => { y with launches := y.launches.map (fun u => { u with record := { u.record with det := true, launchId := 77 }, ticks := { t with started := true, members := [1, 5] } }) })
def tend : Packet := { pkt with typ := tTickend, len := 1, payload := [BitVec.ofNat 128 (77 * 2 ^ 96 + 3 * 2 ^ 64 + 2)] }
theorem test_ticks : let u := placed.sys.launches.map (fun l => l.uid);
    u = [1] ∧ (ev (.tickRelease 1) (later 1000 (job {}))).sys.launches.map (fun l => l.ticks.released) = [1] ∧
    (ev (.tickRelease 1) (later 999 (job {}))).sys.launches.map (fun l => l.ticks.released) = [0] ∧
    (ev (.tickend tend) (job {} [tend])).sys.launches.map (fun l => l.ticks.ends) = [[(5, 2, 3)]] := by decide

/-- A packet has the form of its type, is next, and is for partition 0 of a state. -/
def arrives (s : State) (p : Packet) (typ : BitVec 4) : Bool :=
  decide (p.typ = typ ∧ s.sys.isNext p = true ∧ p.malformed = false ∧ s.sys.hostPart p.dom.toNat p.dlog.toNat = some 0 ∧ (s.sys.part 0).check p = .go ∧
    p.det = false)
theorem witness_PacketArrival : (at_ (.rdreq pkt) (joined [pkt])).sys.ev = some (.rdreq pkt) ∧ arrives (joined [pkt]) pkt tRdreq ∧
    (joined []).sys.isNext pkt = false ∧ ({ pkt with rsvd := true } : Packet).malformed ∧ (joined []).sys.hostPart 7 3 = none ∧
    ((joined []).sys.part 0).check { pkt with ca := true } = .wait ∧ ((joined []).sys.part 0).check { pkt with ca := true, ea := true } = .stale ∧
    (job {}).sys.detJob 0 5 0 = some 1 ∧ (joined []).sys.tombstone 0 7 3 = none := by decide
theorem witness_FabricTraffic : arrives (joined [wreq]) wreq tWrreq ∧ arrives (joined [areq]) areq tAtreq ∧ arrives (joined [creq]) creq tContrib ∧
    (let t := (joined [pkt]).took pkt 0; t.sys.fabPlace 0 0 0x100 4 = some (0x100, 1) ∧ t.sys.fabPlace 0 0 0x100000 4 = none ∧
      t.sys.readError 0x100 4 1 = none ∧ t.sys.writeError 0x100 2 1 = none ∧ t.sys.writeStalls 0x100 128 = false ∧ t.sys.contribFree 2 = true ∧
      t.sys.fabPlace 0 0 0x100 128 = some (0x100, 1) ∧ t.sys.fabPlace 0 0 0x100 1088 = some (0x100, 1)) ∧ atomOf 0 = some .addB32 ∧
    arrives (flying (rsp tRdrsp 0)) (rsp tRdrsp 0) tRdrsp ∧ (flying (rsp tRdrsp 0)).sys.answered 0 (rsp tRdrsp 0) ≠ [] ∧
    arrives (flying (rsp tNack 0x10004)) (rsp tNack 0x10004) tNack ∧
    (flying pkt).sys.accesses.all (fun a => a.isFabric && a.isFlight && decide (a.sentAt + 1000000 ≤ 1000000 ∧ a.who = .group 3 ∧ a.slot = some 0)) := by decide
theorem witness_DeterministicTicks : (job {}).sys.launches.all (fun l => l.record.det && l.ticks.started && !l.ticks.finalSent) ∧
    ((job {}).sys.launch? 1).isSome ∧ 0 < (job {}).sys.tickOf 1000 ∧ arrives (job {} [tend]) tend tTickend ∧
    (((job {} [tend]).took tend 0).sys.launches.find? (fun l => l.part == 0 && l.record.det && l.ticks.started && l.record.launchId.toNat == 77)).isSome := by
  decide

/-! ### Snapshots (R188 to R207) -/

/-- Colour A of partition 0 changed; its coordinator is this chip. -/
def col (f : Colour → Colour) (g : Part → Part := id) (ps : List Packet := []) : State :=
  joined ps (fun y => y.modPart 0 (fun q => g { q with coord := 1, stageunits := 2, sinks := [(0, { kind := 1, base := 0x0008000000008000, len := 0x10000 })],
                                                       colourA := f q.colourA }))
def colA (s : State) : Colour := s.sys.colour 0 false
def live (c : Colour) : Colour := { c with st := .live, headerBit := true, snapno := 1, sinks := 1 }
def point (c : Colour) : Colour := { c with trec := some 5, pendingNo := 9, sinks := 1 }
def pendingPage (c : Colour) : Colour := { live c with scope := [.heap 0 0 65536] }
theorem test_record_point : let t := ev (.recordPoint 0 false) (later 5 (col point));
    (colA t).st = .live ∧ (colA t).headerBit ∧ (colA t).snapno = 9 ∧ (colA t).deadline = some (5 + 1000000000) ∧
    (colA (ev (.recordPoint 0 false) (later 4 (col point)))).st = .free := by decide
theorem test_sweep : (colA (ev (.sweepCapture 0) (col pendingPage))).captured = [.heapPage 0 0] ∧
    (colA (ev (.sweepCapture 0) (col pendingPage (fun q => { q with unfreed := 2 ^ 27 })))).captured = [] ∧
    ((ev (.stagingFreed 0) (col id (fun q => { q with unfreed := 7 }))).sys.part 0).unfreed = 0 := by decide
/-- A record of eight bytes: 64 of header and 64 of body (R205). -/
theorem test_kite : let t := ev (.kiteRecordWrite 0) (col (fun c => { live c with staging := [{ rkind := 3, ident := 7, body := bytesOf 8 5, image := .bytes }] }));
    (colA t).written = 1 ∧ tget (colA t).sinkPos 0 0 = 128 ∧ t.sys.sunk.map (fun x => (x.snapno, x.body.rkind)) = [(1, 3)] ∧
    (colA (ev (.kiteRecordWrite 0) (col live))).endWritten ∧
    (let q := fun (q : Part) => { q with nvme := [(0, { inFlight := [(0, false, 1)] })] };
      (colA (ev (.nvmeCompletion 0 false true) (col (fun c => { live c with nvmePending := 2 }) q))).nvmePending = 1) := by decide
/-- 200 bytes of a stream in an NVMe sink of depth 4, the end record written: one Write of one block, and the doorbell's tail 1 (R204). -/
def toNvme : State := col (fun c => { live c with sinkPos := [(0, 200)], endWritten := true })
  (fun q => { q with sinks := [(0, { kind := 2, base := 0x0008000000008000, len := 0x10000, log2qd := 2, sqdb := 0x0008000000009000 })] })
theorem test_nvme : let t := ev (.kiteRecordWrite 0) toNvme; (colA t).nvmePending = 1 ∧ tget (colA t).blocks 0 0 = 1 ∧
    (tget (t.sys.part 0).nvme 0 {}).tail = 1 ∧ (tget (t.sys.part 0).nvme 0 {}).inFlight = [(0, false, 1)] ∧
    (toNvme.sys.part 0).nvmeLeft (colA toNvme) = some 0 ∧ toNvme.sys.slotFor 0 2 ∧ (colA toNvme).unnamed = false := by decide
theorem test_local_complete : (colA (ev (.localComplete 0 false) (col (fun c => { live c with endWritten := true })))).st ≠ .live ∧
    (colA (ev (.localComplete 0 false) (col live))).st = .live ∧
    (colA (ev (.snaptmoExpiry 0 false) (later 9 (col (fun c => { live c with deadline := some 9 }) (fun q => { q with coordA := { flag := true, awaited := [1] } }))))).st =
      .aborting := by decide
/-- A protocol message of chip 5 about colour A (R200). -/
def msg (kind : Nat) (count snapno reqcol : Nat) : Packet :=
  { pkt with typ := tMarker, len := 1, payload := [BitVec.ofNat 128 (8 * kind + count * 2 ^ 32 + snapno * 2 ^ 64 + reqcol * 2 ^ 108)] }
def said (e : Nat → SnapMsg → Event) (p : Packet) (f : Colour → Colour) (g : Part → Part := id) (t : Nat := 0) : State :=
  ev (e 0 (snapMsgOf p)) (later t (col f g [p]))
theorem test_messages : ((said .localdoneMsg (msg 1 0 0 0) live).sys.coord 0 false).localdone = [5] ∧
    (colA (said .completeMsg (msg 2 0 0 0) (fun c => { live c with st := .localdone }))).st = .quiet ∧
    ((said .freedMsg (msg 3 0 0 0) live (fun q => { q with coordA := { awaited := [5] } })).sys.coord 0 false).reopenAt = some 200000 ∧
    (colA (said .reopenMsg (msg 4 0 0 0) (fun c => { c with st := .quiet }))).epoch ∧
    ((said .reopenedMsg (msg 5 0 0 0) live (fun q => { q with coordA := { flag := true, awaited := [5] } })).sys.coord 0 false).flag = false := by decide
theorem test_requests : ((said .snapRequestMsg (msg 6 0 0 0) id).sys.part 0).grants = 1 ∧
    (let r : SnapReq := { cp := none, host := none, reqcol := 0, desc := [], regions := [] };
      (colA (said .grant (msg 7 0 6 0) id (fun q => { q with snapReqs := [r] }))).pendingNo = 6 ∧
      ((said .refuse (msg 8 0 0 0) id (fun q => { q with snapReqs := [r] })).sys.part 0).snapReqs = []) ∧
    (colA (said .abortMsg (msg 9 0 0 0) live (fun q => { q with coord := 5 }))).st = .aborting ∧
    (colA (said .abortMsg (msg 9 0 3 0) id (fun q => { q with coord := 5 }))).st = .quiet ∧
    tget (colA (said .tombcount (msg 10 3 0 0) live)).recv (chanKey 5 0) 0 = 3 := by decide
theorem test_marker : (colA (ev (.markerChannel (msg 0 3 8 0)) (col live id [msg 0 3 8 0]))).markers = [(chanKey 5 0, 3)] ∧
    (colA (ev (.markerChannel (msg 0 3 8 0)) (col id id [msg 0 3 8 0]))).trec = some 1000 ∧
    (colA (ev (.reopenTimer 0 false) (later 7 (col (fun c => { c with st := .quiet }) (fun q => { q with coordA := { awaited := [1], reopenAt := some 7 } }))))).st =
      .free := by decide
theorem witness_SnapshotRecording : (colA (col point)).st = .free ∧ (colA (col point)).trec = some 5 ∧ (colA (col point)).sinks ≠ 0 ∧
    ((col pendingPage).sys.part 0).colourA.nextGranule = some (.heapPage 0 0) ∧
    ((col pendingPage).sys.part 0).staged + 65536 ≤ ((col pendingPage).sys.part 0).stagingBytes ∧
    (let s := col (fun c => { live c with staging := [{ rkind := 3, ident := 7, body := bytesOf 8 5, image := .bytes }] });
      (s.sys.part 0).sinkFor (colA s) 128 = some 0 ∧ (colA s).st = .live ∧ (colA s).abortAsked = false) ∧
    ((col live).sys.physFlat ((col live).sys.sinkVf 0) 0x0008000000008000).map isHost = some true ∧
    (colA (col live)).nextGranule = none ∧ (colA (col live)).staging = [] ∧ (colA (col live)).chans = [] ∧
    (let q := (col live (fun q => { q with coordA := { flag := true, awaited := [1] } })).sys.part 0; q.coordinator = q.chip.toNat ∧ q.coordA.flag ∧
      q.coordA.awaited = [q.chip.toNat]) := by decide
theorem witness_SnapshotMessages : [msg 0 3 8 0, msg 1 0 0 0, msg 2 0 0 0, msg 6 0 0 0, msg 10 3 0 0].all (fun p => arrives (col live id [p]) p tMarker &&
      ((col live id [p]).sys.inbox.find? (fun q => q.typ == tMarker && !q.malformed && q.mkind == p.mkind &&
        (col live id [p]).sys.hostPart q.dom.toNat q.dlog.toNat == some 0 && snapMsgOf q == snapMsgOf p)) == some p) = true := by decide

/-! ### The management plane (R40 to R66) -/

/-- A request from the management link, and one of VF 4. -/
def link : MgmtReq := { seq := 3, vf := 0xFF }
def vf4 : MgmtReq := { seq := 3, vf := 4 }
/-- Code, status and what follows a management response's 16 bytes. -/
def said' (s : State) : List (Nat × Nat × List Byte) :=
  s.sys.answers.map (fun a => (a.code, a.status, if a.peer < 0x100 then a.bytes.drop 16 else a.bytes))
/-- REQ, STATUS and the sequence number stand in the first word of a response (R66). -/
theorem test_response : (ev (.readEntry { link with seq := 0x1234 } 99 0 0 2) placed).sys.answers.map (fun a => (a.bytes.length, field a.bytes 0 4)) =
    [(16, 0x12340302)] := by decide
theorem test_read_entry : said' (ev (.readEntry link 0 0 0 2) placed) = [(2, 0, [1, 0])] ∧ said' (ev (.readEntry link 0 0 0 65) placed) = [(2, 3, [])] ∧
    said' (ev (.readEntry link 99 0 0 2) placed) = [(2, 3, [])] ∧ said' (ev (.readEntry vf4 0 0 0 2) placed) = [(2, 2, [])] := by decide
/-- A second partition with die 0, which partition 0 holds, is refused; with die 1 and no keys it is not. -/
theorem test_write_entry : said' (ev (.writeEntry link 0 1 0 (bytesOf 4 0x10001)) placed) = [(1, 1, [])] ∧
    said' (ev (.writeEntry vf4 0 1 0 (bytesOf 4 2)) placed) = [(1, 2, [])] ∧ said' (ev (.writeEntry link 0 1 0 []) placed) = [(1, 3, [])] ∧
    said' (ev (.writeEntry link 1 5 1 (bytesOf 1 0x0C)) placed) = [(1, 1, [])] := by decide
theorem test_binding : (ev (.ldBind 3 9) placed).sys.hostOf 3 = 9 ∧ ((ev (.remapEntryWrite 7 5 0x00021003) placed).sys.remapOf 7 5).phys = 3 ∧
    ((ev (.remapEntryWrite 7 5 0x00021003) placed).sys.remapOf 7 5).gen = 2 := by decide
def emptied (st : PartState) : State := pk (fun y => { y.modPart 0 (fun q => { q with st := st }) with groups := [], blocks := [], launches := [] })
theorem test_partition_empty : ((ev (.partitionEmpty 0) (emptied .draining)).sys.part 0).st = .empty ∧
    ((ev (.partitionEmpty 0) placed).sys.part 0).st = .active ∧
    (let t := ev (.partitionScrubDone 0) (wr [(0x40, 4, 9)] (pk (fun y => { (y.modPart 0 (fun q => { q with st := .scrubbing })) with
        dies := [(0, { scrubbing := some 0 })] })));
      (t.sys.die 0).scrubbing = none ∧ readBytes t.mem 0x40 4 = [0, 0, 0, 0] ∧ (t.sys.part 0).st = .empty) := by decide
theorem test_keys : said' (ev (.flushKey link 0) placed) = [(3, 1, [])] ∧ said' (ev (.flushKey link 1) placed) = [(3, 1, [])] ∧
    (ev (.keyInstall (.tenant 5)) (pk (fun y => { y with spdm := [(0, { session := true })] }))).sys.keys = [5] ∧
    (ev (.keyInstall (.tenant 5)) placed).sys.keys = [] := by decide
/-- A key that no resident VF has: its frame 0 is cleared, and the tag with it. -/
theorem test_flush : let t := ev (.flushKey link 9) (wr [(0x40, 4, 9)] (pk (fun y => { y with frames := [(0, 0x109)], vfs := [] })));
    said' t = [(3, 0, [])] ∧ readBytes t.mem 0x40 4 = [0, 0, 0, 0] ∧ t.sys.frames = [] := by decide
theorem test_firmware : said' (ev (.fwDeliver link 8 [1, 2]) placed) = [(5, 0, [])] ∧ said' (ev (.fwDeliver vf4 8 [1, 2]) placed) = [(5, 2, [])] ∧
    (ev (.fwDeliver link 8 [1, 2]) placed).sys.fw.delivered = [(8, 1), (9, 2)] ∧ (ev (.moduleReset link) placed).sys.resetStep = 0 ∧
    said' (ev (.moduleReset vf4) placed) = [(6, 2, [])] := by decide
def session (k : Spdm) : State := pk (fun y => { y with spdm := [(1, k)] })
theorem test_spdm : said' (ev (.spdmGetVersion 1) placed) = [(4, 0, [0x00, 0x12, 0x00, 0x13])] ∧ said' (ev (.spdmFinish 1) placed) = [(0x7F, 4, [])] ∧
    ((ev (.spdmGetCapabilities 1) (session { version := true })).sys.spdmAt 1).capabilities ∧
    ((ev (.spdmNegotiateAlgorithms 1) (session { version := true, capabilities := true })).sys.spdmAt 1).algorithms ∧
    ((ev (.spdmFinish 1) (session { exchanged := true })).sys.spdmAt 1).session ∧
    ((ev (.spdmEndSession 1) (session { session := true })).sys.spdmAt 1).session = false := by decide
theorem test_spdm_answers : let s := session { algorithms := true };
    (said' (ev (.spdmGetDigests 1) s)).map Prod.fst = [1] ∧ (said' (ev (.spdmGetCertificate 1) s)).map Prod.fst = [2] ∧
    (said' (ev (.spdmChallenge 1 []) s)).map (fun a => (a.1, a.2.2.length)) = [(3, 512)] ∧ said' (ev (.spdmGetMeasurements 1 0) s) = [(0x60, 0, [4])] ∧
    said' (ev (.spdmGetMeasurements 1 5) s) = [(0x7F, 1, [])] ∧ ((ev (.spdmKeyExchange 1 []) s).sys.spdmAt 1).exchanged := by decide
theorem witness_TablesAndBinding : let y := placed.sys;
    (y.entryBytes 0 1).map List.length = some 64 ∧ (y.entryBytes 99 0) = none ∧ y.mayWrite link 0 1 ∧ y.mayWrite vf4 0 1 = false ∧ y.mayRead vf4 0 0 = false ∧
    y.partOk 1 (y.part 1) ∧ y.bindOk (y.vf 5) ∧ y.lds = [] ∧ y.heldO = [] ∧ y.accesses = [] ∧ (y.die 0).scrubbing = none ∧
    (match y.writeEntry 8 0 0 4 (bytesOf 16 500) with | .ok _ => true | _ => false : Bool) := by decide
theorem witness_KeysAndFirmware : let y := placed.sys; link.vf = 0xFF ∧ vf4.vf ≠ 0xFF ∧ ({ y with vfs := [] } : Sys).flushRefused 9 = false ∧ y.flushRefused 1 ∧ y.allStall (((y.framesOf 9).flatMap framePieces).map (fun a => (a, 4096))) = false ∧
    (y.framesOf 9) = [] ∧ (session { session := true }).sys.spdm = [(1, { session := true })] ∧ (y.vf 0).valid ∧ (y.vf 0).keyOk 1 ∧
    y.launches.all (fun l => l.vf == 0 && !l.finished && l.placed != 0) := by decide
theorem witness_SpdmRequests : (at_ (.spdmGetVersion 2) placed).sys.ev = some (.spdmGetVersion 2) ∧ (placed.sys.spdmAt 2).algorithms = false ∧
    ((session { algorithms := true }).sys.spdmAt 1).algorithms := by decide

/-! ### A host's registers, rings and commands (R67 to R78, R57, R139 to R143) -/

/-- VF 0 with its rings running, ring k of 16 entries at page k + 1 of paged space, whose first 64 KiB are those of partition memory. -/
def vf0 (f : Vf → Vf := id) (xs : List (Nat × Nat × Nat) := []) (w : Sys → Sys := id) : State :=
  wr xs (pk (fun y => w { y.modVf 0 (fun q => f { q with en := true, run := true, rings := (List.range 6).map (fun k =>
      (k, { base := BitVec.ofNat 64 (0x1000 * (k + 1)), log2n := 4 })) }) with
    tlb := [{ iod := 0, vf := 0, page := 0, size := 65536, gpa := 0, writable := true, key := 1, fmt := 0, profile := false }]
    nested := [{ iod := 0, vf := 0, page := 0, size := 65536, phys := 0, writable := true }] }))
def idle (f : Vf → Vf := id) : State := vf0 (fun q => f { q with en := false, run := false })
def host (s : State) : Vf := s.sys.vf 0
def ringAt (n : Nat) (f : Ring → Ring) (q : Vf) : Vf := q.modRing n f
theorem test_enable : (host (ev (.vfEnable 0) (idle))).run ∧ (host (ev (.vfEnable 0) (idle (ringAt 2 (fun r => { r with base := 8 }))))).cfgerr ∧
    (host (ev (.vfEnable 0) (idle (ringAt 2 (fun r => { r with log2n := 3 }))))).run = false ∧ (host (ev (.vfPause 0) (vf0))).run = false := by decide
theorem test_stop_and_kill : (host (ev (.vfStop 0) (vf0 id [] (fun y => { y with launches := [] })))).stopped ∧ (host (ev (.vfStop 0) (vf0))).stopped = false ∧
    ((ev (.vfStop 0) (vf0)).sys.part 0).st = .draining ∧
    (host (ev (.vfStop 0) (vf0 (ringAt 0 (fun r => { r with pidx := 1 }))))).stopped = false ∧
    (ev (.vfKill 0) (vf0)).sys.groups.all (fun g => g.killed) ∧ (ev (.vfKill 0) (vf0)).sys.launches.all (fun l => l.terminated) := by decide
theorem test_register_write : ((host (ev (.registerWrite 0 0x140 0x7000) (idle))).ring 2).base = 0x7000 ∧
    ((host (ev (.registerWrite 0 0x140 0x7000) (vf0))).ring 2).base = 0x3000 ∧ (host (ev (.registerWrite 0 8 0) (vf0))).accthr = 256 ∧
    (host (ev (.registerWrite 0 8 65535) (vf0))).accthr = 65535 ∧ (host (ev (.registerWrite 0 0x1004 1) (idle))).gtroot = 0x100000000 := by decide
theorem test_doorbells : ((host (ev (.commandDoorbell 0 16) (vf0))).ring 0).pidx = 16 ∧ (host (ev (.commandDoorbell 0 17) (vf0))).cfgerr ∧
    ((host (ev (.commandDoorbell 0 17) (vf0))).ring 0).pidx = 0 ∧ ((host (ev (.replyDoorbell 0 3) (vf0))).ring 5).pidx = 3 ∧
    (host (ev (.replyDoorbell 0 0) (vf0 (ringAt 5 (fun r => { r with pidx := 1 }))))).cfgerr := by decide
theorem test_cidx : ((host (ev (.cidxWrite 0 3 1) (vf0 (fun q => { q with accessQueued := [(4096, 0)], counters := [(1, 9)] })))).accessQueued) = [] ∧
    (host (ev (.cidxWrite 0 3 1) (vf0 (fun q => { q with accessQueued := [(4096, 0)], counters := [(1, 9)] })))).counters = [] ∧
    ((host (ev (.cidxWrite 0 1 4) (vf0))).ring 1).cidx = 4 := by decide
/-- The record of a doorbell that overfills its ring, as the host reads it: cause 0x41, requester 3, in slot 0 (R68, R79). -/
theorem test_host_reads : let y := (ev (.commandDoorbell 0 17) (vf0)).sys; readReg y 0 0x2000 = 0x41 ∧ readReg y 0 0x2010 = 3 ∧
    readReg y 0 0x10 = 1 ∧ readReg y 0 4 = 5 ∧ readReg y 0 8 = 256 ∧ (y.vf 0).valid ∧ (y.part 0).ealcnt = 1 ∧ (y.part 0).eal[0]?.isSome := by decide
theorem witness_HostControlAndRegisters : (at_ (.vfStop 0) (vf0)).sys.ev = some (.vfStop 0) ∧ (vf0).sys.hostCmdsOf 0 = [] ∧
    (host (vf0)).valid ∧ ((vf0).sys.part 0).st = .active ∧ (host (vf0)).en ∧ (host (idle)).en = false ∧ (host (vf0)).invbusy = false ∧
    (placed.sys.launches.map (fun l => (l.vf, l.finished))) = [(0, false)] := by decide

/-- A command entry in slot 0 (R71). -/
def entry (opc : Nat) (w1 : Nat := 0) : List (Nat × Nat × Nat) := [(0x1000, 1, opc), (0x1002, 2, 77), (0x1008, 4, w1)]
def queued (xs : List (Nat × Nat × Nat)) (f : Vf → Vf := id) : State := vf0 (fun q => f (ringAt 0 (fun r => { r with pidx := 1 }) q)) xs
def results (s : State) : List (Option HostStatus) := s.sys.hostCmds.map (fun c => c.result.map Prod.fst)
theorem test_fetch : results (ev (.commandFetch 0) (queued (entry 6))) = [none] ∧ results (ev (.commandFetch 0) (queued (entry 7))) = [some .badop] ∧
    results (ev (.commandFetch 0) (queued (entry 4 0x100))) = [some .invalid] ∧
    results (ev (.commandFetch 0) (queued (entry 2) (fun q => { q with valid := false }))) = [some .denied] ∧
    results (ev (.commandFetch 0) (queued (entry 2) (fun q => { q with stopping := true }))) = [some .stopped] ∧
    (host (ev (.commandFetch 0) (queued [] (ringAt 0 (fun r => { r with base := 0x20000 }))))).cfgerr := by decide
theorem test_fetch_index : ((host (ev (.commandFetch 0) (queued (entry 6)))).ring 0).cidx = 1 ∧
    ((host (ev (.commandFetch 0) (queued (entry 1)))).ring 0).cidx = 0 := by decide
/-- A reply to a request that is outstanding, and one that is not (R77). -/
def replying (seq : Nat) : State :=
  vf0 (ringAt 5 (fun r => { r with pidx := 1 })) [(0x6000, 4, seq), (0x6008, 8, 3), (0x6010, 4, 1), (0x6020, 4, 0x99)]
    (fun y => y.modCp 0 (fun c => { c with svc := [{ seq := 5, vf := 0, handle := 3, mask := 1, base := 8, code := 1 }] }))
theorem test_reply : ((ev (.replyTake 0) (replying 5)).sys.core 0).cp.replies.map (fun q => (q.seq, q.bytes.drop 32)) =
      [(5, 0x99 :: List.replicate 15 0)] ∧ ((ev (.replyTake 0) (replying 6)).sys.core 0).cp.replies = [] ∧
    ((ev (.replyTake 0) (replying 6)).sys.part 0).eal.map (fun r => r.cause.toNat) = [Cause.badreply.code] := by decide
theorem test_window_end : ((ev .serviceWindowEnd (later 10000 (queued (entry 6)))).sys.part 0).slotWindows = [1, 0, 0] := by decide
def done : HostCmd := { uid := 9, vf := 0, slotAddr := 0x1000, opc := 6, cmdid := 77, payload := List.replicate 56 0, running := true, result := some (.ok, 8) }
def completing (q : Ring → Ring := id) : State := vf0 (fun v => ringAt 1 q { v with completions := [9] }) [] (fun y => { y with hostCmds := [done] })
/-- The completion, with the phase bit of the first pass and then without it. -/
theorem test_completion : let t := ev (.completionWrite 0) (completing); readBytes t.mem 0x2000 16 = [77, 0, 6, 0x80, 0, 0, 0, 0, 8, 0, 0, 0, 0, 0, 0, 0] ∧
    (host t).msix = [0] ∧ ((host t).ring 1).pidx = 1 ∧ t.sys.hostCmds = [] ∧
    readBytes (ev (.completionWrite 0) (completing (fun r => { r with pidx := 17, cidx := 17 }))).mem 0x2010 4 = [77, 0, 6, 0] ∧
    (host (ev (.completionWrite 0) (completing (fun r => { r with base := 0x20000 })))).cfgerr := by decide
theorem test_other_entries :
    readBytes (ev (.faultRecordWrite 0) (vf0 (fun q => { q with faults := [{ kind := 1, vaddr := 0x77, access := 2, cmdh := 4, first := 5, count := 6 }] }))).mem
      0x3000 40 = [1, 0, 0, 0x80, 0, 0, 0, 0, 0x77, 0, 0, 0, 0, 0, 0, 0, 2, 0, 0, 0, 0, 0, 0, 0, 4, 0, 0, 0, 0, 0, 0, 0, 5, 0, 0, 0, 6, 0, 0, 0] ∧
    (let note := fun (q : Vf) => { q with notifications := [{ kind := 2, data := 3 }] };
      readBytes (ev (.notificationWrite 0) (vf0 note)).mem 0x4000 9 = [2, 0, 0, 0x80, 0, 0, 0, 0, 3] ∧
      (host (ev (.notificationWrite 0) (idle note))).ndrop = 1) := by decide
def post : SvcPost := { vf := 0, core := 0, seq := 5, launchId := 6, code := 7, handle := 3, mask := 1, args := [(0, [8, 9])] }
theorem test_service_request : let t := ev (.serviceRequestWrite 0) (vf0 id [] (fun y => y.modPart 0 (fun q => { q with svcq := [post] })));
    readBytes t.mem 0x5000 20 = [5, 0, 0, 0, 0, 0, 1, 0x80, 6, 0, 0, 0, 7, 0, 0, 0, 3, 0, 0, 0] ∧ (t.sys.part 0).svcq = [] := by decide
/-- Ring k takes an entry of n bytes. -/
def takesEntry (s : State) (k n : Nat) : Bool :=
  let r := (host s).ring k
  decide ((host s).runs ∧ r.halted = false ∧ (r.pidx - r.cidx).toNat < 2 ^ r.log2n.toNat ∧ s.sys.runHeld 0 (r.slot k r.pidx) n = false ∧
    pagedStalls s 0 (r.slot k r.pidx) n = false) && (writePaged s 0 (r.slot k r.pidx) (List.replicate n 1) .flag).1.isSome
theorem witness_RingEntries : takesEntry (completing) 1 16 ∧ takesEntry (vf0) 2 64 ∧ takesEntry (vf0) 3 16 ∧ takesEntry (vf0) 4 512 ∧
    (host (completing)).completions = [9] ∧ (completing).sys.hostCmd? 9 = some done ∧ (host (idle)).ringOpen 3 = false ∧
    (let s := queued (entry 6); let r := (host s).ring 0; (host s).runs ∧ r.halted = false ∧ r.pidx ≠ r.cidx ∧ s.sys.hostCmdsOf 0 = [] ∧
      s.sys.runHeld 0 0x1000 64 = false ∧ (readPaged s 0 0x1000 64).1.map (fun b => (field b 0 1, entryReserved b)) = some (6, false)) ∧
    (readPaged (queued [] (ringAt 0 (fun r => { r with base := 0x20000 }))) 0 0x20000 64).1.isNone ∧
    (let s := replying 5; (host s).runs ∧ s.sys.runHeld 0 0x6000 544 = false ∧
      (readPaged s 0 0x6000 32).1.map (fun b => ((readPaged s 0 0x6000 32).2.replyCore 0 b, field b 4 4, numOf (slice b 20 12))) = some (some 0, 0, 0) ∧
      (readPaged (replying 6) 0 0x6000 32).1.map (fun b => (replying 6).sys.replyCore 0 b) = some none) := by decide

theorem test_cxl_mem : let t := ev (.cxlMemWrite 0 0x40 [1, 2]) (vf0); readBytes t.mem 0x40 3 = [1, 2, 0] ∧ t.sys.hostWrites.length = 1 ∧ t.sys.answers = [] ∧
    (ev (.cxlMemRead 0 0x40 2) (wr [(0x40, 2, 0x201)] (vf0))).sys.answers.map (fun a => (a.code, a.status, a.bytes)) = [(0x201, 0, [1, 2])] ∧
    (said' (ev (.cxlMemRead 0 0x100000 2) (vf0))).map (fun a => a.1) = [0x201] ∧ readBytes (ev (.cxlMemWrite 0 0x100000 [1]) (vf0)).mem 0x100000 1 = [0] := by decide
def written (t : Nat) : State := later t (vf0 id [] (fun y => { y with hostWrites := [{ id := 9, vf := 0, gwct := 5 }] }))
theorem test_cxl_complete : said' (ev (.cxlMemWriteComplete 9) (written 6)) = [(0x200, 0, [])] ∧ said' (ev (.cxlMemWriteComplete 9) (written 5)) = [] := by decide
theorem witness_CxlMemory : let y := (vf0).sys; (y.vf 0).valid ∧ heapFlat (y.part 0) (y.vf 0).heap 0x40 2 = some (0x40, 1) ∧
    heapFlat (y.part 0) (y.vf 0).heap 0x100000 2 = none ∧ y.writeStalls 0x40 2 = false ∧ y.writeError 0x40 2 1 = none ∧ y.readError 0x40 2 1 = none ∧
    (y.writeError 0x10040 2 9).isSome = false ∧ (y.readError 0x40 2 9).isSome ∧
    (written 6).sys.hostWrites.find? (fun w => w.id == 9) = some { id := 9, vf := 0, gwct := 5 } := by decide

/-- Tables in partition memory: the host's map pages of 4 KiB onto themselves, the guest's put page 5 at page 6 with key 1 (R140). -/
def tables : State :=
  vf0 (fun q => { q with gtroot := 0xB000, heap := { q.heap with htroot := 0x8000 } })
    ([(0x8000, 8, 0x9003), (0x9000, 8, 0xA003), (0xA000, 8, 0xF003), (0xB000, 8, 0xC003), (0xC000, 8, 0xD003), (0xD000, 8, 0xE003),
     (0xE028, 8, 0x0010000000006007), (0xE030, 8, 0x0010000000007005)] ++
     [6, 7, 11, 12, 13, 14].map (fun p => (0xF000 + 8 * p, 8, 0x1000 * p + 7))) (fun y => { y with tlb := [], nested := [] })
def walks (va : Nat) (write : Bool) : List Nat :=
  match walk tables 0 0 va write with | .ok w => [w.tr.page, w.tr.size, w.tr.phys, if w.tr.writable then 1 else 0] | .error k => [k.kind]
theorem test_walk : walks 0x5123 true = [0x5000, 4096, 0x6000, 1] ∧ walks 0x6123 false = [0x6000, 4096, 0x7000, 0] ∧
    walks 0x6123 true = [2] ∧ walks 0x7000 false = [1] ∧ (let y := (ev (.pageWalk 0 0x5123 true 4) tables).sys; y.tlb.map (fun g => g.gpa) = [0x6000] ∧ y.nested.length = 5) := by decide
theorem test_walk_held : let s := tables; let h := { s with sys := s.sys.modVf 0 (fun q => { q with candidates := [(0x5000, 4096)], migstat := .selected }) };
    (ev (.pageWalk 0 0x5123 true 4) h).sys.tlb.length = 0 ∧ h.sys.pageHeld 0 0x5123 := by decide
theorem test_invalidation : (host (ev (.invpage 0) (vf0))).invbusy ∧ (host (ev (.invall 0) (vf0))).invall ∧
    (ev (.invalidationComplete 0) (vf0 (fun q => { q with invbusy := true, invaddr := 0x10000, invat := 0xFFFF }))).sys.tlb = [] ∧
    (ev (.invalidationComplete 0) (vf0 (fun q => { q with invbusy := true, invat := 0x10000 }))).sys.tlb.length = 1 ∧
    (host (ev (.invalidationComplete 0) (vf0 (fun q => { q with invbusy := true })))).invbusy = false := by decide
/-- Two candidates, the first of them pinned. -/
def victims (f : Vf → Vf := id) (pins : List (Nat × Nat × Nat) := [(1, 0, 0x5000)]) : State :=
  vf0 (fun q => f { q with miglist := 0x400, mign := 2 }) [(0x400, 8, 0x5000), (0x408, 8, 0x6000)] (fun y => { y with pins := pins })
theorem test_migration : (host (ev (.miggo 0) (victims))).migstat = .selected ∧ (host (ev (.miggo 0) (victims))).migsel = 1 ∧
    (host (ev (.miggo 0) (victims (fun q => { q with mign := 65 })))).migstat = .invalidList ∧
    (host (ev (.miggo 0) (victims id [(1, 0, 0x5000), (2, 0, 0x6FFF)]))).migstat = .waiting ∧
    (host (ev (.migdone 0) (victims (fun q => { q with migstat := .selected })))).migstat = .idle ∧
    (let w := fun (q : Vf) => { q with migstat := .waiting, candidates := [(0x5000, 4096), (0x6000, 4096)] };
      (host (ev (.migrationSelect 0) (victims w []))).migsel = 0 ∧ (host (ev (.migrationSelect 0) (victims w))).migsel = 1) := by decide
theorem witness_PagingAndMigration : tables.sys.pageHeld 0 0x5123 = false ∧ walks 0x5123 true = [0x5000, 4096, 0x6000, 1] ∧ walks 0x7000 false = [1] ∧
    (tables.sys.vf 0).invbusy = false ∧ tables.sys.pagedFlight 0 true 0 = false ∧ (tables.sys.vf 0).migstat = .idle ∧
    (let s := victims; (host s).migstat = .idle ∧ (readPaged s 0 0x400 16).1.map (fun b => (field b 0 8, field b 8 8)) = some (0x5000, 0x6000) ∧
      s.sys.pinned 0 (0x5000, 4096) ∧ s.sys.pinned 0 (0x6000, 4096) = false) := by decide

/-! ### Host commands (R71, R73, R183, R189, R225, R42) -/

/-- Command 9 of an opcode, ready to start, with a payload of 32-bit words. -/
def cmd (opc : Nat) (ws : List Nat) (xs : List (Nat × Nat × Nat) := []) (f : Sys → Sys := id) : State :=
  vf0 (ringAt 0 (fun r => { r with pidx := 1 })) xs (fun y => f { y with hostCmds :=
    [{ uid := 9, vf := 0, slotAddr := 0x1000, opc := BitVec.ofNat 8 opc, cmdid := 77, payload := slice (ws.flatMap (bytesOf 4)) 0 56, running := false
       result := none }] })
def outcome (s : State) : Option (HostStatus × DWord) := (s.sys.hostCmd? 9).bind (fun c => c.result)
/-- An engine command with handle 0x33. -/
def engine : Cmd :=
  { handle := 0x33, core := 0, part := 0, vf := 0, launchHeap := placedHeap, kind := .copy, record := [], ptr := 0, status := .faulted, ecause := none
    flags := 0, bar := none, chunks := [], skipped := [], failedChunks := [], cursor := 0, progress := [], cancel := false, inval := false, route := {}
    doneOrder := 0, resume := none }
def faulted (y : Sys) : Sys := { y with cmds := [engine] }
theorem test_host_launch : (let t := ev (.hostLaunch 9) (cmd 1 [0x180, 0] (record 0x180));
      t.sys.launches.map (fun u => (u.inStore, u.record.launchId)) = [(false, 0), (true, 77)] ∧ outcome t = none ∧ ((host t).ring 0).cidx = 1) ∧
    outcome (ev (.hostLaunch 9) (cmd 1 [0x180, 0])) = some (.invalid, 0) ∧ outcome (ev (.hostLaunch 9) (cmd 1 [0x188, 0])) = some (.invalid, 0) ∧
    (ev (.hostLaunch 9) (full (cmd 1 [0x180, 0] (record 0x180)))).sys.storeWaits.length = 1 := by decide
theorem test_fault_resume : (let t := ev (.faultResume 9) (cmd 2 [0x33, 0, 0] [] faulted); t.sys.cmds.map (fun c => (c.status, c.resume)) = [(.running, some 9)]) ∧
    (let t := ev (.faultResume 9) (cmd 2 [0x33, 0, 1] [] faulted); t.sys.cmds.map (fun c => c.status) = [.aborted] ∧ outcome t = some (.ok, 0)) ∧
    outcome (ev (.faultResume 9) (cmd 2 [0x34, 0, 0] [] faulted)) = some (.notfound, 0) := by decide
theorem test_member : outcome (ev (.member 9) (cmd 3 [4, 7])) = some (.ok, 1) ∧
    (tget ((ev (.member 9) (cmd 3 [4, 7])).sys.part 0).cgroups 4 {}).members = [7] ∧ outcome (ev (.member 9) (cmd 3 [64, 7])) = some (.invalid, 0) ∧
    outcome (ev (.member 9) (cmd 3 [4, 0x10007])) = some (.invalid, 0) := by decide
def inDomain (y : Sys) : Sys := y.modPart 0 (fun q => { q with joined := true, dom := 7, lchip := 1 })
theorem test_remap : (let t := ev (.remap 9) (ev (.remap 9) (cmd 4 [7, 5, 3, 0] [] inDomain));
      (ev (.remap 9) (cmd 4 [7, 5, 3, 0] [] inDomain)).sys.remapping = [(9, 7)] ∧ outcome t = some (.ok, 1) ∧ t.sys.remapOf 7 5 = { phys := 3, valid := true, gen := 1 }) ∧
    outcome (ev (.remap 9) (cmd 4 [8, 5, 3, 0] [] inDomain)) = some (.denied, 0) ∧ outcome (ev (.remap 9) (cmd 4 [7, 5, 3, 9] [] inDomain)) = some (.invalid, 0) := by
  decide
theorem test_snap_req : (let t := ev (.snapReq 9) (cmd 5 [0x400, 0] snapRec withSink); (colA t).desc.isSome ∧ (colA t).trec = some 1000 ∧ outcome t = none) ∧
    outcome (ev (.snapReq 9) (cmd 5 [0x404, 0] snapRec withSink)) = some (.invalid, 0) ∧
    outcome (ev (.snapReq 9) (cmd 5 [0x400, 0] snapRec (fun y => (withSink y).modPart 0 (fun q => { q with coordA := { flag := true }, coordB := { flag := true } })))) =
      some (.nocolour, 0) := by decide
/-- The binding entry: partition 0, valid, keys 1 to 255 (R51). -/
theorem test_query : (let t := ev (.query 9) (cmd 6 [4, 0, 0x700, 0x10000000]); outcome t = some (.ok, 16) ∧
      readBytes t.mem 0x700 8 = [0, 0, 1, 0, 1, 255, 0, 0]) ∧ outcome (ev (.query 9) (cmd 6 [4, 0, 0x704, 0x10000000])) = some (.invalid, 0) ∧
    outcome (ev (.query 9) (cmd 6 [6, 0, 0x700, 0x10000000])) = some (.invalid, 0) ∧
    outcome (ev (.query 9) (cmd 6 [2, 0, 0x700, 0x10000000] [] (fun y => y.modVf 0 (fun q => { q with valid := false })))) = some (.denied, 0) := by decide
/-- A command of an opcode is ready, and its checks are passed. -/
def ready (s : State) (opc : Nat) : Bool := (s.sys.readyCmd 9 opc).isSome
theorem witness_HostCommands :
    (let s := cmd 1 [0x180, 0] (record 0x180); let s1 : State := { s with sys := s.sys.startHost 9 };
      ready s 1 ∧ s.sys.timeReady ∧ s.sys.slotFree 0 0 ∧ (match hostRecord s1 0 0x180 (host s) with
        | (some b, w) => (host s).windowKeysOk (host s).heap && (match (checkRecord w 0 0 (host s).heap true (heapReader { s with sys := w } 0
            (host s).heap) 0x180 (recordOf b)).1 with | .ok _ => w.storeFree 0 | .error _ => false)
        | (none, _) => false) = true ∧ (full s).sys.storeRoom 0 = false) ∧
    (let s := cmd 2 [0x33, 0, 0] [] faulted; ready s 2 ∧ s.sys.cmds.filter (fun c => c.handle == 0x33) = [engine] ∧ engine.vf = 0 ∧ engine.status = .faulted) ∧
    (let s := cmd 3 [4, 7]; ready s 3 ∧ s.sys.domainParts 0 ≠ [] ∧ s.sys.boundContribs 0 4 = [] ∧ s.sys.cmds = []) ∧
    (let s := cmd 4 [7, 5, 3, 0] [] inDomain; ready s 4 ∧ (s.sys.part 0).joined ∧ (s.sys.part 0).dom = 7 ∧ s.sys.coloursClear 7 ∧ s.sys.tombstones = [] ∧
      (s.sys.remapOf 7 5).valid = false) ∧
    (let s := cmd 5 [0x400, 0] snapRec withSink; let s1 : State := { s with sys := s.sys.startHost 9 };
      ready s 5 ∧ s.sys.runHeld 0 0x400 64 = false ∧ (s.sys.part 0).coordinator = (s.sys.part 0).chip.toNat ∧ (s.sys.part 0).snapReqs = [] ∧
      (match readPaged s1 0 0x400 64 with
        | (some b, w) => (match snapValid { s with sys := w } 0 0 (host s).heap 0x400 b with | .ok _ => (w.pickColour 0 0).isSome | .error _ => false)
        | (none, _) => false) = true) ∧
    (let s := cmd 6 [4, 0, 0x700, 0x10000000]; let s1 : State := { s with sys := s.sys.startHost 9 };
      ready s 6 ∧ (host s).valid ∧ s.sys.runHeld 0 0x700 16 = false ∧ pagedStalls s1 0 0x700 16 = false ∧
      (writePaged s1 0 0x700 (host s).bindBytes .data).1.isSome) := by decide

/-! ### Launches, gangs, groups and bins (R84 to R95) -/

/-- A launch of two blocks of five groups in gangs of two, waiting at the head of the queue of an empty machine of one cluster. -/
def gangRecord : LaunchRec := { placedRecord with gridX := 2, gpb := 5, gangP := 2, gangF := 2, regs := 16, scrBytes := 0x400, entry := 8 }
def waiting (r : LaunchRec) : Launch := { placedLaunch 1 with record := r, placed := 0, gangs := 0, inStore := true, consts := [0x55] }
def empty (f : Launch → Launch := id) (w : Sys → Sys := id) : State :=
  pk (fun y => w { y with groups := [], blocks := [], launches := [f (waiting gangRecord)] })
theorem test_gang : let t := (ev (.gangPlace 0) (empty)).sys; t.blocks.map (fun b => (b.index, b.rank, b.core, b.scrBytes)) = [(0, 0, 0, 0x400), (1, 1, 1, 0x400)] ∧
    (t.groups.map (fun g => (g.core, g.quadrant, g.gix))).take 5 = [(0, 0, 0), (0, 1, 1), (0, 2, 2), (0, 3, 3), (0, 0, 4)] ∧
    t.groups.all (fun g => sget g.regs.k 0 == 0x55 && g.allot == 16 && g.gangSize == 2 && g.frontier.map (fun e => (e.pc, e.mask)) == [(8, 0xFFFFFFFF)]) ∧
    t.launches.map (fun u => (u.placed, u.gangs, u.inStore)) = [(2, 1, false)] := by decide
theorem test_store_grant : let w : StoreWait := { part := 0, vf := 0, record := gangRecord, consts := [1], prio := [], hostCmd := none
                                                  group := 3, lane := 2, reg := 9, parent := none };
    let t := ev (.launchStoreGrant 0) (pk (fun y => { (y.modGroup 3 (setV [(2, 9, 7)])) with storeWaits := [w] }));
    t.sys.storeWaits = [] ∧ t.sys.launches.map (fun u => u.record.gridX) = [1, 2] ∧ v t 2 9 = 0 ∧
    (ev (.launchStoreGrant 0) (full (pk (fun y => { y with storeWaits := [w] })))).sys.storeWaits.length = 1 := by decide
def left (f : Sys → Sys := id) : State := pk (fun y => f (y.modGroup 3 (fun g => { g with lanes := 0, frontier := [] })))
theorem test_release : let t := (ev (.groupRelease 3) (left)).sys; t.groups = [] ∧ t.blocks = [] ∧ t.launches.map (fun u => u.releasedBlocks) = [1] ∧
    (ev (.groupRelease 3) placed).sys.groups.length = 1 := by decide
def overLaunch (r : LaunchRec) (f : Sys → Sys := id) : State :=
  vf0 id [(barFlat, 8, 0x100000001)] (fun y => f { sram y with groups := [], blocks := [], hostCmds := [{ done with result := none }], launches :=
    [{ placedLaunch 1 with record := r, releasedBlocks := 1, hostCmd := some 9 }] })
theorem test_finish : (let t := ev (.launchFinish 1) (overLaunch { placedRecord with launchId := 77 }); t.sys.launches = [] ∧ outcome t = some (.ok, 77)) ∧
    (ev (.launchFinish 1) placed).sys.launches.length = 1 := by decide
def bin0 (st : BinState) : Bin := { st := st, launch := 1, entryOfs := 0x40, since := 0, limit := 940, threads := [[1, 2, 3, 4], [5, 6, 7, 8]] }
def binned (st : BinState) (ns : Nat := 0) : State := pk (fun y => { y with ns := ns }.modCore 0 (fun c => { c with bins := [(2, bin0 st)] }))
theorem test_bin : ((tget ((ev (.binTimeout 0 2) (binned .filling 1000)).sys.core 0).bins 2 {}).st = .closed) ∧
    ((tget ((ev (.binTimeout 0 2) (binned .filling 998)).sys.core 0).bins 2 {}).st = .filling) ∧
    (let t := (ev (.binGroupForm 0 2) (binned .closed)).sys; t.groups.drop 1 |>.map (fun g => (g.lanes, g.helpers, sget g.regs.v 3, sget g.regs.v 130, g.blockX)) =
      [(0xF, 0xC, 4, 7, 0xFFFFFFFF)]) := by decide
/-- The group's only entry in a state; the allotment 16; and the core changed. -/
def stands (st : EntryState) (f : Group → Group := id) (c : Core → Core := id) (w : Sys → Sys := id) : State :=
  pk (fun y => w ((y.modGroup 3 (fun g => f { g with allot := 16, frontier := g.frontier.map (fun e => { e with st := st }) })).modCore 0 c))
def growing : State := stands (.grow 8 false) id (fun c => { c with growq := [(0, 3, 0)] })
theorem test_grow_grant : let t := ev (.growGrant 0 0) growing; (g0 t).allot = 24 ∧ pcs t = [(4, 0xFFFFFFFF)] ∧ (t.sys.core 0).growq = [] ∧
    (g0 (ev (.growGrant 0 1) growing)).allot = 16 := by decide
theorem witness_LaunchesGangsAndBins : (placed.sys.storeRoom 0) ∧ (full placed).sys.storeRoom 0 = false ∧
    (let s := empty; (s.sys.queue 0).map (fun u => u.uid) = [1] ∧ (s.sys.launches.filter (fun u => u.uid == 1)).length = 1 ∧
      (s.sys.part 0).clusters ≠ [] ∧ s.sys.groups = [] ∧ s.sys.blocks = [] ∧ fitsEmpty (s.sys.part 0) gangRecord 1 ∧ fitsEmpty (s.sys.part 0) gangRecord 0) ∧
    (let s := left; (s.sys.groups.filter (fun g => g.handle == 3)).map (fun g => (g.lanes, g.mmaj, g.mmas, g.block)) = [(0, none, [], some 2)] ∧
      s.sys.quietGroup 3 ∧ s.sys.mloops = [] ∧ s.sys.tileOps = [] ∧ (s.sys.blocks.filter (fun b => b.uid == 2)).map (fun b => (b.launch, b.gang)) = [(1, 0)]) ∧
    (let s := overLaunch placedRecord; s.sys.groups = [] ∧ s.sys.cores.all (fun c => c.2.bins.isEmpty) ∧
      s.sys.launches.map (fun u => (u.finished, u.releasedBlocks, u.record.blocks, u.record.det, u.record.cbar)) = [(false, 1, 1, false, 0)]) ∧
    (let s := overLaunch { placedRecord with cbar := 0x2000000000000000 }; ∃ f, s.sys.sramObject 0 0 0x2000000000000000 16 = some f ∧
      s.sys.writeStalls f 16 = false ∧ s.sys.readError f 16 0 = none) := by
  refine ⟨by decide, by decide, by decide, by decide, by decide, flatSram 0 0, by decide, by decide, by decide⟩
theorem witness_LaunchesGangsAndBins_bins : (let s := binned .closed; s.sys.returnsTo s.mem 0 = false ∧ s.sys.quadrantFor 0 128 = some (0, 1) ∧
      (tget (s.sys.core 0).bins 2 {}).threads.all (fun t => t.length == 4) ∧ (s.sys.launch? 1).isSome) ∧
    (growing.sys.growReady 0 0 = some (0, 3, 0) ∧ growing.sys.growReady 0 1 = none ∧ ((g0 growing).entry? 0).map (fun e => e.st) = some (.grow 8 false)) := by
  decide

/-! ### Waits, returns, traps and parking (R109 to R123, R154 to R156) -/

/-- An access of the group's lane 2 with sequence number 4. -/
def accOf (st : AccState) (f : Access → Access := id) : Access :=
  f { portAccess 0 pkt (.load 4) 0 0 with id := 50, who := .group 3, lane := 2, lanes := 4, wait := 4, seq := 4, ptr := 0x1234, target := .home 0x100
                                          dest := .v 4 1, st := st }
def hold : FenceHold := { kind := 1, scope := 5, classes := 7, lanes := 0xFFFFFFFF, only := none }
def holding (as : List Access) : State :=
  stands .ready (fun g => { g with frontier := g.frontier.map (fun e => { e with holds := [hold] }) })
    (fun c => { c with l1 := [{ start := 128, expiry := 900, fabric := false, key := 1, bytes := [] }] }) (fun y => { y with accesses := as })
def states (s : State) : List (LaneMask × EntryState) := (g0 s).frontier.map (fun e => (e.mask, e.st))
theorem test_results_and_fences : states (ev (.resultArrive 3 0) (stands .results)) = [(0xFFFFFFFF, .ready)] ∧
    states (ev (.resultArrive 3 0) (stands .results id id (fun y => { y with accesses := [accOf .inFlight] }))) = [(0xFFFFFFFF, .results)] ∧
    (let t := ev (.fenceComplete (.entry 3 0)) (holding []); (g0 t).frontier.map (fun e => e.holds) = [[]] ∧ (t.sys.core 0).l1 = []) ∧
    ((g0 (ev (.fenceComplete (.entry 3 0)) (holding [accOf .inFlight]))).frontier.all (fun e => !e.holds.isEmpty || e.mask &&& 4 == 0)) ∧
    ((ev (.leaseExpiry 0 1) (later 900 (holding []))).sys.core 0).l1 = [] ∧ ((ev (.leaseExpiry 0 1) (later 899 (holding []))).sys.core 0).l1.length = 1 := by
  decide
/-- The group before its instruction number 4, at PC 0 with v1 = 7 in lane 2; it is now at PC 8 with v1 = 9, and the access was answered with an error. -/
def marked (older : List Access := []) : State :=
  stands .ready (fun g => setV [(2, 1, 9)] { g with
      frontier := g.frontier.map (fun e => { e with pc := 8 })
      window := [{ seq := 4, pc := 0, mask := 0xF, j := 0, mem := true, before := (setV [(2, 1, 7)] g).regs, kw := [] }] }) id
    (fun y => { y with accesses := accOf (.failed .ecc 0 0 0) :: older })
theorem test_checkpoint : let t := ev (.checkpointReturn 3) (marked); v t 2 1 = 7 ∧ trap t = some (.ecc, 4) ∧ (0, 0xF) ∈ pcs t ∧ (8, 0xFFFFFFF0) ∈ pcs t ∧
    v (ev (.checkpointReturn 3) (marked [accOf .inFlight (fun a => { a with seq := 3 })])) 2 1 = 9 := by decide
def untaken : TrapRec := { taken with taken := false, seq := 2 }
theorem test_trap_queue : ((ev (.trapQueueJoin (.entry 3 0)) (stands (.trapped untaken))).sys.core 0).trapq = [.entry 3 0] ∧
    ((ev (.trapQueueJoin (.entry 3 0)) (stands (.trapped untaken) id id (fun y => { y with accesses := [accOf .inFlight (fun a => { a with seq := 1 })] }))).sys.core
      0).trapq = [] := by decide
def cpWaits (q : Cp → Cp) (r : List TrapSource) : State :=
  stands (.trapped { untaken with queued := true }) id (fun c => { c with trapq := r, cp := q { c.cp with running := true, pc := 0x30, cptvec := 0x80 } })
theorem test_cp_trap : (let t := cp (ev (.cpTrapEntry 0) (cpWaits id [.entry 3 0])); t.pc = 0x80 ∧ t.intrap ∧ t.saved = 0x30 ∧ t.tghandle = 3 ∧ t.tpc = 4 ∧
      t.tmask = 1) ∧ (cp (ev (.cpTrapEntry 0) (cpWaits (fun q => { q with intrap := true }) [.entry 3 0]))).pc = 0x30 ∧
    (cp (ev (.cpTrapEntry 0) (cpWaits (fun q => { q with ownTrap := some untaken }) [.cp 7]))).saved = 4 ∧
    (cp (ev (.cpTrapEntry 0) (cpWaits (fun q => { q with intrap := true, ownTrap := some untaken }) []))).stopped := by decide
theorem witness_ReturnsAndTraps : (stands .results).sys.groups.filter (fun g => g.handle == 3) = [g0 (stands .results)] ∧
    ((g0 (stands .results)).entry? 0).map (fun e => (e.st, e.mask)) = some (.results, 0xFFFFFFFF) ∧ (stands .results).sys.awaiting 3 = 0 ∧
    (g0 (holding [])).frontier.map (fun e => e.holds) = [[hold]] ∧ (holding []).sys.accesses = [] ∧
    (let s := marked; s.sys.oldestMarked (g0 s) = some 4 ∧ s.sys.returning (g0 s) = 0xF ∧ s.sys.accesses.all (fun a => !a.isFlight && a.lane < 32) ∧
      (g0 s).window.all (fun w => (w.before.v.map (fun x => x.1)).length == 1 && w.before.fstat.isEmpty)) ∧
    (let s := stands (.trapped untaken); s.sys.returning (g0 s) = 0 ∧ s.sys.accesses = [] ∧ ((g0 s).entry? 0).map (fun e => e.st) = some (.trapped untaken)) ∧
    (let q := cp (cpWaits id [.entry 3 0]); q.running ∧ q.stopped = false ∧ q.holds = [] ∧ q.wait = none ∧ q.snapWait = none ∧ q.gparkWait = none ∧
      q.hints.any = false) := by decide

/-- Parked in slot 2, with what wakes it: free registers, a barrier that has completed. -/
def parked (st : EntryState) : State := stands st (fun g => { g with offCore := some 2 })
def atBar (st : BitVec 31) : State := wr [(barFlat, 8, 0x100000001)] (parked (.barrier barFlat st 9 false 0 0xFFFFFFFF 0))
theorem test_park : (let t := g0 (ev (.parkOffCore 3) (stands .ready (fun g => { g with preempt := true }))); t.offCore = some 0 ∧ t.parks = 1 ∧ t.preempt = false) ∧
    (g0 (ev (.parkOffCore 3) (stands .ready))).offCore = none ∧ (g0 (ev (.mgmtPreempt 1 0) placed)).preempt ∧
    (g0 (ev (.mgmtPreempt 1 1) placed)).preempt = false := by decide
theorem test_return : (let t := g0 (ev (.parkReturn 3) (parked (.grow 8 false))); t.offCore = none ∧ t.allot = 24 ∧ t.slot = 0) ∧
    (let t := ev (.parkReturn 3) (atBar 5); (g0 t).offCore = none ∧ v t 31 9 = BitVec.ofNat 32 (readBar t.mem barFlat).phase ∧ pcs t = [(4, 0xFFFFFFFF)]) ∧
    (g0 (ev (.parkReturn 3) (atBar (BitVec.ofNat 31 (readBar (atBar 0).mem barFlat).phase)))).offCore = some 2 := by decide
theorem witness_Parking : (let s := stands .ready (fun g => { g with preempt := true }); s.sys.freePark 0 = some 0 ∧ (g0 s).preempt ∧ (g0 s).offCore = none ∧
      (g0 s).mmas = [] ∧ (g0 s).mmaj = none ∧ (g0 s).killed = false) ∧
    (let s := parked (.grow 8 false); s.sys.canReturn s.mem (g0 s) ∧ s.sys.freeGroupSlot 0 0 = some 0 ∧ s.sys.groups = [g0 s]) ∧
    (let s := atBar 5; s.sys.canReturn s.mem (g0 s) ∧ (readBar s.mem barFlat).phase ≠ 5) ∧ (parked .ready).sys.canReturn [] (g0 (parked (.join false))) = false := by
  decide

/-- The other reasons to park (R117), the control processor's own traps, and what makes it wait with one of a group (R121, R123). -/
theorem witness_Parking_reasons : (g0 (stands (.trapped { untaken with cause := .strap }))).strapped ∧
    (let s := stands .ready id (fun c => { c with cp := { c.cp with gparkWait := some (3, 4) } }); s.sys.stopping (g0 s) ∧ s.sys.parkReason (g0 s) ∧
      (g0 s).settledLanes = 0) ∧ (let s := stands .ready; s.sys.stopping (g0 s) = false ∧ s.sys.parkReason (g0 s) = false) ∧
    (let s := stands (.grow 500 false); s.sys.growVictim 0 0 = some 3) ∧
    (let s := stands (.barrier barFlat 0 9 false 0 0xFFFFFFFF 0) id (fun c => { c with bins := [(0, { st := .closed })], cp := { c.cp with parkthr := 0 } });
      s.sys.longWait (g0 s)) := by decide
theorem witness_ReturnsAndTraps_own : (let q := cp (cpWaits (fun q => { q with ownTrap := some untaken }) [.cp 7]); q.running ∧ q.intrap = false ∧ q.ownTrap.isSome) ∧
    (let q := cp (cpWaits (fun q => { q with intrap := true, ownTrap := some untaken }) []); q.intrap ∧ q.ownTrap.map (fun t => t.taken) = some false) ∧
    (cp (cpWaits (fun q => { q with holds := [hold] }) [.entry 3 0])).holds = [hold] ∧ (cpWaits id [.entry 3 0]).sys.cpBusy 0 = false := by decide

/-! ### The home (R145 to R157, R169 to R173, R186, R187, R256 to R263, R316) -/

/-- An access of lane 2 in flight at home 0x100, and bytes there. -/
def home (op : AccOp) (d : Dest := .none) (xs : List (Nat × Nat × Nat) := []) (f : Access → Access := id) (w : Sys → Sys := id) : State :=
  wr xs (pk (fun y => w { y with accesses := [f { accOf .inFlight with op := op, dest := d, key := 1, wait := if d = .none then 0 else 4 }] }))
def old (n : Nat) : List (Nat × Nat × Nat) := [(0x100, 4, n)]
/-- The word that an atomic leaves of an old one, and the bytes it returned. -/
def atomic (k : AtomOp) (a : Nat) (x : DWord) (c : DWord := 0) : Nat × List AccState :=
  let t := ev (.homeAccess 50) (home (.atomic k false x c) .none (old a)); (numOf (readBytes t.mem 0x100 4), ended t)
def leaves (k : AtomOp) (a : Nat) (x : DWord) (c : DWord := 0) : Nat := (atomic k a x c).1
theorem test_home : v (ev (.homeAccess 50) (home (.load 4) (.v 4 1) (old 0x99))) 2 4 = 0x99 ∧
    readBytes (ev (.homeAccess 50) (home (.store [1, 2]))).mem 0x100 3 = [1, 2, 0] ∧
    (ended (ev (.homeAccess 50) (home (.load 4) (.v 4 1) [] (fun a => { a with key := 9 })))).map (fun st => match st with | .failed c _ _ _ => some c | _ => none) =
      [some .key] ∧ v (ev (.homeAccess 50) (home (.bit 7) (.v 4 1) (old 0x80))) 2 4 = 1 := by decide
/-- A load of a helper lane that fails returns 0 and leaves no record (R94). -/
theorem test_helper_load : let s := home (.load 4) (.v 4 1) (old 0x99) (fun a => { a with key := 9 }) (fun y =>
      { y with groups := y.groups.map (fun g => { g with helpers := 4, regs := { g.regs with v := sset g.regs.v 260 7 } }) });
    v s 2 4 = 7 ∧ v (ev (.homeAccess 50) s) 2 4 = 0 ∧ ended (ev (.homeAccess 50) s) = [.performed [] 0] ∧
    ((ev (.homeAccess 50) s).sys.part 0).ealcnt = (s.sys.part 0).ealcnt ∧ s.sys.helperLoad (s.sys.accesses.headD (accOf .inFlight)) = true := by decide
/-- R317: wraps and comparisons of the atomics; what a CAS returns when it fails. -/
theorem test_atomics_at_home : leaves .addB32 0xFFFFFFFF 2 = 1 ∧ leaves .minS32 1 0xFFFFFFFF = 0xFFFFFFFF ∧ leaves .minZ32 1 0xFFFFFFFF = 1 ∧
    leaves .maxS32 1 0xFFFFFFFF = 1 ∧ leaves .maxZ32 1 0xFFFFFFFF = 0xFFFFFFFF ∧ leaves .cas 5 9 5 = 9 ∧ leaves .cas 6 9 5 = 6 := by decide
theorem test_atomics_at_home_2 : leaves .incw 3 3 = 0 ∧ leaves .incw 2 3 = 3 ∧ leaves .decw 0 3 = 3 ∧ leaves .decw 4 3 = 3 ∧ leaves .decw 3 3 = 2 ∧
    leaves .and 6 3 = 2 ∧ leaves .or 6 3 = 7 ∧ leaves .xor 6 3 = 5 ∧ leaves .xchg 6 3 = 3 ∧ leaves .addF32 0x3F800000 0x3F800000 = 0x40000000 ∧
    leaves .addBf16x2 0x3F803F80 0x3F800000 = 0x40003F80 := by decide
/-- The access performs: it is in flight, alone, in order, without an error. -/
def performable (s : State) (f n : Nat) (a : Access) : Bool :=
  decide (s.sys.accesses.filter (fun b => b.id == 50) = [a] ∧ a.target = .home f ∧ a.isFlight = true ∧ s.sys.orderOk a = true ∧ s.sys.linkError a = none ∧
    s.sys.owner a = none ∧ s.sys.writeStalls f n = false ∧ s.sys.readError f n a.key = none ∧ s.sys.writeError f n a.key = none ∧ a.abacus = none)
def acc (s : State) : Access := s.sys.accesses.headD (accOf .inFlight)
theorem witness_HomeAccesses : (let s := home (.load 4) (.v 4 1); performable s 0x100 4 (acc s) ∧ s.sys.l1Hit 0 (acc s) 0x100 4 = none) ∧
    (let s := home (.store [1, 2]); performable s 0x100 2 (acc s)) ∧ (let s := home (.atomic .casB64 false 0 0); performable s 0x100 8 (acc s)) ∧
    (let s := home (.exchange 4 5); performable s 0x100 4 (acc s)) ∧ (let s := home (.bit 7); performable s 0x100 1 (acc s)) ∧
    (let s := home (.test 1) .none [] (fun a => { a with target := .home barFlat, key := 0 }); performable s barFlat 16 (acc s)) := by decide

/-- A barrier object at home; EXPARR, ARRIVED, EXPBYTES and LANDED; and an operation on it. -/
def barrier (op : AccOp) (o : BarObj) (w : Sys → Sys := id) : State :=
  { home op .none [] (fun a => { a with target := .home barFlat, key := 0 }) w with mem := writeCells placed.mem (cellsAt barFlat o.bytes) }
def obj (n a e l : Nat) : BarObj := { phase := 6, inv := false, exparr := n, arrived := a, expbytes := e, landed := l }
def after (e : Nat → Event) (op : AccOp) (o : BarObj) : BarObj := readBar (ev (e 50) (barrier op o)).mem barFlat
theorem test_barriers : after .barrierArrival .arrive (obj 2 0 0 0) = obj 2 1 0 0 ∧ after .barrierArrival .arrive (obj 2 1 0 0) = { obj 2 0 0 0 with phase := 7 } ∧
    after .barrierLanding (.landing 8) (obj 0 0 16 8) = { obj 0 0 0 0 with phase := 7 } ∧ after .barrierExpect (.expect 8) (obj 1 0 4 0) = obj 1 0 12 0 := by decide
theorem test_barriers_2 : after .barrierInit (.init 3) (obj 1 1 1 1) = { obj 3 0 0 0 with phase := 0 } ∧
    after .barrierInvalidate .invalidate (obj 1 1 1 1) = { obj 1 0 0 0 with inv := true } ∧ after .barrierArrival .arrive (obj 1 1 0 0) = obj 1 2 0 0 := by decide
/-- BINIT is refused for a waiter of the object's phase, not for a parked entry of an earlier one (R171). -/
theorem test_busy : let waits := fun (n : Nat) (y : Sys) => { y with groups := y.groups ++ (y.groups.map (fun g =>
      { g with handle := 8, frontier := g.frontier.map (fun e => { e with st := .barrier barFlat (BitVec.ofNat 31 n) 9 false 0 0xFFFFFFFF 0 }) })) };
    readBar (ev (.barrierInit 50) (barrier (.init 3) (obj 1 1 1 1) (waits 6))).mem barFlat = obj 1 1 1 1 ∧
    readBar (ev (.barrierInit 50) (barrier (.init 3) (obj 1 1 1 1) (waits 5))).mem barFlat = { obj 3 0 0 0 with phase := 0 } := by decide
/-- A group that waits at the object's phase is woken with the next. -/
def waiter (y : Sys) : Sys :=
  { y with groups := y.groups ++ (y.groups.map (fun g => { g with handle := 8, frontier := g.frontier.map (fun e => { e with st := .barrier barFlat 6 9 false 0 0xFFFFFFFF 0 }) })) }
theorem test_wake : (let t := ev (.barrierArrival 50) (barrier .arrive (obj 1 0 0 0) waiter); (t.sys.group? 8).map (fun g =>
      (sget g.regs.v 9, g.frontier.map (fun e => (e.pc, e.st)))) = some (7, [(4, .ready)])) := by decide
theorem witness_BarrierOperations : [(AccOp.arrive), .landing 8, .expect 8, .init 3, .invalidate].all (fun op => let s := barrier op (obj 1 0 0 0) waiter;
      decide (s.sys.accesses.filter (fun b => b.id == 50) = [acc s] ∧ (acc s).target = .home barFlat ∧ (acc s).op = op ∧ (acc s).isFlight = true ∧
        s.sys.orderOk (acc s) = true ∧ s.sys.writeStalls barFlat 16 = false ∧ s.sys.readError barFlat 16 0 = none ∧ s.sys.hasWaiter barFlat 6 = true ∧
        (s.sys.groups.filter (fun z => z.handle == 8)).length = 1)) = true ∧ (barrier (.init 3) (obj 1 0 0 0)).sys.hasWaiter barFlat 6 = false ∧
    (barrier (.init 3) (obj 1 0 0 0)).sys.hasAttached barFlat = false ∧ readBar (barrier .arrive (obj 1 0 0 0)).mem barFlat = obj 1 0 0 0 := by decide

def counted (n : Nat) (d : Option (Nat × Nat)) : ContribEntry := { line := 2, count := n, declared := d, bound := none, aborted := false }
def contributing (es : List ContribEntry) (op : AccOp := .atomic .caddF32 false 0x3F800000 0) (f : Access → Access := id) : State :=
  wr [(barFlat, 8, 0x100000000 * 5)] (home op .none (old 0x3F800000) f (fun y => sram { y with contribs := es }))
theorem test_contribution : (let t := ev (.caddHome 50) (contributing []); t.sys.contribs = [counted 1 none] ∧ numOf (readBytes t.mem 0x100 4) = 0x40000000) ∧
    (let t := ev (.caddHome 50) (contributing [counted 1 (some (2, barFlat))]); t.sys.contribs = [] ∧
      (readBar t.mem barFlat).arrived = ((readBar (contributing []).mem barFlat).apply .arrive).obj.arrived) := by decide
def decl (n : Word) (bar : DWord) (es : List ContribEntry) : State := contributing es (.decl n bar) (fun a => { a with dest := .v 4 1, wait := 4 })
def status (n : Word) (bar : DWord) (es : List ContribEntry) : Word := v (ev (.cdeclHome 50) (decl n bar es)) 2 4
theorem test_cdecl : status 2 0x2000000000000000 [] = 0 ∧ status 2 0x2000000000000000 [counted 1 (some (3, barFlat))] = 2 ∧
    status 0 0 [counted 1 (some (3, barFlat))] = 2 ∧ status 0 0 [counted 1 none] = 4 ∧ status 0x400000 0 [] = 3 ∧ status 2 0 [] = 3 ∧
    (ev (.cdeclHome 50) (decl 0 0 [counted 1 none])).sys.contribs = [] := by decide
/-- A deterministic update of the launch: its key, which is the only one and so the watermark, and its retry time. -/
def key0 : AbacusKey := { block := 0, gix := 0, s := 1, lane := 2 }
def updating (r : Option Nat := none) (w : Sys → Sys := id) : State :=
  home (.atomic .addB32 false 5 0) .none (old 3) (fun a => { a with abacus := some key0, launch := 1, retryAt := r }) (fun y =>
    w (y.modGroup 3 (fun g => { g with lanes := 0 })))
theorem test_abacus : numOf (readBytes (ev (.abacusApply 50) (updating)).mem 0x100 4) = 8 ∧
    numOf (readBytes (ev (.abacusApply 50) (updating none (fun y => y.modGroup 3 (fun g => { g with lanes := 4 })))).mem 0x100 4) = 3 ∧
    (acc (ev (.abacusRetry 50) (later 9 (updating (some 9))))).retryAt = none ∧ (acc (ev (.abacusRetry 50) (later 8 (updating (some 9))))).retryAt = some 9 := by decide
/-- Block 0's version of a byte, and its private line. -/
def serial (gs : Sys → Sys := id) : State :=
  pk (fun y => gs { (y.modGroup 3 (fun g => { g with lanes := 0 })) with launches := y.launches.map (fun u => { u with
    record := { u.record with det := true }, own := [{ line := 2, owner := some 0, pre := none, written := [], versions := [(0, [(4, 0x77)])] }] }) })
theorem test_serial_phase : let t := ev (.serialPhase 1) (serial); readByte t.mem 0x104 = 0x77 ∧ t.sys.launches.map (fun u => (u.serial, u.own.map (fun o => o.owner))) = [(1, [none])] ∧
    (ev (.serialPhase 1) (serial (fun y => y.modGroup 3 (fun g => { g with lanes := 1 })))).sys.launches.map (fun u => u.serial) = [0] := by decide
theorem witness_ContributionsAndOrder :
    (let s := contributing [counted 1 (some (2, barFlat))]; performable s 0x100 4 (acc s) ∧ s.sys.contribFree 2 ∧ s.sys.contribAt 2 = some (counted 1 (some (2, barFlat))) ∧
      isSram barFlat ∧ s.sys.readError barFlat 16 0 = none ∧ barFlat + 16 ≤ 0x100 ∨ 0x104 ≤ barFlat) ∧
    (let s := decl 2 0x2000000000000000 []; performable s 0x100 128 (acc s) ∧ (s.sys.declBarrier (acc s) (acc s).part (acc s).vf 0x2000000000000000).map (fun b =>
      (s.sys.watchFree b, (readBar s.mem b).inv)) = some (true, false) ∧ s.sys.contribFree 2) ∧
    (let s := updating; (acc s).abacus = some key0 ∧ (acc s).undone = false ∧ s.sys.mayApply (acc s) ∧ s.sys.linkError (acc s) = none ∧ s.sys.owner (acc s) = none ∧
      s.sys.writeStalls 0x100 4 = false ∧ s.sys.readError 0x100 4 1 = none ∧ s.sys.orderOk (acc s)) ∧
    (let s := updating (some 9); (acc s).retryAt = some 9 ∧ (acc s).updating ∧ s.sys.watermark 1 = some key0 ∧ s.sys.ticketLines = []) ∧
    (let s := serial; s.sys.launches.all (fun l => l.record.det && decide (l.serial < l.placed) && l.own.length == 1) ∧ s.sys.accesses = [] ∧
      (g0 s).lanes = 0 ∧ s.sys.writeStalls 0x104 1 = false) := by decide

/-! ### Engine commands and collectives (R174 to R185, R228 to R237, R377, R209) -/

/-- The command of a word that has been issued, with some accesses in place of its own. -/
def running (s : State) (as : List Access) (f : Cmd → Cmd := id) (w : Sys → Sys := id) : State :=
  { s with gtime := 9, sys := w { s.sys with cur := none, cmds := s.sys.cmds.map f, accesses := as } }
def copying (as : List Access) (f : Cmd → Cmd := id) (xs : List (Nat × Nat × Nat) := shapeRec) (w : Sys → Sys := id) : State :=
  running (ran (.copy te) (eng xs)) as f w
def engAcc (seq : Nat) (st : AccState) (op : AccOp := .store [1]) (ptr : DWord := 0x1234) : Access :=
  accOf st (fun a => { a with who := .engine 4, seq := seq, op := op, dest := .none, lane := 0, lanes := 1, wait := 0, key := 1, ptr := ptr })
def progress (s : State) : List (List Nat × CmdStatus) := s.sys.cmds.map (fun c => (c.chunks, c.status))
theorem test_chunk : progress (ev (.chunkLand 4 0) (copying [engAcc 0 (.performed [] 3)])) = [([0], .done)] ∧
    progress (ev (.chunkLand 4 0) (copying [engAcc 0 (.performed [] 10)])) = [([], .running)] ∧
    ((ev (.chunkLand 4 0) (copying [engAcc 0 (.failed .key 0 0 0)])).sys.accesses = []) := by decide
/-- The source lies in paged space, and the walk of its page has faulted. -/
def pagedSource (skip : List (Nat × Nat)) : State :=
  copying [] (fun c => { c with skipped := skip }) [(0x400, 8, 0x1000000000001000), (0x408, 8, 0x2000), (0x410, 1, 4), (0x411, 1, 1), (0x418, 4, 64)]
    (fun y => { y with walkFaults := [{ cmd := 4, page := 0x1000, kind := 1, write := false }] })
theorem test_faults : ((ev (.chunkLand 4 0) (pagedSource [])).sys.cmds.map (fun c => c.skipped.map Prod.fst)) = [[0]] ∧
    (let t := ev (.copyFaulted 4) (pagedSource [(0, 0x1000)]); progress t = [([], .faulted)] ∧
      (t.sys.vf 0).faults = [{ kind := 1, vaddr := 0x1000, access := 1, cmdh := 4, first := 0, count := 1 }]) := by decide
def channel (as : List Access) : State := running (ran (.chopen te) (eng shapeRec)) as
theorem test_channel_chunk : let t := ev (.channelChunkLand 4) (channel [engAcc 0 (.performed [] 3)]);
    (tget (t.sys.core 0).channels 1 {}).wp = 256 ∧ t.sys.cmds.map (fun c => c.chunks) = [[0]] := by decide
/-- FIPS 180-4: the digest of "abc". -/
theorem test_sha512 : sha512 [0x61, 0x62, 0x63] =
    [0xDD, 0xAF, 0x35, 0xA1, 0x93, 0x61, 0x7A, 0xBA, 0xCC, 0x41, 0x73, 0x49, 0xAE, 0x20, 0x41, 0x31, 0x12, 0xE6, 0xFA, 0x4E, 0x89, 0xA9, 0x7E, 0xA2,
     0x0A, 0x9E, 0xEE, 0xE6, 0x4B, 0x55, 0xD3, 0x9A, 0x21, 0x92, 0x99, 0x2A, 0x27, 0x4F, 0xC1, 0xA8, 0x36, 0xBA, 0x3C, 0x23, 0xA3, 0xFE, 0xEB, 0xBD,
     0x45, 0x4D, 0x44, 0x23, 0x64, 0x3C, 0xE8, 0x0E, 0x2A, 0x9A, 0xC9, 0x4F, 0xA5, 0x4C, 0xA4, 0x9F] := by decide
/-- A digest of two bytes at 0x3000 whose list has been read; what it has read of them. -/
def digesting (as : List Access) (f : Cmd → Cmd := id) : State :=
  running (ran (.digest te) (eng digestRec)) as (fun c => f { c with sg := [(0, 2, 0x3000, false)] })
theorem test_digest : (ev (.digestComplete 4) (digesting [engAcc 1 (.performed [7, 8] 3) (.load 2) 0x3000])).sys.cmds.map (fun c => (c.progress, c.cursor)) = [([7, 8], 2)] ∧
    (asks (ev (.digestComplete 4) (digesting [] (fun c => { c with progress := [7, 8], cursor := 2 })))).length = 1 ∧
    progress (ev (.digestComplete 4) (digesting [engAcc 2 (.performed [] 3)] (fun c => { c with progress := [7, 8], cursor := 2 }))) = [([], .done)] := by decide
def soleCmd (s : State) (k : CmdKind) : Bool :=
  match s.sys.cmds with
  | [c] => decide (c.handle = 4 ∧ c.kind = k ∧ c.status = .running ∧ c.cancel = false ∧ c.inval = false ∧ c.bad = none ∧ c.ecause = none)
  | _ => false
def sole (s : State) : Cmd := s.sys.cmds.headD engine
theorem witness_ChunksAndDigests :
    (let s := copying [engAcc 0 (.performed [] 3)]; soleCmd s .copy ∧ allDone s.sys 9 (s.sys.engineAccs 4 0) ∧ (shapeOf (sole s).record).sg = false ∧
      (sole s).total = 1 ∧ (sole s).counted 0 = false ∧ (sole s).bar = none ∧ (shapeOf (sole s).record).bmen = false) ∧
    (let s := pagedSource []; soleCmd s .copy ∧ (sole s).pagesState s.sys false ((sole s).srcs 0) = .faulted ∧ (sole s).counted 0 = false) ∧
    (let s := pagedSource [(0, 0x1000)]; soleCmd s .copy ∧ (sole s).allWalked s.sys ∧ (sole s).counted 0 ∧ (sole s).total = 1 ∧ (s.sys.faultPages 4).length = 1 ∧
      (sole s).inPage 0 0x1000 false ≠ []) ∧
    (let s := channel [engAcc 0 (.performed [] 3)]; soleCmd s (.channel 1) ∧ (tget (s.sys.core 0).channels 1 {}).isOpen ∧ (sole s).total = 1) ∧
    (let s := digesting [] (fun c => { c with progress := [7, 8], cursor := 2 }); soleCmd s .digest ∧ (sole s).sg ≠ [] ∧ (sole s).regionBytes = 2 ∧
      ((sole s).target s.sys (field (sole s).record 0x10 8) 64 true).isSome) := by decide
/-- A ROUTE or a COMBINE with its state. -/
def collective (route : Bool) (q : RouteState) (f : Cmd → Cmd := id) (as : List Access := []) : State :=
  running (if route then ran (.route te) (eng routeRec) else ran (.combine te) (eng combineRec)) as (fun c => f { c with route := q })
def phases (s : State) : List (RoutePhase × CmdStatus) := s.sys.cmds.map (fun c => (c.route.phase, c.status))
/-- A COUNT unit of R234 with the routing of the record: E = 1, K = 1, RBYTES = 16, generation 0, GROUP 0 and OPNO 0; MBASE 0. -/
def countUnit (e : Nat := 1) (r : Nat := 16) : PUnit := BitVec.ofNat 128 (e * 2 ^ 64 + 2 ^ 75 + r * 2 ^ 80)
theorem test_route_phases : phases (ev (.routeWritesPerformed 4) (collective true {})) = [(.reading, .running)] ∧
    phases (ev (.routeWritesPerformed 4) (collective true { phase := .counting, members := [0], counts := [(0, [countUnit, 3])] })) = [(.working, .running)] ∧
    phases (ev (.routeWritesPerformed 4) (collective true { phase := .counting, members := [0], counts := [(0, [countUnit 1 8, 3])] })) = [(.counting, .error)] ∧
    phases (ev (.routeWritesPerformed 4) (collective true { phase := .counting, members := [0] })) = [(.counting, .running)] := by decide
/-- A choice of −1 leaves no row; one beyond the capacity is dropped (R231). -/
theorem test_route_items : (let t := ev (.routeWritesPerformed 4) (collective true { phase := .working } (fun c => { c with progress := [0xFF, 0xFF, 0, 0] }));
      t.sys.cmds.map (fun c => (c.route.item, c.route.invp, c.route.drops)) = [(1, [0xFFFFFFFF], [])]) ∧
    (let t := ev (.routeWritesPerformed 4) (collective true { phase := .working } (fun c => { c with progress := [0, 0, 0, 0] }));
      t.sys.cmds.map (fun c => (c.route.item, c.route.invp, c.route.drops)) = [(1, [0xFFFFFFFF], [0])]) ∧
    phases (ev (.routeWritesPerformed 4) (collective true { phase := .ending, members := [0], dones := [(0, true)] })) = [(.ending, .error)] := by decide
/-- The arrival on BAR: on an object that expects one, and on one that expects none, which overflows (R170). -/
theorem test_combine_done : phases (ev (.combineDone 4) (wr [(flatSram 0 0, 8, 0x100000000)] (collective false { phase := .writing }))) = [(.writing, .done)] ∧
    phases (ev (.combineDone 4) (collective false { phase := .writing })) = [(.writing, .error)] ∧
    (let t := ev (.combineDone 4) (collective false { phase := .working } (fun c => { c with progress := List.replicate 64 0 }));
      t.sys.cmds.map (fun c => (c.route.item, c.ecause.isSome)) = [(1, true)]) := by decide
def collPkt (op : BitVec 6) (u : PUnit) : Packet := { pkt with typ := tColl, op := op, len := 1, payload := [u] }
def receiving (p : Packet) (q : RouteState) : State := let r := collective true q
  { r with sys := (joined [p] (fun y => { y with cmds := r.sys.cmds })).sys }
theorem test_coll : (let t := ev (.collCount (collPkt 0 countUnit)) (receiving (collPkt 0 countUnit) { phase := .counting });
      t.sys.cmds.map (fun c => c.route.counts) = [[(5, [countUnit])]] ∧ (answers t).map Prod.fst = [tWrack]) ∧
    (let t := ev (.collCount (collPkt 0 countUnit)) (receiving (collPkt 0 countUnit) {}); (t.sys.part 0).held.length = 1) ∧
    (let t := ev (.collDone (collPkt 1 (2 ^ 79))) (receiving (collPkt 1 (2 ^ 79)) { phase := .ending }); t.sys.cmds.map (fun c => c.route.dones) = [[(5, true)]]) := by
  decide
/-- A snapshot of an empty partition with one die, and its target (R209). -/
def fabric0 : FabricImage :=
  { dies := 1, chips := [1], dsres := 64, vfs := [(0, placedHeap, 0, 0, false)], launches := [waiting gangRecord], blocks := [], waits := [], tombs := [], cgroups := []
    held := [], contribs := [], due := [], tileOwner := [], bins := [] }
def sink0 : Sink := { kind := 2, base := 0x0008000000008000, len := 0x10000 }
def sunk0 (k : Nat) (b : List Byte) (i : Image) : SunkRec := { snapno := 6, lchip := 1, sink := sink0, aborted := false, body := { rkind := k, ident := 0, body := b, image := i } }
def restoring (rs : List SunkRec) (st : PartState := .empty) : State :=
  pk (fun y => { y.modPart 0 (fun q => { q with st := st, joined := true, dom := 7, lchip := 1, sinks := [(0, sink0)] }) with
    groups := [], blocks := [], launches := [], sunk := rs })
def whole : List SunkRec := [sunk0 6 [] (.fabric fabric0), sunk0 7 (bytesOf 8 1) .bytes]
def target0 : RestoreTarget := { lchip := 1, part := 0, sinks := 1 }
def restored (s : State) (ts : List RestoreTarget := [target0]) : State := ev (.restore link 6 ts) s
theorem test_restore : (let t := restored (restoring whole); said' t = [(4, 0, [])] ∧ t.sys.launches.map (fun u => u.record.gridX) = [2] ∧
      (t.sys.part 0).st = .active ∧ (t.sys.remapOf 7 1).gen = 1) ∧ said' (restored (restoring (whole.take 1))) = [(4, 4, [])] ∧
    said' (restored (restoring whole .active)) = [(4, 1, [])] ∧ said' (restored (restoring whole) []) = [(4, 3, [])] ∧
    said' (ev (.restore vf4 6 [target0]) (restoring whole)) = [(4, 2, [])] := by decide
theorem witness_CollectivesAndRestore :
    (let s := collective true {}; soleCmd s .route ∧ s.sys.routesOn 0 < 8 ∧ s.sys.accesses = []) ∧
    (let s := collective true { phase := .counting, members := [0], counts := [(0, [countUnit, 3])] };
      ((sole s).route.countFrom 0).map (fun us => us.map ((sole s).route.differs (routingOf (sole s).record))) = some [false]) ∧
    (let s := collective true { phase := .working } (fun c => { c with progress := [0xFF, 0xFF, 0, 0] }); (sole s).choice 0 = -1 ∧ (sole s).choice 1 = 0 ∧
      0 < (routingOf (sole s).record).t * (routingOf (sole s).record).k) ∧
    (let s := collective true { phase := .writing, members := [0] }; allDone s.sys 9 (s.sys.engineAccs 4 3) ∧ (s.sys.part 0).joined = false ∧
      (routingOf (sole s).record).k < 16 ∧ (routingOf (sole s).record).e < 2048 ∧ (routingOf (sole s).record).cgroup < 65536) ∧
    (let s := wr [(flatSram 0 0, 8, 0x100000000)] (collective false { phase := .writing }); soleCmd s .combine ∧ (sole s).bar = some (flatSram 0 0) ∧
      s.sys.writeStalls (flatSram 0 0) 16 = false ∧ s.sys.readError (flatSram 0 0) 16 0 = none ∧ ((readBar s.mem (flatSram 0 0)).apply .arrive).isOver = false) ∧
    (let s := collective false { phase := .working } (fun c => { c with progress := List.replicate 64 0 }); ((sole s).tokenRows 0).any ((sole s).rowBad s.sys)) ∧
    (let p := collPkt 0 countUnit; arrives (receiving p { phase := .counting }) p tColl ∧ ((receiving p { phase := .counting }).sys.routeFor 0 countUnit).isSome ∧
      ((receiving p {}).sys.routeFor 0 countUnit).isNone) ∧
    (let s := restoring whole; recordsOf s 6 target0 = whole ∧ endsWell whole ∧ fabricOf whole = some fabric0 ∧ s.sys.fits 0 fabric0 ∧ logsOf whole = [] ∧
      (restoring whole .active).sys.fits 0 fabric0 = false) := by decide

/-! ### Matrix events (R111, R354 to R364) -/

theorem test_mma_result : let t := ev (.mmaResult 3) (pk (fun y => y.modGroup 3 (fun g => { g with mmas := [{ seq := 1, d := 8, n := 8, writes := [(2 * 128 + 8, 5)] }] })));
    v t 2 8 = 5 ∧ (g0 t).mmas = [] := by decide
/-- Four groups of a block at an MMAJ of one tag, type I8, lent registers as the first group's stand. -/
def mj (j : Bool) : Mmaj :=
  { jtag := 1, typ := 4, a := 8, d := 64, bar := bar, barAddr := barFlat, scales := [], lent := [], seq := 1, joined := j, done := false, corrupt := false
    writes := if j then [(64, 9)] else [] }
def joiners (n : Nat) : State :=
  pk (fun y => { y with groups := (List.range n).flatMap (fun i => y.groups.map (fun g => { g with handle := 3 + i, gix := i, quadrant := i, mmaj := some (mj false) })) })
theorem test_mmaj_join : (ev (.mmajJoin 3) (joiners 4)).sys.groups.map (fun g => g.mmaj.map (fun m => (m.joined, m.corrupt))) = List.replicate 4 (some (true, false)) ∧
    (ev (.mmajJoin 3) (joiners 3)).sys.groups.map (fun g => g.mmaj.map (fun m => m.joined)) = List.replicate 3 (some false) := by decide
def joined1 (w : Group → Group := id) : State := wr [(barFlat, 8, 0x200000006)] (pk (fun y => y.modGroup 3 (fun g => w { g with mmaj := some (mj true) })))
theorem test_mmaj_complete : let t := ev (.mmajComplete 3) (joined1); v t 0 64 = 9 ∧ (g0 t).mmaj = none ∧ readBar t.mem barFlat = obj 2 1 0 0 := by decide
/-- A record point withdraws an MMAJ that has not joined, and no other (R356). -/
theorem test_record_withdraws : let s := fun (j : Bool) => later 5 (let x := col point; { x with sys := x.sys.modGroup 3 (fun g => { g with mmaj := some (mj j) }) });
    (g0 (ev (.recordPoint 0 false) (s false))).mmaj = none ∧ ((g0 (ev (.recordPoint 0 false) (s true))).mmaj.map (fun m => m.joined)) = some true := by decide
/-- The 64-byte units of 1,024 bytes. -/
def units (f : Nat) : List Nat := (List.range 16).map (fun j => f + 64 * j)
def loop (ops : List (List Byte × List Byte)) : Mloop :=
  { id := 60, group := 3, gslot := 0, launch := 1, block := 2, core := 0, quadrant := 0, tile := 5, typ := 4, aPtrs := [0x400], bPtrs := [0x800]
    aSteps := [units (barFlat + 0x400)], bSteps := [units (barFlat + 0x800)], barPtr := bar.toNat, bar := some barFlat, operands := ops }
def looping (ops : List (List Byte × List Byte)) : State :=
  wr [(barFlat, 8, 0x200000006), (barFlat + 0x400, 2, 0x0302), (barFlat + 0x800, 2, 0x0504)] (pk (fun y => { y with mloops := [loop ops], tiles := [(tileWord 0 5 0, 10)] }))
theorem test_mloop_steps : (let t := ev (.mloopOperandsRead 60) (looping []); t.sys.mloops.map (fun m => m.operands.map (fun q => (q.1.take 2, q.2.take 2))) =
      [[([2, 3], [4, 5])]]) ∧ (ev (.mloopOperandsRead 60) (looping [([], [])])).sys.mloops = [loop [([], [])]] := by decide
/-- An uncorrectable step ends the MLOOP with a record of its pointer (R62). -/
theorem test_mloop_ecc : let t := ev (.mloopOperandsRead 60) { looping [] with sys := { (looping []).sys with eccBad := [eccWord (barFlat + 0x800)] } };
    t.sys.mloops = [] ∧ t.sys.tiles = (looping []).sys.tiles ∧ (t.sys.part 0).eal.head?.map (fun r => (r.cause, r.addr, r.rkind)) = some (19, 0x800, 2) := by decide
/-- Row 1 of A is 2, 3 and column 1 of B is 4, −5: 10 + 2 × 4 − 3 × 5 (R354, R358, I8). -/
theorem test_mloop_sum : accReal 4 10 (stepK 4 (List.replicate 32 0 ++ [2, 3]) 1) (stepK 4 (List.replicate 32 0 ++ [4, 0xFB]) 1) = 3 := by decide
def arrived : TileOp := { id := 61, core := 0, tile := 5, group := 3, block := 2, seq := 1, rows := (List.range 32).map (fun r => (128 * r, bytesOf 128 (7 * r))), complex := false }
/-- Bytes are still missing: nothing changes. Words of a tile are written at row 3, column 0. -/
theorem test_aload_data : (let s := pk (fun y => { y with tileOps := [{ arrived with rows := arrived.rows.take 2 }] }); (ev (.aloadMData 61) s).sys = (at_ (.aloadMData 61) s).sys) ∧
    (writeTile placed 0 5 [(96, 21)]).tile 0 5 3 0 = 21 := by decide
theorem witness_MatrixEvents : (let s := joiners 4; (s.sys.groups.filter (fun g => g.handle == 3)).length = 1 ∧ (s.sys.joinSet (g0 s)).length = 4 ∧ (g0 s).block = some 2 ∧
      (g0 s).mmaj = some (mj false)) ∧ (let s := joined1; s.sys.writeStalls barFlat 16 = false ∧ (g0 s).lentNow 8 64 = [] ∧ s.sys.readError barFlat 16 0 = none) ∧
    (let s := looping []; s.sys.mloops.filter (fun m => m.id == 60) = [loop []] ∧ s.sys.mloopTurn (loop []) ∧ s.sys.readError (barFlat + 0x400) 1024 0 = none ∧ s.sys.tileStalls 0 5 = false) ∧
    (let s := pk (fun y => { y with tileOps := [arrived] }); s.sys.tileOps.filter (fun o => o.id == 61) = [arrived] ∧ s.sys.tileStalls 0 5 = false ∧
      (arrived.rows.map (fun r => r.2.length)).sum = 4096) := by decide

/-! ### The machine as a whole -/

/-- What a step leaves. -/
def next (s : State) : State := match step s with | .next t => t | _ => s
/-- IADD v1, v0, v8 in the placed group: one turn runs it. -/
def addPlaced : State := let s := State.reset.withFetchWord 32 0x00040087
  { s with sys := { s.sys with groups := s.sys.groups.map (setV [(0, 0, 5), (0, 8, 6)]) } }
theorem test_step_issue : v (next addPlaced) 0 1 = 11 ∧ pcs (next addPlaced) = [(4, 0xFFFFFFFF)] ∧ (next addPlaced).gtime = 1 := by decide
theorem test_step_undefined : trap (next (State.reset.withFetchWord 32 0xFFFFFFFF)) = some (.illegal, 0xFFFFFFFF) := by decide
/-- Turns of no agent, of an event, and of the control processor, whose code holds IADD x1, x2, x3. -/
def coded (c : Cp) : Cp := { c with running := true, code := cellsAt 0 (bytesOf 4 0x00040087) }
def turned (a : Act) : State :=
  { placed with sys := { (placed.sys.modCp 0 (fun c => setX [(0, 5), (8, 6)] (coded c))) with turns := [{ ns := 7, act := a }] } }
theorem test_step_turns : (next (turned .idle)).gtime = 7 ∧ x (next (turned (.cp 0))) 1 = 11 ∧ (next (turned (.event .powerOn))).sys.resetStep = 0 ∧
    (next placed).sys.turns = [] := by decide
theorem witness_StepRunsTheDecodedInstruction : (turned .idle).sys.turns = [{ ns := 7, act := .idle }] ∧ (Event.powerOn).wellFormed ∧ mayHappen (turned .idle) .powerOn ∧
    (cp (turned .idle)).delay = 0 ∧ (turned .idle).sys.cpReady 0 ∧
    (match decodeWord 0x00040087 with | .ok i => decide (i = .iadd { s := false, d := 1, a := 0, b := 8, m := false, g := 7 }) | .error _ => false) = true ∧
    BitVec.ofNat 32 (numOf (readBytes (cp (turned .idle)).code 0 4)) = (0x00040087 : Word) ∧
    (let u := elapse { addPlaced with sys := { addPlaced.sys with turns := [] } } 1; let w := u.sys.slotPasses 0 0;
      u.sys.candidates 0 0 = [.group 3 0] ∧ ((w.group? 3).bind (fun g => g.entry? 0)).isSome ∧ (w.launch? 1).isSome ∧
      (w.launch? 1).bind (fun l => heapFlat (w.part l.part) l.heap (offsetOf l.record.code.toNat + 0) 4) = some (0, 1) ∧ w.readError 0 4 1 = none ∧
      readBytes u.mem 0 4 = [0x87, 0, 4, 0]) := by decide
/-- A turn of five nanoseconds at whose end a record point has come, one at which nothing has, and a die that withholds issue slots. -/
theorem witness_StepRunsTheDecodedInstruction_due : let s := col point;
    dueEvent (elapse { s with sys := { s.sys with turns := [] } } 5).noted = some (.recordPoint 0 false) ∧
    dueEvent (elapse { turned .idle with sys := { (turned .idle).sys with turns := [] } } 7).noted = none ∧
    (turned .idle).sys.withholds 0 = false ∧ { (turned .idle).sys with dies := [(0, { capHeld := 15 })] }.withholds 0 ∧
    (match decodeWord 0xFFFFFFFF with | .ok _ => false | .error _ => true) = true := by decide
theorem witness_DecodeEncode : (Instr.iadd { s := false, d := 1, a := 0, b := 8, m := false, g := 7 }).wellFormed = true ∧
    encodeWord (.iadd { s := false, d := 1, a := 0, b := 8, m := false, g := 7 }) = some 0x00040087 := by decide
theorem witness_NoStepStops : ∃ t, step State.reset = .next t := ⟨_, rfl⟩
theorem witness_MemoryStaysCanonical : placed.wf ∧ ∃ t, step placed = .next t := ⟨by unfold State.wf; decide, next placed, rfl⟩
theorem witness_WordsLeaveMemory : (encodeWord (.iadd o3)).isSome = true ∧ ∃ t, exec (.iadd o3) (two 1 2) = .next t := ⟨by decide, ran (.iadd o3) (two 1 2), rfl⟩
theorem witness_ClockAndFuseGoForward : ∃ t, step (turned .idle) = .next t := ⟨next (turned .idle), rfl⟩

/-- Traps at issue, with 16 registers, with v1 pending in lane 3, with a class that is reserved, and outside every space. -/
def only16 (g : Group) : Group := { g with allot := 16 }
def pendingV1 (g : Group) : Group := { g with regs := { g.regs with pend := [(1, 8)] } }
theorem test_issue_traps : stops (.iadd { o3 with d := 20 }) (grp only16) = some (.illegal, 0xFFFFFFFF) ∧ stops (.iadd o3) (grp pendingV1) = some (.hazard, 8) ∧
    stops (.ld32 { tm with c := 3 }) (mem 0x100) = some (.class, 0xFFFFFFFF) ∧ stops (.ld32 tm) (mem 0xF000000000000000) = some (.space, 1) ∧
    stops (.cmdstat { s := false, d := 4, a := 8, g := 7 }) (grp id) = some (.privilege, 0xFFFFFFFF) := by decide
theorem witness_IssueTraps : iss (grp only16) (fun i => !i.cp && decide (i.e.hints = {} ∧ i.g.allot = 16)) ∧
    iss (grp pendingV1) (fun i => decide (sget i.g.regs.pend 1 &&& i.real (i.act 7) = 8 ∧ i.g.allot = 128)) ∧
    iss (mem 0x100) (fun i => !i.cp && decide (i.e.hints = {} ∧ i.g.mmas = [] ∧ ((mem 0x100).sys.pruned i.now i.g).length < 16 ∧ i.real (i.act 1) = 1)) ∧
    iss (mem 0xF000000000000000) (fun i => decide ((i.laneAddr 2 0 0).base / 2 ^ 60 = 15 ∧ (i.laneAddr 2 0 0).ea / 2 ^ 60 = 15)) := by decide

end Sys2Proof.Tests
end

namespace Sys2Proof.Machine

/-! ## A host's control of a virtual function (R67 to R69) -/

/-! ### Induction over a list of updates -/

/-- What one update of a list establishes and every update keeps holds after all of them. -/
theorem foldl_establishes {α β : Type} {f : β → α → β} {I P : β → Prop} (keepI : ∀ y b, I y → I (f y b))
    (keep : ∀ y b, P y → P (f y b)) {a : α} (now : ∀ y, I y → P (f y a)) {l : List α} (ha : a ∈ l) {y : β} (hy : I y) : P (l.foldl f y) := by
  induction l generalizing y with
  | nil => cases ha
  | cons b r ih =>
    rw [List.foldl_cons]
    rcases List.mem_cons.1 ha with rfl | ha
    · exact List.foldlRecOn r f (now y hy) (fun z hz b _ => keep z b hz)
    · exact ih ha (keepI y b hy)

/-! ### What an event answers -/

/-- An event that writes no byte of memory answers the state with the package as it leaves it. -/
theorem eventNext_sys {f : State → Eff} {s : State} {y : Sys} (h : f s = { sys := y }) : eventNext f s = .next { s with sys := y } := by
  rw [eventNext_next, h]
  rfl

theorem exec_vfEnable {s : State} {n : Nat} (h : s.sys.ev = some (.vfEnable n)) :
    exec .vfEnable s = .next { s with sys := s.sys.modVf n Vf.enable } := by
  change execVfEnable s = _
  exact eventNext_sys (by simp only [h]; rfl)

theorem exec_vfPause {s : State} {n : Nat} (h : s.sys.ev = some (.vfPause n)) :
    exec .vfPause s = .next { s with sys := s.sys.modVf n Vf.pause } := by
  change execVfPause s = _
  exact eventNext_sys (by simp only [h]; rfl)

theorem exec_vfStop {s : State} {n : Nat} (h : s.sys.ev = some (.vfStop n)) :
    exec .vfStop s = .next { s with sys := s.sys.stopVf n } := by
  change execVfStop s = _
  exact eventNext_sys (by simp only [h]; rfl)

theorem exec_vfKill {s : State} {n : Nat} (h : s.sys.ev = some (.vfKill n)) :
    exec .vfKill s = .next { s with sys := s.sys.killVf s.gtime n } := by
  change execVfKill s = _
  exact eventNext_sys (by simp only [h]; rfl)

theorem exec_registerWrite {s : State} {n ofs : Nat} {w : Word} (h : s.sys.ev = some (.registerWrite n ofs w)) :
    exec .registerWrite s = .next { s with sys := writeBar s n ofs w } := by
  change execRegisterWrite s = _
  exact eventNext_sys (by simp only [h])

theorem exec_commandDoorbell {s : State} {n : Nat} {i : Word} (h : s.sys.ev = some (.commandDoorbell n i)) :
    exec .commandDoorbell s = .next { s with sys := s.sys.doorbell s.gtime n 0 i } := by
  change execCommandDoorbell s = _
  exact eventNext_sys (by simp only [h])

theorem exec_replyDoorbell {s : State} {n : Nat} {i : Word} (h : s.sys.ev = some (.replyDoorbell n i)) :
    exec .replyDoorbell s = .next { s with sys := s.sys.doorbell s.gtime n 5 i } := by
  change execReplyDoorbell s = _
  exact eventNext_sys (by simp only [h])

theorem exec_cidxWrite {s : State} {n k : Nat} {i : Word} (h : s.sys.ev = some (.cidxWrite n k i)) (h1 : 1 ≤ k) (h4 : k ≤ 4) :
    exec .cidxWrite s = .next { s with sys := s.sys.modVf n (fun v => v.writeCidx k i) } := by
  change execCidxWrite s = _
  exact eventNext_sys (by simp [h, h1, h4])

/-! ### One VF's registers -/

theorem Sys.modVf_same (y : Sys) (n : Nat) (f : Vf → Vf) : (y.modVf n f).vf n = f (y.vf n) := by simp

theorem Sys.modVf_other (y : Sys) {n k : Nat} (f : Vf → Vf) (h : k ≠ n) : (y.modVf n f).vf k = y.vf k := by simp [h]

@[simp] theorem Sys.modVf_part (y : Sys) (n p : Nat) (f : Vf → Vf) : (y.modVf n f).part p = y.part p := rfl
@[simp] theorem Sys.modPart_vf (y : Sys) (p n : Nat) (f : Part → Part) : (y.modPart p f).vf n = y.vf n := rfl

@[simp] theorem Vf.modRing_ring (v : Vf) (k j : Nat) (f : Ring → Ring) :
    (v.modRing k f).ring j = if j = k then f (v.ring k) else v.ring j := by
  simp [Vf.modRing, Vf.ring]

/-! ### EN (R67, R69) -/

/-- An entry of a table whose entries are all changed, where the default is. -/
theorem tget_map {α : Type} (l : List (Nat × α)) (i : Nat) {d : α} (f : α → α) (hd : f d = d) :
    tget (l.map (fun r => (r.1, f r.2))) i d = f (tget l i d) := by
  induction l with
  | nil => exact hd.symm
  | cons p r ih =>
    simp only [List.map_cons, tget, ih]
    split <;> rfl

theorem Vf.enable_ring (v : Vf) (k : Nat) : v.enable.ring k = { v.ring k with halted := false } :=
  tget_map v.rings k (fun r => { r with halted := false }) rfl

/-- A ring register or index is valid as R68 says. -/
theorem Ring.bad_eq_false (r : Ring) : r.bad = false ↔
    r.base.toNat % 4096 = 0 ∧ 4 ≤ r.log2n.toNat ∧ r.log2n.toNat ≤ 12 ∧ (r.pidx - r.cidx).toNat ≤ 2 ^ r.log2n.toNat := by
  simp only [Ring.bad, Bool.or_eq_false_iff, bne_eq_false_iff_eq, decide_eq_false_iff_not, Nat.not_lt, and_assoc]
  rfl

theorem Vf.enable_run (v : Vf) : v.enable.run = true ↔ ∀ k, k < 6 →
    (v.ring k).base.toNat % 4096 = 0 ∧ 4 ≤ (v.ring k).log2n.toNat ∧ (v.ring k).log2n.toNat ≤ 12 ∧
      ((v.ring k).pidx - (v.ring k).cidx).toNat ≤ 2 ^ (v.ring k).log2n.toNat := by
  simp only [Vf.enable, List.all_eq_true, List.mem_range, Bool.not_eq_true', Ring.bad_eq_false]

theorem Vf.enable_cfgerr (v : Vf) : v.enable.cfgerr = true ↔ v.enable.run = false := by simp [Vf.enable]

/-! ### What the host's side leaves of the work under way -/

/-- Two packages have the same launches, groups, engine commands and waits for the pending-launch store. -/
structure SameWork (y z : Sys) : Prop where
  launches : z.launches = y.launches
  groups : z.groups = y.groups
  cmds : z.cmds = y.cmds
  storeWaits : z.storeWaits = y.storeWaits

theorem SameWork.refl (y : Sys) : SameWork y y := ⟨rfl, rfl, rfl, rfl⟩

theorem SameWork.trans {x y z : Sys} (h : SameWork x y) (k : SameWork y z) : SameWork x z :=
  ⟨k.launches.trans h.launches, k.groups.trans h.groups, k.cmds.trans h.cmds, k.storeWaits.trans h.storeWaits⟩

theorem SameWork.foldl {α : Type} {f : Sys → α → Sys} (h : ∀ y a, SameWork y (f y a)) (l : List α) (y : Sys) : SameWork y (l.foldl f y) :=
  List.foldlRecOn l f (.refl y) (fun z hz a _ => hz.trans (h z a))

theorem sameWork_modVf (y : Sys) (n : Nat) (f : Vf → Vf) : SameWork y (y.modVf n f) := ⟨rfl, rfl, rfl, rfl⟩

theorem sameWork_modPart (y : Sys) (p : Nat) (f : Part → Part) : SameWork y (y.modPart p f) := ⟨rfl, rfl, rfl, rfl⟩

/-! ### A host command completes (R72) -/

/-- A command with its result, which waits for its completion entry. -/
def HostCmd.done (c : HostCmd) (st : HostStatus) (r : DWord) : HostCmd := { c with result := some (st, r), running := false }

/-- What completing a command does: nothing where it is not there or has its result, else it takes the result and its VF's completion ring
has one entry more to write. -/
theorem Sys.completeHost_cases (y : Sys) (u : Nat) (st : HostStatus) (r : DWord) :
    (y.completeHost u st r = y ∧ ∀ c, y.hostCmd? u = some c → c.result.isSome = true) ∨
    ∃ c, y.hostCmd? u = some c ∧ c.result = none ∧ y.completeHost u st r =
      (y.modHostCmd u (fun x => x.done st r)).modVf c.vf (fun v => { v with completions := v.completions ++ [u] }) := by
  unfold Sys.completeHost
  split
  next h => exact .inl ⟨rfl, fun c hc => by rw [h] at hc; cases hc⟩
  next c h =>
    split
    next hr => exact .inl ⟨rfl, fun x hx => by rw [h] at hx; cases hx; exact hr⟩
    next hr => exact .inr ⟨c, h, by simpa using hr, rfl⟩

theorem sameWork_completeHost (y : Sys) (u : Nat) (st : HostStatus) (r : DWord) : SameWork y (y.completeHost u st r) := by
  obtain ⟨e, _⟩ | ⟨c, _, _, e⟩ := y.completeHost_cases u st r
  · rw [e]; exact .refl y
  · rw [e]; exact ⟨rfl, rfl, rfl, rfl⟩

@[simp] theorem Sys.completeHost_part (y : Sys) (u p : Nat) (st : HostStatus) (r : DWord) : (y.completeHost u st r).part p = y.part p := by
  obtain ⟨e, _⟩ | ⟨c, _, _, e⟩ := y.completeHost_cases u st r
  · rw [e]
  · rw [e]; rfl

theorem Sys.modHostCmd_done (y : Sys) (u k : Nat) (st : HostStatus) (r : DWord) :
    (y.modHostCmd u (fun x => x.done st r)).hostCmd? k = if k = u then (y.hostCmd? k).map (fun x => x.done st r) else y.hostCmd? k :=
  Sys.modHostCmd_find y u k _ (fun _ => rfl)

/-- Another command's completion leaves a command. -/
theorem Sys.completeHost_other (y : Sys) {u k : Nat} (st : HostStatus) (r : DWord) (hk : k ≠ u) :
    (y.completeHost u st r).hostCmd? k = y.hostCmd? k := by
  obtain ⟨e, _⟩ | ⟨c, _, _, e⟩ := y.completeHost_cases u st r
  · rw [e]
  · rw [e]
    exact (y.modHostCmd_done u k st r).trans (if_neg hk)

/-- A command without a result takes it. -/
theorem Sys.completeHost_takes {y : Sys} {u : Nat} {c : HostCmd} (st : HostStatus) (r : DWord) (h : y.hostCmd? u = some c)
    (hc : c.result = none) : (y.completeHost u st r).hostCmd? u = some (c.done st r) := by
  obtain ⟨_, hs⟩ | ⟨_, _, _, e⟩ := y.completeHost_cases u st r
  · simpa [hc] using hs c h
  · rw [e]
    exact (y.modHostCmd_done u u st r).trans (by simp [h])

/-- A result, once taken, stands. -/
theorem Sys.completeHost_keeps {y : Sys} {k : Nat} {c : HostCmd} (u : Nat) (st : HostStatus) (r : DWord) (h : y.hostCmd? k = some c)
    (hc : c.result.isSome = true) : (y.completeHost u st r).hostCmd? k = some c := by
  by_cases hk : k = u
  · subst hk
    obtain ⟨e, _⟩ | ⟨x, hx, hn, _⟩ := y.completeHost_cases k st r
    · rw [e, h]
    · rw [h] at hx
      cases hx
      simp [hn] at hc
  · rw [Sys.completeHost_other y st r hk, h]

/-! ### STOP (R69) -/

/-- STOP of one command read and not started: its entry is consumed where it stood in its ring for its record, and it completes. -/
def Sys.stopCommand (n : Nat) (y : Sys) (c : HostCmd) : Sys :=
  (if pointsOn c.opc.toNat then y.consume n 0 else y).completeHost c.uid .stopped 0

/-- The commands of a VF read and not started. -/
def Sys.unstartedOf (y : Sys) (n : Nat) : List HostCmd := (y.hostCmdsOf n).filter (fun c => !c.running && c.result.isNone)

/-- The package once STOP has completed the commands not started. -/
def Sys.stopCommands (y : Sys) (n : Nat) : Sys := (y.unstartedOf n).foldl (Sys.stopCommand n) y

/-- The same with the stop under way. -/
def Sys.markStop (y : Sys) (n : Nat) : Sys := (y.stopCommands n).modVf n (fun v => { v with stopping := true, stopped := false })

/-- The package that STOP leaves before it is seen whether the stop has ended: its partition drains. -/
def Sys.beginStop (y : Sys) (n : Nat) : Sys :=
  if (y.vf n).valid && (((y.markStop n).part (y.vf n).part.toNat).st == .active || ((y.markStop n).part (y.vf n).part.toNat).st == .empty) then
    (y.markStop n).modPart (y.vf n).part.toNat (fun q => { q with st := .draining })
  else y.markStop n

theorem Sys.stopVf_eq (y : Sys) (n : Nat) : y.stopVf n = (y.beginStop n).settleStop n := rfl

theorem sameWork_stopCommand (n : Nat) (y : Sys) (c : HostCmd) : SameWork y (y.stopCommand n c) := by
  refine SameWork.trans ?_ (sameWork_completeHost _ _ _ _)
  split
  · exact sameWork_modVf y n _
  · exact .refl y

theorem Sys.stopCommand_part (n p : Nat) (y : Sys) (c : HostCmd) : (y.stopCommand n c).part p = y.part p := by
  unfold Sys.stopCommand
  split <;> simp [Sys.consume]

theorem Sys.stopCommands_part (y : Sys) (n p : Nat) : (y.stopCommands n).part p = y.part p :=
  List.foldlRecOn (motive := fun z => z.part p = y.part p) _ _ rfl (fun z hz c _ => (Sys.stopCommand_part n p z c).trans hz)

theorem Sys.stopCommand_keeps {n k : Nat} {y : Sys} {x : HostCmd} (c : HostCmd) (h : y.hostCmd? k = some x) (hx : x.result.isSome = true) :
    (y.stopCommand n c).hostCmd? k = some x := by
  refine Sys.completeHost_keeps _ _ _ ?_ hx
  split
  · exact h
  · exact h

/-- The command of a number has completed with STOPPED. -/
def Sys.hasStopped (u : Nat) (y : Sys) : Prop := ∃ x, y.hostCmd? u = some x ∧ x.result = some (.stopped, 0)

/-- The command of a number has completed with STOPPED or not at all. -/
def Sys.mayStop (u : Nat) (y : Sys) : Prop := ∃ x, y.hostCmd? u = some x ∧ (x.result = none ∨ x.result = some (.stopped, 0))

theorem Sys.hasStopped_stopCommand {u : Nat} (n : Nat) (y : Sys) (c : HostCmd) (h : y.hasStopped u) : (y.stopCommand n c).hasStopped u := by
  obtain ⟨x, hx, hr⟩ := h
  exact ⟨x, Sys.stopCommand_keeps c hx (by rw [hr]; rfl), hr⟩

theorem Sys.hasStopped_of_mayStop (n : Nat) (y : Sys) (c : HostCmd) (h : y.mayStop c.uid) : (y.stopCommand n c).hasStopped c.uid := by
  obtain ⟨x, hx, hr | hr⟩ := h
  · refine ⟨_, Sys.completeHost_takes .stopped 0 (c := x) ?_ hr, rfl⟩
    split
    · exact hx
    · exact hx
  · exact Sys.hasStopped_stopCommand n y c ⟨x, hx, hr⟩

theorem Sys.mayStop_stopCommand {u : Nat} (n : Nat) (y : Sys) (c : HostCmd) (h : y.mayStop u) : (y.stopCommand n c).mayStop u := by
  by_cases hu : u = c.uid
  · subst hu
    obtain ⟨x, hx, hr⟩ := Sys.hasStopped_of_mayStop n y c h
    exact ⟨x, hx, .inr hr⟩
  · obtain ⟨x, hx, hr⟩ := h
    refine ⟨x, (Sys.completeHost_other _ _ _ hu).trans ?_, hr⟩
    split
    · exact hx
    · exact hx

/-- A command alone of its number, read and not started, completes with STOPPED. -/
theorem Sys.stopCommands_stops {y : Sys} {n : Nat} {c : HostCmd} (hu : y.hostCmd? c.uid = some c) (hc : c ∈ y.unstartedOf n) :
    (y.stopCommands n).hasStopped c.uid :=
  foldl_establishes (I := Sys.mayStop c.uid) (Sys.mayStop_stopCommand n) (Sys.hasStopped_stopCommand n)
    (fun z hz => Sys.hasStopped_of_mayStop n z c hz) hc
    ⟨c, hu, .inl (by simpa using (Bool.and_eq_true_iff.1 (List.mem_filter.1 hc).2).2)⟩

theorem Sys.markStop_part (y : Sys) (n p : Nat) : (y.markStop n).part p = y.part p := y.stopCommands_part n p

theorem sameWork_markStop (y : Sys) (n : Nat) : SameWork y (y.markStop n) :=
  (SameWork.foldl (sameWork_stopCommand n) _ y).trans (sameWork_modVf _ n _)

theorem sameWork_beginStop (y : Sys) (n : Nat) : SameWork y (y.beginStop n) := by
  unfold Sys.beginStop
  split
  · exact (sameWork_markStop y n).trans (sameWork_modPart _ _ _)
  · exact sameWork_markStop y n

theorem Sys.beginStop_vf (y : Sys) (n : Nat) : (y.beginStop n).vf n = { (y.stopCommands n).vf n with stopping := true, stopped := false } := by
  unfold Sys.beginStop
  split <;> simp [Sys.markStop]

theorem Sys.beginStop_hostCmds (y : Sys) (n : Nat) : (y.beginStop n).hostCmds = (y.stopCommands n).hostCmds := by
  unfold Sys.beginStop
  split <;> rfl

/-- A partition with work, or without any, drains. -/
theorem Sys.beginStop_drains {y : Sys} {n : Nat} (hv : (y.vf n).valid = true)
    (hs : (y.part (y.vf n).part.toNat).st = .active ∨ (y.part (y.vf n).part.toNat).st = .empty) :
    ((y.beginStop n).part (y.vf n).part.toNat).st = .draining := by
  unfold Sys.beginStop
  rw [if_pos (by simpa [hv, Sys.markStop_part] using hs)]
  simp

theorem Sys.stopCommands_of_none {y : Sys} {n : Nat} (h : y.hostCmdsOf n = []) : y.stopCommands n = y := by
  simp [Sys.stopCommands, Sys.unstartedOf, h]

/-- A VF once its stop has ended: STOPPED is set, and EN and RUN read 0. -/
def Vf.endStop (v : Vf) : Vf := { v with stopping := false, stopped := true, en := false, run := false }

/-- A stop goes on or ends. -/
theorem Sys.settleStop_cases (y : Sys) (n : Nat) : y.settleStop n = y ∨ y.settleStop n = y.modVf n Vf.endStop := by
  unfold Sys.settleStop
  simp only
  split
  · exact .inr rfl
  · exact .inl rfl

theorem sameWork_settleStop (y : Sys) (n : Nat) : SameWork y (y.settleStop n) := by
  obtain e | e := y.settleStop_cases n
  · rw [e]; exact .refl y
  · rw [e]; exact sameWork_modVf y n _

theorem Sys.settleStop_part (y : Sys) (n p : Nat) : (y.settleStop n).part p = y.part p := by
  obtain e | e := y.settleStop_cases n
  · rw [e]
  · rw [e]; rfl

theorem Sys.settleStop_hostCmds (y : Sys) (n : Nat) : (y.settleStop n).hostCmds = y.hostCmds := by
  obtain e | e := y.settleStop_cases n
  · rw [e]
  · rw [e]; rfl

/-- A VF's stop has ended. -/
def Vf.ended (v : Vf) : Prop := v.stopped = true ∧ v.en = false ∧ v.run = false

theorem Sys.settleStop_vf {y : Sys} {n : Nat} (h : (y.vf n).stopping = true) :
    ((y.settleStop n).vf n).stopping = true ∨ ((y.settleStop n).vf n).ended := by
  obtain e | e := y.settleStop_cases n
  · exact .inl (by rw [e, h])
  · exact .inr (by rw [e, Sys.modVf_same]; exact ⟨rfl, rfl, rfl⟩)

theorem Sys.settleStop_of_started {y : Sys} {n : Nat} (h : y.vfStarted n = true) : y.settleStop n = y := by
  simp [Sys.settleStop, h]

theorem Sys.settleStop_ends {y : Sys} {n : Nat} (hs : (y.vf n).stopping = true) (hw : y.vfStarted n = false) (hc : y.hostCmdsOf n = [])
    (hr : ((y.vf n).ring 0).pidx = ((y.vf n).ring 0).cidx) : ((y.settleStop n).vf n).ended := by
  simp [Sys.settleStop, hs, hw, hc, hr, Vf.ended]

theorem sameWork_stopVf (y : Sys) (n : Nat) : SameWork y (y.stopVf n) := (sameWork_beginStop y n).trans (sameWork_settleStop _ n)

theorem Sys.stopVf_vf (y : Sys) (n : Nat) : ((y.stopVf n).vf n).stopping = true ∨ ((y.stopVf n).vf n).ended := by
  rw [Sys.stopVf_eq]
  exact Sys.settleStop_vf (by rw [Sys.beginStop_vf])

/-- With nothing of the VF started and its command ring empty, STOP ends at once. -/
theorem Sys.stopVf_ends {y : Sys} {n : Nat} (hc : y.hostCmdsOf n = []) (hl : ∀ l ∈ y.launches, l.vf = n → l.finished = true)
    (hw : ∀ w ∈ y.storeWaits, w.vf ≠ n) (hk : ∀ c ∈ y.cmds, c.vf = n → c.isOpen = false)
    (hr : ((y.vf n).ring 0).pidx = ((y.vf n).ring 0).cidx) : ((y.stopVf n).vf n).ended := by
  have hv := y.beginStop_vf n
  rw [Sys.stopCommands_of_none hc] at hv
  have hq : (y.beginStop n).hostCmdsOf n = [] := by
    rw [Sys.hostCmdsOf, Sys.beginStop_hostCmds, Sys.stopCommands_of_none hc]
    exact hc
  obtain ⟨el, _, ek, ew⟩ := sameWork_beginStop y n
  rw [Sys.stopVf_eq]
  refine Sys.settleStop_ends (by rw [hv]) ?_ hq (by rw [hv]; exact hr)
  simp only [Sys.vfStarted, hq, el, ek, ew, List.any_nil, Bool.false_or, Bool.or_eq_false_iff, List.any_eq_false, Bool.and_eq_true,
    beq_iff_eq, not_and, Bool.not_eq_true, Bool.not_eq_false']
  exact ⟨⟨hl, hw⟩, hk⟩

/-- While a launch or an engine command of the VF is under way, the stop goes on. -/
theorem Sys.stopVf_goes {y : Sys} {n : Nat}
    (h : (∃ l ∈ y.launches, l.vf = n ∧ l.finished = false) ∨ (∃ c ∈ y.cmds, c.vf = n ∧ c.isOpen = true)) :
    ((y.stopVf n).vf n).stopping = true := by
  obtain ⟨el, _, ek, _⟩ := sameWork_beginStop y n
  have hs : (y.beginStop n).vfStarted n = true := by
    simp only [Sys.vfStarted, el, ek, Bool.or_eq_true, List.any_eq_true, Bool.and_eq_true, beq_iff_eq, Bool.not_eq_true']
    exact h.elim (fun hl => .inl (.inl (.inr hl))) .inr
  rw [Sys.stopVf_eq, Sys.settleStop_of_started hs, Sys.beginStop_vf]

theorem Sys.stopVf_drains {y : Sys} {n : Nat} (hv : (y.vf n).valid = true)
    (hs : (y.part (y.vf n).part.toNat).st = .active ∨ (y.part (y.vf n).part.toNat).st = .empty) :
    ((y.stopVf n).part (y.vf n).part.toNat).st = .draining := by
  rw [Sys.stopVf_eq, Sys.settleStop_part, Sys.beginStop_drains hv hs]

theorem Sys.stopVf_stops {y : Sys} {n : Nat} {c : HostCmd} (hc : c ∈ y.hostCmds) (hu : y.hostCmds.filter (fun x => x.uid == c.uid) = [c])
    (hn : c.vf = n) (hg : c.running = false) (hr : c.result = none) :
    ∃ x ∈ (y.stopVf n).hostCmds, x.uid = c.uid ∧ x.result = some (.stopped, 0) := by
  have h1 : y.hostCmd? c.uid = some c := by rw [Sys.hostCmd?, ← List.head?_filter, hu]; rfl
  have h2 : c ∈ y.unstartedOf n := by simp [Sys.unstartedOf, Sys.hostCmdsOf, hc, hn, hg, hr]
  obtain ⟨x, hx, hres⟩ := Sys.stopCommands_stops h1 h2
  have e : (y.stopVf n).hostCmds = (y.stopCommands n).hostCmds :=
    (Sys.settleStop_hostCmds _ n).trans (y.beginStop_hostCmds n)
  rw [e]
  exact ⟨x, List.mem_of_find?_eq_some hx, by simpa using List.find?_some hx, hres⟩

end Sys2Proof.Machine

namespace Sys2Proof.Machine

/-! ## KILL of a virtual function (R69) -/

/-! ### The ends of groups and launches -/

/-- What an end of groups and launches does to the work under way: engine commands stay, waits for the store only go, and every launch and
group that is left is one that was, ended if it was ended. -/
structure EndsWork (y z : Sys) : Prop where
  cmds : z.cmds = y.cmds
  storeWaits : ∀ w ∈ z.storeWaits, w ∈ y.storeWaits
  launches : ∀ l ∈ z.launches, ∃ k ∈ y.launches, k.uid = l.uid ∧ k.vf = l.vf ∧ k.finished = l.finished ∧
    (k.terminated = true → l.terminated = true)
  groups : ∀ g ∈ z.groups, ∃ k ∈ y.groups, k.handle = g.handle ∧ k.launch = g.launch ∧ (k.killed = true → g.killed = true)

theorem SameWork.endsWork {y z : Sys} (h : SameWork y z) : EndsWork y z :=
  ⟨h.cmds, fun _ hw => h.storeWaits ▸ hw, fun l hl => ⟨l, h.launches ▸ hl, rfl, rfl, rfl, id⟩,
    fun g hg => ⟨g, h.groups ▸ hg, rfl, rfl, id⟩⟩

theorem EndsWork.trans {x y z : Sys} (h : EndsWork x y) (k : EndsWork y z) : EndsWork x z where
  cmds := k.cmds.trans h.cmds
  storeWaits w hw := h.storeWaits w (k.storeWaits w hw)
  launches l hl := by
    obtain ⟨l1, hl1, u1, v1, f1, t1⟩ := k.launches l hl
    obtain ⟨l0, hl0, u0, v0, f0, t0⟩ := h.launches l1 hl1
    exact ⟨l0, hl0, u0.trans u1, v0.trans v1, f0.trans f1, fun t => t1 (t0 t)⟩
  groups g hg := by
    obtain ⟨g1, hg1, h1, u1, k1⟩ := k.groups g hg
    obtain ⟨g0, hg0, h0, u0, k0⟩ := h.groups g1 hg1
    exact ⟨g0, hg0, h0.trans h1, u0.trans u1, fun t => k1 (k0 t)⟩

theorem EndsWork.foldl {α : Type} {f : Sys → α → Sys} (h : ∀ y a, EndsWork y (f y a)) (l : List α) (y : Sys) : EndsWork y (l.foldl f y) :=
  List.foldlRecOn l f (SameWork.refl y).endsWork (fun z hz a _ => hz.trans (h z a))

/-- An entry of a list in which the entries of a key are changed: it is changed, or it is of another key. -/
theorem mem_map_if {α : Type} {l : List α} {key : α → Nat} {k : Nat} {f : α → α} {x : α}
    (h : x ∈ l.map (fun a => if key a = k then f a else a)) : ∃ a ∈ l, (key a = k ∧ x = f a) ∨ (key a ≠ k ∧ x = a) := by
  obtain ⟨a, ha, e⟩ := List.mem_map.1 h
  by_cases hk : key a = k
  · exact ⟨a, ha, .inl ⟨hk, by rw [← e, if_pos hk]⟩⟩
  · exact ⟨a, ha, .inr ⟨hk, by rw [← e, if_neg hk]⟩⟩

theorem endsWork_modLaunch (y : Sys) (u : Nat) {f : Launch → Launch}
    (hf : ∀ l, (f l).uid = l.uid ∧ (f l).vf = l.vf ∧ (f l).finished = l.finished ∧ (f l).terminated = true) :
    EndsWork y (y.modLaunch u f) where
  cmds := rfl
  storeWaits _ hw := hw
  launches l hl := by
    obtain ⟨k, hk, ⟨_, rfl⟩ | ⟨_, rfl⟩⟩ := mem_map_if (key := Launch.uid) hl
    · obtain ⟨hu, hv, hd, ht⟩ := hf k
      exact ⟨k, hk, hu.symm, hv.symm, hd.symm, fun _ => ht⟩
    · exact ⟨_, hk, rfl, rfl, rfl, id⟩
  groups g hg := ⟨g, hg, rfl, rfl, id⟩

theorem endsWork_modGroup (y : Sys) (h : Nat) {f : Group → Group}
    (hf : ∀ g, (f g).handle = g.handle ∧ (f g).launch = g.launch ∧ (f g).killed = true) : EndsWork y (y.modGroup h f) where
  cmds := rfl
  storeWaits _ hw := hw
  launches l hl := ⟨l, hl, rfl, rfl, rfl, id⟩
  groups g hg := by
    obtain ⟨k, hk, ⟨_, rfl⟩ | ⟨_, rfl⟩⟩ := mem_map_if (key := Group.handle) hg
    · obtain ⟨hh, hl, ht⟩ := hf k
      exact ⟨k, hk, hh.symm, hl.symm, fun _ => ht⟩
    · exact ⟨_, hk, rfl, rfl, id⟩

/-- A group as GKILL leaves it (R384). -/
def Group.ended (x : Group) : Group :=
  { x with frontier := [], lanes := 0, killed := true, gpark := false, window := []
           mmaj := x.mmaj.filter (fun m => m.joined), matrix := []
           regs := { x.regs with pend := [], pendK := [] } }

theorem endsWork_killGroup (y : Sys) (h : Nat) : EndsWork y (y.killGroup h) := by
  unfold Sys.killGroup
  split
  · exact (SameWork.refl y).endsWork
  next g _ =>
    refine ((endsWork_modGroup y h (f := Group.ended) (fun _ => ⟨rfl, rfl, rfl⟩)).trans
      (endsWork_modLaunch _ g.launch (f := fun l => { l with terminated := true }) (fun _ => ⟨rfl, rfl, rfl, rfl⟩))).trans ?_
    exact ⟨rfl, fun w hw => (List.mem_filter.1 hw).1, fun l hl => ⟨l, hl, rfl, rfl, rfl, id⟩, fun g hg => ⟨g, hg, rfl, rfl, id⟩⟩

/-- Every group of a handle has ended. -/
def Sys.endedGroup (h : Nat) (y : Sys) : Prop := ∀ g ∈ y.groups, g.handle = h → g.killed = true

/-- Every group of a launch has ended. -/
def Sys.endedGroups (u : Nat) (y : Sys) : Prop := ∀ g ∈ y.groups, g.launch = u → g.killed = true

/-- The launch of a number has been ended. -/
def Sys.endedLaunch (u : Nat) (y : Sys) : Prop := ∀ l ∈ y.launches, l.uid = u → l.terminated = true

theorem EndsWork.endedGroup {y z : Sys} {h : Nat} (e : EndsWork y z) (k : y.endedGroup h) : z.endedGroup h := by
  intro g hg hh
  obtain ⟨g0, hg0, e0, _, k0⟩ := e.groups g hg
  exact k0 (k g0 hg0 (e0.trans hh))

theorem EndsWork.endedGroups {y z : Sys} {u : Nat} (e : EndsWork y z) (k : y.endedGroups u) : z.endedGroups u := by
  intro g hg hu
  obtain ⟨g0, hg0, _, e0, k0⟩ := e.groups g hg
  exact k0 (k g0 hg0 (e0.trans hu))

theorem EndsWork.endedLaunch {y z : Sys} {u : Nat} (e : EndsWork y z) (k : y.endedLaunch u) : z.endedLaunch u := by
  intro l hl hu
  obtain ⟨l0, hl0, e0, _, _, k0⟩ := e.launches l hl
  exact k0 (k l0 hl0 (e0.trans hu))

theorem Sys.killGroup_ended (y : Sys) (h : Nat) : (y.killGroup h).endedGroup h := by
  intro g hg hh
  unfold Sys.killGroup at hg
  split at hg
  next hn => exact absurd (by simpa using hh) (List.find?_eq_none.1 hn g hg)
  next =>
    obtain ⟨k, _, ⟨_, rfl⟩ | ⟨hk, rfl⟩⟩ := mem_map_if (key := Group.handle) hg
    · rfl
    · exact absurd hh hk

/-- The groups of a launch that have not ended. -/
def Sys.groupsOf (y : Sys) (u : Nat) : List Group := y.groups.filter (fun g => g.launch == u && !g.killed)

/-- The package once every group of a launch has ended. -/
def Sys.killGroups (y : Sys) (u : Nat) : Sys := (y.groupsOf u).foldl (fun z g => z.killGroup g.handle) y

theorem endsWork_killGroups (y : Sys) (u : Nat) : EndsWork y (y.killGroups u) := 
  EndsWork.foldl (f := fun z (g : Group) => z.killGroup g.handle) (fun z g => endsWork_killGroup z g.handle) (y.groupsOf u) y

theorem Sys.killGroups_ended (y : Sys) (u : Nat) : (y.killGroups u).endedGroups u := by
  intro g hg hu
  obtain ⟨g0, hg0, hh, hl, hk⟩ := (endsWork_killGroups y u).groups g hg
  by_cases h0 : g0.killed = true
  · exact hk h0
  · have hm : g0 ∈ y.groupsOf u := List.mem_filter.2 ⟨hg0, by simp [hl, hu, h0]⟩
    have hd : (y.killGroups u).endedGroup g0.handle :=
      foldl_establishes (f := fun z (g : Group) => z.killGroup g.handle) (I := fun _ => True) (fun _ _ h => h)
        (fun z b hz => (endsWork_killGroup z b.handle).endedGroup hz)
        (fun z _ => z.killGroup_ended g0.handle) hm trivial
    exact hd g hg hh.symm

/-- A launch as its end leaves it. -/
def Launch.ended (l : Launch) : Launch := { l with terminated := true, stopped := true, inStore := false }

/-- The launches, groups, engine commands and waits for the store that the end of a launch leaves: its groups have ended, and it. -/
theorem sameWork_killLaunch (y : Sys) (u : Nat) : SameWork ((y.killGroups u).modLaunch u Launch.ended) (y.killLaunch u) := ⟨rfl, rfl, rfl, rfl⟩

theorem endsWork_killLaunch (y : Sys) (u : Nat) : EndsWork y (y.killLaunch u) :=
  ((endsWork_killGroups y u).trans (endsWork_modLaunch _ u (f := Launch.ended) (fun _ => ⟨rfl, rfl, rfl, rfl⟩))).trans
    (sameWork_killLaunch y u).endsWork

theorem Sys.killLaunch_endedGroups (y : Sys) (u : Nat) : (y.killLaunch u).endedGroups u := y.killGroups_ended u

theorem Sys.killLaunch_endedLaunch (y : Sys) (u : Nat) : (y.killLaunch u).endedLaunch u := by
  intro l hl hu
  obtain ⟨k, _, ⟨_, rfl⟩ | ⟨hk, rfl⟩⟩ := mem_map_if (key := Launch.uid) hl
  · rfl
  · exact absurd hu hk

/-! ### The end of an engine command (R175) -/

theorem sameWork_setPins (y : Sys) (h : Nat) (ps : List (Nat × Nat × Nat)) : SameWork y (y.setPins h ps) := by
  refine SameWork.trans (y := { y with pins := y.pins.filter (fun p => p.1 != h) ++ ps }) ⟨rfl, rfl, rfl, rfl⟩
    (SameWork.foldl (fun z n => ?_) _ _)
  unfold Sys.selectVictim
  simp only
  split
  · exact sameWork_modVf z n _
  · exact .refl z

/-- The log of an engine command's error. -/
theorem sameWork_logEngine (y : Sys) (now p : Nat) (c : Cause) (rem remLog : BitVec 8) (a : DWord) (core slot n : Nat) :
    SameWork y (y.logEal now p c rem remLog a .engine core slot n) := ⟨rfl, rfl, rfl, rfl⟩

/-- A command as it takes a status. -/
def Cmd.take (st : CmdStatus) (why : Option (Cause × DWord)) (n : Nat) (x : Cmd) : Cmd :=
  { x with status := st, ecause := if st == .error then why else x.ecause
           doneOrder := if st != .running && st != .faulted then n else 0, resume := none }

/-- The package in which an error of a command has been logged, the command has its status, and the FAULT_RESUME that waits on it is answered. -/
def Sys.takeStatus (y : Sys) (now : Nat) (c : Cmd) (h : Nat) (st : CmdStatus) (why : Option (Cause × DWord)) (logIt : Bool) : Sys :=
  let y1 := match why with
    | some (k, a) =>
      let r : BitVec 8 × BitVec 8 := if st == CmdStatus.error then c.erem else (0, 0)
      if logIt then y.logEal now c.part k r.1 r.2 a .engine c.core 0 c.vf else y
    | none => y
  let y3 := y1.fresh.2.modCmd h (Cmd.take st why y1.nextId)
  match c.resume with
  | some u => y3.completeHost u .ok 0
  | none => y3

theorem sameWork_takeStatus (y : Sys) (now : Nat) (c : Cmd) (h : Nat) (st : CmdStatus) (why : Option (Cause × DWord)) (logIt : Bool) :
    ∃ n, SameWork (y.modCmd h (Cmd.take st why n)) (y.takeStatus now c h st why logIt) := by
  have key : ∀ x : Sys, SameWork y x → SameWork (y.modCmd h (Cmd.take st why x.nextId)) (match c.resume with
      | some u => (x.fresh.2.modCmd h (Cmd.take st why x.nextId)).completeHost u .ok 0
      | none => x.fresh.2.modCmd h (Cmd.take st why x.nextId)) := by
    intro x hx
    have h3 : SameWork (y.modCmd h (Cmd.take st why x.nextId)) (x.fresh.2.modCmd h (Cmd.take st why x.nextId)) :=
      ⟨hx.launches, hx.groups, congrArg (List.map _) hx.cmds, hx.storeWaits⟩
    split
    · exact h3.trans (sameWork_completeHost _ _ _ _)
    · exact h3
  refine ⟨_, key _ ?_⟩
  split
  next k a _ =>
    by_cases hl : logIt = true
    · simp only [hl, if_true]
      exact sameWork_logEngine _ _ _ _ _ _ _ _ _ _
    · simp only [hl]
      exact .refl y
  next => exact .refl y

/-- A command without its final status takes the status; a final status releases its pins, and an old command may be forgotten. -/
theorem Sys.setStatus_of_open {y : Sys} {now h : Nat} {c : Cmd} (st : CmdStatus) (why : Option (Cause × DWord)) (logIt : Bool)
    (hc : y.cmd? h = some c) (ho : c.isOpen = true) :
    y.setStatus now h st why logIt = y.takeStatus now c h st why logIt ∨
    ∃ ks, ks.Sublist ((y.takeStatus now c h st why logIt).setPins h []).cmds ∧
      y.setStatus now h st why logIt = { (y.takeStatus now c h st why logIt).setPins h [] with cmds := ks } := by
  unfold Sys.setStatus
  simp only [hc, ho]
  by_cases hf : (st != .running && st != .faulted) = true
  · right
    by_cases hn : 1024 < (((y.takeStatus now c h st why logIt).cmds.filter (fun x => x.core == c.core && !x.isOpen)).length)
    · exact ⟨_, List.filter_sublist, (if_pos hf).trans (if_pos hn)⟩
    · exact ⟨_, .refl _, (if_pos hf).trans (if_neg hn)⟩
  · exact .inl (if_neg hf)

/-- What taking a status does to the work under way: nothing where the command is not there or has its final status; else it takes the
status, and some commands of final status may be forgotten. -/
theorem Sys.setStatus_cases (y : Sys) (now h : Nat) (st : CmdStatus) (why : Option (Cause × DWord)) (logIt : Bool) :
    (y.setStatus now h st why logIt = y ∧ ∀ c, y.cmd? h = some c → c.isOpen = false) ∨
    ∃ (n : Nat) (ks : List Cmd), ks.Sublist (y.modCmd h (Cmd.take st why n)).cmds ∧
      SameWork { y with cmds := ks } (y.setStatus now h st why logIt) := by
  by_cases hn : ∀ c, y.cmd? h = some c → c.isOpen = false
  · refine .inl ⟨?_, hn⟩
    unfold Sys.setStatus
    split
    next => rfl
    next c hc => simp [hn c hc]
  · obtain ⟨c, hcn⟩ := Classical.not_forall.1 hn
    obtain ⟨hc, hno⟩ := Classical.not_imp.1 hcn
    have ho : c.isOpen = true := eq_true_of_ne_false hno
    obtain ⟨n, hz⟩ := sameWork_takeStatus y now c h st why logIt
    have hp := hz.trans (sameWork_setPins _ h [])
    obtain e | ⟨ks, hk, e⟩ := Sys.setStatus_of_open (now := now) st why logIt hc ho
    · exact .inr ⟨n, _, .refl _, by rw [e]; exact ⟨hz.launches, hz.groups, hz.cmds, hz.storeWaits⟩⟩
    · exact .inr ⟨n, ks, hp.cmds ▸ hk, by rw [e]; exact ⟨hp.launches, hp.groups, rfl, hp.storeWaits⟩⟩

/-- At most one command has a handle. -/
def Sys.oneCmd (h : Nat) (y : Sys) : Prop := (y.cmds.filter (fun x => x.handle == h)).length ≤ 1

theorem Sys.oneCmd.find {h : Nat} {y : Sys} (hy : y.oneCmd h) {x : Cmd} (hx : x ∈ y.cmds) (hh : x.handle = h) : y.cmd? h = some x := by
  have hm : x ∈ y.cmds.filter (fun x => x.handle == h) := List.mem_filter.2 ⟨hx, by simpa using hh⟩
  obtain ⟨a, ha⟩ := List.length_eq_one_iff.1 (Nat.le_antisymm hy (List.length_pos_of_mem hm))
  rw [ha, List.mem_singleton] at hm
  rw [Sys.cmd?, ← List.head?_filter, ha, hm]
  rfl

/-- Every command of a handle has its final status. -/
def Sys.closedCmd (h : Nat) (y : Sys) : Prop := ∀ x ∈ y.cmds, x.handle = h → x.isOpen = false

/-- A command is ended: nothing else of the work under way changes but the list of commands. -/
theorem Sys.abortCmd_cases (y : Sys) (now h : Nat) :
    (SameWork y (y.abortCmd now h) ∧ ∀ c, y.cmd? h = some c → c.isOpen = false) ∨
    ∃ (n : Nat) (ks : List Cmd), ks.Sublist (y.modCmd h (Cmd.take .aborted (some (.cmdabort, 0)) n)).cmds ∧
      SameWork { y with cmds := ks } (y.abortCmd now h) := by
  obtain ⟨e, ho⟩ | ⟨n, ks, hk, hw⟩ :=
    Sys.setStatus_cases { y with accesses := y.accesses.filter (fun a => a.who != .engine h) } now h .aborted (some (.cmdabort, 0)) true
  · exact .inl ⟨by rw [Sys.abortCmd, e]; exact ⟨rfl, rfl, rfl, rfl⟩, ho⟩
  · exact .inr ⟨n, ks, hk, hw.launches, hw.groups, hw.cmds, hw.storeWaits⟩

theorem Sys.oneCmd_abortCmd {h : Nat} (now k : Nat) (y : Sys) (hy : y.oneCmd h) : (y.abortCmd now k).oneCmd h := by
  obtain ⟨e, _⟩ | ⟨n, ks, hk, hw⟩ := y.abortCmd_cases now k
  · rwa [Sys.oneCmd, e.cmds]
  · rw [Sys.oneCmd, hw.cmds]
    have hm : (y.modCmd k (Cmd.take .aborted (some (.cmdabort, 0)) n)).cmds.filter (fun x => x.handle == h) =
        (y.cmds.filter (fun x => x.handle == h)).map (fun c => if c.handle = k then c.take .aborted (some (.cmdabort, 0)) n else c) := by
      rw [Sys.modCmd, List.filter_map]
      congr 2
      funext c
      simp only [Function.comp]
      split <;> rfl
    calc (ks.filter (fun x => x.handle == h)).length
        ≤ ((y.modCmd k (Cmd.take .aborted (some (.cmdabort, 0)) n)).cmds.filter (fun x => x.handle == h)).length := (hk.filter _).length_le
      _ = (y.cmds.filter (fun x => x.handle == h)).length := by rw [hm, List.length_map]
      _ ≤ 1 := hy

theorem Sys.closedCmd_abortCmd {h : Nat} (now k : Nat) (y : Sys) (hy : y.closedCmd h) : (y.abortCmd now k).closedCmd h := by
  obtain ⟨e, _⟩ | ⟨n, ks, hk, hw⟩ := y.abortCmd_cases now k
  · rwa [Sys.closedCmd, e.cmds]
  · intro x hx hh
    obtain ⟨a, ha, ⟨_, rfl⟩ | ⟨_, rfl⟩⟩ := mem_map_if (key := Cmd.handle) (hk.subset (hw.cmds ▸ hx))
    · rfl
    · exact hy _ ha hh

theorem Sys.abortCmd_closes {h : Nat} (now : Nat) (y : Sys) (hy : y.oneCmd h) : (y.abortCmd now h).closedCmd h := by
  obtain ⟨e, ho⟩ | ⟨n, ks, hk, hw⟩ := y.abortCmd_cases now h
  · intro x hx hh
    rw [e.cmds] at hx
    exact ho x (hy.find hx hh)
  · intro x hx hh
    obtain ⟨a, _, ⟨_, rfl⟩ | ⟨ha, rfl⟩⟩ := mem_map_if (key := Cmd.handle) (hk.subset (hw.cmds ▸ hx))
    · rfl
    · exact absurd hh ha

/-! ### The stages of KILL -/

/-- The package in which the VF's launches that wait for the store are terminated. -/
def Sys.endWaits (y : Sys) (n : Nat) : Sys :=
  (y.storeWaits.filter (fun w => w.vf == n)).foldl (fun z w => match w.hostCmd with
    | some u => z.completeHost u .terminated (w.record.launchId.setWidth 64)
    | none => z) { y with storeWaits := y.storeWaits.filter (fun w => w.vf != n) }

/-- The launches of a VF that have not finished. -/
def Sys.launchesOf (y : Sys) (n : Nat) : List Launch := y.launches.filter (fun l => l.vf == n && !l.finished)

/-- The package in which the VF's launches have ended too. -/
def Sys.endLaunches (y : Sys) (n : Nat) : Sys := ((y.endWaits n).launchesOf n).foldl (fun z l => z.killLaunch l.uid) (y.endWaits n)

/-- The engine commands of a VF that have no final status. -/
def Sys.openCmdsOf (y : Sys) (n : Nat) : List Cmd := y.cmds.filter (fun k => k.vf == n && k.isOpen)

/-- The package in which the VF's engine commands have ended too. -/
def Sys.endCmds (y : Sys) (now n : Nat) : Sys :=
  ((y.endLaunches n).openCmdsOf n).foldl (fun z k => z.abortCmd now k.handle) (y.endLaunches n)

/-- KILL ends the VF's work and then does what STOP does. -/
theorem Sys.killVf_eq (y : Sys) (now n : Nat) : y.killVf now n = (y.endCmds now n).stopVf n := rfl

theorem sameWork_endWaits (y : Sys) (n : Nat) : SameWork { y with storeWaits := y.storeWaits.filter (fun w => w.vf != n) } (y.endWaits n) := by
  refine SameWork.foldl (fun z w => ?_) _ _
  split
  · exact sameWork_completeHost _ _ _ _
  · exact .refl z

theorem Sys.endWaits_launches (y : Sys) (n : Nat) : (y.endWaits n).launches = y.launches := (sameWork_endWaits y n).launches

theorem endsWork_endLaunches (y : Sys) (n : Nat) : EndsWork (y.endWaits n) (y.endLaunches n) :=
  EndsWork.foldl (f := fun z (l : Launch) => z.killLaunch l.uid) (fun z l => endsWork_killLaunch z l.uid) _ _

theorem Sys.endLaunches_cmds (y : Sys) (n : Nat) : (y.endLaunches n).cmds = y.cmds :=
  (endsWork_endLaunches y n).cmds.trans (sameWork_endWaits y n).cmds

/-- An unfinished launch of the VF has ended, with all its groups. -/
theorem Sys.endLaunches_ended {y : Sys} {n : Nat} {l : Launch} (hl : l ∈ y.launches) (hn : l.vf = n) (hf : l.finished = false) :
    (y.endLaunches n).endedLaunch l.uid ∧ (y.endLaunches n).endedGroups l.uid := by
  have hm : l ∈ (y.endWaits n).launchesOf n :=
    List.mem_filter.2 ⟨(y.endWaits_launches n).symm ▸ hl, by simp [hn, hf]⟩
  exact ⟨foldl_establishes (f := fun z (l : Launch) => z.killLaunch l.uid) (I := fun _ => True) (fun _ _ h => h)
      (fun z k hz => (endsWork_killLaunch z k.uid).endedLaunch hz) (fun z _ => z.killLaunch_endedLaunch l.uid) hm trivial,
    foldl_establishes (f := fun z (l : Launch) => z.killLaunch l.uid) (I := fun _ => True) (fun _ _ h => h)
      (fun z k hz => (endsWork_killLaunch z k.uid).endedGroups hz) (fun z _ => z.killLaunch_endedGroups l.uid) hm trivial⟩

/-- The end of engine commands leaves launches, groups and waits for the store. -/
theorem Sys.endCmds_rest (y : Sys) (now n : Nat) : (y.endCmds now n).launches = (y.endLaunches n).launches ∧
    (y.endCmds now n).groups = (y.endLaunches n).groups ∧ (y.endCmds now n).storeWaits = (y.endLaunches n).storeWaits := by
  refine List.foldlRecOn (motive := fun z : Sys => z.launches = (y.endLaunches n).launches ∧ z.groups = (y.endLaunches n).groups ∧
    z.storeWaits = (y.endLaunches n).storeWaits) _ _ ⟨rfl, rfl, rfl⟩ (fun z hz c _ => ?_)
  obtain ⟨hl, hg, hw⟩ := hz
  obtain ⟨e, _⟩ | ⟨_, _, _, e⟩ := z.abortCmd_cases now c.handle
  · exact ⟨e.launches.trans hl, e.groups.trans hg, e.storeWaits.trans hw⟩
  · exact ⟨e.launches.trans hl, e.groups.trans hg, e.storeWaits.trans hw⟩

/-- A command of the VF alone of its handle has its final status. -/
theorem Sys.endCmds_closed {y : Sys} {now n : Nat} {c : Cmd} (hc : y.cmds.filter (fun x => x.handle == c.handle) = [c]) (hn : c.vf = n) :
    (y.endCmds now n).closedCmd c.handle := by
  have he := y.endLaunches_cmds n
  have h1 : (y.endLaunches n).oneCmd c.handle :=
    Nat.le_of_eq (congrArg List.length ((congrArg (List.filter (fun x => x.handle == c.handle)) he).trans hc))
  have hf : c ∈ y.cmds.filter (fun x => x.handle == c.handle) := by
    rw [hc]
    exact List.mem_singleton_self c
  have hm : c ∈ y.cmds := (List.mem_filter.1 hf).1
  by_cases ho : c.isOpen = true
  · have ha : c ∈ (y.endLaunches n).openCmdsOf n := List.mem_filter.2 ⟨by rwa [he], by simp [hn, ho]⟩
    exact foldl_establishes (f := fun z (k : Cmd) => z.abortCmd now k.handle) (fun z k => Sys.oneCmd_abortCmd now k.handle z)
      (fun z k => Sys.closedCmd_abortCmd now k.handle z) (fun z => Sys.abortCmd_closes now z) ha h1
  · refine List.foldlRecOn (motive := Sys.closedCmd c.handle) _ _ ?_ (fun z hz k _ => Sys.closedCmd_abortCmd now k.handle z hz)
    intro x hx hh
    have hx1 := h1.find hx hh
    rw [h1.find (he ▸ hm) rfl] at hx1
    cases hx1
    exact Bool.eq_false_iff.2 ho

/-! ### What KILL leaves -/

theorem Sys.killVf_launches {y : Sys} {now n : Nat} {l : Launch} (hl : l ∈ (y.killVf now n).launches) (hn : l.vf = n) (hf : l.finished = false) :
    l.terminated = true := by
  rw [Sys.killVf_eq, (sameWork_stopVf _ n).launches, (y.endCmds_rest now n).1] at hl
  obtain ⟨k, hk, hu, hv, hd, _⟩ := (endsWork_endLaunches y n).launches l hl
  rw [Sys.endWaits_launches] at hk
  exact (Sys.endLaunches_ended hk (hv.trans hn) (hd.trans hf)).1 l hl hu.symm

theorem Sys.killVf_groups {y : Sys} {now n : Nat} {g : Group} {l : Launch} (hg : g ∈ (y.killVf now n).groups) (hl : l ∈ y.launches)
    (hu : l.uid = g.launch) (hn : l.vf = n) (hf : l.finished = false) : g.killed = true := by
  rw [Sys.killVf_eq, (sameWork_stopVf _ n).groups, (y.endCmds_rest now n).2.1] at hg
  exact (Sys.endLaunches_ended hl hn hf).2 g hg hu.symm

theorem Sys.killVf_cmds {y : Sys} {n : Nat} {c x : Cmd} (now : Nat) (hc : y.cmds.filter (fun x => x.handle == c.handle) = [c]) (hn : c.vf = n)
    (hx : x ∈ (y.killVf now n).cmds) (hh : x.handle = c.handle) : x.isOpen = false := by
  rw [Sys.killVf_eq, (sameWork_stopVf _ n).cmds] at hx
  exact Sys.endCmds_closed hc hn x hx hh

theorem Sys.killVf_storeWaits {y : Sys} {now n : Nat} {w : StoreWait} (hw : w ∈ (y.killVf now n).storeWaits) : w.vf ≠ n := by
  rw [Sys.killVf_eq, (sameWork_stopVf _ n).storeWaits, (y.endCmds_rest now n).2.2] at hw
  have h := (endsWork_endLaunches y n).storeWaits w hw
  rw [(sameWork_endWaits y n).storeWaits] at h
  simpa using (List.mem_filter.1 h).2

end Sys2Proof.Machine

namespace Sys2Proof.Machine

/-! ## The registers of a virtual function (R4, R67, R68, R76, R79, R141, R207) -/

/-! ### Halves of 64-bit registers -/

/-- A 64-bit register with its low, or its high, half set to a word. -/
def withLow (x : DWord) (w : Word) : DWord := (x >>> 32 <<< 32) ||| w.setWidth 64
def withHigh (x : DWord) (w : Word) : DWord := (w.setWidth 64 <<< 32) ||| (x.setWidth 32).setWidth 64

theorem setHalf_low (x : DWord) (w : Word) : setHalf x false w = withLow x w := by
  apply BitVec.eq_of_getLsbD_eq
  intro i hi
  simp only [setHalf, withLow, Bool.false_eq_true, if_false, BitVec.getLsbD_setWidth, BitVec.getLsbD_append, BitVec.getLsbD_or, BitVec.getLsbD_shiftLeft,
    BitVec.getLsbD_ushiftRight]
  by_cases h : i < 32
  · simp [h, hi]
  · simp [h, hi, show i - 32 < 32 by omega, BitVec.getLsbD_of_ge w i (by omega)]

theorem setHalf_high (x : DWord) (w : Word) : setHalf x true w = withHigh x w := by
  apply BitVec.eq_of_getLsbD_eq
  intro i hi
  simp only [setHalf, withHigh, if_true, BitVec.getLsbD_setWidth, BitVec.getLsbD_append, BitVec.getLsbD_or, BitVec.getLsbD_shiftLeft]
  by_cases h : i < 32
  · simp [h, hi]
  · simp [h, hi, show i - 32 < 64 by omega]

/-! ### Writes -/

/-- A write into the registers of ring k goes to them. -/
theorem writeBar_ring (s : State) (n : Nat) {k o : Nat} (w : Word) (hk : k < 6) (ho : o < 32) :
    writeBar s n (0x100 + 32 * k + o) w = s.sys.writeRing s.gtime n k o w := by
  have h1 : 0x100 ≤ 0x100 + 32 * k + o ∧ 0x100 + 32 * k + o < 0x1C0 := by omega
  have h2 : (0x100 + 32 * k + o - 0x100) / 32 = k := by omega
  have h3 : (0x100 + 32 * k + o - 0x100) % 32 = o := by omega
  simp [writeBar, h1, h2, h3]

/-- Offsets of BAR0 outside the rings at which a write changes nothing: registers that are read only, and reserved ones. -/
def readOnlyOfs (ofs : Nat) : Prop :=
  ofs = 0x0004 ∨ ofs = 0x000C ∨ ofs = 0x0010 ∨ (0x0400 ≤ ofs ∧ ofs < 0x0420) ∨ ofs = 0x1014 ∨ ofs = 0x1024 ∨ 0x2000 ≤ ofs

theorem writeBar_readOnly (s : State) (n : Nat) {ofs : Nat} (w : Word) (h : readOnlyOfs ofs) : writeBar s n ofs w = s.sys := by
  unfold readOnlyOfs at h
  unfold writeBar
  simp only
  rw [if_neg (by simp only [Bool.and_eq_true, decide_eq_true_eq]; omega)]
  split
  case h_11 => rfl
  all_goals omega

theorem writeRing_baseLow (y : Sys) (now n k : Nat) (w : Word) (h : (y.vf n).en = false) :
    y.writeRing now n k 0 w = y.modVf n (fun v => v.modRing k (fun r => { r with base := withLow r.base w })) := by
  simp [Sys.writeRing, h, setHalf_low]

theorem writeRing_baseHigh (y : Sys) (now n k : Nat) (w : Word) (h : (y.vf n).en = false) :
    y.writeRing now n k 4 w = y.modVf n (fun v => v.modRing k (fun r => { r with base := withHigh r.base w })) := by
  simp [Sys.writeRing, h, setHalf_high]

theorem writeRing_log2n (y : Sys) (now n k : Nat) (w : Word) (h : (y.vf n).en = false) :
    y.writeRing now n k 8 w = y.modVf n (fun v => v.modRing k (fun r => { r with log2n := w.setWidth 4 })) := by
  simp [Sys.writeRing, h]

/-- BASE and LOG2N are written only while EN is 0 (R68). -/
theorem writeRing_enabled (y : Sys) (now n k : Nat) (w : Word) (h : (y.vf n).en = true) {o : Nat} (ho : o = 0 ∨ o = 4 ∨ o = 8) :
    y.writeRing now n k o w = y := by
  rcases ho with rfl | rfl | rfl <;> simp [Sys.writeRing, h]

/-- The registers of a ring after a write of BASE, by halves, or of LOG2N, at an offset (R68). -/
def Ring.Written (r : Ring) (k ofs : Nat) (w : Word) (q : Ring) : Prop :=
  (ofs = 0x100 + 32 * k ∧ q = { r with base := withLow r.base w }) ∨
  (ofs = 0x104 + 32 * k ∧ q = { r with base := withHigh r.base w }) ∨
  (ofs = 0x108 + 32 * k ∧ q = { r with log2n := w.setWidth 4 })

theorem writeBar_written (s : State) (n : Nat) {k ofs : Nat} {w : Word} {q : Ring} (hk : k < 6) (h : (s.sys.vf n).en = false)
    (hq : ((s.sys.vf n).ring k).Written k ofs w q) :
    ∃ g : Ring → Ring, g ((s.sys.vf n).ring k) = q ∧ writeBar s n ofs w = s.sys.modVf n (fun v => v.modRing k g) := by
  obtain ⟨rfl, rfl⟩ | ⟨rfl, rfl⟩ | ⟨rfl, rfl⟩ := hq
  · exact ⟨_, rfl, (writeBar_ring s n (o := 0) w hk (by omega)).trans (writeRing_baseLow _ _ n k w h)⟩
  · rw [show 0x104 + 32 * k = 0x100 + 32 * k + 4 by omega, writeBar_ring s n w hk (by omega), writeRing_baseHigh _ _ n k w h]
    exact ⟨_, rfl, rfl⟩
  · rw [show 0x108 + 32 * k = 0x100 + 32 * k + 8 by omega, writeBar_ring s n w hk (by omega), writeRing_log2n _ _ n k w h]
    exact ⟨_, rfl, rfl⟩

theorem writeBar_written_enabled (s : State) (n : Nat) {k ofs : Nat} {w : Word} {q : Ring} (hk : k < 6) (h : (s.sys.vf n).en = true)
    (hq : ((s.sys.vf n).ring k).Written k ofs w q) : writeBar s n ofs w = s.sys := by
  have ho : ∃ o, (o = 0 ∨ o = 4 ∨ o = 8) ∧ ofs = 0x100 + 32 * k + o := by
    obtain ⟨hq, _⟩ | ⟨hq, _⟩ | ⟨hq, _⟩ := hq
    · exact ⟨0, by omega, by omega⟩
    · exact ⟨4, by omega, by omega⟩
    · exact ⟨8, by omega, by omega⟩
  obtain ⟨o, ho, rfl⟩ := ho
  rw [writeBar_ring s n w hk (by omega), writeRing_enabled _ _ n k w h ho]

theorem writeBar_accthr (s : State) (n : Nat) {w : Word} (h1 : 1 ≤ w.toNat) (h2 : w.toNat ≤ 65535) :
    writeBar s n 0x0008 w = s.sys.modVf n (fun v => { v with accthr := w }) := by
  have h : ¬ (decide (w = 0) || decide (0xFFFF#32 < w)) = true := by
    simp only [Bool.or_eq_true, decide_eq_true_eq, BitVec.lt_def, ← BitVec.toNat_inj]
    change ¬ (w.toNat = 0 ∨ 65535 < w.toNat)
    omega
  exact if_neg h

/-- A threshold of 0, or of more than 16 bits, is ignored. -/
theorem writeBar_accthr_ignored (s : State) (n : Nat) {w : Word} (h : w.toNat = 0 ∨ 65535 < w.toNat) : writeBar s n 0x0008 w = s.sys := by
  have h : (decide (w = 0) || decide (0xFFFF#32 < w)) = true := by
    simp only [Bool.or_eq_true, decide_eq_true_eq, BitVec.lt_def, ← BitVec.toNat_inj]
    exact h
  exact if_pos h

theorem writeBar_gtrootLow (s : State) (n : Nat) (w : Word) (h : (s.sys.vf n).en = false) :
    writeBar s n 0x1000 w = s.sys.modVf n (fun v => { v with gtroot := gtrootOf (withLow v.gtroot w) }) := by
  simp [writeBar, h, setHalf_low]

theorem writeBar_gtrootHigh (s : State) (n : Nat) (w : Word) (h : (s.sys.vf n).en = false) :
    writeBar s n 0x1004 w = s.sys.modVf n (fun v => { v with gtroot := gtrootOf (withHigh v.gtroot w) }) := by
  simp [writeBar, h, setHalf_high]

/-- GTROOT is written only while EN is 0 (R141). -/
theorem writeBar_gtroot_enabled (s : State) (n : Nat) {ofs : Nat} (w : Word) (h : (s.sys.vf n).en = true) (ho : ofs = 0x1000 ∨ ofs = 0x1004) :
    writeBar s n ofs w = s.sys := by
  rcases ho with rfl | rfl <;> simp [writeBar, h]

theorem writeBar_invaddrLow (s : State) (n : Nat) (w : Word) :
    writeBar s n 0x1008 w = s.sys.modVf n (fun v => { v with invaddr := withLow v.invaddr w }) := by
  simp [writeBar, setHalf_low]

theorem writeBar_invaddrHigh (s : State) (n : Nat) (w : Word) :
    writeBar s n 0x100C w = s.sys.modVf n (fun v => { v with invaddr := withHigh v.invaddr w }) := by
  simp [writeBar, setHalf_high]

theorem writeBar_miglistLow (s : State) (n : Nat) (w : Word) :
    writeBar s n 0x1018 w = s.sys.modVf n (fun v => { v with miglist := withLow v.miglist w }) := by
  simp [writeBar, setHalf_low]

theorem writeBar_miglistHigh (s : State) (n : Nat) (w : Word) :
    writeBar s n 0x101C w = s.sys.modVf n (fun v => { v with miglist := withHigh v.miglist w }) := by
  simp [writeBar, setHalf_high]

theorem writeBar_invalidate (s : State) (n : Nat) {w : Word} (hb : (s.sys.vf n).invbusy = false)
    (hw : w.getLsbD 0 = true ∨ w.getLsbD 1 = true) :
    writeBar s n 0x1010 w = s.sys.modVf n (fun v => { v with invbusy := true, invall := w.getLsbD 1, invat := v.invaddr }) :=
  if_neg (by
    rcases hw with hw | hw
    · rw [hb, hw, Bool.true_or, Bool.not_true, Bool.or_self]
      exact Bool.false_ne_true
    · rw [hb, hw, Bool.or_true, Bool.not_true, Bool.or_self]
      exact Bool.false_ne_true)

/-- A write that asks for no invalidation, or comes while one is under way, is ignored. -/
theorem writeBar_invalidate_ignored (s : State) (n : Nat) {w : Word}
    (h : (s.sys.vf n).invbusy = true ∨ (w.getLsbD 0 = false ∧ w.getLsbD 1 = false)) : writeBar s n 0x1010 w = s.sys :=
  if_pos (by
    rcases h with h | ⟨h0, h1⟩
    · rw [h, Bool.true_or]
    · rw [h0, h1, Bool.or_self, Bool.not_false, Bool.or_true])

theorem writeBar_mign (s : State) (n : Nat) {w : Word} (h8 : w.getLsbD 8 = false) (h9 : w.getLsbD 9 = false) :
    writeBar s n 0x1020 w = s.sys.modVf n (fun v => { v with mign := w.setWidth 8 }) := by
  unfold writeBar
  simp only [h8, h9]
  rfl

/-! ### Indices -/

/-- A doorbell that would overfill its ring, or move its index back (R68). -/
def Ring.refuses (r : Ring) (i : Word) : Prop := 2 ^ r.log2n.toNat < (i - r.cidx).toNat ∨ (i - r.cidx).toNat < (r.pidx - r.cidx).toNat

theorem doorbell_moves (y : Sys) (now n k : Nat) (i : Word) (h : (y.vf n).en = false ∨ ¬ ((y.vf n).ring k).refuses i) :
    y.doorbell now n k i = y.modVf n (fun v => v.modRing k (fun r => { r with pidx := i })) := by
  rcases h with h | h
  · simp [Sys.doorbell, h]
  · have hb : ¬ (decide (((y.vf n).ring k).size < (i - ((y.vf n).ring k).cidx).toNat) ||
        decide ((i - ((y.vf n).ring k).cidx).toNat < (((y.vf n).ring k).pidx - ((y.vf n).ring k).cidx).toNat)) = true := by
      rw [Bool.or_eq_true, decide_eq_true_iff, decide_eq_true_iff]
      exact h
    unfold Sys.doorbell
    simp only
    rw [if_neg hb, ite_self]

/-- A record about a ring leaves CFGERR and the ring registers. -/
theorem ringRecord_vf (y : Sys) (now n : Nat) (c : Cause) (a : DWord) :
    ((y.ringRecord now n c a).vf n).cfgerr = (y.vf n).cfgerr ∧ ((y.ringRecord now n c a).vf n).rings = (y.vf n).rings := by
  unfold Sys.ringRecord
  simp only
  split
  · simp [Sys.notify, Sys.logEal]
  · exact ⟨rfl, rfl⟩

/-- It is the newest of the VF's partition. -/
theorem ringRecord_newest (y : Sys) (now n : Nat) (c : Cause) (a : DWord) (h : (y.vf n).valid = true) :
    y.newestRecord (y.ringRecord now n c a) (y.vf n).part.toNat c .host a := by
  simp [Sys.newestRecord, Sys.ringRecord, h, Sys.notify, Sys.logEal]

theorem doorbell_refused (y : Sys) (now n k : Nat) (i : Word) (he : (y.vf n).en = true) (h : ((y.vf n).ring k).refuses i) :
    ∃ (z : Sys) (a : DWord), y.doorbell now n k i = z.ringRecord now n .badcmd a ∧ z.vf n = { y.vf n with cfgerr := true } ∧
      z.parts = y.parts := by
  have hb : (decide (((y.vf n).ring k).size < (i - ((y.vf n).ring k).cidx).toNat) ||
      decide ((i - ((y.vf n).ring k).cidx).toNat < (((y.vf n).ring k).pidx - ((y.vf n).ring k).cidx).toNat)) = true := by
    rw [Bool.or_eq_true, decide_eq_true_iff, decide_eq_true_iff]
    exact h
  refine ⟨(takeFree (y.modVf n (fun v => { v with cfgerr := true }))).2, Config.freeWord y.free, ?_,
    Sys.modVf_same y n (fun v => { v with cfgerr := true }), rfl⟩
  unfold Sys.doorbell
  simp only
  rw [if_neg (by simp [he]), if_pos hb]
  rfl

/-- A refused doorbell sets CFGERR and is logged; the ring stands (R68). -/
theorem doorbell_refused_vf (y : Sys) (now n k : Nat) (i : Word) (he : (y.vf n).en = true) (h : ((y.vf n).ring k).refuses i) :
    ((y.doorbell now n k i).vf n).cfgerr = true ∧ ((y.doorbell now n k i).vf n).ring k = (y.vf n).ring k := by
  obtain ⟨z, a, e, hz, _⟩ := doorbell_refused y now n k i he h
  obtain ⟨hc, hr⟩ := ringRecord_vf z now n .badcmd a
  exact ⟨by rw [e, hc, hz], by rw [e, Vf.ring, hr, hz]; rfl⟩

theorem doorbell_refused_record (y : Sys) (now n k : Nat) (i : Word) (he : (y.vf n).en = true) (h : ((y.vf n).ring k).refuses i)
    (hv : (y.vf n).valid = true) : ∃ a, y.newestRecord (y.doorbell now n k i) (y.vf n).part.toNat .badcmd .host a := by
  obtain ⟨z, a, e, hz, hp⟩ := doorbell_refused y now n k i he h
  have hr := ringRecord_newest z now n .badcmd a (by rw [hz]; exact hv)
  rw [hz] at hr
  refine ⟨a, ?_⟩
  rw [e]
  simpa only [Sys.newestRecord, Sys.part, hp] using hr

theorem Vf.writeCidx_ring (v : Vf) (k j : Nat) (i : Word) : (v.writeCidx k i).ring j = (v.modRing k (fun r => { r with cidx := i })).ring j := by
  unfold Vf.writeCidx
  simp only
  split <;> rfl

theorem Vf.writeCidx_of_ne (v : Vf) {k : Nat} (i : Word) (h : k ≠ 3) : v.writeCidx k i = v.modRing k (fun r => { r with cidx := i }) :=
  if_pos (by simpa using h)

/-- The ACCESS notifications that a new CIDX of the notification ring passes (R76). -/
def Vf.passes (v : Vf) (i : Word) : List (Nat × Nat) :=
  v.accessQueued.filter (fun q => decide ((BitVec.ofNat 32 q.2 - (v.ring 3).cidx).toNat < (i - (v.ring 3).cidx).toNat))

/-- A notification that CIDX passes is queued no more, and its page's counter is 0 (R76). -/
theorem Vf.writeCidx_passed (v : Vf) (i : Word) {q : Nat × Nat} (h : q ∈ v.passes i) :
    q ∉ (v.writeCidx 3 i).accessQueued ∧ sget (v.writeCidx 3 i).counters (q.1 / 4096) = 0 := by
  constructor
  · change q ∉ v.accessQueued.filter (fun p => !(v.passes i).contains p)
    simp [h]
  · change sget ((v.passes i).foldl (fun t p => sset t (p.1 / 4096) 0) v.counters) (q.1 / 4096) = 0
    exact foldl_establishes (f := fun (t : Sparse 32) (p : Nat × Nat) => sset t (p.1 / 4096) 0) (I := fun _ => True)
      (P := fun t => sget t (q.1 / 4096) = 0) (fun _ _ h => h) (fun t p ht => by simp [ht]) (fun t _ => by simp) h trivial

/-! ### Reads -/

theorem readReg_en (y : Sys) (n : Nat) : readReg y n 0x0000 = if (y.vf n).en then 1 else 0 := by
  cases h : (y.vf n).en <;> simp [readReg, h]

theorem readReg_pidx (y : Sys) (n : Nat) {k : Nat} (hk : k < 6) : readReg y n (0x110 + 32 * k) = ((y.vf n).ring k).pidx := by
  have h1 : 0x100 ≤ 0x110 + 32 * k ∧ 0x110 + 32 * k < 0x1C0 := by omega
  have h2 : (0x110 + 32 * k - 0x100) / 32 = k := by omega
  have h3 : (0x110 + 32 * k - 0x100) % 32 = 16 := by omega
  simp [readReg, h1, h2, h3]

theorem readReg_cidx (y : Sys) (n : Nat) {k : Nat} (hk : k < 6) : readReg y n (0x114 + 32 * k) = ((y.vf n).ring k).cidx := by
  have h1 : 0x100 ≤ 0x114 + 32 * k ∧ 0x114 + 32 * k < 0x1C0 := by omega
  have h2 : (0x114 + 32 * k - 0x100) / 32 = k := by omega
  have h3 : (0x114 + 32 * k - 0x100) % 32 = 20 := by omega
  simp [readReg, h1, h2, h3]

theorem readReg_ealcnt (y : Sys) (n : Nat) (h : (y.vf n).valid = true) :
    readReg y n 0x0010 = BitVec.ofNat 32 (y.part (y.vf n).part.toNat).ealcnt := by
  simp [readReg, h]

theorem readReg_snapnoA (y : Sys) (n : Nat) (h : (y.vf n).valid = true) :
    readReg y n 0x0404 = (y.part (y.vf n).part.toNat).colourA.snapno := by
  simp [readReg, h]

theorem readReg_snapnoB (y : Sys) (n : Nat) (h : (y.vf n).valid = true) :
    readReg y n 0x0414 = (y.part (y.vf n).part.toNat).colourB.snapno := by
  simp [readReg, h]

/-- Record number k of the log stands at slot k mod 256 until 256 newer ones do (R79, R207). -/
theorem readReg_eal (y : Sys) (n : Nat) {k o : Nat} {e : EalRec} (hv : (y.vf n).valid = true)
    (hk : k < (y.part (y.vf n).part.toNat).ealcnt) (hn : (y.part (y.vf n).part.toNat).ealcnt ≤ k + 256)
    (he : (y.part (y.vf n).part.toNat).eal[(y.part (y.vf n).part.toNat).ealcnt - 1 - k]? = some e) (ho : o < 32) :
    readReg y n (0x2000 + 32 * (k % 256) + o) = e.word (o / 4) := by
  have h1 : ¬ (0x100 ≤ 0x2000 + 32 * (k % 256) + o ∧ 0x2000 + 32 * (k % 256) + o < 0x1C0) := by omega
  have h2 : 0x2000 ≤ 0x2000 + 32 * (k % 256) + o ∧ 0x2000 + 32 * (k % 256) + o < 0x4000 := by omega
  have h3 : (0x2000 + 32 * (k % 256) + o - 0x2000) / 32 = k % 256 := by omega
  have h4 : (0x2000 + 32 * (k % 256) + o - 0x2000) % 32 / 4 = o / 4 := by omega
  have h5 : ((y.part (y.vf n).part.toNat).ealcnt + 255 - k % 256) % 256 = (y.part (y.vf n).part.toNat).ealcnt - 1 - k := by omega
  have h6 : ¬ (y.part (y.vf n).part.toNat).ealcnt ≤ (y.part (y.vf n).part.toNat).ealcnt - 1 - k := by omega
  unfold readReg
  simp only [hv, if_true, Bool.and_eq_true, decide_eq_true_eq, h1, h2, h3, h4, h5, h6, he, if_false, and_self]

/-- Three fields side by side are the fields shifted to their places. -/
theorem setWidth_append_append {a b c : Nat} (x : BitVec a) (y : BitVec b) (z : BitVec c) (w : Nat) :
    (x ++ y ++ z).setWidth w = z.setWidth w ||| y.setWidth w <<< c ||| x.setWidth w <<< (b + c) := by
  apply BitVec.eq_of_getLsbD_eq
  intro i hi
  simp only [BitVec.getLsbD_setWidth, BitVec.getLsbD_append, BitVec.getLsbD_or, BitVec.getLsbD_shiftLeft, hi, decide_true, Bool.true_and]
  by_cases h : i < c
  · simp [h, show i < b + c by omega]
  · have hz : z.getLsbD i = false := BitVec.getLsbD_of_ge z i (by omega)
    by_cases hb : i < b + c
    · simp [h, hz, hb, show i - c < b by omega, show i - c < w by omega]
    · have hy : y.getLsbD (i - c) = false := BitVec.getLsbD_of_ge y _ (by omega)
      simp [h, hz, hy, hb, show ¬ i - c < b by omega, show i - (b + c) < w by omega, show i - c - b = i - (b + c) by omega]

theorem EalRec.word_cause (e : EalRec) :
    e.word 0 = e.cause.setWidth 32 ||| e.remCause.setWidth 32 <<< 8 ||| e.remLog.setWidth 32 <<< 16 :=
  setWidth_append_append e.remLog e.remCause e.cause 32

theorem EalRec.word_agent (e : EalRec) : e.word 4 = e.rkind.setWidth 32 ||| e.core.setWidth 32 <<< 3 ||| e.gslot.setWidth 32 <<< 13 :=
  setWidth_append_append e.gslot e.core e.rkind 32

end Sys2Proof.Machine

namespace Sys2Proof.Machine

/-! ## Events that change one VF, and the statement -/

/-- An event changes one VF alone, to `w`. -/
def OnlyVf (s : State) (x : Instr) (n : Nat) (w : Vf) : Prop :=
  ∃ z : Sys, exec x s = .next { s with sys := z } ∧ { z with vfs := s.sys.vfs } = s.sys ∧ z.vf n = w ∧ ∀ k, k ≠ n → z.vf k = s.sys.vf k

theorem onlyVf_modVf {s : State} {x : Instr} {n : Nat} {f : Vf → Vf} (h : exec x s = .next { s with sys := s.sys.modVf n f }) :
    OnlyVf s x n (f (s.sys.vf n)) :=
  ⟨_, h, rfl, Sys.modVf_same _ n f, fun _ hk => Sys.modVf_other _ f hk⟩

theorem registerWrite_sets {s : State} {n ofs : Nat} {w : Word} {f : Vf → Vf} (h : s.sys.ev = some (.registerWrite n ofs w))
    (hf : writeBar s n ofs w = s.sys.modVf n f) : OnlyVf s .registerWrite n (f (s.sys.vf n)) :=
  onlyVf_modVf ((exec_registerWrite h).trans (by rw [hf]))

theorem registerWrite_ignored {s : State} {n ofs : Nat} {w : Word} (h : s.sys.ev = some (.registerWrite n ofs w))
    (hb : writeBar s n ofs w = s.sys) : exec .registerWrite s = .next s :=
  (exec_registerWrite h).trans (by rw [hb])

/-- Settles O38. EN, STOP and KILL: what each stage of a stop leaves (`stopVf_…`, `killVf_…`); writes and reads: `writeBar` and `readReg` offset
by offset; doorbells by whether `Ring.refuses` them. That a write of ACCTHR outside 1 to 65,535 is ignored is assumption log 27, ADDR of a refused
doorbell's record log 22, and the change of the partition's STATE log 30. -/
theorem hostControlAndRegisters : Obligations.HostControlAndRegisters := by
  unfold Obligations.HostControlAndRegisters
  refine ⟨fun s n => ⟨fun h => ?_, fun h => ?_, fun h => ?_, fun h => ?_⟩, fun s n => ⟨fun ofs w h => ?_, fun x k i h => ?_, fun k i h h1 h4 => ?_⟩,
    fun y n => ?_⟩
  · -- EN is written 1
    refine ⟨_, exec_vfEnable h, rfl, fun k hk => Sys.modVf_other _ _ hk, ?_⟩
    rw [Sys.modVf_same]
    refine ⟨rfl, rfl, Vf.enable_run _, Vf.enable_cfgerr _, fun k => ?_, rfl, rfl⟩
    rw [Vf.enable_ring]
    exact ⟨rfl, rfl, rfl, rfl⟩
  · -- EN is written 0
    exact ⟨_, exec_vfPause h, rfl, fun k hk => Sys.modVf_other _ _ hk, Sys.modVf_same _ _ _⟩
  · -- STOP
    obtain ⟨el, eg, ek, _⟩ := sameWork_stopVf s.sys n
    exact ⟨_, exec_vfStop h, el, ek, eg, Sys.stopVf_vf _ n, Sys.stopVf_ends, Sys.stopVf_goes, Sys.stopVf_drains,
      fun c => Sys.stopVf_stops⟩
  · -- KILL
    exact ⟨_, exec_vfKill h, fun l => Sys.killVf_launches, fun g hg ⟨l, hl, hu, hn, hf⟩ => Sys.killVf_groups hg hl hu hn hf,
      fun c hc hn x hx hh => Sys.killVf_cmds _ hc hn hx hh, fun w => Sys.killVf_storeWaits, Sys.stopVf_vf _ n⟩
  · -- a write to BAR0
    refine ⟨fun k hk r hr q hq => ⟨fun he => ?_, fun he => ?_⟩, fun ho => ⟨fun h1 h2 => ?_, fun h0 => ?_⟩, fun ho => ⟨fun he => ?_, fun he => ?_⟩,
      fun ho => ⟨fun he => ?_, fun he => ?_⟩, fun ho => ?_, fun ho => ?_, fun ho => ?_, fun ho => ?_, fun ho hb hw => ?_, fun ho hb => ?_,
      fun ho h8 h9 => ?_, fun ho => registerWrite_ignored h (writeBar_readOnly s n w ho)⟩
    · subst hr
      exact registerWrite_ignored h (writeBar_written_enabled s n hk he hq)
    · subst hr
      obtain ⟨g, hg, e⟩ := writeBar_written s n hk he hq
      exact ⟨_, registerWrite_sets h e, by simp [hg], fun j hj => by simp [hj], rfl⟩
    · exact registerWrite_sets h (ho ▸ writeBar_accthr s n h1 h2)
    · exact registerWrite_ignored h (ho ▸ writeBar_accthr_ignored s n h0)
    · exact registerWrite_ignored h (writeBar_gtroot_enabled s n w he (.inl ho))
    · exact registerWrite_sets h (ho ▸ writeBar_gtrootLow s n w he)
    · exact registerWrite_ignored h (writeBar_gtroot_enabled s n w he (.inr ho))
    · exact registerWrite_sets h (ho ▸ writeBar_gtrootHigh s n w he)
    · exact registerWrite_sets h (ho ▸ writeBar_invaddrLow s n w)
    · exact registerWrite_sets h (ho ▸ writeBar_invaddrHigh s n w)
    · exact registerWrite_sets h (ho ▸ writeBar_miglistLow s n w)
    · exact registerWrite_sets h (ho ▸ writeBar_miglistHigh s n w)
    · exact registerWrite_sets h (ho ▸ writeBar_invalidate s n hb hw)
    · exact registerWrite_ignored h (ho ▸ writeBar_invalidate_ignored s n hb)
    · exact registerWrite_sets h (ho ▸ writeBar_mign s n h8 h9)
  · -- a doorbell
    have e : exec x s = .next { s with sys := s.sys.doorbell s.gtime n k i } := by
      obtain ⟨rfl, rfl, hd⟩ | ⟨rfl, rfl, hd⟩ := h
      · exact exec_commandDoorbell hd
      · exact exec_replyDoorbell hd
    refine ⟨fun hb => ?_, fun he hb => ?_⟩
    · rw [doorbell_moves _ _ _ _ _ hb] at e
      refine ⟨_, onlyVf_modVf e, by simp, fun j hj => by simp [hj], rfl⟩
    · obtain ⟨hc, hr⟩ := doorbell_refused_vf s.sys s.gtime n k i he hb
      exact ⟨_, e, hc, hr, doorbell_refused_record _ _ _ _ _ he hb⟩
  · -- CIDX of a device-produced ring
    refine ⟨_, onlyVf_modVf (exec_cidxWrite h h1 h4), by simp [Vf.writeCidx_ring], fun j hj => by simp [Vf.writeCidx_ring, hj], fun h3 => ?_,
      fun h3 q hq hp => ?_⟩
    · rw [Vf.writeCidx_of_ne _ _ h3]
      rfl
    · subst h3
      exact Vf.writeCidx_passed _ _ (List.mem_filter.2 ⟨hq, decide_eq_true hp⟩)
  · -- reads of BAR0
    refine ⟨readReg_en y n, rfl, rfl, fun r hr => ⟨readReg_pidx y n hr, readReg_cidx y n hr⟩,
      fun hv => ⟨readReg_ealcnt y n hv, readReg_snapnoA y n hv, readReg_snapnoB y n hv⟩, fun hv k e hk hn he => ?_⟩
    have word : ∀ o, o < 32 → readReg y n (0x2000 + 32 * (k % 256) + o) = e.word (o / 4) := fun o ho => readReg_eal y n hv hk hn he ho
    exact ⟨(word 0x00 (by omega)).trans e.word_cause, word 0x04 (by omega), word 0x08 (by omega), word 0x0C (by omega),
      (word 0x10 (by omega)).trans e.word_agent, word 0x14 (by omega), word 0x18 (by omega), word 0x1C (by omega)⟩

end Sys2Proof.Machine

namespace Sys2Proof.Machine

/-! ## SPDM (R64) -/

/-! ### The length of a SHA-512 digest -/

theorem beBytes_length (n x : Nat) : (beBytes n x).length = n := by
  induction n generalizing x with
  | zero => rfl
  | succ n ih => rw [beBytes, List.length_append, ih, List.length_singleton]

/-- A list of bytes that are made in runs of one length. -/
theorem length_flatMap_const {α β : Type} {f : α → List β} {n : Nat} (h : ∀ x, (f x).length = n) (l : List α) :
    (l.flatMap f).length = l.length * n := by
  induction l with
  | nil => exact (Nat.zero_mul n).symm
  | cons x r ih => rw [List.flatMap_cons, List.length_append, h, ih, List.length_cons, Nat.succ_mul, Nat.add_comm]

/-- A round keeps the eight working words. -/
theorem shaRound_length {v : List DWord} (x : DWord) (h : v.length = 8) : (shaRound v x).length = 8 := by
  simp [shaRound, h]

theorem shaRounds_length (ks w : List DWord) {v : List DWord} (h : v.length = 8) : (shaRounds ks w v).length = 8 := by
  induction ks generalizing w v with
  | nil => exact h
  | cons k ks ih => exact ih _ (shaRound_length _ h)

theorem shaBlocks_length (n : Nat) {h : List DWord} (m : List Byte) (hh : h.length = 8) : (shaBlocks n h m).length = 8 := by
  induction n generalizing h m with
  | zero => exact hh
  | succ n ih => exact ih _ (by rw [List.length_zipWith, shaRounds_length _ _ hh, hh]; rfl)

theorem shaPrimes_take : shaPrimes.take 8 = [2, 3, 5, 7, 11, 13, 17, 19] := by
  decide

theorem shaInit_length : shaInit.length = 8 := by
  rw [shaInit, shaPrimes_take]
  rfl

theorem sha512_length (m : List Byte) : (sha512 m).length = 64 := by
  rw [sha512, length_flatMap_const (fun x => beBytes_length 8 _), shaBlocks_length _ _ shaInit_length]

/-! ### What the responder answers with -/

theorem measurement_length (y : Sys) (fuse i : Nat) : (measurement y fuse i).length = 64 := by
  unfold measurement
  split
  · exact sha512_length _
  · simp

theorem measurement_tables (y : Sys) (fuse : Nat) : measurement y fuse 3 = sha512 y.tablesWritten := rfl

/-- All four measurement blocks, one after another: the third is the tables' digest. -/
theorem measurements_all (y : Sys) (fuse : Nat) :
    ((measurementsNamed 0xFF).flatMap (measurement y fuse)).length = 256 ∧
      (((measurementsNamed 0xFF).flatMap (measurement y fuse)).drop 128).take 64 = sha512 y.tablesWritten := by
  have e : (measurementsNamed 0xFF).flatMap (measurement y fuse) =
      (measurement y fuse 1 ++ measurement y fuse 2) ++ (measurement y fuse 3 ++ measurement y fuse 4) := by
    simp [measurementsNamed]
  have h12 : (measurement y fuse 1 ++ measurement y fuse 2).length = 128 := by simp [measurement_length]
  refine ⟨by simp [e, measurement_length], ?_⟩
  rw [e, List.drop_left' h12, List.take_left' (measurement_length y fuse 3), measurement_tables]

theorem measurementsNamed_eq_nil (i : Nat) : measurementsNamed i = [] ↔ ¬ ((1 ≤ i ∧ i ≤ 4) ∨ i = 0xFF) := by
  unfold measurementsNamed
  by_cases hF : i = 0xFF
  · simp [hF]
  · by_cases h1 : 1 ≤ i ∧ i ≤ 4 <;> simp [hF, h1]

theorem freeBytes_length (y : Sys) (n : Nat) : (freeBytes y n).1.length = n := by
  rw [freeBytes, List.length_take, length_flatMap_const (fun j => bytesOf_length 8 _), List.length_range]
  omega

theorem algorithmsBody_fields : algorithmsBody.length = 44 ∧ field algorithmsBody 8 4 = 0x40 ∧ field algorithmsBody 12 4 = 0x04 ∧
    field algorithmsBody 32 2 = 0x2002 ∧ field algorithmsBody 34 2 = 0x10 ∧ field algorithmsBody 36 2 = 0x2003 ∧
    field algorithmsBody 38 2 = 0x02 := by decide

/-! ### A request in its order and out of it -/

/-- What Obligations.SpdmRequests says of one request: how the event is answered where the responder is ready for it, and where it is not. -/
def SpdmServes (s : State) (n : Nat) (x : Instr) (ready : Bool) (after : Spdm) (code : Nat) (body : List Byte → Prop) : Prop :=
  (ready = true → ∃ (z : Sys) (b : List Byte), exec x s = .next { s with sys := z } ∧ body b ∧ z.spdmAt n = after ∧
    (∀ m, m ≠ n → z.spdmAt m = s.sys.spdmAt m) ∧
    { z with answers := s.sys.answers, spdm := s.sys.spdm, free := s.sys.free } = s.sys ∧
    z.answers = s.sys.answers ++ [{ peer := 0x100 + n, code := code, status := 0, seq := 0, bytes := b }]) ∧
  (ready = false → exec x s = .next { s with sys := s.sys.spdmSay n spdmError 4 [] })

/-- The package with a responder changed and some free values used. -/
def Sys.spdmMoved (y : Sys) (n : Nat) (k : Spdm) (used : Nat) : Sys := { y with spdm := tset y.spdm n k, free := y.free + used }

section
variable {y : Sys} {n : Nat} {ready : Spdm → Bool} {f : Spdm → Spdm} {code : Nat} {body : Sys → List Byte × Sys}

theorem spdmReq_inOrder {b : List Byte} {used : Nat} (hn : n < 3) (hr : ready (y.spdmAt n) = true)
    (hb : body (y.spdmMoved n (f (y.spdmAt n)) 0) = (b, y.spdmMoved n (f (y.spdmAt n)) used)) :
    spdmReq y n ready f code body = { sys := (y.spdmMoved n (f (y.spdmAt n)) used).spdmSay n code 0 b } := by
  change body { y with spdm := tset y.spdm n (f (y.spdmAt n)) } = _ at hb
  rw [spdmReq, if_neg (by omega), if_pos hr, hb]

theorem spdmReq_outOfOrder (hn : n < 3) (hr : ready (y.spdmAt n) = false) :
    spdmReq y n ready f code body = { sys := y.spdmSay n spdmError 4 [] } := by
  rw [spdmReq, if_neg (by omega), if_neg (by simp [hr])]

end

/-- An event that is one `spdmReq`, whose body changes nothing but the free values used. -/
theorem spdmReq_serves {s : State} {n : Nat} {x : Instr} {ready : Spdm → Bool} {f : Spdm → Spdm} {code : Nat} {body : Sys → List Byte × Sys}
    {P : List Byte → Prop} (hn : n < 3) (hx : exec x s = .next ((spdmReq s.sys n ready f code body).apply s))
    (hb : ∀ k, ∃ b used, body (s.sys.spdmMoved n k 0) = (b, s.sys.spdmMoved n k used) ∧ P b) :
    SpdmServes s n x (ready (s.sys.spdmAt n)) (f (s.sys.spdmAt n)) code P := by
  refine ⟨fun hr => ?_, fun hr => ?_⟩
  · obtain ⟨b, used, e, hP⟩ := hb (f (s.sys.spdmAt n))
    rw [spdmReq_inOrder hn hr e] at hx
    refine ⟨_, b, hx, hP, ?_, fun m hm => ?_, rfl, rfl⟩
    · exact (tget_tset ..).trans (if_pos rfl)
    · exact (tget_tset ..).trans (if_neg hm)
  · rw [spdmReq_outOfOrder hn hr] at hx
    exact hx

/-- A request whose answer uses no free value. -/
theorem spdmReq_serves_fixed {s : State} {n : Nat} {x : Instr} {ready : Spdm → Bool} {f : Spdm → Spdm} {code : Nat} {b : Sys → List Byte}
    {P : List Byte → Prop} (hn : n < 3) (hx : exec x s = .next ((spdmReq s.sys n ready f code (fun y => (b y, y))).apply s))
    (hb : ∀ k, P (b (s.sys.spdmMoved n k 0))) : SpdmServes s n x (ready (s.sys.spdmAt n)) (f (s.sys.spdmAt n)) code P :=
  spdmReq_serves hn hx (fun k => ⟨_, 0, rfl, hb k⟩)

/-- A request answered with bytes that the specification leaves open. -/
theorem spdmReq_serves_free {s : State} {n m : Nat} {x : Instr} {ready : Spdm → Bool} {f : Spdm → Spdm} {code : Nat} (hn : n < 3)
    (hx : exec x s = .next ((spdmReq s.sys n ready f code (fun y => freeBytes y m)).apply s)) :
    SpdmServes s n x (ready (s.sys.spdmAt n)) (f (s.sys.spdmAt n)) code (fun b => b.length = m) :=
  spdmReq_serves hn hx (fun _ => ⟨_, (m + 7) / 8, rfl, freeBytes_length _ m⟩)

/-! ### The ten requests -/

section
variable {s : State} {n : Nat}

theorem exec_spdmGetVersion (h : s.sys.ev = some (.spdmGetVersion n)) : exec .spdmGetVersion s =
    .next ((spdmReq s.sys n (fun _ => true) (fun _ => { version := true }) spdmVersion (fun y => ([0x00, 0x12, 0x00, 0x13], y))).apply s) := by
  change execSpdmGetVersion s = _
  simp only [execSpdmGetVersion, eventNext_next, h]

theorem exec_spdmGetCapabilities (h : s.sys.ev = some (.spdmGetCapabilities n)) : exec .spdmGetCapabilities s =
    .next ((spdmReq s.sys n (fun k => k.version) (fun k => { k with capabilities := true }) spdmCapabilities
      (fun y => freeBytes y 12)).apply s) := by
  change execSpdmGetCapabilities s = _
  simp only [execSpdmGetCapabilities, eventNext_next, h]

theorem exec_spdmNegotiateAlgorithms (h : s.sys.ev = some (.spdmNegotiateAlgorithms n)) : exec .spdmNegotiateAlgorithms s =
    .next ((spdmReq s.sys n (fun k => k.capabilities) (fun k => { k with algorithms := true }) spdmAlgorithms
      (fun y => (algorithmsBody, y))).apply s) := by
  change execSpdmNegotiateAlgorithms s = _
  simp only [execSpdmNegotiateAlgorithms, eventNext_next, h]

theorem exec_spdmGetDigests (h : s.sys.ev = some (.spdmGetDigests n)) : exec .spdmGetDigests s =
    .next ((spdmReq s.sys n (fun k => k.algorithms) id spdmDigests (fun y => (sha512 certChain, y))).apply s) := by
  change execSpdmGetDigests s = _
  simp only [execSpdmGetDigests, eventNext_next, h]

theorem exec_spdmGetCertificate (h : s.sys.ev = some (.spdmGetCertificate n)) : exec .spdmGetCertificate s =
    .next ((spdmReq s.sys n (fun k => k.algorithms) id spdmCertificate (fun y => (certChain, y))).apply s) := by
  change execSpdmGetCertificate s = _
  simp only [execSpdmGetCertificate, eventNext_next, h]

theorem exec_spdmChallenge {c : List Byte} (h : s.sys.ev = some (.spdmChallenge n c)) : exec .spdmChallenge s =
    .next ((spdmReq s.sys n (fun k => k.algorithms) id spdmChallengeAuth (fun y => freeBytes y 512)).apply s) := by
  change execSpdmChallenge s = _
  simp only [execSpdmChallenge, eventNext_next, h]

theorem exec_spdmKeyExchange {c : List Byte} (h : s.sys.ev = some (.spdmKeyExchange n c)) : exec .spdmKeyExchange s =
    .next ((spdmReq s.sys n (fun k => k.algorithms) (fun k => { k with exchanged := true, session := false }) spdmKeyExchangeRsp
      (fun y => freeBytes y 608)).apply s) := by
  change execSpdmKeyExchange s = _
  simp only [execSpdmKeyExchange, eventNext_next, h]

theorem exec_spdmFinish (h : s.sys.ev = some (.spdmFinish n)) : exec .spdmFinish s =
    .next ((spdmReq s.sys n (fun k => k.exchanged) (fun k => { k with exchanged := false, session := true }) spdmFinishRsp
      (fun y => ([], y))).apply s) := by
  change execSpdmFinish s = _
  simp only [execSpdmFinish, eventNext_next, h]

theorem exec_spdmEndSession (h : s.sys.ev = some (.spdmEndSession n)) : exec .spdmEndSession s =
    .next ((spdmReq s.sys n (fun k => k.session) (fun k => { k with session := false }) spdmEndSessionAck (fun y => ([], y))).apply s) := by
  change execSpdmEndSession s = _
  simp only [execSpdmEndSession, eventNext_next, h]

/-- The indices that GET_MEASUREMENTS takes: how many blocks there are, one block, or all. -/
def measurementIndex (i : Nat) : Prop := i = 0 ∨ (1 ≤ i ∧ i ≤ 4) ∨ i = 0xFF

theorem measurementIndex_iff (i : Nat) : (i != 0 && (measurementsNamed i).isEmpty) = true ↔ ¬ measurementIndex i := by
  rw [Bool.and_eq_true, List.isEmpty_iff, measurementsNamed_eq_nil, bne_iff_ne, ← not_or]
  rfl

/-- The blocks that an index asks for, or their number. -/
def measurementsBody (y : Sys) (fuse i : Nat) : List Byte := if i = 0 then [4] else (measurementsNamed i).flatMap (measurement y fuse)

theorem exec_spdmGetMeasurements {i : Nat} (hn : n < 3) (hi : measurementIndex i) (h : s.sys.ev = some (.spdmGetMeasurements n i)) :
    exec .spdmGetMeasurements s =
      .next ((spdmReq s.sys n (fun k => k.algorithms) id spdmMeasurements (fun y => (measurementsBody y s.fuse i, y))).apply s) := by
  change execSpdmGetMeasurements s = _
  simp only [execSpdmGetMeasurements, eventNext_next, h]
  rw [if_neg (by omega), if_neg (fun hb => (measurementIndex_iff i).1 hb hi)]
  rfl

theorem exec_spdmGetMeasurements_unknown {i : Nat} (hn : n < 3) (hi : ¬ measurementIndex i) (h : s.sys.ev = some (.spdmGetMeasurements n i)) :
    exec .spdmGetMeasurements s = .next { s with sys := s.sys.spdmSay n spdmError 1 [] } := by
  change execSpdmGetMeasurements s = _
  refine eventNext_sys ?_
  simp only [h]
  rw [if_neg (by omega), if_pos ((measurementIndex_iff i).2 hi)]

end

/-- The number of blocks, the tables' digest as the third, and all four: the third from byte 128 on. -/
theorem measurementsBody_says (y : Sys) (fuse i : Nat) :
    (i = 0 → measurementsBody y fuse i = [4]) ∧ (i = 3 → measurementsBody y fuse i = sha512 y.tablesWritten) ∧
      (i = 0xFF → (measurementsBody y fuse i).length = 256 ∧ ((measurementsBody y fuse i).drop 128).take 64 = sha512 y.tablesWritten) := by
  refine ⟨fun h => if_pos h, fun h => ?_, fun h => ?_⟩
  · subst h
    exact List.append_nil _
  · subst h
    exact measurements_all y fuse

/-- Settles O37. Each event is one `spdmReq` (`exec_spdm…`), which `spdmReq_serves` answers in its order and out of it; what is left is the body
of each answer. The order and the codes are those of the DMTF standard (PRESUMED, assumption log 10), the layout of the tables that are measured
is assumption log 61. -/
theorem spdmRequests : Obligations.SpdmRequests := by
  unfold Obligations.SpdmRequests
  intro s n hn
  refine ⟨fun h => ?_, fun h => ?_, fun h => ?_, fun h => ?_, fun h => ?_, fun c h => ?_, fun i hi h => ?_, fun i hi h => ?_, fun c h => ?_,
    fun h => ?_, fun h => ?_⟩
  · exact spdmReq_serves_fixed hn (exec_spdmGetVersion h) (fun _ => rfl)
  · exact spdmReq_serves_free hn (exec_spdmGetCapabilities h)
  · exact spdmReq_serves_fixed hn (exec_spdmNegotiateAlgorithms h) (fun _ => algorithmsBody_fields)
  · exact spdmReq_serves_fixed hn (exec_spdmGetDigests h) (fun _ => rfl)
  · exact spdmReq_serves_fixed hn (exec_spdmGetCertificate h) (fun _ => rfl)
  · exact spdmReq_serves_free hn (exec_spdmChallenge h)
  · exact spdmReq_serves_fixed hn (exec_spdmGetMeasurements hn hi h) (fun _ => measurementsBody_says _ s.fuse i)
  · exact exec_spdmGetMeasurements_unknown hn hi h
  · exact spdmReq_serves_free hn (exec_spdmKeyExchange h)
  · exact spdmReq_serves_fixed hn (exec_spdmFinish h) (fun _ => rfl)
  · exact spdmReq_serves_fixed hn (exec_spdmEndSession h) (fun _ => rfl)

end Sys2Proof.Machine

namespace Sys2Proof.Machine

/-! ## CXL.mem (R57, R166) -/

/-! ### A request that fails -/

theorem ringRecord_answers (y : Sys) (now n : Nat) (c : Cause) (a : DWord) : (y.ringRecord now n c a).answers = y.answers := by
  unfold Sys.ringRecord
  simp only
  split <;> rfl

/-- The failure's answer, and the record that it leaves where the VF is bound. -/
theorem cxlFail_fails {s : State} {x : Instr} {vf a code : Nat} {c : Cause}
    (h : exec x s = .next { s with sys := s.sys.cxlFail s.gtime vf a code c }) :
    ∃ z, exec x s = .next { s with sys := z } ∧
      z.answers = s.sys.answers ++ [{ peer := vf, code := code, status := c.code, seq := 0, bytes := [] }] ∧
      ((s.sys.vf vf).valid = true → s.sys.newestRecord z (s.sys.vf vf).part.toNat c .host (BitVec.ofNat 64 a)) :=
  ⟨_, h, by rw [Sys.cxlFail, ringRecord_answers], fun hv => ringRecord_newest s.sys s.gtime vf c _ hv⟩

theorem oneLine_eq_true {a n : Nat} (h1 : 1 ≤ n) (h64 : a % 64 + n ≤ 64) : oneLine a n = true := by
  simp [oneLine, h1, h64]

/-! ### What memory's checks and captures leave -/

/-- Two packages have the same leases, answers and CXL.mem writes, and their partitions the same dies. -/
structure SameHome (y z : Sys) : Prop where
  leases : z.leases = y.leases
  answers : z.answers = y.answers
  hostWrites : z.hostWrites = y.hostWrites
  valid : ∀ p, (z.part p).valid = (y.part p).valid
  dies : ∀ p, (z.part p).dies = (y.part p).dies

theorem SameHome.refl (y : Sys) : SameHome y y := ⟨rfl, rfl, rfl, fun _ => rfl, fun _ => rfl⟩

theorem SameHome.trans {x y z : Sys} (h : SameHome x y) (k : SameHome y z) : SameHome x z :=
  ⟨k.leases.trans h.leases, k.answers.trans h.answers, k.hostWrites.trans h.hostWrites, fun p => (k.valid p).trans (h.valid p),
    fun p => (k.dies p).trans (h.dies p)⟩

theorem SameHome.foldl {α : Type} {f : Sys → α → Sys} (h : ∀ y a, SameHome y (f y a)) (l : List α) (y : Sys) : SameHome y (l.foldl f y) :=
  List.foldlRecOn l f (.refl y) (fun z hz a _ => hz.trans (h z a))

theorem sameHome_claim (y : Sys) (a key : Nat) : SameHome y (y.claim a key) := by
  unfold Sys.claim
  split
  · exact ⟨rfl, rfl, rfl, fun _ => rfl, fun _ => rfl⟩
  · exact .refl y

theorem sameHome_countCorrected (y : Sys) (w : Nat) : SameHome y (y.countCorrected w) := by
  unfold Sys.countCorrected
  simp only
  split <;> exact ⟨rfl, rfl, rfl, fun _ => rfl, fun _ => rfl⟩

theorem sameHome_correct (y : Sys) (w : Nat) : SameHome y (y.correct w) :=
  (sameHome_countCorrected y w).trans ⟨rfl, rfl, rfl, fun _ => rfl, fun _ => rfl⟩

/-- One correctable word that a write reaches (R62). -/
theorem sameHome_clearWord (y : Sys) (a n w : Nat) : SameHome y (
    if !y.eccCorrectable.contains w then y
    else if coversWord a n w then { y with eccCorrectable := y.eccCorrectable.filter (fun x => x != w) } else y.correct w) := by
  split
  · exact .refl y
  · split
    · exact ⟨rfl, rfl, rfl, fun _ => rfl, fun _ => rfl⟩
    · exact sameHome_correct y w

theorem sameHome_clearEcc (y : Sys) (a n : Nat) : SameHome y (y.clearEcc a n) := by
  unfold Sys.clearEcc
  extract_lets y1
  have hbad : SameHome y y1 := by
    unfold y1
    split
    · exact .refl y
    · exact ⟨rfl, rfl, rfl, fun _ => rfl, fun _ => rfl⟩
  split
  · exact hbad
  · exact hbad.trans (.foldl (fun z w => sameHome_clearWord z a n w) _ _)

/-- A capture changes the colours of a partition alone (R195). -/
theorem sameHome_captureGranule (s : State) (p : Nat) (g : Granule) : SameHome s.sys (captureGranule s p g) := by
  unfold captureGranule
  simp only
  split
  · refine ⟨rfl, rfl, rfl, fun q => ?_, fun q => ?_⟩ <;>
      · rw [Sys.modPart_part]
        split
        next h => rw [h]
        next => rfl
  · exact .refl _

theorem sameHome_putBytes (s : State) (f : Nat) (bs : List Byte) : SameHome s.sys (putBytes s f bs).sys :=
  (SameHome.foldl (fun y (q : Nat × Granule) => sameHome_captureGranule { s with sys := y } q.1 q.2) _ _).trans (sameHome_clearEcc _ _ _)

/-! ### GWCT (R146) -/

theorem SameHome.dieList {y z : Sys} (h : SameHome y z) (p : Nat) : (z.part p).dieList = (y.part p).dieList := by
  rw [Part.dieList, Part.dieList, h.dies]

theorem SameHome.partOfFlat {y z : Sys} (h : SameHome y z) (f : Nat) : z.partOfFlat f = y.partOfFlat f := by
  simp only [Sys.partOfFlat, Sys.partOfDie, h.valid, h.dies]

theorem SameHome.flat {y z : Sys} (h : SameHome y z) (p m : Nat) : (z.part p).flat m = (y.part p).flat m := by
  rw [Part.flat, h.dieList, ← Part.flat]

theorem SameHome.unflat {y z : Sys} (h : SameHome y z) (p f : Nat) : (z.part p).unflat f = (y.part p).unflat f := by
  rw [Part.unflat, h.dieList, ← Part.unflat]

theorem SameHome.runOf {y z : Sys} (h : SameHome y z) (f n : Nat) : z.runOf f n = y.runOf f n := by
  simp only [Sys.runOf, h.partOfFlat, h.flat, h.unflat]

theorem SameHome.linesOf {y z : Sys} (h : SameHome y z) (f n : Nat) : z.linesOf f n = y.linesOf f n := by
  rw [Sys.linesOf, h.runOf, ← Sys.linesOf]

theorem SameHome.gwct {y z : Sys} (h : SameHome y z) (now f n : Nat) : z.gwct now f n = y.gwct now f n := by
  simp only [Sys.gwct, h.linesOf, h.leases]

theorem le_gwct (y : Sys) (now f n : Nat) : now ≤ y.gwct now f n :=
  List.foldlRecOn _ _ (motive := fun m => now ≤ m) (Nat.le_refl now) (fun _ hm _ _ => Nat.le_trans hm (Nat.le_max_left ..))

/-! ### Writes -/

section
variable {s : State} {vf a : Nat} {bs : List Byte}

theorem exec_cxlMemWrite_limit (h : s.sys.ev = some (.cxlMemWrite vf a bs)) (ho : oneLine a bs.length = true) (hv : (s.sys.vf vf).valid = true)
    (hf : heapFlat (s.sys.part (s.sys.vf vf).part.toNat) (s.sys.vf vf).heap a bs.length = none) :
    exec .cxlMemWrite s = .next { s with sys := s.sys.cxlFail s.gtime vf a cxlWriteDone .limit } := by
  change execCxlMemWrite s = _
  exact eventNext_sys (by simp [h, ho, hv, hf])

variable {f k : Nat}

theorem exec_cxlMemWrite_error {c : Cause} (h : s.sys.ev = some (.cxlMemWrite vf a bs)) (ho : oneLine a bs.length = true)
    (hv : (s.sys.vf vf).valid = true)
    (hf : heapFlat (s.sys.part (s.sys.vf vf).part.toNat) (s.sys.vf vf).heap a bs.length = some (f, k))
    (hs : s.sys.writeStalls f bs.length = false) (hc : s.sys.writeError f bs.length k = some c) :
    exec .cxlMemWrite s = .next { s with sys := s.sys.cxlFail s.gtime vf a cxlWriteDone c } := by
  change execCxlMemWrite s = _
  exact eventNext_sys (by simp [h, ho, hv, hf, hs, hc])

/-- The package once a CXL.mem write has been performed, but for its completion. -/
def cxlPerformed (s : State) (f k : Nat) (bs : List Byte) : Sys := (putBytes { s with sys := s.sys.claim f k } f bs).sys

theorem exec_cxlMemWrite_performed (h : s.sys.ev = some (.cxlMemWrite vf a bs)) (ho : oneLine a bs.length = true)
    (hv : (s.sys.vf vf).valid = true)
    (hf : heapFlat (s.sys.part (s.sys.vf vf).part.toNat) (s.sys.vf vf).heap a bs.length = some (f, k))
    (hs : s.sys.writeStalls f bs.length = false) (hc : s.sys.writeError f bs.length k = none) :
    exec .cxlMemWrite s = .next { s with
      mem := writeCells s.mem (cellsAt f bs)
      sys := { cxlPerformed s f k bs with
        nextId := (cxlPerformed s f k bs).nextId + 1
        hostWrites := (cxlPerformed s f k bs).hostWrites ++
          [{ id := (cxlPerformed s f k bs).nextId, vf := vf, gwct := (cxlPerformed s f k bs).gwct s.gtime f bs.length }] } } := by
  change execCxlMemWrite s = _
  rw [execCxlMemWrite, eventNext_next]
  simp only [h, ho, hv, hf, hs, hc, Bool.not_true, Bool.false_eq_true, if_false, if_true]
  rfl

theorem sameHome_cxlPerformed (s : State) (f k : Nat) (bs : List Byte) : SameHome s.sys (cxlPerformed s f k bs) :=
  (sameHome_claim s.sys f k).trans (sameHome_putBytes { s with sys := s.sys.claim f k } f bs)

end

/-! ### Completions -/

theorem exec_cxlMemWriteComplete_waits {s : State} {u : Nat} {w : HostWrite} (h : s.sys.ev = some (.cxlMemWriteComplete u))
    (hw : s.sys.hostWrites.find? (fun x => x.id == u) = some w) (hg : s.gtime ≤ w.gwct) : exec .cxlMemWriteComplete s = .next s := by
  change execCxlMemWriteComplete s = _
  exact eventNext_sys (y := s.sys) (by simp [h, hw, Nat.not_lt.2 hg, Eff.none])

theorem exec_cxlMemWriteComplete_done {s : State} {u : Nat} {w : HostWrite} (h : s.sys.ev = some (.cxlMemWriteComplete u))
    (hw : s.sys.hostWrites.find? (fun x => x.id == u) = some w) (hg : w.gwct < s.gtime) :
    exec .cxlMemWriteComplete s = .next { s with sys := { s.sys with
      hostWrites := s.sys.hostWrites.filter (fun x => x.id != u)
      answers := s.sys.answers ++ [{ peer := w.vf, code := cxlWriteDone, status := 0, seq := 0, bytes := [] }] } } := by
  change execCxlMemWriteComplete s = _
  exact eventNext_sys (by simp [h, hw, hg])

/-! ### Reads -/

section
variable {s : State} {vf a n : Nat}

theorem exec_cxlMemRead_limit (h : s.sys.ev = some (.cxlMemRead vf a n)) (ho : oneLine a n = true) (hv : (s.sys.vf vf).valid = true)
    (hf : heapFlat (s.sys.part (s.sys.vf vf).part.toNat) (s.sys.vf vf).heap a n = none) :
    exec .cxlMemRead s = .next { s with sys := s.sys.cxlFail s.gtime vf a cxlReadData .limit } := by
  change execCxlMemRead s = _
  exact eventNext_sys (by simp [h, ho, hv, hf])

variable {f k : Nat}

theorem exec_cxlMemRead_error {c : Cause} (h : s.sys.ev = some (.cxlMemRead vf a n)) (ho : oneLine a n = true) (hv : (s.sys.vf vf).valid = true)
    (hf : heapFlat (s.sys.part (s.sys.vf vf).part.toNat) (s.sys.vf vf).heap a n = some (f, k)) (hc : s.sys.readError f n k = some c) :
    exec .cxlMemRead s = .next { s with sys := s.sys.cxlFail s.gtime vf a cxlReadData c } := by
  change execCxlMemRead s = _
  exact eventNext_sys (by simp [h, ho, hv, hf, hc])

theorem exec_cxlMemRead_performed (h : s.sys.ev = some (.cxlMemRead vf a n)) (ho : oneLine a n = true) (hv : (s.sys.vf vf).valid = true)
    (hf : heapFlat (s.sys.part (s.sys.vf vf).part.toNat) (s.sys.vf vf).heap a n = some (f, k)) (hc : s.sys.readError f n k = none) :
    exec .cxlMemRead s = .next { s with sys := { s.sys.readAt f n k with
      answers := (s.sys.readAt f n k).answers ++ [{ peer := vf, code := cxlReadData, status := 0, seq := 0, bytes := readBytes s.mem f n }] } } := by
  change execCxlMemRead s = _
  exact eventNext_sys (by simp [h, ho, hv, hf, hc])

end

/-- Two packages differ in the frames' keys and the corrected errors alone. -/
def Sys.readOnlyTo (y z : Sys) : Prop := { z with frames := y.frames, corrected := y.corrected, dies := y.dies } = y

theorem Sys.readOnlyTo.answers {y z : Sys} (h : y.readOnlyTo z) : z.answers = y.answers := by
  rw [← h]

theorem Sys.readOnlyTo_claim (y : Sys) (a key : Nat) : y.readOnlyTo (y.claim a key) := by
  unfold Sys.claim
  split <;> rfl

theorem Sys.readOnlyTo.countCorrected {y z : Sys} (h : y.readOnlyTo z) (w : Nat) : y.readOnlyTo (z.countCorrected w) := by
  unfold Sys.countCorrected
  simp only
  split <;> exact h

/-- A read claims its frame and counts what ECC corrects (R59, R61), and changes nothing else. -/
theorem Sys.readOnlyTo_readAt (y : Sys) (a n key : Nat) : y.readOnlyTo (y.readAt a n key) := by
  unfold Sys.readAt
  simp only
  split
  · exact y.readOnlyTo_claim a key
  · exact List.foldlRecOn _ _ (y.readOnlyTo_claim a key) (fun _ hz w _ => hz.countCorrected w)

/-- Settles O40. Writes and reads: the place outside the window, the error of memory's checks, and the access performed (`SameHome`, `readOnlyTo`
say what it leaves); completions: before and after the GWCT. That the record names the host as its requester is assumption log 22. -/
theorem cxlMemory : Obligations.CxlMemory := by
  unfold Obligations.CxlMemory
  refine fun s => ⟨fun vf a bs h h1 h64 hv => ?_, fun u w h hw => ?_, fun vf a n h h1 h64 hv => ?_⟩
  · have ho := oneLine_eq_true h1 h64
    refine ⟨fun hf => cxlFail_fails (exec_cxlMemWrite_limit h ho hv hf), fun f k hf hs =>
      ⟨fun c hc => cxlFail_fails (exec_cxlMemWrite_error h ho hv hf hs hc), fun hc => ?_⟩⟩
    have hsame := sameHome_cxlPerformed s f k bs
    refine ⟨_, _, exec_cxlMemWrite_performed h ho hv hf hs hc, congrArg (· ++ _) hsame.hostWrites, rfl, le_gwct .., hsame.gwct .., hsame.answers⟩
  · exact ⟨exec_cxlMemWriteComplete_waits h hw, exec_cxlMemWriteComplete_done h hw⟩
  · have ho := oneLine_eq_true h1 h64
    refine ⟨fun hf => cxlFail_fails (exec_cxlMemRead_limit h ho hv hf), fun f k hf =>
      ⟨fun c hc => cxlFail_fails (exec_cxlMemRead_error h ho hv hf hc), fun hc => ?_⟩⟩
    have hread := s.sys.readOnlyTo_readAt f n k
    exact ⟨_, exec_cxlMemRead_performed h ho hv hf hc, congrArg (fun z : Sys => { z with answers := s.sys.answers }) hread,
      congrArg (· ++ _) hread.answers⟩

end Sys2Proof.Machine
